-- ==== Sys2Proof/Word.lean ====
section
/-! DEFINITION. The word types of the Q9 and their plainest arithmetic (R2, R14). -/

namespace Sys2Proof

/-- A 64-bit register, instruction word or domain virtual address. -/
abbrev Word := BitVec 64

/-- One byte of memory. -/
abbrev Byte := BitVec 8

/-- A view mask of a notice board (Table 1.5). -/
abbrev ViewMask := BitVec 256

/-- The sticky flags of R60: bit 0 invalid, 1 divide by zero, 2 overflow, 3 underflow, 4 inexact. -/
abbrev Flags := BitVec 5

end Sys2Proof
end

