-- ==== Sys2Proof/Config.lean ====
section
/-! DEFINITION. What a Q9 fixes: the codes it reports (Table 19.1), its capacities (Tables 1.1, 1.4, R8, R193), and the
free values, which the manual leaves open. A free value is an opaque constant: nothing can be proved about its value. -/

namespace Sys2Proof

/-- The codes of Table 19.1, in number order. -/
inductive Code where
  | illegalOpcode | illegalClass | privInstr | illegalField | regRange
  | slotKind | formatIllegal | stallShort | descField | shapeIllegal | espRange | loopCount
  | bindEmpty | owner | bounds | rights | leaseLost
  | boardKind | feKind | feSpan | atomicAlign | recordAlign | orderKind | scopeNarrow | queueRange | barrierCount
  | atomicPath | gatherKind | tierKind | colGroup
  | branchAlign | depthLimit
  | barrierOver | boardFull | joinUnder
  | programTrap | breakpoint
  | launchField | launchCapacity | launchBind | leaseMiss | modeBusy | restoreCapacity | ctxAbsent | ctxLive
  | memPoison | dieReset | launchAbort
  deriving DecidableEq, Repr

/-- The classes of Table 19.1: H halts the thread, E ends the launch, R is a refusal. -/
inductive CodeClass where
  | halt | ends | refusal
  deriving DecidableEq, Repr

/-- The transcendental functions of Table 7.9. -/
inductive Transc where
  | exp2 | log2 | exp | log | rsqrt | sin | cos | tanh | erf
  deriving DecidableEq, Repr

namespace Config

/-- Workgroup slots of a core, and its BSYNC barriers (R8). -/
def coreSlots : Nat := 16

/-- Thread slots of a core (R8). -/
def coreThreads : Nat := 2048

/-- Register rows of a core (R8). -/
def coreRows : Nat := 4096

/-- Bytes of the SRAM of one near-tier die, 192 MiB (R16). -/
def sramBytes : Nat := 201326592

/-- Hardware queues of a package (Table 1.4). -/
def queues : Nat := 64

/-- Engine queue depths (R193). -/
def copyDepth : Nat := 64
def gatherDepth : Nat := 64
def lanes : Nat := 96
def laneWaiting : Nat := 4
def collectiveDepth : Nat := 16
def tpfDepth : Nat := 256

/-! ### Free values -/

/-- FREE VALUE (DESIGN CHOICE, log 7). The n-th open choice of the machine: an amount of time, which of several permitted writes a
read returns, whether a cached copy is used, a value the manual leaves open. -/
opaque free : Nat → Nat

/-- FREE VALUE (DESIGN CHOICE, log 9). The value a Q9 would deliver for a transcendental (R129), as the bits of the slot: function,
definition, effective rounding code, a number for the argument. It is used only where it meets the bound of Table 7.10. -/
opaque transc : Transc → Word → Nat → Nat → Nat

/-- FREE VALUE (PRESUMED, log 8). Verification of a signature by the vendor's first (Ed25519) and second (ML-DSA) key:
which key, message, signature. -/
opaque verify : Fin 2 → List Byte → List Byte → Bool

/-- FREE VALUE (PRESUMED, log 8). A signature by the module's own key `key` over a message. -/
opaque sign : Nat → List Byte → List Byte → List Byte

/-- FREE VALUE (PRESUMED, log 8). The public half of a derived key pair: key index, secret. -/
opaque publicKey : Nat → List Byte → List Byte

/-- FREE VALUE (DESIGN CHOICE, log 10). Byte `k` of the espalier part of the image with save number `n` (R288). -/
opaque espByte : Nat → Nat → Byte

/-- FREE VALUE (DESIGN CHOICE, log 7). The module's fused values (R312, R314, R318): serial number, secret, minimum SVN of
images, ROM version. -/
opaque serial : Word
opaque secret : BitVec 256
opaque minSvn : BitVec 32
opaque romVersion : BitVec 32

/-- FREE VALUE (DESIGN CHOICE, log 5). What the host has set for a die when the package is configured, in no way the manual describes:
the root of its page table (R254), and the addresses of its migration, trace and series control blocks (R263, R295, R297). -/
opaque pageRoot : Nat → Nat
opaque migrationBlock : Nat → Option Nat
opaque traceBlock : Nat → Option Nat
opaque seriesBlock : Nat → Option Nat

/-- FREE VALUE (DESIGN CHOICE, log 7). Byte `k` of what the scan with the n-th free choice delivers (R303). -/
opaque scanByte : Nat → Nat → Byte

end Config
end Sys2Proof
end

