-- ==== Sys2Proof/Syntax.lean ====
section
/-! DEFINITION. The steps of the Q9: one constructor of `Instr` for every row of the opcode table. The first part
are the 64-bit words of threads and pontils (Tables 6.8 to 6.16); the rest are the events, the host's commands and
the events of the links, of power and of bring-up. Register numbers and codes are turned into types here, so that
the machine never sees raw fields. -/

namespace Sys2Proof

/-! ## Fields of instruction words -/

/-- A thread register field: 0 to 254 name v0 to v254, 255 is vz (Table 6.7). -/
abbrev VReg := BitVec 8

/-- p0 to p6. -/
abbrev PReg := Fin 7

/-- vm0 to vm7. -/
abbrev VmReg := Fin 8

/-- q0 to q31. -/
abbrev QReg := Fin 32

/-- lc0 to lc3. -/
abbrev LcReg := Fin 4

/-- a0 to a15. -/
abbrev AReg := Fin 16

/-- A format slot, f0 to f15. -/
abbrev Slot := Fin 16

/-- The guard of a word (R20, R99, R100): always, or predicate (bit of cw) `k`, negated when `neg`. -/
inductive Guard where
  | always
  | pred (k : Fin 7) (neg : Bool)
  deriving DecidableEq, Repr

/-- The common fields of a word (Table 6.1). -/
structure Common where
  stall : Fin 16
  guard : Guard
  deriving DecidableEq, Repr

/-- Scopes (Table 1.3). -/
inductive Scope where
  | thread | warp | workgroup | cluster | die | device | system
  deriving DecidableEq, Repr

/-- The ORD field of format M (Table 2.1). -/
inductive Order where
  | plain | acquire | release | acqrel
  deriving DecidableEq, Repr

/-- The RM field (Table 2.1). -/
inductive Round where
  | slotDefault | rne | rna | rtz | rup | rdn | rsr | rod
  deriving DecidableEq, Repr

/-- Cross-lane modes (Table 6.17). -/
inductive CrossKind where
  | broadcast | rotate | butterfly | shiftDown | shiftUp
  deriving DecidableEq, Repr

/-- MOD as modifiers (Table 6.17): source modifiers (5 negate A, 4 absolute A, 3 negate B, 2 absolute B, 1 negate C,
0 absolute C), or a cross-lane operand (A, or B when `onB`). -/
inductive Mods where
  | source (smod : BitVec 6)
  | cross (kind : CrossKind) (dist : Fin 32) (onB : Bool)
  deriving DecidableEq, Repr

/-- Format M of a thread word (Table 6.4), less the data register. -/
structure MemOp where
  ofsReg : VReg
  bind : Fin 64
  ofs : BitVec 14
  scope : Scope
  order : Order
  evict : Fin 4
  lastUse : Bool
  slot : Slot
  deriving DecidableEq, Repr

/-- Format M of a pontil word (R192): the offset register is a q register, or none (0xFF, which reads as zero). -/
structure QMemOp where
  ofsReg : Option QReg
  bind : Fin 64
  ofs : BitVec 14
  scope : Scope
  order : Order
  evict : Fin 4
  lastUse : Bool
  slot : Slot
  deriving DecidableEq, Repr

/-- Special registers (Table 6.10). -/
inductive SReg where
  | lane | warp | tid | wgsize | wgx | wgy | wgz | gridx | gridy | gridz | depth | core | cluster | die | ndie | dev
  | mode | module | tick | fflags
  deriving DecidableEq, Repr

/-- Signed or unsigned forms (imulh, ishr, bfx). -/
inductive Signed where
  | signed | unsigned
  deriving DecidableEq, Repr

/-- icmp tests (Table 6.19). -/
inductive ITest where
  | eq | ne | lt | le | gt | ge | ltu | leu | gtu | geu
  deriving DecidableEq, Repr

inductive ILim where
  | min | max | minu | maxu
  deriving DecidableEq, Repr

inductive IBit where
  | popc | clz | ctz | brev
  deriving DecidableEq, Repr

inductive IUn where
  | neg | abs
  deriving DecidableEq, Repr

inductive FLim where
  | min | max | minnum | maxnum
  deriving DecidableEq, Repr

inductive FTest where
  | eq | ne | lt | le | gt | ge | un | or
  deriving DecidableEq, Repr

inductive FSgn where
  | abs | neg | cps (b : VReg) | xsgn (b : VReg)
  deriving DecidableEq, Repr

/-- plog with its source predicates (Table 7.13). -/
inductive PLog where
  | and (b : PReg) | or (b : PReg) | xor (b : PReg) | andn (b : PReg) | not | mov
  deriving DecidableEq, Repr

inductive Vote where
  | any | all
  deriving DecidableEq, Repr

inductive VmOp where
  | and | or | andn | xor
  deriving DecidableEq, Repr

/-- qop sub-operations 0 to 8 (Table 9.6). -/
inductive QAlu where
  | add | sub | mul | and | or | xor | shl | shr | hi
  deriving DecidableEq, Repr

/-- qop compares (Table 9.6). -/
inductive QTest where
  | eq | ne | ltu | lt
  deriving DecidableEq, Repr

/-- Privileged registers (Table 16.2). -/
inductive PrivReg where
  | ctx | cflags | btbase | btlen | queues | wgh
  deriving DecidableEq, Repr

/-! ## Names of units -/

/-- A core of a near-tier die, numbered as HDIE numbers dies. -/
structure CoreId where
  die : Fin 4
  cluster : Fin 32
  core : Fin 4
  deriving DecidableEq, Repr

structure ClusterId where
  die : Fin 4
  cluster : Fin 32
  deriving DecidableEq, Repr

/-- A pontil context: two a cluster. -/
structure PontilId where
  die : Fin 4
  cluster : Fin 32
  ctx : Fin 2
  deriving DecidableEq, Repr

/-- A thread, by the number its workgroup has in the model and its thread number. -/
structure ThreadId where
  wg : Nat
  tid : Nat
  deriving DecidableEq, Repr

/-- Port kinds of R304. -/
inductive PortKind where
  | ualink | cxl | ethernet
  deriving DecidableEq, Repr

/-- What a link's far end asks for (R6): what the Q9 supports of each standard, and what it refuses (R300, R306, R310). -/
inductive LinkOffer where
  | ualinkX4 | ualinkOther
  | etherReliable | etherOther
  | cxlExpander | cxlType1 | cxlType2 | cxlCache | cxlSwitched | cxlShared
  deriving DecidableEq, Repr

/-- The far end of a link that comes up: its module, and what it asks for. -/
structure LinkPeer where
  module : BitVec 11
  offer : LinkOffer
  deriving DecidableEq, Repr

/-- Atomic operations (Table 8.3). -/
inductive AtomOp where
  | add | min | max | and | or | xor | xchg | cas
  deriving DecidableEq, Repr

/-- A home-execute request that arrives from another module (R269): the atomic of R147 on the element at byte address
`addr` (bit `bit` of that byte) under definition `fdr`. -/
structure HomeRequest where
  module : BitVec 11
  tag : Word
  op : AtomOp
  addr : Word
  bit : Fin 8
  fdr : Word
  operand : Word
  operand2 : Word
  scope : Scope
  order : Order
  deriving DecidableEq, Repr

/-- A request that arrives from another module on UALink (R306): a read, a write, or a native atomic on an aligned integer of 32
or 64 bits. -/
inductive LinkRequest where
  | read
  | write (data : List Byte)
  | atomic (op : AtomOp) (signed wide : Bool) (x y : Word)
  deriving DecidableEq, Repr

/-- A register of a thread (Table 1.5). -/
inductive ThreadReg where
  | v (r : VReg)
  | p (r : PReg)
  | vm (r : VmReg)
  deriving DecidableEq, Repr

/-- What an uncorrectable soft error strikes (R279). -/
inductive ErrorUnit where
  | register (t : ThreadId) (r : ThreadReg)
  | line (loc : Nat)
  | nearControl (die : Fin 4)
  | farDie
  deriving DecidableEq, Repr

/-- A contribution to a collective that comes from another module (R202, R309): its rank's start, and its source
elements as bits. -/
structure RemoteRank where
  rank : Nat
  op : Nat
  count : Nat
  nrank : Nat
  alpha : Int
  rm : Round
  sdef : Word
  ddef : Word
  elems : List Nat
  deriving DecidableEq, Repr

/-- An image load's payload and the other fields of a host command are plain data; `tag` is copied into the reply. -/
abbrev Tag := BitVec 32

/-- A peer entry (Table 21.5). -/
structure PeerEntry where
  module : BitVec 11
  far : Fin 3
  natAtomics : Bool
  ports : BitVec 32
  deriving DecidableEq, Repr

/-- An engine that a group names (Table 21.6). -/
structure GroupMember where
  module : BitVec 11
  die : Fin 4
  deriving DecidableEq, Repr

/-- The fields of CTX_CREATE (Table 21.7). -/
structure CtxFields where
  mode : Fin 3
  device : Nat
  flags : BitVec 3
  btbase : Word
  btlen : Nat
  deriving DecidableEq, Repr

/-- The fields of QUEUE_SET (Table 21.7). -/
structure QueueFields where
  queue : Nat
  prio : Fin 4
  pre : Bool
  qbase : Word
  qlen : Nat
  sabase : Word
  salen : Word
  deriving DecidableEq, Repr

/-- Why a message with the operation code `op` is answered by UNKNOWN_OP (R301 to R303): malformed or unassigned, or refused in
minimal mode. -/
inductive BadMessage where
  | malformed (op : Nat)
  | notInThisMode (op : Nat)
  deriving DecidableEq, Repr

/-! ## The steps -/

inductive Instr where
  -- threads and pontils: shared
  | nop (c : Common)
  -- integer and address (Table 6.8)
  | iadd (c : Common) (d a b : VReg) (m : Mods)
  | isub (c : Common) (d a b : VReg) (m : Mods)
  | imul (c : Common) (d a b : VReg) (m : Mods)
  | imulh (c : Common) (d a b : VReg) (sg : Signed)
  | imad (c : Common) (d a b k : VReg) (m : Mods)
  | iand (c : Common) (d a b : VReg) (m : Mods)
  | ior (c : Common) (d a b : VReg) (m : Mods)
  | ixor (c : Common) (d a b : VReg) (m : Mods)
  | iandn (c : Common) (d a b : VReg) (m : Mods)
  | ishl (c : Common) (d a b : VReg) (m : Mods)
  | ishr (c : Common) (d a b : VReg) (sg : Signed)
  | irot (c : Common) (d a b : VReg) (m : Mods)
  | icmp (c : Common) (d : PReg) (a b : VReg) (t : ITest)
  | ilim (c : Common) (d a b : VReg) (t : ILim)
  | isel (c : Common) (d a b : VReg) (p : PReg)
  | ibit (c : Common) (d a : VReg) (t : IBit)
  | bfx (c : Common) (d a b k : VReg) (sg : Signed)
  | bfi (c : Common) (d a b k : VReg)
  | iun (c : Common) (d a : VReg) (t : IUn)
  | addk (c : Common) (d a : VReg) (k : BitVec 12)
  | adpc (c : Common) (d : VReg) (k : BitVec 20)
  | movk (c : Common) (d : VReg) (k : BitVec 32)
  | movhk (c : Common) (d a : VReg) (k : BitVec 32)
  | rdsr (c : Common) (d : VReg) (r : SReg)
  | wrsr (c : Common) (a : VReg)
  -- format arithmetic (Table 6.11)
  | fadd (c : Common) (d a b : VReg) (f : Slot) (rm : Round) (m : Mods)
  | fsub (c : Common) (d a b : VReg) (f : Slot) (rm : Round) (m : Mods)
  | fmul (c : Common) (d a b : VReg) (f : Slot) (rm : Round) (m : Mods)
  | ffma (c : Common) (d a b k : VReg) (f : Slot) (rm : Round) (m : Mods)
  | fdiv (c : Common) (d a b : VReg) (f : Slot) (rm : Round) (m : Mods)
  | fsqrt (c : Common) (d a : VReg) (f : Slot) (rm : Round) (m : Mods)
  | frcp (c : Common) (d a : VReg) (f : Slot) (rm : Round) (m : Mods)
  | flim (c : Common) (d a b : VReg) (f : Slot) (t : FLim)
  | fcmp (c : Common) (d : PReg) (a b : VReg) (f : Slot) (t : FTest)
  | fclass (c : Common) (d a : VReg) (f : Slot)
  | fsgn (c : Common) (d a : VReg) (f : Slot) (t : FSgn)
  | frnd (c : Common) (d a : VReg) (f : Slot) (rm : Round) (x : Bool)
  | cvt (c : Common) (d a : VReg) (f g : Slot) (rm : Round)
  | fscale (c : Common) (d a b : VReg) (f : Slot) (rm : Round) (m : Mods)
  | fexp2 (c : Common) (d a : VReg) (f : Slot) (rm : Round) (m : Mods)
  | flog2 (c : Common) (d a : VReg) (f : Slot) (rm : Round) (m : Mods)
  | fexp (c : Common) (d a : VReg) (f : Slot) (rm : Round) (m : Mods)
  | flog (c : Common) (d a : VReg) (f : Slot) (rm : Round) (m : Mods)
  | frsqrt (c : Common) (d a : VReg) (f : Slot) (rm : Round) (m : Mods)
  | fsin (c : Common) (d a : VReg) (f : Slot) (rm : Round) (m : Mods)
  | fcos (c : Common) (d a : VReg) (f : Slot) (rm : Round) (m : Mods)
  | ftanh (c : Common) (d a : VReg) (f : Slot) (rm : Round) (m : Mods)
  | ferf (c : Common) (d a : VReg) (f : Slot) (rm : Round) (m : Mods)
  | bpack (c : Common) (d a : VReg) (f : Slot) (rm : Round)
  | bunpack (c : Common) (d a : VReg) (f : Slot)
  | setfmt (c : Common) (a : VReg) (f : Slot)
  | getfmt (c : Common) (d : VReg) (f : Slot)
  -- lanes (Table 6.12)
  | lmov (c : Common) (d a : VReg) (m : Mods)
  | vote (c : Common) (d a : PReg) (t : Vote)
  | voteBallot (c : Common) (d : VReg) (a : PReg)
  | perm (c : Common) (d a b : VReg)
  | rdind (c : Common) (d a : VReg)
  | wrind (c : Common) (d a : VReg)
  | plog (c : Common) (d a : PReg) (t : PLog)
  | pmovToV (c : Common) (d : VReg)
  | pmovFromV (c : Common) (a : VReg)
  -- memory (Table 6.12)
  | ld (c : Common) (d : VReg) (m : MemOp)
  | st (c : Common) (d : VReg) (m : MemOp)
  | ldp (c : Common) (d : VReg) (m : MemOp)
  | stp (c : Common) (d : VReg) (m : MemOp)
  | ldfe (c : Common) (d : VReg) (m : MemOp)
  | ldfeClr (c : Common) (d : VReg) (m : MemOp)
  | stfe (c : Common) (d : VReg) (m : MemOp)
  | pf (c : Common) (m : MemOp)
  | atomAdd (c : Common) (d : VReg) (m : MemOp)
  | atomMin (c : Common) (d : VReg) (m : MemOp)
  | atomMax (c : Common) (d : VReg) (m : MemOp)
  | atomAnd (c : Common) (d : VReg) (m : MemOp)
  | atomOr (c : Common) (d : VReg) (m : MemOp)
  | atomXor (c : Common) (d : VReg) (m : MemOp)
  | atomXchg (c : Common) (d : VReg) (m : MemOp)
  | atomCas (c : Common) (d : VReg) (m : MemOp)
  | fence (c : Common) (scope : Scope) (order : Order)
  | fenceSc (c : Common) (scope : Scope)
  -- barriers, boards, view masks (Table 6.13)
  | bsync (c : Common)
  | binit (c : Common) (d : VReg) (m : MemOp)
  | barr (c : Common) (d : VReg) (m : MemOp)
  | bwait (c : Common) (d : VReg) (m : MemOp)
  | nbpost (c : Common) (k : VmReg) (d : VReg) (m : MemOp)
  | nbget (c : Common) (d : VReg) (m : MemOp)
  | nbinit (c : Common) (bind : Fin 64) (scope : Scope)
  | vmcnt (c : Common) (d : VReg) (a : VmReg)
  | vmtest (c : Common) (d : PReg) (a : VmReg) (b : VReg)
  | vmop (c : Common) (d a b : VmReg) (t : VmOp)
  | vmffs (c : Common) (d : VReg) (a : VmReg)
  | vmget (c : Common) (d : VReg) (a : VmReg) (i : Fin 4)
  | vmset (c : Common) (d : VmReg) (a : VReg) (i : Fin 4)
  -- control (Table 6.14)
  | br (c : Common) (disp : BitVec 26) (y : Bool)
  | bri (c : Common) (a : VReg) (y : Bool)
  | call (c : Common) (disp : BitVec 26)
  | calli (c : Common) (a : VReg)
  | ret (c : Common) (a : VReg)
  | spawn (c : Common) (d : VReg) (m : MemOp)
  | joinRec (c : Common) (d : VReg) (m : MemOp)
  | exit (c : Common)
  | trap (c : Common) (k : BitVec 16)
  | brk (c : Common)
  -- engines (Table 6.15)
  | fork (c : Common) (d : VReg) (m : MemOp)
  | rdv (c : Common) (d : VReg) (m : MemOp)
  | cpy (c : Common) (m : MemOp)
  | gth (c : Common) (m : MemOp)
  | sct (c : Common) (m : MemOp)
  | xds (c : Common) (m : MemOp)
  | tpf (c : Common) (m : MemOp)
  | col (c : Common) (m : MemOp)
  | engst (c : Common) (d a : VReg)
  -- pontil (Table 6.16)
  | ocld (c : Common) (d : QReg) (m : QMemOp)
  | mma (c : Common) (d : AReg) (a b : QReg) (f : Slot) (rm : Round) (shape : Fin 32) (acc : Bool)
  | mmas (c : Common) (d : AReg) (a b : QReg) (f : Slot) (rm : Round) (shape : Fin 32) (acc : Bool)
  | smrs (c : Common) (d a : AReg) (b : QReg) (f : Slot) (rm : Round) (ns : Fin 64)
  | drn (c : Common) (d : QReg) (m : QMemOp)
  | drnm (c : Common) (d : QReg) (m : QMemOp)
  | azero (c : Common) (d : AReg)
  | qop (c : Common) (d a b : QReg) (t : QAlu)
  | qopCmp (c : Common) (d : Fin 7) (a b : QReg) (t : QTest)
  | qmovk (c : Common) (d : QReg) (k : BitVec 32)
  | qld (c : Common) (d : QReg) (m : QMemOp)
  | qst (c : Common) (d : QReg) (m : QMemOp)
  | pbr (c : Common) (disp : BitVec 26)
  | loop (c : Common) (d : LcReg) (a : QReg) (n : BitVec 16)
  | parr (c : Common)
  | pend (c : Common)
  -- privileged (Table 16.4)
  | rdpr (c : Common) (d : VReg) (r : PrivReg)
  | wrpr (c : Common) (a : VReg)
  | bfinv (c : Common) (d a b : VReg)
  | tlbinvPg (c : Common) (a : VReg)
  | tlbinvAll (c : Common)
  | hqctlRd (c : Common) (d a : VReg)
  | hqctlPause (c : Common) (d a : VReg)
  | hqctlResume (c : Common) (d a : VReg)
  | hqctlDrain (c : Common) (d a : VReg)
  | lehrsv (c : Common) (d a b : VReg) (bind : Fin 64)
  | lehrld (c : Common) (d a : VReg) (bind : Fin 64)
  | stoptArm (c : Common) (a : VReg)
  | stoptOff (c : Common)
  -- events of cores
  | gangForm (core : CoreId)
  | scoreboardReturn (t : ThreadId) (k : Nat)
  | feWaitServed (t : ThreadId)
  | fenceDone (t : ThreadId)
  | bwaitComplete (t : ThreadId)
  | bwaitTimeout (t : ThreadId)
  | spawnJoinRetry (t : ThreadId)
  | trapDisposition (wg : Nat)
  | launchEnd (launch : Nat)
  | launchComplete (launch : Nat)
  -- events of pontils and engines
  | forkContextFree (p : PontilId)
  | engineQueueRoom (t : ThreadId)
  | copyCompletion (cl : ClusterId) (k : Nat)
  | gatherScatterCompletion (die : Fin 4) (k : Nat)
  | transducerRun (die : Fin 4) (lane : Nat)
  | tpfCompletion (far : Fin 2) (k : Nat)
  | collectiveCompletion (tag : Word) (remote : List RemoteRank)
  | ocldGranuleTaken (p : PontilId) (granule : Nat)
  | homeExecuteRequest (r : HomeRequest)
  -- events of the system level
  | bfinvInvalidate (t : ThreadId) (die : Fin 4)
  | bfinvTimeout (t : ThreadId)
  | stopAtTick
  | dispatchOffer (core : CoreId)
  | ageBoost (die : Fin 4) (queue : Nat)
  | preemptHoldExpiry (die : Fin 4)
  | dispatchRestore (core : CoreId)
  | migrationWindowEnd (die : Fin 4)
  | pageMove (page : Word)
  | reencryptRegion (memory : Nat) (region : Nat)
  | correctedError (die : Fin 6) (kind : Fin 10) (unit : BitVec 16)
  | uncorrectableError (unit : ErrorUnit)
  | dieResetTimeout (die : Fin 4)
  | flushHandshake (die : Fin 4) (port : Fin 13)
  | staleResponseDrop (die : Fin 4) (port : Fin 13)
  | traceSample (die : Fin 4)
  | counterLatch (die : Fin 6)
  | event (count : Fin 64)
  | eventAck (tag : Tag)
  | eventResend (tag : Tag)
  -- commands of the host (Table 21.2)
  | hostOpen (tag : Tag) (sender : Nat)
  | resync (tag : Tag)
  | ctxCreate (tag : Tag) (ctx : Fin 64) (f : CtxFields)
  | ctxDestroy (tag : Tag) (ctx : Fin 64)
  | queueSet (tag : Tag) (ctx : Fin 64) (f : QueueFields)
  | submit (tag : Tag) (ctx : Fin 64) (rec : Word)
  | memWrite (tag : Tag) (addr : Word) (data : List Byte)
  | memRead (tag : Tag) (addr : Word) (count : Nat)
  | cacheWb (tag : Tag)
  | abort (tag : Tag) (ctx : Fin 64) (rec : Word)
  | restore (tag : Tag) (ctx : Fin 64) (tidx : BitVec 16) (ofs : Word)
  | dieReset (tag : Tag) (die : Fin 4)
  | scan (tag : Tag) (die : Fin 6) (ofs : Word) (count : Nat)
  | resume (tag : Tag)
  | peerSet (tag : Tag) (entries : List PeerEntry)
  | groupReg (tag : Tag) (group : Word) (members : List GroupMember)
  | groupDrop (tag : Tag) (group : Word)
  | unknownOp (tag : Tag) (why : BadMessage)
  | foreignFrameDrop (sender : Nat)
  -- bring-up (Table 22.1)
  | hello (tag : Tag) (sender : Nat)
  | loadBegin (tag : Tag) (kind : Fin 2) (size : Nat)
  | loadData (tag : Tag) (ofs : Nat) (data : List Byte)
  | loadEnd (tag : Tag) (kind : Fin 2)
  | start (tag : Tag) (module : BitVec 11)
  | attest (tag : Tag) (nonce : List Byte)
  -- links, power and cooling
  | linkDown (kind : PortKind) (port : Fin 32) (training : Bool)
  | linkUp (kind : PortKind) (port : Fin 32) (peer : LinkPeer)
  | ualinkRequest (port : Fin 32) (source : BitVec 11) (tag : Word) (addr : Word) (data : LinkRequest) (len : Nat)
  | ptpSync (ppm : Int)
  | powerUp
  | thermalThrottle (level : Nat)
  | thermalTrip
  deriving DecidableEq, Repr

end Sys2Proof
end

