-- ==== Sys2Proof/Machine/Bits.lean ====
section
/-! DEFINITION. Bit fields, byte order, and the numbers of codes, scopes, orders and roundings. -/

namespace Sys2Proof

/-- Bits `lo + n - 1 : lo` of a natural number. -/
def natField (x lo n : Nat) : Nat := x / 2 ^ lo % 2 ^ n

/-- Bits `lo + n - 1 : lo` of a word, as a number. -/
def wordField (w : Word) (lo n : Nat) : Nat := natField w.toNat lo n

/-- Bit `i` of a word. -/
def wordBit (w : Word) (i : Nat) : Bool := w.toNat.testBit i

/-- The bytes of a number, least significant first (R2). -/
def bytesOf : Nat → Nat → List Byte
  | _, 0 => []
  | x, n + 1 => BitVec.ofNat 8 x :: bytesOf (x / 256) n

/-- The number whose bytes are given, least significant first (R2). -/
def ofBytes : List Byte → Nat
  | [] => 0
  | b :: bs => b.toNat + 256 * ofBytes bs

/-- `x` read as an `n`-bit two's complement number. -/
def signedOf (n x : Nat) : Int := if x % 2 ^ n < 2 ^ (n - 1) then (x % 2 ^ n : Int) else (x % 2 ^ n : Int) - 2 ^ n

/-- An integer as an `n`-bit two's complement pattern. -/
def patternOf (n : Nat) (x : Int) : Nat := (x % 2 ^ n).toNat

/-- A boolean as a bit. -/
def bitOf (b : Bool) : Nat := if b then 1 else 0

/-- ⌈a / b⌉. -/
def ceilDiv (a b : Nat) : Nat := (a + b - 1) / b

/-- The first `n` of the elements `0, …, n - 1` that satisfies `p`. -/
def findBelow (n : Nat) (p : Nat → Bool) : Option Nat := (List.range n).find? p

/-- A list with position `i` replaced. -/
def setAt {α : Type} : List α → Nat → α → List α
  | [], _, _ => []
  | _ :: xs, 0, v => v :: xs
  | x :: xs, i + 1, v => x :: setAt xs i v

/-- `floor (log2 x)` of a positive number (0 for 0). -/
def log2 (x : Nat) : Nat := x.log2

/-! ### Codes (Table 19.1) -/

/-- The number of a code. -/
def codeNumber : Code → Nat
  | .illegalOpcode => 0x01 | .illegalClass => 0x02 | .privInstr => 0x03 | .illegalField => 0x04 | .regRange => 0x05
  | .slotKind => 0x10 | .formatIllegal => 0x11 | .stallShort => 0x12 | .descField => 0x13 | .shapeIllegal => 0x14
  | .espRange => 0x15 | .loopCount => 0x16
  | .bindEmpty => 0x20 | .owner => 0x21 | .bounds => 0x22 | .rights => 0x23 | .leaseLost => 0x24
  | .boardKind => 0x25 | .feKind => 0x26 | .feSpan => 0x27 | .atomicAlign => 0x28 | .recordAlign => 0x29
  | .orderKind => 0x2A | .scopeNarrow => 0x2B | .queueRange => 0x2C | .barrierCount => 0x2D | .atomicPath => 0x2E
  | .gatherKind => 0x2F | .tierKind => 0x30 | .colGroup => 0x31
  | .branchAlign => 0x38 | .depthLimit => 0x39
  | .barrierOver => 0x40 | .boardFull => 0x41 | .joinUnder => 0x42
  | .programTrap => 0x48 | .breakpoint => 0x49
  | .launchField => 0x50 | .launchCapacity => 0x51 | .launchBind => 0x52 | .leaseMiss => 0x53 | .modeBusy => 0x54
  | .restoreCapacity => 0x55 | .ctxAbsent => 0x56 | .ctxLive => 0x57
  | .memPoison => 0x60 | .dieReset => 0x61 | .launchAbort => 0x62

/-- Every code of Table 19.1. -/
def allCodes : List Code :=
  [.illegalOpcode, .illegalClass, .privInstr, .illegalField, .regRange, .slotKind, .formatIllegal, .stallShort,
   .descField, .shapeIllegal, .espRange, .loopCount, .bindEmpty, .owner, .bounds, .rights, .leaseLost] ++
  [.boardKind, .feKind, .feSpan, .atomicAlign, .recordAlign, .orderKind, .scopeNarrow, .queueRange, .barrierCount,
   .atomicPath, .gatherKind, .tierKind, .colGroup, .branchAlign, .depthLimit, .barrierOver, .boardFull, .joinUnder] ++
  [.programTrap, .breakpoint, .launchField, .launchCapacity, .launchBind, .leaseMiss, .modeBusy, .restoreCapacity,
   .ctxAbsent, .ctxLive, .memPoison, .dieReset, .launchAbort]

/-- The code with a number, if Table 19.1 assigns it. -/
def codeOfNumber (n : Nat) : Option Code := allCodes.find? (fun c => codeNumber c == n)

/-- The class of a code (Table 19.1). -/
def codeClass : Code → CodeClass
  | .bindEmpty | .owner | .bounds | .rights | .leaseLost | .memPoison | .dieReset | .launchAbort => .ends
  | .launchField | .launchCapacity | .launchBind | .leaseMiss | .modeBusy | .restoreCapacity | .ctxAbsent
  | .ctxLive => .refusal
  | _ => .halt

/-! ### Scopes, orders, roundings (Tables 1.3, 2.1) -/

def scopeCode : Scope → Nat
  | .thread => 0 | .warp => 1 | .workgroup => 2 | .cluster => 3 | .die => 4 | .device => 5 | .system => 6

def scopeOf : Nat → Option Scope
  | 0 => some .thread | 1 => some .warp | 2 => some .workgroup | 3 => some .cluster | 4 => some .die
  | 5 => some .device | 6 => some .system | _ => none

def orderCode : Order → Nat
  | .plain => 0 | .acquire => 1 | .release => 2 | .acqrel => 3

def orderOf : Nat → Order
  | 0 => .plain | 1 => .acquire | 2 => .release | _ => .acqrel

def roundCode : Round → Nat
  | .slotDefault => 0 | .rne => 1 | .rna => 2 | .rtz => 3 | .rup => 4 | .rdn => 5 | .rsr => 6 | .rod => 7

def roundOf : Nat → Round
  | 0 => .slotDefault | 1 => .rne | 2 => .rna | 3 => .rtz | 4 => .rup | 5 => .rdn | 6 => .rsr | _ => .rod

/-- An order that holds an acquire, or a release. -/
def Order.isAcquire (o : Order) : Bool := o == .acquire || o == .acqrel
def Order.isRelease (o : Order) : Bool := o == .release || o == .acqrel

/-- A scope of cluster or wider, and so on (Table 1.3 is in ascending order). -/
def Scope.atLeast (s t : Scope) : Bool := decide (scopeCode t ≤ scopeCode s)

end Sys2Proof
end

