-- ==== Sys2Proof/Machine/Messages.lean ====
section
/-! DEFINITION. Messages of the Qori command protocol (R301 to R303, Tables 21.1, 21.5 to 21.7, 22.1) as steps. The layout
of the payloads of LOAD_BEGIN, LOAD_DATA and LOAD_END is the model's choice (DESIGN CHOICE, log 21). -/

namespace Sys2Proof

/-- `n` bytes from offset `o`, as a number (R2). -/
def byteField (bs : List Byte) (o n : Nat) : Nat := ofBytes ((bs.drop o).take n)

/-- A 64-bit field. -/
def wordAt (bs : List Byte) (o : Nat) : Word := BitVec.ofNat 64 (byteField bs o 8)

/-- A number below a bound. -/
def finOf (n : Nat) (x : Nat) : Option (Fin n) := if h : x < n then some ⟨x, h⟩ else none

/-- A condition of a payload. -/
def want (b : Bool) : Option Unit := if b then some () else none

/-- The fields of a message header (Table 21.1). -/
structure Header where
  version : Nat
  op : Nat
  reply : Bool
  tag : Tag
  len : Nat
  ctx : Fin 64
  status : Nat
  deriving DecidableEq, Repr

/-- Read a header: none when MAGIC, VERSION or a reserved field is wrong. -/
def headerOf (bs : List Byte) : Option Header := do
  want (decide (32 ≤ bs.length))
  want (byteField bs 0 4 == 0x49524F51 && byteField bs 4 1 == 1)
  want (natField (byteField bs 6 2) 1 15 == 0)
  want (natField (byteField bs 16 4) 6 26 == 0 && byteField bs 22 10 == 0)
  want (decide (byteField bs 12 4 ≤ 2 ^ 24) && decide (byteField bs 20 2 ≤ 3))
  let c ← finOf 64 (natField (byteField bs 16 1) 0 6)
  pure ⟨byteField bs 4 1, byteField bs 5 1, natField (byteField bs 6 1) 0 1 == 1, BitVec.ofNat 32 (byteField bs 8 4),
    byteField bs 12 4, c, byteField bs 20 2⟩

/-- A peer entry (Table 21.5). -/
def peerEntryOf (e : Nat) : Option PeerEntry := do
  let far ← finOf 3 (natField e 11 2)
  want (natField e 14 18 == 0)
  pure ⟨BitVec.ofNat 11 (natField e 0 11), far, e.testBit 13, BitVec.ofNat 32 (natField e 32 32)⟩

/-- An engine of a group (Table 21.6). -/
def groupMemberOf (e : Nat) : Option GroupMember := do
  let d ← finOf 4 (natField e 11 2)
  want (natField e 13 3 == 0)
  pure ⟨BitVec.ofNat 11 (natField e 0 11), d⟩

/-- The operation codes of Table 21.2 that minimal mode performs (R312), and those that stop after START (R316). -/
def inMinimal (op : Nat) : Bool := op == 2 || (decide (0x40 ≤ op) && decide (op ≤ 0x45))
def afterStart (op : Nat) : Bool := !(decide (0x40 ≤ op) && decide (op ≤ 0x44))

/-- An operation code that Table 21.2 assigns to a command. -/
def assignedOp (op : Nat) : Bool :=
  (decide (1 ≤ op) && decide (op ≤ 0x11)) || (decide (0x40 ≤ op) && decide (op ≤ 0x45))

/-- An operation code that Table 21.2 assigns to no command: EVENT. Minimal mode answers it with STATUS 3 (R312). -/
def eventOp : Nat := 0x80

/-- The command of a payload (Tables 21.7, 22.1): none when the payload is malformed. -/
def commandOf (sender : Nat) (h : Header) (p : List Byte) : Option Instr :=
  match h.op with
  | 0x01 => do want (p.length == 0); pure (.hostOpen h.tag sender)
  | 0x02 => do want (p.length == 0); pure (.resync h.tag)
  | 0x03 => do
    want (p.length == 32)
    let mode ← finOf 3 (byteField p 0 1)
    want (decide (byteField p 2 1 < 8) && byteField p 3 5 == 0 && byteField p 20 12 == 0)
    want (byteField p 8 8 % 64 == 0 && decide (1 ≤ byteField p 16 4 ∧ byteField p 16 4 ≤ 65536))
    want (decide (byteField p 1 1 < match mode with | 0 => 1 | 1 => 2 | _ => 4))
    pure (.ctxCreate h.tag h.ctx ⟨mode, byteField p 1 1, BitVec.ofNat 3 (byteField p 2 1), wordAt p 8, byteField p 16 4⟩)
  | 0x04 => do want (p.length == 0); pure (.ctxDestroy h.tag h.ctx)
  | 0x05 => do
    want (p.length == 48)
    let prio ← finOf 4 (byteField p 1 1)
    let pre := byteField p 2 1
    want (decide (pre ≤ 1) && (pre == 0 || prio.val == 3) && byteField p 3 5 == 0 && byteField p 20 4 == 0)
    want (byteField p 40 8 == 0 && byteField p 8 8 % 64 == 0 && byteField p 24 8 % 64 == 0)
    want (byteField p 32 8 % 64 == 0 && decide (4096 ≤ byteField p 32 8))
    want (decide (1 ≤ byteField p 16 4 ∧ byteField p 16 4 ≤ 2 ^ 24) && decide (byteField p 0 1 < 64))
    pure (.queueSet h.tag h.ctx
      ⟨byteField p 0 1, prio, pre == 1, wordAt p 8, byteField p 16 4, wordAt p 24, wordAt p 32⟩)
  | 0x06 => do
    want (p.length == 16 && byteField p 0 8 % 64 == 0 && byteField p 8 8 == 0)
    pure (.submit h.tag h.ctx (wordAt p 0))
  | 0x07 => do
    let n := byteField p 8 4
    want (decide (1 ≤ n ∧ n ≤ 2 ^ 24 - 16) && p.length == 16 + n && byteField p 12 4 == 0)
    pure (.memWrite h.tag (wordAt p 0) (p.drop 16))
  | 0x08 => do
    let n := byteField p 8 4
    want (decide (1 ≤ n ∧ n ≤ 2 ^ 24) && p.length == 16 && byteField p 12 4 == 0)
    pure (.memRead h.tag (wordAt p 0) n)
  | 0x09 => do want (p.length == 0); pure (.cacheWb h.tag)
  | 0x0A => do
    want (p.length == 16 && byteField p 0 8 % 64 == 0 && byteField p 8 8 == 0)
    pure (.abort h.tag h.ctx (wordAt p 0))
  | 0x0B => do
    want (p.length == 16 && byteField p 2 6 == 0 && byteField p 8 8 % 8 == 0)
    pure (.restore h.tag h.ctx (BitVec.ofNat 16 (byteField p 0 2)) (wordAt p 8))
  | 0x0C => do
    want (p.length == 8 && byteField p 1 7 == 0)
    let d ← finOf 4 (byteField p 0 1)
    pure (.dieReset h.tag d)
  | 0x0D => do
    let n := byteField p 16 4
    want (p.length == 24 && byteField p 1 7 == 0 && byteField p 20 4 == 0 && decide (1 ≤ n ∧ n ≤ 2 ^ 24))
    let d ← finOf 6 (byteField p 0 1)
    pure (.scan h.tag d (wordAt p 8) n)
  | 0x0E => do want (p.length == 0); pure (.resume h.tag)
  | 0x0F => do
    let n := byteField p 0 4
    want (decide (1 ≤ n ∧ n ≤ 2048) && p.length == 8 + 8 * n && byteField p 4 4 == 0)
    let es ← (List.range n).mapM (fun k => peerEntryOf (byteField p (8 + 8 * k) 8))
    pure (.peerSet h.tag es)
  | 0x10 => do
    let n := byteField p 8 4
    want (decide (1 ≤ n ∧ n ≤ 2 ^ 19) && p.length == 12 + 2 * n)
    let ms ← (List.range n).mapM (fun r => groupMemberOf (byteField p (12 + 2 * r) 2))
    pure (.groupReg h.tag (wordAt p 0) ms)
  | 0x11 => do want (p.length == 8); pure (.groupDrop h.tag (wordAt p 0))
  | 0x40 => do want (p.length == 0); pure (.hello h.tag sender)
  | 0x41 => do
    want (p.length == 16 && byteField p 1 7 == 0)
    let k ← finOf 2 (byteField p 0 1)
    pure (.loadBegin h.tag k (byteField p 8 8))
  | 0x42 => do
    want (decide (8 ≤ p.length))
    pure (.loadData h.tag (byteField p 0 8) (p.drop 8))
  | 0x43 => do
    want (p.length == 8 && byteField p 1 7 == 0)
    let k ← finOf 2 (byteField p 0 1)
    pure (.loadEnd h.tag k)
  | 0x44 => do
    want (p.length == 8 && decide (byteField p 0 8 < 2048))
    pure (.start h.tag (BitVec.ofNat 11 (byteField p 0 8)))
  | 0x45 => do want (p.length == 64); pure (.attest h.tag p)
  | _ => none

/-- The step a message is, in minimal mode or after START. An EVENT reply acknowledges (R305). -/
def decodeMessage (minimal : Bool) (sender : Nat) (bs : List Byte) : Instr :=
  let tag : Tag := BitVec.ofNat 32 (byteField bs 8 4)
  let op := byteField bs 5 1
  match headerOf bs with
  | none => .unknownOp tag (.malformed op)
  | some h =>
    if h.reply then (if h.op = eventOp then .eventAck h.tag else .unknownOp tag (.malformed op))
    else if !(assignedOp h.op || (minimal && h.op == eventOp)) then .unknownOp tag (.malformed op)
    else if !(if minimal then inMinimal h.op else afterStart h.op) then .unknownOp tag (.notInThisMode op)
    else if bs.length ≠ 32 + h.len then .unknownOp tag (.malformed op)
    else match commandOf sender h (bs.drop 32) with
      | some i => i
      | none => .unknownOp tag (.malformed op)

/-- The 32 bytes of a header (Table 21.1) that precede `len` bytes of payload. -/
def headerBytes (op : Nat) (reply : Bool) (tag : Tag) (len ctx status : Nat) : List Byte :=
  bytesOf (0x49524F51 + 2 ^ 32 + op % 2 ^ 8 * 2 ^ 40 + (if reply then 2 ^ 48 else 0) + tag.toNat * 2 ^ 64 + len % 2 ^ 32 * 2 ^ 96 +
    ctx % 64 * 2 ^ 128 + status % 2 ^ 16 * 2 ^ 160) 32

end Sys2Proof
end

