-- ==== Sys2Proof/WellFormed.lean ====
section
/-! DEFINITION. Which instruction words are well formed: the conditions on the fields of a word that its type does not
carry (R104 to R110, R162, R168 to R192, Table 16.4). A word that fails one raises ILLEGAL_FIELD. -/

namespace Sys2Proof

/-- R106: the operands modifiers may name. `reads` is how many of A, B, C the instruction reads; `smask` the SMOD bits
it accepts. -/
def Mods.legal (m : Mods) (binary : Bool) (smask : BitVec 6) : Bool :=
  match m with
  | .source s => s &&& ~~~smask == 0
  | .cross _ _ onB => binary || !onB

/-- SMOD masks: integer and lane instructions, and format instructions of one, two and three operands. -/
def smNone : BitVec 6 := 0
def smA : BitVec 6 := 0b110000
def smAB : BitVec 6 := 0b111100
def smABC : BitVec 6 := 0b111111

/-- R110 for ld, st, ldp, stp and pf: a plain access has SCOPE 0b000; `ord` is the other order the major allows. -/
def MemOp.legalPlain (m : MemOp) (ord : Order) : Bool :=
  (m.order == .plain && m.scope == .thread) || (m.order == ord && !(ord == .plain))

/-- A format M word with ORD 0b00 and FS 0. -/
def MemOp.legalObject (m : MemOp) : Bool := m.order == .plain && m.slot == 0

/-- A format M word with ORD, EP, LU and FS zero (engines, boards). -/
def MemOp.legalBare (m : MemOp) : Bool := m.order == .plain && m.slot == 0 && m.evict == 0 && !m.lastUse

/-- The pontil's scopes, 0b011 to 0b110 (R176, R185, R188). -/
def Scope.pontil (s : Scope) : Bool := s.atLeast .cluster

/-- R188: an ordered qld or qst needs a scope of cluster or wider, a plain one has SCOPE 0b000. -/
def QMemOp.legalPlain (m : QMemOp) (ord : Order) : Bool :=
  (m.order == .plain && m.scope == .thread) || (m.order == ord && m.scope.pontil)

/-- Field conditions of every word; events and host commands have none here. -/
def Instr.wf : Instr → Bool
  | .iadd _ _ _ _ m | .isub _ _ _ _ m | .imul _ _ _ _ m | .imad _ _ _ _ _ m | .iand _ _ _ _ m | .ior _ _ _ _ m
  | .ixor _ _ _ _ m | .iandn _ _ _ _ m | .ishl _ _ _ _ m | .irot _ _ _ _ m => m.legal true smNone
  | .fadd _ _ _ _ _ _ m | .fsub _ _ _ _ _ _ m | .fmul _ _ _ _ _ _ m | .fdiv _ _ _ _ _ _ m
  | .fscale _ _ _ _ _ _ m => m.legal true smAB
  | .ffma _ _ _ _ _ _ _ m => m.legal true smABC
  | .fsqrt _ _ _ _ _ m | .frcp _ _ _ _ _ m | .fexp2 _ _ _ _ _ m | .flog2 _ _ _ _ _ m | .fexp _ _ _ _ _ m
  | .flog _ _ _ _ _ m | .frsqrt _ _ _ _ _ m | .fsin _ _ _ _ _ m | .fcos _ _ _ _ _ m | .ftanh _ _ _ _ _ m
  | .ferf _ _ _ _ _ m => m.legal false smA
  | .lmov _ _ _ m => m.legal false smNone
  | .setfmt _ _ f => decide (4 ≤ f.val)
  | .ld _ _ m | .ldp _ _ m => m.legalPlain .acquire
  | .st _ _ m | .stp _ _ m => m.legalPlain .release
  | .ldfe _ _ m | .ldfeClr _ _ m | .stfe _ _ m => m.order == .plain
  | .pf _ m => m.legalPlain .plain && !m.lastUse
  | .atomCas _ d _ => decide (d.toNat ≤ 0xFD)
  | .fence _ _ o => !(o == .plain)
  | .binit _ _ m | .barr _ _ m | .bwait _ _ m | .spawn _ _ m | .joinRec _ _ m => m.legalObject
  | .nbpost _ _ _ m => m.legalBare
  | .nbget _ d m => m.legalBare && decide (d.toNat ≤ 0xFD)
  | .fork _ _ m | .rdv _ _ m | .cpy _ m | .gth _ m | .sct _ m | .xds _ m | .tpf _ m | .col _ m => m.legalBare
  | .ocld _ _ m => m.order == .plain && m.slot == 0 && m.scope.pontil
  | .mma _ _ _ _ f _ _ _ | .mmas _ _ _ _ f _ _ _ => decide (1 ≤ f.val ∧ f.val ≤ 3)
  | .smrs _ d a _ f _ _ => decide (2 ≤ f.val ∧ f.val ≤ 3) && !(d == a)
  | .drn _ _ m => (m.order == .plain || m.order == .release) && m.scope.pontil
  | .drnm _ d m => (m.order == .plain || m.order == .release) && m.scope.pontil && decide (d.val ≤ 0x1E)
  | .qld _ _ m => m.legalPlain .acquire
  | .qst _ _ m => m.legalPlain .release
  | _ => true

end Sys2Proof
end

