-- ==== Sys2Proof/Decode.lean ====
section
/-! DEFINITION. From words and messages to steps, and back: the formats of Tables 6.1 to 6.6, the opcode map of Tables
6.8 to 6.16, Tables 9.3, 9.6 and 16.4, the encoder written from the same tables, and the Qori messages of Tables 21.1,
21.2, 21.7 and 22.1. -/

namespace Sys2Proof

/-! ## Raw fields of the five formats -/

structure RawV where
  maj : BitVec 8
  stl : BitVec 4
  grd : BitVec 4
  d : BitVec 8
  a : BitVec 8
  b : BitVec 8
  c : BitVec 8
  fs : BitVec 4
  rm : BitVec 3
  mod : BitVec 9
  deriving DecidableEq, Repr

structure RawK where
  maj : BitVec 8
  stl : BitVec 4
  grd : BitVec 4
  d : BitVec 8
  a : BitVec 8
  k : BitVec 32
  deriving DecidableEq, Repr

structure RawM where
  maj : BitVec 8
  stl : BitVec 4
  grd : BitVec 4
  d : BitVec 8
  a : BitVec 8
  bind : BitVec 6
  ofs : BitVec 14
  scope : BitVec 3
  ord : BitVec 2
  ep : BitVec 2
  lu : BitVec 1
  fs : BitVec 4
  deriving DecidableEq, Repr

structure RawB where
  maj : BitVec 8
  stl : BitVec 4
  grd : BitVec 4
  d : BitVec 8
  a : BitVec 8
  disp : BitVec 26
  y : BitVec 1
  kind : BitVec 5
  deriving DecidableEq, Repr

structure RawS where
  maj : BitVec 8
  stl : BitVec 4
  grd : BitVec 4
  d : BitVec 8
  a : BitVec 8
  b : BitVec 8
  sop : BitVec 8
  imm : BitVec 16
  deriving DecidableEq, Repr

/-- Table 6.2. -/
def splitV (w : Word) : RawV :=
  ⟨w.extractLsb' 56 8, w.extractLsb' 52 4, w.extractLsb' 48 4, w.extractLsb' 40 8, w.extractLsb' 32 8,
   w.extractLsb' 24 8, w.extractLsb' 16 8, w.extractLsb' 12 4, w.extractLsb' 9 3, w.extractLsb' 0 9⟩

/-- Table 6.3. -/
def splitK (w : Word) : RawK :=
  ⟨w.extractLsb' 56 8, w.extractLsb' 52 4, w.extractLsb' 48 4, w.extractLsb' 40 8, w.extractLsb' 32 8,
   w.extractLsb' 0 32⟩

/-- Table 6.4. -/
def splitM (w : Word) : RawM :=
  ⟨w.extractLsb' 56 8, w.extractLsb' 52 4, w.extractLsb' 48 4, w.extractLsb' 40 8, w.extractLsb' 32 8,
   w.extractLsb' 26 6, w.extractLsb' 12 14, w.extractLsb' 9 3, w.extractLsb' 7 2, w.extractLsb' 5 2,
   w.extractLsb' 4 1, w.extractLsb' 0 4⟩

/-- Table 6.5. -/
def splitB (w : Word) : RawB :=
  ⟨w.extractLsb' 56 8, w.extractLsb' 52 4, w.extractLsb' 48 4, w.extractLsb' 40 8, w.extractLsb' 32 8,
   w.extractLsb' 6 26, w.extractLsb' 5 1, w.extractLsb' 0 5⟩

/-- Table 6.6. -/
def splitS (w : Word) : RawS :=
  ⟨w.extractLsb' 56 8, w.extractLsb' 52 4, w.extractLsb' 48 4, w.extractLsb' 40 8, w.extractLsb' 32 8,
   w.extractLsb' 24 8, w.extractLsb' 16 8, w.extractLsb' 0 16⟩

def joinV (r : RawV) : Word := r.maj ++ r.stl ++ r.grd ++ r.d ++ r.a ++ r.b ++ r.c ++ r.fs ++ r.rm ++ r.mod
def joinK (r : RawK) : Word := r.maj ++ r.stl ++ r.grd ++ r.d ++ r.a ++ r.k
def joinM (r : RawM) : Word :=
  r.maj ++ r.stl ++ r.grd ++ r.d ++ r.a ++ r.bind ++ r.ofs ++ r.scope ++ r.ord ++ r.ep ++ r.lu ++ r.fs
def joinB (r : RawB) : Word := r.maj ++ r.stl ++ r.grd ++ r.d ++ r.a ++ r.disp ++ r.y ++ r.kind
def joinS (r : RawS) : Word := r.maj ++ r.stl ++ r.grd ++ r.d ++ r.a ++ r.b ++ r.sop ++ r.imm

/-! ## Small fields -/

/-- A number below `n`, or none (Table 6.7). -/
def below (n : Nat) (x : Nat) : Option (Fin n) := if h : x < n then some ⟨x, h⟩ else none

/-- `some ()` when `b` holds. -/
def need (b : Bool) : Option Unit := if b then some () else none

/-- The guard field (R99, R100): 0b1111 is illegal. -/
def guardOf (g : BitVec 4) : Option Guard :=
  match g.toNat with
  | 7 => some .always
  | 15 => none
  | n => match below 7 (n % 8) with
    | some k => some (.pred k (n / 8 == 1))
    | none => none

def guardCode : Guard → BitVec 4
  | .always => 7
  | .pred k neg => BitVec.ofNat 4 (k.val + 8 * bitOf neg)

def commonOf (stl grd : BitVec 4) : Option Common := do
  let g ← guardOf grd
  pure ⟨stl.toFin, g⟩

def stallCode (c : Common) : BitVec 4 := ⟨c.stall⟩

/-- Table 6.17. -/
def modsOf (m : BitVec 9) : Option Mods :=
  let x : BitVec 5 := m.extractLsb' 1 5
  let onB := m.extractLsb' 0 1 == 1
  match (m.extractLsb' 6 3).toNat with
  | 0 => some (.source (m.extractLsb' 0 6))
  | 1 => some (.cross .broadcast x.toFin onB)
  | 2 => some (.cross .rotate x.toFin onB)
  | 3 => some (.cross .butterfly x.toFin onB)
  | 4 => some (.cross .shiftDown x.toFin onB)
  | 5 => some (.cross .shiftUp x.toFin onB)
  | _ => none

def crossCode : CrossKind → BitVec 3
  | .broadcast => 1 | .rotate => 2 | .butterfly => 3 | .shiftDown => 4 | .shiftUp => 5

def modsCode : Mods → BitVec 9
  | .source s => (0 : BitVec 3) ++ s
  | .cross k d onB => crossCode k ++ (⟨d⟩ : BitVec 5) ++ (if onB then 1 else 0 : BitVec 1)

/-- Table 6.10. -/
def sregOf : Nat → Option SReg
  | 0 => some .lane | 1 => some .warp | 2 => some .tid | 3 => some .wgsize | 4 => some .wgx | 5 => some .wgy
  | 6 => some .wgz | 7 => some .gridx | 8 => some .gridy | 9 => some .gridz | 10 => some .depth | 11 => some .core
  | 12 => some .cluster | 13 => some .die | 14 => some .ndie | 15 => some .dev | 16 => some .mode | 17 => some .module
  | 18 => some .tick | 19 => some .fflags | _ => none

def sregCode : SReg → BitVec 8
  | .lane => 0 | .warp => 1 | .tid => 2 | .wgsize => 3 | .wgx => 4 | .wgy => 5 | .wgz => 6 | .gridx => 7 | .gridy => 8
  | .gridz => 9 | .depth => 10 | .core => 11 | .cluster => 12 | .die => 13 | .ndie => 14 | .dev => 15 | .mode => 16
  | .module => 17 | .tick => 18 | .fflags => 19

/-- Table 16.2. -/
def privRegOf : Nat → Option PrivReg
  | 0 => some .ctx | 1 => some .cflags | 2 => some .btbase | 3 => some .btlen | 4 => some .queues | 5 => some .wgh
  | _ => none

def privRegCode : PrivReg → BitVec 16
  | .ctx => 0 | .cflags => 1 | .btbase => 2 | .btlen => 3 | .queues => 4 | .wgh => 5

/-- Table 6.19. -/
def itestOf : Nat → ITest
  | 0 => .eq | 1 => .ne | 2 => .lt | 3 => .le | 4 => .gt | 5 => .ge | 6 => .ltu | 7 => .leu | 8 => .gtu | _ => .geu
def itestCode : ITest → BitVec 9
  | .eq => 0 | .ne => 1 | .lt => 2 | .le => 3 | .gt => 4 | .ge => 5 | .ltu => 6 | .leu => 7 | .gtu => 8 | .geu => 9

def ilimOf : Nat → ILim
  | 0 => .min | 1 => .max | 2 => .minu | _ => .maxu
def ilimCode : ILim → BitVec 9
  | .min => 0 | .max => 1 | .minu => 2 | .maxu => 3

def ibitOf : Nat → IBit
  | 0 => .popc | 1 => .clz | 2 => .ctz | _ => .brev
def ibitCode : IBit → BitVec 9
  | .popc => 0 | .clz => 1 | .ctz => 2 | .brev => 3

def flimOf : Nat → FLim
  | 0 => .min | 1 => .max | 2 => .minnum | _ => .maxnum
def flimCode : FLim → BitVec 9
  | .min => 0 | .max => 1 | .minnum => 2 | .maxnum => 3

def ftestOf : Nat → FTest
  | 0 => .eq | 1 => .ne | 2 => .lt | 3 => .le | 4 => .gt | 5 => .ge | 6 => .un | _ => .or
def ftestCode : FTest → BitVec 9
  | .eq => 0 | .ne => 1 | .lt => 2 | .le => 3 | .gt => 4 | .ge => 5 | .un => 6 | .or => 7

def vmopOf : Nat → VmOp
  | 0 => .and | 1 => .or | 2 => .andn | _ => .xor
def vmopCode : VmOp → BitVec 9
  | .and => 0 | .or => 1 | .andn => 2 | .xor => 3

def qaluOf : Nat → QAlu
  | 0 => .add | 1 => .sub | 2 => .mul | 3 => .and | 4 => .or | 5 => .xor | 6 => .shl | 7 => .shr | _ => .hi
def qaluCode : QAlu → BitVec 9
  | .add => 0 | .sub => 1 | .mul => 2 | .and => 3 | .or => 4 | .xor => 5 | .shl => 6 | .shr => 7 | .hi => 8

def qtestOf : Nat → QTest
  | 9 => .eq | 10 => .ne | 11 => .ltu | _ => .lt
def qtestCode : QTest → BitVec 9
  | .eq => 9 | .ne => 10 | .ltu => 11 | .lt => 12

/-- Format M of a thread word; SCOPE 0b111 is illegal (R12). -/
def memOpOf (r : RawM) : Option MemOp := do
  let sc ← scopeOf r.scope.toNat
  pure ⟨r.a, r.bind.toFin, r.ofs, sc, orderOf r.ord.toNat, r.ep.toFin, r.lu == 1, r.fs.toFin⟩

/-- Format M of a pontil word (R192): A is a q register or 0xFF. -/
def qmemOpOf (r : RawM) : Option QMemOp := do
  let sc ← scopeOf r.scope.toNat
  let a ← if r.a == 0xFF then some none else (below 32 r.a.toNat).map some
  pure ⟨a, r.bind.toFin, r.ofs, sc, orderOf r.ord.toNat, r.ep.toFin, r.lu == 1, r.fs.toFin⟩

/-! ## The opcode map -/

/-- The formats (R101). -/
inductive Format where
  | v | k | m | b | s
  deriving DecidableEq, Repr

/-- The format of an assigned major (Tables 6.8 to 6.16). -/
def formatOf (maj : Nat) : Option Format :=
  if maj = 0x01 then some .v
  else if 0x02 ≤ maj ∧ maj ≤ 0x13 then some .v
  else if 0x14 ≤ maj ∧ maj ≤ 0x17 then some .k
  else if 0x18 ≤ maj ∧ maj ≤ 0x1A then some .v
  else if 0x20 ≤ maj ∧ maj ≤ 0x2D then some .v
  else if 0x30 ≤ maj ∧ maj ≤ 0x38 then some .v
  else if 0x3C ≤ maj ∧ maj ≤ 0x3F then some .v
  else if 0x50 ≤ maj ∧ maj ≤ 0x56 then some .v
  else if 0x60 ≤ maj ∧ maj ≤ 0x71 then some .m
  else if maj = 0x80 then some .v
  else if 0x81 ≤ maj ∧ maj ≤ 0x86 then some .m
  else if 0x88 ≤ maj ∧ maj ≤ 0x8D then some .v
  else if maj = 0x90 then some .b
  else if 0x91 ≤ maj ∧ maj ≤ 0x92 then some .m
  else if maj = 0x93 then some .v
  else if maj = 0x94 then some .k
  else if maj = 0x95 then some .v
  else if 0xA0 ≤ maj ∧ maj ≤ 0xA7 then some .m
  else if maj = 0xA8 then some .v
  else if maj = 0xB0 then some .m
  else if 0xB1 ≤ maj ∧ maj ≤ 0xB3 then some .v
  else if 0xB4 ≤ maj ∧ maj ≤ 0xB5 then some .m
  else if 0xB6 ≤ maj ∧ maj ≤ 0xB7 then some .v
  else if maj = 0xB8 then some .k
  else if 0xB9 ≤ maj ∧ maj ≤ 0xBA then some .m
  else if maj = 0xBB then some .b
  else if maj = 0xBC then some .k
  else if 0xBD ≤ maj ∧ maj ≤ 0xBE then some .v
  else if 0xC0 ≤ maj ∧ maj ≤ 0xC7 then some .s
  else none

/-- How many sub-operations a V major with a "sub" row has (Tables 6.8 to 6.13, 9.6). -/
def subCount : Nat → Option Nat
  | 0x05 => some 2 | 0x0C => some 2 | 0x0E => some 10 | 0x0F => some 4 | 0x11 => some 4 | 0x12 => some 2
  | 0x1A => some 2 | 0x27 => some 4 | 0x28 => some 8 | 0x2A => some 4 | 0x2B => some 2 | 0x51 => some 3
  | 0x55 => some 6 | 0x56 => some 2 | 0x8A => some 4 | 0xB7 => some 13 | _ => none

/-- How many SOP values a class-S major has (Table 16.4). -/
def sopCount : Nat → Nat
  | 0xC3 => 2 | 0xC4 => 4 | 0xC7 => 2 | _ => 1

/-- R112: the sub-operation, KIND or SOP is assigned. -/
def assignedSub (w : Word) : Bool :=
  let maj := (w.extractLsb' 56 8).toNat
  match formatOf maj with
  | some .v => match subCount maj with
    | some n => decide ((splitV w).mod.toNat < n)
    | none => true
  | some .b => decide ((splitB w).kind.toNat < (if maj = 0x90 then 5 else 1))
  | some .s => decide ((splitS w).sop.toNat < sopCount maj)
  | some _ => true
  | none => false

/-- The unused fields of a V word (R104): `b`, `c` unused, FS and RM zero as said. -/
def RawV.noB (r : RawV) : Bool := r.b == 0xFF
def RawV.noC (r : RawV) : Bool := r.c == 0xFF
def RawV.noFR (r : RawV) : Bool := r.fs == 0 && r.rm == 0
def RawV.int3 (r : RawV) : Bool := r.noC && r.noFR
def RawV.int2 (r : RawV) : Bool := r.noB && r.noC && r.noFR
def RawV.none4 (r : RawV) : Bool := r.d == 0xFF && r.a == 0xFF && r.noB && r.noC && r.noFR && r.mod == 0

/-- Integer, special-register and address majors of format V (Table 6.8). -/
def decodeIntV (r : RawV) (c : Common) : Option Instr :=
  match r.maj.toNat with
  | 0x02 => do need r.int3; let m ← modsOf r.mod; pure (.iadd c r.d r.a r.b m)
  | 0x03 => do need r.int3; let m ← modsOf r.mod; pure (.isub c r.d r.a r.b m)
  | 0x04 => do need r.int3; let m ← modsOf r.mod; pure (.imul c r.d r.a r.b m)
  | 0x05 => do need r.int3; pure (.imulh c r.d r.a r.b (if r.mod == 0 then .signed else .unsigned))
  | 0x06 => do need r.noFR; let m ← modsOf r.mod; pure (.imad c r.d r.a r.b r.c m)
  | 0x07 => do need r.int3; let m ← modsOf r.mod; pure (.iand c r.d r.a r.b m)
  | 0x08 => do need r.int3; let m ← modsOf r.mod; pure (.ior c r.d r.a r.b m)
  | 0x09 => do need r.int3; let m ← modsOf r.mod; pure (.ixor c r.d r.a r.b m)
  | 0x0A => do need r.int3; let m ← modsOf r.mod; pure (.iandn c r.d r.a r.b m)
  | 0x0B => do need r.int3; let m ← modsOf r.mod; pure (.ishl c r.d r.a r.b m)
  | 0x0C => do need r.int3; pure (.ishr c r.d r.a r.b (if r.mod == 0 then .unsigned else .signed))
  | 0x0D => do need r.int3; let m ← modsOf r.mod; pure (.irot c r.d r.a r.b m)
  | 0x0E => do need r.int3; let d ← below 7 r.d.toNat; pure (.icmp c d r.a r.b (itestOf r.mod.toNat))
  | 0x0F => do need r.int3; pure (.ilim c r.d r.a r.b (ilimOf r.mod.toNat))
  | 0x10 => do need (r.noFR && r.mod == 0); let p ← below 7 r.c.toNat; pure (.isel c r.d r.a r.b p)
  | 0x11 => do need r.int2; pure (.ibit c r.d r.a (ibitOf r.mod.toNat))
  | 0x12 => do need r.noFR; pure (.bfx c r.d r.a r.b r.c (if r.mod == 0 then .unsigned else .signed))
  | 0x13 => do need (r.noFR && r.mod == 0); pure (.bfi c r.d r.a r.b r.c)
  | 0x18 => do need (r.int2 && r.mod == 0); let s ← sregOf r.a.toNat; pure (.rdsr c r.d s)
  | 0x19 => do need (r.int2 && r.mod == 0 && r.d == 0x13); pure (.wrsr c r.a)
  | 0x1A => do need r.int2; pure (.iun c r.d r.a (if r.mod == 0 then .neg else .abs))
  | _ => none

/-- Format arithmetic (Table 6.11). -/
def decodeFmt (r : RawV) (c : Common) : Option Instr :=
  let f : Slot := r.fs.toFin
  let rm := roundOf r.rm.toNat
  match r.maj.toNat with
  | 0x20 => do need r.noC; let m ← modsOf r.mod; pure (.fadd c r.d r.a r.b f rm m)
  | 0x21 => do need r.noC; let m ← modsOf r.mod; pure (.fsub c r.d r.a r.b f rm m)
  | 0x22 => do need r.noC; let m ← modsOf r.mod; pure (.fmul c r.d r.a r.b f rm m)
  | 0x23 => do let m ← modsOf r.mod; pure (.ffma c r.d r.a r.b r.c f rm m)
  | 0x24 => do need r.noC; let m ← modsOf r.mod; pure (.fdiv c r.d r.a r.b f rm m)
  | 0x25 => do need (r.noB && r.noC); let m ← modsOf r.mod; pure (.fsqrt c r.d r.a f rm m)
  | 0x26 => do need (r.noB && r.noC); let m ← modsOf r.mod; pure (.frcp c r.d r.a f rm m)
  | 0x27 => do need (r.noC && r.rm == 0); pure (.flim c r.d r.a r.b f (flimOf r.mod.toNat))
  | 0x28 => do
    need (r.noC && r.rm == 0); let d ← below 7 r.d.toNat; pure (.fcmp c d r.a r.b f (ftestOf r.mod.toNat))
  | 0x29 => do need (r.noB && r.noC && r.rm == 0 && r.mod == 0); pure (.fclass c r.d r.a f)
  | 0x2A => do
    need (r.noC && r.rm == 0)
    match r.mod.toNat with
    | 0 => do need r.noB; pure (.fsgn c r.d r.a f .abs)
    | 1 => do need r.noB; pure (.fsgn c r.d r.a f .neg)
    | 2 => pure (.fsgn c r.d r.a f (.cps r.b))
    | _ => pure (.fsgn c r.d r.a f (.xsgn r.b))
  | 0x2B => do need (r.noB && r.noC); pure (.frnd c r.d r.a f rm (r.mod == 1))
  | 0x2C => do
    need (r.noB && r.noC && r.mod.extractLsb' 4 5 == 0)
    pure (.cvt c r.d r.a f (r.mod.extractLsb' 0 4).toFin rm)
  | 0x2D => do need r.noC; let m ← modsOf r.mod; pure (.fscale c r.d r.a r.b f rm m)
  | 0x30 => do need (r.noB && r.noC); let m ← modsOf r.mod; pure (.fexp2 c r.d r.a f rm m)
  | 0x31 => do need (r.noB && r.noC); let m ← modsOf r.mod; pure (.flog2 c r.d r.a f rm m)
  | 0x32 => do need (r.noB && r.noC); let m ← modsOf r.mod; pure (.fexp c r.d r.a f rm m)
  | 0x33 => do need (r.noB && r.noC); let m ← modsOf r.mod; pure (.flog c r.d r.a f rm m)
  | 0x34 => do need (r.noB && r.noC); let m ← modsOf r.mod; pure (.frsqrt c r.d r.a f rm m)
  | 0x35 => do need (r.noB && r.noC); let m ← modsOf r.mod; pure (.fsin c r.d r.a f rm m)
  | 0x36 => do need (r.noB && r.noC); let m ← modsOf r.mod; pure (.fcos c r.d r.a f rm m)
  | 0x37 => do need (r.noB && r.noC); let m ← modsOf r.mod; pure (.ftanh c r.d r.a f rm m)
  | 0x38 => do need (r.noB && r.noC); let m ← modsOf r.mod; pure (.ferf c r.d r.a f rm m)
  | 0x3C => do need (r.noB && r.noC && r.mod == 0); pure (.bpack c r.d r.a f rm)
  | 0x3D => do need (r.noB && r.noC && r.rm == 0 && r.mod == 0); pure (.bunpack c r.d r.a f)
  | 0x3E => do need (r.d == 0xFF && r.noB && r.noC && r.rm == 0 && r.mod == 0); pure (.setfmt c r.a f)
  | 0x3F => do need (r.a == 0xFF && r.noB && r.noC && r.rm == 0 && r.mod == 0); pure (.getfmt c r.d f)
  | _ => none

/-- Lane and view-mask instructions, and the V words of barriers and control (Tables 6.12, 6.13, 6.14, 6.15). -/
def decodeLane (r : RawV) (c : Common) : Option Instr :=
  match r.maj.toNat with
  | 0x50 => do need r.int2; let m ← modsOf r.mod; pure (.lmov c r.d r.a m)
  | 0x51 => do
    need r.int2
    let a ← below 7 r.a.toNat
    match r.mod.toNat with
    | 0 => do let d ← below 7 r.d.toNat; pure (.vote c d a .any)
    | 1 => do let d ← below 7 r.d.toNat; pure (.vote c d a .all)
    | _ => pure (.voteBallot c r.d a)
  | 0x52 => do need (r.int3 && r.mod == 0); pure (.perm c r.d r.a r.b)
  | 0x53 => do need (r.int2 && r.mod == 0); pure (.rdind c r.d r.a)
  | 0x54 => do need (r.int2 && r.mod == 0); pure (.wrind c r.d r.a)
  | 0x55 => do
    need r.int3
    let d ← below 7 r.d.toNat
    let a ← below 7 r.a.toNat
    match r.mod.toNat with
    | 0 => do let b ← below 7 r.b.toNat; pure (.plog c d a (.and b))
    | 1 => do let b ← below 7 r.b.toNat; pure (.plog c d a (.or b))
    | 2 => do let b ← below 7 r.b.toNat; pure (.plog c d a (.xor b))
    | 3 => do let b ← below 7 r.b.toNat; pure (.plog c d a (.andn b))
    | 4 => do need r.noB; pure (.plog c d a .not)
    | _ => do need r.noB; pure (.plog c d a .mov)
  | 0x56 => do
    need r.int2
    if r.mod == 0 then do need (r.a == 0xFF); pure (.pmovToV c r.d)
    else do need (r.d == 0xFF); pure (.pmovFromV c r.a)
  | 0x80 => do need r.none4; pure (.bsync c)
  | 0x88 => do need (r.int2 && r.mod == 0); let a ← below 8 r.a.toNat; pure (.vmcnt c r.d a)
  | 0x89 => do
    need (r.int3 && r.mod == 0)
    let d ← below 7 r.d.toNat
    let a ← below 8 r.a.toNat
    pure (.vmtest c d a r.b)
  | 0x8A => do
    need r.int3
    let d ← below 8 r.d.toNat
    let a ← below 8 r.a.toNat
    let b ← below 8 r.b.toNat
    pure (.vmop c d a b (vmopOf r.mod.toNat))
  | 0x8B => do need (r.int2 && r.mod == 0); let a ← below 8 r.a.toNat; pure (.vmffs c r.d a)
  | 0x8C => do
    need (r.int2 && r.mod.extractLsb' 2 7 == 0)
    let a ← below 8 r.a.toNat
    pure (.vmget c r.d a (r.mod.extractLsb' 0 2).toFin)
  | 0x8D => do
    need (r.int2 && r.mod.extractLsb' 2 7 == 0)
    let d ← below 8 r.d.toNat
    pure (.vmset c d r.a (r.mod.extractLsb' 0 2).toFin)
  | 0x93 => do need r.none4; pure (.exit c)
  | 0x95 => do need r.none4; pure (.brk c)
  | 0xA8 => do need (r.int2 && r.mod == 0); pure (.engst c r.d r.a)
  | _ => none

/-- Pontil words of format V (Tables 9.3, 9.6, R187, R191). -/
def decodePontilV (r : RawV) (c : Common) : Option Instr :=
  let f : Slot := r.fs.toFin
  let rm := roundOf r.rm.toNat
  match r.maj.toNat with
  | 0xB1 => do
    need (r.noC && r.mod.extractLsb' 6 3 == 0)
    let d ← below 16 r.d.toNat
    let a ← below 32 r.a.toNat
    let b ← below 32 r.b.toNat
    pure (.mma c d a b f rm (r.mod.extractLsb' 0 5).toFin (r.mod.extractLsb' 5 1 == 1))
  | 0xB2 => do
    need (r.noC && r.mod.extractLsb' 6 3 == 0)
    let d ← below 16 r.d.toNat
    let a ← below 32 r.a.toNat
    let b ← below 32 r.b.toNat
    pure (.mmas c d a b f rm (r.mod.extractLsb' 0 5).toFin (r.mod.extractLsb' 5 1 == 1))
  | 0xB3 => do
    need (r.noC && r.mod.extractLsb' 6 3 == 0)
    let d ← below 16 r.d.toNat
    let a ← below 16 r.a.toNat
    let b ← below 32 r.b.toNat
    pure (.smrs c d a b f rm (r.mod.extractLsb' 0 6).toFin)
  | 0xB6 => do need (r.a == 0xFF && r.int2 && r.mod == 0); let d ← below 16 r.d.toNat; pure (.azero c d)
  | 0xB7 => do
    need r.int3
    let a ← below 32 r.a.toNat
    let b ← below 32 r.b.toNat
    if r.mod.toNat < 9 then do let d ← below 32 r.d.toNat; pure (.qop c d a b (qaluOf r.mod.toNat))
    else do let d ← below 7 r.d.toNat; pure (.qopCmp c d a b (qtestOf r.mod.toNat))
  | 0xBD => do need r.none4; pure (.parr c)
  | 0xBE => do need r.none4; pure (.pend c)
  | _ => none

/-- NOP (R111): bits 47:0 are zero. -/
def decodeNop (w : Word) (c : Common) : Option Instr := do
  need (w.extractLsb' 0 48 == 0)
  pure (.nop c)

def decodeV (w : Word) : Option Instr := do
  let r := splitV w
  let c ← commonOf r.stl r.grd
  let maj := r.maj.toNat
  if maj = 0x01 then decodeNop w c
  else if maj < 0x20 then decodeIntV r c
  else if maj < 0x40 then decodeFmt r c
  else if maj < 0xB0 then decodeLane r c
  else decodePontilV r c

def decodeK (w : Word) : Option Instr := do
  let r := splitK w
  let c ← commonOf r.stl r.grd
  match r.maj.toNat with
  | 0x14 => do need (r.k.extractLsb' 12 20 == 0); pure (.addk c r.d r.a (r.k.extractLsb' 0 12))
  | 0x15 => do need (r.a == 0xFF && r.k.extractLsb' 0 12 == 0); pure (.adpc c r.d (r.k.extractLsb' 12 20))
  | 0x16 => do need (r.a == 0xFF); pure (.movk c r.d r.k)
  | 0x17 => pure (.movhk c r.d r.a r.k)
  | 0x94 => do
    need (r.d == 0xFF && r.a == 0xFF && r.k.extractLsb' 16 16 == 0)
    pure (.trap c (r.k.extractLsb' 0 16))
  | 0xB8 => do need (r.a == 0xFF); let d ← below 32 r.d.toNat; pure (.qmovk c d r.k)
  | 0xBC => do
    need (r.k.extractLsb' 16 16 == 0)
    let d ← below 4 r.d.toNat
    let a ← below 32 r.a.toNat
    pure (.loop c d a (r.k.extractLsb' 0 16))
  | _ => none

/-- Fields of format M that must hold 0xFF or zero. -/
def RawM.noD (r : RawM) : Bool := r.d == 0xFF
def RawM.noAddr (r : RawM) : Bool := r.a == 0xFF && r.ofs == 0
def RawM.noHints (r : RawM) : Bool := r.ep == 0 && r.lu == 0 && r.fs == 0

/-- Memory, fences, barriers, boards, records (Tables 6.12 to 6.14). -/
def decodeMem (r : RawM) (c : Common) : Option Instr := do
  let m ← memOpOf r
  match r.maj.toNat with
  | 0x60 => pure (.ld c r.d m)
  | 0x61 => pure (.st c r.d m)
  | 0x62 => pure (.ldp c r.d m)
  | 0x63 => pure (.stp c r.d m)
  | 0x64 => pure (.ldfe c r.d m)
  | 0x65 => pure (.ldfeClr c r.d m)
  | 0x66 => pure (.stfe c r.d m)
  | 0x67 => do need r.noD; pure (.pf c m)
  | 0x68 => pure (.atomAdd c r.d m)
  | 0x69 => pure (.atomMin c r.d m)
  | 0x6A => pure (.atomMax c r.d m)
  | 0x6B => pure (.atomAnd c r.d m)
  | 0x6C => pure (.atomOr c r.d m)
  | 0x6D => pure (.atomXor c r.d m)
  | 0x6E => pure (.atomXchg c r.d m)
  | 0x6F => pure (.atomCas c r.d m)
  | 0x70 => do need (r.noD && r.noAddr && r.bind == 0 && r.noHints); pure (.fence c m.scope m.order)
  | 0x71 => do
    need (r.noD && r.noAddr && r.bind == 0 && r.noHints && r.ord == 0)
    pure (.fenceSc c m.scope)
  | 0x81 => pure (.binit c r.d m)
  | 0x82 => pure (.barr c r.d m)
  | 0x83 => pure (.bwait c r.d m)
  | 0x84 => do let k ← below 8 r.fs.toNat; pure (.nbpost c k r.d { m with slot := 0 })
  | 0x85 => pure (.nbget c r.d m)
  | 0x86 => do need (r.noD && r.noAddr && r.ord == 0 && r.noHints); pure (.nbinit c m.bind m.scope)
  | 0x91 => pure (.spawn c r.d m)
  | 0x92 => pure (.joinRec c r.d m)
  | 0xA0 => pure (.fork c r.d m)
  | 0xA1 => pure (.rdv c r.d m)
  | 0xA2 => do need r.noD; pure (.cpy c m)
  | 0xA3 => do need r.noD; pure (.gth c m)
  | 0xA4 => do need r.noD; pure (.sct c m)
  | 0xA5 => do need r.noD; pure (.xds c m)
  | 0xA6 => do need r.noD; pure (.tpf c m)
  | 0xA7 => do need r.noD; pure (.col c m)
  | _ => none

/-- Pontil words of format M (R176, R185, R186, R188). -/
def decodePontilM (r : RawM) (c : Common) : Option Instr := do
  let m ← qmemOpOf r
  let d ← below 32 r.d.toNat
  match r.maj.toNat with
  | 0xB0 => pure (.ocld c d m)
  | 0xB4 => pure (.drn c d m)
  | 0xB5 => pure (.drnm c d m)
  | 0xB9 => pure (.qld c d m)
  | 0xBA => pure (.qst c d m)
  | _ => none

def decodeM (w : Word) : Option Instr := do
  let r := splitM w
  let c ← commonOf r.stl r.grd
  if r.maj.toNat < 0xB0 then decodeMem r c else decodePontilM r c

def decodeB (w : Word) : Option Instr := do
  let r := splitB w
  let c ← commonOf r.stl r.grd
  if r.maj.toNat = 0xBB then do
    need (r.d == 0xFF && r.a == 0xFF && r.y == 0)
    pure (.pbr c r.disp)
  else
    match r.kind.toNat with
    | 0 => do need (r.d == 0xFF && r.a == 0xFF); pure (.br c r.disp (r.y == 1))
    | 1 => do need (r.d == 0xFF && r.disp == 0); pure (.bri c r.a (r.y == 1))
    | 2 => do need (r.d == 0xFD && r.a == 0xFF && r.y == 0); pure (.call c r.disp)
    | 3 => do need (r.d == 0xFD && r.disp == 0 && r.y == 0); pure (.calli c r.a)
    | _ => do need (r.d == 0xFF && r.disp == 0 && r.y == 0); pure (.ret c r.a)

def decodeS (w : Word) : Option Instr := do
  let r := splitS w
  let c ← commonOf r.stl r.grd
  let bindImm : Option (Fin 64) := below 64 r.imm.toNat
  match r.maj.toNat with
  | 0xC0 => do need (r.a == 0xFF && r.b == 0xFF); let p ← privRegOf r.imm.toNat; pure (.rdpr c r.d p)
  | 0xC1 => do need (r.d == 0xFF && r.b == 0xFF && r.imm == 1); pure (.wrpr c r.a)
  | 0xC2 => do need (r.imm == 0); pure (.bfinv c r.d r.a r.b)
  | 0xC3 => do
    need (r.d == 0xFF && r.b == 0xFF && r.imm == 0)
    if r.sop == 0 then pure (.tlbinvPg c r.a) else do need (r.a == 0xFF); pure (.tlbinvAll c)
  | 0xC4 => do
    need (r.b == 0xFF && r.imm == 0)
    match r.sop.toNat with
    | 0 => pure (.hqctlRd c r.d r.a)
    | 1 => pure (.hqctlPause c r.d r.a)
    | 2 => pure (.hqctlResume c r.d r.a)
    | _ => pure (.hqctlDrain c r.d r.a)
  | 0xC5 => do let n ← bindImm; pure (.lehrsv c r.d r.a r.b n)
  | 0xC6 => do need (r.b == 0xFF); let n ← bindImm; pure (.lehrld c r.d r.a n)
  | 0xC7 => do
    need (r.d == 0xFF && r.b == 0xFF && r.imm == 0)
    if r.sop == 0 then pure (.stoptArm c r.a) else do need (r.a == 0xFF); pure (.stoptOff c)
  | _ => none

/-- The fields of a word whose major and sub-operation are assigned; none is ILLEGAL_FIELD. -/
def decodeFields (w : Word) : Option Instr := do
  let f ← formatOf (w.extractLsb' 56 8).toNat
  let i ← match f with
    | .v => decodeV w
    | .k => decodeK w
    | .m => decodeM w
    | .b => decodeB w
    | .s => decodeS w
  need i.wf
  pure i

/-- The checks of R112 that depend on the word alone. -/
def decodeWord (w : Word) : Except Code Instr :=
  if !assignedSub w then .error .illegalOpcode
  else match decodeFields w with
    | some i => .ok i
    | none => .error .illegalField

/-! ## The encoder -/

def vCode (maj : BitVec 8) (c : Common) (d a b k : BitVec 8) (fs : BitVec 4) (rm : BitVec 3) (mod : BitVec 9) : Word :=
  joinV ⟨maj, stallCode c, guardCode c.guard, d, a, b, k, fs, rm, mod⟩

def kCode (maj : BitVec 8) (c : Common) (d a : BitVec 8) (k : BitVec 32) : Word :=
  joinK ⟨maj, stallCode c, guardCode c.guard, d, a, k⟩

def mCode (maj : BitVec 8) (c : Common) (d : BitVec 8) (m : MemOp) : Word :=
  joinM ⟨maj, stallCode c, guardCode c.guard, d, m.ofsReg, ⟨m.bind⟩, m.ofs, BitVec.ofNat 3 (scopeCode m.scope),
    BitVec.ofNat 2 (orderCode m.order), ⟨m.evict⟩, BitVec.ofBool m.lastUse, ⟨m.slot⟩⟩

def qRegCode (q : QReg) : BitVec 8 := BitVec.ofNat 8 q.val

def qmCode (maj : BitVec 8) (c : Common) (d : QReg) (m : QMemOp) : Word :=
  joinM ⟨maj, stallCode c, guardCode c.guard, qRegCode d, (match m.ofsReg with | some q => qRegCode q | none => 0xFF),
    ⟨m.bind⟩, m.ofs, BitVec.ofNat 3 (scopeCode m.scope), BitVec.ofNat 2 (orderCode m.order), ⟨m.evict⟩,
    BitVec.ofBool m.lastUse, ⟨m.slot⟩⟩

def bCode (maj : BitVec 8) (c : Common) (d a : BitVec 8) (disp : BitVec 26) (y : Bool) (kind : BitVec 5) : Word :=
  joinB ⟨maj, stallCode c, guardCode c.guard, d, a, disp, BitVec.ofBool y, kind⟩

def sCode (maj : BitVec 8) (c : Common) (d a b sop : BitVec 8) (imm : BitVec 16) : Word :=
  joinS ⟨maj, stallCode c, guardCode c.guard, d, a, b, sop, imm⟩

/-- An integer word of three or two registers, with MOD. -/
def i3Code (maj : BitVec 8) (c : Common) (d a b : BitVec 8) (mod : BitVec 9) : Word :=
  vCode maj c d a b 0xFF 0 0 mod
def i2Code (maj : BitVec 8) (c : Common) (d a : BitVec 8) (mod : BitVec 9) : Word :=
  vCode maj c d a 0xFF 0xFF 0 0 mod

/-- A format word of two registers and of one. -/
def f3Code (maj : BitVec 8) (c : Common) (d a b : BitVec 8) (f : Slot) (rm : Round) (mod : BitVec 9) : Word :=
  vCode maj c d a b 0xFF ⟨f⟩ (BitVec.ofNat 3 (roundCode rm)) mod
def f2Code (maj : BitVec 8) (c : Common) (d a : BitVec 8) (f : Slot) (rm : Round) (mod : BitVec 9) : Word :=
  f3Code maj c d a 0xFF f rm mod

def finCode {n : Nat} (k : Fin n) : BitVec 8 := BitVec.ofNat 8 k.val

/-- The word of an instruction, from Tables 6.1 to 6.16, 9.3, 9.6 and 16.4; a step that is no word has none. -/
def encode : Instr → Option Word
  | .nop c => some (vCode 0x01 c 0 0 0 0 0 0 0)
  | .iadd c d a b m => some (i3Code 0x02 c d a b (modsCode m))
  | .isub c d a b m => some (i3Code 0x03 c d a b (modsCode m))
  | .imul c d a b m => some (i3Code 0x04 c d a b (modsCode m))
  | .imulh c d a b s => some (i3Code 0x05 c d a b (match s with | .signed => 0 | .unsigned => 1))
  | .imad c d a b k m => some (vCode 0x06 c d a b k 0 0 (modsCode m))
  | .iand c d a b m => some (i3Code 0x07 c d a b (modsCode m))
  | .ior c d a b m => some (i3Code 0x08 c d a b (modsCode m))
  | .ixor c d a b m => some (i3Code 0x09 c d a b (modsCode m))
  | .iandn c d a b m => some (i3Code 0x0A c d a b (modsCode m))
  | .ishl c d a b m => some (i3Code 0x0B c d a b (modsCode m))
  | .ishr c d a b s => some (i3Code 0x0C c d a b (match s with | .unsigned => 0 | .signed => 1))
  | .irot c d a b m => some (i3Code 0x0D c d a b (modsCode m))
  | .icmp c d a b t => some (i3Code 0x0E c (finCode d) a b (itestCode t))
  | .ilim c d a b t => some (i3Code 0x0F c d a b (ilimCode t))
  | .isel c d a b p => some (vCode 0x10 c d a b (finCode p) 0 0 0)
  | .ibit c d a t => some (i2Code 0x11 c d a (ibitCode t))
  | .bfx c d a b k s => some (vCode 0x12 c d a b k 0 0 (match s with | .unsigned => 0 | .signed => 1))
  | .bfi c d a b k => some (vCode 0x13 c d a b k 0 0 0)
  | .iun c d a t => some (i2Code 0x1A c d a (match t with | .neg => 0 | .abs => 1))
  | .addk c d a k => some (kCode 0x14 c d a ((0 : BitVec 20) ++ k))
  | .adpc c d k => some (kCode 0x15 c d 0xFF (k ++ (0 : BitVec 12)))
  | .movk c d k => some (kCode 0x16 c d 0xFF k)
  | .movhk c d a k => some (kCode 0x17 c d a k)
  | .rdsr c d r => some (i2Code 0x18 c d (sregCode r) 0)
  | .wrsr c a => some (i2Code 0x19 c 0x13 a 0)
  | .fadd c d a b f rm m => some (f3Code 0x20 c d a b f rm (modsCode m))
  | .fsub c d a b f rm m => some (f3Code 0x21 c d a b f rm (modsCode m))
  | .fmul c d a b f rm m => some (f3Code 0x22 c d a b f rm (modsCode m))
  | .ffma c d a b k f rm m => some (vCode 0x23 c d a b k ⟨f⟩ (BitVec.ofNat 3 (roundCode rm)) (modsCode m))
  | .fdiv c d a b f rm m => some (f3Code 0x24 c d a b f rm (modsCode m))
  | .fsqrt c d a f rm m => some (f2Code 0x25 c d a f rm (modsCode m))
  | .frcp c d a f rm m => some (f2Code 0x26 c d a f rm (modsCode m))
  | .flim c d a b f t => some (f3Code 0x27 c d a b f .slotDefault (flimCode t))
  | .fcmp c d a b f t => some (f3Code 0x28 c (finCode d) a b f .slotDefault (ftestCode t))
  | .fclass c d a f => some (f2Code 0x29 c d a f .slotDefault 0)
  | .fsgn c d a f t => some (match t with
    | .abs => f2Code 0x2A c d a f .slotDefault 0
    | .neg => f2Code 0x2A c d a f .slotDefault 1
    | .cps b => f3Code 0x2A c d a b f .slotDefault 2
    | .xsgn b => f3Code 0x2A c d a b f .slotDefault 3)
  | .frnd c d a f rm x => some (f2Code 0x2B c d a f rm (if x then 1 else 0))
  | .cvt c d a f g rm => some (f2Code 0x2C c d a f rm ((0 : BitVec 5) ++ (⟨g⟩ : BitVec 4)))
  | .fscale c d a b f rm m => some (f3Code 0x2D c d a b f rm (modsCode m))
  | .fexp2 c d a f rm m => some (f2Code 0x30 c d a f rm (modsCode m))
  | .flog2 c d a f rm m => some (f2Code 0x31 c d a f rm (modsCode m))
  | .fexp c d a f rm m => some (f2Code 0x32 c d a f rm (modsCode m))
  | .flog c d a f rm m => some (f2Code 0x33 c d a f rm (modsCode m))
  | .frsqrt c d a f rm m => some (f2Code 0x34 c d a f rm (modsCode m))
  | .fsin c d a f rm m => some (f2Code 0x35 c d a f rm (modsCode m))
  | .fcos c d a f rm m => some (f2Code 0x36 c d a f rm (modsCode m))
  | .ftanh c d a f rm m => some (f2Code 0x37 c d a f rm (modsCode m))
  | .ferf c d a f rm m => some (f2Code 0x38 c d a f rm (modsCode m))
  | .bpack c d a f rm => some (f2Code 0x3C c d a f rm 0)
  | .bunpack c d a f => some (f2Code 0x3D c d a f .slotDefault 0)
  | .setfmt c a f => some (f2Code 0x3E c 0xFF a f .slotDefault 0)
  | .getfmt c d f => some (f2Code 0x3F c d 0xFF f .slotDefault 0)
  | .lmov c d a m => some (i2Code 0x50 c d a (modsCode m))
  | .vote c d a t => some (i2Code 0x51 c (finCode d) (finCode a) (match t with | .any => 0 | .all => 1))
  | .voteBallot c d a => some (i2Code 0x51 c d (finCode a) 2)
  | .perm c d a b => some (i3Code 0x52 c d a b 0)
  | .rdind c d a => some (i2Code 0x53 c d a 0)
  | .wrind c d a => some (i2Code 0x54 c d a 0)
  | .plog c d a t => some (match t with
    | .and b => i3Code 0x55 c (finCode d) (finCode a) (finCode b) 0
    | .or b => i3Code 0x55 c (finCode d) (finCode a) (finCode b) 1
    | .xor b => i3Code 0x55 c (finCode d) (finCode a) (finCode b) 2
    | .andn b => i3Code 0x55 c (finCode d) (finCode a) (finCode b) 3
    | .not => i2Code 0x55 c (finCode d) (finCode a) 4
    | .mov => i2Code 0x55 c (finCode d) (finCode a) 5)
  | .pmovToV c d => some (i2Code 0x56 c d 0xFF 0)
  | .pmovFromV c a => some (i2Code 0x56 c 0xFF a 1)
  | .ld c d m => some (mCode 0x60 c d m)
  | .st c d m => some (mCode 0x61 c d m)
  | .ldp c d m => some (mCode 0x62 c d m)
  | .stp c d m => some (mCode 0x63 c d m)
  | .ldfe c d m => some (mCode 0x64 c d m)
  | .ldfeClr c d m => some (mCode 0x65 c d m)
  | .stfe c d m => some (mCode 0x66 c d m)
  | .pf c m => some (mCode 0x67 c 0xFF m)
  | .atomAdd c d m => some (mCode 0x68 c d m)
  | .atomMin c d m => some (mCode 0x69 c d m)
  | .atomMax c d m => some (mCode 0x6A c d m)
  | .atomAnd c d m => some (mCode 0x6B c d m)
  | .atomOr c d m => some (mCode 0x6C c d m)
  | .atomXor c d m => some (mCode 0x6D c d m)
  | .atomXchg c d m => some (mCode 0x6E c d m)
  | .atomCas c d m => some (mCode 0x6F c d m)
  | .fence c s o => some (mCode 0x70 c 0xFF ⟨0xFF, 0, 0, s, o, 0, false, 0⟩)
  | .fenceSc c s => some (mCode 0x71 c 0xFF ⟨0xFF, 0, 0, s, .plain, 0, false, 0⟩)
  | .bsync c => some (vCode 0x80 c 0xFF 0xFF 0xFF 0xFF 0 0 0)
  | .binit c d m => some (mCode 0x81 c d m)
  | .barr c d m => some (mCode 0x82 c d m)
  | .bwait c d m => some (mCode 0x83 c d m)
  | .nbpost c k d m => some (mCode 0x84 c d { m with slot := ⟨k.val, by omega⟩ })
  | .nbget c d m => some (mCode 0x85 c d m)
  | .nbinit c b s => some (mCode 0x86 c 0xFF ⟨0xFF, b, 0, s, .plain, 0, false, 0⟩)
  | .vmcnt c d a => some (i2Code 0x88 c d (finCode a) 0)
  | .vmtest c d a b => some (i3Code 0x89 c (finCode d) (finCode a) b 0)
  | .vmop c d a b t => some (i3Code 0x8A c (finCode d) (finCode a) (finCode b) (vmopCode t))
  | .vmffs c d a => some (i2Code 0x8B c d (finCode a) 0)
  | .vmget c d a i => some (i2Code 0x8C c d (finCode a) ((0 : BitVec 7) ++ (⟨i⟩ : BitVec 2)))
  | .vmset c d a i => some (i2Code 0x8D c (finCode d) a ((0 : BitVec 7) ++ (⟨i⟩ : BitVec 2)))
  | .br c disp y => some (bCode 0x90 c 0xFF 0xFF disp y 0)
  | .bri c a y => some (bCode 0x90 c 0xFF a 0 y 1)
  | .call c disp => some (bCode 0x90 c 0xFD 0xFF disp false 2)
  | .calli c a => some (bCode 0x90 c 0xFD a 0 false 3)
  | .ret c a => some (bCode 0x90 c 0xFF a 0 false 4)
  | .spawn c d m => some (mCode 0x91 c d m)
  | .joinRec c d m => some (mCode 0x92 c d m)
  | .exit c => some (vCode 0x93 c 0xFF 0xFF 0xFF 0xFF 0 0 0)
  | .trap c k => some (kCode 0x94 c 0xFF 0xFF ((0 : BitVec 16) ++ k))
  | .brk c => some (vCode 0x95 c 0xFF 0xFF 0xFF 0xFF 0 0 0)
  | .fork c d m => some (mCode 0xA0 c d m)
  | .rdv c d m => some (mCode 0xA1 c d m)
  | .cpy c m => some (mCode 0xA2 c 0xFF m)
  | .gth c m => some (mCode 0xA3 c 0xFF m)
  | .sct c m => some (mCode 0xA4 c 0xFF m)
  | .xds c m => some (mCode 0xA5 c 0xFF m)
  | .tpf c m => some (mCode 0xA6 c 0xFF m)
  | .col c m => some (mCode 0xA7 c 0xFF m)
  | .engst c d a => some (i2Code 0xA8 c d a 0)
  | .ocld c d m => some (qmCode 0xB0 c d m)
  | .mma c d a b f rm sh acc => some (f3Code 0xB1 c (finCode d) (finCode a) (finCode b) f rm
      ((0 : BitVec 3) ++ BitVec.ofBool acc ++ (⟨sh⟩ : BitVec 5)))
  | .mmas c d a b f rm sh acc => some (f3Code 0xB2 c (finCode d) (finCode a) (finCode b) f rm
      ((0 : BitVec 3) ++ BitVec.ofBool acc ++ (⟨sh⟩ : BitVec 5)))
  | .smrs c d a b f rm ns => some (f3Code 0xB3 c (finCode d) (finCode a) (finCode b) f rm
      ((0 : BitVec 3) ++ (⟨ns⟩ : BitVec 6)))
  | .drn c d m => some (qmCode 0xB4 c d m)
  | .drnm c d m => some (qmCode 0xB5 c d m)
  | .azero c d => some (vCode 0xB6 c (finCode d) 0xFF 0xFF 0xFF 0 0 0)
  | .qop c d a b t => some (i3Code 0xB7 c (finCode d) (finCode a) (finCode b) (qaluCode t))
  | .qopCmp c d a b t => some (i3Code 0xB7 c (finCode d) (finCode a) (finCode b) (qtestCode t))
  | .qmovk c d k => some (kCode 0xB8 c (finCode d) 0xFF k)
  | .qld c d m => some (qmCode 0xB9 c d m)
  | .qst c d m => some (qmCode 0xBA c d m)
  | .pbr c disp => some (bCode 0xBB c 0xFF 0xFF disp false 0)
  | .loop c d a n => some (kCode 0xBC c (finCode d) (finCode a) ((0 : BitVec 16) ++ n))
  | .parr c => some (vCode 0xBD c 0xFF 0xFF 0xFF 0xFF 0 0 0)
  | .pend c => some (vCode 0xBE c 0xFF 0xFF 0xFF 0xFF 0 0 0)
  | .rdpr c d r => some (sCode 0xC0 c d 0xFF 0xFF 0 (privRegCode r))
  | .wrpr c a => some (sCode 0xC1 c 0xFF a 0xFF 0 1)
  | .bfinv c d a b => some (sCode 0xC2 c d a b 0 0)
  | .tlbinvPg c a => some (sCode 0xC3 c 0xFF a 0xFF 0 0)
  | .tlbinvAll c => some (sCode 0xC3 c 0xFF 0xFF 0xFF 1 0)
  | .hqctlRd c d a => some (sCode 0xC4 c d a 0xFF 0 0)
  | .hqctlPause c d a => some (sCode 0xC4 c d a 0xFF 1 0)
  | .hqctlResume c d a => some (sCode 0xC4 c d a 0xFF 2 0)
  | .hqctlDrain c d a => some (sCode 0xC4 c d a 0xFF 3 0)
  | .lehrsv c d a b n => some (sCode 0xC5 c d a b 0 (BitVec.ofNat 16 n.val))
  | .lehrld c d a n => some (sCode 0xC6 c d a 0xFF 0 (BitVec.ofNat 16 n.val))
  | .stoptArm c a => some (sCode 0xC7 c 0xFF a 0xFF 0 0)
  | .stoptOff c => some (sCode 0xC7 c 0xFF 0xFF 0xFF 1 0)
  | _ => none

/-- The instruction the decoder reads from a step whose bits are `w`: a 64-bit word of a thread or a pontil, in its byte
order (R2), or, when the table gives it more bits, a message of the host from the identity 0. -/
def decodeTableWord (nbits w : Nat) : Option Instr :=
  if nbits ≤ 64 then
    match decodeWord (BitVec.ofNat 64 (ofBytes (bytesOf w 8))) with
    | .ok i => some i
    | .error _ => none
  else some (decodeMessage false 0 (bytesOf w (nbits / 8)))

end Sys2Proof
end

