-- ==== Sys2Proof/Machine/Num.lean ====
section
/-! DEFINITION. Exact values, and the integers that rounding makes of them (R53, R54, R58, R59). -/

namespace Sys2Proof

/-- A decoded value: a NaN, an infinity, or (-1)^neg * n/d * 2^e with d > 0. A zero has n = 0 and keeps its sign. -/
inductive Val where
  | nan (quiet : Bool)
  | inf (neg : Bool)
  | num (neg : Bool) (n d : Nat) (e : Int)
  deriving DecidableEq, Repr

/-- The five flags of R60. -/
def fInvalid : Flags := 0b00001
def fDivZero : Flags := 0b00010
def fOverflow : Flags := 0b00100
def fUnderflow : Flags := 0b01000
def fInexact : Flags := 0b10000

def flagIf (b : Bool) (f : Flags) : Flags := if b then f else 0

def valZero (neg : Bool) : Val := .num neg 0 1 0

/-- An integer times a power of two. -/
def valInt (x : Int) (e : Int) : Val := .num (decide (x < 0)) x.natAbs 1 e

def Val.isNan : Val → Bool
  | .nan _ => true
  | _ => false

def Val.isSignalling : Val → Bool
  | .nan q => !q
  | _ => false

def Val.isZero : Val → Bool
  | .num _ 0 _ _ => true
  | _ => false

/-- The sign of a value (a NaN has none). -/
def Val.sign : Val → Bool
  | .nan _ => false
  | .inf s => s
  | .num s _ _ _ => s

def Val.negate : Val → Val
  | .nan q => .nan q
  | .inf s => .inf (!s)
  | .num s n d e => .num (!s) n d e

def Val.abs : Val → Val
  | .nan q => .nan q
  | .inf _ => .inf false
  | .num _ n d e => .num false n d e

/-- The value times 2^k. -/
def Val.scale (v : Val) (k : Int) : Val :=
  match v with
  | .num s n d e => .num s n d (e + k)
  | w => w

/-- floor(log2 (n/d * 2^e)) of a positive value. -/
def floorLog2 (n d : Nat) (e : Int) : Int :=
  let k : Int := (log2 n : Int) - (log2 d : Int)
  let fits := if 0 ≤ k then decide (d * 2 ^ k.toNat ≤ n) else decide (d ≤ n * 2 ^ (-k).toNat)
  (if fits then k else k - 1) + e

/-- The integer part of n/d * 2^e, and the fractional part as a fraction. -/
def intParts (n d : Nat) (e : Int) : Nat × Nat × Nat :=
  let n' := if 0 ≤ e then n * 2 ^ e.toNat else n
  let d' := if 0 ≤ e then d else d * 2 ^ (-e).toNat
  (n' / d', n' % d', d')

/-- The table D of R54: bitrev5(j) * 2^11 + 2^10. -/
def rsrThreshold (j : Nat) : Nat :=
  let j := j % 32
  let rev := (j % 2) * 16 + (j / 2 % 2) * 8 + (j / 4 % 2) * 4 + (j / 8 % 2) * 2 + j / 16
  rev * 2048 + 1024

/-- R54 on an integer part `q` and a fraction `r / d`. `pos` is i + φ. -/
def roundParts (q r d : Nat) (rm : Round) (neg : Bool) (pos : Nat) : Nat :=
  match rm with
  | .slotDefault | .rne => if 2 * r < d then q else if 2 * r > d then q + 1 else q + q % 2
  | .rna => if 2 * r < d then q else q + 1
  | .rtz => q
  | .rup => if r = 0 ∨ neg then q else q + 1
  | .rdn => if r = 0 ∨ !neg then q else q + 1
  | .rod => if r = 0 then q else q + (1 - q % 2)
  | .rsr => if r * 65536 / d ≥ rsrThreshold pos then q + 1 else q

/-- round_int of R54 on n/d * 2^e. -/
def roundInt (n d : Nat) (e : Int) (rm : Round) (neg : Bool) (pos : Nat) : Nat :=
  let (q, r, d') := intParts n d e
  roundParts q r d' rm neg pos

/-- Whether n/d * 2^e is an integer. -/
def isInteger (n d : Nat) (e : Int) : Bool := (intParts n d e).2.1 == 0

/-- The rounding of a zero sum (R59). -/
def zeroSum (x y : Bool) (rdn : Bool) : Bool := if x == y then x else rdn

/-- The exact sum of two finite values, as a signed fraction over a common denominator. -/
def addFinite (rdn : Bool) (s₁ : Bool) (n₁ d₁ : Nat) (e₁ : Int) (s₂ : Bool) (n₂ d₂ : Nat) (e₂ : Int) : Val :=
  if n₁ = 0 ∧ n₂ = 0 then valZero (zeroSum s₁ s₂ rdn)
  else if n₁ = 0 then .num s₂ n₂ d₂ e₂
  else if n₂ = 0 then .num s₁ n₁ d₁ e₁
  else
    let m := min e₁ e₂
    let a : Int := (n₁ * d₂ * 2 ^ (e₁ - m).toNat : Nat)
    let b : Int := (n₂ * d₁ * 2 ^ (e₂ - m).toNat : Nat)
    let t := (if s₁ then -a else a) + (if s₂ then -b else b)
    if t = 0 then valZero rdn else .num (decide (t < 0)) t.natAbs (d₁ * d₂) m

/-- x + y under R58 and R59, without the check for signalling operands. -/
def valAdd (rdn : Bool) (x y : Val) : Val × Flags :=
  match x, y with
  | .nan _, _ | _, .nan _ => (.nan true, 0)
  | .inf s, .inf t => if s == t then (.inf s, 0) else (.nan true, fInvalid)
  | .inf s, _ => (.inf s, 0)
  | _, .inf t => (.inf t, 0)
  | .num s n d e, .num s' n' d' e' => (addFinite rdn s n d e s' n' d' e', 0)

/-- x * y. -/
def valMul (x y : Val) : Val × Flags :=
  match x, y with
  | .nan _, _ | _, .nan _ => (.nan true, 0)
  | .inf s, .inf t => (.inf (s != t), 0)
  | .inf s, .num t n _ _ => if n = 0 then (.nan true, fInvalid) else (.inf (s != t), 0)
  | .num s n _ _, .inf t => if n = 0 then (.nan true, fInvalid) else (.inf (s != t), 0)
  | .num s n d e, .num t n' d' e' => (.num (s != t) (n * n') (d * d') (e + e'), 0)

/-- x / y; the flag of a division by zero is raised here (Table 4.8). -/
def valDiv (x y : Val) : Val × Flags :=
  match x, y with
  | .nan _, _ | _, .nan _ => (.nan true, 0)
  | .inf _, .inf _ => (.nan true, fInvalid)
  | .inf s, .num t _ _ _ => (.inf (s != t), 0)
  | .num s _ _ _, .inf t => (valZero (s != t), 0)
  | .num s n d e, .num t n' d' e' =>
    if n' = 0 then (if n = 0 then (.nan true, fInvalid) else (.inf (s != t), fDivZero))
    else (.num (s != t) (n * d') (d * n') (e - e'), 0)

/-- The integer square root by one bit at a time, from bit `k - 1` down. -/
def isqrtAux (x : Nat) : Nat → Nat → Nat
  | 0, r => r
  | k + 1, r => let c := r + 2 ^ k; isqrtAux x k (if c * c ≤ x then c else r)

def isqrt (x : Nat) : Nat := isqrtAux x (log2 x / 2 + 1) 0

/-- The square root of a positive fraction, exact or as a value between the truncation at 200 bits and the next: the
bit below is set, so that every rounding of R54 is that of the exact root. -/
def sqrtParts (n d : Nat) (e : Int) : Nat × Nat × Int :=
  let (n, e) := if e % 2 = 0 then (n, e) else (n * 2, e - 1)
  -- n/d * 2^e = (n * d) / d^2 * 2^e; the root is isqrt(n * d * 4^k) / d / 2^k * 2^(e/2)
  let k := 200 + log2 d
  let m := n * d * 4 ^ k
  let r := isqrt m
  if r * r = m then (r, d, e / 2 - k) else (2 * r + 1, d, e / 2 - k - 1)

/-- The square root (Table 4.8; R121: the root of -0 is -0). -/
def valSqrt (x : Val) : Val × Flags :=
  match x with
  | .nan _ => (.nan true, 0)
  | .inf true => (.nan true, fInvalid)
  | .inf false => (.inf false, 0)
  | .num s n d e =>
    if n = 0 then (valZero s, 0)
    else if s then (.nan true, fInvalid)
    else let (n', d', e') := sqrtParts n d e; (.num false n' d' e', 0)

/-- Compare finite values: `some o` unless a NaN is there. Zeros of either sign are equal. -/
def valCompare (x y : Val) : Option Ordering :=
  let key (s : Bool) (n : Nat) : Int := if n = 0 then 0 else if s then -1 else 1
  match x, y with
  | .nan _, _ | _, .nan _ => none
  | .inf s, .inf t => some (if s == t then .eq else if s then .lt else .gt)
  | .inf s, .num _ _ _ _ => some (if s then .lt else .gt)
  | .num _ _ _ _, .inf t => some (if t then .gt else .lt)
  | .num s n d e, .num t n' d' e' =>
    let m := min e e'
    let a : Int := key s n * (n * d' * 2 ^ (e - m).toNat : Nat)
    let b : Int := key t n' * (n' * d * 2 ^ (e' - m).toNat : Nat)
    some (compare a b)

/-- A signalling operand makes the result a NaN and raises invalid (Table 4.8). -/
def guardNan (xs : List Val) (r : Val × Flags) : Val × Flags :=
  if xs.any Val.isSignalling then (.nan true, fInvalid) else r

end Sys2Proof
end

