-- ==== Sys2Proof/Machine/Formats.lean ====
section
/-! DEFINITION. Format definitions, what bits denote, and rounding into a slot (R45 to R57, R62 to R67). -/

namespace Sys2Proof

/-- KIND (Table 4.1). -/
inductive Kind where
  | float | sint | uint | sfix | ufix | twin | mx
  deriving DecidableEq, Repr

/-- The fields of a format definition register (Table 4.1), as numbers. -/
structure FDef where
  kind : Nat
  s : Nat
  ew : Nat
  mw : Nat
  bias : Int
  sub : Nat
  inf : Nat
  nan : Nat
  sat : Bool
  rmd : Nat
  frac : Nat
  deriving DecidableEq, Repr

/-- Read a definition register. -/
def fdefOf (w : Word) : FDef :=
  { kind := wordField w 60 4, s := wordField w 59 1, ew := wordField w 55 4, mw := wordField w 49 6,
    bias := signedOf 16 (wordField w 33 16), sub := wordField w 31 2, inf := wordField w 29 2, nan := wordField w 27 2,
    sat := wordBit w 26, rmd := wordField w 23 3, frac := wordField w 16 7 }

/-- Element width w (R45). -/
def FDef.w (f : FDef) : Nat := f.s + f.ew + f.mw + (if f.kind = 5 then 1 else 0)

/-- ⌊64 / w⌋ (R48). -/
def FDef.lanes (f : FDef) : Nat := 64 / f.w

def FDef.isInt (f : FDef) : Bool := decide (1 ≤ f.kind ∧ f.kind ≤ 4)
def FDef.isSigned (f : FDef) : Bool := f.kind == 1 || f.kind == 3
def FDef.isBlock (f : FDef) : Bool := f.kind == 5 || f.kind == 6

/-- The default rounding of a slot. -/
def FDef.default (f : FDef) : Round := roundOf f.rmd

/-- eff_rm (Table 2.7). -/
def effRm (rm : Round) (f : FDef) : Round := if rm == .slotDefault then f.default else rm

/-- A row of Table 4.13: EW, MW, BIAS, INF, NAN, FRAC. -/
def mxRow (f : FDef) : Bool :=
  (f.ew, f.mw, f.bias, f.inf, f.nan, f.frac) ∈
    [(4, 3, 7, 0, 2, 0), (5, 2, 15, 1, 1, 0), (2, 3, 1, 0, 0, 0), (3, 2, 3, 0, 0, 0), (2, 1, 1, 0, 0, 0),
     (0, 7, 0, 0, 0, 6)]

/-- emax_elem of Table 4.13. -/
def mxEmax (f : FDef) : Int :=
  match f.ew, f.mw with
  | 4, 3 => 8 | 5, 2 => 15 | 2, 3 => 2 | 3, 2 => 4 | 2, 1 => 2 | _, _ => 0

/-- R46: a legal definition (Table 4.2), and never the null one. RMD 0b000, which Table 4.1 reserves and R46 does not name, is
illegal (DESIGN CHOICE, log 41). -/
def fdefLegal (w : Word) : Bool :=
  let f := fdefOf w
  let specials := (f.inf, f.nan) ∈ [(0, 0), (1, 1), (0, 2), (0, 3)]
  let common := decide (2 ≤ f.w ∧ f.w ≤ 64) && wordField w 0 16 == 0 && f.rmd != 0
  common && match f.kind with
  | 0 => decide (1 ≤ f.ew) && decide specials && (f.nan != 1 || decide (1 ≤ f.mw)) &&
      (f.inf != 1 || decide (2 ≤ f.ew)) && (f.nan != 3 || f.s == 1) && (f.inf != 0 || f.nan != 0 || f.sat) && f.frac == 0
  | 1 | 2 => f.s == 1 && f.ew == 0 && decide (1 ≤ f.mw) && f.bias == 0 && f.sub == 0 && f.inf == 0 && f.nan == 0 &&
      f.frac == 0
  | 3 | 4 => f.s == 1 && f.ew == 0 && decide (1 ≤ f.mw) && f.bias == 0 && f.sub == 0 && f.inf == 0 && f.nan == 0
  | 5 => f.s == 1 && f.ew == 0 && decide (1 ≤ f.mw ∧ f.mw ≤ 15) && f.bias == 127 && f.sub == 0 && f.inf == 0 &&
      f.nan == 0 && f.frac == 0
  | 6 => f.s == 1 && f.sub == 0 && f.sat && mxRow f
  | _ => false

/-- The fixed slots f0 to f3 (Table 4.3). -/
def fixedSlot : Nat → Word
  | 0 => 0x287E000000800000
  | 1 => 0x187E000000800000
  | 2 => 0x0DE807FE28800000
  | _ => 0x0C2E00FE28800000

def f0def : FDef := fdefOf (fixedSlot 0)
def f1def : FDef := fdefOf (fixedSlot 1)
def f2def : FDef := fdefOf (fixedSlot 2)
def f3def : FDef := fdefOf (fixedSlot 3)

/-! ### Packing (R48) -/

/-- Element `i` of a register. -/
def elemOf (f : FDef) (x i : Nat) : Nat := natField x (i * f.w) f.w

/-- A register whose elements are given, unused high bits zero. -/
def packElems (f : FDef) : List Nat → Nat
  | [] => 0
  | x :: xs => x % 2 ^ f.w + 2 ^ f.w * packElems f xs

/-! ### Decoding -/

/-- The bits below the sign. -/
def FDef.magBits (f : FDef) : Nat := f.ew + f.mw

/-- The NaN patterns of Table 4.5. -/
def isNanPattern (f : FDef) (x : Nat) : Bool :=
  let sgn := f.s == 1 && natField x f.magBits 1 == 1
  let mag := natField x 0 f.magBits
  match f.nan with
  | 0 => false
  | 1 => decide ((2 ^ f.ew - 1) * 2 ^ f.mw < mag)
  | 2 => mag == 2 ^ f.magBits - 1
  | _ => sgn && mag == 0

/-- R50; `flush` says whether SUB takes part. -/
def decodeFloat (f : FDef) (flush : Bool) (x : Nat) : Val :=
  let sgn := f.s == 1 && natField x f.magBits 1 == 1
  let e := natField x f.mw f.ew
  let m := natField x 0 f.mw
  if isNanPattern f x then .nan (f.nan != 1 || f.mw == 0 || natField m (f.mw - 1) 1 == 1)
  else if f.inf = 1 ∧ e = 2 ^ f.ew - 1 ∧ m = 0 then .inf sgn
  else if e = 0 then
    if m = 0 ∨ (flush ∧ (f.sub = 1 ∨ f.sub = 3)) then valZero sgn else .num sgn m 1 (1 - f.bias - f.mw)
  else .num sgn (2 ^ f.mw + m) 1 ((e : Int) - f.bias - f.mw)

/-- R52. -/
def decodeInt (f : FDef) (x : Nat) : Val :=
  let n : Int := if f.isSigned then signedOf f.w x else (x % 2 ^ f.w : Nat)
  valInt n (-(f.frac : Int))

/-- R65: an MX element, without its scale; EW = 0 is the INT8 row. -/
def decodeMxElem (f : FDef) (x : Nat) : Val :=
  if f.ew = 0 then valInt (signedOf f.w x) (-(f.frac : Int)) else decodeFloat f false x

/-- decode (Table 2.7) of a slot of KIND 0 to 4. -/
def decodeElem (f : FDef) (x : Nat) : Val := if f.kind = 0 then decodeFloat f true x else decodeInt f x

/-! ### Encoding -/

/-- The canonical NaN of a float slot (Table 4.5). -/
def canonicalNan (f : FDef) : Nat :=
  match f.nan with
  | 1 => (2 ^ f.ew - 1) * 2 ^ f.mw + 2 ^ (f.mw - 1)
  | 2 => 2 ^ f.magBits - 1
  | 3 => 2 ^ f.magBits
  | _ => 0

/-- The largest finite pattern (Table 4.5). -/
def maxPattern (f : FDef) : Nat :=
  match f.nan with
  | 1 => (2 ^ f.ew - 1) * 2 ^ f.mw - 1
  | 2 => 2 ^ f.magBits - 2
  | _ => 2 ^ f.magBits - 1

def signBits (f : FDef) (neg : Bool) : Nat := if neg && f.s == 1 then 2 ^ f.magBits else 0

/-- zero_bits (R53). -/
def zeroBits (f : FDef) (neg : Bool) : Nat := if f.nan == 3 then 0 else signBits f neg

def infBits (f : FDef) (neg : Bool) : Nat := (2 ^ f.ew - 1) * 2 ^ f.mw + signBits f neg
def maxBits (f : FDef) (neg : Bool) : Nat := maxPattern f + signBits f neg

/-- R55, Table 4.6. -/
def overflowBits (f : FDef) (rm : Round) (neg : Bool) : Nat :=
  let big := if f.inf = 1 then infBits f neg else canonicalNan f
  if f.sat then maxBits f neg
  else match rm with
  | .rtz | .rod => maxBits f neg
  | .rup => if neg then maxBits f neg else big
  | .rdn => if neg then big else maxBits f neg
  | _ => big

/-- R56, Table 4.7. `dz` says that R58 produced the infinity by a division by zero. -/
def noPlace (f : FDef) (v : Val) (dz : Bool) : Nat × Flags :=
  match v with
  | .nan _ => if f.nan = 0 then (0, fInvalid) else (canonicalNan f, 0)
  | .inf neg =>
    if f.s = 0 ∧ neg then (if f.sat then 0 else canonicalNan f, fInvalid)
    else if f.inf = 1 then (infBits f neg, 0)
    else (if f.sat then maxBits f neg else canonicalNan f, if dz then fDivZero else fInvalid)
  | .num _ _ _ _ => (if f.sat then 0 else canonicalNan f, fInvalid)

/-- R53. `pos` is i + φ of R54. -/
def encodeFloat (f : FDef) (v : Val) (rm : Round) (pos : Nat) (dz : Bool) : Nat × Flags :=
  match v with
  | .num neg n d e =>
    if n = 0 then (zeroBits f neg, 0)
    else if f.s = 0 ∧ neg then noPlace f v dz
    else
      let emin : Int := 1 - f.bias
      let lg := floorLog2 n d e
      let tiny := decide (lg < emin)
      let ex := max lg emin
      let sh := e + (f.mw - ex)
      let q := roundInt n d sh rm neg pos
      let inexact := !(isInteger n d sh)
      let carried := q == 2 ^ (f.mw + 1)
      let ex := if carried then ex + 1 else ex
      let q := if carried then 2 ^ f.mw else q
      let pattern := if q < 2 ^ f.mw then q else (ex + f.bias).toNat * 2 ^ f.mw + (q - 2 ^ f.mw)
      if maxPattern f < pattern then (overflowBits f rm neg, fOverflow ||| fInexact)
      else if tiny ∧ (f.sub = 2 ∨ f.sub = 3) then (zeroBits f neg, fUnderflow ||| fInexact)
      else
        let bits := if pattern = 0 then zeroBits f neg else pattern + signBits f neg
        (bits, flagIf (tiny && inexact) fUnderflow ||| flagIf inexact fInexact)
  | _ => noPlace f v dz

/-- R57. -/
def encodeInt (f : FDef) (v : Val) (rm : Round) (pos : Nat) : Nat × Flags :=
  let lo : Int := if f.isSigned then -(2 ^ f.mw : Nat) else 0
  let hi : Int := if f.isSigned then (2 ^ f.mw : Nat) - 1 else (2 ^ (f.mw + 1) : Nat) - 1
  match v with
  | .nan _ => (0, fInvalid)
  | .inf neg => (if f.sat then patternOf f.w (if neg then lo else hi) else 0, fInvalid)
  | .num neg n d e =>
    let q := roundInt n d (e + f.frac) rm neg pos
    let x : Int := if neg then -(q : Int) else q
    if x < lo ∨ hi < x then
      (if f.sat then patternOf f.w (if x < lo then lo else hi) else patternOf f.w x, fInvalid)
    else (patternOf f.w x, flagIf (!(isInteger n d (e + f.frac))) fInexact)

/-- encode (Table 2.7) into a slot of KIND 0 to 4. -/
def encodeElem (f : FDef) (v : Val) (rm : Round) (pos : Nat) (dz : Bool) : Nat × Flags :=
  if f.kind = 0 then encodeFloat f v rm pos dz else encodeInt f v rm pos

/-- encode into f2 under RNE. -/
def toBinary64 (v : Val) : Nat × Flags := encodeFloat f2def v .rne 0 false

/-! ### Twin-scale blocks (R62 to R64) -/

def clampInt (lo hi x : Int) : Int := if x < lo then lo else if hi < x then hi else x

/-- The largest floor(log2 |v|) of the finite nonzero values; an infinity counts as `infAs`. -/
def maxLog (infAs : Option Int) : List Val → Option Int
  | [] => none
  | v :: vs =>
    let r := maxLog infAs vs
    let here : Option Int := match v with
      | .num _ n d e => if n = 0 then none else some (floorLog2 n d e)
      | .inf _ => infAs
      | .nan _ => none
    match here, r with
    | some a, some b => some (max a b)
    | some a, none => some a
    | none, r => r

/-- The image of a block as one number: `hdr` bits of header, then elements. -/
def blockImage (hdr hdrBits w : Nat) (elems : List Nat) : Nat :=
  hdr + 2 ^ hdrBits * elems.foldr (fun x acc => x % 2 ^ w + 2 ^ w * acc) 0

/-- One element of pack_twin: selector, sign, q, and its flags. -/
def packTwinElem (m : Nat) (x0 x1 : Nat) (v : Val) (rm : Round) (pos : Nat) : Nat × Flags :=
  match v with
  | .inf neg => (2 ^ (m + 1) + bitOf neg * 2 ^ m + (2 ^ m - 1), fInvalid)
  | .nan _ => (0, 0)
  | .num neg n d e =>
    let q0 := roundInt n d (e + 127 + m - x0) rm neg pos
    let one := decide (2 ^ m - 1 < q0)
    let q1 := if one then roundInt n d (e + 127 + m - x1) rm neg pos else q0
    let q := min q1 (2 ^ m - 1)
    let x := if one then x1 else x0
    let bits := bitOf one * 2 ^ (m + 1) + bitOf neg * 2 ^ m + q
    -- a clamp of a value of magnitude 2^(X1 - 127) or more raises overflow and inexact
    if n ≠ 0 ∧ (x1 : Int) - 127 ≤ floorLog2 n d e then (bits, fOverflow ||| fInexact)
    else
      let (a, r, _) := intParts n d (e + 127 + m - x)
      (bits, flagIf (!(r == 0 && a == q)) fInexact)

/-- pack_twin (R64): the block image and its flags. `phase` is φ; position i is the index in the block. A NaN block with both a
NaN and, under SAT 0, an infinity counts as made for the NaN (DESIGN CHOICE, log 41). -/
def packTwin (f : FDef) (vs : List Val) (rm : Round) (phase : Nat) : Nat × Flags :=
  let m := f.mw
  let anyNan := vs.any Val.isNan
  let anyInf := vs.any (fun v => match v with | .inf _ => true | _ => false)
  if anyNan || (anyInf && !f.sat) then
    (255 + 255 * 256, if anyNan then flagIf (vs.any Val.isSignalling) fInvalid else fInvalid ||| fOverflow)
  else
    let x1 := match maxLog (some 127) vs with
      | some em => (clampInt 0 254 (em + 128)).toNat
      | none => 0
    let x0 := x1 - m
    let es := (List.range vs.length).zip vs |>.map (fun p => packTwinElem m x0 x1 p.2 rm (p.1 + phase))
    (blockImage (x0 + 256 * x1) 16 f.w (es.map (·.1)), es.foldl (fun a e => a ||| e.2) 0)

/-- Element `i` of a twin-scale block image (R63). -/
def twinElem (f : FDef) (img i : Nat) : Val :=
  let x0 := natField img 0 8
  let x1 := natField img 8 8
  if x0 = 255 ∨ x1 = 255 then .nan true
  else
    let b := natField img (16 + i * f.w) f.w
    let x := if natField b (f.mw + 1) 1 = 1 then x1 else x0
    .num (natField b f.mw 1 == 1) (natField b 0 f.mw) 1 ((x : Int) - 127 - f.mw)

/-! ### MX blocks (R65 to R67, R131) -/

/-- Encode one MX element value, already scaled, with saturation, keeping element infinities and NaNs; `dz` as in `noPlace`. -/
def encodeMxElem (f : FDef) (v : Val) (rm : Round) (pos : Nat) (dz : Bool) : Nat × Flags :=
  if f.ew = 0 then encodeInt { f with kind := 3 } v rm pos
  else encodeFloat f v rm pos dz

/-- Step 3 of R67: the shared scale. -/
def mxScale (f : FDef) (vs : List Val) : Nat :=
  if f.nan == 0 && vs.any Val.isNan then 255
  else match maxLog none vs with
    | some a => (clampInt 0 254 (a - mxEmax f + 127)).toNat
    | none => 0

/-- pack_mx (R131, R67) of values with the flags of what formed them: the block image and its flags. In a NaN block the other
elements are encoded too, and only a signalling NaN raises invalid. (DEDUCED, log 41) -/
def packMx (f : FDef) (vs : List (Val × Flags)) (rm : Round) (phase : Nat) : Nat × Flags :=
  let x := mxScale f (vs.map (·.1))
  let es := (List.range vs.length).zip vs |>.map
    (fun p => encodeMxElem f (p.2.1.scale (127 - x)) rm (p.1 + phase) (p.2.2 &&& fDivZero != 0))
  let fl := es.foldl (fun a e => a ||| e.2) 0
  (blockImage x 8 f.w (es.map (·.1)),
   if x = 255 then (fl &&& ~~~fInvalid) ||| flagIf (vs.any (fun v => v.1.isSignalling)) fInvalid else fl)

/-- Element `i` of an MX block image (R65). -/
def mxElem (f : FDef) (img i : Nat) : Val :=
  let x := natField img 0 8
  if x = 255 then .nan true else (decodeMxElem f (natField img (8 + i * f.w) f.w)).scale ((x : Int) - 127)

/-- Bits of a block (R62, R65), and an element of one. -/
def FDef.blockBits (f : FDef) : Nat := (if f.kind = 5 then 16 else 8) + 32 * f.w
def blockElem (f : FDef) (img i : Nat) : Val := if f.kind = 5 then twinElem f img i else mxElem f img i

/-- Pack values into a block of a slot, with the flags of what formed them merged in. -/
def packBlock (f : FDef) (vs : List (Val × Flags)) (rm : Round) (phase : Nat) : Nat × Flags :=
  let r := if f.kind = 5 then packTwin f (vs.map (·.1)) rm phase else packMx f vs rm phase
  (r.1, vs.foldl (fun x v => x ||| v.2) r.2)

/-- bfloat16 with SUB keep and RNE (Table 4.4), the format of alias ranges (R66). -/
def bf16 : FDef := fdefOf 0x0C0E00FE28800000

/-- A slot an alias range accepts: bfloat16 with any SUB and RMD. -/
def isBf16 (f : FDef) : Bool := { f with sub := 0, rmd := 1 } == bf16

/-- Read of an alias element (R66). -/
def aliasRead (f : FDef) (img i : Nat) : Nat :=
  match mxElem f img i with
  | .nan _ => 0x7FC0
  | v => (encodeFloat bf16 v .rne 0 false).1

/-- Write of an alias element (R67): the new block image. -/
def aliasWrite (f : FDef) (img i x : Nat) : Nat :=
  let vs := (List.range 32).map (fun j => (if j = i then decodeFloat bf16 false x else mxElem f img j, 0))
  (packMx f vs .rne 0).1

end Sys2Proof
end

