-- ==== Sys2Proof/Machine/State.lean ====
section
/-! DEFINITION. The state of one Q9 module, as plain data, and the state after reset. INVENTORY.md lists the rule of the
spec that names each field. -/

namespace Sys2Proof
namespace Machine

/-- Reasons a step stops. -/
inductive Fault where
  /-- Raised by `step` when the agenda names, as an event, an instruction word: no agent issues it. Safe: the machine
  stops where no hardware would be. -/
  | notAnEvent
  deriving DecidableEq, Repr

/-- Refusals. -/
inductive Refusal where
  /-- Raised by an arm of `exec` that has no meaning yet. Safe. -/
  | notModelled (mnemonic : String)
  deriving DecidableEq, Repr

/-! ## Memory and what agents have seen of it -/

/-- An agent, with the place from which Table 1.3 counts its scopes. -/
inductive Actor where
  | thread (core : CoreId) (wg warp tid : Nat)
  | pontil (p : PontilId)
  | copy (c : ClusterId)
  | gather (die : Fin 4)
  | transducer (die : Fin 4)
  | collective (die : Fin 4)
  | migration
  | dispatcher (die : Fin 4)
  | host
  | remote (module : BitVec 11)
  deriving DecidableEq, Repr

/-- The place an atomic is performed at (R88). -/
inductive Point where
  | l1 (core : CoreId)
  | dieCache (die : Fin 4)
  | home
  deriving DecidableEq, Repr

/-- Page kinds (R76 to R81). -/
inductive PageKind where
  | sram | rc | so | uo
  deriving DecidableEq, Repr

/-- A release (R83): its scope, who made it, what it makes visible (for each byte the number of the latest write, and the
numbers of writes to UO pages), its tick, and whether it is a fence, whose later stores carry it and begin no release sequence
(R84). -/
structure Rel where
  scope : Scope
  agent : Actor
  floor : List (Nat × Nat)
  uo : List Nat
  tick : Nat
  fence : Bool
  deriving DecidableEq, Repr

/-- One byte of a write: where, the byte written, the byte before. -/
structure WrCell where
  loc : Nat
  new : Byte
  old : Byte
  deriving DecidableEq, Repr

/-- A store to a UO page (R78): the scopes at which its writer has released it, and whether its place in coherence order
is settled. -/
structure Loose where
  scopes : List Scope
  placed : Bool
  deriving DecidableEq, Repr

/-- One write in coherence order (R85): its number, and those it had before a release moved it (R78); the point it is performed
at, where it has one, whether it is an indivisible step there with a read (R88), the kind of page it went through, whether it is
one of several parts that another agent may not see yet (R75, R79), and the releases that a reader of it may acquire (R83, R84). -/
structure WriteRec where
  id : Nat
  was : List Nat
  agent : Actor
  point : Option Point
  step : Bool
  kind : Option PageKind
  late : Bool
  cells : List WrCell
  rels : List Rel
  loose : Option Loose
  deriving DecidableEq, Repr

/-- What an agent must see: for each byte the number of the earliest write it may still return because of what happens
before (`floor`) and because of what it has read itself (`reads`, R85), the numbers of writes to UO pages that it has made
or acquired (R78), release fences that its later stores carry, releases read that a later acquire fence takes (R83), and the number
after that of the latest write made when it last reached an SO page (R76). -/
structure MemView where
  floor : List (Nat × Nat)
  reads : List (Nat × Nat)
  uo : List Nat
  fences : List Rel
  seen : List Rel
  so : Nat
  deriving DecidableEq, Repr

def MemView.empty : MemView := ⟨[], [], [], [], [], 0⟩

/-- The latest write that a step at a point has found in a byte (R88), and while a gang performs its atomics the writes that a member
which wrote nothing did not find: the next member does not find them either (R149). -/
structure PointSeen where
  point : Point
  loc : Nat
  id : Nat
  past : List Nat
  deriving DecidableEq, Repr

/-- An SC fence performed (R86): who, scope, and the latest writes its agent had made. -/
structure ScFence where
  agent : Actor
  scope : Scope
  floor : List (Nat × Nat)
  deriving DecidableEq, Repr

/-- A cached translation (R253, R255): home die, page base offset, log2 of its size, the leaf, and the context whose
access filled it. -/
structure TlbEntry where
  die : Nat
  page : Nat
  bits : Nat
  leaf : Word
  ctx : Nat
  deriving DecidableEq, Repr

/-- A tlbinv that has been performed at a home die (R255, R256): for the page of an offset, or for every page, and the number of the first
write after it. -/
structure Invalidated where
  die : Nat
  ofs : Option Nat
  from' : Nat
  deriving DecidableEq, Repr

/-- A cached buffer table entry (R259): the caching core or pontil, the context and index, and the 64 bytes. -/
structure CachedEntry where
  holder : Actor
  ctx : Nat
  index : Nat
  bits : Nat
  deriving DecidableEq, Repr

/-! ## Threads and workgroups -/

/-- A write of one register. -/
inductive RegWrite where
  | v (r : VReg) (x : Word)
  | p (r : PReg) (b : Bool)
  | vm (r : VmReg) (x : ViewMask)
  deriving DecidableEq, Repr

/-- A fixed-latency result inside its window (R40, R41): the write that restores the value held before, and the cycles
still missing. -/
structure Window where
  old : RegWrite
  left : Nat
  deriving DecidableEq, Repr

/-- A scoreboarded result still owed (R32, R329): its register writes and flags; `load` for ld, ldp, ldfe (R164); `queue`
for hqctl.drain, whose result is the state of that queue once nothing of it is resident (R245); `tag` the port of its die that
holds its request and the tag it has there: the tables of request tags are what the threads of a die are owed (R281). -/
structure Owed where
  writes : List RegWrite
  flags : Flags
  flagged : Bool
  memory : Bool
  load : Bool
  queue : Option Nat
  tag : Option (Fin 13 × Nat)
  deriving DecidableEq, Repr

/-- What a thread waits for (R32). -/
inductive WaitKind where
  | granule | fence | bsync | barrier | queueRoom | forkContext | engineRoom | bfinv | link | save
  deriving DecidableEq, Repr

/-- A wait: its kind, the instruction, its number among all waits, the tick limit of a barrier wait or a bfinv, the dies
that have acknowledged a bfinv, and the tick, the format definitions and the peer table at its issue, which it keeps
(R133, R155, R308). -/
structure Wait where
  kind : WaitKind
  instr : Instr
  since : Nat
  limit : Nat
  acks : List Nat
  issued : Nat
  fmts : List Word
  peers : List PeerEntry
  deriving DecidableEq, Repr

/-- A thread (Tables 1.5, 3.1). -/
structure Thread where
  tid : Nat
  pc : Word
  depth : Nat
  parked : Bool
  live : Bool
  stall : Nat
  wait : Option Wait
  regs : List Word
  preds : List Bool
  vms : List ViewMask
  fflags : Flags
  windows : List Window
  owed : List Owed
  trap : Option (Code × Word)
  view : MemView
  poisoned : List ThreadReg
  deriving DecidableEq, Repr

/-- A resident workgroup. `uid` is its number in the model; `formed` the gang that R11 keeps formed (R35);
`disposed` once R273 has left it halted on its core. -/
structure Workgroup where
  uid : Nat
  core : CoreId
  slot : Fin 16
  ctx : Nat
  launch : Nat
  index : Nat
  size : Nat
  nregs : Nat
  fmts : List Word
  placed : Nat
  halted : Bool
  disposed : Bool
  formed : List Nat
  threads : List Thread
  deriving DecidableEq, Repr

/-! ## Pontils -/

inductive PontilState where
  | free | running | stopped
  deriving DecidableEq, Repr

/-- An active loop (R190). -/
structure Loop where
  lc : LcReg
  first : Word
  last : Word
  deriving DecidableEq, Repr

/-- A tile: cells in order (a missing cell is zero bits), row maxima and row sums as binary64 (R183, R187). -/
structure Tile where
  cells : List Word
  rmax : List Word
  rsum : List Word
  deriving DecidableEq, Repr

/-- An element in the espalier store: its value, and its mask bit (R177). -/
structure EspElem where
  val : Val
  present : Bool
  deriving DecidableEq, Repr

/-- A region of a context's half of the espalier store (R175 to R177). `intact` until a later ocld writes a unit; `gone` are the units that
a restored image marks empty (R288, R292). -/
structure EspRegion where
  addr : Nat
  units : Nat
  rows : Nat
  klen : Nat
  role : Nat
  planes : Nat
  intact : Bool
  gone : List Nat
  elems : List (List EspElem)
  deriving DecidableEq, Repr

/-- A pontil waiting at an instruction: at an ocld with FEW, with the granules already taken, their bytes and the fills observed (R176);
with `link` for a path, a die or a frame, and it makes its instruction again (R280, R307). It keeps the peer table of its
issue (R308). -/
structure OcldWait where
  instr : Instr
  taken : List (Nat × List Byte)
  fills : List (Nat × Rel)
  link : Bool
  peers : List PeerEntry
  deriving DecidableEq, Repr

/-- A pontil context (R168 to R174, Table 20.4). `drained` is what its drains have written and its arrivals release; its
own reads need not see it (R213). `restored` are the bytes of ESP with which an image has restored the half, until an ocld writes it
(R288). -/
structure Pontil where
  id : PontilId
  state : PontilState
  pc : Word
  q : List Word
  lc : List (BitVec 32)
  loops : List Loop
  cw : BitVec 32
  phi : Nat
  flags : Flags
  code : Nat
  fmts : List Word
  rdv : Word
  rbind : Fin 64
  relem : Word
  rtid : Nat
  scope : Scope
  wg : Nat
  tiles : List Tile
  esp : List EspRegion
  restored : Option (List Byte)
  wait : Option OcldWait
  view : MemView
  drained : MemView
  deriving DecidableEq, Repr

/-! ## Engines -/

inductive EngineUnit where
  | copy (c : ClusterId)
  | gather (die : Fin 4)
  | lane (die : Fin 4) (k : Nat)
  | collective (die : Fin 4)
  | tpf (far : Fin 2)
  deriving DecidableEq, Repr

inductive EngineKind where
  | cpy | gth | sct | xds | tpf | col
  deriving DecidableEq, Repr

/-- What an entry grants (Table 18.3). `mxk` is the ALIAS field, `off` the byte of the alias range at which a slice of it
begins (R234). -/
structure Bound where
  base : Nat
  len : Nat
  r : Bool
  w : Bool
  a : Bool
  x : Bool
  board : Bool
  slots : Nat
  mxk : Nat
  comp : Nat
  smask : Nat
  sshift : Nat
  gen : Nat
  owner : Nat
  off : Nat
  deriving DecidableEq, Repr

/-- What a collective writes at a rank of this module, and its status, once every source has been read (R93, R202). -/
structure Plan where
  ws : List (Nat × List (Nat × Byte))
  status : Nat
  deriving DecidableEq, Repr

/-- An operation enqueued on an engine (R193): its unit, a copy of its descriptor and where that stands, scope, what its
starter had seen, the buffers of the bindings it names as they stood at the start, the workgroup's definitions f4 to f15,
the resolved completion object, the handle its events carry, the bytes it has written before its completion with the numbers
of the writes (R93), what a collective has found to write, the tick of its start, the peer table then (R308), and the code of a reset
that stops it. -/
structure EngineOp where
  unit : EngineUnit
  kind : EngineKind
  desc : Nat
  descAddr : Nat
  scope : Scope
  ctx : Nat
  launch : Nat
  handle : Nat
  buffers : List (Nat × Bound)
  fmts : List Word
  comp : Option Nat
  view : MemView
  early : List (Nat × Nat)
  plan : Option Plan
  started : Nat
  peers : List PeerEntry
  aborted : Option Code
  deriving DecidableEq, Repr

/-- An operation that a reset has stopped, and whose status word and object lie behind what makes accesses wait (R280, R307). -/
structure EngineEnd where
  op : EngineOp
  view : MemView
  status : Nat
  bytes : Nat
  deriving DecidableEq, Repr

/-! ## Contexts, queues, launches -/

/-- Table 16.1. -/
structure Context where
  id : Fin 64
  device : Nat
  priv : Bool
  check : Bool
  debug : Bool
  btbase : Word
  btlen : Nat
  deriving DecidableEq, Repr

/-- A hardware queue that a context holds (R238, Table 17.7), under its number within the context's device. `tail` is
the place of the backing after the last one taken. -/
structure Queue where
  num : Nat
  owner : Fin 64
  prio : Fin 4
  pre : Bool
  qbase : Word
  qlen : Nat
  sabase : Word
  salen : Nat
  paused : Bool
  tail : Nat
  deriving DecidableEq, Repr

/-- A dispatcher save that waits to be restored (R246): die, index of the workgroup, entry and offset in the area. -/
structure Saved where
  die : Nat
  index : Nat
  entry : Nat
  ofs : Nat
  len : Nat
  deriving DecidableEq, Repr

/-- A workgroup of a launch that is marked saved (R289): its index and number, and what its threads and its contexts had
seen of memory, which stays true of them after a restore. -/
structure Mark where
  index : Nat
  uid : Nat
  views : List MemView
  pontilViews : List MemView
  deriving DecidableEq, Repr

/-- An accepted launch (R232 to R243). `record` and `block` are its own copies, `since` the number of the first write
after its acceptance (R114), `entry` its place in the backing, `rels` the releases its start follows (R163), `next` the next unplaced index of each die,
`saved` the dispatcher's saves, `marks` every workgroup marked saved, `codeAt` the tick of its code (R274), `exits` what its threads released (R243) and `exitTicks` the latest tick of that on each die (R282), `joined`
the next dependent of a completion under way, `under` its DEPUNDER bit. -/
structure Launch where
  uid : Nat
  addr : Word
  ctx : Fin 64
  queue : Nat
  record : Nat
  block : Nat
  since : Nat
  entry : Nat
  rels : List Rel
  next : List Nat
  ended : Nat
  saved : List Saved
  marks : List Mark
  code : Option Code
  codeAt : Nat
  exits : List (Nat × Nat)
  exitTicks : List (Nat × Nat)
  joined : Option Nat
  under : Bool
  deriving DecidableEq, Repr

/-- A dispatcher's workgroup held for want of room (R241, R246). -/
structure Held where
  launch : Nat
  index : Nat
  since : Nat
  deriving DecidableEq, Repr

/-- Age of a queue on a die (R240): its boost, since when it has been eligible without placing a workgroup or gaining, and
whether it is eligible. -/
structure Age where
  /-- the die on which the queue is eligible; 4 more while the queue is not eligible there, and the age rests -/
  die : Nat
  queue : Nat
  boost : Nat
  since : Nat
  eligible : Bool
  deriving DecidableEq, Repr

/-! ## The host, links, watching -/

/-- A message to the host or to a peer of the session: a reply, or an EVENT (Table 21.1). -/
structure Message where
  dest : Nat
  op : Nat
  reply : Bool
  tag : Tag
  ctx : Nat
  status : Nat
  payload : List Byte
  deriving DecidableEq, Repr

/-- An event record (Table 19.3): 32 bytes, as fields. -/
structure EventRec where
  src : Nat
  seq : Nat
  dropped : Nat
  tick : Nat
  ctx : Nat
  code : Nat
  detail : Nat
  handle : Nat
  deriving DecidableEq, Repr

/-- An event source (R276, R305): next sequence number and records dropped. -/
structure Source where
  src : Nat
  seq : Nat
  dropped : Nat
  deriving DecidableEq, Repr

/-- An EVENT message sent and not acknowledged. -/
structure Sent where
  tag : Tag
  recs : List EventRec
  tick : Nat
  deriving DecidableEq, Repr

/-- A completion event of a launch ended by a code of class E, not yet acknowledged (R304): the record's address, the code,
the event's source, and its number unless the source has dropped it. -/
structure FaultRec where
  addr : Word
  code : Nat
  src : Nat
  seq : Option Nat
  deriving DecidableEq, Repr

/-- A frame that waits for its turn (R302); `quiet` once a later OPEN has ended its session (R300). -/
structure Arrived where
  sender : Nat
  bytes : List Byte
  quiet : Bool
  deriving DecidableEq, Repr

/-- An ABORT whose launch has not completed yet (R302): the launch, and the command's tag and context. -/
structure Aborting where
  launch : Nat
  tag : Tag
  ctx : Nat
  deriving DecidableEq, Repr

/-- An answer to a peer module's request on UALink (R269, R306): the request's tag, the code that refused it or 0, and the
bytes or the value. -/
structure LinkReply where
  module : BitVec 11
  tag : Word
  code : Nat
  data : List Byte
  deriving DecidableEq, Repr

/-- A port of the module (R304, R307, R308, R310). -/
structure Port where
  kind : PortKind
  num : Nat
  state : Nat
  peer : BitVec 11
  deriving DecidableEq, Repr

/-- A collective group (R309). -/
structure Group where
  tag : Word
  members : List GroupMember
  deriving DecidableEq, Repr

/-- A die under reset (R280, R281): since which tick, its ports that have not finished the handshake (0 to 7 UALink, 8 to 12 to
the other dies of the package; DESIGN CHOICE, log 28), whether it has been
left offline, the command whose reply the end of the reset sends, and whether a command began it (R302). -/
structure DieDown where
  die : Fin 4
  since : Nat
  ports : List (Fin 13)
  offline : Bool
  reply : Option Tag
  command : Bool
  deriving DecidableEq, Repr

/-- A firmware image being staged, or verified (R312 to R315). -/
structure Staging where
  kind : Fin 2
  size : Nat
  data : List (Nat × List Byte)
  opened : Bool
  deriving DecidableEq, Repr

structure Verified where
  kind : Fin 2
  digest : List Byte
  svn : BitVec 32
  deriving DecidableEq, Repr

/-- A line of 64 bytes that has been modified and has not reached its frame (R264), and the near-tier die whose die cache holds
it, where that is certain. -/
structure DirtyLine where
  line : Nat
  cache : Option Nat
  deriving DecidableEq, Repr

/-- Memory protection of a far-tier line or region (R320 to R322). -/
structure LineCount where
  line : Nat
  minor : Nat
  deriving DecidableEq, Repr

structure RegionCount where
  memory : Nat
  region : Nat
  major : Nat
  deriving DecidableEq, Repr

/-- A node's counter of the counter tree (R321): the memory's space, the level above the counter lines, the number of the
child counted at that level. -/
structure TreeCount where
  memory : Nat
  level : Nat
  child : Nat
  value : Nat
  deriving DecidableEq, Repr

/-- A page's moves, by domain page address (R268). -/
structure MoveLog where
  page : Nat
  ticks : List Nat
  deriving DecidableEq, Repr

/-- Requests of a die to a page in the window under way and in the one before (R267). -/
structure PageCount where
  page : Nat
  die : Nat
  count : Nat
  before : Nat
  deriving DecidableEq, Repr

/-- A page move under way (R266): the page, the location of its leaf and the leaf L0 read there, the memory it moves to and
the frame taken, whether it settles the page, and the descriptor of the tier prefetch that asked for it. A move that a
prefetch asked for stays, with whether the page moved, until the prefetch completes. -/
structure MoveReq where
  page : Nat
  at' : Nat
  leaf : Nat
  target : Nat
  frame : Nat
  settle : Bool
  tpf : Option Nat
  done : Option Bool
  deriving DecidableEq, Repr

/-- A counter of Table 20.10 of a die. -/
structure Counter where
  die : Nat
  num : Nat
  value : Nat
  deriving DecidableEq, Repr

/-- Tracing and series of a die (R295 to R299): the addresses of its control blocks; the sample exponent and the latch exponent
in force, each with the tick at which it is next due; the tick of the last latch, or at which EN was seen set; the next frame's
number and the frames lost before it. -/
structure Watch where
  die : Nat
  traceCb : Option Nat
  sample : Option (Nat × Nat)
  seriesCb : Option Nat
  latch : Option (Nat × Nat)
  lastLatch : Nat
  seriesSeq : Nat
  lost : Nat
  deriving DecidableEq, Repr

/-- A trace record that a core's instructions issued before may still come ahead of (R296): its tick, and how many waits had begun. -/
structure TraceHeld where
  core : CoreId
  tick : Nat
  order : Nat
  bits : Nat
  deriving DecidableEq, Repr

/-- Power of the package (R312, R316, R317). -/
inductive Power where
  | off | minimal | running
  deriving DecidableEq, Repr

/-- Whose turn it is. -/
inductive Turn where
  | event (i : Instr)
  | pontil (p : PontilId)
  | frame (sender : Nat) (bytes : List Byte)
  deriving DecidableEq, Repr

/-- An instruction that has been issued: a gang of threads of a workgroup, or a pontil context. -/
inductive Issuer where
  | gang (wg : Nat) (tids : List Nat)
  | pontil (p : PontilId)
  deriving DecidableEq, Repr

/-! ## The state -/

structure State where
  -- the model's own fields (log 1 to 3, 7)
  agenda : List Turn
  arrived : List Arrived
  issue : List Issuer
  choice : Nat
  uids : Nat
  -- time: a global tick, and whether each die's reading is one ahead (R282, R283)
  now : Nat
  ahead : List Bool
  -- package
  power : Power
  stopped : Bool
  stopAt : Option Nat
  module : BitVec 11
  mode : Fin 3
  clockLevel : Nat
  ppm : Int
  down : List DieDown
  -- bring-up
  secretLocked : Bool
  minSvn : BitVec 32
  staging : List Staging
  verified : List Verified
  hello : Option Nat
  host : Option Nat
  session : Bool
  caller : Option Nat
  mute : Bool
  aborts : List Aborting
  droppedFrames : Nat
  keyDraws : Nat
  -- contexts and scheduling
  contexts : List Context
  queues : List Queue
  launches : List Launch
  ages : List Age
  pointers : List Nat
  held : List (Option Held)
  -- cores
  corePointers : List (CoreId × Nat)
  workgroups : List Workgroup
  pontils : List Pontil
  arrivals : List Pontil
  -- engines
  ops : List EngineOp
  ends : List EngineEnd
  groups : List Group
  -- memory
  mem : List Host.Cell
  hist : List WriteRec
  nextWrite : Nat
  scFences : List ScFence
  pointSeen : List PointSeen
  full : List Nat
  fullRels : List (Nat × Rel)
  poison : List Nat
  tlb : List TlbEntry
  invalidated : List Invalidated
  entryCache : List CachedEntry
  dirtyLines : List DirtyLine
  hostView : MemView
  roots : List Nat
  mcbs : List (Option Nat)
  pageCounts : List PageCount
  moveLogs : List MoveLog
  moves : List MoveReq
  windowEnds : List Nat
  minors : List LineCount
  majors : List RegionCount
  reencrypting : List (Nat × Nat)
  reencrypted : List (Nat × Nat)
  tree : List TreeCount
  -- saved espalier stores, by save number (R288)
  espVault : List (Nat × List EspRegion)
  -- links and the host
  ports : List Port
  peers : List PeerEntry
  outbox : List Message
  linkOut : List LinkReply
  sources : List Source
  pending : List EventRec
  sent : List Sent
  faults : List FaultRec
  -- watching
  watches : List Watch
  traceHeld : List TraceHeld
  counters : List Counter
  corrected : List Counter
  deriving DecidableEq, Repr

/-- A port that is down. -/
def portDown (k : PortKind) (n : Nat) : Port := ⟨k, n, 0, 0⟩

/-- Ports of the module: 32 UALink, 4 CXL, 8 Ultra Ethernet, all down but Ultra Ethernet port 0 (R312). -/
def resetPorts : List Port :=
  (List.range 32).map (portDown .ualink) ++ (List.range 4).map (portDown .cxl) ++
  [⟨.ethernet, 0, 2, 0⟩] ++ (List.range 7).map (fun n => portDown .ethernet (n + 1))

def watchOf (die : Nat) : Watch := ⟨die, none, none, none, none, 0, 0, 0⟩

/-- The machine right after reset: powered up in minimal mode (R312), with nothing loaded, no context, memory with
nothing listed. Values the spec does not give are named in log 5. -/
def State.reset : State :=
  { agenda := [], arrived := [], issue := [], choice := 0, uids := 1
    now := 0, ahead := List.replicate 6 false
    power := .minimal, stopped := false, stopAt := none, module := 0, mode := 0, clockLevel := 0
    ppm := 0, down := []
    secretLocked := false, minSvn := Config.minSvn, staging := [], verified := [], hello := none, host := none, session := false
    caller := none, mute := false, aborts := [], droppedFrames := 0, keyDraws := 0
    contexts := [], queues := [], launches := [], ages := [], pointers := List.replicate 4 0
    held := List.replicate 4 none
    corePointers := [], workgroups := [], pontils := [], arrivals := []
    ops := [], ends := [], groups := []
    mem := [], hist := [], nextWrite := 1, scFences := [], pointSeen := [], full := [], fullRels := [], poison := [], tlb := []
    invalidated := []
    entryCache := [], dirtyLines := [], hostView := .empty
    roots := List.replicate 6 0, mcbs := List.replicate 6 none, pageCounts := [], moveLogs := [], moves := []
    windowEnds := List.replicate 4 (2 ^ 20)
    minors := [], majors := [], reencrypting := [], reencrypted := [], tree := []
    espVault := []
    ports := resetPorts, peers := [], outbox := [], linkOut := [], sources := [], pending := [], sent := [], faults := []
    watches := (List.range 6).map watchOf, traceHeld := [], counters := [], corrected := [] }

end Machine
end Sys2Proof
end

