-- ==== Sys2Proof/Machine/Memory.lean ====
section
/-! DEFINITION. Bytes of memory, writes in coherence order, and what an agent may read (R75 to R89; DESIGN CHOICE, log 3). -/

namespace Sys2Proof
namespace Machine

/-! ## Free choices and list updates -/

/-- A free choice below `n` (DESIGN CHOICE, log 7); no choice is drawn when there is only one. -/
def State.pick (s : State) (n : Nat) : Nat × State :=
  if n ≤ 1 then (0, s) else (Config.free s.choice % n, { s with choice := s.choice + 1 })

/-- Replace the first element that satisfies `p`. -/
def replaceFirst {α : Type} (p : α → Bool) (v : α) : List α → List α
  | [] => []
  | x :: xs => if p x then v :: xs else x :: replaceFirst p v xs

/-- Replace the first element that satisfies `p`, or append. -/
def upsert {α : Type} (p : α → Bool) (v : α) : List α → List α
  | [] => [v]
  | x :: xs => if p x then v :: xs else x :: upsert p v xs

/-- Remove the first element that satisfies `p`. -/
def removeFirst {α : Type} (p : α → Bool) : List α → List α
  | [] => []
  | x :: xs => if p x then xs else x :: removeFirst p xs

/-! ## Bytes -/

/-- What a byte that nothing has written reads as (log 4; R321 for the far tier). -/
def unlisted : Byte := 0

/-- The byte at a physical location. -/
def memGet : List Host.Cell → Nat → Byte
  | [], _ => unlisted
  | (a, b) :: rest, loc => if a = loc then b else if loc < a then unlisted else memGet rest loc

/-- Write a byte, keeping the canonical form: addresses rising, no entry that reads as an unlisted one. -/
def memPut : List Host.Cell → Nat → Byte → List Host.Cell
  | [], loc, v => if v = unlisted then [] else [(loc, v)]
  | (a, b) :: rest, loc, v =>
    if a < loc then (a, b) :: memPut rest loc v
    else if a = loc then (if v = unlisted then rest else (a, v) :: rest)
    else (if v = unlisted then (a, b) :: rest else (loc, v) :: (a, b) :: rest)

/-- Addresses of the list lie above `lo`, rise, and no entry is an unlisted byte. -/
def memWfFrom : Nat → List Host.Cell → Bool
  | _, [] => true
  | lo, (a, b) :: rest => decide (lo ≤ a) && b != unlisted && memWfFrom (a + 1) rest

/-- The canonical form of memory. -/
def memWf (m : List Host.Cell) : Bool := memWfFrom 0 m

/-- The latest byte in coherence order. -/
def State.peek (s : State) (loc : Nat) : Byte := memGet s.mem loc

/-- `n` bytes from a location, as a number, least significant first. -/
def State.peekNat (s : State) (loc n : Nat) : Nat := ofBytes ((List.range n).map (fun i => s.peek (loc + i)))

/-! ## Places -/

/-- Physical locations: a space in the bits from 52 up, a byte below. -/
def hbmLoc (die ofs : Nat) : Nat := die * 2 ^ 52 + ofs
def sramLoc (die ofs : Nat) : Nat := (4 + die) * 2 ^ 52 + ofs
def lpddrLoc (ofs : Nat) : Nat := 8 * 2 ^ 52 + ofs
def cxlLoc (port ofs : Nat) : Nat := (9 + port) * 2 ^ 52 + ofs
def locSpace (loc : Nat) : Nat := loc / 2 ^ 52
def locOfs (loc : Nat) : Nat := loc % 2 ^ 52
def isSram (loc : Nat) : Bool := decide (4 ≤ locSpace loc ∧ locSpace loc < 8)
def isFar (loc : Nat) : Bool := decide (8 ≤ locSpace loc)

/-- A byte of a die's own memory by its physical address there: HBM4E of a near-tier die, LPDDR-6 of a far-tier die,
whose frames follow those of far-tier die 0 (Table 18.2). -/
def ownLoc (die ofs : Nat) : Nat := if die < 4 then hbmLoc die ofs else lpddrLoc ((die - 4) * 2 ^ 40 + ofs)

/-! ## Scopes (R12, R82) -/

def Actor.die? : Actor → Option Nat
  | .thread c _ _ _ => some c.die.val
  | .pontil p => some p.die.val
  | .copy c => some c.die.val
  | .gather d | .transducer d | .collective d | .dispatcher d => some d.val
  | _ => none

def Actor.cluster? : Actor → Option (Nat × Nat)
  | .thread c _ _ _ => some (c.die.val, c.cluster.val)
  | .pontil p => some (p.die.val, p.cluster.val)
  | .copy c => some (c.die.val, c.cluster.val)
  | _ => none

/-- Near-tier dies of a device in a mode (Table 1.4). -/
def diesPerDevice (mode : Fin 3) : Nat := match mode with | 0 => 4 | 1 => 2 | _ => 1
def deviceCount (mode : Fin 3) : Nat := match mode with | 0 => 1 | 1 => 2 | _ => 4
def deviceOf (mode : Fin 3) (die : Nat) : Nat := die / diesPerDevice mode
def queuesPerDevice (mode : Fin 3) : Nat := match mode with | 0 => 64 | 1 => 32 | _ => 16
def firstDie (mode : Fin 3) (device : Nat) : Nat := device * diesPerDevice mode

/-- Two names of one agent: a thread is its place in its workgroup, on whatever core that runs (R82). -/
def Actor.same (a b : Actor) : Bool :=
  match a, b with
  | .thread _ u _ t, .thread _ v _ x => u == v && t == x
  | _, _ => a == b

/-- B is within scope `sc` of A (Table 1.3). -/
def within (mode : Fin 3) (sc : Scope) (a b : Actor) : Bool :=
  match sc with
  | .system => true
  | .device => match a.die?, b.die? with
    | some x, some y => deviceOf mode x == deviceOf mode y
    | _, _ => a.same b
  | .die => match a.die?, b.die? with
    | some x, some y => x == y
    | _, _ => a.same b
  | .cluster => match a.cluster?, b.cluster? with
    | some x, some y => x == y
    | _, _ => a.same b
  | .workgroup => match a, b with
    | .thread _ u _ _, .thread _ v _ _ => u == v
    | _, _ => a.same b
  | .warp => match a, b with
    | .thread _ u w _, .thread _ v x _ => u == v && w == x
    | _, _ => a.same b
  | .thread => a.same b

/-- The point of a scope (R88): where an atomic of it is performed, on an RC page or in a page of no other rule. -/
def scopePoint (agent : Actor) (sc : Scope) : Point :=
  match agent with
  | .thread core _ _ _ => match sc with
    | .thread | .warp | .workgroup => .l1 core
    | .cluster | .die => .dieCache core.die
    | .device | .system => .home
  | .pontil p => match sc with
    | .device | .system => .home
    | _ => .dieCache p.die
  | _ => .home

/-- Scope inclusion (R82). -/
def included (mode : Fin 3) (sa : Scope) (a : Actor) (sb : Scope) (b : Actor) : Bool :=
  within mode sa a b && within mode sb b a

/-! ## Records and views -/

/-- The write has a byte among these locations. -/
def WriteRec.touches (r : WriteRec) (locs : List Nat) : Bool := r.cells.any (fun c => locs.contains c.loc)

/-- The byte a write left at a location, where it has one. -/
def WriteRec.byte? (r : WriteRec) (loc : Nat) : Option Byte := (r.cells.find? (fun c => c.loc == loc)).map (·.new)

/-- Two writes have a byte among these locations in common. -/
def WriteRec.meets (r x : WriteRec) (locs : List Nat) : Bool := r.cells.any (fun c => locs.contains c.loc && x.touches [c.loc])

/-- A number under which a write is known (R78). -/
def WriteRec.named (r : WriteRec) (id : Nat) : Bool := r.id == id || r.was.contains id

def State.record? (s : State) (id : Nat) : Option WriteRec := s.hist.find? (fun r => r.named id)

/-- The latest write of a byte. -/
def State.lastRecord? (s : State) (loc : Nat) : Option WriteRec := s.hist.find? (fun r => r.touches [loc])

def floorGet : List (Nat × Nat) → Nat → Nat
  | [], _ => 0
  | (l, k) :: rest, loc => if l = loc then k else floorGet rest loc

def floorSet : List (Nat × Nat) → Nat → Nat → List (Nat × Nat)
  | [], loc, k => [(loc, k)]
  | (l, j) :: rest, loc, k => if l = loc then (l, max j k) :: rest else (l, j) :: floorSet rest loc k

/-- The pointwise maximum of two floors. -/
def floorJoin (a b : List (Nat × Nat)) : List (Nat × Nat) := b.foldl (fun f p => floorSet f p.1 p.2) a

/-- A floor that forces a write of these bytes. -/
def floorRaise (f : List (Nat × Nat)) (bytes : List (Nat × Byte)) (id : Nat) : List (Nat × Nat) :=
  bytes.foldl (fun f p => floorSet f p.1 id) f

/-- Elements of two lists, each of the second once. -/
def unionOf {α : Type} [BEq α] (a b : List α) : List α := a ++ b.filter (fun x => !a.contains x)

/-- Two agents are on different dies; migration engines are on the far-tier dies. -/
def Actor.apart (a b : Actor) : Bool :=
  match a.die?, b.die? with
  | some x, some y => x != y
  | some _, none => b == .migration
  | none, some _ => a == .migration
  | none, none => false

/-- Take the releases that scope inclusion lets `agent` acquire at `sc`; a release from another die comes 40 ticks or more
after it was made (R282). -/
def acquireRels (s : State) (agent : Actor) (sc : Scope) (rels : List Rel) (v : MemView) : State × MemView :=
  rels.foldl (fun (p : State × MemView) r =>
    if included p.1.mode sc agent r.scope r.agent then
      ({ p.1 with now := if agent.apart r.agent then max p.1.now (r.tick + 40) else p.1.now },
       { p.2 with floor := floorJoin p.2.floor r.floor, uo := unionOf p.2.uo r.uo })
    else p) (s, v)

/-- The ordering of a read: every later acquire fence takes the releases read, at its own scope (R152), and an acquire takes
them itself (R83). -/
def takeRels (s : State) (agent : Actor) (sc : Scope) (acq : Bool) (rels : List Rel) (v : MemView) : State × MemView :=
  let v := { v with seen := unionOf v.seen rels }
  if acq then acquireRels s agent sc rels v else (s, v)

/-- A write to a UO page that its writer has released at some scope (R78). -/
def State.released (s : State) (id : Nat) : Bool :=
  match s.record? id with
  | some r => match r.loose with
    | some l => !l.scopes.isEmpty
    | none => true
  | none => false

/-- A release by `agent` (R83): it carries what happens before it, and not what its agent has only read (R85). -/
def relOf (s : State) (agent : Actor) (sc : Scope) (v : MemView) : Rel := ⟨sc, agent, v.floor, v.uo.filter s.released, s.now, false⟩

/-! ## Writes -/

/-- How a write is made: by whom, at which point, whether as an indivisible step there, the releases it carries or
continues, and the release it is itself. -/
structure Writer where
  agent : Actor
  point : Option Point
  step : Bool
  rels : List Rel
  release : Option Rel
  deriving DecidableEq, Repr

/-- A plain write that carries no release. -/
def Writer.plain (agent : Actor) : Writer := ⟨agent, none, false, [], none⟩

/-- The cells of a write of bytes. -/
def cellsOf (s : State) (bytes : List (Nat × Byte)) : List WrCell := bytes.map (fun p => ⟨p.1, p.2, s.peek p.1⟩)

/-- Where a write is performed: its own point; the home slice or bank of an SO page and of die SRAM (R76, R81); for a release store
to an RC page the point of its scope, where read-modify-writes continue its sequence (R84; DEDUCED, log 3). -/
def pointFor (w : Writer) (kind : Option PageKind) : Option Point :=
  match w.point, kind with
  | some p, _ => some p
  | none, some .so | none, some .sram => some .home
  | none, some .rc => w.release.map (fun r => scopePoint w.agent r.scope)
  | none, _ => none

/-- The record of a write. A release makes the write it is visible with it. -/
def writeRecOf (s : State) (w : Writer) (kind : Option PageKind) (bytes : List (Nat × Byte)) : WriteRec :=
  { id := s.nextWrite, was := [], agent := w.agent, point := pointFor w kind, step := w.step, kind, late := false
    cells := cellsOf s bytes
    rels := w.rels ++ (w.release.map (fun r => { r with floor := floorRaise r.floor bytes s.nextWrite })).toList
    loose := if kind = some .uo then some ⟨[], false⟩ else none }

/-- A write takes its place at the end of the coherence order of its bytes; its agent sees it. -/
def commit (s : State) (w : Writer) (kind : Option PageKind) (bytes : List (Nat × Byte)) (v : MemView) : State × MemView :=
  if bytes.isEmpty then (s, v)
  else
    ({ s with
        mem := bytes.foldl (fun m p => memPut m p.1 p.2) s.mem
        hist := writeRecOf s w kind bytes :: s.hist
        nextWrite := s.nextWrite + 1 },
     if kind = some .uo then { v with uo := v.uo ++ [s.nextWrite] }
     else { v with floor := floorRaise v.floor bytes s.nextWrite })

/-! ## Stores to UO pages (R78) -/

/-- Take a write out of the coherence order of its bytes: the next one follows what it followed. -/
def dropRec (s : State) (r : WriteRec) : State :=
  r.cells.foldl (fun s c =>
    match s.hist.reverse.find? (fun x => decide (r.id < x.id) && x.touches [c.loc]) with
    | some y => { s with hist := s.hist.map (fun x => if x.id = y.id then
        { x with cells := x.cells.map (fun d => if d.loc = c.loc then { d with old := c.old } else d) } else x) }
    | none => { s with mem := memPut s.mem c.loc c.old })
    { s with hist := s.hist.filter (fun x => x.id != r.id) }

/-- Put a write at the end of coherence order under a new number; those who knew it keep knowing it. -/
def toEnd (s : State) (r : WriteRec) : State :=
  let s := dropRec s r
  let bytes := r.cells.map (fun c => (c.loc, c.new))
  { s with
      mem := bytes.foldl (fun m p => memPut m p.1 p.2) s.mem
      hist := { r with id := s.nextWrite, was := r.id :: r.was, cells := cellsOf s bytes } :: s.hist
      nextWrite := s.nextWrite + 1 }

/-- The agent's own writes to UO pages among those it knows, oldest first. -/
def ownLoose (s : State) (agent : Actor) (ids : List Nat) : List WriteRec :=
  s.hist.reverse.filter (fun r => ids.any r.named && r.loose.isSome && r.agent.same agent)

/-- The first release of writes to UO pages settles their places in coherence order: each keeps the one it has, or comes
after every write made so far, by free choice; two of one byte keep their order. The numbers after. -/
def placeLoose : List WriteRec → List WriteRec → State → List Nat → State × List Nat
  | [], _, s, ids => (s, ids)
  | r :: rest, moved, s, ids =>
    if (r.loose.getD ⟨[], true⟩).placed then placeLoose rest moved s ids
    else
      let must := moved.any (fun m => m.meets r (r.cells.map (·.loc)))
      let k := if must then (1, s) else s.pick 2
      if k.1 = 0 then placeLoose rest moved k.2 ids
      else placeLoose rest (r :: moved) (toEnd k.2 r) (ids.map (fun i => if i = r.id then k.2.nextWrite else i))

/-- Mark writes to UO pages as released at a scope. -/
def markReleased (s : State) (agent : Actor) (sc : Scope) (ids : List Nat) : State :=
  { s with hist := s.hist.map (fun r => match r.loose with
      | some l => if ids.any r.named && r.agent.same agent then { r with loose := some ⟨unionOf l.scopes [sc], true⟩ } else r
      | none => r) }

/-- A release fence or an engine start by `agent` at `sc`: its stores to UO pages are ordered from then on, for the agents
within that scope, as on RC pages (R78). -/
def releaseUo (s : State) (agent : Actor) (sc : Scope) (v : MemView) : State × MemView :=
  if v.uo.isEmpty then (s, v)
  else
    let p := placeLoose (ownLoose s agent v.uo) [] s v.uo
    let s := markReleased p.1 agent sc p.2
    if sc = .system then
      (let mine := ownLoose s agent p.2
       (s, { v with
              floor := mine.foldl (fun f r => r.cells.foldl (fun f c => floorSet f c.loc r.id) f) v.floor
              uo := p.2.filter (fun i => !(mine.any (fun r => r.named i))) }))
    else (s, { v with uo := p.2 })

/-- Every write is performed: no write to a UO page changes its place from now on, and no part of one to an SO page is late (R255,
R260). -/
def settleLoose (s : State) : State :=
  { s with hist := s.hist.map (fun r => { r with late := false, loose := r.loose.map (fun l => { l with placed := true }) }) }

/-! ## Parts of accesses to SO pages (R75, R79) -/

/-- Several parts written to SO pages from write number `n` on are accesses of their own: another agent may see some of them first.
`lone` is a single part that another access of its agent may miss too (R213). -/
def lateParts (s : State) (n : Nat) (lone : Bool) : State :=
  let mine := fun (r : WriteRec) => decide (n ≤ r.id) && r.kind == some .so
  if lone || decide (1 < (s.hist.filter mine).length) then
    { s with hist := s.hist.map (fun r => if mine r then { r with late := true } else r) }
  else s

/-- The writes that satisfy `p` are performed: every later SO access sees them. -/
def performParts (s : State) (p : WriteRec → Bool) : State :=
  if s.hist.any (fun r => r.late && p r) then
    { s with hist := s.hist.map (fun r => if p r then { r with late := false } else r) }
  else s

/-- A thread reaches an SO page: what it wrote to SO pages before comes before (R76). -/
def ownParts (s : State) (agent : Actor) : State :=
  match agent with
  | .thread _ _ _ _ => performParts s (fun r => r.agent.same agent)
  | _ => s

/-! ## Page table entries (Table 18.2, R254) -/

/-- Bytes of the own memory of a die: HBM4E of a near-tier die, half the LPDDR-6 of a far-tier die (R1, R13, R16, R310). -/
def ownBytes (die : Nat) : Nat := if die < 4 then 192 * 10 ^ 9 else 2 ^ 40

/-- The frame of a leaf lies within the memory that TIER, HOLD and PORT name; an expander's size is not given. A frame beyond is no
frame, and its leaf is invalid (DEDUCED, log 16). -/
def frameFits (bits e : Nat) : Bool :=
  let last := natField e 16 36 * 65536 + 2 ^ bits
  match natField e 4 2 with
  | 0 => decide (last ≤ ownBytes 0)
  | 1 => decide (last ≤ 2 * ownBytes 4)
  | _ => true

/-- A valid leaf of a home die at a level (`bits` is log2 of its page): R254. -/
def leafValid (mode : Fin 3) (die : Nat) (bits : Nat) (e : Nat) : Bool :=
  let tier := natField e 4 2
  let hold := natField e 6 2
  natField e 0 2 == 2 && natField e 2 2 != 3 && tier != 3 && (tier == 0 || hold == 0) &&
  (tier == 2 || natField e 8 2 == 0) && natField e 11 5 == 0 && natField e 52 12 == 0 &&
  natField e 16 (bits - 16) == 0 && frameFits bits e &&
  (tier != 0 || (decide (die < 4) && deviceOf mode die == deviceOf mode hold))

/-- A valid table entry. -/
def tableValid (e : Nat) : Bool := natField e 0 2 == 1 && natField e 2 6 == 0 && natField e 52 12 == 0

/-- The location a leaf gives to an offset. -/
def leafLoc (leaf bits ofs : Nat) : Nat :=
  let byte := natField leaf 16 36 * 65536 + ofs % 2 ^ bits
  match natField leaf 4 2 with
  | 0 => hbmLoc (natField leaf 6 2) byte
  | 1 => lpddrLoc byte
  | _ => cxlLoc (natField leaf 8 2) byte

def leafKind (leaf : Nat) : PageKind :=
  match natField leaf 2 2 with
  | 0 => .rc
  | 1 => .so
  | _ => .uo

/-- An entry of a table at a physical byte address of a die's own memory; beyond that memory there is none. -/
def tableEntry (s : State) (die addr : Nat) : Nat := if addr + 8 ≤ ownBytes die then s.peekNat (ownLoc die addr) 8 else 0

/-- The addresses of the entries of a table of `n` that hold a byte other than zero. -/
def listedEntries (s : State) (die addr n : Nat) : List Nat :=
  s.mem.foldl (fun acc c =>
    if ownLoc die addr ≤ c.1 ∧ c.1 < ownLoc die addr + 8 * n then
      (let a := addr + (c.1 - ownLoc die addr) / 8 * 8
       if acc.head? = some a then acc else a :: acc)
    else acc) []

/-- Some leaf of a die's tables satisfies `p`, which is given its page's log2. -/
def someLeaf (s : State) (die : Nat) (p : Nat → Nat → Bool) : Bool :=
  let below := fun (e : Nat) => natField e 8 44 * 256
  (listedEntries s die (s.roots.getD die 0) (2 ^ 20)).any (fun a1 =>
    let e1 := tableEntry s die a1
    if leafValid s.mode die 30 e1 then p e1 30
    else tableValid e1 && (listedEntries s die (below e1) 512).any (fun a2 =>
      let e2 := tableEntry s die a2
      if leafValid s.mode die 21 e2 then p e2 21
      else tableValid e2 && (listedEntries s die (below e2) 32).any (fun a3 =>
        let e3 := tableEntry s die a3
        leafValid s.mode die 16 e3 && p e3 16)))

/-- A leaf maps a location through a page of another kind than `kind`. -/
def mapsOther (kind : PageKind) (loc leaf bits : Nat) : Bool :=
  decide (leafLoc leaf bits 0 ≤ loc ∧ loc < leafLoc leaf bits 0 + 2 ^ bits) && leafKind leaf != kind

/-! ## Reads -/

/-- How much of the coherence order a read must see: everything (the host, engines at a bank), or what its view forces, and on an SO
page every write but late parts (R76); `fetch` is a fetch of an instruction word, which no rule orders (R114); `apart` is one of
several parts of an access to SO pages, each of which comes anywhere after its agent's earlier SO accesses (R75, R79); `atPoint` is
the read of an indivisible step, which the steps made at that point bind (R88, R89). -/
inductive ReadMode where
  | latest
  | relaxed
  | fetch
  | apart
  | atPoint (p : Point)
  deriving DecidableEq, Repr

/-- Who reads, how, and through which kind of page. -/
structure ReadAs where
  agent : Actor
  mode : ReadMode
  kind : Option PageKind
  deriving DecidableEq, Repr

/-- The write has its place in the coherence order that binds the reader: every write but one to a UO page by another agent
that has not released it at a scope with the reader (R78). -/
def strictFor (mode : Fin 3) (reader : Actor) (r : WriteRec) : Bool :=
  match r.loose with
  | none => true
  | some l => r.agent.same reader || l.scopes.any (fun sc => within mode sc r.agent reader)

/-- A read must see the write, or one later at each of its bytes, for what its agent has seen or for where it is made. -/
def mustSee (s : State) (a : ReadAs) (v : MemView) (locs : List Nat) (r : WriteRec) : Bool :=
  (match a.mode with
   | .latest => true
   | .relaxed | .fetch => false
   | .apart => decide (r.id < v.so)
   | .atPoint p => (r.step && r.point == some p) ||
      s.pointSeen.any (fun x => x.point == p && locs.contains x.loc && r.touches [x.loc] && decide (r.id ≤ x.id))) ||
  v.uo.any r.named ||
  r.cells.any (fun c => locs.contains c.loc && decide (r.id ≤ floorGet v.floor c.loc ∨ r.id ≤ floorGet v.reads c.loc))

/-- Of the writes that a read could see, newest first, those it sees: all that it must, and on an SO page or for a fetch every one that is
not late. -/
def forced (s : State) (a : ReadAs) (v : MemView) (locs : List Nat) (r : WriteRec) : Bool :=
  mustSee s a v locs r || a.mode == .fetch || (a.kind == some .so && (a.mode == .relaxed || a.mode == .apart) && !r.late)

/-- The step before at this point, by a member of the same gang, has not found the write (R149). -/
def passedOver (s : State) (a : ReadAs) (locs : List Nat) (r : WriteRec) : Bool :=
  match a.mode with
  | .atPoint p => s.pointSeen.any (fun x => x.point == p && locs.contains x.loc && x.past.contains r.id)
  | _ => false

/-- The writes that a read could see: for a fetch, and for a part of an access to SO pages, those up to some moment, so that what it
gives is what the bytes held then (R76, R114). -/
def seeable (s : State) (a : ReadAs) (v : MemView) (locs : List Nat) (rs : List WriteRec) : List WriteRec × State :=
  match a.mode with
  | .fetch | .apart =>
    let k := s.pick (rs.findIdx (mustSee s a v locs) + 1)
    (rs.drop k.1, k.2)
  | _ => (rs, s)

/-- The writes that one access sees, newest first; `top` are writes to UO pages seen outside coherence order. -/
structure Sight where
  top : List WriteRec
  sel : List WriteRec
  s : State

/-- One write, newest first, is seen or not: a forced one is; one of whose bytes a later write is seen is, so that no write
is seen torn (R75); another by free choice. -/
def sightOf (a : ReadAs) (v : MemView) (locs : List Nat) (g : Sight) (r : WriteRec) : Sight :=
  if strictFor g.s.mode a.agent r || a.mode == .fetch then
    if forced g.s a v locs r || g.sel.any (fun x => strictFor g.s.mode a.agent x && r.meets x locs) then
      { g with sel := g.sel ++ [r] }
    else if passedOver g.s a locs r then g
    else
      let k := g.s.pick 2
      if k.1 = 0 then { g with s := k.2 } else { g with sel := g.sel ++ [r], s := k.2 }
  else
    let k := g.s.pick 3
    match k.1 with
    | 0 => { g with s := k.2 }
    | 1 => { g with sel := g.sel ++ [r], s := k.2 }
    | _ => { g with top := g.top ++ [r], s := k.2 }

/-- The write that a byte is read from. -/
def Sight.source? (g : Sight) (loc : Nat) : Option WriteRec := (g.top ++ g.sel).find? (fun r => r.touches [loc])

/-- The byte before every recorded write of it. -/
def initialByte (s : State) (loc : Nat) : Byte :=
  match s.hist.reverse.find? (fun r => r.touches [loc]) with
  | some r => match r.cells.find? (fun c => c.loc == loc) with
    | some c => c.old
    | none => s.peek loc
  | none => s.peek loc

def Sight.byte (g : Sight) (loc : Nat) : Byte :=
  match g.source? loc with
  | some r => (r.byte? loc).getD (g.s.peek loc)
  | none => initialByte g.s loc

/-- A written byte is mapped through a page of another kind than the reader's too, by a translation in use or by the tables: it has no
coherence order (R80). Die control reaches memory through no page (DEDUCED, log 3). -/
def mixedAt (s : State) (kind : Option PageKind) (loc : Nat) : Bool :=
  match kind with
  | none | some .sram => false
  | some k => s.hist.any (fun r => r.touches [loc]) &&
    (s.tlb.any (fun t => mapsOther k loc t.leaf.toNat t.bits) || (List.range 6).any (fun die => someLeaf s die (mapsOther k loc)))

/-- One write of bytes that have no coherence order is not seen, or stands anywhere among those seen: each byte is its initial value or any
value written, and no write is torn (R75, R80). -/
def strewn (g : Sight) (r : WriteRec) : Sight :=
  let k := g.s.pick (g.top.length + 2)
  if k.1 = 0 then { g with s := k.2 } else { g with top := g.top.take (k.1 - 1) ++ r :: g.top.drop (k.1 - 1), s := k.2 }

/-- The writes that one access sees. A fetch gives what its word held at some moment, whatever its mappings (R114). -/
def sightFor (s : State) (a : ReadAs) (v : MemView) (locs : List Nat) : Sight :=
  let rs := s.hist.filter (fun r => r.touches locs)
  if a.mode ≠ .fetch ∧ locs.any (mixedAt s a.kind) then rs.foldl strewn ⟨[], [], s⟩
  else
    let c := seeable s a v locs rs
    c.1.foldl (sightOf a v locs) ⟨[], [], c.2⟩

/-- What the steps at a point have found in a byte, after one that has found `id`; `past` as in PointSeen. -/
def pointRaise (ps : List PointSeen) (p : Point) (loc id : Nat) (past : List Nat) : List PointSeen :=
  let mine := fun (x : PointSeen) => x.point == p && x.loc == loc
  let old := match ps.find? mine with
    | some x => x.id
    | none => 0
  upsert mine ⟨p, loc, max old id, past⟩ ps

/-- A step at a point that has written nothing leaves to the next member of its gang what it has found: `v` is its view after. -/
def passOver (s : State) (p : Point) (v : MemView) (locs : List Nat) : State :=
  locs.foldl (fun s l =>
    match (s.hist.filter (fun r => r.touches [l] && decide (floorGet v.reads l < r.id))).map (·.id) with
    | [] => s
    | past => { s with pointSeen := pointRaise s.pointSeen p l 0 past }) s

/-- The end of a gang's atomics: what its members passed over binds no later step (R149). -/
def State.endGang (s : State) : State :=
  if s.pointSeen.all (fun x => x.past.isEmpty) then s
  else { s with pointSeen := s.pointSeen.map (fun x => { x with past := [] }) }

/-- Read bytes in one indivisible access: the bytes, the releases of the writes read, and the view after. -/
def readCut (s : State) (a : ReadAs) (v : MemView) (locs : List Nat) : List Byte × List Rel × State × MemView :=
  let g := sightFor s a v locs
  let rels := (locs.filterMap g.source?).foldl (fun acc r => unionOf acc r.rels) []
  let strict := locs.filterMap (fun l => match g.source? l with
    | some r => if strictFor s.mode a.agent r && !(g.top.contains r) then some (l, r.id) else none
    | none => none)
  let z : State := { g.s with pointSeen := match a.mode with
    | .atPoint p => strict.foldl (fun ps x => pointRaise ps p x.1 x.2 []) g.s.pointSeen
    | _ => g.s.pointSeen }
  (locs.map g.byte, rels,
    if a.kind = some .so ∧ a.mode ≠ .fetch then performParts z (fun r => g.sel.any (fun x => x.id == r.id)) else z,
    { v with
      reads := strict.foldl (fun f x => floorSet f x.1 x.2) v.reads
      so := match a.kind, s.hist with
        | some .so, r :: _ => r.id + 1
        | _, _ => v.so })

/-- The releases that a read-modify-write at point `p` continues (R84): `v` is the view after its read, and the latest write
of a byte, made at that point, must have been read. A fence that the write only carries begins no sequence. -/
def inherited (s : State) (p : Point) (v : MemView) (locs : List Nat) : List Rel :=
  ((locs.filterMap (fun l => match s.lastRecord? l with
    | some r => if r.point == some p && decide (r.id ≤ floorGet v.reads l) then some r else none
    | none => none)).foldl (fun acc r => unionOf acc r.rels) []).filter (fun r => !r.fence)

/-- The latest bytes, with no view (table walks, control blocks, fetch of entries). -/
def State.peekBytes (s : State) (loc n : Nat) : List Byte := (List.range n).map (fun i => s.peek (loc + i))

/-- The releases that a step of die control at the home slice of a byte continues (R84). -/
def homeRels (s : State) (loc : Nat) : List Rel :=
  match s.lastRecord? loc with
  | some r => if r.point == some .home then r.rels.filter (fun r => !r.fence) else []
  | none => []

/-! ## Ticks -/

/-- The reading of a die's copy of the global tick (R282, R283). -/
def State.tickOf (s : State) (die : Nat) : Nat := s.now + bitOf (s.ahead.getD die false)

/-- The clocks are gated: the package is stopped, or the tick of an armed stop has ended (R294). -/
def State.gated (s : State) : Bool := s.stopped || s.stopAt.any (fun t => decide (t < s.now))

/-! ## Counters (Table 20.10) -/

def State.count (s : State) (die num n : Nat) : State :=
  let mine := fun (c : Counter) => c.die == die && c.num == num
  let old := match s.counters.find? mine with
    | some c => c.value
    | none => 0
  { s with counters := upsert mine ⟨die, num, old + n⟩ s.counters }

/-! ## Event records (R276) -/

/-- The key of a source: UNIT, KIND and DIE of Table 19.3. -/
def sourceKey (unit kind die : Nat) : Nat := unit + 65536 * kind + 1048576 * die

/-- Records of a source that the host has not acknowledged. -/
def State.undelivered (s : State) (src : Nat) : Nat :=
  (s.pending.filter (fun r => r.src == src)).length +
  (s.sent.map (fun m => (m.recs.filter (fun r => r.src == src)).length)).foldl (· + ·) 0

/-- Record an event at a source, or drop it when the source holds 16 undelivered ones. (DESIGN CHOICE, log 49) -/
def State.emit (s : State) (unit kind die code ctx wgh detail : Nat) : State :=
  let src := sourceKey unit kind die
  let mine := fun (x : Source) => x.src == src
  let x := match s.sources.find? mine with
    | some x => x
    | none => ⟨src, 0, 0⟩
  if 16 ≤ s.undelivered src then
    { s with sources := upsert mine { x with dropped := min (x.dropped + 1) 65535 } s.sources }
  else
    { s with
        sources := upsert mine ⟨src, (x.seq + 1) % 2 ^ 32, 0⟩ s.sources
        pending := s.pending ++ [⟨src, x.seq, x.dropped, s.tickOf die, ctx, code, detail, wgh⟩] }

/-! ## Replies (R300 to R302) -/

/-- Events go to the host, or before START to the bring-up peer. -/
def State.destination (s : State) : Option Nat :=
  match s.power with
  | .running => s.host
  | _ => s.hello

/-- A reply goes to the host, or before START to the bring-up peer; before the first HELLO to whoever has asked (R312). -/
def State.answersTo (s : State) : Option Nat :=
  match s.power with
  | .running => s.host
  | _ => match s.hello with
    | some p => some p
    | none => s.caller

/-- Send a reply, whatever has happened to the session since its command. -/
def State.send (s : State) (op : Nat) (tag : Tag) (status : Nat) (payload : List Byte) (ctx : Nat := 0) : State :=
  match s.answersTo with
  | none => s
  | some dest => { s with outbox := s.outbox ++ [⟨dest, op, true, tag, ctx, status, payload⟩] }

/-- Send the reply to the command that is being performed, unless a later OPEN has ended its session (R300). -/
def State.reply (s : State) (op : Nat) (tag : Tag) (status : Nat) (payload : List Byte) (ctx : Nat := 0) : State :=
  if s.mute then s else s.send op tag status payload ctx

end Machine
end Sys2Proof
end

