-- ==== Sys2Proof/Machine/Access.lean ====
section
/-! DEFINITION. From a binding and an element to bytes: buffer table entries (R257 to R259), the access check (R72, R73),
translation at the home die (R251 to R254), and the reading and writing of elements (R49, R66, R67, R75 to R81). -/

namespace Sys2Proof
namespace Machine

/-! ## Domain virtual addresses (Table 18.1, R252) -/

def vaModule (va : Nat) : Nat := va / 2 ^ 53 % 2 ^ 11
def vaDie (va : Nat) : Nat := va / 2 ^ 50 % 8
def vaOfs (va : Nat) : Nat := va % 2 ^ 50

/-- The first offset of the SRAM window of a near-tier die. -/
def windowBase : Nat := 0x3FFFFF0000000

/-- An address of this module. -/
def State.va (s : State) (die ofs : Nat) : Nat := s.module.toNat * 2 ^ 53 + die * 2 ^ 50 + ofs

/-! ## Buffer table entries -/

def boundOf (e : Nat) : Bound :=
  { base := natField e 0 64, len := natField e 64 51, r := e.testBit 128, w := e.testBit 129, a := e.testBit 130
    x := e.testBit 131, board := e.testBit 133, slots := natField e 134 9, mxk := natField e 152 3
    comp := natField e 155 2, smask := natField e 192 64, sshift := natField e 256 6, gen := natField e 160 32
    owner := natField e 144 6, off := 0 }

/-- The element definition of an ALIAS code (Tables 18.3, 4.13). -/
def mxDef (k : Nat) : FDef :=
  let base : FDef := ⟨6, 1, 0, 0, 0, 0, 0, 0, true, 1, 0⟩
  match k with
  | 1 => { base with ew := 4, mw := 3, bias := 7, nan := 2 }
  | 2 => { base with ew := 5, mw := 2, bias := 15, inf := 1, nan := 1 }
  | 3 => { base with ew := 2, mw := 3, bias := 1 }
  | 4 => { base with ew := 3, mw := 2, bias := 3 }
  | 5 => { base with ew := 2, mw := 1, bias := 1 }
  | _ => { base with mw := 7, frac := 6 }

/-- Bytes of an MX block. -/
def mxBlockBytes (k : Nat) : Nat := (8 + 32 * (mxDef k).w) / 8

/-- The bytes a buffer occupies from its base: for an alias, its blocks (R258). -/
def Bound.backing (b : Bound) : Nat := if b.mxk = 0 then b.len else b.len / 64 * mxBlockBytes b.mxk

def inWindow (va : Nat) : Bool := decide (vaDie va < 4) && decide (windowBase ≤ vaOfs va)

/-- R258: the entry is usable. -/
def entryUsable (e : Nat) : Bool :=
  let b := boundOf e
  let last := b.base + b.len - 1
  let window0 := decide (vaDie b.base < 4 ∧ windowBase ≤ vaOfs b.base ∧ vaOfs last < windowBase + Config.sramBytes)
  let outside := !(inWindow b.base) && !(inWindow last)
  let u := b.smask / 2 ^ b.sshift
  e.testBit 132 && natField e 115 13 == 0 && natField e 143 1 == 0 && natField e 150 2 == 0 &&
  natField e 262 250 == 0 && decide (1 ≤ b.len ∧ b.len ≤ 2 ^ 50) &&
  (if b.board then decide (1 ≤ b.slots ∧ b.slots ≤ 256) else b.slots == 0) &&
  b.mxk != 7 && decide (b.comp ≤ 1) && decide (natField e 157 3 ≤ 1) &&
  decide (b.base / 2 ^ 50 = last / 2 ^ 50) && (window0 || outside) &&
  (!b.board || (b.r && b.a && !b.w && !b.x && b.len == 16 + 16 * b.slots && b.mxk == 0 &&
    b.comp == 0 && b.smask == 0)) &&
  (b.mxk == 0 || (b.len % 64 == 0 && b.smask == 0 && b.comp == 0 && !(inWindow b.base))) &&
  (b.smask == 0 || (u &&& b.smask == 0 && u % 16 == 0 && b.len % 2 ^ (log2 b.smask + 1) == 0))

/-- swz (R178). -/
def Bound.swz (b : Bound) (o : Nat) : Nat := o ^^^ ((o &&& b.smask) >>> b.sshift)

/-! ## Translation -/

/-- Where a byte is: a physical location with its kind, or in another module. -/
inductive Place where
  | here (loc : Nat) (kind : PageKind)
  | away (module : Nat) (va : Nat)
  deriving DecidableEq, Repr

/-- The walk of R254 at a home die, where `entry` gives the entry at an address of its memory that stands for pages of a size (log2):
the leaf, log2 of its page, and the location of its entry. -/
def walkBy (s : State) (entry : Nat → Nat → Nat) (die ofs : Nat) : Option (Nat × Nat × Nat) :=
  let a1 := s.roots.getD die 0 + 8 * (ofs / 2 ^ 30)
  let e1 := entry a1 30
  if leafValid s.mode die 30 e1 then some (e1, 30, ownLoc die a1)
  else if !(tableValid e1) then none
  else
    let a2 := natField e1 8 44 * 256 + 8 * (ofs / 2 ^ 21 % 512)
    let e2 := entry a2 21
    if leafValid s.mode die 21 e2 then some (e2, 21, ownLoc die a2)
    else if !(tableValid e2) then none
    else
      let a3 := natField e2 8 44 * 256 + 8 * (ofs / 2 ^ 16 % 32)
      let e3 := entry a3 16
      if leafValid s.mode die 16 e3 then some (e3, 16, ownLoc die a3) else none

/-- The walk of the tables as they stand. -/
def walk (s : State) (die ofs : Nat) : Option (Nat × Nat × Nat) := walkBy s (fun a _ => tableEntry s die a) die ofs

/-- The number of the first write after the latest tlbinv that covers an offset of a die's page of a size, or 0 (R255, R256). -/
def coveredFrom (s : State) (die ofs bits : Nat) : Nat :=
  (s.invalidated.filter (fun x => x.die == die && (match x.ofs with
    | some o => o / 2 ^ bits == ofs / 2 ^ bits
    | none => true))).foldl (fun n x => max n x.from') 0

/-- The byte of an entry that is in effect: a write by a thread, which is system software's, is not before a tlbinv that covers it
(R256); the tables that the host and the migration engine write are in effect at once (DEDUCED, log 15). -/
def byteInEffect (s : State) (n loc : Nat) : Byte :=
  let early := fun (r : WriteRec) => match r.agent with
    | .thread _ _ _ _ => decide (r.id < n)
    | _ => true
  match s.hist.find? (fun r => r.touches [loc] && early r) with
  | some r => (r.byte? loc).getD (s.peek loc)
  | none => initialByte s loc

/-- The walk of the tables that are in effect. -/
def walkInEffect (s : State) (die ofs : Nat) : Option (Nat × Nat × Nat) :=
  if s.hist.isEmpty then walk s die ofs
  else walkBy s (fun a bits =>
    if a + 8 ≤ ownBytes die then
      ofBytes ((List.range 8).map (fun i => byteInEffect s (coveredFrom s die ofs bits) (ownLoc die a + i)))
    else 0) die ofs

def TlbEntry.covers (t : TlbEntry) (die ofs : Nat) : Bool := t.die == die && t.page == ofs / 2 ^ t.bits

/-- Translate one paged address at its home die: by the translation that it has kept, until a tlbinv drops it, and otherwise by a walk
(R255, R256). -/
def translatePaged (s : State) (ctx die ofs : Nat) : Except Code (Place × State) :=
  match s.tlb.find? (fun t => t.covers die ofs) with
  | some t => .ok (.here (leafLoc t.leaf.toNat t.bits ofs) (leafKind t.leaf.toNat), s)
  | none => match walkInEffect s die ofs with
    | none => .error .leaseLost
    | some (leaf, bits, _) =>
      let t : TlbEntry := ⟨die, ofs / 2 ^ bits, bits, BitVec.ofNat 64 leaf, ctx⟩
      .ok (.here (leafLoc leaf bits ofs) (leafKind leaf), { s with tlb := t :: s.tlb })

/-- Translate a domain virtual address. -/
def translate (s : State) (ctx va : Nat) : Except Code (Place × State) :=
  if vaModule va ≠ s.module.toNat then .ok (.away (vaModule va) va, s)
  else
    let die := vaDie va
    let ofs := vaOfs va
    if 6 ≤ die then .error .leaseLost
    else if inWindow va then
      if ofs < windowBase + Config.sramBytes then .ok (.here (sramLoc die (ofs - windowBase)) .sram, s)
      else .error .leaseLost
    else translatePaged s ctx die ofs

/-- The place one byte further on, in the same 64 KiB page. -/
def Place.succ : Place → Place
  | .here l k => .here (l + 1) k
  | .away m v => .away m (v + 1)

/-- Places of `n` bytes from `va`; `prev` is the place of the byte before, when it lies in the same page. -/
def placesFrom (s : State) (ctx : Nat) : Nat → Nat → Option Place → Except Code (List Place × State)
  | _, 0, _ => .ok ([], s)
  | va, n + 1, prev =>
    let here : Except Code (Place × State) := match prev with
      | some p => if va % 65536 = 0 then translate s ctx va else .ok (p.succ, s)
      | none => translate s ctx va
    match here with
    | .error c => .error c
    | .ok (p, s') => match placesFrom s' ctx (va + 1) n (some p) with
      | .error c => .error c
      | .ok (ps, s'') => .ok (p :: ps, s'')

def places (s : State) (ctx va n : Nat) : Except Code (List Place × State) := placesFrom s ctx va n none

/-- log2 of the page that holds a paged address, by the translation in use (R255). -/
def pageBits (s : State) (die ofs : Nat) : Nat :=
  match s.tlb.find? (fun t => t.covers die ofs) with
  | some t => t.bits
  | none => match walkInEffect s die ofs with
    | some x => x.2.1
    | none => 16

/-- A page begins at a domain address. -/
def pageStart (s : State) (va : Nat) : Bool :=
  va % 65536 == 0 && !(inWindow va) && vaOfs va % 2 ^ pageBits s (vaDie va) (vaOfs va) == 0

/-- Cut a list whose first element stands at `va` before the addresses that `cut` names. `acc` is the part under way, last
element first. -/
def cutAt {α : Type} (cut : Nat → Bool) : Nat → List α → List α → List (List α)
  | _, [], acc => if acc.isEmpty then [] else [acc.reverse]
  | va, x :: xs, acc =>
    if cut (va + 1) then (x :: acc).reverse :: cutAt cut (va + 1) xs []
    else cutAt cut (va + 1) xs (x :: acc)

/-- Cut a list at multiples of 8: each aligned 8-byte word is one access (R75). -/
def cutWords {α : Type} (va : Nat) (xs acc : List α) : List (List α) := cutAt (fun a => a % 8 == 0) va xs acc

/-- The parts of an access at `va`: one per page when it is one access, and otherwise its bytes (R75, R79). -/
def partsOf {α : Type} (s : State) (va : Nat) (whole : Bool) (xs : List α) : List (List α) :=
  cutAt (fun a => !whole || pageStart s a) va xs []

def Place.isUo : Place → Bool
  | .here _ .uo => true
  | _ => false

def Place.isSram : Place → Bool
  | .here _ .sram => true
  | _ => false

def Place.away? : Place → Option Nat
  | .away m _ => some m
  | _ => none

def Place.loc? : Place → Option Nat
  | .here l _ => some l
  | _ => none

def Place.kind? : Place → Option PageKind
  | .here _ k => some k
  | _ => none

/-- Whether a place is on a UO page, on an SO page, in another module. -/
def anyUo (ps : List Place) : Bool := ps.any Place.isUo
def anySo (ps : List Place) : Bool := ps.any (fun p => p.kind? == some .so)
def anyAway (ps : List Place) : Bool := ps.any (fun p => p.away?.isSome)

/-! ## Counters of far-tier lines (R320 to R322) -/

/-- The region of 2 MiB of a far-tier location: its memory and number. -/
def regionOf (loc : Nat) : Nat × Nat := (locSpace loc, locOfs loc / 2 ^ 21)

def maxMinor : Nat := 2 ^ 28 - 1

def minorOf (s : State) (loc : Nat) : Nat :=
  match s.minors.find? (fun c => c.line == loc / 64) with
  | some c => c.minor
  | none => 0

/-- The far-tier die that owns a region's memory: LPDDR-6 by halves of 1 TiB, CXL ports two a die (R310). -/
def farDieOf (r : Nat × Nat) : Nat := if r.1 = 8 then 4 + r.2 / 2 ^ 19 else 4 + (r.1 - 9) / 2

/-- Re-encrypt a region: its major counter rises, and every line ever written takes minor 1 (R322). -/
def reencrypt (s : State) (r : Nat × Nat) : State :=
  let mine := fun (c : RegionCount) => c.memory == r.1 && c.region == r.2
  let major := match s.majors.find? mine with
    | some c => c.major
    | none => 0
  { s.count (farDieOf r) 15 1 with
      majors := upsert mine ⟨r.1, r.2, (major + 1) % 2 ^ 64⟩ s.majors
      minors := s.minors.map (fun c => if regionOf (64 * c.line) = r then { c with minor := 1 } else c)
      reencrypting := s.reencrypting.filter (fun x => x != r) }

/-- A region is re-encrypted before a write that reaches its frame; where that ends one under way, the writes that wait for it go on
(R322). -/
def reencryptNow (s : State) (r : Nat × Nat) : State :=
  let z := reencrypt s r
  if s.reencrypting.contains r then { z with reencrypted := r :: z.reencrypted } else z

/-- Levels of the counter tree over 2^30 counter lines, the far-tier memory of one die (R321). (DESIGN CHOICE, log 33) -/
def treeLevels : Nat := 10

def maxNode : Nat := 2 ^ 56 - 1

/-- The number of a location's counter line: sixteen lines of 64 bytes (R321). -/
def counterLine (loc : Nat) : Nat := locOfs loc / 1024

/-- Regions of a memory that a node of a level covers. -/
def regionsBelow (memory level node : Nat) : List (Nat × Nat) :=
  let lo := node * 8 ^ level * 1024 / 2 ^ 21
  let hi := ((node + 1) * 8 ^ level * 1024 - 1) / 2 ^ 21
  (List.range (hi + 1 - lo)).map (fun k => (memory, lo + k))

/-- A counter of a node lies in the subtree of `node` at `level`. -/
def inSubtree (memory level node : Nat) (c : TreeCount) : Bool :=
  c.memory == memory && decide (c.level ≤ level) && c.child / 8 ^ (level + 1 - c.level) == node

/-- The counter of a location's child at a level of the tree. -/
def TreeCount.isOf (loc level : Nat) (c : TreeCount) : Bool :=
  c.memory == locSpace loc && c.level == level && c.child == counterLine loc / 8 ^ (level - 1)

def nodeCount (s : State) (loc level : Nat) : Nat :=
  match s.tree.find? (TreeCount.isOf loc level) with
  | some c => c.value
  | none => 0

/-- A counter of the path at its maximum re-encrypts every region below its node and resets the counters of the node's
subtree, before the write that would raise it (R322). -/
def resetNode (s : State) (loc level : Nat) : State :=
  if nodeCount s loc level = maxNode then
    let node := counterLine loc / 8 ^ level
    let s := (regionsBelow (locSpace loc) level node).foldl reencryptNow s
    { s with tree := s.tree.filter (fun c => !(inSubtree (locSpace loc) level node c)) }
  else s

/-- The counter of a location's child at a level of the tree rises. -/
def bumpNode (s : State) (loc level : Nat) : State :=
  let c : TreeCount := ⟨locSpace loc, level, counterLine loc / 8 ^ (level - 1), nodeCount s loc level + 1⟩
  { s with tree := upsert (TreeCount.isOf loc level) c s.tree }

/-- A far-tier line is written: its minor counter and the counters on its path of the tree rise (R321), once its region is not
under re-encryption (R322). -/
def bumpLine (s : State) (loc : Nat) : State :=
  if isFar loc then
    let s := (List.range treeLevels).foldl (fun s k => resetNode s loc (k + 1)) s
    let s := if s.reencrypting.contains (regionOf loc) ∨ minorOf s loc = maxMinor then reencryptNow s (regionOf loc) else s
    let s := { s with minors := upsert (fun c => c.line == loc / 64) ⟨loc / 64, minorOf s loc + 1⟩ s.minors }
    (List.range treeLevels).foldl (fun s k => bumpNode s loc (k + 1)) s
  else s

/-- The lines of locations, each once. -/
def linesOf (locs : List Nat) : List Nat :=
  locs.foldl (fun acc l => if acc.contains (l / 64 * 64) then acc else l / 64 * 64 :: acc) []

/-- A write by die control (control blocks, free lists, leaves, dirty bits). -/
def writeBytes (s : State) (w : Writer) (loc : Nat) (bs : List Byte) : State :=
  let cells := (List.range bs.length).zip bs |>.map (fun p => (loc + p.1, p.2))
  (linesOf (cells.map (·.1))).foldl bumpLine (commit s w none cells .empty).1

def pokeBytes (s : State) (agent : Actor) (loc : Nat) (bs : List Byte) : State := writeBytes s (.plain agent) loc bs

def pokeNat (s : State) (agent : Actor) (loc n x : Nat) : State := pokeBytes s agent loc (bytesOf x n)

/-- A step of die control at the home slice of a location: it continues the release sequence it finds (R84). -/
def homeWriter (s : State) (loc : Nat) : Writer := ⟨.migration, some .home, true, homeRels s loc, none⟩

/-- An atomic OR of bits into a byte at its home slice, by the home die. -/
def orByte (s : State) (loc x : Nat) : State :=
  writeBytes s (homeWriter s loc) loc [BitVec.ofNat 8 ((s.peek loc).toNat ||| x)]

/-- An access waits for what stands already: its frame is behind a CXL port that is not up (R310), or it writes a region under
re-encryption (R322). -/
def frameHeld (s : State) (write : Bool) (locs : List Nat) : Bool :=
  locs.any (fun l => decide (9 ≤ locSpace l) &&
      !(s.ports.any (fun q => q.kind == .cxl && q.num + 9 == locSpace l && q.state == 2))) ||
    (write && locs.any (fun l => isFar l && s.reencrypting.contains (regionOf l)))

/-- An access that has to wait: `frameHeld`, or it writes a line whose minor counter is at its maximum, which starts the
re-encryption of its region (R322). -/
def blocked (s : State) (write : Bool) (ps : List Place) : Option State :=
  let locs := ps.filterMap Place.loc?
  if frameHeld s write locs then some s
  else if !write then none
  else match locs.filter (fun l => isFar l && minorOf s l == maxMinor) with
    | [] => none
    | l :: _ => some { s with reencrypting := regionOf l :: s.reencrypting }

/-! ## Demand counts and poison -/

/-- The latest bytes of places; what lies in another module is not read. -/
def latestBytes (s : State) (ps : List Place) : List Byte :=
  ps.map (fun p => match p.loc? with
    | some l => s.peek l
    | none => 0)

/-- The bytes of the side entry's SETTLED field that hold a page's bit, and the bit (Table 18.5). -/
def settledAt (s : State) (va : Nat) : Option (Nat × Nat) :=
  match s.mcbs.getD (vaDie va) none with
  | none => none
  | some cb =>
    let page := vaOfs va / 65536 % 32
    match translate s 0 (s.peekNat (ownLoc (vaDie va) cb + 32) 8 + 128 * (vaOfs va / 2 ^ 21) + 64 + page / 8) with
    | .ok (.here loc _, _) => some (loc, page % 8)
    | _ => none

/-- The page of an address is settled (R268). -/
def isSettled (s : State) (va : Nat) : Bool :=
  match settledAt s va with
  | some (loc, k) => (s.peek loc).getLsbD k
  | none => false

/-- The home die of an address counts its page's demand (R267). -/
def countsPage (s : State) (va : Nat) : Bool :=
  decide (vaDie va < 4 ∧ vaModule va = s.module.toNat) && !(inWindow va) && (s.mcbs.getD (vaDie va) none).isSome

/-- One more request of a die to the page of an address. -/
def countPage (s : State) (va k : Nat) : State :=
  let page := va / 65536 * 65536
  let mine := fun (c : PageCount) => c.page == page && c.die == k
  let old : PageCount := match s.pageCounts.find? mine with
    | some c => c
    | none => ⟨page, k, 0, 0⟩
  { s with pageCounts := upsert mine { old with count := old.count + 1 } s.pageCounts }

/-- Pages touched, for the counts of R267: one request of `die` to the page of `va`; a request to a settled page is
counted at the requesting die (R268). -/
def notePage (s : State) (die : Option Nat) (va : Nat) : State :=
  match die with
  | none => s
  | some k =>
    if countsPage s va then
      countPage (if isSettled s va then s.count k 1309 1 else s) va k
    else s

/-- Poisoned lines (R279): some byte read lies in one. -/
def anyPoison (s : State) (ps : List Place) : Bool :=
  !s.poison.isEmpty && ps.any (fun p => match p with
    | .here l _ => s.poison.contains (l / 64)
    | _ => false)

/-! ## Bindings -/

/-- Who reaches memory through bindings: the agent, its context, the launch block, and for b63 the position of the
thread's slice (none for a pontil, R170). -/
structure Binder where
  agent : Actor
  ctx : Nat
  block : Nat
  slice : Option Nat
  deriving DecidableEq, Repr

/-- The unit that caches entries: a core, or a pontil context (R259). -/
def cacheHolder : Actor → Actor
  | .thread c _ _ _ => .thread c 0 0 0
  | a => a

def State.context? (s : State) (c : Nat) : Option Context := s.contexts.find? (fun x => x.id.val == c)

/-- Read entry `i` of a context's buffer table as `holder` sees it: the copy it has cached, which a bfinv alone drops (R259, R260), or
what memory holds. What a table in another module holds is a free value (DESIGN CHOICE, log 16); a poisoned line raises its code
(R279). -/
def readEntry (s : State) (holder : Actor) (c : Nat) (i : Nat) : Except Code (Nat × State) :=
  match s.context? c with
  | none => .error .bindEmpty
  | some cx =>
    if cx.btlen ≤ i then .error .bindEmpty
    else
      let mine := fun (x : CachedEntry) => x.holder == holder && x.ctx == c && x.index == i
      match s.entryCache.find? mine with
      | some o => .ok (o.bits, s)
      | none => match places s c (cx.btbase.toNat + 64 * i) 64 with
        | .error e => .error e
        | .ok (ps, s) =>
          if anyPoison s ps then .error .memPoison
          else
            let k := if anyAway ps then s.pick (2 ^ 512) else (ofBytes (latestBytes s ps), s)
            .ok (k.1, notePage { k.2 with entryCache := ⟨holder, c, i, k.1⟩ :: k.2.entryCache } holder.die?
              (cx.btbase.toNat + 64 * i))

/-- Fields of a launch block (Table 17.2). -/
def blkEntry (b : Nat) : Nat := natField b 0 32
def blkCode (b : Nat) : Nat := natField b 32 16
def blkStack (b : Nat) : Nat := natField b 48 16
def blkSlen (b : Nat) : Nat := natField b 64 32
def blkNdep (b : Nat) : Nat := natField b 96 4
def blkFeclr (b : Nat) : Bool := b.testBit 100
def blkBnd (b n : Nat) : Nat := natField b (512 + 32 * n) 32
def blkFmt (b j : Nat) : Word := BitVec.ofNat 64 (natField b (2560 + 64 * j) 64)
def blkDep (b d : Nat) : Nat := natField b (3584 + 64 * d) 64

/-- The entry a binding names, whoever owns it. -/
def entryOf (s : State) (bd : Binder) (b : Nat) : Except Code (Bound × State) :=
  let index : Option Nat :=
    if b = 62 then some (blkCode bd.block)
    else if b = 63 then (if blkSlen bd.block = 0 ∨ bd.slice.isNone then none else some (blkStack bd.block))
    else if (blkBnd bd.block b).testBit 16 then some (natField (blkBnd bd.block b) 0 16) else none
  match index with
  | none => .error .bindEmpty
  | some i => match readEntry s (cacheHolder bd.agent) bd.ctx i with
    | .error c => .error c
    | .ok (e, s) => if entryUsable e then .ok (boundOf e, s) else .error .bindEmpty

/-- A thread's slice of entry STACK: of an alias, its bytes of the alias range (R73, R234). -/
def sliceOf (d : Bound) (bd : Binder) : Bound :=
  let o := bd.slice.getD 0
  { d with
      base := if d.mxk = 0 then d.base + o else d.base, off := if d.mxk = 0 then 0 else o
      len := blkSlen bd.block, r := true, w := true, a := false, x := false, board := false, slots := 0 }

/-- The part of an entry that a binding grants (R72, R73). -/
def grantedBy (bd : Binder) (b : Nat) (d : Bound) : Except Code Bound :=
  if d.owner ≠ bd.ctx then .error .owner
  else if b = 62 then .ok { d with r := true, w := false, a := false, x := true }
  else if b = 63 then .ok (sliceOf d bd)
  else .ok d

/-- The entry a binding names, and the part of it that the binding grants (R72, R73, R234). -/
def bindingEntry (s : State) (bd : Binder) (b : Nat) : Except Code (Bound × State) :=
  match entryOf s bd b with
  | .error c => .error c
  | .ok (d, s) => match grantedBy bd b d with
    | .error c => .error c
    | .ok d => .ok (d, s)

/-- The entry a binding names for elements of f0: f0 is not bfloat16, so an alias raises SLOT_KIND, before the rest of R72 (R66). -/
def plainEntry (s : State) (bd : Binder) (b : Nat) : Except Code (Bound × State) :=
  match entryOf s bd b with
  | .error c => .error c
  | .ok (d, s) =>
    if d.mxk ≠ 0 then .error .slotKind
    else match grantedBy bd b d with
      | .error c => .error c
      | .ok d => .ok (d, s)

/-- The rights an access needs. -/
structure Rights where
  r : Bool := false
  w : Bool := false
  a : Bool := false
  deriving DecidableEq, Repr

def Bound.grants (d : Bound) (n : Rights) : Bool := (!n.r || d.r) && (!n.w || d.w) && (!n.a || d.a)

/-- The bounds and rights of R72 over bits `lo` to `lo + n - 1`. -/
def checkSpan (d : Bound) (lo : Int) (n : Nat) (need : Rights) : Except Code Unit :=
  if lo < 0 ∨ 8 * (d.len : Int) < lo + n then .error .bounds
  else if !(d.grants need) then .error .rights
  else .ok ()

/-- check_access (R72): the buffer of an element. -/
def checkAccess (s : State) (bd : Binder) (b : Nat) (e : Int) (w n : Nat) (need : Rights) :
    Except Code (Bound × State) :=
  match bindingEntry s bd b with
  | .error c => .error c
  | .ok (d, s) => match checkSpan d (e * w) (n * w) need with
    | .error c => .error c
    | .ok _ => .ok (d, s)

/-! ## Elements -/

/-- The byte span of bits `lo` to `lo + w - 1` of a buffer, from its base. For an alias the whole block (R67). -/
def Bound.span (d : Bound) (lo w : Nat) : Nat × Nat :=
  if d.mxk = 0 then (d.base + lo / 8, (lo + w - 1) / 8 - lo / 8 + 1)
  else (d.base + (lo + 8 * d.off) / 512 * mxBlockBytes d.mxk, mxBlockBytes d.mxk)

/-- The element of its MX block that begins at bit `lo` of an alias. -/
def Bound.lane (d : Bound) (lo : Nat) : Nat := (lo + 8 * d.off) / 16 % 32

/-- Whether bits `lo` to `lo + w - 1` lie in one aligned 8-byte word (R75); an alias block is one access. -/
def oneWord (d : Bound) (lo w : Nat) : Bool := d.mxk != 0 || lo / 64 == (lo + w - 1) / 64

/-- Free bytes. -/
def freeBytes (s : State) (n : Nat) : List Byte × State :=
  (List.range n).foldl (fun (acc : List Byte × State) _ =>
    (acc.1 ++ [BitVec.ofNat 8 (acc.2.pick 256).1], (acc.2.pick 256).2)) ([], s)

/-- The kind of the page of a part. -/
def kindOf (ps : List Place) : Option PageKind := ps.findSome? Place.kind?

/-- How a part is read. A step on an SO page finds the latest (R76); a fetch returns any value since the launch was accepted on any
kind of page (R114; DEDUCED, log 3); only on SO pages do the parts of an access need a moment each. -/
def partMode (mode : ReadMode) (kind : Option PageKind) : ReadMode :=
  match kind, mode with
  | some .so, .atPoint _ => .latest
  | some .so, m => m
  | _, .apart => .relaxed
  | _, m => m

/-- Read a part in one indivisible access; bytes of another module are free values (DESIGN CHOICE, log 16). -/
def readPart (s : State) (agent : Actor) (v : MemView) (mode : ReadMode) (ps : List Place) :
    List Byte × List Rel × State × MemView :=
  if anyAway ps then ((freeBytes s ps.length).1, [], (freeBytes s ps.length).2, v)
  else
    let k := kindOf ps
    readCut (if k = some .so ∧ mode ≠ .fetch then ownParts s agent else s) ⟨agent, partMode mode k, k⟩ v (ps.filterMap Place.loc?)

/-- Read parts, one access each. -/
def readParts (s : State) (agent : Actor) (v : MemView) (mode : ReadMode) : List (List Place) →
    List Byte × List Rel × State × MemView
  | [] => ([], [], s, v)
  | ps :: rest =>
    let r := readPart s agent v mode ps
    let q := readParts r.2.2.1 agent r.2.2.2 mode rest
    (r.1 ++ q.1, r.2.1 ++ q.2.1, q.2.2.1, q.2.2.2)

/-- The bits of an element out of its bytes. -/
def elemBits (d : Bound) (lo w : Nat) (bs : List Byte) : Nat :=
  if d.mxk = 0 then natField (ofBytes bs) (lo % 8) w else aliasRead (mxDef d.mxk) (ofBytes bs) (d.lane lo)

/-- The bytes of an element with new bits, over the bytes that stand there. -/
def elemBytes (d : Bound) (lo w x : Nat) (old : List Byte) : List Byte :=
  let o := ofBytes old
  if d.mxk = 0 then
    let s := lo % 8
    bytesOf (o - natField o s w * 2 ^ s + x % 2 ^ w * 2 ^ s) old.length
  else bytesOf (aliasWrite (mxDef d.mxk) o (d.lane lo) x) old.length

/-- mem_read (Table 2.7): the bits of an element, the releases read. -/
def readElem (s : State) (bd : Binder) (v : MemView) (mode : ReadMode) (d : Bound) (lo w : Nat) :
    Except Code (Nat × List Rel × State × MemView) :=
  let (va, n) := d.span lo w
  match places s bd.ctx va n with
  | .error c => .error c
  | .ok (ps, s) =>
    let s := notePage s bd.agent.die? va
    let parts := partsOf s va (oneWord d lo w) ps
    let m := if mode = .relaxed ∧ 1 < parts.length then .apart else mode
    let (bs, rels, s, v) := readParts s bd.agent v m parts
    .ok (elemBits d lo w bs, rels, s, v)

/-- A dirty bit whose side entry's page is not mapped is lost: SIDE_MISS rises, and die control of the home die sends an
event, whose code and DETAIL the manual does not give (DESIGN CHOICE, log 26). -/
def loseDirty (s : State) (die mcb : Nat) : State :=
  let s := pokeNat s .migration (mcb + 52) 4 ((s.peekNat (mcb + 52) 4 + 1) % 2 ^ 32)
  (s.pick (2 ^ 64)).2.emit 0 9 die 0 0 0 (s.pick (2 ^ 64)).1

/-- Set the dirty bit of the block of `va` at its home die (R263, R264), counting a bit lost in SIDE_MISS. -/
def setDirty (s : State) (va : Nat) : State :=
  let die := vaDie va
  match s.mcbs.getD die none with
  | none => s
  | some cb =>
    let mcb := ownLoc die cb
    let side := s.peekNat (mcb + 32) 8
    let at' := side + 128 * (vaOfs va / 2 ^ 21)
    let bit := vaOfs va / 4096 % 512
    if side ≤ va ∧ va < side + 128 * 2 ^ 29 then s      -- writes to the side table set no bits
    else match translate s 0 (at' + bit / 8) with
    | .ok (.here loc _, s) =>
      orByte s loc (2 ^ (bit % 8))
    | _ => loseDirty s die mcb

/-- A modified line reaches its frame: its counters rise (R321), and the dirty bit of its block is set (R264). -/
def reachFrame (s : State) (va : Nat) (loc : Option Nat) : State :=
  setDirty (match loc with
    | some l => bumpLine s l
    | none => s) va

/-- The near-tier die whose slice of the die cache serves an address. -/
def heldAt (va : Nat) : Option Nat := if vaDie va < 4 then some (vaDie va) else none

/-- The die cache that certainly holds a line once it has been written: that of its home die, for a write performed at the home
slice or made on that die. -/
def heldBy (w : Writer) (va : Nat) : Option Nat :=
  if w.point = some .home ∨ w.agent.die? = some (vaDie va) then heldAt va else none

/-- A line is modified in a cache. -/
def addDirty (ls : List DirtyLine) (l : Nat) (cache : Option Nat) : List DirtyLine :=
  match ls.find? (fun x => x.line == l) with
  | some x => upsert (fun x => x.line == l) ⟨l, x.cache.or cache⟩ ls
  | none => ⟨l, cache⟩ :: ls

/-- A line has been modified: it reaches its frame at once with eviction priority 3, for an engine and for an alias, and
otherwise when it is written back (R264). -/
def noteStore (s : State) (cache : Option Nat) (through : Bool) (va : Nat) (loc : Option Nat) : State :=
  if inWindow va ∨ vaModule va ≠ s.module.toNat ∨ ((s.mcbs.getD (vaDie va) none).isNone ∧ !(loc.any isFar)) then s
  else
    let (k, s) := if through then (0, s) else s.pick 2
    if k = 0 then reachFrame s va loc
    else { s with dirtyLines := addDirty s.dirtyLines (va / 64) cache }

/-- The first address of each line of bytes from `va`, with the place of the byte there. -/
def linesAt : Nat → List Place → List (Nat × Place)
  | _, [] => []
  | va, p :: ps =>
    let rest := linesAt (va + 1) ps
    (va, p) :: rest.filter (fun x => x.1 / 64 != va / 64)

/-- How a store reaches its frame (R264): when its line is written back; at once for eviction priority 3, a hint that SO pages ignore
(R74); at once for an engine and for an alias, whatever the page. -/
inductive Reach where
  | back | hint | now
  deriving DecidableEq, Repr

/-- The reach of a store by its hint. -/
def reachOf (evict3 : Bool) : Reach := if evict3 then .hint else .back

/-- A line at a place is written through. -/
def Reach.through (r : Reach) (p : Place) : Bool := r == .now || (r == .hint && p.kind? != some .so)

/-- Every line of a store has been modified. -/
def noteStores (s : State) (cache : Option Nat) (r : Reach) (va : Nat) (ps : List Place) : State :=
  (linesAt va ps).foldl (fun s x => noteStore s cache (r.through x.2) x.1 x.2.loc?) s

/-- The pages of a span, for the demand counts (R267): one request to each line. -/
def noteLines (s : State) (agent : Actor) (va : Nat) (ps : List Place) : State :=
  (linesAt va ps).foldl (fun s x => notePage s agent.die? x.1) s

/-- A write-back counts as caused by the die whose cache held the line, or by each that may have (R267; DESIGN CHOICE, log 7). -/
def countWriteBack (s : State) (x : DirtyLine) : State :=
  if countsPage s (64 * x.line) then
    (match x.cache with
    | some k => [k]
    | none => List.range 4).foldl (fun s k => countPage s (64 * x.line) k) s
  else s

/-- Write back a line that a cache holds. -/
def writeBackLine (s : State) (l : Nat) (loc : Option Nat) : State :=
  let s := (s.dirtyLines.filter (fun x => x.line == l)).foldl countWriteBack s
  reachFrame { s with dirtyLines := s.dirtyLines.filter (fun x => x.line != l) } (64 * l) loc

/-- Where a domain address is now. -/
def locationOf (s : State) (va : Nat) : Option Nat :=
  match translate s 0 va with
  | .ok (p, _) => p.loc?
  | .error _ => none

/-- Commit bytes at their places as one part. On an SO page it comes after its agent's earlier SO accesses (R76). -/
def writePart (s : State) (w : Writer) (v : MemView) (ps : List (Place × Byte)) : State × MemView :=
  let k := kindOf (ps.map (·.1))
  let r := commit s w k (ps.filterMap (fun p => p.1.loc?.map (fun l => (l, p.2)))) v
  (r.1, if k = some .so then { r.2 with so := r.1.nextWrite } else r.2)

/-- Write parts, one access each. -/
def writeParts (s : State) (w : Writer) (v : MemView) : List (List (Place × Byte)) → State × MemView
  | [] => (s, v)
  | ps :: rest =>
    let r := writePart s w v ps
    writeParts r.1 w r.2 rest

/-- Write bytes at the places of a span in parts, with what follows for its lines. -/
def storeBytes (s : State) (w : Writer) (v : MemView) (reach : Reach) (whole : Bool) (va : Nat) (ps : List Place) (bs : List Byte) :
    State × MemView :=
  let r := writeParts s w v (partsOf s va whole (ps.zip bs))
  (noteStores r.1 (heldBy w va) reach va ps, r.2)

/-- Write at places already found, each aligned word as one access, with what follows for the pages and lines. -/
def writeAt (s : State) (w : Writer) (v : MemView) (reach : Reach) (va : Nat) (ps : List Place) (bytes : List Byte) :
    State × MemView :=
  let r := writeParts (noteLines s w.agent va ps) w v (cutWords va (ps.zip bytes) [])
  (noteStores r.1 (heldBy w va) reach va ps, r.2)

/-- A store through an alias is a step at the home slice (R67). -/
def Writer.aliased (w : Writer) (d : Bound) : Writer := if d.mxk = 0 then w else { w with point := some .home, step := true }

/-- mem_write (Table 2.7). The bits beside the element keep the latest bytes of the buffer; a store through an alias is one
read-modify-write of its block at the home slice (R67). -/
def writeElem (s : State) (bd : Binder) (wr : Writer) (v : MemView) (reach : Reach) (d : Bound) (lo w x : Nat) :
    Except Code (State × MemView) :=
  let (va, n) := d.span lo w
  match places s bd.ctx va n with
  | .error c => .error c
  | .ok (ps, s) =>
    let s := notePage s bd.agent.die? va
    if d.mxk = 0 then .ok (storeBytes s wr v reach (oneWord d lo w) va ps (elemBytes d lo w x (latestBytes s ps)))
    else
      let r := readParts s bd.agent v (.atPoint .home) (partsOf s va true ps)
      .ok (storeBytes r.2.2.1 (wr.aliased d) r.2.2.2 .now true va ps (elemBytes d lo w x r.1))

/-! ## Paths to other modules (R269, R270, R306, R307) -/

def State.peer? (s : State) (m : Nat) : Option PeerEntry := s.peers.find? (fun p => p.module.toNat == m)

/-- Some port of a peer's path is up. -/
def State.pathUp (s : State) (p : PeerEntry) : Bool :=
  (List.range 32).any (fun k => p.ports.getLsbD k &&
    s.ports.any (fun q => q.kind == .ualink && q.num == k && q.state == 2))

/-- The modules that a span reaches, other than this one, without a peer entry raise BOUNDS at issue (R306). -/
def checkPeers (s : State) (d : Bound) : Except Code Unit :=
  let m := vaModule d.base
  if m = s.module.toNat ∨ (s.peer? m).isSome then .ok () else .error .bounds

/-- An address of another module needs a path (R306). -/
def pathKnown (s : State) (va : Nat) : Bool := vaModule va == s.module.toNat || (s.peer? (vaModule va)).isSome

/-- An address lies behind a path that is down, or on a die under reset: a request waits (R307, R280). -/
def addrWaits (s : State) (va : Nat) : Bool :=
  if vaModule va = s.module.toNat then s.down.any (fun x => x.die.val == vaDie va)
  else match s.peer? (vaModule va) with
    | some p => !(s.pathUp p)
    | none => false

/-- The buffer lies behind a path that is down, or on a die under reset. -/
def pathWaits (s : State) (d : Bound) : Bool := addrWaits s d.base

/-- The code with which the home die of another Q9 or Q7 may answer a request: its tables, poison and page kinds are not here, so
that which, if any, is a free choice (R269, R330; DESIGN CHOICE, log 16). -/
def farCode (s : State) (va : Nat) (ps : List Place) (read ordered : Bool) : Option Code × State :=
  if !(anyAway ps) then (none, s)
  else match s.peer? (vaModule va) with
    | none => (none, s)
    | some p =>
      if p.far ≠ 1 then (none, s)
      else
        let codes := [none, some Code.leaseLost] ++ (if read then [some .memPoison] else []) ++
          (if ordered && !(inWindow va) then [some .orderKind] else [])
        let k := s.pick codes.length
        (codes.getD k.1 none, k.2)

/-- Whether the home die of another Q9 or Q7, once it is reached, finds an object on a UO page: its page kinds are not here, so that this is a
free choice (R78, R269; DESIGN CHOICE, log 16). -/
def farUo (s : State) (va : Nat) (ps : List Place) : Bool × State :=
  if anyAway ps && !(inWindow va) && !(addrWaits s va) && (s.peer? (vaModule va)).any (fun p => p.far == 1) then
    ((s.pick 2).1 == 1, (s.pick 2).2)
  else (false, s)

/-- An access to a span of domain addresses waits: for a path, a die, a port or a region under re-encryption (R280, R307, R310,
R322). A write that needs a re-encryption does not wait here: that is done before its line reaches the frame. -/
def spanWaits (s : State) (write : Bool) (ctx va n : Nat) : Bool :=
  addrWaits s va || addrWaits s (va + n - 1) ||
    (match places s ctx va n with
    | .ok (ps, s) => frameHeld s write (ps.filterMap Place.loc?)
    | .error _ => false)

end Machine
end Sys2Proof
end

