-- ==== Sys2Proof/Machine/Operands.lean ====
section
/-! DEFINITION. Operands of thread instructions: which registers a word names, the rows of a kernel (R9), the windows of
fixed-latency results (R40, R41), operands from other lanes (R115), and the special registers (R15). -/

namespace Sys2Proof
namespace Machine

/-! ## What a word names -/

/-- The registers of a word: destinations, sources of the thread's own file, sources taken across lanes, and the
predicates and view masks. -/
structure Uses where
  dst : List VReg := []
  src : List VReg := []
  cross : List (VReg × Mods) := []
  pdst : List PReg := []
  psrc : List PReg := []
  vdst : List VmReg := []
  vsrc : List VmReg := []
  deriving DecidableEq, Repr

/-- Sources A and B (and C) under modifiers: the operand OPD names is taken across lanes. -/
def usesMods (d : VReg) (a : VReg) (b : Option VReg) (k : List VReg) (m : Mods) : Uses :=
  let bs := match b with
    | some b => [b]
    | none => []
  match m with
  | .source _ => { dst := [d], src := a :: bs ++ k }
  | .cross _ _ onB => if onB then { dst := [d], src := a :: k, cross := bs.map (fun x => (x, m)) }
      else { dst := [d], src := bs ++ k, cross := [(a, m)] }

/-- An offset register and a destination, or a source, of format M. -/
def usesLoad (d : VReg) (m : MemOp) : Uses := { dst := [d], src := [m.ofsReg] }
def usesStore (d : VReg) (m : MemOp) : Uses := { src := [d, m.ofsReg] }
def usesBoth (d : VReg) (m : MemOp) : Uses := { dst := [d], src := [d, m.ofsReg] }

/-- The operand kinds of Tables 6.8 to 6.15 and 16.4. (DEDUCED, log 47) -/
def uses : Instr → Uses
  | .iadd _ d a b m | .isub _ d a b m | .imul _ d a b m | .iand _ d a b m | .ior _ d a b m | .ixor _ d a b m
  | .iandn _ d a b m | .ishl _ d a b m | .irot _ d a b m => usesMods d a (some b) [] m
  | .imad _ d a b k m => usesMods d a (some b) [k] m
  | .imulh _ d a b _ | .ishr _ d a b _ | .ilim _ d a b _ => { dst := [d], src := [a, b] }
  | .icmp _ d a b _ => { pdst := [d], src := [a, b] }
  | .isel _ d a b p => { dst := [d], src := [a, b], psrc := [p] }
  | .ibit _ d a _ | .iun _ d a _ | .addk _ d a _ | .movhk _ d a _ => { dst := [d], src := [a] }
  | .bfx _ d a b k _ => { dst := [d], src := [a, b, k] }
  | .bfi _ d a b k => { dst := [d], src := [d, a, b, k] }
  | .adpc _ d _ | .movk _ d _ | .rdsr _ d _ | .getfmt _ d _ | .rdpr _ d _ => { dst := [d] }
  | .wrsr _ a | .setfmt _ a _ | .wrpr _ a | .tlbinvPg _ a | .stoptArm _ a => { src := [a] }
  | .fadd _ d a b _ _ m | .fsub _ d a b _ _ m | .fmul _ d a b _ _ m | .fdiv _ d a b _ _ m
  | .fscale _ d a b _ _ m => usesMods d a (some b) [] m
  | .ffma _ d a b k _ _ m => usesMods d a (some b) [k] m
  | .fsqrt _ d a _ _ m | .frcp _ d a _ _ m | .fexp2 _ d a _ _ m | .flog2 _ d a _ _ m | .fexp _ d a _ _ m
  | .flog _ d a _ _ m | .frsqrt _ d a _ _ m | .fsin _ d a _ _ m | .fcos _ d a _ _ m | .ftanh _ d a _ _ m
  | .ferf _ d a _ _ m => usesMods d a none [] m
  | .lmov _ d a m => usesMods d a none [] m
  | .flim _ d a b _ _ => { dst := [d], src := [a, b] }
  | .fcmp _ d a b _ _ => { pdst := [d], src := [a, b] }
  | .fclass _ d a _ | .frnd _ d a _ _ _ | .cvt _ d a _ _ _ => { dst := [d], src := [a] }
  | .fsgn _ d a _ t => { dst := [d], src := match t with
      | .abs | .neg => [a]
      | .cps b | .xsgn b => [a, b] }
  | .bpack _ d a _ _ | .bunpack _ d a _ => { dst := [d], cross := [(a, .source 0)] }
  | .vote _ d a _ => { pdst := [d], psrc := [a] }
  | .voteBallot _ d a => { dst := [d], psrc := [a] }
  | .perm _ d a b => { dst := [d], src := [b], cross := [(a, .source 0)] }
  | .rdind _ d a => { dst := [d], src := [a] }
  | .wrind _ d a => { src := [d, a] }
  | .plog _ d a t => { pdst := [d], psrc := match t with
      | .and b | .or b | .xor b | .andn b => [a, b]
      | .not | .mov => [a] }
  | .pmovToV _ d => { dst := [d], psrc := List.finRange 7 }
  | .pmovFromV _ a => { src := [a], pdst := List.finRange 7 }
  | .ld _ d m | .ldp _ d m | .ldfe _ d m | .ldfeClr _ d m => usesLoad d m
  | .st _ d m | .stp _ d m | .stfe _ d m | .binit _ d m | .barr _ d m | .spawn _ d m => usesStore d m
  | .pf _ m | .cpy _ m | .gth _ m | .sct _ m | .xds _ m | .tpf _ m | .col _ m => { src := [m.ofsReg] }
  | .atomAdd _ d m | .atomMin _ d m | .atomMax _ d m | .atomAnd _ d m | .atomOr _ d m | .atomXor _ d m
  | .atomXchg _ d m | .bwait _ d m => usesBoth d m
  | .atomCas _ d m => { dst := [d], src := [d, d + 1, m.ofsReg] }
  | .nbpost _ k d m => { usesBoth d m with vdst := [k] }
  | .nbget _ d m => { dst := [d, d + 1], src := [m.ofsReg] }
  | .joinRec _ d m | .fork _ d m | .rdv _ d m => usesLoad d m
  | .vmcnt _ d a | .vmffs _ d a | .vmget _ d a _ => { dst := [d], vsrc := [a] }
  | .vmtest _ d a b => { pdst := [d], vsrc := [a], src := [b] }
  | .vmop _ d a b _ => { vdst := [d], vsrc := [a, b] }
  | .vmset _ d a _ => { vdst := [d], vsrc := [d], src := [a] }
  | .bri _ a _ => { src := [a] }
  | .call _ _ => { dst := [0xFD] }
  | .calli _ a => { dst := [0xFD], src := [a] }
  | .ret _ a => { src := [a] }
  | .engst _ d a | .hqctlRd _ d a | .hqctlPause _ d a | .hqctlResume _ d a | .hqctlDrain _ d a
  | .lehrld _ d a _ => { dst := [d], src := [a] }
  | .bfinv _ d a b | .lehrsv _ d a b _ => { dst := [d], src := [a, b] }
  | _ => {}

/-- The thread registers a word names, vz apart. -/
def Uses.vregs (u : Uses) : List VReg := (u.dst ++ u.src ++ u.cross.map (·.1)).filter (· != 0xFF)

/-- The common fields of an instruction word; events have none. -/
def commonOf? : Instr → Option Common
  | .nop c | .iadd c .. | .isub c .. | .imul c .. | .imulh c .. | .imad c .. | .iand c .. | .ior c .. | .ixor c ..
  | .iandn c .. | .ishl c .. | .ishr c .. | .irot c .. | .icmp c .. | .ilim c .. | .isel c .. | .ibit c .. | .bfx c ..
  | .bfi c .. | .iun c .. | .addk c .. | .adpc c .. | .movk c .. | .movhk c .. | .rdsr c .. | .wrsr c .. => some c
  | .fadd c .. | .fsub c .. | .fmul c .. | .ffma c .. | .fdiv c .. | .fsqrt c .. | .frcp c .. | .flim c .. | .fcmp c ..
  | .fclass c .. | .fsgn c .. | .frnd c .. | .cvt c .. | .fscale c .. | .fexp2 c .. | .flog2 c .. | .fexp c ..
  | .flog c .. | .frsqrt c .. | .fsin c .. | .fcos c .. | .ftanh c .. | .ferf c .. | .bpack c .. | .bunpack c ..
  | .setfmt c .. | .getfmt c .. => some c
  | .lmov c .. | .vote c .. | .voteBallot c .. | .perm c .. | .rdind c .. | .wrind c .. | .plog c .. | .pmovToV c ..
  | .pmovFromV c .. => some c
  | .ld c .. | .st c .. | .ldp c .. | .stp c .. | .ldfe c .. | .ldfeClr c .. | .stfe c .. | .pf c .. | .atomAdd c ..
  | .atomMin c .. | .atomMax c .. | .atomAnd c .. | .atomOr c .. | .atomXor c .. | .atomXchg c .. | .atomCas c ..
  | .fence c .. | .fenceSc c .. => some c
  | .bsync c | .binit c .. | .barr c .. | .bwait c .. | .nbpost c .. | .nbget c .. | .nbinit c .. | .vmcnt c ..
  | .vmtest c .. | .vmop c .. | .vmffs c .. | .vmget c .. | .vmset c .. => some c
  | .br c .. | .bri c .. | .call c .. | .calli c .. | .ret c .. | .spawn c .. | .joinRec c .. | .exit c | .trap c ..
  | .brk c => some c
  | .fork c .. | .rdv c .. | .cpy c .. | .gth c .. | .sct c .. | .xds c .. | .tpf c .. | .col c .. | .engst c .. => some c
  | .ocld c .. | .mma c .. | .mmas c .. | .smrs c .. | .drn c .. | .drnm c .. | .azero c .. | .qop c .. | .qopCmp c ..
  | .qmovk c .. | .qld c .. | .qst c .. | .pbr c .. | .loop c .. | .parr c | .pend c => some c
  | .rdpr c .. | .wrpr c .. | .bfinv c .. | .tlbinvPg c .. | .tlbinvAll c | .hqctlRd c .. | .hqctlPause c ..
  | .hqctlResume c .. | .hqctlDrain c .. | .lehrsv c .. | .lehrld c .. | .stoptArm c .. | .stoptOff c => some c
  | _ => none

/-- The classes of Table 6.20, and steps that are no words. -/
inductive IClass where
  | shared | core | format | lane | pontil | priv | none
  deriving DecidableEq, Repr

def classOf : Instr → IClass
  | .nop _ => .shared
  | .fadd .. | .fsub .. | .fmul .. | .ffma .. | .fdiv .. | .fsqrt .. | .frcp .. | .flim .. | .fcmp .. | .fclass ..
  | .fsgn .. | .frnd .. | .cvt .. | .fscale .. | .fexp2 .. | .flog2 .. | .fexp .. | .flog .. | .frsqrt .. | .fsin ..
  | .fcos .. | .ftanh .. | .ferf .. | .bpack .. | .bunpack .. | .setfmt .. | .getfmt .. => .format
  | .lmov .. | .vote .. | .voteBallot .. | .perm .. | .rdind .. | .wrind .. | .plog .. | .pmovToV ..
  | .pmovFromV .. => .lane
  | .ocld .. | .mma .. | .mmas .. | .smrs .. | .drn .. | .drnm .. | .azero .. | .qop .. | .qopCmp .. | .qmovk ..
  | .qld .. | .qst .. | .pbr .. | .loop .. | .parr .. | .pend .. => .pontil
  | .rdpr .. | .wrpr .. | .bfinv .. | .tlbinvPg .. | .tlbinvAll .. | .hqctlRd .. | .hqctlPause .. | .hqctlResume ..
  | .hqctlDrain .. | .lehrsv .. | .lehrld .. | .stoptArm .. | .stoptOff .. => .priv
  | i => if (commonOf? i).isSome then .core else .none

/-! ## Register rows (R9) -/

/-- The row that holds a register of a kernel of `n` registers. -/
def rowOf (n : Nat) (r : VReg) : Option Nat :=
  let k := r.toNat
  if n ≤ 2 then (if k < n then some k else none)
  else if k + 2 < n then some k
  else if k = 253 then some (n - 2)
  else if k = 254 then some (n - 1)
  else none

/-- The kernel has the register, or it is vz. -/
def granted (n : Nat) (r : VReg) : Bool := r == 0xFF || (rowOf n r).isSome

/-- The value a register holds; vz and a register the kernel lacks read zero. -/
def Thread.getV (t : Thread) (r : VReg) : Word :=
  match rowOf t.regs.length r with
  | some k => t.regs.getD k 0
  | none => 0

/-- Write a register; vz discards. -/
def Thread.setV (t : Thread) (r : VReg) (x : Word) : Thread :=
  match rowOf t.regs.length r with
  | some k => { t with regs := setAt t.regs k x }
  | none => t

def Thread.getP (t : Thread) (p : PReg) : Bool := t.preds.getD p.val false
def Thread.setP (t : Thread) (p : PReg) (b : Bool) : Thread := { t with preds := setAt t.preds p.val b }
def Thread.getVm (t : Thread) (k : VmReg) : ViewMask := t.vms.getD k.val 0
def Thread.setVm (t : Thread) (k : VmReg) (x : ViewMask) : Thread := { t with vms := setAt t.vms k.val x }

/-- Perform a register write. -/
def Thread.write (t : Thread) : RegWrite → Thread
  | .v r x => t.setV r x
  | .p r b => t.setP r b
  | .vm r x => t.setVm r x

/-- The write that would put back what the target of `w` holds now. -/
def Thread.undo (t : Thread) : RegWrite → RegWrite
  | .v r _ => .v r (t.getV r)
  | .p r _ => .p r (t.getP r)
  | .vm r _ => .vm r (t.getVm r)

/-- Two writes of one register. -/
def RegWrite.same : RegWrite → RegWrite → Bool
  | .v r _, .v s _ => r == s
  | .p r _, .p s _ => r == s
  | .vm r _, .vm s _ => r == s
  | _, _ => false

/-! ## Windows (R40, R41) -/

/-- The value of v[r] as the thread itself reads it: inside a short window, the value held before. (DEDUCED, log 12) -/
def readVThrough (r : VReg) : List Window → Word → Word
  | [], x => x
  | w :: ws, x => match w.old with
    | .v s y => if s = r then readVThrough r ws y else readVThrough r ws x
    | _ => readVThrough r ws x

def readPThrough (p : PReg) : List Window → Bool → Bool
  | [], b => b
  | w :: ws, b => match w.old with
    | .p q y => if q = p then readPThrough p ws y else readPThrough p ws b
    | _ => readPThrough p ws b

def Thread.readV (t : Thread) (r : VReg) : Word := if r = 0xFF then 0 else readVThrough r t.windows (t.getV r)
def Thread.readP (t : Thread) (p : PReg) : Bool := readPThrough p t.windows (t.getP p)

def Thread.vShort (t : Thread) (r : VReg) : Bool :=
  t.windows.any (fun w => match w.old with | .v s _ => s == r | _ => false)
def Thread.pShort (t : Thread) (p : PReg) : Bool :=
  t.windows.any (fun w => match w.old with | .p q _ => q == p | _ => false)

/-- Age windows by an issued instruction of `n` cycles. A window that closes ends every older one of its register. -/
def ageWindows (n : Nat) : List Window → List RegWrite → List Window
  | [], _ => []
  | w :: ws, closed =>
    if closed.any w.old.same then ageWindows n ws closed
    else if w.left ≤ n then ageWindows n ws (w.old :: closed)
    else { w with left := w.left - n } :: ageWindows n ws closed

/-! ## Gangs and operands from other lanes (R10, R115) -/

def Thread.lane (t : Thread) : Nat := t.tid % 32
def Thread.warp (t : Thread) : Nat := t.tid / 32

/-- A member of a gang: its workgroup and itself as they stand when the gang issues, and the gang's thread numbers. -/
structure Member where
  wg : Workgroup
  t : Thread
  gang : List Nat
  deriving DecidableEq, Repr

def Workgroup.thread? (g : Workgroup) (tid : Nat) : Option Thread := g.threads.find? (fun t => t.tid == tid)

/-- The source lane of Table 6.18: none outside the warp. -/
def sourceLane (l : Nat) (k : CrossKind) (d : Nat) : Option Nat :=
  match k with
  | .broadcast => some d
  | .rotate => some ((l + d) % 32)
  | .butterfly => some (Nat.xor l d)
  | .shiftDown => if l + d ≤ 31 then some (l + d) else none
  | .shiftUp => if d ≤ l then some (l - d) else none

/-- The thread whose register a lane delivers; none when the reader's own value is. -/
def Member.lender (m : Member) (lane : Option Nat) : Option Thread :=
  match lane with
  | none => none
  | some l => if l = m.t.lane then none else m.wg.thread? (32 * m.t.warp + l)

/-- The value delivered for register `r` from a lane (R115). -/
def Member.fromLane (m : Member) (lane : Option Nat) (r : VReg) : Word :=
  match m.lender lane with
  | some u => if r = 0xFF then 0 else u.getV r
  | none => m.t.readV r

/-- Operand A and operand B under modifiers. -/
def Member.opA (m : Member) (a : VReg) (mods : Mods) : Word :=
  match mods with
  | .cross k d false => m.fromLane (sourceLane m.t.lane k d.val) a
  | _ => m.t.readV a

def Member.opB (m : Member) (b : VReg) (mods : Mods) : Word :=
  match mods with
  | .cross k d true => m.fromLane (sourceLane m.t.lane k d.val) b
  | _ => m.t.readV b

/-- The lane `perm` names: v[B], none at 32 and above (Table 7.13). -/
def permLane (x : Word) : Option Nat := if x.toNat < 32 then some x.toNat else none

/-- The member's own registers that an instruction reads (R328): the sources, and a crossed operand when the reader's own
value is delivered. -/
def Member.ownReads (m : Member) (i : Instr) : List VReg :=
  let u := uses i
  let crossed := u.cross.filterMap (fun p => match p.2 with
    | .cross k d _ => if (m.lender (sourceLane m.t.lane k d.val)).isNone then some p.1 else none
    | .source _ => match i with
      | .perm _ _ a b => if (m.lender (permLane (m.t.readV b))).isNone then some a else none
      | _ => some p.1)
  let indirect := match i with
    | .rdind _ _ a => if (m.t.readV a).toNat ≤ 255 then [(m.t.readV a).setWidth 8] else []
    | _ => []
  (u.src ++ crossed ++ indirect).filter (· != 0xFF)

/-- The guard of a member: the value of its predicate, negated or not (R20). -/
def Thread.guardOk (t : Thread) (i : Instr) : Bool :=
  match commonOf? i with
  | some ⟨_, .pred k neg⟩ => t.readP k != neg
  | _ => true

/-- The members of the gang in the reader's warp whose guard is true. (DEDUCED, log 46) -/
def voters (x : Member) (i : Instr) : List Thread :=
  x.wg.threads.filter (fun u => x.gang.contains u.tid && u.warp == x.t.warp && u.guardOk i)

/-- A vote reads a poisoned predicate of one of its voters. -/
def Member.votePoisoned (m : Member) (i : Instr) : Bool :=
  match i with
  | .vote _ _ a _ | .voteBallot _ _ a => (voters m i).any (fun u => u.poisoned.contains (.p a))
  | _ => false

/-- The predicate of the guard is poisoned (R279). -/
def Thread.guardPoisoned (t : Thread) (i : Instr) : Bool :=
  match commonOf? i with
  | some ⟨_, .pred k _⟩ => t.poisoned.contains (.p k)
  | _ => false

/-- Registers that may be poisoned and are read for the member, with the lending thread (R279). -/
def Member.poisonRead (m : Member) (i : Instr) : Bool :=
  (m.ownReads i).any (fun r => m.t.poisoned.contains (.v r)) || m.votePoisoned i ||
  (uses i).psrc.any (fun r => m.t.poisoned.contains (.p r)) || (uses i).vsrc.any (fun r => m.t.poisoned.contains (.vm r)) ||
  (uses i).cross.any (fun p => match p.2 with
    | .cross k d _ => match m.lender (sourceLane m.t.lane k d.val) with
      | some u => u.poisoned.contains (.v p.1)
      | none => false
    | .source _ => match i with
      | .perm _ _ a b => match m.lender (permLane (m.t.readV b)) with
        | some u => u.poisoned.contains (.v a)
        | none => false
      | _ => (List.range 32).any (fun l => match m.lender (some l) with
        | some u => u.poisoned.contains (.v p.1)
        | none => false))

/-! ## Special registers (R15, Table 1.6) -/

def State.launch? (s : State) (u : Nat) : Option Launch := s.launches.find? (fun l => l.uid == u)

/-- Fields of a continuation record (Table 17.1). -/
def recJoin (r : Nat) : Nat := natField r 0 32
def recQueue (r : Nat) : Nat := natField r 32 6
def recKind (r : Nat) : Nat := natField r 40 4
def recLblk (r : Nat) : Nat := natField r 64 64
def recGridX (r : Nat) : Nat := natField r 128 32
def recGridY (r : Nat) : Nat := natField r 160 32
def recGridZ (r : Nat) : Nat := natField r 192 32
def recWgsize (r : Nat) : Nat := natField r 224 11
def recRegs (r : Nat) : Nat := natField r 235 8
def recWt (r d : Nat) : Nat := natField r (256 + 16 * d) 16
def recComp (r : Nat) : Nat := natField r 320 64

/-- The value of a special register for a thread. -/
def specialReg (s : State) (g : Workgroup) (t : Thread) (r : SReg) : Nat :=
  let rec' := match s.launch? g.launch with
    | some l => l.record
    | none => 0
  let gx := recGridX rec'
  let gy := recGridY rec'
  let device := match s.context? g.ctx with
    | some c => c.device
    | none => 0
  match r with
  | .lane => t.lane
  | .warp => t.warp
  | .tid => t.tid
  | .wgsize => g.size
  | .wgx => g.index % gx
  | .wgy => g.index / gx % gy
  | .wgz => g.index / (gx * gy)
  | .gridx => gx
  | .gridy => gy
  | .gridz => recGridZ rec'
  | .depth => t.depth
  | .core => g.core.core.val
  | .cluster => g.core.cluster.val
  | .die => g.core.die.val - firstDie s.mode device
  | .ndie => diesPerDevice s.mode
  | .dev => device
  | .mode => s.mode.val
  | .module => s.module.toNat
  | .tick => s.tickOf g.core.die.val % 2 ^ 64
  | .fflags => t.fflags.toNat

/-! ## Format slots (R46, R47) -/

/-- The definition register of a slot: f0 to f3 are fixed. `fmts` holds f4 to f15. -/
def slotWord (fmts : List Word) (f : Slot) : Word := if f.val < 4 then fixedSlot f.val else fmts.getD (f.val - 4) 0

/-- The slot as an instruction takes it: SLOT_KIND when null or of a kind not accepted. -/
def slotOf (fmts : List Word) (f : Slot) (accepts : Nat → Bool) : Except Code FDef :=
  let w := slotWord fmts f
  if w = 0 then .error .slotKind
  else
    let d := fdefOf w
    if accepts d.kind then .ok d else .error .slotKind

def kinds04 (k : Nat) : Bool := decide (k ≤ 4)
def kind0 (k : Nat) : Bool := k == 0
def kindsBlock (k : Nat) : Bool := k == 5 || k == 6

/-- The element offset of R23 and Table 6.4: v[A] + OFS in 64-bit two's complement. -/
def elemIndex (x : Word) (ofs : BitVec 14) : Int := (x + ofs.signExtend 64).toInt

/-- The binder of a thread. -/
def binderOf (s : State) (g : Workgroup) (t : Thread) : Binder :=
  match s.launch? g.launch with
  | some l => ⟨.thread g.core g.uid t.warp t.tid, g.ctx, l.block, some (blkSlen l.block * (g.size * g.index + t.tid))⟩
  | none => ⟨.thread g.core g.uid t.warp t.tid, g.ctx, 0, none⟩

end Machine
end Sys2Proof
end

