-- ==== Sys2Proof/Machine/Transc.lean ====
section
/-! DEFINITION. Transcendentals (R129). Each function is enclosed between two fractions by integer arithmetic; the
enclosure decides which values of the slot meet the bound of Table 7.10. Which of them a Q9 delivers is left open: the
free value `Config.transc` is taken where it meets the bound, and else the value nearest under the rounding mode. -/

namespace Sys2Proof
namespace Elementary

/-- An enclosure of |y|: lo * 2^e ≤ |y| ≤ hi * 2^e, and the sign of y. -/
structure Encl where
  neg : Bool
  lo : Nat
  hi : Nat
  e : Int
  deriving DecidableEq, Repr

/-- A point `x` with an error of at most `err` on either side. -/
def around (neg : Bool) (x err : Nat) (e : Int) : Encl := ⟨neg, x - err, x + err, e⟩

/-- 1 + 2^-200 or 1 - 2^-200, times |x|: stands for every value between |x| and its neighbour of 80 bits or fewer. -/
def justAbove (neg : Bool) (n : Nat) (e : Int) : Encl := ⟨neg, n * 2 ^ 200 + 1, n * 2 ^ 200 + 1, e - 200⟩
def justBelow (neg : Bool) (n : Nat) (e : Int) : Encl := ⟨neg, n * 2 ^ 200 - 1, n * 2 ^ 200 - 1, e - 200⟩

/-- floor (n * 2^e * 2^p). -/
def fixed (n : Nat) (e : Int) (p : Nat) : Nat := (intParts n 1 (e + p)).1

/-- Σ z^(2k+1)/(2k+1), alternating when `alt`, with `p` fraction bits; `t` is z^(2k+1). -/
def oddSeries (alt : Bool) (z2 p : Nat) : Nat → Nat → Nat → Int → Int
  | 0, _, _, acc => acc
  | n + 1, k, t, acc =>
    let term : Int := (t / (2 * k + 1) : Nat)
    oddSeries alt z2 p n (k + 1) (t * z2 / 2 ^ p) (if alt && k % 2 == 1 then acc - term else acc + term)

/-- atanh z, for z at most 1/3, with `p` fraction bits; the error is below 4p + 16. -/
def atanhFix (z p : Nat) : Nat := (oddSeries false (z * z / 2 ^ p) p (p / 3 + 4) 0 z 0).toNat

/-- Σ (-1)^k / ((2k+1) m^(2k+1)): arctan of 1/m. -/
def atanInv (m p : Nat) : Nat :=
  let rec go : Nat → Nat → Nat → Int → Int
    | 0, _, _, acc => acc
    | n + 1, k, t, acc =>
      let term : Int := (t / (2 * k + 1) : Nat)
      go n (k + 1) (t / (m * m)) (if k % 2 == 1 then acc - term else acc + term)
  (go (p / 4 + 4) 0 (2 ^ p / m) 0).toNat

/-- ln 2 and π with `p` fraction bits; the errors are below 8p + 64 and 40p + 400. -/
def ln2Fix (p : Nat) : Nat := 2 * atanhFix (2 ^ p / 3) p
def piFix (p : Nat) : Nat := 16 * atanInv 5 p - 4 * atanInv 239 p

/-- e^r for 0 ≤ r ≤ 1 with `p` fraction bits; the error is below 4p + 64. -/
def expFix (r p : Nat) : Nat :=
  let rec go : Nat → Nat → Nat → Nat → Nat
    | 0, _, _, acc => acc
    | n + 1, k, t, acc => go n (k + 1) (t * r / 2 ^ p / (k + 1)) (acc + t)
  go (p / 3 + 24) 0 (2 ^ p) 0

/-- cos r, or sin r, for 0 ≤ r < 2, with `p` fraction bits; the error is below 4p + 64. -/
def trigFix (sine : Bool) (r p : Nat) : Int :=
  let r2 := r * r / 2 ^ p
  let rec go : Nat → Nat → Nat → Int → Int
    | 0, _, _, acc => acc
    | n + 1, k, t, acc =>
      let term : Int := (t : Nat)
      let k1 := if sine then (2 * k + 2) * (2 * k + 3) else (2 * k + 1) * (2 * k + 2)
      go n (k + 1) (t * r2 / 2 ^ p / k1) (if k % 2 == 1 then acc - term else acc + term)
  go (p / 4 + 24) 0 (if sine then r else 2 ^ p) 0

/-- e^x, where x is the integer `x` over 2^p: the k and the fixed-point m of y = m * 2^(k - p). -/
def expParts (x : Int) (p : Nat) : Int × Nat :=
  let l : Int := (ln2Fix p : Nat)
  (x / l, expFix (x % l).toNat p)

/-- The error allowed for, in units of 2^-p, of values formed from ln 2 times an integer below 2^22. -/
def slack : Nat := 2 ^ 40

/-- e^x for x = ±n * 2^e, with relative precision of about `prec` bits. -/
def encExp (neg : Bool) (n : Nat) (e : Int) (prec : Nat) : Encl :=
  let lg := floorLog2 n 1 e
  if 20 ≤ lg then ⟨false, 1, 2, if neg then -1400000 else 1400000⟩
  else if lg < -90 then (if neg then justBelow false 1 0 else justAbove false 1 0)
  else
    let p := prec + 160
    let x : Int := (fixed n e p : Nat)
    let (k, m) := expParts (if neg then -x else x) p
    around false m slack (k - p)

/-- 2^x for x = ±n * 2^e, not an integer. -/
def encExp2 (neg : Bool) (n : Nat) (e : Int) (prec : Nat) : Encl :=
  let lg := floorLog2 n 1 e
  if 20 ≤ lg then ⟨false, 1, 2, if neg then -1040000 else 1040000⟩
  else if lg < -90 then (if neg then justBelow false 1 0 else justAbove false 1 0)
  else
    let p := prec + 160
    let x : Int := (fixed n e p : Nat)
    let x := if neg then -x else x
    let k := x / 2 ^ p
    around false (expFix ((x % 2 ^ p).toNat * ln2Fix p / 2 ^ p) p) slack (k - p)

/-- ln x for x = n * 2^e > 0, as a signed fixed-point number with `p` fraction bits. -/
def lnFix (n : Nat) (e : Int) (p : Nat) : Int :=
  let lg := log2 n
  -- m = n / 2^lg in [1, 2); above 3/2 take half of it
  let half := decide (3 * 2 ^ lg ≤ 2 * n)
  let k : Int := lg + e + (if half then 1 else 0)
  let den := if half then 2 * 2 ^ lg else 2 ^ lg
  let below := decide (n < den)
  let z := (if below then den - n else n - den) * 2 ^ p / (n + den)
  let a : Int := (2 * atanhFix z p : Nat)
  k * (ln2Fix p : Nat) + (if below then -a else a)

def encLog (n : Nat) (e : Int) (prec : Nat) : Encl :=
  let p := prec + 200
  let y := lnFix n e p
  around (decide (y < 0)) y.natAbs slack (-(p : Int))

/-- log2 x for x not a power of two. -/
def encLog2 (n : Nat) (e : Int) (prec : Nat) : Encl :=
  let p := prec + 200
  let y := lnFix n e p
  around (decide (y < 0)) (y.natAbs * 2 ^ p / ln2Fix p) (2 * slack) (-(p : Int))

/-- sin x or cos x for x = ±n * 2^e. -/
def encTrig (sine neg : Bool) (n : Nat) (e : Int) (prec : Nat) : Encl :=
  let lg := floorLog2 n 1 e
  if lg < -90 then (if sine then justBelow neg n e else justBelow false 1 0)
  else
    let p := prec + 240
    let pw := p + lg.toNat + 40
    let hp := piFix pw / 2
    let x := fixed n e pw
    let q := x / hp
    let r := x % hp / 2 ^ (pw - p)
    let q' := q % 4
    let y := trigFix (sine == (q' % 2 == 0)) r p
    let flip := if sine then decide (2 ≤ q') else q' == 1 || q' == 2
    around (if sine then flip != neg else flip) y.natAbs slack (-(p : Int))

def encTanh (neg : Bool) (n : Nat) (e : Int) (prec : Nat) : Encl :=
  let lg := floorLog2 n 1 e
  if 7 ≤ lg then justBelow neg 1 0
  else if lg < -90 then justBelow neg n e
  else
    let p := prec + 240
    let (k, m) := expParts (fixed n (e + 1) p : Nat) p
    let a := m * 2 ^ k.toNat
    around neg ((a - 2 ^ p) * 2 ^ p / (a + 2 ^ p)) slack (-(p : Int))

/-- erf x = 2/√π * x * Σ (-1)^k x^(2k) / (k! (2k+1)). -/
def encErf (neg : Bool) (n : Nat) (e : Int) (prec : Nat) : Encl :=
  let lg := floorLog2 n 1 e
  if 4 ≤ lg then justBelow neg 1 0
  else
    let p := prec + 640
    let u := fixed (n * n) (2 * e) p
    let rec go : Nat → Nat → Nat → Int → Int
      | 0, _, _, acc => acc
      | k + 1, j, t, acc =>
        let term : Int := (t / (2 * j + 1) : Nat)
        go k (j + 1) (t * u / 2 ^ p / (j + 1)) (if j % 2 == 1 then acc - term else acc + term)
    let s := (go (p + 800) 0 (2 ^ p) 0).toNat
    let c := 2 * 2 ^ (2 * p) / isqrt (piFix p * 2 ^ p)
    -- scaled by n * 2^e; the series' error, below 2^400 units of 2^-p, covers the rest
    ⟨neg, n * ((s - 2 ^ 400) * (c - 2 ^ 24) / 2 ^ p), n * ((s + 2 ^ 400) * (c + 2 ^ 24) / 2 ^ p + 1), e - p⟩

/-- The enclosure of a function at ±n * 2^e with about `prec` bits. -/
def encl (fn : Transc) (neg : Bool) (n : Nat) (e : Int) (prec : Nat) : Encl :=
  match fn with
  | .exp => encExp neg n e prec
  | .exp2 => encExp2 neg n e prec
  | .log => encLog n e prec
  | .log2 => encLog2 n e prec
  | .rsqrt => let (a, d, k) := sqrtParts 1 n (-e); ⟨false, a * 2 ^ 64 / d, a * 2 ^ 64 / d + 1, k - 64⟩
  | .sin => encTrig true neg n e prec
  | .cos => encTrig false neg n e prec
  | .tanh => encTanh neg n e prec
  | .erf => encErf neg n e prec

/-- A result y = ±m * 2^k that is a dyadic fraction, for a finite nonzero argument: powers of two and their logarithms, and
inverse roots of even powers of two. -/
def exactOf (fn : Transc) (neg : Bool) (n : Nat) (e : Int) : Option (Bool × Nat × Int) :=
  match fn with
  | .exp2 =>
    if isInteger n 1 e then
      let lg := floorLog2 n 1 e
      let k : Int := if 22 ≤ lg then 2 ^ 22 else (fixed n e 0 : Nat)
      some (false, 1, if neg then -k else k)
    else none
  | .log2 =>
    let y : Int := (log2 n : Int) + e
    if n = 2 ^ log2 n then some (decide (y < 0), y.natAbs, 0) else none
  | .log => if n = 2 ^ log2 n ∧ (log2 n : Int) + e = 0 then some (false, 0, 0) else none
  | .rsqrt =>
    let y : Int := (log2 n : Int) + e
    if n = 2 ^ log2 n ∧ y % 2 = 0 then some (false, 1, -(y / 2)) else none
  | _ => none

/-- Both ends round to one pattern. -/
def settle (f : FDef) (rm : Round) (en : Encl) : Option (Nat × Flags) :=
  let a := encodeFloat f (.num en.neg en.lo 1 en.e) rm 0 false
  let b := encodeFloat f (.num en.neg en.hi 1 en.e) rm 0 false
  if en.lo ≠ 0 ∧ a.1 = b.1 then some (a.1, a.2 ||| b.2) else none

/-- An enclosure narrow enough to round, doubling the precision at most `fuel` times. -/
def refine (fn : Transc) (f : FDef) (rm : Round) (neg : Bool) (n : Nat) (e : Int) : Nat → Nat → Encl × (Nat × Flags)
  | 0, prec =>
    let en := encl fn neg n e prec
    (en, encodeFloat f (.num en.neg en.lo 1 en.e) rm 0 false)
  | fuel + 1, prec =>
    let en := encl fn neg n e prec
    match settle f rm en with
    | some r => (en, r)
    | none => refine fn f rm neg n e fuel (2 * prec)

/-- Table 7.10: the bound in ulp; none is a correctly rounded result. -/
def bound (fn : Transc) (f : FDef) (n : Nat) (e : Int) : Option Nat :=
  let small := decide (f.mw ≤ 10)
  match fn with
  | .exp2 | .log2 | .exp | .log | .rsqrt => if small then none else some 1
  | .sin | .cos =>
    -- |x| ≤ 2^20 π
    if small then some 1
    else if decide (20 + 40 < floorLog2 n 1 e) then some 2
    else if fixed n e 80 ≤ piFix 100 then some 1 else some 2
  | .tanh | .erf => if small then some 1 else some 2

/-- Whether the value `c` of the slot meets the bound of `b` ulp at both ends of the enclosure, on a permitted side. -/
def meets (f : FDef) (rm : Round) (b : Nat) (en : Encl) (c : Val) : Bool :=
  match c with
  | .num s n _ e =>
    let m := min e en.e
    let scaleTo (x : Nat) (k : Int) : Int := (x * 2 ^ (k - m).toNat : Nat)
    let cv := if s == en.neg then scaleTo n e else -(scaleTo n e)   -- |y| counted positive
    let lo := scaleTo en.lo en.e
    let hi := scaleTo en.hi en.e
    -- ulp_F(y), judged at the lower end
    let u := max (floorLog2 en.lo 1 en.e) (1 - f.bias) - f.mw
    let ulp := fun (x : Int) => if m ≤ u then decide (x.natAbs < b * 2 ^ (u - m).toNat)
      else decide (x.natAbs * 2 ^ (m - u).toNat < b)
    let side := match rm with
      | .rtz => decide (cv ≤ lo)
      | .rup => if en.neg then decide (cv ≤ lo) else decide (hi ≤ cv)
      | .rdn => if en.neg then decide (hi ≤ cv) else decide (cv ≤ lo)
      | _ => true
    ulp (cv - lo) && ulp (cv - hi) && side
  | _ => false

/-- R129: RSR and ROD are treated as RNE. -/
def modeOf (rm : Round) : Round :=
  match rm with
  | .rsr | .rod => .rne
  | r => r

/-- A number for the argument ±n * 2^e: one for each value, whatever register or sign modifier gave it. -/
def argKey (neg : Bool) (n : Nat) (e : Int) : Nat :=
  let t := Nat.gcd n (2 ^ log2 n)
  2 * (n / t * 2 ^ 20 + (e + (log2 t : Int) + 2 ^ 19).toNat) + bitOf neg

/-- An exact y: delivered as it is and without inexact where F represents it, a subnormal of a slot that flushes its outputs too
(the underflow that R53 raises there stays); else what encode gives, with inexact (R129; log 9). -/
def exactly (f : FDef) (rm : Round) (v : Val) : Nat × Flags :=
  let r := encodeFloat { f with sub := 0 } v rm 0 false
  let q := encodeFloat f v rm 0 false
  if r.2 &&& (fInvalid ||| fOverflow ||| fInexact) = 0 then (r.1, q.2 &&& fUnderflow) else (q.1, q.2 ||| fInexact)

/-- The enclosure of y, and the bits and flags of encode(F, y, rm): inexact whenever y has no place in F (R129). -/
def enclosed (fn : Transc) (f : FDef) (rm : Round) (neg : Bool) (n : Nat) (e : Int) : Encl × (Nat × Flags) :=
  match exactOf fn neg n e with
  | some (s, m, k) => (⟨s, m, m, k⟩, exactly f rm (.num s m 1 k))
  | none =>
    let r := refine fn f rm neg n e 6 96
    (r.1, (r.2.1, r.2.2 ||| fInexact))

/-- The result at a finite nonzero argument: bits and flags. `x` numbers the argument and `fdr` is the register. A result with
a place in F is delivered exactly, and so is what R55 or R56 gives outside F's finite range. A tiny y that has no place in a slot that
flushes its outputs is the zero of R53, though R129's bound and its excluded side would keep it off zero (DESIGN CHOICE, log 9). -/
def atFinite (fn : Transc) (fdr : Word) (rm : Round) (x : Nat) (neg : Bool) (n : Nat) (e : Int) : Nat × Flags :=
  let f := fdefOf fdr
  let rm := modeOf rm
  let (en, (bits, fl)) := enclosed fn f rm neg n e
  let closed := decide (fl &&& fInexact = 0) || decide (fl &&& (fOverflow ||| fInvalid) ≠ 0) ||
    (decide (fl &&& fUnderflow ≠ 0) && (f.sub == 2 || f.sub == 3))
  match bound fn f n e with
  | none => (bits, fl)
  | some b =>
    if closed then (bits, fl)
    else
      let c := Config.transc fn fdr (roundCode rm) x % 2 ^ f.w
      if meets f rm b en (decodeFloat f false c) then (c, fl) else (bits, fl)

/-- Table 7.11. -/
def special (fn : Transc) (v : Val) : Val × Flags :=
  let one := valInt 1 0
  match fn, v with
  | _, .nan q => (.nan true, if q then 0 else fInvalid)
  | .exp, .inf s | .exp2, .inf s => (if s then valZero false else .inf false, 0)
  | .exp, _ | .exp2, _ | .cos, .num _ _ _ _ => (one, 0)
  | .log, .inf s | .log2, .inf s => if s then (.nan true, fInvalid) else (.inf false, 0)
  | .log, .num s n _ _ | .log2, .num s n _ _ => if n = 0 then (.inf true, fDivZero) else if s then (.nan true, fInvalid)
      else (valZero false, 0)
  | .rsqrt, .inf s => if s then (.nan true, fInvalid) else (valZero false, 0)
  | .rsqrt, .num s n _ _ => if n = 0 then (.inf s, fDivZero) else if s then (.nan true, fInvalid) else (valZero false, 0)
  | .sin, .inf _ | .cos, .inf _ => (.nan true, fInvalid)
  | .tanh, .inf s | .erf, .inf s => (valInt (if s then -1 else 1) 0, 0)
  | .sin, z | .tanh, z | .erf, z => (z, 0)

/-- One element of majors 0x30 to 0x38 for the operand's decoded and modified value. -/
def element (fn : Transc) (fdr : Word) (rm : Round) (v : Val) : Nat × Flags :=
  let f := fdefOf fdr
  match v with
  | .num s n _ e =>
    let needsPositive := fn == .log || fn == .log2 || fn == .rsqrt
    if n = 0 ∨ (needsPositive ∧ s) then
      let (r, fl) := special fn v
      let (bits, fl') := encodeFloat f r (modeOf rm) 0 (decide (fl = fDivZero))
      (bits, fl ||| fl')
    else atFinite fn fdr rm (2 * argKey s n e) s n e
  | _ =>
    let (r, fl) := special fn v
    let (bits, fl') := encodeFloat f r (modeOf rm) 0 false
    (bits, fl ||| fl')

end Elementary
end Sys2Proof
end

