-- ==== Sys2Proof/Machine/Flags.lean ====
section
/-! DEFINITION. Results of elements with the flags they raise: the format group (R119 to R129), the combine of atomics
(R147), and the sticky flags (R60). -/

namespace Sys2Proof
namespace Machine

/-- Flags only gather (R60). -/
def Thread.mergeFlags (t : Thread) (f : Flags) : Thread := { t with fflags := t.fflags ||| f }

/-- A source modifier (R106): absolute value first, then negation. -/
def modify (v : Val) (neg abs : Bool) : Val :=
  let v := if abs then v.abs else v
  if neg then v.negate else v

/-- The modifiers of operand `k` (0 A, 1 B, 2 C). -/
def applyMods (m : Mods) (k : Nat) (v : Val) : Val :=
  match m with
  | .source s => modify v (s.getLsbD (5 - 2 * k)) (s.getLsbD (4 - 2 * k))
  | .cross _ _ _ => v

/-- SMOD ≠ 0. -/
def signsOf (m : Mods) : Bool :=
  match m with
  | .source s => s != 0
  | .cross _ _ _ => false

/-- Encode a result, NaN of an unsuitable slot included, with the flags of the exact operation merged in (R119). -/
def encodeWith (f : FDef) (rm : Round) (pos : Nat) (r : Val × Flags) : Nat × Flags :=
  let b := encodeElem f r.1 rm pos (r.2 &&& fDivZero != 0)
  (b.1, b.2 ||| r.2)

/-- Invalid for a signalling operand (R51, R58). -/
def signal (vs : List Val) : Flags := flagIf (vs.any Val.isSignalling) fInvalid

/-- x + y, x − y, x · y and x · y + z under the sign rule of R59. -/
def exactAdd (rm : Round) (x y : Val) : Val × Flags :=
  let r := valAdd (rm == .rdn) x y
  (r.1, r.2 ||| signal [x, y])
def exactSub (rm : Round) (x y : Val) : Val × Flags := exactAdd rm x y.negate
def exactMul (x y : Val) : Val × Flags :=
  let r := valMul x y
  (r.1, r.2 ||| signal [x, y])
def exactFma (rm : Round) (x y z : Val) : Val × Flags :=
  let p := valMul x y
  let r := valAdd (rm == .rdn) p.1 z
  (r.1, p.2 ||| r.2 ||| signal [x, y, z])
def exactDiv (x y : Val) : Val × Flags :=
  let r := valDiv x y
  (r.1, r.2 ||| signal [x, y])
def exactSqrt (x : Val) : Val × Flags :=
  let r := valSqrt x
  (r.1, r.2 ||| signal [x])

/-- x below y, with −0 below +0 (R122). -/
def valBelow (x y : Val) : Bool :=
  match valCompare x y with
  | some .lt => true
  | some .eq => x.isZero && y.isZero && x.sign && !y.sign
  | _ => false

/-- The choice of flim in a float slot (R122). -/
def flimVal (t : FLim) (x y : Val) : Val :=
  let lower := match t with
    | .min | .minnum => true
    | .max | .maxnum => false
  let num := match t with
    | .minnum | .maxnum => true
    | .min | .max => false
  if x.isNan || y.isNan then
    (if num && !(x.isNan && y.isNan) then (if x.isNan then y else x) else .nan true)
  else if lower then (if valBelow y x then y else x)
  else (if valBelow x y then y else x)

/-- flim on one element (R122). -/
def flimElem (f : FDef) (t : FLim) (a b : Nat) : Nat × Flags :=
  let x := decodeElem f a
  let y := decodeElem f b
  if f.kind = 0 then
    let r := encodeElem f (flimVal t x y) f.default 0 false
    (r.1, r.2 ||| signal [x, y])
  else
    let lower := match t with
      | .min | .minnum => true
      | .max | .maxnum => false
    (if (if lower then valBelow y x else valBelow x y) then b else a, 0)

/-- fcmp (R123). -/
def fcmpVal (t : FTest) (x y : Val) : Bool × Flags :=
  let nan := x.isNan || y.isNan
  let c := valCompare x y
  match t with
  | .eq => (c == some .eq, signal [x, y])
  | .ne => (!(c == some .eq), signal [x, y])
  | .lt => (c == some .lt, flagIf nan fInvalid)
  | .le => (c == some .lt || c == some .eq, flagIf nan fInvalid)
  | .gt => (c == some .gt, flagIf nan fInvalid)
  | .ge => (c == some .gt || c == some .eq, flagIf nan fInvalid)
  | .un => (nan, signal [x, y])
  | .or => (!nan, signal [x, y])

/-- fclass on a pattern (R124): the class of Table 7.8. -/
def fclassOf (f : FDef) (x : Nat) : Nat :=
  let neg := f.s == 1 && natField x f.magBits 1 == 1
  match decodeFloat f false x with
  | .nan q => if q then 1 else 0
  | .inf s => if s then 2 else 9
  | .num _ n _ _ =>
    if n = 0 then (if neg then 5 else 6)
    else if natField x f.mw f.ew = 0 then (if neg then 4 else 7)
    else (if neg then 3 else 8)

/-- fsgn on one element (R125); `sb` is the sign bit taken from B. -/
def fsgnElem (f : FDef) (a : Nat) (sign : Bool) : Nat :=
  if isNanPattern f a then canonicalNan f
  else
    let mag := natField a 0 f.magBits
    if mag = 0 ∧ f.nan = 3 then 0 else mag + signBits f sign

/-- The sign bit of a pattern. -/
def signOf (f : FDef) (x : Nat) : Bool := f.s == 1 && natField x f.magBits 1 == 1

/-- frnd on one element (R126). -/
def frndElem (f : FDef) (a : Nat) (rm : Round) (exact : Bool) (pos : Nat) : Nat × Flags :=
  let x := decodeElem f a
  match x with
  | .nan q => (canonicalNan f, flagIf (!q) fInvalid)
  | .inf _ => (a, 0)
  | .num s n d e =>
    if n = 0 then (zeroBits f s, 0)
    else
      let r := encodeElem f (.num s (roundInt n d e rm s pos) 1 0) rm pos false
      (r.1, (r.2 &&& ~~~fInexact) ||| flagIf (exact && valCompare (decodeElem f r.1) x != some .eq) fInexact)

/-- cvt on one element (R61, R128). -/
def cvtElem (g f : FDef) (a : Nat) (rm : Round) (pos : Nat) : Nat × Flags :=
  let x := decodeElem g a
  let r := encodeElem f x rm pos false
  (r.1, r.2 ||| signal [x])

/-! ## Atomics (R147) -/

/-- combine: the new bits of the element and the flags. `old` and `x` are element bits. (DEDUCED, log 43) -/
def combine (op : AtomOp) (f : FDef) (old x y : Nat) : Nat × Flags :=
  let rm := if f.default == .rsr then .rne else f.default
  match op with
  | .add =>
    let a := decodeElem f old
    let b := decodeElem f x
    encodeWith f rm 0 (exactAdd rm a b)
  | .min => flimElem f .minnum old x
  | .max => flimElem f .maxnum old x
  | .and => (old &&& x, 0)
  | .or => (old ||| x, 0)
  | .xor => (old ^^^ x, 0)
  | .xchg => (x, 0)
  | .cas => (if old = x then y else old, 0)

/-- Flags of a combine; and, or, xor, xchg and cas raise none. -/
def combineFlags (op : AtomOp) (f : FDef) (old x y : Nat) : Flags := (combine op f old x y).2

end Machine
end Sys2Proof
end

