-- ==== Sys2Proof/Machine/Trace.lean ====
section
/-! DEFINITION. Trace records (R295, R296, Tables 20.6, 20.7), and the rings of a die's watching (R297). -/

namespace Sys2Proof
namespace Machine

/-- The handle of a place (Table 16.3). -/
def handleAt (mode : Fin 3) (c : CoreId) (slot : Nat) : Nat :=
  c.die.val % diesPerDevice mode + 4 * c.cluster.val + 128 * c.core.val + 512 * slot

def Workgroup.handle (g : Workgroup) (mode : Fin 3) : Nat := handleAt mode g.core g.slot.val

def State.watch? (s : State) (die : Nat) : Option Watch := s.watches.find? (fun w => w.die == die)

def State.setWatch (s : State) (w : Watch) : State :=
  { s with watches := replaceFirst (fun x => x.die == w.die) w s.watches }

/-- Write `n` bytes of an entry of a ring at a domain address: its pages are translated, counted and marked like any other. An entry on
no mapped page is lost. -/
def writeEntry (s : State) (die va n x : Nat) : State :=
  match places s 64 va n with
  | .error _ => s
  | .ok (ps, s) => (writeAt s (.plain (.dispatcher (Fin.ofNat 4 die))) .empty .back va ps (bytesOf x n)).1

/-- Append one record to the trace ring of a die, or count it as dropped (R295). -/
def traceRecord (s : State) (die cb x : Nat) : State :=
  let at' := ownLoc die cb
  let head := s.peekNat (at' + 20) 4
  let len := s.peekNat (at' + 16) 4
  let next := if head + 1 = len then 0 else head + 1
  if next = s.peekNat (at' + 24) 4 then
    pokeNat s (.dispatcher (Fin.ofNat 4 die)) (at' + 28) 4 (min (s.peekNat (at' + 28) 4 + 1) (2 ^ 32 - 1))
  else
    let s := writeEntry s die (s.peekNat (at' + 8) 8 + 32 * head) 32 x
    pokeNat s (.dispatcher (Fin.ofNat 4 die)) (at' + 20) 4 next

/-- The bits of a trace record (Table 20.7). -/
def traceBits (tick type warp wgh ctx lanes : Nat) (pc : Word) (data : Nat) : Nat :=
  tick % 2 ^ 64 + type * 2 ^ 64 + warp * 2 ^ 68 + wgh * 2 ^ 73 + ctx * 2 ^ 86 + lanes * 2 ^ 96 + pc.toNat * 2 ^ 128 +
    data % 2 ^ 64 * 2 ^ 192

/-- The type of record an instruction matches at its issue (R296). TYPE 4 is that of the code an instruction raises. -/
def traceType : Instr → Option Nat
  | .br .. | .bri .. => some 0
  | .call .. | .calli .. => some 1
  | .ret .. => some 2
  | .exit .. => some 3
  | .setfmt .. => some 5
  | .fork .. | .cpy .. | .gth .. | .sct .. | .xds .. | .tpf .. | .col .. => some 6
  | _ => none

/-- DATA of a record for one of its members. -/
def traceData (t : Thread) (i : Instr) : Nat :=
  let start := t.pc.toNat / 64 * 64
  match i with
  | .br _ d _ | .call _ d => (BitVec.ofNat 64 start + d.signExtend 64 <<< 6).toNat
  | .bri _ a _ | .calli _ a | .ret _ a => (t.readV a).toNat
  | .setfmt _ a _ => (t.readV a).toNat
  | .fork .. => 0xA0 | .cpy .. => 0xA2 | .gth .. => 0xA3 | .sct .. => 0xA4 | .xds .. => 0xA5 | .tpf .. => 0xA6
  | .col .. => 0xA7
  | _ => 0

/-- The trace block that a die watches a context's gangs with, when it traces records of a type (R295). (DESIGN CHOICE,
log 53) -/
def traceOn (s : State) (die ctx ty : Nat) : Option Nat :=
  match s.watch? die with
  | none => none
  | some w => match w.traceCb with
    | none => none
    | some cb =>
      let head := s.peekNat (ownLoc die cb) 8
      if head.testBit ty && natField head 13 6 == ctx then some cb else none

/-- Whether an instruction that waits may still raise a code. -/
def mayRaise (w : Wait) : Bool := !(w.kind == .fence || w.kind == .bsync || w.kind == .bfinv || w.kind == .save)

/-- An instruction was issued before another moment: by its tick, and of equal ticks by its number among the waits. -/
def Wait.before (w : Wait) (tick order : Nat) : Bool := decide (w.issued < tick) || (w.issued == tick && decide (w.since < order))

/-- An instruction that a core issued before some moment waits, and may raise a code of which a record is due. -/
def recordDue (s : State) (core : CoreId) (tick order : Nat) : Bool :=
  s.workgroups.any (fun g => g.core == core && (traceOn s core.die.val g.ctx 4).isSome &&
    g.threads.any (fun t => t.wait.any (fun w => mayRaise w && w.before tick order)))

/-- A record takes its place among those of its core that are held: before those of instructions issued later. -/
def TraceHeld.among (x : TraceHeld) : List TraceHeld → List TraceHeld
  | [] => [x]
  | y :: ys => if y.core = x.core ∧ (x.tick < y.tick ∨ x.tick = y.tick ∧ x.order < y.order) then x :: y :: ys else y :: x.among ys

/-- A record of a core: written at once, or held while one of an instruction issued before may still come, so that the records of one
core stand in issue order (R296). -/
def recordOrHold (s : State) (core : CoreId) (cb tick order x : Nat) : State :=
  if recordDue s core tick order || s.traceHeld.any (fun y => y.core == core) then
    { s with traceHeld := TraceHeld.among ⟨core, tick, order, x⟩ s.traceHeld }
  else traceRecord s core.die.val cb x

/-- A record that is held is written once nothing can come ahead of it. -/
def settleRecord (s : State) (x : TraceHeld) : State :=
  if recordDue s x.core x.tick x.order then s
  else
    let s := { s with traceHeld := removeFirst (fun y => y == x) s.traceHeld }
    match s.watch? x.core.die.val with
    | none => s
    | some w => match w.traceCb with
      | none => s
      | some cb => traceRecord s x.core.die.val cb x.bits

def settleRecords (s : State) : State := s.traceHeld.foldl settleRecord s

/-- The tick and the number of a record of some threads: those of the wait that began at their issue, or of now (Table 20.7). -/
def issuedAt (s : State) (die : Nat) (t : Thread) : Nat × Nat :=
  match t.wait with
  | some w => (w.issued, w.since)
  | none => (s.tickOf die, s.uids)

/-- One record for each warp represented among threads of a workgroup (R296). -/
def traceWarps (s : State) (g : Workgroup) (cb ty : Nat) (ts : List Thread) (data : Thread → Nat) (at' : Thread → Nat × Nat) : State :=
  (List.range 32).foldl (fun s k =>
    match ts.filter (fun t => t.warp == k) with
    | [] => s
    | t :: ts =>
      recordOrHold s g.core cb (at' t).1 (at' t).2 (traceBits (at' t).1 ty k (g.handle s.mode) g.ctx
        (((t :: ts).map (fun u => 2 ^ u.lane)).foldl (· + ·) 0) t.pc (data t))) s

/-- The records of a gang at its issue, for the members whose guard is true (R296). Bits of the control block that Table 20.6
reserves are ignored (DESIGN CHOICE, log 53). -/
def traceGang (s : State) (g : Workgroup) (ms : List Thread) (i : Instr) : State :=
  match traceType i with
  | none => s
  | some ty => match traceOn s g.core.die.val g.ctx ty with
    | none => s
    | some cb => traceWarps s g cb ty (ms.filter (fun t => t.guardOk i)) (fun t => traceData t i)
        (fun _ => (s.tickOf g.core.die.val, s.uids))

/-- The records of the codes that threads of a workgroup have raised since `s₀`: TYPE 4, each with the tick of its instruction's issue
(R296). -/
def traceRaised (s₀ s : State) (u : Nat) : State :=
  match s₀.workgroups.find? (fun g => g.uid == u), s.workgroups.find? (fun g => g.uid == u) with
  | some g, some h => match traceOn s g.core.die.val g.ctx 4 with
    | none => s
    | some cb =>
      traceWarps s h cb 4 (h.threads.filter (fun t => t.trap.isSome && !(g.threads.any (fun x => x.tid == t.tid && x.trap.isSome))))
        (fun t => match t.trap with
          | some c => codeNumber c.1
          | none => 0)
        (fun t => issuedAt s₀ g.core.die.val ((g.threads.find? (fun x => x.tid == t.tid)).getD t))
  | _, _ => s

end Machine
end Sys2Proof
end

