-- ==== Sys2Proof/Machine/Ops.lean ====
section
/-! DEFINITION. The shared operations of steps: finding and changing threads, event records (R276), taking a trap (R272),
the gate of a gang's instruction (R112, R328), how a member's result is written (R32, R40), and how a pontil runs and
stops (R172, R173, R190). -/

namespace Sys2Proof
namespace Machine

/-- What a meaning answers. -/
abbrev Out := Host.Outcome State Fault Refusal

/-! ## Threads and workgroups -/

def State.wg? (s : State) (u : Nat) : Option Workgroup := s.workgroups.find? (fun g => g.uid == u)

def State.setWg (s : State) (g : Workgroup) : State :=
  { s with workgroups := replaceFirst (fun h => h.uid == g.uid) g s.workgroups }

def Workgroup.setThread (g : Workgroup) (t : Thread) : Workgroup :=
  { g with threads := replaceFirst (fun x => x.tid == t.tid) t g.threads }

def State.thread? (s : State) (u tid : Nat) : Option Thread :=
  match s.wg? u with
  | some g => g.thread? tid
  | none => none

/-- Change one thread. -/
def State.modThread (s : State) (u tid : Nat) (f : Thread → Thread) : State :=
  match s.wg? u with
  | none => s
  | some g => match g.thread? tid with
    | none => s
    | some t => s.setWg (g.setThread (f t))

/-- What a thread has seen of memory. -/
def State.viewOf (s : State) (u tid : Nat) : MemView :=
  match s.thread? u tid with
  | some t => t.view
  | none => .empty

def State.setView (s : State) (u tid : Nat) (v : MemView) : State := s.modThread u tid (fun t => { t with view := v })

def State.modLaunch (s : State) (u : Nat) (f : Launch → Launch) : State :=
  match s.launch? u with
  | some l => { s with launches := replaceFirst (fun x => x.uid == u) (f l) s.launches }
  | none => s

/-- The flags of a context (Table 16.1); a context that does not exist has none. -/
def State.isPriv (s : State) (c : Nat) : Bool :=
  match s.context? c with
  | some x => x.priv
  | none => false
def State.isChecked (s : State) (c : Nat) : Bool :=
  match s.context? c with
  | some x => x.check
  | none => false
def State.isDebug (s : State) (c : Nat) : Bool :=
  match s.context? c with
  | some x => x.debug
  | none => false

/-- The device a context runs on. -/
def State.deviceOfCtx (s : State) (c : Nat) : Nat :=
  match s.context? c with
  | some x => x.device
  | none => 0

/-! ## Sources -/

/-- The unit of a core, and of a pontil context, in Table 19.3. -/
def coreUnit (c : CoreId) : Nat := 4 * c.cluster.val + c.core.val
def pontilUnit (p : PontilId) : Nat := 2 * p.cluster.val + p.ctx.val

/-! ## Taking a trap (R272, R273) -/

/-- A thread raises a code: it keeps its whole state with the program counter at the instruction, its workgroup issues
no further gang, and its core records an event. -/
def takeTrap (s : State) (u tid : Nat) (c : Code) (detail : Word) : State :=
  match s.wg? u with
  | none => s
  | some g =>
    let s := s.modThread u tid (fun t => { t with trap := some (c, detail), wait := none })
    let s := match s.wg? u with
      | some g => s.setWg { g with halted := true, formed := [] }
      | none => s
    let s := { s with choice := s.choice + 4096 }
    s.emit (coreUnit g.core) 0 g.core.die.val (codeNumber c) g.ctx (g.handle s.mode) detail.toNat

/-! ## Results of a member's instruction -/

/-- What a member's instruction leaves to be written. `lat` is the fixed latency of its results (Table 3.5); without one
they are scoreboarded. -/
structure Effect where
  lat : Option Nat := none
  writes : List RegWrite := []
  flags : Flags := 0
  flagged : Bool := false
  memory : Bool := false
  load : Bool := false
  queue : Option Nat := none
  tag : Option (Fin 13 × Nat) := none
  next : Option Word := none
  depth : Option Nat := none
  park : Bool := false
  deriving DecidableEq, Repr

/-- How a member's instruction ends: it raises a code, waits (R32), or is done. -/
inductive MRes where
  | trap (c : Code) (detail : Word)
  | wait (s : State) (w : Wait)
  | done (s : State) (e : Effect)
  deriving Repr

/-- A wait that begins now; its number orders the waits of one granule (R143). (DEDUCED, log 45) -/
def waitFor (s : State) (k : WaitKind) (i : Instr) (limit : Nat) : MRes :=
  .wait { s with uids := s.uids + 1 } ⟨k, i, s.uids, limit, [], s.now, [], s.peers⟩

/-- A member's wait from the issue of its instruction: it keeps the tick, the definitions and the peer table it was issued
with (R133, R155, R308). -/
def Member.waits (m : Member) (s : State) (w : Wait) : Wait :=
  { w with issued := s.tickOf m.wg.core.die.val, fmts := m.wg.fmts }

/-- Open a window on a register that is written with latency `left` cycles still missing, then write it. -/
def Thread.writeFixed (t : Thread) (left : Nat) (w : RegWrite) : Thread :=
  let ws : List Window := if left = 0 then t.windows.filter (fun x => !(x.old.same w)) else ⟨t.undo w, left⟩ :: t.windows
  Thread.write { t with windows := ws } w

/-- Write a scoreboarded result: it closes every window of its register. -/
def Thread.writeLate (t : Thread) (w : RegWrite) : Thread :=
  Thread.write { t with windows := t.windows.filter (fun x => !(x.old.same w)) } w

/-- The cycles an instruction counts for (R40). -/
def stallOf (i : Instr) : Nat :=
  match commonOf? i with
  | some c => max c.stall.val 1
  | none => 1

/-- The member's thread after its instruction: results, flags, program counter, depth, parked bit and stall count. -/
def Thread.apply (t : Thread) (n : Nat) (e : Effect) : Thread :=
  let t : Thread := { t with stall := n, windows := ageWindows n t.windows [], wait := none }
  let t : Thread := match e.lat with
    | some l => (e.writes.foldl (fun t w => t.writeFixed (l - n) w) t).mergeFlags e.flags
    | none =>
      if e.writes.isEmpty && !e.flagged && !e.memory then t
      else { t with owed := t.owed ++ [Owed.mk e.writes e.flags e.flagged e.memory e.load e.queue e.tag] }
  { t with pc := e.next.getD (t.pc + 8), depth := e.depth.getD t.depth, parked := t.parked || e.park }

/-- The thread after an instruction it has waited at: its stall count has run since the issue (Table 3.1). -/
def Thread.resume (t : Thread) (n : Nat) (e : Effect) : Thread := { t.apply n e with stall := t.stall }

/-! ## The gate of a member (R112, R328, R36) -/

/-- The thread registers named are granted (REG_RANGE). -/
def regsGranted (i : Instr) (n : Nat) : Bool := ((uses i).vregs).all (granted n)

/-- The word checks of an instruction at a core, after decoding. -/
def checkCore (s : State) (i : Instr) (ctx nregs : Nat) : Except Code Unit :=
  if classOf i == .pontil then .error .illegalClass
  else if classOf i == .priv && !(s.isPriv ctx) then .error .privInstr
  else if !i.wf then .error .illegalField
  else if !(regsGranted i nregs) then .error .regRange
  else .ok ()

/-- The guard reads a predicate inside a short window. -/
def Thread.guardShort (t : Thread) (i : Instr) : Bool :=
  match commonOf? i with
  | some ⟨_, .pred k _⟩ => t.pShort k
  | _ => false

/-- The member reads a register or predicate inside a short window. -/
def Member.readsShort (m : Member) (i : Instr) : Bool :=
  (m.ownReads i).any m.t.vShort || (uses i).psrc.any m.t.pShort

/-- Whether the member performs the instruction, passes it with a false guard, or raises a code. -/
def gate (s : State) (m : Member) (i : Instr) : Except Code Bool :=
  match checkCore s i m.wg.ctx m.wg.nregs with
  | .error c => .error c
  | .ok _ =>
    let checked := s.isChecked m.wg.ctx
    if checked && m.t.guardShort i then .error .stallShort
    else if m.t.guardPoisoned i then .error .memPoison
    else if !(m.t.guardOk i) then .ok false
    else if checked && m.readsShort i then .error .stallShort
    else if m.poisonRead i then .error .memPoison
    else .ok true

/-- One member's part of a gang's instruction. -/
def stepMember (i : Instr) (body : Member → State → MRes) (s : State) (m : Member) : State :=
  match gate s m i with
  | .error c => takeTrap s m.wg.uid m.t.tid c m.t.pc
  | .ok false => s.modThread m.wg.uid m.t.tid (fun t => t.apply (stallOf i) {})
  | .ok true => match body m s with
    | .trap c d => takeTrap s m.wg.uid m.t.tid c d
    | .wait s w => s.modThread m.wg.uid m.t.tid (fun t => { t with wait := some (m.waits s w), stall := stallOf i })
    | .done s e => s.modThread m.wg.uid m.t.tid (fun t => t.apply (stallOf i) e)

/-- The members of a gang in ascending home lane. -/
def membersOf (g : Workgroup) (tids : List Nat) : List Member :=
  (List.range 32).filterMap (fun l =>
    (g.threads.find? (fun t => t.lane == l && tids.contains t.tid)).map (fun t => ⟨g, t, tids⟩))

/-- An instruction that a gang has issued acts for each member (R36). With no gang of a resident workgroup on issue it
has no effect: so ends the gang of issue slot 1 whose workgroup slot 0's gang has saved (DESIGN CHOICE, log 54). -/
def runGang (i : Instr) (body : Member → State → MRes) (s : State) : State :=
  match s.issue with
  | .gang u tids :: rest =>
    let s := { s with issue := rest }
    match s.wg? u with
    | none => s
    | some g =>
      let ms := membersOf g tids
      let s := traceGang s g (ms.map (·.t)) i
      traceRaised s (ms.foldl (stepMember i body) s) u
  | _ => s

/-- A wait that goes on: of another kind it has a number and a limit of its own. -/
def Wait.again (w w' : Wait) : Wait :=
  if w'.kind = w.kind then w else { w' with issued := w.issued, fmts := w.fmts, peers := w.peers }

/-- A wait ends or goes on: the instruction's meaning is tried again for the thread that waits at it, with the definitions
and the peer table of its issue. -/
def retryWait (kind : WaitKind → Bool) (body : Instr → Member → State → MRes) (t : ThreadId) (s : State) : State :=
  match s.wg? t.wg with
  | none => s
  | some g => match g.thread? t.tid with
    | none => s
    | some th => match th.wait with
      | none => s
      | some w =>
        if kind w.kind then
          match body w.instr ⟨{ g with fmts := w.fmts }, th, [th.tid]⟩ { s with peers := w.peers } with
          | .trap c d => traceRaised s (takeTrap s t.wg t.tid c d) t.wg
          | .wait s' w' => { s' with peers := s.peers }.modThread t.wg t.tid (fun x => { x with wait := some (w.again w') })
          | .done s' e => { s' with peers := s.peers }.endGang.modThread t.wg t.tid (fun t => t.resume (stallOf w.instr) e)
        else s

/-- The start of the 64-byte fetch block of an address (R98, R102). -/
def blockStart (pc : Word) : Word := BitVec.ofNat 64 (pc.toNat / 64 * 64)

/-- An operand is taken across lanes, so the result is scoreboarded (R107). -/
def crossedOf (m : Mods) : Bool :=
  match m with
  | .cross _ _ _ => true
  | .source _ => false

/-- A member that only has a result of fixed latency. -/
def fixed (s : State) (l : Nat) (writes : List RegWrite) : MRes := .done s { lat := some l, writes }

/-- A member with a scoreboarded result. -/
def late (s : State) (writes : List RegWrite) : MRes := .done s { writes }

/-- A member with the scoreboarded results of a lane instruction, for which s.fflags waits (R118). -/
def lateLane (s : State) (writes : List RegWrite) : MRes := .done s { writes, flagged := true }

/-! ## Pontil contexts (R172, R173, R190) -/

def State.pontil? (s : State) (p : PontilId) : Option Pontil := s.pontils.find? (fun x => x.id == p)

def State.setPontil (s : State) (p : Pontil) : State := { s with pontils := upsert (fun x => x.id == p.id) p s.pontils }

/-- A context that has never been started (engst reports it free). -/
def Pontil.idle (id : PontilId) : Pontil :=
  { id, state := .free, pc := 0, q := [], lc := [], loops := [], cw := 0, phi := 0, flags := 0, code := 0, fmts := []
    rdv := 0, rbind := 0, relem := 0, rtid := 0, scope := .cluster, wg := 0, tiles := [], esp := [], restored := none, wait := none
    view := .empty, drained := .empty }

def Pontil.getQ (p : Pontil) (r : QReg) : Word := p.q.getD r.val 0
def Pontil.setQ (p : Pontil) (r : QReg) (x : Word) : Pontil := { p with q := setAt p.q r.val x }

/-- An offset register of a pontil word; none reads zero (R192). -/
def Pontil.offset (p : Pontil) (r : Option QReg) : Word :=
  match r with
  | some q => p.getQ q
  | none => 0

/-- The guard on cw (R100). -/
def Pontil.guardOk (p : Pontil) (i : Instr) : Bool :=
  match commonOf? i with
  | some ⟨_, .pred k neg⟩ => p.cw.getLsbD k.val != neg
  | _ => true

/-- The loop walk of R190 after the instruction at `at'`: where execution goes, the counters and the loops still
active. -/
def loopWalk (at' : Word) : List Loop → List (BitVec 32) → Option Word × List (BitVec 32) × List Loop
  | [], lc => (none, lc, [])
  | l :: ls, lc =>
    if l.last = at' then
      let c := lc.getD l.lc.val 0 - 1
      let lc := setAt lc l.lc.val c
      if c ≠ 0 then (some l.first, lc, l :: ls) else loopWalk at' ls lc
    else (none, lc, l :: ls)

/-- A pontil instruction at the context's program counter has completed without a taken branch. -/
def Pontil.advance (p : Pontil) : Pontil :=
  let r := loopWalk p.pc p.loops p.lc
  { p with pc := r.1.getD (p.pc + 8), lc := r.2.1, loops := r.2.2 }

/-- How a pontil instruction ends. `p` of `done` carries its results, and the program counter of a taken branch. -/
inductive PRes where
  | stop (c : Code) (detail : Word)
  | wait (s : State) (p : Pontil)
  | done (s : State) (p : Pontil) (taken : Bool)
  deriving Repr

/-- A launch's first code of class E that reaches its record (R274). -/
def endLaunch (s : State) (l : Nat) (c : Code) : State :=
  s.modLaunch l (fun x => match x.code with
    | some _ => x
    | none => { x with code := some c, codeAt := s.now })

/-- The launch, context and launch block of a workgroup number: resident, or of a pontil that runs on for it. -/
def State.launchOfWg (s : State) (u : Nat) : Option Launch :=
  match s.wg? u with
  | some g => s.launch? g.launch
  | none => none

/-- The binder of a pontil context: its forking workgroup's bindings, b63 empty (R170). -/
def binderOfPontil (s : State) (p : Pontil) : Binder :=
  match s.wg? p.wg with
  | some g => match s.launch? g.launch with
    | some l => ⟨.pontil p.id, g.ctx, l.block, none⟩
    | none => ⟨.pontil p.id, g.ctx, 0, none⟩
  | none => ⟨.pontil p.id, 64, 0, none⟩

/-! ## Objects in memory: one indivisible step at the home slice or the bank (R153, R158, R163) -/

/-- Read an object's bytes in one step at its point: its contents, the releases of the writes read and those it
continues; an object of another module has free contents (DESIGN CHOICE, log 16). -/
def readObject (s : State) (agent : Actor) (v : MemView) (ps : List Place) : Nat × List Rel × List Rel × State × MemView :=
  if anyAway ps then
    let n := 2 ^ (8 * ps.length)
    ((s.pick n).1, [], [], (s.pick n).2, v)
  else
    let r := readPart s agent v (.atPoint .home) ps
    (ofBytes r.1, r.2.1, inherited r.2.2.1 .home r.2.2.2 (ps.filterMap Place.loc?), r.2.2.1, r.2.2.2)

/-- The bytes of a step at their places: the bits of `x` that the mask names, over the latest ones of each byte; bytes without
such bits are not written. -/
def maskedBytes (s : State) (ps : List Place) (mask x : Nat) : List (Place × Byte) :=
  ((List.range ps.length).zip (ps.zip (latestBytes s ps))).filterMap (fun p =>
    let m := natField mask (8 * p.1) 8
    if m = 0 then none
    else some (p.2.1, BitVec.ofNat 8 ((p.2.2.toNat &&& (255 - m)) ||| (natField x (8 * p.1) 8 &&& m))))

/-- Write the bits of an object that a mask names in the same step, with the releases that a reader of it may acquire. -/
def writeObject (s : State) (agent : Actor) (v : MemView) (ps : List Place) (mask x : Nat) (rels : List Rel)
    (release : Option Rel) : State × MemView :=
  writePart s ⟨agent, some .home, true, rels, release⟩ v (maskedBytes s ps mask x)

/-- Every bit of `n` bytes. -/
def wholeMask (n : Nat) : Nat := 2 ^ (8 * n) - 1

/-- A barrier object (Table 8.6). -/
def barPend (o : Nat) : Nat := natField o 0 32
def barExp (o : Nat) : Nat := natField o 32 32
def barBytes (o : Nat) : Nat := natField o 64 48
def barPhase (o : Nat) : Bool := o.testBit 127

/-- The object with its fields changed; bits 126:112 keep what they hold. -/
def barMake (o pend exp bytes : Nat) (ph : Bool) : Nat :=
  pend % 2 ^ 32 + exp % 2 ^ 32 * 2 ^ 32 + bytes % 2 ^ 48 * 2 ^ 64 + natField o 112 15 * 2 ^ 112 + bitOf ph * 2 ^ 127

/-- PEND, BYTES and PH, which arrivals and completions write (R153). -/
def barMask : Nat := (2 ^ 32 - 1) + (2 ^ 48 - 1) * 2 ^ 64 + 2 ^ 127

/-- complete_if_done (R154). -/
def barSettle (o : Nat) : Nat :=
  if barPend o = 0 ∧ barBytes o = 0 then barMake o (barExp o) (barExp o) 0 (!(barPhase o)) else o

/-- One arrival with `n` transfer bytes: none when PEND is 0 (BARRIER_OVER). -/
def barArrive (o n : Nat) : Option Nat :=
  if barPend o = 0 then none
  else some (barSettle (barMake o (barPend o - 1) (barExp o) (barBytes o + n) (barPhase o)))

/-- An engine subtracts the bytes it moved. -/
def barSubtract (o n : Nat) : Nat :=
  barSettle (barMake o (barPend o) (barExp o) (barBytes o + (2 ^ 48 - n % 2 ^ 48)) (barPhase o))

/-- After a write of an object at a domain address: its lines have been modified, at the home slice. -/
def noteObject (s : State) (va : Nat) (ps : List Place) : State := noteStores s (heldAt va) .back va ps

/-- A read-modify-write of a barrier object in one step, as a release of `agent` at `sc`: its contents before; none when `f`
gives none, and then nothing has changed. -/
def objectStep (s : State) (agent : Actor) (sc : Scope) (v : MemView) (va : Nat) (ps : List Place) (f : Nat → Option Nat) :
    Option (Nat × State × MemView) :=
  let r := readObject s agent v ps
  match f r.1 with
  | none => none
  | some x =>
    let w := writeObject r.2.2.2.1 agent r.2.2.2.2 ps barMask x (r.2.2.1 ++ v.fences) (some (relOf s agent sc v))
    some (r.1, noteObject w.1 va ps, w.2)

/-- The places of the 16 bytes of a barrier object at a domain virtual address. -/
def barrierPlaces (s : State) (ctx va : Nat) : Option (List Place × State) :=
  match places s ctx va 16 with
  | .ok r => some r
  | .error _ => none

/-- The buffer context of a pontil context's workgroup. -/
def Pontil.bufferCtx (s : State) (p : Pontil) : Nat :=
  match s.wg? p.wg with
  | some g => g.ctx
  | none => 64

/-- What an arrival on the rendezvous object of a context waits for (R280, R307, R310, R322). -/
def arrivalBlocked (s : State) (p : Pontil) : Option State :=
  if addrWaits s p.rdv.toNat then some s
  else match barrierPlaces s (p.bufferCtx s) p.rdv.toNat with
    | none => none
    | some (ps, s) => blocked s true ps

/-- An engine's completion on an object (R154): it subtracts its bytes as its release. An object whose page is lost
receives nothing. -/
def completeOn (s : State) (agent : Actor) (sc : Scope) (v : MemView) (ctx va n : Nat) : State :=
  match barrierPlaces s ctx va with
  | none => s
  | some (ps, s) => match objectStep (notePage s agent.die? va) agent sc v va ps (fun o => some (barSubtract o n)) with
    | some (_, s, _) => s
    | none => s

/-- All that a context has seen or written, its drains included (R191). -/
def Pontil.allView (p : Pontil) : MemView :=
  { p.view with floor := floorJoin p.view.floor p.drained.floor, uo := unionOf p.view.uo p.drained.uo }

/-- What a pontil must see after an access that saw and released everything: not what its drains wrote (R213). -/
def arrivedView (p : Pontil) (v : MemView) : MemView :=
  { v with
      floor := floorJoin p.view.floor (v.floor.filter (fun x => !(p.drained.floor.any (fun d => d.1 == x.1))))
      uo := v.uo.filter (fun i => !(p.drained.uo.contains i)) }

/-- Release a context's writes to UO pages at a scope, those of its drains too. -/
def releaseDrained (s : State) (p : Pontil) (sc : Scope) : State × Pontil :=
  let f := releaseUo s (.pontil p.id) sc p.view
  let d := releaseUo f.1 (.pontil p.id) sc p.drained
  (d.1, { p with view := f.2, drained := d.2 })

/-! ## What a launch's completion releases (R243) -/

/-- The latest writes of an agent itself, from write number `since` on, for what its launch's completion releases
(R243). -/
def ownFloor (s : State) (agent : Actor) (since : Nat) : List (Nat × Nat) :=
  (s.hist.filter (fun r => r.agent.same agent && decide (since ≤ r.id))).foldl
    (fun f r => r.cells.foldl (fun f c => floorSet f c.loc r.id) f) []

/-- What an agent has performed for a launch is released by the completion of that launch. -/
def noteExit (s : State) (launch : Nat) (agent : Actor) : State :=
  s.modLaunch launch (fun l => { l with
    exits := floorJoin l.exits (ownFloor s agent l.since)
    exitTicks := match agent.die? with
      | some d => floorSet l.exitTicks d s.now
      | none => l.exitTicks })

/-- One arrival of a pontil on its rendezvous object as a release at the fork's scope of every write it has performed,
drains included (R191), or the code it raises. -/
def pontilArrive (s : State) (p : Pontil) : Option Code × State × Pontil :=
  match barrierPlaces s (p.bufferCtx s) p.rdv.toNat with
  | none => (some .leaseLost, s, p)
  | some (ps, s) =>
    if anyPoison s ps then (some .memPoison, s, p)
    else
      let f := releaseDrained (notePage s (some p.id.die.val) p.rdv.toNat) p p.scope
      match objectStep f.1 (.pontil p.id) p.scope f.2.allView p.rdv.toNat ps (fun o => barArrive o 0) with
      | some (_, s, v) => (none, s, { f.2 with view := arrivedView f.2 v })
      | none => (some .barrierOver, s, p)

/-- The DETAIL of a code that an arrival raises (Table 19.3). -/
def arrivalDetail (p : Pontil) (c : Code) : Word := if c = .memPoison then p.rdv else p.pc

/-- The arrival of a context that stops; where it waits, it is owed. -/
def arriveOrOwe (s : State) (p : Pontil) : State × Pontil :=
  match arrivalBlocked s p with
  | some s => ({ s with arrivals := s.arrivals ++ [p] }, p)
  | none => (pontilArrive s p).2

/-! ## The end of a workgroup (R37, R168, R173, R242) -/

/-- A routine of the workgroup that runs. -/
def runsFor (u : Nat) (p : Pontil) : Bool := p.wg == u && p.state == .running

/-- A workgroup whose threads have exited and whose routines have ended leaves its core; a context stopped for it is no
longer associated with it (R173). -/
def tryEnd (s : State) (u : Nat) : State :=
  match s.wg? u with
  | none => s
  | some g =>
    if g.threads.any (·.live) || s.pontils.any (runsFor u) then s
    else
      let s := s.modLaunch g.launch (fun l => { l with ended := l.ended + 1 })
      { s with
          workgroups := s.workgroups.filter (fun h => h.uid != u)
          pontils := s.pontils.map (fun p => if p.wg = u then { p with wg := 2 ^ 64 } else p) }

/-- R173: a pontil context that raises a code stops at the instruction and makes one arrival; a code of class E ends the
launch of its forking workgroup. (DESIGN CHOICE, log 51) -/
def stopPontil (s : State) (p : Pontil) (c : Code) (detail : Word) : State :=
  let r := arriveOrOwe s p
  let f := releaseDrained r.1 r.2 .system
  let s := f.1.setPontil { f.2 with state := .stopped, code := codeNumber c, wait := none }
  let (ctx, wgh, launch) := match s.wg? p.wg with
    | some g => (g.ctx, g.handle s.mode, g.launch)
    | none => (0, 0, 0)
  let s := noteExit (s.emit (pontilUnit p.id) 1 p.id.die.val (codeNumber c) ctx wgh detail.toNat) launch (.pontil p.id)
  tryEnd (match codeClass c with
  | .ends => endLaunch s launch c
  | _ => s) p.wg

/-- The word checks of an instruction at a pontil context. -/
def checkPontil (i : Instr) : Except Code Unit :=
  if !(classOf i == .pontil || classOf i == .shared) then .error .illegalClass
  else if !i.wf then .error .illegalField
  else .ok ()

/-- The peer table of a context's instruction: that of its issue (R308). -/
def Pontil.peersOf (s : State) (p : Pontil) : List PeerEntry :=
  match p.wait with
  | some w => w.peers
  | none => s.peers

/-- A context that waits at its instruction for a path, a die or a frame makes it again in a later turn. -/
def Pontil.waitsAt (p : Pontil) (i : Instr) (peers : List PeerEntry) : Pontil :=
  { p with wait := some (p.wait.getD ⟨i, [], [], true, peers⟩) }

/-- A running context that may make its instruction: it does not wait, or waits for a path, a die or a frame. -/
def Pontil.goesOn (p : Pontil) : Bool := p.state == .running && p.wait.all (·.link)

/-- An instruction that a pontil context has issued. It acts only for a running context that does not wait. -/
def runPontil (i : Instr) (body : Pontil → State → PRes) (s : State) : State :=
  match s.issue with
  | .pontil id :: rest =>
    let s := { s with issue := rest }
    match s.pontil? id with
    | none => s
    | some p =>
      if !p.goesOn then s
      else
        let peers := p.peersOf s
        let p := { p with wait := none }
        match checkPontil i with
        | .error c => stopPontil s p c p.pc
        | .ok _ =>
          if !(p.guardOk i) then s.setPontil p.advance
          else match body p { s with peers } with
            | .stop c d => stopPontil s p c d
            | .wait z p => { z with peers := s.peers }.setPontil (p.waitsAt i peers)
            | .done z p true => { z with peers := s.peers }.setPontil p
            | .done z p false => { z with peers := s.peers }.setPontil p.advance
  | _ => s

/-- The workgroup whose gang is on issue. -/
def issuingWg (s : State) : Option Nat :=
  match s.issue with
  | .gang u _ :: _ => some u
  | _ => none

/-- The instruction both classes share (nop): by whoever has issued it. -/
def runShared (i : Instr) (body : Member → State → MRes) (pbody : Pontil → State → PRes) (s : State) : State :=
  match s.issue with
  | .pontil _ :: _ => runPontil i pbody s
  | _ => runGang i body s

/-- A class-M word issued on a core, or another on a pontil, raises its code through the runner of its issuer. -/
def runCore (i : Instr) (body : Member → State → MRes) (s : State) : State :=
  runShared i body (fun p s => .done s p false) s

def runMatrix (i : Instr) (body : Pontil → State → PRes) (s : State) : State :=
  runShared i (fun _ s => .done s {}) body s

end Machine
end Sys2Proof
end

