-- ==== Sys2Proof/Machine/Barriers.lean ====
section
/-! DEFINITION. Barrier objects (R153 to R156), the workgroup barrier (R157), notice boards (R158 to R160) and view masks
(R161). -/

namespace Sys2Proof
namespace Machine

/-! ## Objects named by a word -/

/-- An object that a binding and an element of f0 name: its binder, buffer, domain address and places. -/
structure ObjectAt where
  bd : Binder
  d : Bound
  va : Nat
  ps : List Place
  deriving DecidableEq, Repr

/-- An object of `words` words of f0 in a buffer that a binding grants: the checks of R72, the peer table, the alignment of
the address, and ORDER_KIND, which only a home die that is reached can find. -/
def objectIn (s : State) (bd : Binder) (d : Bound) (e : Int) (words : Nat) (need : Rights) (align : Nat) (bad : Code) :
    Except Code (ObjectAt × State) :=
  match checkSpan d (e * 64) (words * 64) need with
  | .error c => .error c
  | .ok _ => match checkPeers s d with
    | .error c => .error c
    | .ok _ =>
      let va := d.base + 8 * e.toNat
      if va % align ≠ 0 then .error bad
      else match places s bd.ctx va (8 * words) with
        | .error c => .error c
        | .ok (ps, s) => if anyUo ps || (farUo s va ps).1 then .error .orderKind else .ok (⟨bd, d, va, ps⟩, (farUo s va ps).2)

/-- The object that a binding and an element of f0 name. f0 is not bfloat16, so an alias raises SLOT_KIND, before the rest of
R72 (R66). -/
def objectAt (s : State) (bd : Binder) (bind : Nat) (e : Int) (words : Nat) (need : Rights) (align : Nat) (bad : Code) :
    Except Code (ObjectAt × State) :=
  match plainEntry s bd bind with
  | .error c => .error c
  | .ok (d, s) => objectIn s bd d e words need align bad

/-- A barrier object that a descriptor names (R168, R193). -/
def namedBarrier (s : State) (bd : Binder) (bind : Nat) (e : Int) : Except Code (ObjectAt × State) :=
  objectAt s bd bind e 2 { a := true } 16 .atomicAlign

/-- The object of a thread's word. -/
def objectOf (x : Member) (s : State) (m : MemOp) (words : Nat) (need : Rights) (align : Nat) (bad : Code) :
    Except Code (ObjectAt × State) :=
  objectAt s (binderOf s x.wg x.t) m.bind.val (elemIndex (x.t.readV m.ofsReg) m.ofs) words need align bad

/-- A barrier object of a thread's word (R154). -/
def barrierOf (x : Member) (s : State) (m : MemOp) : Except Code (ObjectAt × State) :=
  objectOf x s m 2 { a := true } 16 .atomicAlign

/-- An operation of a thread on an object, of which it reads the places `reads`: it waits for its path or its frame, or raises
MEM_POISON (R279) or a code of a far home die, or is performed. -/
def onObject (write : Bool) (reads : List Place) (x : Member) (i : Instr) (o : ObjectAt) (s : State) (k : State → MRes) : MRes :=
  if pathWaits s o.d then waitFor s .link i 0
  else if anyPoison s reads then .trap .memPoison (BitVec.ofNat 64 o.va)
  else match blocked s write o.ps with
    | some s => waitFor s .link i 0
    | none => match farCode s o.va o.ps (!reads.isEmpty) false with
      | (some c, _) => .trap c (if c = .memPoison then BitVec.ofNat 64 o.va else x.t.pc)
      | (none, s) => k (notePage s o.bd.agent.die? o.va)

/-- A write of an object that reads nothing of it, as a release (binit, nbinit). -/
def resetObject (s : State) (o : ObjectAt) (sc : Scope) (v : MemView) (ps : List Place) (x : Nat) : State × MemView :=
  let w := writeObject s o.bd.agent v ps (wholeMask ps.length) x v.fences (some (relOf s o.bd.agent sc v))
  (noteObject w.1 o.va ps, w.2)

/-! ## Barrier instructions -/

def bodyBinit (i : Instr) (d : VReg) (m : MemOp) (x : Member) (s : State) : MRes :=
  match barrierOf x s m with
  | .error c => .trap c x.t.pc
  | .ok (o, s) =>
    let n := (x.t.readV d).toNat
    if n = 0 ∨ 2 ^ 32 - 1 < n then .trap .barrierCount x.t.pc
    else onObject true [] x i o s (fun s =>
      let r := resetObject s o m.scope (s.viewOf x.wg.uid x.t.tid) o.ps (barMake 0 n n 0 false)
      .done (r.1.setView x.wg.uid x.t.tid r.2) {})

def execBinit (c : Common) (d : VReg) (m : MemOp) (s : State) : Out :=
  .next (runCore (.binit c d m) (bodyBinit (.binit c d m) d m) s)

def bodyBarr (i : Instr) (d : VReg) (m : MemOp) (x : Member) (s : State) : MRes :=
  match barrierOf x s m with
  | .error c => .trap c x.t.pc
  | .ok (o, s) =>
    let n := (x.t.readV d).toNat
    if 2 ^ 47 - 1 < n then .trap .barrierCount x.t.pc
    else onObject true o.ps x i o s (fun s =>
      match objectStep s o.bd.agent m.scope (s.viewOf x.wg.uid x.t.tid) o.va o.ps (fun w => barArrive w n) with
      | none => .trap .barrierOver x.t.pc
      | some (_, s, v) => .done (s.setView x.wg.uid x.t.tid v) {})

def execBarr (c : Common) (d : VReg) (m : MemOp) (s : State) : Out :=
  .next (runCore (.barr c d m) (bodyBarr (.barr c d m) d m) s)

/-- The tick at which a barrier wait times out, counted from the tick of its issue: none for a limit of 2^63 − 1 (R155). -/
def bwaitDeadline (s : State) (x : Member) (w : Word) : Nat :=
  let limit := wordField w 0 63
  let issued := match x.t.wait with
    | some y => y.issued
    | none => s.tickOf x.wg.core.die.val
  if limit = 2 ^ 63 - 1 then 2 ^ 80 else issued + limit

/-- bwait reads the object: completed, timed out when `expired`, or waiting (R155). -/
def bodyBwait (i : Instr) (d : VReg) (m : MemOp) (expired : Bool) (x : Member) (s : State) : MRes :=
  match barrierOf x s m with
  | .error c => .trap c x.t.pc
  | .ok (o, s) => onObject false o.ps x i o s (fun s =>
    let w := x.t.readV d
    let r := readObject s o.bd.agent (s.viewOf x.wg.uid x.t.tid) o.ps
    let ph := barPhase r.1
    let s := r.2.2.2.1
    if ph != wordBit w 63 then
      let a := takeRels s o.bd.agent m.scope true r.2.1 r.2.2.2.2
      .done (a.1.setView x.wg.uid x.t.tid a.2)
        { writes := [.v d (BitVec.ofNat 64 (bitOf ph * 2 ^ 63 + 1))], memory := true }
    else if expired || wordField w 0 63 == 0 then
      .done (s.setView x.wg.uid x.t.tid r.2.2.2.2)
        { writes := [.v d (BitVec.ofNat 64 (bitOf ph * 2 ^ 63 + 2))], memory := true }
    else waitFor s .barrier i (bwaitDeadline s x w))

def execBwait (c : Common) (d : VReg) (m : MemOp) (s : State) : Out :=
  .next (runCore (.bwait c d m) (bodyBwait (.bwait c d m) d m false) s)

/-! ## The workgroup barrier (R157) -/

/-- A thread waits at a bsync. -/
def atBsync (t : Thread) : Bool :=
  match t.wait with
  | some w => w.kind == .bsync
  | none => false

/-- Every live thread waits at a bsync: each departs having seen what every arrival released. -/
def settleBsync (s : State) (u : Nat) : State :=
  match s.wg? u with
  | none => s
  | some g =>
    let live := g.threads.filter (·.live)
    if live.isEmpty || !(live.all atBsync) then s
    else
      let seen := live.foldl (fun f t => floorJoin f t.view.floor) []
      let uo := live.foldl (fun u t => unionOf u t.view.uo) []
      s.setWg { g with threads := g.threads.map (fun t => match t.live, t.wait with
        | true, some w => Thread.resume { t with view := { t.view with floor := seen, uo } } (stallOf w.instr) {}
        | _, _ => t) }

/-- The workgroup's barrier after a gang. -/
def settleIssued (u : Option Nat) (s : State) : State :=
  match u with
  | some u => settleBsync s u
  | none => s

def execBsync (c : Common) (s : State) : Out :=
  .next (settleIssued (issuingWg s) (runCore (.bsync c) (fun _ s => waitFor s .bsync (.bsync c) 0) s))

/-! ## Notice boards -/

/-- Bytes of a board, and the places of slot `k` (Table 8.8). -/
def boardBytes (d : Bound) : Nat := 16 + 16 * d.slots
def slotPlaces (ps : List Place) (k : Nat) : List Place := (ps.drop (16 + 16 * k)).take 12
def levelPlaces (ps : List Place) : List Place := ps.take 4

/-- The checks of R159, in order; `k` is the slot of nbpost and nbget. A board on a UO page raises BOARD_KIND, which comes before the
ORDER_KIND of R78 (Table 8.10). -/
def boardOf (x : Member) (s : State) (bind : Fin 64) (k : Option Int) : Except Code (ObjectAt × State) :=
  let bd := binderOf s x.wg x.t
  match bindingEntry s bd bind.val with
  | .error c => .error c
  | .ok (d, s) =>
    if !d.board || inWindow d.base then .error .boardKind
    else match checkPeers s d with
      | .error c => .error c
      | .ok _ => match places s bd.ctx d.base (boardBytes d) with
        | .error c => .error c
        | .ok (ps, s) =>
          let header := ofBytes (((ps.take 8).filterMap Place.loc?).map s.peek)
          if anyUo ps || (farUo s d.base ps).1 || (!(anyAway ps) && natField header 32 9 != d.slots) then .error .boardKind
          else
            let inside := match k with
              | none => decide (boardBytes d ≤ d.len)
              | some k => decide (0 ≤ k ∧ k < d.slots)
            if !inside then .error .bounds
            else if !d.a then .error .rights
            else .ok (⟨bd, d, d.base, ps⟩, (farUo s d.base ps).2)

/-- The view after a post: the slots with a level (R159). -/
def boardView (board slots : Nat) : ViewMask :=
  BitVec.ofNat 256 (((List.range slots).map (fun j =>
    bitOf (natField board (128 * j + 192) 32 != 0) * 2 ^ j)).foldl (· + ·) 0)

/-- A post in one step at the home slice: the level and the view; none when the level counter is full. -/
def boardPost (s : State) (o : ObjectAt) (sc : Scope) (v : MemView) (k : Nat) (val : Word) :
    Option (Nat × ViewMask × State × MemView) :=
  let r := readObject s o.bd.agent v o.ps
  let level := natField r.1 0 32
  if level = 2 ^ 32 - 1 then none
  else
    let lvl := level + 1
    let a := takeRels r.2.2.2.1 o.bd.agent sc true r.2.1 r.2.2.2.2
    let rel := relOf a.1 o.bd.agent sc a.2
    let dst := levelPlaces o.ps ++ slotPlaces o.ps k
    let w := writeObject a.1 o.bd.agent a.2 dst (wholeMask 16) (lvl + 2 ^ 32 * (val.toNat + 2 ^ 64 * lvl)) (r.2.2.1 ++ a.2.fences)
      (some rel)
    let old := natField r.1 (128 * k + 192) 32
    let view := boardView (r.1 + (lvl - old) * 2 ^ (128 * k + 192)) o.d.slots
    some (lvl, view, noteObject (noteObject w.1 o.va (levelPlaces o.ps)) (o.va + 16 + 16 * k) (slotPlaces o.ps k), w.2)

def bodyNbpost (i : Instr) (k : VmReg) (d : VReg) (m : MemOp) (x : Member) (s : State) : MRes :=
  let e := elemIndex (x.t.readV m.ofsReg) m.ofs
  match boardOf x s m.bind (some e) with
  | .error c => .trap c x.t.pc
  | .ok (o, s) => onObject true o.ps x i o s (fun s =>
    match boardPost s o m.scope (s.viewOf x.wg.uid x.t.tid) e.toNat (x.t.readV d) with
    | none => .trap .boardFull x.t.pc
    | some (lvl, view, s, v) =>
      .done (s.setView x.wg.uid x.t.tid v) { writes := [.v d (BitVec.ofNat 64 lvl), .vm k view], memory := true })

def execNbpost (c : Common) (k : VmReg) (d : VReg) (m : MemOp) (s : State) : Out :=
  .next (runCore (.nbpost c k d m) (bodyNbpost (.nbpost c k d m) k d m) s)

def bodyNbget (i : Instr) (d : VReg) (m : MemOp) (x : Member) (s : State) : MRes :=
  let e := elemIndex (x.t.readV m.ofsReg) m.ofs
  match boardOf x s m.bind (some e) with
  | .error c => .trap c x.t.pc
  | .ok (o, s) => onObject false (o.ps.take 8 ++ slotPlaces o.ps e.toNat) x i o s (fun s =>
    let r := readObject s o.bd.agent (s.viewOf x.wg.uid x.t.tid) (slotPlaces o.ps e.toNat)
    let a := takeRels r.2.2.2.1 o.bd.agent m.scope true r.2.1 r.2.2.2.2
    .done (a.1.setView x.wg.uid x.t.tid a.2)
      { writes := [.v d (BitVec.ofNat 64 (natField r.1 0 64)), .v (d + 1) (BitVec.ofNat 64 (natField r.1 64 32))]
        memory := true })

def execNbget (c : Common) (d : VReg) (m : MemOp) (s : State) : Out :=
  .next (runCore (.nbget c d m) (bodyNbget (.nbget c d m) d m) s)

/-- The bytes nbinit leaves: LEVEL, VAL, LVL and the reserved bits zero, SLOTS kept (R158). -/
def bodyNbinit (i : Instr) (bind : Fin 64) (sc : Scope) (x : Member) (s : State) : MRes :=
  match boardOf x s bind none with
  | .error c => .trap c x.t.pc
  | .ok (o, s) => onObject true (o.ps.take 8) x i o s (fun s =>
    let r := resetObject s o sc (s.viewOf x.wg.uid x.t.tid) o.ps (o.d.slots * 2 ^ 32)
    .done (r.1.setView x.wg.uid x.t.tid r.2) {})

def execNbinit (c : Common) (bind : Fin 64) (sc : Scope) (s : State) : Out :=
  .next (runCore (.nbinit c bind sc) (bodyNbinit (.nbinit c bind sc) bind sc) s)

/-! ## View masks (Table 8.9) -/

def execVmcnt (c : Common) (d : VReg) (a : VmReg) (s : State) : Out :=
  .next (runCore (.vmcnt c d a) (fun x s =>
    late s [.v d (BitVec.ofNat 64 ((List.range 256).filter (fun j => (x.t.getVm a).getLsbD j)).length)]) s)

def execVmtest (c : Common) (d : PReg) (a : VmReg) (b : VReg) (s : State) : Out :=
  .next (runCore (.vmtest c d a b) (fun x s => late s [.p d ((x.t.getVm a).getLsbD (x.t.readV b).toNat)]) s)

def vmValue (t : VmOp) (a b : ViewMask) : ViewMask :=
  match t with
  | .and => a &&& b
  | .or => a ||| b
  | .andn => a &&& ~~~b
  | .xor => a ^^^ b

def execVmop (c : Common) (d a b : VmReg) (t : VmOp) (s : State) : Out :=
  .next (runCore (.vmop c d a b t) (fun x s => late s [.vm d (vmValue t (x.t.getVm a) (x.t.getVm b))]) s)

def execVmffs (c : Common) (d : VReg) (a : VmReg) (s : State) : Out :=
  .next (runCore (.vmffs c d a) (fun x s =>
    late s [.v d (BitVec.ofNat 64 ((findBelow 256 (fun j => (x.t.getVm a).getLsbD j)).getD 256))]) s)

def execVmget (c : Common) (d : VReg) (a : VmReg) (i : Fin 4) (s : State) : Out :=
  .next (runCore (.vmget c d a i) (fun x s => late s [.v d ((x.t.getVm a).extractLsb' (64 * i.val) 64)]) s)

/-- Bits 64i + 63 : 64i of a view mask replaced. -/
def vmPut (m : ViewMask) (i : Nat) (w : Word) : ViewMask :=
  BitVec.ofNat 256 (m.toNat - natField m.toNat (64 * i) 64 * 2 ^ (64 * i) + w.toNat * 2 ^ (64 * i))

def execVmset (c : Common) (d : VmReg) (a : VReg) (i : Fin 4) (s : State) : Out :=
  .next (runCore (.vmset c d a i) (fun x s => late s [.vm d (vmPut (x.t.getVm d) i.val (x.t.readV a))]) s)

end Machine
end Sys2Proof
end

