-- ==== Sys2Proof/Machine/Spans.lean ====
section
/-! DEFINITION. Reading and writing spans of domain addresses by an agent that names them directly: records, launch blocks,
descriptors, lehr images, the bytes of host commands. Each aligned 8-byte word is one access (R75). -/

namespace Sys2Proof
namespace Machine

/-- What a read of a span gives: its bytes, the releases read, the state and the view. -/
structure SpanRead where
  bytes : List Byte
  rels : List Rel
  s : State
  v : MemView

/-- Read words in order, one access each. -/
def readWords (s : State) (agent : Actor) (v : MemView) (mode : ReadMode) : List (List Place) → SpanRead
  | [] => ⟨[], [], s, v⟩
  | ps :: rest =>
    let r := readPart s agent v mode ps
    let q := readWords r.2.2.1 agent r.2.2.2 mode rest
    ⟨r.1 ++ q.bytes, r.2.1 ++ q.rels, q.s, q.v⟩

/-- Read `n` bytes at a domain address. -/
def readSpan (s : State) (agent : Actor) (ctx : Nat) (v : MemView) (mode : ReadMode) (va n : Nat) : Except Code SpanRead :=
  match places s ctx va n with
  | .error c => .error c
  | .ok (ps, s) => .ok (readWords (noteLines s agent va ps) agent v mode (cutWords va ps []))

/-- Write bytes at a domain address; nothing is written when a byte is on no mapped page. -/
def writeSpan (s : State) (w : Writer) (ctx : Nat) (v : MemView) (reach : Reach) (va : Nat) (bytes : List Byte) :
    Except Code (State × MemView) :=
  match places s ctx va bytes.length with
  | .error c => .error c
  | .ok (ps, s) => .ok (writeAt s w v reach va ps bytes)

/-- Write bytes at a domain address at once, on UO pages as after a release at system scope. -/
def writeNow (s : State) (w : Writer) (ctx : Nat) (va : Nat) (bytes : List Byte) : State :=
  match writeSpan s w ctx .empty .back va bytes with
  | .ok (s, v) => (releaseUo s w.agent .system v).1
  | .error _ => s

/-- The releases that a reader of the latest writes of these places may acquire. -/
def latestRels (s : State) (ps : List Place) : List Rel :=
  (ps.filterMap Place.loc?).foldl (fun acc l => match s.lastRecord? l with
    | some r => unionOf acc r.rels
    | none => acc) []

/-- What an agent sees that has acquired these releases. -/
def MemView.ofRels (rels : List Rel) : MemView :=
  { MemView.empty with floor := rels.foldl (fun f r => floorJoin f r.floor) [], uo := rels.foldl (fun u r => unionOf u r.uo) [] }

/-- Some page of `n` bytes at a domain address waits. -/
def pagesWait (s : State) (ctx va n : Nat) : Bool :=
  spanWaits s false ctx (va + n - 1) 1 || (List.range (n / 65536 + 1)).any (fun k => spanWaits s false ctx (va + 65536 * k) 1)

/-- The buffer table of a context lies behind a path that is down, on a die under reset, or behind a port that is down. -/
def tableWaits (s : State) (ctx : Nat) : Bool :=
  match s.context? ctx with
  | some cx => cx.btlen != 0 && pagesWait s ctx cx.btbase.toNat (64 * cx.btlen)
  | none => false

/-- An event whose DETAIL the manual does not give: it is a free value (DESIGN CHOICE, log 7). -/
def State.emitFree (s : State) (unit kind die code ctx wgh : Nat) : State :=
  (s.pick (2 ^ 64)).2.emit unit kind die code ctx wgh (s.pick (2 ^ 64)).1

end Machine
end Sys2Proof
end

