-- ==== Sys2Proof/Machine/Fetch.lean ====
section
/-! DEFINITION. Fetching an instruction word from b62 (R39, R98, R114), the code a word that does not decode raises
(R112), and the placing of one word for the next step. -/

namespace Sys2Proof
namespace Machine

/-- The word at an offset of b62: any value it has held since the launch was accepted (R114). A code comes with the DETAIL
of its event (Table 19.3). -/
def fetchWord (s : State) (bd : Binder) (since : Nat) (pc : Word) : Except (Code × Word) (Word × State) :=
  match bindingEntry s bd 62 with
  | .error c => .error (c, pc)
  | .ok (d, s) => match checkSpan d (8 * pc.toNat) 64 {} with
    | .error c => .error (c, pc)
    | .ok _ => match checkPeers s d with
      | .error c => .error (c, pc)
      | .ok _ => match places s bd.ctx (d.base + pc.toNat) 8 with
        | .error c => .error (c, pc)
        | .ok (ps, s) =>
          if anyPoison s ps then .error (.memPoison, BitVec.ofNat 64 (d.base + pc.toNat))
          else
            let v : MemView := { MemView.empty with floor := (ps.filterMap Place.loc?).map (fun l => (l, since - 1)) }
            let r := readPart (notePage s bd.agent.die? (d.base + pc.toNat)) bd.agent v .fetch ps
            .ok (BitVec.ofNat 64 (ofBytes r.1), r.2.2.1)

/-- The fetch of a word waits for a path, a die or a port (R280, R307, R310). -/
def fetchWaits (s : State) (bd : Binder) (pc : Word) : Bool :=
  tableWaits s bd.ctx || (match bindingEntry s bd 62 with
  | .error _ => false
  | .ok (d, s) => (checkSpan d (8 * pc.toNat) 64 {}).isOk && spanWaits s false bd.ctx (d.base + pc.toNat) 8)

/-- The code of a word that does not decode, by the order of R112, on a core or on a pontil. -/
def wordCode (w : Word) (core priv : Bool) : Code :=
  let maj := wordField w 56 8
  let pontil := decide (0xB0 ≤ maj ∧ maj ≤ 0xBE)
  if (formatOf maj).isNone then .illegalOpcode
  else if (if core then pontil else !(pontil || maj == 1)) then .illegalClass
  else if decide (0xC0 ≤ maj) && !priv then .privInstr
  else if !(assignedSub w) then .illegalOpcode
  else .illegalField

/-- The first write after the acceptance of a workgroup's launch. -/
def sinceOf (s : State) (g : Workgroup) : Nat :=
  match s.launch? g.launch with
  | some l => l.since
  | none => 1

/-- The instruction a thread of a workgroup fetches at its program counter. -/
def fetchThread (s : State) (g : Workgroup) (t : Thread) : Except (Code × Word) (Instr × State) :=
  match fetchWord s (binderOf s g t) (sinceOf s g) t.pc with
  | .error c => .error c
  | .ok (w, s) => match decodeWord w with
    | .ok i => .ok (i, s)
    | .error _ => .error (wordCode w true (s.isPriv g.ctx), t.pc)

/-- The instruction a pontil context fetches. -/
def fetchPontil (s : State) (p : Pontil) : Except (Code × Word) (Instr × State) :=
  let since := match s.launchOfWg p.wg with
    | some l => l.since
    | none => 1
  match fetchWord s (binderOfPontil s p) since p.pc with
  | .error c => .error c
  | .ok (w, s) => match decodeWord w with
    | .ok i => .ok (i, s)
    | .error _ => .error (wordCode w false false, p.pc)

/-- What the head of the issue list does: an instruction to be performed, or the state in which its code has been
raised, or nothing. -/
def fetchIssue (s : State) : Except State (Instr × State) :=
  match s.issue with
  | [] => .error s
  | .gang u tids :: rest =>
    let gone := { s with issue := rest }
    match s.wg? u with
    | none => .error gone
    | some g => match membersOf g tids with
      | [] => .error gone
      | m :: ms =>
        if fetchWaits s (binderOf s g m.t) m.t.pc then .error gone
        else match fetchThread s g m.t with
        | .ok (i, s) => .ok (i, s)
        | .error c => .error (traceRaised gone ((m :: ms).foldl (fun s x => takeTrap s u x.t.tid c.1 c.2) gone) u)
  | .pontil id :: rest =>
    let gone := { s with issue := rest }
    match s.pontil? id with
    | none => .error gone
    | some p =>
      if !p.goesOn || fetchWaits s (binderOfPontil s p) p.pc then .error gone
      else match fetchPontil s p with
        | .ok (i, s) => .ok (i, s)
        | .error c => .error (stopPontil gone p c.1 c.2)

/-! ## Placing one word for the next step (DESIGN CHOICE, log 6) -/

/-- Bytes written with no agent and no history. -/
def placeBytes (m : List Host.Cell) (loc : Nat) (bs : List Byte) : List Host.Cell :=
  ((List.range bs.length).zip bs).foldl (fun m p => memPut m (loc + p.1) p.2) m

/-- A buffer table entry: r and x over 64 bytes of code at byte 8,192 of the SRAM of die 0, owner 0. -/
def placedEntry (module : BitVec 11) : Nat :=
  (module.toNat * 2 ^ 53 + windowBase + 8192) + 64 * 2 ^ 64 + 2 ^ 128 + 2 ^ 131 + 2 ^ 132

/-- A thread at program counter 0 with 255 registers of zeros. -/
def freshThread (tid nregs : Nat) (pc : Word) : Thread :=
  { tid, pc, depth := 0, parked := false, live := true, stall := 0, wait := none, regs := List.replicate nregs 0
    preds := List.replicate 7 false, vms := List.replicate 8 0, fflags := 0, windows := [], owed := [], trap := none
    view := .empty, poisoned := [] }

def placedWg : Workgroup :=
  { uid := 0, core := ⟨0, 0, 0⟩, slot := 0, ctx := 0, launch := 0, index := 0, size := 1, nregs := 255
    fmts := List.replicate 12 0, placed := 0, halted := false, disposed := false, formed := [], threads := [freshThread 0 255 0] }

def placedLaunch : Launch :=
  { uid := 0, addr := 0, ctx := 0, queue := 0
    record := 2 ^ 128 + 2 ^ 160 + 2 ^ 192 + 2 ^ 224 + 255 * 2 ^ 235, block := 0, since := 1, entry := 0, rels := []
    next := [1, 0, 0, 0], ended := 0, saved := [], marks := [], code := none, codeAt := 0, exits := [], exitTicks := [], joined := none, under := false }

def placedPontil : Pontil :=
  { Pontil.idle ⟨0, 0, 0⟩ with state := .running, q := List.replicate 32 0, lc := List.replicate 4 0
                               fmts := (List.range 16).map (fun k => if k < 4 then fixedSlot k else 0) }

/-- A word of a thread or a pontil stands where the next step fetches: a privileged context 0 with one buffer, a launch
of one thread, and the thread, or a routine of its workgroup, on issue. -/
def placeWord (s : State) (w : Word) (pontil : Bool) : State :=
  { s with
      mem := placeBytes (placeBytes s.mem (sramLoc 0 4096) (bytesOf (placedEntry s.module) 64)) (sramLoc 0 8192)
        (bytesOf w.toNat 8)
      contexts := [⟨0, 0, true, false, false, BitVec.ofNat 64 (s.module.toNat * 2 ^ 53 + windowBase + 4096), 1⟩]
      launches := [placedLaunch], workgroups := [placedWg]
      pontils := if pontil then [placedPontil] else []
      issue := [if pontil then .pontil ⟨0, 0, 0⟩ else .gang 0 [0]] }

end Machine
end Sys2Proof
end

