-- ==== Sys2Proof/Machine/Control.lean ====
section
/-! DEFINITION. Branches, calls and returns (R38, R39, R162), exit, trap and brk (R164 to R166), and the end of a workgroup
(R37, R168, R242). -/

namespace Sys2Proof
namespace Machine

/-! ## Branches -/

/-- The target of a direct branch (R102). -/
def branchTarget (pc : Word) (disp : BitVec 26) : Word := blockStart pc + disp.signExtend 64 <<< 6

/-- The link of a call. -/
def linkOf (pc : Word) : Word := blockStart pc + 64

/-- A taken branch to `t`; with Y it parks the thread unless it goes forward (R38). -/
def takeBranch (x : Member) (s : State) (t : Word) (y : Bool) : MRes :=
  .done s { next := some t, park := y && t.ule (blockStart x.t.pc) }

/-- A target from a register must be a multiple of 64 (R39). -/
def aligned (t : Word) : Bool := t.toNat % 64 == 0

def execBr (c : Common) (disp : BitVec 26) (y : Bool) (s : State) : Out :=
  .next (runCore (.br c disp y) (fun x s => takeBranch x s (branchTarget x.t.pc disp) y) s)

def execBri (c : Common) (a : VReg) (y : Bool) (s : State) : Out :=
  .next (runCore (.bri c a y) (fun x s =>
    if aligned (x.t.readV a) then takeBranch x s (x.t.readV a) y else .trap .branchAlign x.t.pc) s)

/-- A call to `t`: the link is a scoreboarded result. -/
def takeCall (x : Member) (s : State) (t : Word) : MRes :=
  if x.t.depth = 65535 then .trap .depthLimit x.t.pc
  else .done s { writes := [.v 0xFD (linkOf x.t.pc)], next := some t, depth := some (x.t.depth + 1) }

def execCall (c : Common) (disp : BitVec 26) (s : State) : Out :=
  .next (runCore (.call c disp) (fun x s => takeCall x s (branchTarget x.t.pc disp)) s)

def execCalli (c : Common) (a : VReg) (s : State) : Out :=
  .next (runCore (.calli c a) (fun x s =>
    if aligned (x.t.readV a) then takeCall x s (x.t.readV a) else .trap .branchAlign x.t.pc) s)

def execRet (c : Common) (a : VReg) (s : State) : Out :=
  .next (runCore (.ret c a) (fun x s =>
    if !(aligned (x.t.readV a)) then .trap .branchAlign x.t.pc
    else if x.t.depth = 0 then .trap .depthLimit x.t.pc
    else .done s { next := some (x.t.readV a), depth := some (x.t.depth - 1) }) s)

/-! ## The end of a workgroup -/

/-- exit: the thread is no longer live, its stores are performed, its loads are discarded (R164). Its program counter stays
at the exit (DEDUCED, log 20). -/
def bodyExit (x : Member) (s : State) : MRes :=
  let agent := (binderOf s x.wg x.t).agent
  let f := releaseUo s agent .system (s.viewOf x.wg.uid x.t.tid)
  let s := f.1.modThread x.wg.uid x.t.tid (fun t =>
    { t with live := false, view := f.2, owed := t.owed.filter (fun o => !o.load) })
  .done (noteExit s x.wg.launch agent) { next := some x.t.pc }

/-- After a gang of exits: a BSYNC may complete, the workgroup may end. -/
def settleExit (u : Option Nat) (s : State) : State :=
  match u with
  | some u => tryEnd (settleBsync s u) u
  | none => s

def execExit (c : Common) (s : State) : Out :=
  .next (settleExit (issuingWg s) (runCore (.exit c) bodyExit s))

def execTrap (c : Common) (k : BitVec 16) (s : State) : Out :=
  .next (runCore (.trap c k) (fun _ _ => .trap .programTrap (k.setWidth 64)) s)

def execBrk (c : Common) (s : State) : Out :=
  .next (runCore (.brk c) (fun x s => if s.isDebug x.wg.ctx then .trap .breakpoint x.t.pc else .done s {}) s)

end Machine
end Sys2Proof
end

