-- ==== Sys2Proof/Machine/Launches.lean ====
section
/-! DEFINITION. Continuation records and launches: acceptance (R232 to R237), leases (R261), queues (R238, R240),
completion and dependents (R243, R244), spawn and join (R163). -/

namespace Sys2Proof
namespace Machine

/-! ## Records, blocks and shares -/

/-- W (R234). -/
def recCount (r : Nat) : Nat := recGridX r * recGridY r * recGridZ r

/-- T, and S_d of R239. -/
def weightBelow (r d : Nat) : Nat := ((List.range d).map (recWt r)).foldl (· + ·) 0

/-- The linear indices of a die's share: from the first to below the second (R239). -/
def shareOf (r d : Nat) : Nat × Nat :=
  let t := weightBelow r 4
  (recCount r * weightBelow r d / t, recCount r * weightBelow r (d + 1) / t)

/-- Table 17.1: KIND 1, reserved fields zero, every field inside its column. -/
def recordOk (r : Nat) : Bool :=
  recKind r == 1 && natField r 38 2 == 0 && natField r 44 20 == 0 && natField r 243 13 == 0 && natField r 384 64 == 0 &&
  recLblk r % 64 == 0 && recComp r % 16 == 0 && decide (1 ≤ recWgsize r ∧ recWgsize r ≤ 1024) && decide (1 ≤ recRegs r)
    && decide (recRegs r ≤ 255)

/-- Table 17.2. -/
def blockOk (b : Nat) : Bool :=
  natField b 101 411 == 0 && natField b 2496 64 == 0 && natField b 3328 256 == 0 &&
  blkEntry b % 64 == 0 && blkSlen b % 8 == 0 && decide (blkNdep b ≤ 8) &&
  (List.range 62).all (fun n => natField (blkBnd b n) 29 3 == 0 && decide (natField (blkBnd b n) 20 9 ≤ 256)) &&
  (List.range 8).all (fun d => if d < blkNdep b then blkDep b d % 64 == 0 else blkDep b d == 0)

/-- Weights of dies the device lacks are zero, and a launch with workgroups has a weight (R235). -/
def weightsOk (mode : Fin 3) (r : Nat) : Bool :=
  (List.range 4).all (fun d => decide (d < diesPerDevice mode) || recWt r d == 0) &&
  (recCount r == 0 || weightBelow r 4 != 0)

/-! ## Queues -/

/-- The queue of a device that a context holds. -/
def State.heldQueue (s : State) (ctx q : Nat) : Option Queue :=
  s.queues.find? (fun x => x.num == q && x.owner.val == ctx)

/-- The queue of a launch. -/
def State.queueOf (s : State) (l : Launch) : Option Queue := s.heldQueue l.ctx.val l.queue

/-- A launch that holds an entry of the backing of a queue (R238). -/
def usesEntry (ctx q : Nat) (l : Launch) : Bool :=
  l.ctx.val == ctx && l.queue == q && l.joined.isNone && recCount l.record != 0

/-- The backing of the queue has room; a queue the context does not hold has none to be full. -/
def hasRoom (s : State) (ctx q : Nat) : Bool :=
  match s.heldQueue ctx q with
  | none => true
  | some x => decide ((s.launches.filter (usesEntry ctx q)).length < x.qlen)

/-- Work that the launch has still to place on a die: saved workgroups and unplaced indices. -/
def Launch.pendingOn (s : State) (l : Launch) (die : Nat) : Bool :=
  let k := die - firstDie s.mode (s.deviceOfCtx l.ctx.val)
  l.code.isNone && l.joined.isNone &&
    (l.saved.any (fun x => x.die == die) || decide (l.next.getD k 0 < (shareOf l.record k).2))

/-- The dies of a context's device. -/
def State.diesOf (s : State) (ctx : Nat) : List Nat :=
  (List.range (diesPerDevice s.mode)).map (fun k => firstDie s.mode (s.deviceOfCtx ctx) + k)

/-- The current launch of a queue on a die: the oldest with an unplaced workgroup in its share (R240). -/
def currentLaunch (s : State) (q : Queue) (die : Nat) : Option Launch :=
  s.launches.find? (fun l => l.ctx == q.owner && l.queue == q.num && l.pendingOn s die)

/-- A queue is eligible on a die (R240). -/
def eligible (s : State) (die : Nat) (q : Queue) : Bool :=
  !q.paused && (s.diesOf q.owner.val).contains die && (currentLaunch s q die).isSome

/-- The age of a queue on a die: the one it has while it is eligible, and the one that rests. -/
def ageOn (s : State) (die queue : Nat) : Option Age := s.ages.find? (fun a => a.die == die && a.queue == queue)

/-- Ages follow eligibility: a queue that becomes eligible on a die starts to count ticks; one that is not eligible keeps its boost
and gains nothing, since its age rests, as that of a die numbered 4 higher (R240). (DEDUCED, log 22) -/
def refreshAges (s : State) : State :=
  { s with ages := s.queues.flatMap (fun q => (s.diesOf q.owner.val).map (fun d =>
      let e := eligible s d q
      match ageOn s d q.num, ageOn s (d + 4) q.num with
      | some a, _ => if e then a else { a with die := d + 4, eligible := false }
      | none, some a => if e then { a with die := d, since := s.tickOf d, eligible := true } else a
      | none, none => ⟨if e then d else d + 4, q.num, 0, s.tickOf d, e⟩)) }

/-! ## Acceptance (R235) -/

/-- An entry of a table as memory holds it now, usable and owned by the context; none otherwise. What a table in another
module holds is a free value (DESIGN CHOICE, log 16). -/
def freshEntry (s : State) (cx : Context) (i : Nat) : Option (Bound × State) :=
  if cx.btlen ≤ i then none
  else match places s cx.id.val (cx.btbase.toNat + 64 * i) 64 with
    | .error _ => none
    | .ok (ps, s) =>
      let (e, s) := if anyAway ps then s.pick (2 ^ 512) else (ofBytes (latestBytes s ps), s)
      if entryUsable e && (boundOf e).owner == cx.id.val then some (boundOf e, s) else none

/-- The checks of acceptance as steps over the state. -/
abbrev Check := StateT State (Except Code)

/-- Refuse with a code unless a condition holds. -/
def check (b : Bool) (c : Code) : Check Unit := fun s => if b then .ok ((), s) else .error c

/-- An entry that a launch names (LAUNCH_BIND otherwise). -/
def namedEntry (cx : Context) (i : Nat) : Check Bound := fun s =>
  match freshEntry s cx i with
  | some r => .ok r
  | none => .error .launchBind

/-- `n` bytes at a domain address lie in a buffer of the context with right a. -/
def coveredBy (s : State) (cx : Context) (va n : Nat) : Bool :=
  (List.range cx.btlen).any (fun i => match freshEntry s cx i with
    | some (d, _) => d.a && decide (d.base ≤ va ∧ va + n ≤ d.base + d.backing)
    | none => false)

/-- The object at a domain address is in a buffer of the context with right a, off UO pages. -/
def objectUsable (s : State) (cx : Context) (va n : Nat) : Bool :=
  coveredBy s cx va n && (match places s cx.id.val va n with
    | .ok (ps, _) => !(anyUo ps)
    | .error _ => false)

/-- An object of a record: in a module that has no path it is refused with BOUNDS (R306). -/
def checkObject (cx : Context) (va n : Nat) : Check Unit := fun s =>
  if !(objectUsable s cx va n) then .error .launchBind
  else if !(pathKnown s va) then .error .bounds
  else .ok ((), s)

/-- The rights in NEED (bits 17 r, 18 w, 19 a of a binding). -/
def needMet (bnd : Nat) (d : Bound) : Bool :=
  (!(bnd.testBit 17) || d.r) && (!(bnd.testBit 18) || d.w) && (!(bnd.testBit 19) || d.a)

/-- One binding of the launch block. -/
def checkBinding (cx : Context) (bnd : Nat) : Check Unit :=
  if bnd.testBit 16 then do
    let d ← namedEntry cx (natField bnd 0 16)
    check (needMet bnd d && (natField bnd 20 9 == 0 || (d.board && decide (natField bnd 20 9 ≤ d.slots)))) .launchBind
  else check (natField bnd 17 3 == 0) .launchBind

/-- accept (R235), in its order. (DEDUCED, log 36) -/
def checkRecord (cx : Context) (r b : Nat) : Check Unit := fun s => (do
  check (recordOk r && blockOk b && weightsOk s.mode r) .launchField
  check (s.heldQueue cx.id.val (recQueue r)).isSome .queueRange
  check (decide (ceilDiv (recWgsize r) 32 * recRegs r ≤ Config.coreRows)) .launchCapacity
  check ((List.range 12).all (fun j => blkFmt b j == 0 || fdefLegal (blkFmt b j))) .formatIllegal
  let code ← namedEntry cx (blkCode b)
  check (code.r && code.x && decide (blkEntry b < code.len)) .launchBind
  if blkSlen b = 0 then pure () else do
    let st ← namedEntry cx (blkStack b)
    check (st.r && st.w && decide (blkSlen b * recWgsize r * recCount r ≤ st.len)) .launchBind
  (List.range 62).forM (fun n => checkBinding cx (blkBnd b n))
  if recComp r = 0 then pure () else checkObject cx (recComp r) 16
  (List.range (blkNdep b)).forM (fun d => checkObject cx (blkDep b d) 64) : Check Unit) s

/-- The dispatcher that reports a context's launches: the first die of its device (DESIGN CHOICE, log 22). -/
def homeDispatcher (s : State) (ctx : Nat) : Nat := firstDie s.mode (s.deviceOfCtx ctx)

/-- The agent that acts for a context's launches. -/
def homeAgent (s : State) (ctx : Nat) : Actor := .dispatcher (Fin.ofNat 4 (homeDispatcher s ctx))

/-- Read a record and its block once, and check them. The launch is not yet on its queue. A block in a module that has no path
is refused with BOUNDS (R306). -/
def acceptRecord (s : State) (cx : Context) (va : Nat) (rels : List Rel) : Except Code (Launch × State) :=
  let agent := homeAgent s cx.id.val
  match readSpan s agent cx.id.val (.ofRels rels) .relaxed va 64 with
  | .error c => .error c
  | .ok a =>
    let r := ofBytes a.bytes
    if recordOk r && !(pathKnown s (recLblk r)) then .error .bounds
    else match readSpan a.s agent cx.id.val a.v .relaxed (recLblk r) 512 with
    | .error c => if recordOk r then .error c else .error .launchField
    | .ok q =>
      let b := ofBytes q.bytes
      match checkRecord cx r b q.s with
      | .error c => .error c
      | .ok (_, s) =>
        .ok ({ uid := s.uids, addr := BitVec.ofNat 64 va, ctx := cx.id, queue := recQueue r, record := r, block := b
               since := s.nextWrite, entry := 0, rels, next := (List.range 4).map (fun d => (shareOf r d).1), ended := 0
               saved := [], marks := [], code := none, codeAt := 0, exits := [], exitTicks := [], joined := none, under := false },
             { s with uids := s.uids + 1 })

/-! ## Leases (R261) -/

/-- Every page from an offset to a last byte ends at a valid leaf; pages are stepped over whole. -/
def walksOk (s : State) (die last : Nat) : Nat → Nat → Bool
  | 0, _ => true
  | fuel + 1, ofs =>
    if last < ofs then true
    else match walk s die ofs with
      | none => false
      | some (_, bits, _) => walksOk s die last fuel ((ofs / 2 ^ bits + 1) * 2 ^ bits)

/-- The pages a leased entry's bytes touch are mapped. A window needs no walk; whether the walks of another module's home die find
their leaves is a free choice (DESIGN CHOICE, log 16). -/
def leaseOk (s : State) (d : Bound) : Bool × State :=
  if inWindow d.base then (true, s)
  else if vaModule d.base ≠ s.module.toNat then ((s.pick 2).1 == 0, (s.pick 2).2)
  else if 6 ≤ vaDie d.base then (false, s)
  else (walksOk s (vaDie d.base) (vaOfs d.base + d.backing - 1) (d.backing / 65536 + 2) (vaOfs d.base), s)

/-- The entries a launch leases: its VALID bindings, CODE and STACK. -/
def leasedIndexes (b : Nat) : List Nat :=
  ((List.range 62).filter (fun n => (blkBnd b n).testBit 16)).map (fun n => natField (blkBnd b n) 0 16) ++
    blkCode b :: (if blkSlen b = 0 then [] else [blkStack b])

/-- The walks of a launch's leases: whether each ends at a valid leaf, and a state in which the free choices are drawn. -/
def walkLeases (s : State) (cx : Context) (b : Nat) : Bool × State :=
  (leasedIndexes b).foldl (fun (r : Bool × State) i => match freshEntry r.2 cx i with
    | some (d, s) => (r.1 && (leaseOk s d).1, (leaseOk s d).2)
    | none => (false, r.2)) (true, s)

/-- The leases of a launch are taken; LEASE_MISS otherwise (R261). -/
def takeLeases (s : State) (cx : Context) (b : Nat) : Bool := (walkLeases s cx b).1

/-- The walk of a page that a launch leases waits for its home die, or for the path to it. -/
def leasesWait (s : State) (ctx blk : Nat) : Bool :=
  match s.context? ctx, places s ctx blk 512 with
  | some cx, .ok (ps, s) => (leasedIndexes (ofBytes (latestBytes s ps))).any (fun i => match freshEntry s cx i with
    | some (d, _) => !(inWindow d.base) && addrWaits s d.base
    | none => false)
  | _, _ => false

/-- FECLR: every granule of every die SRAM buffer that a VALID binding names becomes empty (R90). -/
def clearGranules (s : State) (cx : Context) (b : Nat) : State :=
  if !(blkFeclr b) then s
  else ((List.range 62).filter (fun n => (blkBnd b n).testBit 16)).foldl (fun s n =>
    match freshEntry s cx (natField (blkBnd b n) 0 16) with
    | none => s
    | some (d, _) =>
      if inWindow d.base ∧ vaModule d.base = s.module.toNat then
        let lo := sramLoc (vaDie d.base) (vaOfs d.base - windowBase)
        let inside := fun g => decide (lo / 16 ≤ g ∧ g ≤ (lo + d.len - 1) / 16)
        { s with full := s.full.filter (fun g => !(inside g)), fullRels := s.fullRels.filter (fun p => !(inside p.1)) }
      else s) s

/-- The entry of a queue's backing that the next accepted launch takes: the first free one from the place after the last
taken (R304, TAIL). -/
def nextEntry (s : State) (q : Queue) : Nat :=
  let used := (s.launches.filter (usesEntry q.owner.val q.num)).map (·.entry)
  match (List.range q.qlen).find? (fun i => !(used.contains ((q.tail + i) % q.qlen))) with
  | some i => (q.tail + i) % q.qlen
  | none => q.tail % q.qlen

/-- Put an accepted launch on its queue: its entry of the backing holds the record with its block. -/
def putOnQueue (s : State) (l : Launch) (q : Queue) : State :=
  let j := nextEntry s q
  let s := { s with
    launches := s.launches ++ [{ l with entry := j }]
    queues := replaceFirst (fun x => x.num == q.num && x.owner == q.owner) { q with tail := (j + 1) % q.qlen } s.queues }
  refreshAges (writeNow s (.plain (homeAgent s l.ctx.val)) l.ctx.val (q.qbase.toNat + 576 * j)
    (bytesOf l.record 64 ++ bytesOf l.block 512))

/-! ## Joins -/

/-- Accepting a record of a queue waits: its launch block, its context's table, its completion object, a page that it leases, or its
place in the queue's backing lies behind what makes accesses wait (R280, R307, R310, R322). -/
def acceptWaits (s : State) (ctx q va : Nat) : Bool :=
  match places s ctx va 64 with
  | .error _ => false
  | .ok (ps, s) =>
    let r := ofBytes (latestBytes s ps)
    tableWaits s ctx || spanWaits s false ctx (recLblk r) 512 || (recComp r != 0 && spanWaits s true ctx (recComp r) 16) ||
      (recCount r != 0 && ((s.heldQueue ctx q).any (fun x =>
        spanWaits s true ctx (x.qbase.toNat + 576 * nextEntry s x) 576) || leasesWait s ctx (recLblk r)))

/-- Why a record cannot be put forward now, if there is a reason. -/
def cannotEnqueue (s : State) (ctx q va : Nat) : Option WaitKind :=
  if !(hasRoom s ctx q) then some .queueRoom else if acceptWaits s ctx q va then some .link else none

/-- How a step of spawn or join ends: there is no count to take from; it would put its record forward, which waits for room or for what
the record reaches; or the count before it, the state and the view. -/
inductive RecStep where
  | under (s : State)
  | waits (k : WaitKind) (s : State)
  | done (c : Nat) (s : State) (v : MemView)

/-- The bits of JOIN, and of QUEUE, in a record's first word (Table 17.1). -/
def joinMask : Nat := 2 ^ 32 - 1
def queueMask : Nat := 63 * 2 ^ 32

/-- The step of join at a record's first word (R163). -/
def joinStep (s : State) (agent : Actor) (sc : Scope) (v : MemView) (ctx va : Nat) (ps : List Place) : RecStep :=
  let r := readObject s agent v ps
  let c := natField r.1 0 32
  let s := r.2.2.2.1
  if c = 0 then .under s
  else match if c = 1 ∧ !(anyAway ps) then cannotEnqueue s ctx (natField r.1 32 6) va else none with
  | some k => .waits k s
  | none =>
    let v := r.2.2.2.2
    let w := writeObject s agent v ps joinMask (r.1 - 1) (r.2.2.1 ++ v.fences) (some (relOf s agent sc v))
    .done c (noteObject w.1 va ps) w.2

/-- Places of a record's first word, off UO pages. -/
def recordPlaces (s : State) (ctx va : Nat) : Option (List Place × State) :=
  match places s ctx va 8 with
  | .ok (ps, s) => if anyUo ps then none else some (ps, s)
  | .error _ => none

/-! ## Refusal and completion -/

/-- STATUS of a record (Table 17.3), as a release of what `agent` has seen; what it has seen after. -/
def writeStatus (s : State) (agent : Actor) (ctx va x : Nat) (v : MemView) : State × MemView :=
  match writeSpan s ⟨agent, some .home, false, [], some (relOf s agent .system v)⟩ ctx v .back (va + 56) (bytesOf x 8) with
  | .ok (s, v) => releaseUo s agent .system v
  | .error _ => (s, v)

/-- An arrival with 0 bytes on a completion object at system scope, as a release `rel` of `agent`; none when PEND is 0. -/
def arriveAt (s : State) (agent : Actor) (v : MemView) (ctx va : Nat) : State :=
  match barrierPlaces s ctx va with
  | none => s
  | some (ps, s) => match objectStep (notePage s agent.die? va) agent .system v va ps (fun o => barArrive o 0) with
    | some (_, s, _) => s
    | none => s

/-- R236: a record refused through spawn or join. -/
def refuseRecord (s : State) (cx : Context) (va : Nat) (c : Code) (rels : List Rel) : State :=
  let die := homeDispatcher s cx.id.val
  let agent := homeAgent s cx.id.val
  let comp := match readSpan s agent cx.id.val (.ofRels rels) .relaxed va 64 with
    | .ok a => recComp (ofBytes a.bytes)
    | .error _ => 0
  let w := writeStatus s agent cx.id.val va (codeNumber c + 2 ^ 16) (.ofRels rels)
  let s := if comp ≠ 0 ∧ comp % 16 = 0 ∧ objectUsable w.1 cx comp 16 then arriveAt w.1 agent w.2 cx.id.val comp else w.1
  s.emitFree 0 6 die (codeNumber c) cx.id.val 0

/-- Accept a record whose JOIN is zero, or refuse it; `finish` completes a launch at once (R237, R261). A record with
workgroups is put on its queue. -/
def acceptNow (finish : Nat → State → State) (s : State) (cx : Context) (va : Nat) (rels : List Rel) : Except Code State :=
  match acceptRecord s cx va rels with
  | .error c => .error c
  | .ok (l, s) =>
    if recCount l.record = 0 then .ok (finish l.uid { s with launches := s.launches ++ [l] })
    else
    let taken := takeLeases s cx l.block
    let s := (walkLeases s cx l.block).2
    if !taken then .ok (finish l.uid { s with launches := s.launches ++ [{ l with code := some .leaseMiss }] })
    else match s.heldQueue cx.id.val l.queue with
      | some q => .ok (putOnQueue (clearGranules s cx l.block) l q)
      | none => .error .queueRange

/-- A record that has come to JOIN zero at its home slice: `ps` are the places of its first word. -/
def enqueue (finish : Nat → State → State) (s : State) (ctx va : Nat) (ps : List Place) : State :=
  match s.context? ctx with
  | none => s
  | some cx =>
    let rels := latestRels s ps
    match acceptNow finish s cx va rels with
    | .ok s => s
    | .error c => refuseRecord s cx va c rels

/-- What the completion of a launch releases (R243): it follows the exits on each die (R282). -/
def completionView (l : Launch) : MemView :=
  { MemView.ofRels l.rels with
      floor := floorJoin (MemView.ofRels l.rels).floor l.exits
      fences := l.exitTicks.map (fun x => ⟨.system, .dispatcher (Fin.ofNat 4 x.1), [], [], x.2, true⟩) }

/-- STATUS at completion: 0, or the code with FAULTED, and DEPUNDER. -/
def statusOf (l : Launch) : Nat :=
  (match l.code with
  | some c => codeNumber c + 2 ^ 17
  | none => 0) + bitOf l.under * 2 ^ 18

/-- Step 1 of R243: what follows releases the STATUS word too. -/
def stampStatus (s : State) (agent : Actor) (l : Launch) : State × MemView :=
  writeStatus s agent l.ctx.val l.addr.toNat (statusOf l) (completionView l)

/-- Steps 1 and 2 of R243; the launch gives up its entry of the backing. -/
def beginCompletion (s : State) (agent : Actor) (l : Launch) : State :=
  let w := stampStatus s agent l
  let s := if recComp l.record = 0 then w.1 else arriveAt w.1 agent w.2 l.ctx.val (recComp l.record)
  refreshAges (s.modLaunch l.uid (fun l => { l with joined := some 0, exits := floorJoin l.exits w.2.floor }))

/-- Step 3 of R243 for dependents `d` and later. `false` when one waits for room. -/
def joinDependents (finish : Nat → State → State) (agent : Actor) (l : Launch) : List Nat → State → Bool × State
  | [], s => (true, s)
  | d :: ds, s =>
    match recordPlaces s l.ctx.val (blkDep l.block d) with
    | none => joinDependents finish agent l ds s
    | some (ps, s) => match joinStep (notePage s agent.die? (blkDep l.block d)) agent .system (completionView l) l.ctx.val
        (blkDep l.block d) ps with
      | .waits _ s => (false, s.modLaunch l.uid (fun x => { x with joined := some d }))
      | .under s => joinDependents finish agent l ds (s.modLaunch l.uid (fun x => { x with under := true }))
      | .done c s _ =>
        let s := if c = 1 ∧ !(anyAway ps) then enqueue finish s l.ctx.val (blkDep l.block d) ps else s
        joinDependents finish agent l ds s

/-- Step 4 of R243; a launch ended by a code of class E stays in the summary of R304 until its event is acknowledged. -/
def reportCompletion (s : State) (die : Nat) (l : Launch) : State :=
  let src := sourceKey 0 6 die
  let seq := if 16 ≤ s.undelivered src then none else some (match s.sources.find? (fun x => x.src == src) with
    | some x => x.seq
    | none => 0)
  match l.code with
  | none => s.emitFree 0 6 die 0 l.ctx.val 0
  | some c =>
    let s := if codeClass c == .ends then { s with faults := s.faults ++ [⟨l.addr, codeNumber c, src, seq⟩] } else s
    s.emitFree 0 6 die (codeNumber c) l.ctx.val 0

/-- The replies of the ABORTs whose launch has completed (R302). -/
def settleAborts (s : State) (u : Nat) : State :=
  (s.aborts.filter (fun a => a.launch == u)).foldl (fun s a => s.send 0x0A a.tag 0 [] a.ctx)
    { s with aborts := s.aborts.filter (fun a => a.launch != u) }

/-- Complete a launch as far as room allows (R243, R244). What is left when a dependent waits, or when `fuel` ends a chain
of launches without workgroups, is done by a later LAUNCH_COMPLETE. -/
def finishLaunch : Nat → Nat → State → State
  | 0, _, s => s
  | fuel + 1, u, s => match s.launch? u with
    | none => s
    | some l =>
      let die := homeDispatcher s l.ctx.val
      let agent := homeAgent s l.ctx.val
      let s := if l.joined.isNone then beginCompletion s agent l else s
      let from' := l.joined.getD 0
      let l := (s.launch? u).getD l
      let todo := if l.code.isSome then [] else (List.range (blkNdep l.block)).drop from'
      let r := joinDependents (finishLaunch fuel) agent l todo s
      if !r.1 then r.2
      else
        let s := match r.2.launch? u with
          | some x => if x.under then (stampStatus r.2 agent x).1 else r.2
          | none => r.2
        settleAborts (reportCompletion { s with launches := s.launches.filter (fun x => x.uid != u) } die l) u

/-- The depth of launches without workgroups that one step completes. (DESIGN CHOICE, log 37) -/
def chainFuel : Nat := 64

/-- A workgroup of the launch is resident. -/
def hasResident (s : State) (u : Nat) : Bool := s.workgroups.any (fun g => g.launch == u)

/-- A launch that can complete (R243). -/
def readyToComplete (s : State) (l : Launch) : Bool :=
  l.joined.isSome || (!(hasResident s l.uid) && (l.code.isSome || decide (recCount l.record ≤ l.ended)))

/-- A record, an object or a dependent of a launch lies behind what makes accesses wait; of a dependent, what its acceptance reaches
waits where its step does (`joinStep`). -/
def completionHeld (s : State) (l : Launch) : Bool :=
  let ctx := l.ctx.val
  spanWaits s true ctx (l.addr.toNat + 56) 8 || (recComp l.record != 0 && spanWaits s true ctx (recComp l.record) 16) ||
    (List.range (blkNdep l.block)).any (fun d => spanWaits s true ctx (blkDep l.block d) 64)

def execLaunchComplete (u : Nat) (s : State) : Out :=
  .next (match s.launch? u with
    | some l => if readyToComplete s l && !(completionHeld s l) then finishLaunch chainFuel u s else s
    | none => s)

/-! ## spawn and join (R163) -/

/-- The checks 1 to 4 of R163. -/
def recordOf (x : Member) (s : State) (m : MemOp) (need : Rights) : Except Code (ObjectAt × State) :=
  match objectOf x s m 8 need 64 .recordAlign with
  | .error c => .error c
  | .ok r => if m.scope.atLeast .device then .ok r else .error .scopeNarrow

/-- The step of spawn on a record's first word. -/
def spawnStep (s : State) (x : Member) (o : ObjectAt) (sc : Scope) (q : Nat) : RecStep :=
  let ps := o.ps.take 8
  let r := readObject s o.bd.agent (s.viewOf x.wg.uid x.t.tid) ps
  let c := natField r.1 0 32
  let s := r.2.2.2.1
  match if c = 0 ∧ !(anyAway ps) then cannotEnqueue s x.wg.ctx q o.va else none with
  | some k => .waits k s
  | none =>
    let v := r.2.2.2.2
    let new := r.1 - natField r.1 32 6 * 2 ^ 32 + q * 2 ^ 32
    let w := writeObject s o.bd.agent v ps queueMask new (r.2.2.1 ++ v.fences) (some (relOf s o.bd.agent sc v))
    .done c (noteObject w.1 o.va ps) w.2

def bodySpawn (i : Instr) (d : VReg) (m : MemOp) (x : Member) (s : State) : MRes :=
  match recordOf x s m { r := true, w := true, a := true } with
  | .error c => .trap c x.t.pc
  | .ok (o, s) =>
    let q := (x.t.readV d).toNat
    if queuesPerDevice s.mode ≤ q ∨ (s.heldQueue x.wg.ctx q).isNone then .trap .queueRange x.t.pc
    else onObject true o.ps x i o s (fun s => match spawnStep s x o m.scope q with
      | .under s => .done s {}
      | .waits k s => waitFor s k i 0
      | .done c s v =>
        let s := s.setView x.wg.uid x.t.tid v
        .done (if c = 0 ∧ !(anyAway o.ps) then enqueue (finishLaunch chainFuel) s x.wg.ctx o.va (o.ps.take 8) else s) {})

def execSpawn (c : Common) (d : VReg) (m : MemOp) (s : State) : Out :=
  .next (runCore (.spawn c d m) (bodySpawn (.spawn c d m) d m) s)

def bodyJoin (i : Instr) (d : VReg) (m : MemOp) (x : Member) (s : State) : MRes :=
  match recordOf x s m { a := true } with
  | .error c => .trap c x.t.pc
  | .ok (o, s) => onObject true o.ps x i o s (fun s => match joinStep s o.bd.agent m.scope (s.viewOf x.wg.uid x.t.tid) x.wg.ctx o.va (o.ps.take 8) with
    | .under _ => .trap .joinUnder x.t.pc
    | .waits k s => waitFor s k i 0
    | .done c s v =>
      let s := s.setView x.wg.uid x.t.tid v
      let s := if c = 1 ∧ !(anyAway o.ps) then enqueue (finishLaunch chainFuel) s x.wg.ctx o.va (o.ps.take 8) else s
      .done s { writes := [.v d (BitVec.ofNat 64 c)], memory := true })

def execJoinRec (c : Common) (d : VReg) (m : MemOp) (s : State) : Out :=
  .next (runCore (.joinRec c d m) (bodyJoin (.joinRec c d m) d m) s)

end Machine
end Sys2Proof
end

