-- ==== Sys2Proof/Machine/Sha.lean ====
section
/-! DEFINITION. SHA-512, which R285, R314, R315 and R319 name, and SHAKE256, which R318 names. The manual names the functions and
does not write them out: their algorithms are the published standards', FIPS 180-4 and FIPS 202 (PRESUMED, log 8). -/

namespace Sys2Proof
namespace Sha

/-- A word of 64 bits as a number. -/
abbrev W64 := Nat

/-- 2^64, and the word of ones. -/
def two64 : Nat := 0x10000000000000000
def ones64 : Nat := 0xFFFFFFFFFFFFFFFF

-- the operations are named outright, so that evaluation goes through no class
def plus (x y : W64) : W64 := Nat.mod (Nat.add x y) two64
def rotr (x : W64) (k : Nat) : W64 := Nat.lor (Nat.shiftRight x k) (Nat.mod (Nat.shiftLeft x (Nat.sub 64 k)) two64)

/-- `n` words of a number, lowest first. -/
def unpack : Nat → Nat → List W64
  | 0, _ => []
  | n + 1, x => Nat.mod x two64 :: unpack n (Nat.div x two64)

/-! ## SHA-512 -/

/-- The constants of the 80 rounds: the fractional parts of the cube roots of the first eighty primes, twenty a number. -/
def roundKeys : List W64 :=
  unpack 20 0x240ca1cc77ac9c650fc19dc68b8cd5b5efbe4786384f25e3e49b69c19ef14ad2c19bf174cf6926949bdc06a725c7123580deb1fe3b1696b172be5d74f27b896f550c7dc3d5ffb4e2243185be4ee4b28c12835b0145706fbed807aa98a3030242ab1c5ed5da6d8118923f82a4af194f9b59f111f1b605d0193956c25bf348b538e9b5dba58189dbbcb5c0fbcfec4d3b2f7137449123ef65cd428a2f98d728ae22 ++
  unpack 20 0x92722c851482353b81c2c92e47edaee6766a0abb3c77b2a8650a73548baf63de53380d139d95b3df4d2c6dfc5ac42aed2e1b21385c26c92627b70a8546d22ffc142929670a0e6e7006ca6351e003826fd5a79147930aa725c6e00bf33da88fc2bf597fc7beef0ee4b00327c898fb213fa831c66d2db43210983e5152ee66dfab76f988da831153b55cb0a9dcbd41fbd44a7484aa6ea6e4832de92c6f592b0275 ++
  unpack 20 0x8cc702081a6439ec84c87814a1f0ab7278a5636f43172f60748f82ee5defb2fc682e6ff3d6b2b8a35b9cca4f7763e3734ed8aa4ae3418acb391c0cb3c5c95a6334b0bcb5e19b48a82748774cdf8eeb991e376c085141ab5319a4c116b8d2d0c8106aa07032bbd1b8f40e35855771202ad69906245565a910d192e819d6ef5218c76c51a30654be30c24b8b70d0f89791a81a664bbc423001a2bfe8a14cf10364 ++
  unpack 20 0x6c44198c4a4758175fcb6fab3ad6faec597f299cfc657e2a4cc5d4becb3e42b6431d67c49c100d4c3c9ebe0a15c9bebc32caab7b40c7249328db77f523047d841b710b35131c471b113f9804bef90dae0a637dc5a2c898a606f067aa72176fbaf57d4f7fee6ed178eada7dd6cde0eb1ed186b8c721c0c207ca273eceea26619cc67178f2e372532bbef9a3f7b2c67915a4506cebde82bde990befffa23631e28

/-- Four words. -/
structure Quad where
  w : W64
  x : W64
  y : W64
  z : W64
  deriving DecidableEq, Repr

def quadOf (ws : List W64) : Quad := ⟨ws.getD 0 0, ws.getD 1 0, ws.getD 2 0, ws.getD 3 0⟩

def Quad.plus (p q : Quad) : Quad := ⟨Sha.plus p.w q.w, Sha.plus p.x q.x, Sha.plus p.y q.y, Sha.plus p.z q.z⟩

def Quad.words (q : Quad) : List W64 := [q.w, q.x, q.y, q.z]

/-- The chaining value: its first four words and its last four. -/
structure Chain where
  lo : Quad
  hi : Quad
  deriving DecidableEq, Repr

/-- The value a message starts from: the fractional parts of the square roots of the first eight primes. -/
def start : Chain :=
  ⟨quadOf (unpack 4 0xa54ff53a5f1d36f13c6ef372fe94f82bbb67ae8584caa73b6a09e667f3bcc908), quadOf (unpack 4 0x5be0cd19137e21791f83d9abfb41bd6b9b05688c2b3e6c1f510e527fade682d1)⟩

/-- Three rotations of a word, combined. -/
def spun (v : W64) (i j k : Nat) : W64 := Nat.xor (rotr v i) (Nat.xor (rotr v j) (rotr v k))

/-- One round, with its key and schedule word added in `k`. -/
def Chain.turn (c : Chain) (k : W64) : Chain :=
  let pick := Nat.xor c.hi.y (Nat.land c.hi.w (Nat.xor c.hi.x c.hi.y))
  let most := Nat.lor (Nat.land c.lo.w c.lo.x) (Nat.land c.lo.y (Nat.lor c.lo.w c.lo.x))
  let t := plus c.hi.z (plus k (plus pick (spun c.hi.w 14 18 41)))
  ⟨⟨plus t (plus most (spun c.lo.w 28 34 39)), c.lo.w, c.lo.x, c.lo.y⟩, ⟨plus c.lo.z t, c.hi.w, c.hi.x, c.hi.y⟩⟩

/-- Sixteen words of a schedule, oldest first. -/
structure Window where
  p : Quad
  q : Quad
  r : Quad
  s : Quad

/-- Two rotations of a word and a shift, combined. -/
def blend (v : W64) (i j k : Nat) : W64 := Nat.xor (Nat.shiftRight v k) (Nat.xor (rotr v i) (rotr v j))

/-- The window one word on. -/
def Window.next (a : Window) : Window :=
  let v := plus a.p.w (plus (blend a.p.x 1 8 7) (plus a.r.x (blend a.s.y 19 61 6)))
  ⟨⟨a.p.x, a.p.y, a.p.z, a.q.w⟩, ⟨a.q.x, a.q.y, a.q.z, a.r.w⟩, ⟨a.r.x, a.r.y, a.r.z, a.s.w⟩, ⟨a.s.x, a.s.y, a.s.z, v⟩⟩

/-- A block of 128 bytes as a window: words of eight bytes, most significant first. -/
def windowOf (block : List Byte) : Window :=
  let ws := (List.range 16).map (fun i => ofBytes ((block.drop (8 * i)).take 8).reverse)
  ⟨quadOf ws, quadOf (ws.drop 4), quadOf (ws.drop 8), quadOf (ws.drop 12)⟩

/-- The rounds of a block. -/
def turns : List W64 → Window → Chain → Chain
  | [], _, c => c
  | k :: ks, a, c => turns ks a.next (c.turn (plus k a.p.w))

/-- One block taken into the chaining value. -/
def chainBlock (c : Chain) (block : List Byte) : Chain :=
  let d := turns roundKeys (windowOf block) c
  ⟨c.lo.plus d.lo, c.hi.plus d.hi⟩

/-- `n` blocks of a message. -/
def chainAll : Nat → List Byte → Chain → Chain
  | 0, _, c => c
  | n + 1, bs, c => chainAll n (bs.drop 128) (chainBlock c (bs.take 128))

/-- What follows a message of `n` bytes: a one bit, zeros, and its length in bits, up to a multiple of 128 bytes. -/
def tail512 (n : Nat) : List Byte := 0x80 :: (List.replicate ((239 - n % 128) % 128) 0 ++ (bytesOf (8 * n) 16).reverse)

/-- The 64 bytes of SHA-512 of a message. -/
def sha512 (bs : List Byte) : List Byte :=
  let m := bs ++ tail512 bs.length
  let c := chainAll (m.length / 128) m start
  (c.lo.words ++ c.hi.words).flatMap (fun v => (bytesOf v 8).reverse)

/-! ## SHAKE256 -/

def rotl (x : W64) (k : Nat) : W64 := if k = 0 then x else rotr x (64 - k)

/-- The lane at a column and a row of the 25. -/
def lane (a : List W64) (x y : Nat) : W64 := a.getD (x % 5 + 5 * (y % 5)) 0

/-- A value for each column and row. -/
def lanes25 (f : Nat → Nat → W64) : List W64 := (List.range 25).map (fun i => f (i % 5) (i / 5))

/-- The sum of a column. -/
def column (a : List W64) (x : Nat) : W64 := (List.range 5).foldl (fun v y => Nat.xor v (lane a x y)) 0

/-- Each lane takes in the sums of the columns beside it. -/
def mixColumns (a : List W64) : List W64 :=
  let cs := (List.range 5).map (column a)
  lanes25 (fun x y => Nat.xor (lane a x y) (Nat.xor (cs.getD ((x + 4) % 5) 0) (rotl (cs.getD ((x + 1) % 5) 0) 1)))

/-- Lanes are rotated and moved, each to where the walk over them comes next; `t` counts the walk. -/
def moveLanes (a : List W64) : Nat → Nat → Nat → Nat → List W64 → List W64
  | 0, _, _, _, b => b
  | n + 1, t, x, y, b =>
    let z := (2 * x + 3 * y) % 5
    moveLanes a n (t + 1) y z (setAt b (y + 5 * z) (rotl (lane a x y) ((t + 1) * (t + 2) / 2 % 64)))

/-- Each lane takes in the two after it in its row. -/
def mixRows (b : List W64) : List W64 :=
  lanes25 (fun x y => Nat.xor (lane b x y) (Nat.land (Nat.xor (lane b (x + 1) y) ones64) (lane b (x + 2) y)))

/-- The shift register of the round constants after `n` steps. -/
def register : Nat → Nat
  | 0 => 1
  | n + 1 => let r := 2 * register n; if r.testBit 8 then Nat.xor r 0x171 else r

/-- The constant of a round: seven outputs of the register, at bits 2^j - 1. -/
def roundConstant (i : Nat) : W64 := ((List.range 7).map (fun j => register (7 * i + j) % 2 * 2 ^ (2 ^ j - 1))).foldl (· + ·) 0

/-- A round of the permutation. -/
def permRound (a : List W64) (i : Nat) : List W64 :=
  let m := mixColumns a
  let b := mixRows (moveLanes m 24 0 1 0 m)
  setAt b 0 (Nat.xor (b.getD 0 0) (roundConstant i))

/-- The permutation of 1600 bits. -/
def permute (a : List W64) : List W64 := (List.range 24).foldl permRound a

/-- Bytes taken in at one time. -/
def rate : Nat := 136

/-- `n` blocks taken in. -/
def soak : Nat → List Byte → List W64 → List W64
  | 0, _, a => a
  | n + 1, bs, a =>
    let ws := unpack 17 (ofBytes (bs.take rate))
    soak n (bs.drop rate) (permute ((List.range 25).map (fun i => Nat.xor (a.getD i 0) (ws.getD i 0))))

/-- `n` blocks given out. -/
def wring : Nat → List W64 → List Byte
  | 0, _ => []
  | n + 1, a => (a.take 17).flatMap (fun v => bytesOf v 8) ++ wring n (permute a)

/-- What follows a message of `n` bytes, up to a multiple of the rate. -/
def tail256 (n : Nat) : List Byte :=
  let k := rate - n % rate
  if k = 1 then [0x9F] else 0x1F :: (List.replicate (k - 2) 0 ++ [0x80])

/-- The first `n` bytes of SHAKE256 of a message. -/
def shake256 (bs : List Byte) (n : Nat) : List Byte :=
  let m := bs ++ tail256 bs.length
  (wring ((n + rate - 1) / rate) (soak (m.length / rate) m (List.replicate 25 0))).take n

end Sha
end Sys2Proof
end

