-- ==== Sys2Proof/Machine/Images.lean ====
section
/-! DEFINITION. Lehr images: what a save writes (R284 to R288, Tables 20.1 to 20.4), and what a restore reads and checks
(R288, R290). -/

namespace Sys2Proof
namespace Machine

/-! ## Sizes (R284) -/

/-- Bytes of a pontil context record. -/
def pontilBytes : Nat := 2642944

def warpsOf (size : Nat) : Nat := ceilDiv size 32

def imageLength (warps regs npon : Nat) : Nat := 1024 + 10240 * warps + 256 * regs * warps + pontilBytes * npon

/-! ## Writing -/

/-- The entry a binding of a launch block reaches, and whether it is valid: b0 to b61, then CODE, then STACK. -/
def bindPair (b n : Nat) : Nat × Bool :=
  if n = 62 then (blkCode b, true)
  else if n = 63 then (blkStack b, blkSlen b != 0)
  else (natField (blkBnd b n) 0 16, (blkBnd b n).testBit 16)

/-- GEN of an entry as memory holds it now (R259). -/
def genOf (s : State) (cx : Context) (i : Nat) : Nat :=
  if cx.btlen ≤ i then 0
  else match places s cx.id.val (cx.btbase.toNat + 64 * i) 64 with
    | .error _ => 0
    | .ok (ps, s) => (boundOf (ofBytes ((ps.filterMap Place.loc?).map s.peek))).gen

/-- BIND[n] of Table 20.2. -/
def bindWord (s : State) (cx : Context) (b n : Nat) : Nat :=
  let e := bindPair b n
  e.1 + bitOf e.2 * 2 ^ 16 + (if e.2 then genOf s cx e.1 else 0) * 2 ^ 32

/-- A sum of fields placed at bits. -/
def placeBits (fields : List (Nat × Nat)) : Nat := fields.foldl (fun n f => n + f.2 * 2 ^ f.1) 0

/-- The header (Table 20.2) with SUM zero. -/
def headerBits (s : State) (g : Workgroup) (l : Launch) (cx : Context) (npon code : Nat) (inspect : Bool) : Nat :=
  placeBits ([(0, 0x5248454C), (32, 1), (128, imageLength (warpsOf g.size) g.nregs npon), (192, g.ctx),
    (198, warpsOf g.size), (204, g.nregs), (212, g.size), (223, npon),
    (225, g.core.die.val - firstDie s.mode cx.device), (227, bitOf inspect), (256, g.index), (320, l.addr.toNat),
    (384, s.tickOf g.core.die.val), (448, code)] ++
    (List.range 12).map (fun j => (512 + 64 * j, (g.fmts.getD j 0).toNat)) ++
    (List.range 64).map (fun n => (1536 + 64 * n, bindWord s cx l.block n)))

/-- A thread record (Table 20.3). -/
def threadBits (t : Thread) : Nat :=
  placeBits ([(0, t.pc.toNat), (64, t.depth), (80, bitOf t.parked), (81, bitOf t.live), (82, t.fflags.toNat)] ++
    (List.range 7).map (fun k => (87 + k, bitOf (t.preds.getD k false))) ++
    (List.range 8).map (fun m => (512 + 256 * m, (t.vms.getD m 0).toNat)))

/-- Unit `u` of a context's half of the store is marked empty (R176). -/
def unitEmpty (esp : List EspRegion) (u : Nat) : Bool :=
  !(esp.any (fun r => decide (r.addr ≤ u ∧ u < r.addr + r.units) && !(r.gone.contains u)))

/-- The marks of R176 as a number of 8,192 bits. -/
def emptyMarks (esp : List EspRegion) : Nat :=
  ((List.range 8192).map (fun u => bitOf (unitEmpty esp u) * 2 ^ u)).foldl (· + ·) 0

/-- The place of a loop register among the active loops, 0 innermost. -/
def loopPlace (ls : List Loop) (k : Nat) : Option Nat := ls.findIdx? (fun l => l.lc.val == k)

/-- LSTART and LEND of an inactive loop: free values that its columns allow (DESIGN CHOICE, log 7). -/
def idleLoop (s : State) : (Nat × Nat) × State :=
  let a := s.pick (2 ^ 60)
  let b := a.2.pick (2 ^ 10)
  ((8 * a.1, 8 * (a.1 + b.1)), b.2)

/-- The loop fields of Table 20.4. -/
def loopFields (p : Pontil) : List Nat → State → List (Nat × Nat) × State
  | [], s => ([], s)
  | k :: ks, s =>
    let mine := match loopPlace p.loops k with
      | some i => match p.loops[i]? with
        | some l => ([(384 + 128 * k, l.first.toNat), (448 + 128 * k, l.last.toNat), (896 + k, 1), (904 + 2 * k, i)], s)
        | none => ([], s)
      | none =>
        let r := idleLoop s
        ([(384 + 128 * k, r.1.1), (448 + 128 * k, r.1.2)], r.2)
    let rest := loopFields p ks mine.2
    (mine.1 ++ rest.1, rest.2)

def stateCode : PontilState → Nat
  | .stopped => 2
  | _ => 1

/-- A row maximum that nothing has written is −∞, a row sum +0 (R170). -/
def Tile.maxAt (t : Tile) (m : Nat) : Word := t.rmax.getD m 0xFFF0000000000000
def Tile.sumAt (t : Tile) (m : Nat) : Word := t.rsum.getD m 0
def Tile.cell (t : Tile) (i : Nat) : Word := t.cells.getD i 0
def Tile.zero : Tile := ⟨[], [], []⟩
def Pontil.tile (p : Pontil) (a : Nat) : Tile := p.tiles.getD a Tile.zero

/-- Byte `i` of the arrangement with number `a`: a free value for even numbers. An odd one spells its own number, so that no list of
saves exhausts the arrangements (log 10). -/
def arrangedByte (a i : Nat) : Byte :=
  if a % 2 = 0 then Config.espByte (a / 2) i else BitVec.ofNat 8 (natField (a / 2) (8 * i) 8)

/-- ESP under arrangement `a`. -/
def arranged (a : Nat) : List Byte := (List.range 2097152).map (arrangedByte a)

/-- The arrangement of the next store saved: free bytes, unless those stand for a store saved before. So the bytes of an ESP name one
saved store (R288, log 10). -/
def newArrangement (s : State) : Nat :=
  ((2 * s.uids) :: (List.range (s.espVault.length + 1)).map (2 * · + 1)).find?
    (fun a => s.espVault.all (fun p => arranged p.1 != arranged a)) |>.getD (2 * s.uids)

/-- A pontil context record (Table 20.4). The bits of ESP are the marver's own (R288): those with which the half was restored, and otherwise
those of arrangement `n`. -/
def pontilRecord (s : State) (p : Pontil) (n : Nat) : List Byte × State :=
  let lf := loopFields p [0, 1, 2, 3] s
  let head := placeBits ([(0, p.pc.toNat), (64, stateCode p.state), (72, p.flags.toNat), (80, p.code), (96, p.cw.toNat % 128),
    (104, p.phi), (112, scopeCode p.scope), (128, p.rbind.val), (134, p.rtid), (192, p.relem.toNat)] ++
    (List.range 4).map (fun k => (256 + 32 * k, (p.lc.getD k 0).toNat)) ++ lf.1)
  (bytesOf head 256 ++ (List.range 32).flatMap (fun k => bytesOf (p.q.getD k 0).toNat 8) ++
    (List.range 16).flatMap (fun k => bytesOf (p.fmts.getD k 0).toNat 8) ++ List.replicate 3456 0 ++
    (List.range 16).flatMap (fun a => (List.range 4096).flatMap (fun i => bytesOf ((p.tile a).cell i).toNat 8)) ++
    (List.range 16).flatMap (fun a => (List.range 64).flatMap (fun m =>
      bytesOf ((p.tile a).maxAt m).toNat 8 ++ bytesOf ((p.tile a).sumAt m).toNat 8)) ++
    bytesOf (emptyMarks p.esp) 1024 ++ p.restored.getD (arranged n), lf.2)

/-- The records of contexts, with their stores kept under their arrangements; a half that stands as it was restored keeps the bytes it has. -/
def pontilRecords : List Pontil → State → List Byte × State
  | [], s => ([], s)
  | p :: ps, s =>
    let n := newArrangement s
    let r := pontilRecord (if p.restored.isSome then s else { s with uids := s.uids + 1, espVault := (n, p.esp) :: s.espVault }) p n
    let q := pontilRecords ps r.2
    (r.1 ++ q.1, q.2)

/-- Bytes 0 to 7 of SHA-512 of an image with SUM zero (R285). -/
def imageSum (bytes : List Byte) : List Byte :=
  (Sha.sha512 (bytes.take 8 ++ List.replicate 8 0 ++ bytes.drop 16)).take 8

/-- The image of a workgroup that has been pre-empted, with its contexts. -/
def imageOf (s : State) (g : Workgroup) (l : Launch) (cx : Context) (pons : List Pontil) (code : Nat) (inspect : Bool) :
    List Byte × State :=
  let w := warpsOf g.size
  let slots := List.range (32 * w)
  let recs := slots.flatMap (fun t => match g.thread? t with
    | some x => bytesOf (threadBits x) 320
    | none => List.replicate 320 0)
  let rows := slots.flatMap (fun t => (List.range g.nregs).flatMap (fun j => match g.thread? t with
    | some x => bytesOf (x.regs.getD j 0).toNat 8
    | none => List.replicate 8 0))
  let p := pontilRecords pons s
  let body := bytesOf (headerBits s g l cx pons.length code inspect) 1024 ++ recs ++ rows ++ p.1
  (body.take 8 ++ imageSum body ++ body.drop 16, p.2)

/-! ## Reading -/

def byteSlice (bs : List Byte) (o n : Nat) : List Byte := (bs.drop o).take n
def byteNat (bs : List Byte) (o n : Nat) : Nat := ofBytes (byteSlice bs o n)

/-- Fields of a header. -/
def imgLength (h : Nat) : Nat := natField h 128 64
def imgCtx (h : Nat) : Nat := natField h 192 6
def imgWarps (h : Nat) : Nat := natField h 198 6
def imgRegs (h : Nat) : Nat := natField h 204 8
def imgSize (h : Nat) : Nat := natField h 212 11
def imgNpon (h : Nat) : Nat := natField h 223 2
def imgDie (h : Nat) : Nat := natField h 225 2
def imgInspect (h : Nat) : Bool := h.testBit 227
def imgIndex (h : Nat) : Nat := natField h 256 32
def imgLrec (h : Nat) : Nat := natField h 320 64
def imgCode (h : Nat) : Nat := natField h 448 16
def imgFmt (h j : Nat) : Word := BitVec.ofNat 64 (natField h (512 + 64 * j) 64)
def imgBind (h n : Nat) : Nat := natField h (1536 + 64 * n) 64

def codeKnown (n : Nat) : Bool := n == 0 || (codeOfNumber n).isSome

/-- MAGIC, VERSION, reserved bits and columns of Table 20.2; WGI is below W of the launch it names. -/
def headerOk (s : State) (cx : Context) (l : Option Launch) (h : Nat) : Bool :=
  natField h 0 32 == 0x5248454C && natField h 32 16 == 1 && natField h 48 16 == 0 && natField h 228 28 == 0 &&
  natField h 288 32 == 0 && natField h 464 48 == 0 && natField h 1280 256 == 0 && natField h 5632 2560 == 0 &&
  decide (1 ≤ imgRegs h) && decide (1 ≤ imgSize h ∧ imgSize h ≤ 1024) && decide (imgNpon h ≤ 2) &&
  decide (firstDie s.mode cx.device + imgDie h < firstDie s.mode cx.device + diesPerDevice s.mode) &&
  imgLrec h % 64 == 0 && codeKnown (imgCode h) &&
  (List.range 64).all (fun n => natField (imgBind h n) 17 15 == 0) &&
  (match l with
  | some l => decide (imgIndex h < recCount l.record)
  | none => true)

/-- Thread record `t`. -/
def imgThread (bs : List Byte) (t : Nat) : Nat := byteNat bs (1024 + 320 * t) 320

/-- Reserved bits and PC of a thread record. -/
def threadRecOk (r : Nat) : Bool := natField r 94 418 == 0 && natField r 0 64 % 8 == 0

def pontilOffset (h : Nat) : Nat := 1024 + 10240 * imgWarps h + 256 * imgRegs h * imgWarps h

/-- The record of saved context `k`. -/
def imgPontil (bs : List Byte) (h k : Nat) : List Byte := byteSlice bs (pontilOffset h + pontilBytes * k) pontilBytes

/-- LSTART and LEND of loop `k`. -/
def recLoop (r k : Nat) : Nat × Nat := (natField r (384 + 128 * k) 64, natField r (448 + 128 * k) 64)

/-- The active loops, and their places. -/
def recPlaces (r : Nat) : List Nat := ((List.range 4).filter (fun k => r.testBit (896 + k))).map (fun k => natField r (904 + 2 * k) 2)

/-- Reserved bits and columns of Table 20.4, over the first 4,096 bytes of a record. -/
def pontilRecOk (size r : Nat) : Bool :=
  let st := natField r 64 2
  let places := recPlaces r
  natField r 66 6 == 0 && natField r 77 3 == 0 && natField r 103 1 == 0 && natField r 109 3 == 0 &&
  natField r 115 13 == 0 && natField r 144 48 == 0 && natField r 900 4 == 0 && natField r 912 1136 == 0 &&
  natField r 5120 27648 == 0 && natField r 0 64 % 8 == 0 && (st == 1 || st == 2) && codeKnown (natField r 80 16) &&
  (st == 2 || natField r 80 16 == 0) && decide (3 ≤ natField r 112 3 ∧ natField r 112 3 ≤ 6) &&
  decide (natField r 134 10 < size) &&
  (List.range 4).all (fun k => (recLoop r k).1 % 8 == 0 && (recLoop r k).2 % 8 == 0 &&
    decide ((recLoop r k).1 ≤ (recLoop r k).2)) &&
  (List.range places.length).all (fun i => (places.filter (· == i)).length == 1)

def recFmt (r k : Nat) : Word := BitVec.ofNat 64 (natField r (4096 + 64 * k) 64)

/-- CFMT: f0 to f3 fixed, the others null or legal. -/
def recFmtsOk (r : Nat) : Bool :=
  (List.range 16).all (fun k => if k < 4 then recFmt r k == fixedSlot k else recFmt r k == 0 || fdefLegal (recFmt r k))

/-- The launch of a record address. -/
def State.launchAt (s : State) (va : Nat) : Option Launch := s.launches.find? (fun l => l.addr.toNat == va && l.joined.isNone)

/-- The length of b62 of a launch, as its entry stands. -/
def codeLen (s : State) (cx : Context) (l : Launch) : Nat :=
  match freshEntry s cx (blkCode l.block) with
  | some (d, _) => d.len
  | none => 0

/-- lehrld_checks (R290) but for the capacity, in their order: the launch the image belongs to. `ctx` is the restoring
context. (DEDUCED, log 39) -/
def imageChecks (s : State) (cx : Context) (bs : List Byte) : Except Code Launch :=
  let h := ofBytes (bs.take 1024)
  let l? := s.launchAt (imgLrec h)
  let threads := (List.range (32 * imgWarps h)).map (imgThread bs)
  let pons := (List.range (imgNpon h)).map (fun k => ofBytes ((imgPontil bs h k).take 4096))
  if !(headerOk s cx l? h) then .error .descField
  else if imgWarps h ≠ warpsOf (imgSize h) ∨ imgLength h ≠ imageLength (imgWarps h) (imgRegs h) (imgNpon h) then
    .error .descField
  else if !((threads.take (imgSize h)).all threadRecOk) || !(pons.all (pontilRecOk (imgSize h))) then .error .descField
  else if imageSum bs ≠ byteSlice bs 8 8 then .error .descField
  else if !((threads.take (imgSize h)).any (fun r => r.testBit 81)) || (threads.drop (imgSize h)).any (· != 0) then
    .error .descField
  else if !((List.range 12).all (fun j => imgFmt h j == 0 || fdefLegal (imgFmt h j))) || !(pons.all recFmtsOk) then
    .error .formatIllegal
  else match l? with
    | none => .error .launchBind
    | some l =>
      if imgInspect h || l.code.isSome || !(l.marks.any (fun m => m.index == imgIndex h)) then .error .launchBind
      else if imgCtx h ≠ l.ctx.val ∨ l.ctx ≠ cx.id ∨ imgSize h ≠ recWgsize l.record ∨ imgRegs h ≠ recRegs l.record then
        .error .launchBind
      else if !((List.range 64).all (fun n => imgBind h n == bindWord s cx l.block n)) then .error .launchBind
      else if !((threads.take (imgSize h)).all (fun r => decide (natField r 0 64 < codeLen s cx l))) ||
          !(pons.all (fun r => decide (natField r 0 64 < codeLen s cx l))) then .error .descField
      else .ok l

/-- A thread as an image gives it; `v` is what it has seen of memory. -/
def threadOf (bs : List Byte) (h t : Nat) (v : MemView) : Thread :=
  let r := imgThread bs t
  let n := imgRegs h
  { tid := t, pc := BitVec.ofNat 64 r, depth := natField r 64 16, parked := r.testBit 80, live := r.testBit 81
    stall := 0, wait := none
    regs := (List.range n).map (fun j => BitVec.ofNat 64 (byteNat bs (1024 + 10240 * imgWarps h + 8 * (n * t + j)) 8))
    preds := (List.range 7).map (fun k => r.testBit (87 + k))
    vms := (List.range 8).map (fun m => BitVec.ofNat 256 (natField r (512 + 256 * m) 256))
    fflags := BitVec.ofNat 5 (natField r 82 5), windows := [], owed := [], trap := none, view := v, poisoned := [] }

/-- A unit not marked empty that no load names: it reads as any value (R177). -/
def unnamedUnit (u : Nat) : EspRegion := ⟨u, 1, 0, 0, 0, 0, false, [], []⟩

/-- A store under the marks of an image: its regions stand, and units of them that are marked empty are gone; a unit that the store does
not hold and that is not marked empty reads as any value (R177, R288). -/
def underMarks (esp : List EspRegion) (marks : Nat) : List EspRegion :=
  let kept := esp.map (fun r => { r with gone := (List.range r.units).filterMap (fun u =>
    if marks.testBit (r.addr + u) then some (r.addr + u) else none) })
  kept ++ ((List.range 8192).filter (fun u => !(marks.testBit u) && unitEmpty kept u)).map unnamedUnit

/-- The store of a restored context (R288): as saved where ESP is the half as saved, under the marks EMPTY gives; with any other
contents every unit not marked empty reads as any value. -/
def espOf (s : State) (bs : List Byte) : List EspRegion :=
  let esp := match s.espVault.find? (fun p => byteSlice bs 545792 2097152 == arranged p.1) with
    | some p => p.2
    | none => []
  underMarks esp (byteNat bs 544768 1024)

/-- The active loops of a record, innermost first. -/
def loopsOf (r : Nat) : List Loop :=
  (List.range 4).filterMap (fun i =>
    ((List.finRange 4).find? (fun k => r.testBit (896 + k.val) && natField r (904 + 2 * k.val) 2 == i)).map (fun k =>
      ⟨k, BitVec.ofNat 64 (recLoop r k.val).1, BitVec.ofNat 64 (recLoop r k.val).2⟩))

/-- A context as its record gives it, on context `id` for workgroup `u`; `rdv` is its rendezvous object. -/
def pontilOf (s : State) (bs : List Byte) (id : PontilId) (u : Nat) (rdv : Word) (v : MemView) : Pontil :=
  let r := ofBytes (bs.take 4096)
  { id, state := if natField r 64 2 = 2 then .stopped else .running, pc := BitVec.ofNat 64 r
    q := (List.range 32).map (fun k => BitVec.ofNat 64 (natField r (2048 + 64 * k) 64))
    lc := (List.range 4).map (fun k => BitVec.ofNat 32 (natField r (256 + 32 * k) 32))
    loops := loopsOf r, cw := BitVec.ofNat 32 (natField r 96 7), phi := natField r 104 5
    flags := BitVec.ofNat 5 (natField r 72 5), code := natField r 80 16
    fmts := (List.range 16).map (recFmt r), rdv, rbind := Fin.ofNat 64 (natField r 128 6)
    relem := BitVec.ofNat 64 (natField r 192 64), rtid := natField r 134 10
    scope := (scopeOf (natField r 112 3)).getD .cluster, wg := u
    tiles := (List.range 16).map (fun a =>
      { cells := (List.range 4096).map (fun i => BitVec.ofNat 64 (byteNat bs (4096 + 8 * (4096 * a + i)) 8))
        rmax := (List.range 64).map (fun m => BitVec.ofNat 64 (byteNat bs (528384 + 16 * (64 * a + m)) 8))
        rsum := (List.range 64).map (fun m => BitVec.ofNat 64 (byteNat bs (528384 + 16 * (64 * a + m) + 8) 8)) })
    esp := espOf s bs, restored := some (byteSlice bs 545792 2097152), wait := none, view := v, drained := .empty }

end Machine
end Sys2Proof
end

