-- ==== Sys2Proof/Machine/MemoryOps.lean ====
section
/-! DEFINITION. Loads, stores, full/empty accesses and prefetch (R138 to R145), atomics (R146 to R151, R330, R331), fences
(R152). -/

namespace Sys2Proof
namespace Machine

/-! ## The target of an access -/

/-- An element of a binding: its binder, buffer, first bit and definition. -/
structure Target where
  bd : Binder
  d : Bound
  lo : Nat
  f : FDef
  deriving DecidableEq, Repr

/-- An alias binding takes bfloat16 only (R66). -/
def aliasOk (d : Bound) (f : FDef) : Bool := d.mxk == 0 || isBf16 f

/-- The buffer a binding grants to accesses under a definition: an alias's slot is judged before the entry's owner (R139). -/
def bufferFor (s : State) (bd : Binder) (b : Nat) (f : FDef) : Except Code (Bound × State) :=
  match entryOf s bd b with
  | .error c => .error c
  | .ok (d, s) =>
    if !(aliasOk d f) then .error .slotKind
    else match grantedBy bd b d with
      | .error c => .error c
      | .ok d => .ok (d, s)

/-- The checks of R139 in their order: slot, alias, and R72 over `n` elements. -/
def targetAt (s : State) (bd : Binder) (fmts : List Word) (fs : Slot) (bind : Fin 64) (e : Int) (n : FDef → Nat)
    (need : Rights) : Except Code (Target × State) :=
  match slotOf fmts fs kinds04 with
  | .error c => .error c
  | .ok f => match bufferFor s bd bind.val f with
    | .error c => .error c
    | .ok (d, s) => match checkSpan d (e * f.w) (n f * f.w) need with
      | .error c => .error c
      | .ok _ => .ok (⟨bd, d, (e * f.w).toNat, f⟩, s)

/-- The target of a thread's word, before the peer table is asked. -/
def targetHere (x : Member) (s : State) (m : MemOp) (n : FDef → Nat) (need : Rights) : Except Code (Target × State) :=
  targetAt s (binderOf s x.wg x.t) x.wg.fmts m.slot m.bind (elemIndex (x.t.readV m.ofsReg) m.ofs) n need

/-- The target of a thread's word, with the peer table (R306). -/
def targetOf (x : Member) (s : State) (m : MemOp) (n : FDef → Nat) (need : Rights) : Except Code (Target × State) :=
  match targetHere x s m n need with
  | .error c => .error c
  | .ok (t, s) => match checkPeers s t.d with
    | .error c => .error c
    | .ok _ => .ok (t, s)

/-- The domain address of bit `lo` of a target's element `i`. -/
def Target.bit (t : Target) (i : Nat) : Nat := t.lo + i * t.f.w

/-- The places of `n` elements. -/
def targetPlaces (s : State) (t : Target) : Nat → Except Code (List Place × State)
  | 0 => .ok ([], s)
  | n + 1 => match targetPlaces s t n with
    | .error c => .error c
    | .ok (ps, s) => match places s t.bd.ctx (t.d.span (t.bit n) t.f.w).1 (t.d.span (t.bit n) t.f.w).2 with
      | .error c => .error c
      | .ok (qs, s) => .ok (ps ++ qs, s)

/-- The first element of a target lies in a poisoned line; the detail of the code is its address (R279). -/
def poisonDetail (t : Target) : Word := BitVec.ofNat 64 (t.d.span t.lo t.f.w).1

/-- Go on with an access by a thread unless a far home die answers it with a code. -/
def onFar (x : Member) (s : State) (t : Target) (ps : List Place) (read ordered : Bool) (k : State → MRes) : MRes :=
  match farCode s t.d.base ps read ordered with
  | (some c, _) => .trap c (if c = .memPoison then poisonDetail t else x.t.pc)
  | (none, s) => k s

/-- The port of a thread's die on which its request leaves for an address, and the tag that it takes in the table of that port until its
result returns: ports 8 to 12 lead to the other dies of the package, and for another module it is a free choice (R281, R308; DESIGN
CHOICE, log 28). A request to its own die leaves by none. -/
def requestTag (s : State) (die va : Nat) : Option (Fin 13 × Nat) × State :=
  let to' := vaDie va
  if vaModule va ≠ s.module.toNat then
    (some (Fin.ofNat 13 (s.pick 13).1, s.uids), { (s.pick 13).2 with uids := s.uids + 1 })
  else if to' = die then (none, s)
  else (some (Fin.ofNat 13 (8 + if to' < die then to' else to' - 1), s.uids), { s with uids := s.uids + 1 })

/-! ## Loads and stores -/

/-- Read `n` elements, one access each: their bits in order and the releases read. -/
def readElems (s : State) (t : Target) (v : MemView) (mode : ReadMode) :
    Nat → Except Code (List Nat × List Rel × State × MemView)
  | 0 => .ok ([], [], s, v)
  | n + 1 => match readElems s t v mode n with
    | .error c => .error c
    | .ok (xs, rels, s, v) => match readElem s t.bd v mode t.d (t.bit n) t.f.w with
      | .error c => .error c
      | .ok (x, r, s, v) => .ok (xs ++ [x], rels ++ r, s, v)

/-- Write elements, one access each. -/
def writeElems (s : State) (t : Target) (w : Writer) (v : MemView) (reach : Reach) :
    Nat → List Nat → Except Code (State × MemView)
  | _, [] => .ok (s, v)
  | i, x :: xs => match writeElem s t.bd w v reach t.d (t.bit i) t.f.w x with
    | .error c => .error c
    | .ok (s, v) => writeElems s t w v reach (i + 1) xs

/-- Write the elements of a store; those that go to SO pages come after its agent's earlier ones, and are apart (R75, R76, R79). -/
def storeElems (s : State) (t : Target) (w : Writer) (v : MemView) (reach : Reach) (ps : List Place) (xs : List Nat) :
    Except Code (State × MemView) :=
  if anySo ps then
    match writeElems (ownParts s w.agent) t w v reach 0 xs with
    | .error c => .error c
    | .ok (z, v) => .ok (lateParts z s.nextWrite false, v)
  else writeElems s t w v reach 0 xs

/-- The writer of a thread's store: it carries the release fences before it, and is a release itself at its scope or not
(R83). -/
def storeWriter (s : State) (agent : Actor) (sc : Scope) (rel : Bool) (v : MemView) : Writer :=
  ⟨agent, none, false, v.fences, if rel then some (relOf s agent sc v) else none⟩

/-- ld and ldp, once their target is known. -/
def loadFrom (x : Member) (s : State) (i : Instr) (d : VReg) (m : MemOp) (t : Target) (n : Nat) : MRes :=
  if pathWaits s t.d then waitFor s .link i 0
  else match targetPlaces s t n with
    | .error c => .trap c x.t.pc
    | .ok (ps, s) =>
      if m.order != .plain && anyUo ps then .trap .orderKind x.t.pc
      else if anyPoison s ps then .trap .memPoison (poisonDetail t)
      else match blocked s false ps with
        | some s => waitFor s .link i 0
        | none => onFar x s t ps true (m.order != .plain) (fun s =>
          match readElems s t (s.viewOf x.wg.uid x.t.tid) (if n = 1 then .relaxed else .apart) n with
          | .error c => .trap c x.t.pc
          | .ok (xs, rels, s, v) =>
            let r := takeRels s t.bd.agent m.scope m.order.isAcquire rels v
            let k := requestTag r.1 x.wg.core.die.val t.d.base
            .done (k.2.setView x.wg.uid x.t.tid r.2)
              { writes := [.v d (BitVec.ofNat 64 (packElems t.f xs))], memory := true, load := true, tag := k.1 })

def bodyLoad (i : Instr) (d : VReg) (m : MemOp) (n : FDef → Nat) (x : Member) (s : State) : MRes :=
  match targetOf x s m n { r := true } with
  | .error c => .trap c x.t.pc
  | .ok (t, s) => loadFrom x s i d m t (n t.f)

/-- st and stp, once their target is known: elements of `v[S]`. -/
def storeTo (x : Member) (s : State) (i : Instr) (d : VReg) (m : MemOp) (t : Target) (n : Nat) : MRes :=
  if pathWaits s t.d then waitFor s .link i 0
  else match targetPlaces s t n with
    | .error c => .trap c x.t.pc
    | .ok (ps, s) =>
      if m.order != .plain && anyUo ps then .trap .orderKind x.t.pc
      else
        let v := s.viewOf x.wg.uid x.t.tid
        let w := (x.t.readV d).toNat
        match blocked s true ps with
        | some s => waitFor s .link i 0
        | none => onFar x s t ps false (m.order != .plain) (fun s =>
          match storeElems s t (storeWriter s t.bd.agent m.scope m.order.isRelease v) v (reachOf (m.evict == 3)) ps
            ((List.range n).map (elemOf t.f w)) with
          | .error c => .trap c x.t.pc
          | .ok (s, v) => .done (s.setView x.wg.uid x.t.tid v) {})

def bodyStore (i : Instr) (d : VReg) (m : MemOp) (n : FDef → Nat) (x : Member) (s : State) : MRes :=
  match targetOf x s m n { w := true } with
  | .error c => .trap c x.t.pc
  | .ok (t, s) => storeTo x s i d m t (n t.f)

def oneElem (_ : FDef) : Nat := 1

def execLd (c : Common) (d : VReg) (m : MemOp) (s : State) : Out :=
  .next (runCore (.ld c d m) (bodyLoad (.ld c d m) d m oneElem) s)

def execSt (c : Common) (d : VReg) (m : MemOp) (s : State) : Out :=
  .next (runCore (.st c d m) (bodyStore (.st c d m) d m oneElem) s)

def execLdp (c : Common) (d : VReg) (m : MemOp) (s : State) : Out :=
  .next (runCore (.ldp c d m) (bodyLoad (.ldp c d m) d m FDef.lanes) s)

def execStp (c : Common) (d : VReg) (m : MemOp) (s : State) : Out :=
  .next (runCore (.stp c d m) (bodyStore (.stp c d m) d m FDef.lanes) s)

/-! ## Full/empty accesses (R90, R91, R142 to R144) -/

/-- The granules of die SRAM that bytes from a location touch. -/
def granuleOf (loc : Nat) : Nat := loc / 16

/-- The granule of an element in die SRAM of this module. (DEDUCED, log 48) -/
def targetGranule (t : Target) : Option Nat :=
  let va := (t.d.span t.lo t.f.w).1
  if inWindow va then some (granuleOf (sramLoc (vaDie va) (vaOfs va - windowBase))) else none

/-- The checks of R90: FE_KIND outside die SRAM, FE_SPAN across granules. -/
def checkGranule (t : Target) : Except Code Nat :=
  match targetGranule t with
  | none => .error .feKind
  | some g =>
    let sp := t.d.span t.lo t.f.w
    if sp.1 % 16 + sp.2 ≤ 16 then .ok g else .error .feSpan

/-- The granule for which a thread waits, by the definitions of its issue (R133), and whether it waits to clear or to fill (R143). -/
def waitsOn (s : State) (g : Workgroup) (t : Thread) : Option (Nat × Bool × Nat) :=
  match t.wait with
  | none => none
  | some w =>
    if w.kind != .granule then none
    else
      let go (m : MemOp) (need : Rights) (fill : Bool) : Option (Nat × Bool × Nat) :=
        match targetOf ⟨{ g with fmts := w.fmts }, t, [t.tid]⟩ s m oneElem need with
        | .ok (y, _) => match targetGranule y with
          | some k => some (k, fill, w.since)
          | none => none
        | .error _ => none
      match w.instr with
      | .ldfeClr _ _ m => go m { r := true } false
      | .stfe _ _ m => go m { w := true } true
      | _ => none

/-- A waiter that reached the bank before `before` stands ahead. -/
def olderWaiter (s : State) (granule : Nat) (fill : Bool) (before : Nat) : Bool :=
  s.workgroups.any (fun g => g.threads.any (fun t => match waitsOn s g t with
    | some (k, f, n) => k == granule && f == fill && decide (n < before)
    | none => false))

/-- The number of a thread's own wait, or a number above every wait's. -/
def ownNumber (x : Member) (s : State) : Nat :=
  match x.t.wait with
  | some w => w.since
  | none => s.uids

/-- Acquire the fill that an observation of a full granule reads (R91); a later acquire fence takes it at its own scope. -/
def takeFill (s : State) (agent : Actor) (sc : Scope) (granule : Nat) (v : MemView) : State × MemView :=
  takeRels s agent sc true ((s.fullRels.filter (fun p => p.1 == granule)).map (·.2)) v

/-- What an agent has written in a granule of die SRAM stands at its bank when it sets the granule full: every later step there finds it,
whatever its scope (R81, R142). -/
def atBank (s : State) (agent : Actor) (granule : Nat) : List PointSeen :=
  (List.range 16).foldl (fun ps k =>
    match s.hist.find? (fun r => r.agent == agent && r.touches [16 * granule + k]) with
    | some r => pointRaise ps .home (16 * granule + k) r.id []
    | none => ps) s.pointSeen

/-- An agent sets a granule full as a release, with the release fences before it, whatever its bit held. -/
def setFull (s : State) (agent : Actor) (granule : Nat) (rels : List Rel) : State :=
  { s with
      full := if s.full.contains granule then s.full else granule :: s.full
      fullRels := rels.map (fun r => (granule, r)) ++ s.fullRels.filter (fun p => p.1 != granule)
      pointSeen := atBank s agent granule }

def setEmpty (s : State) (granule : Nat) : State :=
  { s with full := s.full.filter (fun k => k != granule), fullRels := s.fullRels.filter (fun p => p.1 != granule) }

/-- The step of ldfe and ldfe.clr at the bank of a full granule: it observes the fill, and so reads what the fill releases
(R91). A granule of another module is not of this one's. -/
def takeGranule (x : Member) (s : State) (d : VReg) (m : MemOp) (clear : Bool) (t : Target) (granule : Option Nat)
    (ps : List Place) : MRes :=
  let v := s.viewOf x.wg.uid x.t.tid
  let a := match granule with
    | some g => takeFill s t.bd.agent m.scope g v
    | none => (s, v)
  let r := readObject a.1 t.bd.agent a.2 ps
  let b := takeRels r.2.2.2.1 t.bd.agent m.scope true r.2.1 r.2.2.2.2
  let k := requestTag b.1 x.wg.core.die.val t.d.base
  let s := k.2.setView x.wg.uid x.t.tid b.2
  .done (match granule with
      | some g => if clear then setEmpty s g else s
      | none => s)
    { writes := [.v d (BitVec.ofNat 64 (elemBits t.d t.lo t.f.w (bytesOf r.1 ps.length)))], memory := true, load := true, tag := k.1 }

/-- A full/empty access waits at the bank of its granule; the first time its die counts it (Table 20.10, 1,310). -/
def waitGranule (x : Member) (s : State) (i : Instr) (t : Target) : MRes :=
  waitFor (if x.t.wait.isSome ∨ vaModule t.d.base ≠ s.module.toNat then s else s.count (vaDie t.d.base) 1310 1) .granule i 0

def bodyTake (i : Instr) (d : VReg) (m : MemOp) (clear : Bool) (x : Member) (s : State) : MRes :=
  match targetOf x s m oneElem { r := true } with
  | .error c => .trap c x.t.pc
  | .ok (t, s) => match checkGranule t with
    | .error c => .trap c x.t.pc
    | .ok granule =>
      if pathWaits s t.d then waitFor s .link i 0
      else match targetPlaces s t 1 with
        | .error c => .trap c x.t.pc
        | .ok (ps, s) =>
          if anyAway ps then
            (let k := s.pick 2
             if k.1 = 0 then waitGranule x k.2 i t
             else onFar x k.2 t ps true true (fun s => takeGranule x s d m clear t none ps))
          else if !(s.full.contains granule) || (clear && olderWaiter s granule false (ownNumber x s)) then
            waitGranule x s i t
          else if anyPoison s ps then .trap .memPoison (poisonDetail t)
          else takeGranule x s d m clear t (some granule) ps

def execLdfe (c : Common) (d : VReg) (m : MemOp) (s : State) : Out :=
  .next (runCore (.ldfe c d m) (bodyTake (.ldfe c d m) d m false) s)

def execLdfeClr (c : Common) (d : VReg) (m : MemOp) (s : State) : Out :=
  .next (runCore (.ldfeClr c d m) (bodyTake (.ldfeClr c d m) d m true) s)

/-- The step of stfe at the bank of an empty granule. -/
def fillGranule (x : Member) (s : State) (d : VReg) (m : MemOp) (t : Target) (granule : Nat) : MRes :=
  let v := s.viewOf x.wg.uid x.t.tid
  match writeElem s t.bd ⟨t.bd.agent, some .home, true, v.fences, some (relOf s t.bd.agent m.scope v)⟩ v .back t.d t.lo t.f.w
      (elemOf t.f (x.t.readV d).toNat 0) with
  | .error c => .trap c x.t.pc
  | .ok (s, v) =>
    let s := s.setView x.wg.uid x.t.tid v
    if vaModule t.d.base = s.module.toNat then .done (setFull s t.bd.agent granule (v.fences ++ [relOf s t.bd.agent m.scope v])) {}
    else .done s {}

def bodyFill (i : Instr) (d : VReg) (m : MemOp) (x : Member) (s : State) : MRes :=
  match targetOf x s m oneElem { w := true } with
  | .error c => .trap c x.t.pc
  | .ok (t, s) => match checkGranule t with
    | .error c => .trap c x.t.pc
    | .ok granule =>
      if pathWaits s t.d then waitFor s .link i 0
      else if vaModule t.d.base ≠ s.module.toNat then
        (let k := s.pick 2
         if k.1 = 0 then waitGranule x k.2 i t
         else match targetPlaces k.2 t 1 with
           | .error c => .trap c x.t.pc
           | .ok (ps, s) => onFar x s t ps false true (fun s => fillGranule x s d m t granule))
      else if s.full.contains granule || olderWaiter s granule true (ownNumber x s) then waitGranule x s i t
      else fillGranule x s d m t granule

def execStfe (c : Common) (d : VReg) (m : MemOp) (s : State) : Out :=
  .next (runCore (.stfe c d m) (bodyFill (.stfe c d m) d m) s)

/-- pf fills a line: not of die SRAM, of an SO page, or of the far tier (R145). -/
def pfFills (ps : List Place) : Bool :=
  !(ps.any Place.isSram) && !(anySo ps) && !(ps.any (fun p => p.loc?.any isFar)) && !(anyAway ps)

/-- pf (R145): a hint, which may cause a fill and is otherwise without effect. -/
def execPf (c : Common) (m : MemOp) (s : State) : Out :=
  .next (runCore (.pf c m) (fun x s =>
    match targetOf x s m oneElem { r := true } with
    | .ok (t, _) => match targetPlaces s t 1 with
      | .ok (ps, _) => .done (if pfFills ps then notePage s t.bd.agent.die? (t.d.span t.lo t.f.w).1 else s) {}
      | .error _ => .done s {}
    | .error _ => .done s {}) s)

/-! ## Atomics -/

/-- The point an atomic is performed at (R88, R148, R331). -/
def atomPoint (agent : Actor) (sc : Scope) (home : Bool) : Point := if home then .home else scopePoint agent sc

/-- Whether a path carries an atomic on an element of a slot (Table 18.8). -/
def pathCarries (s : State) (va : Nat) (f : FDef) : Bool :=
  if vaModule va = s.module.toNat then true
  else match s.peer? (vaModule va) with
    | none => false
    | some p => match p.far with
      | 1 => true
      | 2 => p.natAtomics && decide (f.kind = 1 ∨ f.kind = 2) && decide (f.w = 32 ∨ f.w = 64)
      | _ => false

/-- The checks of R147 after R72: alignment, path, page kind. -/
def checkAtomic (s : State) (t : Target) (sc : Scope) : Except Code (List Place × State) :=
  if !(oneWord t.d t.lo t.f.w) then .error .atomicAlign
  else if (checkPeers s t.d).isOk == false then .error .bounds
  else if (sc.atLeast .device || t.d.mxk != 0 || inWindow t.d.base) && !(pathCarries s t.d.base t.f) then
    .error .atomicPath
  else match targetPlaces s t 1 with
    | .error c => .error c
    | .ok (ps, s) => if anyUo ps then .error .orderKind else .ok (ps, s)

/-- Some place needs the home slice: an SO page, or die SRAM (R76, R148). -/
def needsHome (t : Target) (ps : List Place) : Bool :=
  t.d.mxk != 0 || ps.any (fun p => match p with
    | .here _ .so | .here _ .sram => true
    | _ => false)

/-- The indivisible step of an atomic (R147): the bits found, its flags, the state and the view. The bits beside the element
keep the latest bytes; through an alias the whole block is read and written back (R331). -/
def atomStep (s : State) (op : AtomOp) (t : Target) (sc : Scope) (ord : Order) (hint : Bool) (ps : List Place) (x y : Nat)
    (v : MemView) : Nat × Flags × State × MemView :=
  let p := atomPoint t.bd.agent sc (needsHome t ps)
  let va := (t.d.span t.lo t.f.w).1
  let r := readPart (notePage s t.bd.agent.die? va) t.bd.agent v (.atPoint p) ps
  let old := elemBits t.d t.lo t.f.w r.1
  let new := combine op t.f old x y
  let s := r.2.2.1
  let w : Writer := ⟨t.bd.agent, some p, true, inherited s p r.2.2.2 (ps.filterMap Place.loc?) ++ v.fences,
    if ord.isRelease then some (relOf s t.bd.agent sc v) else none⟩
  let a := takeRels s t.bd.agent sc ord.isAcquire r.2.1 r.2.2.2
  if op == .cas && old != x then (old, new.2, passOver a.1 p a.2 (ps.filterMap Place.loc?), a.2)
  else
    let under := if t.d.mxk = 0 then latestBytes a.1 ps else r.1
    let z := storeBytes a.1 w a.2 (if t.d.mxk = 0 then reachOf hint else .now) true va ps
      (elemBytes t.d t.lo t.f.w new.1 under)
    (old, new.2, z.1, z.2)

def bodyAtom (i : Instr) (op : AtomOp) (d : VReg) (m : MemOp) (x : Member) (s : State) : MRes :=
  match targetHere x s m oneElem { a := true } with
  | .error c => .trap c x.t.pc
  | .ok (t, s) => match checkAtomic s t m.scope with
    | .error c => .trap c x.t.pc
    | .ok (ps, s) =>
      if pathWaits s t.d then waitFor s .link i 0
      else if anyPoison s ps then .trap .memPoison (poisonDetail t)
      else match blocked s true ps with
      | some s => waitFor s .link i 0
      | none => onFar x s t ps true true (fun s =>
        let r := atomStep s op t m.scope m.order (m.evict == 3) ps (elemOf t.f (x.t.readV d).toNat 0)
          (elemOf t.f (x.t.readV (d + 1)).toNat 0) (s.viewOf x.wg.uid x.t.tid)
        let k := requestTag r.2.2.1 x.wg.core.die.val t.d.base
        .done (k.2.setView x.wg.uid x.t.tid r.2.2.2)
          { writes := [.v d (BitVec.ofNat 64 r.1)], flags := r.2.1, flagged := true, memory := true, tag := k.1 })

/-- A gang's atomics: its members one after another in ascending home lane (R149). -/
def runAtom (i : Instr) (body : Member → State → MRes) (s : State) : State := (runCore i body s).endGang

def execAtomAdd (c : Common) (d : VReg) (m : MemOp) (s : State) : Out :=
  .next (runAtom (.atomAdd c d m) (bodyAtom (.atomAdd c d m) .add d m) s)

def execAtomMin (c : Common) (d : VReg) (m : MemOp) (s : State) : Out :=
  .next (runAtom (.atomMin c d m) (bodyAtom (.atomMin c d m) .min d m) s)

def execAtomMax (c : Common) (d : VReg) (m : MemOp) (s : State) : Out :=
  .next (runAtom (.atomMax c d m) (bodyAtom (.atomMax c d m) .max d m) s)

def execAtomAnd (c : Common) (d : VReg) (m : MemOp) (s : State) : Out :=
  .next (runAtom (.atomAnd c d m) (bodyAtom (.atomAnd c d m) .and d m) s)

def execAtomOr (c : Common) (d : VReg) (m : MemOp) (s : State) : Out :=
  .next (runAtom (.atomOr c d m) (bodyAtom (.atomOr c d m) .or d m) s)

def execAtomXor (c : Common) (d : VReg) (m : MemOp) (s : State) : Out :=
  .next (runAtom (.atomXor c d m) (bodyAtom (.atomXor c d m) .xor d m) s)

def execAtomXchg (c : Common) (d : VReg) (m : MemOp) (s : State) : Out :=
  .next (runAtom (.atomXchg c d m) (bodyAtom (.atomXchg c d m) .xchg d m) s)

def execAtomCas (c : Common) (d : VReg) (m : MemOp) (s : State) : Out :=
  .next (runAtom (.atomCas c d m) (bodyAtom (.atomCas c d m) .cas d m) s)

/-! ## Fences -/

/-- The order of SC fences (R86): this one follows every earlier one, and later reads see what the agents of those whose scopes include
it had written before them. That is no happens-before, so that no release of this agent carries it. -/
def scJoin (s : State) (agent : Actor) (sc : Scope) (v : MemView) : State × MemView :=
  let mine := s.scFences.filter (fun x => included s.mode sc agent x.scope x.agent)
  ({ s with scFences := s.scFences ++ [⟨agent, sc, ownFloor s agent 0⟩] },
   { v with reads := mine.foldl (fun f x => floorJoin f x.floor) v.reads })

/-- A fence when everything it waits for has reached its point (R152, R83, R78, R86). -/
def doFence (s : State) (agent : Actor) (sc : Scope) (ord : Order) (isSc : Bool) (v : MemView) : State × MemView :=
  let a := if ord.isRelease || isSc then releaseUo s agent sc v else (s, v)
  let b := if ord.isAcquire || isSc then acquireRels a.1 agent sc a.2.seen a.2 else a
  let c := if isSc then scJoin b.1 agent sc b.2 else b
  if ord.isRelease || isSc then
    (c.1, { c.2 with fences := c.2.fences ++ [{ relOf c.1 agent sc c.2 with fence := true }] })
  else c

/-- The fence of a word, or nothing. -/
def fenceOf : Instr → Option (Scope × Order × Bool)
  | .fence _ sc o => some (sc, o, false)
  | .fenceSc _ sc => some (sc, .plain, true)
  | _ => none

/-- A thread waits at a fence from its issue; the fence is performed once its results of memory have returned. -/
def fenceDoneBody (i : Instr) (x : Member) (s : State) : MRes :=
  match fenceOf i with
  | none => .done s {}
  | some (sc, o, k) =>
    if x.t.owed.any (·.memory) then waitFor s .fence i 0
    else
      let r := doFence s (binderOf s x.wg x.t).agent sc o k (s.viewOf x.wg.uid x.t.tid)
      .done (r.1.setView x.wg.uid x.t.tid r.2) {}

def execFence (c : Common) (sc : Scope) (o : Order) (s : State) : Out :=
  .next (runCore (.fence c sc o) (fun _ s => waitFor s .fence (.fence c sc o) 0) s)

def execFenceSc (c : Common) (sc : Scope) (s : State) : Out :=
  .next (runCore (.fenceSc c sc) (fun _ s => waitFor s .fence (.fenceSc c sc) 0) s)

end Machine
end Sys2Proof
end

