-- ==== Sys2Proof/Machine/Saves.lean ====
section
/-! DEFINITION. Pre-emption (R44, R174), saves and restores (R289 to R291), save areas (R247), what follows a trap (R273)
and how a launch ends (R274). -/

namespace Sys2Proof
namespace Machine

/-! ## Queue state words (R245, Table 17.7) -/

/-- Workgroups of a queue's launches now placed. -/
def residentOn (s : State) (ctx q : Nat) : Nat :=
  (s.workgroups.filter (fun g => match s.launch? g.launch with
    | some l => l.ctx.val == ctx && l.queue == q
    | none => false)).length

/-- Accepted launches of a queue not fully placed. -/
def waitingOn (s : State) (ctx q : Nat) : Nat :=
  (s.launches.filter (fun l => l.ctx.val == ctx && l.queue == q && (s.diesOf ctx).any (fun d => l.pendingOn s d))).length

/-- The state of a queue (R245). WAITING has no value for 2^24 launches, and stays at its largest (DESIGN CHOICE, log 22). -/
def queueWord (s : State) (ctx q : Nat) : Word :=
  match s.heldQueue ctx q with
  | none => 0
  | some x => BitVec.ofNat 64 (bitOf x.paused + 4 * x.prio.val + 16 * bitOf x.pre +
      2 ^ 8 * (min (waitingOn s ctx q) (2 ^ 24 - 1)) + 2 ^ 32 * (min (residentOn s ctx q) (2 ^ 32 - 1)))

/-! ## Results of memory and of queues -/

/-- The writes of an owed result: of `hqctl.drain`, the queue's state as it is now. -/
def Owed.result (o : Owed) (s : State) (ctx : Nat) : List RegWrite :=
  match o.queue with
  | none => o.writes
  | some q => o.writes.map (fun w => match w with
    | .v r _ => .v r (queueWord s ctx q)
    | w => w)

/-- An owed result whose queue still has resident workgroups (R245). -/
def Owed.held (o : Owed) (s : State) (ctx : Nat) : Bool :=
  match o.queue with
  | none => false
  | some q => residentOn s ctx q != 0

/-- Deliver an owed result to its thread. (DEDUCED, log 19) -/
def Thread.deliver (t : Thread) (s : State) (ctx : Nat) (o : Owed) : Thread :=
  ((o.result s ctx).foldl Thread.writeLate t).mergeFlags o.flags

/-! ## Pre-emption -/

/-- Some thread is owed the state of a queue that has not drained, so its results cannot yet be written (R44, R245). (DEDUCED, log 40) -/
def drainPending (s : State) (g : Workgroup) : Bool := g.threads.any (fun t => t.owed.any (fun o => o.held s g.ctx))

/-- An instruction whose wait ends with a save, to be issued again after a restore, whatever it waits for (R44). -/
def waitsAgain : Instr → Bool
  | .ldfe .. | .ldfeClr .. | .stfe .. | .bwait .. => true
  | _ => false

/-- Some thread has issued an instruction that waits for a path, a frame or a die, and that completes before an image is taken
(R44, R160, R231). (DEDUCED, log 40) -/
def linkPending (g : Workgroup) : Bool :=
  g.threads.any (fun t => match t.wait with
    | some w => w.kind == .link && !(waitsAgain w.instr)
    | none => false)

/-- Some instruction that the workgroup has issued must complete before its image is taken. -/
def savePending (s : State) (g : Workgroup) : Bool := drainPending s g || linkPending g

/-- A thread that waits at a fence has its fence performed; every other wait leaves its instruction to be issued again. -/
def endWait (s : State) (g : Workgroup) (t : Thread) : State × Thread :=
  match t.wait with
  | none => (s, t)
  | some w => match fenceOf w.instr with
    | some (sc, o, k) =>
      let r := doFence s (binderOf s g t).agent sc o k t.view
      (r.1, Thread.resume { t with view := r.2 } (stallOf w.instr) {})
    | none => (s, { t with wait := none })

/-- Every issued instruction of a thread completes: results are written, stores are performed (R44, R141, R152). -/
def quiesceThread (s : State) (g : Workgroup) (t : Thread) : State × Thread :=
  let t := t.owed.foldl (fun t o => t.deliver s g.ctx o) t
  let r := endWait s g { t with owed := [] }
  let f := releaseUo r.1 (binderOf s g t).agent .system r.2.view
  (f.1, { r.2 with view := f.2, windows := [], stall := 0 })

def quiesceThreads (g : Workgroup) : List Thread → State → State × List Thread
  | [], s => (s, [])
  | t :: ts, s =>
    let r := if t.live then quiesceThread s g t
      else (s, { t.owed.foldl (fun t o => t.deliver s g.ctx o) t with owed := [], windows := [], stall := 0, wait := none })
    let q := quiesceThreads g ts r.1
    (q.1, r.2 :: q.2)

/-- An ocld empties the granules it takes (FEC of its operand word). -/
def clearsTaken (p : Pontil) (i : Instr) : Bool :=
  match i with
  | .ocld _ d _ => (p.getQ d).getLsbD 56
  | _ => false

/-- A context waiting at ocld has no effect from it: the granules it emptied are full again (R174). -/
def untake (s : State) (p : Pontil) : State × Pontil :=
  match p.wait with
  | none => (s, p)
  | some w =>
    if clearsTaken p w.instr then
      ({ s with
          full := w.taken.foldl (fun f x => if f.contains x.1 then f else x.1 :: f) s.full
          fullRels := w.fills ++ s.fullRels }, { p with wait := none })
    else (s, { p with wait := none })

/-- The contexts of a workgroup: running, or stopped and still associated with it, lowest first (R173, R174). -/
def contextsOf (s : State) (u : Nat) : List Pontil :=
  let mine := s.pontils.filter (fun p => p.wg == u && p.state != .free)
  mine.filter (fun p => p.id.ctx.val == 0) ++ mine.filter (fun p => p.id.ctx.val == 1)

def quiesceContexts : List Pontil → State → State × List Pontil
  | [], s => (s, [])
  | p :: ps, s =>
    let r := untake s p
    let f := releaseDrained r.1 r.2 .system
    let q := quiesceContexts ps f.1
    (q.1, { f.2 with view := f.2.allView, drained := .empty } :: q.2)

/-- A workgroup stopped between gangs, with its routines, everything it issued complete (R44, R174). -/
structure Stopped where
  g : Workgroup
  pons : List Pontil
  s : State

def preempt (s : State) (g : Workgroup) : Stopped :=
  let r := quiesceThreads g g.threads s
  let q := quiesceContexts (contextsOf s g.uid) r.1
  ⟨{ g with threads := r.2 }, q.2, q.1⟩

/-- The writes of a workgroup's threads and contexts belong to what its launch's completion releases (R243). -/
def noteAll (s : State) (g : Workgroup) (pons : List Pontil) : State :=
  let s := g.threads.foldl (fun s t => noteExit s g.launch (binderOf s g t).agent) s
  pons.foldl (fun s p => noteExit s g.launch (.pontil p.id)) s

/-- A workgroup leaves its core, and its contexts are free. -/
def vacate (s : State) (g : Workgroup) : State :=
  refreshAges { s with
    workgroups := s.workgroups.filter (fun h => h.uid != g.uid)
    pontils := s.pontils.map (fun p => if p.wg = g.uid then
      { Pontil.idle p.id with wg := 2 ^ 64, flags := p.flags, pc := p.pc } else p) }

/-- Discard a workgroup (R274). -/
def discard (s : State) (g : Workgroup) : State :=
  let p := preempt s g
  vacate (noteAll p.s p.g p.pons) g

/-- Free a saved workgroup's place and mark its index saved (R289). -/
def evict (p : Stopped) (s : State) : State :=
  let s := noteAll s p.g p.pons
  let s := s.modLaunch p.g.launch (fun l => { l with
    marks := ⟨p.g.index, p.g.uid, p.g.threads.map (·.view), p.pons.map (·.view)⟩ :: l.marks })
  vacate s p.g

/-! ## The code a stopped workgroup reports -/

/-- The traps of a workgroup's threads in ascending home lane, then warp. -/
def trapsOf (g : Workgroup) : List (Code × Word) :=
  (List.range 32).flatMap (fun l => (g.threads.filter (fun t => t.lane == l)).filterMap (·.trap))

/-- The trap that decides a workgroup's disposition: one of class E if there is one (DESIGN CHOICE, log 23). -/
def trapOf (g : Workgroup) : Option (Code × Word) :=
  match (trapsOf g).find? (fun x => codeClass x.1 == .ends) with
  | some x => some x
  | none => (trapsOf g).head?

def trapNumber (g : Workgroup) : Nat :=
  match trapOf g with
  | some x => codeNumber x.1
  | none => 0

/-! ## Save areas (R247) -/

/-- The entries of an index: offset and length of each image. -/
def areaEntries (bytes : List Byte) : List (Nat × Nat) :=
  (List.range 255).map (fun k => (byteNat bytes (16 * k + 16) 8, byteNat bytes (16 * k + 24) 4))

/-- A reserved place: entry, offset, length. -/
structure Room where
  entry : Nat
  ofs : Nat
  len : Nat
  deriving DecidableEq, Repr

/-- An event of a die's dispatcher about a workgroup. -/
def saveEvent (s : State) (g : Workgroup) (code detail : Nat) : State :=
  s.emit 0 6 g.core.die.val code g.ctx (g.handle s.mode) detail

/-- Round up to a multiple of 64. -/
def up64 (n : Nat) : Nat := ceilDiv n 64 * 64

/-- The lowest free entry, and the lowest offset that overlaps no image of an entry in use. -/
def findRoom (ents : List (Nat × Nat)) (taken : List Room) (salen len : Nat) : Option Room :=
  let used := (ents.filter (fun e => e.1 != 0)) ++ taken.map (fun r => (r.ofs, r.len))
  let fits := fun o => decide (o + len ≤ salen) && used.all (fun e => decide (o + len ≤ e.1 ∨ e.1 + e.2 ≤ o))
  let starts := (4096 :: used.map (fun e => max 4096 (up64 (e.1 + e.2)))).filter fits
  let entry := (List.range 255).find? (fun k =>
    (ents.getD k (1, 0)).1 == 0 && !(taken.any (fun r => r.entry == k)))
  match entry, starts with
  | some k, o :: os => some ⟨k, os.foldl min o, len⟩
  | _, _ => none

/-- A free place in the area of a workgroup's queue; the index is read as memory holds it, and a page of it that is not mapped
sends LEASE_LOST (R247). -/
def reserve (s : State) (g : Workgroup) (ctx : Nat) (q : Queue) (taken : List Room) (len : Nat) : Option Room × State :=
  match readSpan s (.dispatcher g.core.die) ctx .empty .latest q.sabase.toNat 4096 with
  | .error _ => (none, saveEvent s g (codeNumber .leaseLost) 0)
  | .ok r => (findRoom (areaEntries r.bytes) taken q.salen len, r.s)

/-- Every page of an index and of a reserved place is mapped. -/
def areaMapped (s : State) (ctx : Nat) (q : Queue) (r : Room) : Bool :=
  (places s ctx q.sabase.toNat 4096).isOk && (places s ctx (q.sabase.toNat + r.ofs) r.len).isOk

/-- One write of a save, a release at system scope. -/
def areaWrite (s : State) (agent : Actor) (ctx va : Nat) (bytes : List Byte) : State :=
  writeNow s { Writer.plain agent with release := some ⟨.system, agent, ownFloor s agent 0, [], s.now, false⟩ } ctx va bytes

/-- Add to NUSED. -/
def addUsed (s : State) (agent : Actor) (ctx : Nat) (q : Queue) (up : Bool) : State :=
  match readSpan s agent ctx .empty .latest q.sabase.toNat 4 with
  | .error _ => s
  | .ok r =>
    let n := ofBytes r.bytes
    areaWrite r.s agent ctx q.sabase.toNat (bytesOf (if up then n + 1 else n - 1) 4)

/-- WHY of an image. -/
def whyRequeued : Nat := 1
def whyDebug : Nat := 2
def whyInspect : Nat := 4

/-- Write a stopped workgroup's image into its reserved place, then the entry, then NUSED. -/
def writeImage (p : Stopped) (l : Launch) (cx : Context) (q : Queue) (r : Room) (why : Nat) : State :=
  let agent := Actor.dispatcher p.g.core.die
  let im := imageOf p.s p.g l cx p.pons (trapNumber p.g) (decide (why = whyInspect))
  let s := areaWrite im.2 agent cx.id.val (q.sabase.toNat + r.ofs) im.1
  let s := areaWrite s agent cx.id.val (q.sabase.toNat + 16 + 16 * r.entry)
    (bytesOf r.ofs 8 ++ bytesOf r.len 4 ++ bytesOf why 4)
  addUsed s agent cx.id.val q true

/-- The length of a workgroup's image. -/
def lengthOf (s : State) (g : Workgroup) : Nat := imageLength (warpsOf g.size) g.nregs (contextsOf s g.uid).length

/-- The launch, context and queue of a workgroup. -/
def ownersOf (s : State) (g : Workgroup) : Option (Launch × Context × Queue) :=
  match s.launch? g.launch, s.context? g.ctx with
  | some l, some cx => (s.queueOf l).map (fun q => (l, cx, q))
  | _, _ => none

/-- Save a workgroup into its queue's area, at a place reserved or found now: the image's address, the workgroup as it was
stopped, the state; an unmapped page of the area sends LEASE_LOST. The workgroup has not left its core. -/
def saveToArea (s : State) (g : Workgroup) (room : Option Room) (why : Nat) : Option (Nat × Room × Stopped) × State :=
  match ownersOf s g with
  | none => (none, s)
  | some (l, cx, q) =>
    let found := match room with
      | some r => (some r, s)
      | none => reserve s g cx.id.val q [] (lengthOf s g)
    match found with
      | (none, s) => (none, s)
      | (some r, s) =>
        if !(areaMapped s cx.id.val q r) then (none, saveEvent s g (codeNumber .leaseLost) 0)
        else
          let p := preempt s g
          let t := writeImage p l cx q r why
          (some (q.sabase.toNat + r.ofs, r, p), t)

/-! ## What follows a trap (R273) -/

/-- The save area of a workgroup's queue lies behind what makes accesses wait. -/
def areaWaits (s : State) (g : Workgroup) : Bool :=
  match ownersOf s g with
  | none => false
  | some (_, cx, q) => spanWaits s true cx.id.val q.sabase.toNat (max 4096 q.salen)

/-- The disposition of a workgroup with a trap `c`. -/
def dispose (s : State) (g : Workgroup) (c : Code) : State :=
  let debug := s.isDebug g.ctx
  let ends := codeClass c == .ends
  if debug && !ends then
    match saveToArea s g none whyDebug with
    | (some (va, _, p), s) => evict p (saveEvent s g (codeNumber c) va)
    | (none, s) => saveEvent (s.setWg { g with disposed := true }) g (codeNumber c) 0
  else
    let s := if debug then
        (match saveToArea s g none whyInspect with
         | (some (va, _, _), s) => saveEvent s g (codeNumber c) va
         | (none, s) => saveEvent s g (codeNumber c) 0)
      else s
    discard (endLaunch s g.launch c) g

def execTrapDisposition (u : Nat) (s : State) : Out :=
  .next (match s.wg? u with
    | none => s
    | some g =>
      if !g.halted || g.disposed || (s.isDebug g.ctx && (savePending s g || areaWaits s g)) then s
      else match trapOf g with
        | none => s
        | some (c, _) => dispose s g c)

/-! ## The end of a launch (R274) -/

/-- Discard one workgroup of an ended launch, once what it has issued is complete; R273 still lets one that raised a code of
class E under DEBUG be saved. -/
def endWg (s : State) (g : Workgroup) : State :=
  if linkPending g then s
  else match trapOf g with
  | some (c, _) =>
    if g.halted && !g.disposed && codeClass c == .ends && !(drainPending s g) then dispose s g c else discard s g
  | none => discard s g

def execLaunchEnd (u : Nat) (s : State) : Out :=
  .next (match s.launch? u with
    | none => s
    | some l =>
      if l.code.isNone then s
      else refreshAges ((s.workgroups.filter (fun g => g.launch == u)).foldl endWg
        (s.modLaunch u (fun l => { l with saved := [], marks := [] }))))

/-! ## Room on a core (R8, R277) -/

def wgsOn (s : State) (c : CoreId) : List Workgroup := s.workgroups.filter (fun g => g.core == c)

def sumOf {α : Type} (f : α → Nat) (xs : List α) : Nat := (xs.map f).foldl (· + ·) 0

/-- A core that holds the workgroups `gs` has room for one of `w` warps of `n` registers. -/
def roomBeside (gs : List Workgroup) (w n : Nat) : Bool :=
  decide (gs.length < Config.coreSlots) &&
  decide (sumOf (fun g => 32 * warpsOf g.size) gs + 32 * w ≤ Config.coreThreads) &&
  decide (sumOf (fun g => warpsOf g.size * g.nregs) gs + w * n ≤ Config.coreRows)

def coreRoom (s : State) (c : CoreId) (w n : Nat) : Bool := roomBeside (wgsOn s c) w n

/-- Contexts of a cluster that no routine runs on, lowest first. -/
def freeContexts (s : State) (die : Fin 4) (cl : Fin 32) : List PontilId :=
  ((List.finRange 2).map (fun k => PontilId.mk die cl k)).filter (fun p => match s.pontil? p with
    | some x => x.state != .running
    | none => true)

/-- Free workgroup slots of a core. -/
def freeSlots (s : State) (c : CoreId) : List (Fin 16) :=
  (List.finRange 16).filter (fun k => !((wgsOn s c).any (fun g => g.slot == k)))

/-- A free slot of a core: which one is not fixed (DESIGN CHOICE, log 24). -/
def pickSlot (s : State) (c : CoreId) : Fin 16 × State :=
  let k := s.pick (freeSlots s c).length
  ((freeSlots s c).getD k.1 0, k.2)

/-- The cores of a die in ascending handle order (Table 16.3). -/
def coresOf (die : Fin 4) : List CoreId :=
  (List.finRange 4).flatMap (fun k => (List.finRange 32).map (fun c => ⟨die, c, k⟩))

/-- A core meets R277 for an image with header `h`. -/
def imageFits (s : State) (h : Nat) (c : CoreId) : Bool :=
  coreRoom s c (imgWarps h) (imgRegs h) && decide (imgNpon h ≤ (freeContexts s c.die c.cluster).length)

/-! ## Restores (R290, R291) -/

/-- The rendezvous object of a restored context: RBIND and RELEM through the launch's bindings, b63 the slice of thread
RTID. -/
def rendezvousOf (s : State) (g : Workgroup) (l : Launch) (r : Nat) : Word :=
  let bd : Binder := ⟨.thread g.core g.uid 0 0, g.ctx, l.block, some (blkSlen l.block * (g.size * g.index + natField r 134 10))⟩
  match bindingEntry s bd (natField r 128 6) with
  | .ok (d, _) => BitVec.ofInt 64 (d.base + 8 * signedOf 64 (natField r 192 64))
  | .error _ => 0

/-- Start the saved contexts of an image on free contexts of the cluster. -/
def placeContexts (bs : List Byte) (g : Workgroup) (l : Launch) (views : List MemView) (h : Nat) :
    List (Nat × PontilId) → State → State
  | [], s => s
  | (k, id) :: rest, s =>
    let rec' := imgPontil bs h k
    let p := pontilOf s rec' id g.uid (rendezvousOf s g l (ofBytes (rec'.take 4096))) (views.getD k .empty)
    placeContexts bs g l views h rest (s.setPontil p)

/-- The queue of a launch and its context. -/
def queueOfLaunch (s : State) (l : Launch) : Option (Queue × Context) :=
  match s.queueOf l, s.context? l.ctx.val with
  | some q, some cx => some (q, cx)
  | _, _ => none

/-- Free the entry of a dispatcher's save once its image is restored (R247). -/
def freeEntry (s : State) (ctx : Nat) (q : Queue) (agent : Actor) (entry : Nat) : State :=
  addUsed (areaWrite s agent ctx (q.sabase.toNat + 16 + 16 * entry) (List.replicate 8 0)) agent ctx q false

/-- Free the entries of a dispatcher's saves of a workgroup that has been restored, whoever restored it (R247). -/
def freeSaved (s : State) (l : Launch) (index : Nat) (agent : Actor) : State :=
  match queueOfLaunch s l with
  | none => s
  | some (q, cx) =>
    (l.saved.filter (fun x => x.index == index)).foldl (fun s x => freeEntry s cx.id.val q agent x.entry) s

/-- Place an image that has passed every check on a core: the new handle and the state. `seen` is what the read of the
image acquired. The workgroup keeps its number (R82). -/
def placeImage (s : State) (l : Launch) (bs : List Byte) (c : CoreId) (seen : MemView) : Nat × State :=
  let h := ofBytes (bs.take 1024)
  let mark := match l.marks.find? (fun m => m.index == imgIndex h) with
    | some m => m
    | none => ⟨imgIndex h, 0, [], []⟩
  let view := fun (v : MemView) => { v with floor := floorJoin v.floor seen.floor, uo := unionOf v.uo seen.uo }
  let sl := pickSlot s c
  let g : Workgroup :=
    { uid := mark.uid, core := c, slot := sl.1, ctx := l.ctx.val, launch := l.uid, index := imgIndex h
      size := imgSize h, nregs := imgRegs h, fmts := (List.range 12).map (imgFmt h), placed := s.tickOf c.die.val
      halted := false, disposed := false, formed := []
      threads := (List.range (imgSize h)).map (fun t => threadOf bs h t (view (mark.views.getD t .empty))) }
  let s := freeSaved { sl.2 with workgroups := sl.2.workgroups ++ [g] } l g.index (.dispatcher c.die)
  let s := s.modLaunch l.uid (fun l => { l with
    marks := l.marks.filter (fun m => m.index != imgIndex h)
    saved := l.saved.filter (fun x => x.index != imgIndex h) })
  let free := (freeContexts s c.die c.cluster).take (imgNpon h)
  let s := placeContexts bs g l (mark.pontilViews.map view) h ((List.range free.length).zip free) s
  (g.handle s.mode, refreshAges s)

/-- An image whose checks have answered, placed on the first of some cores that has room. -/
def restoreOn (s : State) (bs : List Byte) (cores : List CoreId) (seen : MemView) (checked : Except Code Launch) :
    Except Code (Nat × State) :=
  match checked with
  | .error c => .error c
  | .ok l => match cores.find? (imageFits s (ofBytes (bs.take 1024))) with
    | none => .error .restoreCapacity
    | some c => .ok (placeImage s l bs c seen)

/-- The refusing checks, and the placement. -/
def restoreImage (s : State) (cx : Context) (bs : List Byte) (cores : List CoreId) (seen : MemView) :
    Except Code (Nat × State) := restoreOn s bs cores seen (imageChecks s cx bs)

/-- The die of an image, for a device. -/
def imageDie (s : State) (cx : Context) (bs : List Byte) : Fin 4 :=
  Fin.ofNat 4 (firstDie s.mode cx.device + imgDie (ofBytes (bs.take 1024)))

/-- Read an image's bytes once its header is known, as an acquire at system scope. -/
def readImage (s : State) (agent : Actor) (ctx : Nat) (v : MemView) (va len : Nat) : Except Code (List Byte × State × MemView) :=
  match readSpan s agent ctx v .relaxed va len with
  | .error c => .error c
  | .ok r =>
    let a := takeRels r.s agent .system true r.rels r.v
    .ok (r.bytes, a.1, a.2)

/-- The first checks of R290 on a buffer: f0 is not bfloat16, so an alias raises SLOT_KIND (R66); alignment, and the header's span. -/
def imageHeader (d : Bound) (e : Int) : Except Code Unit :=
  if d.mxk ≠ 0 then .error .slotKind
  else if ((d.base : Int) + 8 * e) % 64 ≠ 0 then .error .recordAlign
  else checkSpan d (64 * e) 8192 { r := true }

/-- The span checks of R290 on a buffer, and the image: the header, then LENGTH bytes. -/
def imageAt (s : State) (agent : Actor) (ctx : Nat) (v : MemView) (d : Bound) (e : Int) :
    Except Code (List Byte × State × MemView) :=
  let va := ((d.base : Int) + 8 * e).toNat
  match imageHeader d e with
  | .error c => .error c
  | .ok _ => match readImage s agent ctx v va 1024 with
    | .error c => .error c
    | .ok (hd, _, _) =>
      let len := max 1024 (imgLength (ofBytes hd))
      match checkSpan d (64 * e) (8 * imgLength (ofBytes hd)) { r := true } with
      | .error c => .error c
      | .ok _ => match places s ctx va len with
        | .error c => .error c
        | .ok (ps, s) => if anyPoison s ps then .error .memPoison else readImage s agent ctx v va len

/-! ## lehrsv and lehrld -/

/-- The resident workgroup of a device that a handle names (Table 16.3). -/
def wgOfHandle (s : State) (device : Nat) (h : Word) : Option Workgroup :=
  if wordField h 13 51 ≠ 0 ∨ diesPerDevice s.mode ≤ wordField h 0 2 then none
  else s.workgroups.find? (fun g => deviceOf s.mode g.core.die.val == device && g.handle s.mode == h.toNat)

/-- Where lehrsv writes: alignment, R72 with w over LENGTH bytes, ORDER_KIND (R289). -/
def imageTarget (s : State) (bd : Binder) (bind : Nat) (e : Int) (len : Nat) : Except Code (Bound × Nat × List Place × State) :=
  match plainEntry s bd bind with
  | .error c => .error c
  | .ok (d, s) =>
    let va := (d.base : Int) + 8 * e
    if va % 64 ≠ 0 then .error .recordAlign
    else match checkSpan d (64 * e) (8 * len) { w := true } with
      | .error c => .error c
      | .ok _ => match checkPeers s d with
        | .error c => .error c
        | .ok _ => match places s bd.ctx va.toNat len with
          | .error c => .error c
          | .ok (ps, s) => if anyUo ps then .error .orderKind else .ok (d, va.toNat, ps, s)

/-- The read of an image, once its first checks have passed, waits for its path or its frames. -/
def imageWaits (s : State) (ctx : Nat) (d : Bound) (e : Int) : Bool :=
  let va := ((d.base : Int) + 8 * e).toNat
  (imageHeader d e).isOk && (match places s ctx va 1024 with
  | .error _ => pathWaits s d
  | .ok (ps, s) => spanWaits s false ctx va (max 1024 (imgLength (ofBytes (latestBytes s ps)))))

/-- A privileged result. -/
def statusResult (s : State) (d : VReg) (n : Nat) : MRes := .done s { writes := [.v d (BitVec.ofNat 64 n)], memory := true }

/-- lehrsv on a workgroup that is another's. -/
def saveFor (i : Instr) (d : VReg) (x : Member) (s : State) (g : Workgroup) (bind : Nat) (e : Int) : MRes :=
  if savePending s g then waitFor s .save i 0
  else match imageTarget s (binderOf s x.wg x.t) bind e (lengthOf s g) with
    | .error c => .trap c x.t.pc
    | .ok (b, va, ps, s) =>
      if pathWaits s b then waitFor s .link i 0
      else match blocked s true ps with
        | some s => waitFor s .link i 0
        | none => match s.launch? g.launch, s.context? g.ctx with
          | some l, some cx =>
            let p := preempt s g
            let im := imageOf p.s p.g l cx p.pons (trapNumber p.g) false
            let agent := (binderOf s x.wg x.t).agent
            let v := im.2.viewOf x.wg.uid x.t.tid
            let w := writeAt im.2 (storeWriter im.2 agent .system true v) v .back va ps im.1
            statusResult (evict p (w.1.setView x.wg.uid x.t.tid w.2)) d 0
          | _, _ => statusResult s d 1

def bodyLehrsv (i : Instr) (d a b : VReg) (bind : Fin 64) (x : Member) (s : State) : MRes :=
  match wgOfHandle s (s.deviceOfCtx x.wg.ctx) (x.t.readV a) with
  | none => statusResult s d 1
  | some g =>
    if g.uid = x.wg.uid then statusResult s d 2
    else saveFor i d x s g bind.val (x.t.readV b).toInt

def execLehrsv (c : Common) (d a b : VReg) (bind : Fin 64) (s : State) : Out :=
  .next (runCore (.lehrsv c d a b bind) (bodyLehrsv (.lehrsv c d a b bind) d a b bind) s)

/-- A restore that is refused: the result and an event of the thread's core, whose DETAIL is open (R276, R290; DESIGN CHOICE,
log 49). -/
def refusedRestore (s : State) (d : VReg) (x : Member) (c : Code) : MRes :=
  statusResult (s.emitFree (coreUnit x.wg.core) 0 x.wg.core.die.val (codeNumber c) x.wg.ctx (x.wg.handle s.mode)) d
    (2 ^ 63 + codeNumber c)

def bodyLehrld (i : Instr) (d a : VReg) (bind : Fin 64) (x : Member) (s : State) : MRes :=
  let bd := binderOf s x.wg x.t
  match plainEntry s bd bind.val with
  | .error c => .trap c x.t.pc
  | .ok (b, s) => match imageHeader b (x.t.readV a).toInt with
    | .error c => .trap c x.t.pc
    | .ok _ => match checkPeers s b with
    | .error c => .trap c x.t.pc
    | .ok _ =>
      if imageWaits s bd.ctx b (x.t.readV a).toInt then waitFor s .link i 0
      else match imageAt s bd.agent bd.ctx (s.viewOf x.wg.uid x.t.tid) b (x.t.readV a).toInt with
        | .error c => .trap c x.t.pc
        | .ok (bs, s, v) =>
          let s := s.setView x.wg.uid x.t.tid v
          match s.context? x.wg.ctx with
          | none => refusedRestore s d x .launchBind
          | some cx => match restoreImage s cx bs (coresOf (imageDie s cx bs)) v with
            | .error c => refusedRestore s d x c
            | .ok (h, s) => statusResult s d h

def execLehrld (c : Common) (d a : VReg) (bind : Fin 64) (s : State) : Out :=
  .next (runCore (.lehrld c d a bind) (bodyLehrld (.lehrld c d a bind) d a bind) s)

end Machine
end Sys2Proof
end

