-- ==== Sys2Proof/Machine/Dispatchers.lean ====
section
/-! DEFINITION. The dispatchers of the near-tier dies: choosing a queue (R240), placing and restoring workgroups (R241,
R246, R332), age (R240), and saving workgroups to make room (R246). -/

namespace Sys2Proof
namespace Machine

/-! ## Choosing (R240, R241) -/

/-- A die that is under reset or offline places nothing. -/
def dieUp (s : State) (die : Nat) : Bool := !(s.down.any (fun x => x.die.val == die))

def boostOf (s : State) (die q : Nat) : Nat :=
  match ageOn s die q with
  | some a => a.boost
  | none => 0

def effective (s : State) (die : Nat) (q : Queue) : Nat := min 3 (q.prio.val + boostOf s die q.num)

def heldOn (s : State) (die : Nat) : Option Held := s.held.getD die none
def setHeld (s : State) (die : Nat) (h : Option Held) : State := { s with held := setAt s.held die h }

/-- Steps from a round-robin pointer to a queue number. -/
def pointerDistance (p q : Nat) : Nat := (q + 64 - p) % 64

/-- The first of some queues at or after the pointer. -/
def firstAfter (p : Nat) : List Queue → Option Queue
  | [] => none
  | q :: qs => match firstAfter p qs with
    | none => some q
    | some r => if pointerDistance p r.num < pointerDistance p q.num then some r else some q

/-- The queue that takes a die's next offer, with the pointer moved: a held workgroup keeps it against its equals. -/
def chooseQueue (s : State) (die : Nat) : Option (Queue × State) :=
  let el := s.queues.filter (eligible s die)
  let top := (el.map (effective s die)).foldl max 0
  let best := el.filter (fun q => effective s die q == top)
  let kept := match heldOn s die with
    | none => none
    | some h => match s.launch? h.launch with
      | none => none
      | some l => best.find? (fun q => q.num == l.queue && q.owner == l.ctx)
  match kept with
  | some q => some (q, s)
  | none => match firstAfter (s.pointers.getD die 0) best with
    | none => none
    | some q => some (q, setHeld { s with pointers := setAt s.pointers die ((q.num + 1) % 64) } die none)

/-- Hold a workgroup for want of room, or go on holding it. -/
def hold (s : State) (die launch index : Nat) : State :=
  match heldOn s die with
  | some h => if h.launch = launch ∧ h.index = index then s else setHeld s die (some ⟨launch, index, s.tickOf die⟩)
  | none => setHeld s die (some ⟨launch, index, s.tickOf die⟩)

/-- A queue has placed a workgroup on a die. -/
def notePlaced (s : State) (die q : Nat) : State :=
  let s := setHeld s die none
  refreshAges { s with ages := s.ages.filter (fun a => !(a.die == die && a.queue == q)) }

/-! ## Placing (R10, R241) -/

/-- What the start of a launch's workgroup on a die follows (R163); a release made on another die is 40 ticks old or older
(R282). -/
def startView (s : State) (die : Nat) (rels : List Rel) : State × MemView :=
  (rels.foldl (fun s r => match r.agent.die? with
    | some d => if d = die then s else { s with now := max s.now (r.tick + 40) }
    | none => s) s, .ofRels rels)

/-- A new workgroup: threads at the entry block with registers of zeros. -/
def newWorkgroup (uid : Nat) (core : CoreId) (slot : Fin 16) (l : Launch) (index tick : Nat) (v : MemView) : Workgroup :=
  { uid, core, slot, ctx := l.ctx.val, launch := l.uid, index, size := recWgsize l.record, nregs := recRegs l.record
    fmts := (List.range 12).map (blkFmt l.block), placed := tick, halted := false, disposed := false, formed := []
    threads := (List.range (recWgsize l.record)).map (fun t =>
      { freshThread t (recRegs l.record) (BitVec.ofNat 64 (blkEntry l.block)) with view := v }) }

/-- Place the next index of a launch's share on a core of its die. -/
def placeNext (s : State) (core : CoreId) (l : Launch) (k : Nat) : State :=
  let sv := startView s core.die.val l.rels
  let sl := pickSlot sv.1 core
  let i := l.next.getD k 0
  let g := newWorkgroup sl.2.uids core sl.1 l i (sl.2.tickOf core.die.val) sv.2
  let s := { sl.2 with uids := sl.2.uids + 1, workgroups := sl.2.workgroups ++ [g] }
  s.modLaunch l.uid (fun l => { l with next := setAt l.next k (i + 1) })

/-- The saved workgroup of a launch that a die restores first: of several, the one of the lowest index, as the rest of a share is
dispatched in ascending order (R239, R246; DEDUCED, log 22). -/
def nextSaved (l : Launch) (die : Nat) : Option Saved :=
  (l.saved.filter (fun x => x.die == die)).foldl (fun acc x => match acc with
    | none => some x
    | some y => if x.index < y.index then some x else some y) none

/-- Some core of a die has room for a workgroup of a launch. -/
def anyRoom (s : State) (die : Fin 4) (l : Launch) : Bool :=
  (coresOf die).any (fun c => coreRoom s c (warpsOf (recWgsize l.record)) (recRegs l.record))

/-- The dispatcher of a core's die offers the next workgroup, and this core takes it. The event has no effect when the
next workgroup is a saved one, or when this core has no room and another has. -/
def execDispatchOffer (core : CoreId) (s : State) : Out :=
  let die := core.die.val
  .next (if !(dieUp s die) then s
    else match chooseQueue s die with
      | none => setHeld s die none
      | some (q, t) => match currentLaunch t q die with
        | none => s
        | some l =>
          let k := die - firstDie t.mode (t.deviceOfCtx l.ctx.val)
          if (nextSaved l die).isSome then s
          else if coreRoom t core (warpsOf (recWgsize l.record)) (recRegs l.record) then
            notePlaced (placeNext t core l k) die q.num
          else if anyRoom t core.die l then s
          else hold t die l.uid (l.next.getD k 0))

/-! ## Restoring (R332) -/

/-- The dispatcher does not try a refused image again, and the launch ends. -/
def refuseImage (s : State) (l : Launch) (x : Saved) (va : Nat) (c : Code) : State :=
  let s := s.emit 0 6 x.die (codeNumber c) l.ctx.val 0 va
  let s := s.modLaunch l.uid (fun l => { l with saved := l.saved.filter (fun y => y != x) })
  refreshAges (setHeld (endLaunch s l.uid c) x.die none)

/-- The dispatcher restores the saved workgroup `x` of a launch onto a core. Where the area lies behind a path that does not answer,
or another core has the room, nothing happens: the state is the one before the choice, `old`. -/
def restoreSaved (old s : State) (core : CoreId) (q : Queue) (l : Launch) (cx : Context) (x : Saved) : State :=
  let die := core.die.val
  let agent := Actor.dispatcher core.die
  let va := q.sabase.toNat + x.ofs
  if spanWaits s true cx.id.val q.sabase.toNat 4096 || spanWaits s false cx.id.val va x.len then old
  else match readSpan s agent cx.id.val .empty .latest va x.len with
  | .error c => refuseImage s l x va c
  | .ok r =>
    let cores := (coresOf core.die).filter (imageFits r.s (ofBytes (r.bytes.take 1024)))
    if cores.isEmpty then
      (match imageChecks r.s cx r.bytes with
      | .error c => refuseImage r.s l x va c
      | .ok _ => hold r.s die l.uid x.index)
    else match restoreImage r.s cx r.bytes [core] (.ofRels r.rels) with
      | .ok (_, t) => notePlaced t die q.num
      | .error .restoreCapacity => old
      | .error c => refuseImage r.s l x va c

def execDispatchRestore (core : CoreId) (s : State) : Out :=
  let die := core.die.val
  .next (if !(dieUp s die) then s
    else match chooseQueue s die with
      | none => s
      | some (q, t) => match currentLaunch t q die with
        | none => s
        | some l => match nextSaved l die, t.context? l.ctx.val with
          | some x, some cx => restoreSaved s t core q l cx x
          | _, _ => s)

/-! ## Age (R240) -/

/-- A queue that has been eligible on the die for 2^20 ticks without placing gains one level. -/
def execAgeBoost (die : Fin 4) (queue : Nat) (s : State) : Out :=
  let mine := fun (a : Age) => a.die == die.val && a.queue == queue
  .next (match s.ages.find? mine with
    | none => s
    | some a =>
      if s.tickOf die.val < a.since + 2 ^ 20 then s
      else { s with ages := replaceFirst mine { a with boost := a.boost + 1, since := a.since + 2 ^ 20 } s.ages })

/-! ## Making room (R246) -/

/-- The sublists of `k` elements, in order. -/
def combos {α : Type} : Nat → List α → List (List α)
  | 0, _ => [[]]
  | _ + 1, [] => []
  | k + 1, x :: xs => (combos k xs).map (x :: ·) ++ combos (k + 1) xs

/-- A resident workgroup that may be saved for another: of a queue with PRIO below 3, running, of a launch that has not
ended. (DEDUCED, log 38) -/
def mayYield (s : State) (g : Workgroup) : Bool :=
  !g.halted && (match s.launch? g.launch with
    | some l => l.code.isNone && (match s.queueOf l with
      | some q => decide (q.prio.val < 3)
      | none => false)
    | none => false)

/-- The pontil contexts that the workgroup a launch places next on a die needs: those of the image it is restored from (R277). -/
def contextsNeeded (s : State) (l : Launch) (die : Nat) : Nat :=
  match nextSaved l die, s.queueOf l with
  | some x, some q => match places s l.ctx.val (q.sabase.toNat + x.ofs) 64 with
    | .ok (ps, s) => imgNpon (ofBytes (latestBytes s ps))
    | .error _ => 0
  | _, _ => 0

/-- Contexts of a core's cluster that are free once some workgroups have left. -/
def contextsBeside (s : State) (c : CoreId) (gs : List Workgroup) : Nat :=
  ((List.finRange 2).filter (fun k => match s.pontil? ⟨c.die, c.cluster, k⟩ with
    | some p => p.state != .running || gs.any (fun g => g.uid == p.wg)
    | none => true)).length

/-- The sets of `k` workgroups of a core whose removal makes room, `m` contexts included. -/
def yieldSets (s : State) (c : CoreId) (w n m k : Nat) : List (List Workgroup) :=
  (combos k ((wgsOn s c).filter (mayYield s))).filter (fun gs =>
    roomBeside ((wgsOn s c).filter (fun g => !(gs.any (fun h => h.uid == g.uid)))) w n && decide (m ≤ contextsBeside s c gs))

/-- Insert in descending order. -/
def insertDesc (n : Nat) : List Nat → List Nat
  | [] => [n]
  | m :: ms => if m ≤ n then n :: m :: ms else m :: insertDesc n ms

/-- Placement ticks of a set in descending order. -/
def placedDesc (gs : List Workgroup) : List Nat := gs.foldl (fun l g => insertDesc g.placed l) []

/-- Lexicographic order of equally long lists. -/
def laterThan : List Nat → List Nat → Bool
  | a :: as, b :: bs => if a = b then laterThan as bs else decide (b < a)
  | _, _ => false

/-- The sets placed latest, among sets of one core and size. -/
def latestSets (sets : List (List Workgroup)) : List (List Workgroup) :=
  sets.filter (fun x => !(sets.any (fun y => laterThan (placedDesc y) (placedDesc x))))

/-- The cores of a die, cluster before core. -/
def coresByCluster (die : Fin 4) : List CoreId :=
  (List.finRange 32).flatMap (fun c => (List.finRange 4).map (fun k => ⟨die, c, k⟩))

/-- The set to save for a workgroup of `w` warps of `n` registers and `m` contexts: the smallest, on the lowest core, placed latest. Sets
placed at the same ticks are taken by free choice (DESIGN CHOICE, log 38). Where there is room, nothing is saved. -/
def chooseSet (s : State) (die : Fin 4) (w n m : Nat) : Option (List Workgroup × State) :=
  match (List.range 17).findSome? (fun k =>
      (coresByCluster die).findSome? (fun c =>
        let sets := yieldSets s c w n m k
        if sets.isEmpty then none else some (latestSets sets))) with
  | none => none
  | some sets => some (sets.getD (s.pick sets.length).1 [], (s.pick sets.length).2)

/-- Reservations for every member; none when one fails, and then nothing has changed but the event of an unmapped page. -/
def reserveAll : List Workgroup → List (Nat × Room) → State → Option (List (Workgroup × Room)) × State
  | [], _, s => (some [], s)
  | g :: gs, taken, s => match ownersOf s g with
    | none => (none, s)
    | some (_, cx, q) =>
      let mine := (taken.filter (fun x => x.1 == q.sabase.toNat)).map (·.2)
      match reserve s g cx.id.val q mine (lengthOf s g) with
      | (none, s) => (none, s)
      | (some r, s) => match reserveAll gs ((q.sabase.toNat, r) :: taken) s with
        | (none, s) => (none, s)
        | (some rest, s) => (some ((g, r) :: rest), s)

/-- A member saved by the dispatcher returns to its queue on the die, ahead of its launch's unplaced workgroups. The event of
such a save has no code and names the image (DESIGN CHOICE, log 38). -/
def saveMember (s : State) (g : Workgroup) (r : Room) : State :=
  match saveToArea s g (some r) whyRequeued with
  | (none, s) => s
  | (some (va, r, p), s) =>
    (evict p (saveEvent s g 0 va)).modLaunch g.launch (fun l => { l with
      saved := l.saved ++ [⟨g.core.die.val, g.index, r.entry, r.ofs, r.len⟩] })

/-- The held workgroup of a die is placed if room now exists. -/
def placeHeld (s : State) (die : Fin 4) (h : Held) : State :=
  match s.launch? h.launch with
  | none => s
  | some l =>
    let k := die.val - firstDie s.mode (s.deviceOfCtx l.ctx.val)
    if l.code.isSome then setHeld s die.val none
    else match (coresByCluster die).find? (fun c => coreRoom s c (warpsOf (recWgsize l.record)) (recRegs l.record)) with
    | none => s
    | some c =>
      if (nextSaved l die.val).isSome then s
      else notePlaced (placeNext s c l k) die.val l.queue

/-- A workgroup of a PRE queue has been held for 2^16 ticks. -/
def execPreemptHoldExpiry (die : Fin 4) (s : State) : Out :=
  .next (match heldOn s die.val with
    | none => s
    | some h => match s.launch? h.launch with
      | none => s
      | some l => match s.queueOf l with
        | none => s
        | some q =>
          if !q.pre || !(eligible s die.val q) || decide (s.tickOf die.val < h.since + 2 ^ 16) then s
          else match chooseSet s die (warpsOf (recWgsize l.record)) (recRegs l.record) (contextsNeeded s l die.val) with
            | none => s
            | some (gs, t) =>
              if gs.any (fun g => savePending s g || areaWaits s g) then s
              else match reserveAll gs [] t with
              | (none, t) => { s with sources := t.sources, pending := t.pending }
              | (some rs, t) => refreshAges (placeHeld (rs.foldl (fun s x => saveMember s x.1 x.2) t) die h))

end Machine
end Sys2Proof
end

