-- ==== Sys2Proof/Machine/Engines.lean ====
section
/-! DEFINITION. Engine starts (R92, R193), the copy engine (R194, R195), gather and scatter (R196), transducer lanes (R197 to
R199), engine status (R203), and how an engine's operation completes or stops (R93, R262, R275). Collectives and tier
prefetch complete in files of their own. -/

namespace Sys2Proof
namespace Machine

/-! ## Descriptors -/

/-- Word `k` of a descriptor. -/
def descWord (d k : Nat) : Nat := natField d (64 * k) 64
def descInt (d k : Nat) : Int := signedOf 64 (descWord d k)

/-- CBIND and CELEM (R193). -/
def compBind (d : Nat) : Nat := natField d 384 6
def compElem (d : Nat) : Int := signedOf 58 (natField d 390 58)

/-- Table 9.8. -/
def cpyRowBytes (d : Nat) : Nat := natField d 192 32
def cpyRows (d : Nat) : Nat := natField d 224 32
def cpyBar (d : Nat) : Bool := d.testBit 12
def cpyFull (d : Nat) : Bool := d.testBit 13
def cpyBytes (d : Nat) : Nat := cpyRows d * cpyRowBytes d

/-- Table 9.9. -/
def gthCount (d : Nat) : Nat := natField d 128 32
def gthSize (d : Nat) : Nat := natField d 160 16

/-- Table 9.12. -/
def xdsLane (d : Nat) : Nat := natField d 24 7
def xdsIlen (d : Nat) : Nat := natField d 192 32
def xdsOcap (d : Nat) : Nat := natField d 224 32
def xdsMcap (d : Nat) : Nat := natField d 320 32

/-- Table 9.14. -/
def tpfFar (d : Nat) : Bool := d.testBit 6
def tpfLen (d : Nat) : Nat := descWord d 2

/-- Table 9.15. -/
def colOp (d : Nat) : Nat := natField d 0 2
def colSslot (d : Nat) : Slot := Fin.ofNat 16 (natField d 14 4)
def colDslot (d : Nat) : Slot := Fin.ofNat 16 (natField d 18 4)
def colRm (d : Nat) : Round := roundOf (natField d 22 3)
def colAlpha (d : Nat) : Int := signedOf 16 (natField d 25 16)
def colCount (d : Nat) : Nat := natField d 192 32
def colGroup (d : Nat) : Word := BitVec.ofNat 64 (descWord d 4)
def colRank (d : Nat) : Nat := natField d 320 20
def colNrank (d : Nat) : Nat := natField d 340 20

/-- The values a descriptor's table allows (R193 step 1). -/
def descOk (k : EngineKind) (d : Nat) : Bool :=
  match k with
  | .cpy => natField d 14 50 == 0 && (cpyBar d || cpyFull d) && (cpyBar d || descWord d 6 == 0)
  | .gth | .sct => natField d 18 46 == 0 && natField d 176 16 == 0 && descWord d 5 == 0 &&
      decide (1 ≤ gthSize d ∧ gthSize d ≤ 4096)
  | .xds => natField d 31 33 == 0 && (decide (xdsLane d < 96) || xdsLane d == 127) && decide (xdsIlen d < 2 ^ 24) &&
      decide (xdsOcap d < 2 ^ 24) && decide (xdsMcap d < 2 ^ 24)
  | .tpf => natField d 7 57 == 0 && natField d 192 192 == 0
  | .col => natField d 41 23 == 0 && natField d 224 32 == 0 && natField d 360 24 == 0 && colOp d != 3 &&
      (colOp d != 2 || colSslot d == colDslot d) && decide (colRank d < colNrank d) &&
      decide (1 ≤ colNrank d ∧ colNrank d ≤ 2 ^ 19) && decide (-16384 ≤ colAlpha d ∧ colAlpha d ≤ 16383)

/-- The narrowest scope of an engine (Table 5.3). -/
def engineScope : EngineKind → Scope
  | .cpy => .cluster
  | .gth | .sct | .xds => .die
  | .tpf | .col => .system

/-! ## Buffers of an operation (R193 step 2) -/

/-- A span of bits of a binding that an operation touches, and the rights it needs. -/
structure Need where
  bind : Nat
  lo : Int
  n : Nat
  rights : Rights

/-- The bytes from the lowest row start to the end of the highest row. -/
def rowsNeed (bind : Nat) (off stride : Int) (rows bytes : Nat) (r : Rights) : Need :=
  if rows = 0 ∨ bytes = 0 then ⟨bind, 0, 0, r⟩
  else
    let last := off + (rows - 1 : Nat) * stride
    let lo := min off last
    ⟨bind, 8 * lo, 8 * ((max off last - lo).toNat + bytes), r⟩

/-- A span of `n` elements of `w` bits from element `e`; nothing when there are none. -/
def elemsNeed (bind : Nat) (e : Int) (w n : Nat) (r : Rights) : Need :=
  if n = 0 then ⟨bind, 0, 0, r⟩ else ⟨bind, e * w, n * w, r⟩

/-- The definition of a slot of the workgroup, whatever its kind. -/
def slotDef (fmts : List Word) (f : Slot) : FDef := fdefOf (slotWord fmts f)

/-- The elements a rank reads, and those it is given (R202). -/
def colSourceCount (d : Nat) : Nat := if colOp d = 1 then colNrank d * colCount d else colCount d
def colDestCount (d : Nat) : Nat := if colOp d = 2 then colNrank d * colCount d else colCount d

/-- The spans of a descriptor. `states` is NSTATES of a transducer table. -/
def needsOf (k : EngineKind) (fmts : List Word) (states d : Nat) : List Need :=
  let b0 := natField d 0 6
  let b1 := natField d 6 6
  let b2 := natField d 12 6
  match k with
  | .cpy => [rowsNeed b0 (descInt d 1) (descInt d 4) (cpyRows d) (cpyRowBytes d) { r := true },
      rowsNeed b1 (descInt d 2) (descInt d 5) (cpyRows d) (cpyRowBytes d) { w := true }]
  | .gth | .sct => [⟨b0, 0, 0, if k = .gth then { r := true } else { w := true }⟩,
      elemsNeed b1 (descInt d 1) 32 (gthCount d) { r := true },
      elemsNeed b2 (descInt d 4) 8 (gthCount d * gthSize d) (if k = .gth then { w := true } else { r := true })]
  | .xds => [⟨b0, 0, 8 * (320 + 128 * states), { r := true }⟩, elemsNeed b1 (descInt d 1) 8 (xdsIlen d) { r := true },
      elemsNeed b2 (descInt d 2) 8 (xdsOcap d) { w := true },
      elemsNeed (natField d 18 6) (descInt d 4) 32 (xdsMcap d) { w := true }]
  | .tpf => [elemsNeed b0 (descInt d 1) 8 (tpfLen d) { r := true }]
  | .col => [elemsNeed (natField d 2 6) (descInt d 1) (slotDef fmts (colSslot d)).w (colSourceCount d) { r := true },
      elemsNeed (natField d 8 6) (descInt d 2) (slotDef fmts (colDslot d)).w (colDestCount d) { w := true }]

/-- Check spans in order: the buffers as they stand now, by binding. -/
def checkNeeds (s : State) (bd : Binder) : List Need → Except Code (List (Nat × Bound) × State)
  | [] => .ok ([], s)
  | n :: ns => match bindingEntry s bd n.bind with
    | .error c => .error c
    | .ok (d, s) => match checkSpan d n.lo n.n n.rights with
      | .error c => .error c
      | .ok _ => match checkPeers s d with
        | .error c => .error c
        | .ok _ => match checkNeeds s bd ns with
          | .error c => .error c
          | .ok (ds, s) => .ok ((n.bind, d) :: ds, s)

/-- The buffer at a position of an operation's list. -/
def bufferAt (bs : List (Nat × Bound)) (k : Nat) : Option Bound := (bs[k]?).map (·.2)

/-- The completion object a descriptor names, through the issuing thread's bindings; a copy without CBAR has none. -/
def completionOf (s : State) (bd : Binder) (k : EngineKind) (d : Nat) : Except Code (Option ObjectAt × State) :=
  if k = .cpy ∧ !(cpyBar d) then .ok (none, s)
  else match namedBarrier s bd (compBind d) (compElem d) with
    | .error c => .error c
    | .ok (o, s) => .ok (some o, s)

/-! ## Own checks (R193 step 4) -/

/-- Every page of a buffer lies in HBM4E of a device: pages are stepped over whole. -/
def hbmPages (s : State) (device die last : Nat) : Nat → Nat → Except Code Bool
  | 0, _ => .ok true
  | fuel + 1, ofs =>
    if last < ofs then .ok true
    else match walk s die ofs with
      | none => .error .leaseLost
      | some (leaf, bits, _) =>
        if natField leaf 4 2 == 0 && deviceOf s.mode (natField leaf 6 2) == device then
          hbmPages s device die last fuel ((ofs / 2 ^ bits + 1) * 2 ^ bits)
        else .ok false

/-- The data buffer of a gather lies wholly in HBM4E of the issuing device. -/
def inHbm (s : State) (device : Nat) (d : Bound) : Except Code Bool :=
  if inWindow d.base ∨ vaModule d.base ≠ s.module.toNat ∨ 6 ≤ vaDie d.base then .ok false
  else hbmPages s device (vaDie d.base) (vaOfs d.base + d.backing - 1) (d.backing / 65536 + 2) (vaOfs d.base)

/-- Bytes at an offset of a buffer, as memory holds them now; what another module holds is a free value (DESIGN CHOICE,
log 16), and a poisoned line raises its code (R279). -/
def bufferPeek (s : State) (ctx : Nat) (d : Bound) (o n : Nat) : Except Code (Nat × State) :=
  match places s ctx (d.base + o) n with
  | .error c => .error c
  | .ok (ps, s) =>
    if anyAway ps then .ok (s.pick (2 ^ (8 * n)))
    else if anyPoison s ps then .error .memPoison
    else .ok (ofBytes (latestBytes s ps), s)

/-- The header of a transducer table (R197). -/
def tableHeaderOk (h : Nat) : Bool :=
  decide (1 ≤ natField h 0 13 ∧ natField h 0 13 ≤ 4096) && natField h 13 3 == 0 &&
  decide (natField h 16 12 < natField h 0 13) && natField h 28 484 == 0

/-- The header of the table a descriptor names, for a transducer; 0 where its buffer holds none. -/
def tableHeader (s : State) (bd : Binder) (k : EngineKind) (d : Nat) : Except Code (Nat × State) :=
  if k ≠ .xds then .ok (0, s)
  else match bindingEntry s bd (natField d 0 6) with
    | .error _ => .ok (0, s)
    | .ok (b, s) => if b.len < 64 then .ok (0, s) else bufferPeek s bd.ctx b 0 64

/-- NSTATES, for the span of the table; 0 when its header is not legal. -/
def tableStates (h : Nat) : Nat := if tableHeaderOk h then natField h 0 13 else 0

/-- A group that is registered with an engine of this module (R309). -/
def groupAt (s : State) (die : Fin 4) (tag : Word) : Option Group :=
  s.groups.find? (fun g => g.tag == tag && g.members.any (fun m => m.module == s.module && m.die == die))

/-- A slot of a collective: of KIND 0 to 4, and bfloat16 for a buffer that is an alias (R66). -/
def colSlotOk (fmts : List Word) (f : Slot) (b : Option Bound) : Bool :=
  kinds04 (slotDef fmts f).kind && slotWord fmts f != 0 && (match b with
    | some d => d.mxk == 0 || isBf16 (slotDef fmts f)
    | none => true)

/-- Step 4; `h` is the header of a transducer's table. -/
def ownChecks (s : State) (x : Member) (k : EngineKind) (d h : Nat) (bs : List (Nat × Bound)) : Except Code Unit :=
  let first := bufferAt bs 0
  match k with
  | .cpy => match bufferAt bs 1 with
    | some b => if cpyFull d && !(inWindow b.base) then .error .feKind else .ok ()
    | none => .ok ()
  | .gth | .sct => match first with
    | none => .ok ()
    | some b => match inHbm s (s.deviceOfCtx x.wg.ctx) b with
      | .error c => .error c
      | .ok true => .ok ()
      | .ok false => .error .gatherKind
  | .xds => if tableHeaderOk h then .ok () else .error .descField
  | .tpf => match first with
    | none => .ok ()
    | some b => if inWindow b.base then .error .tierKind else .ok ()
  | .col =>
    if (groupAt s x.wg.core.die (colGroup d)).isNone then .error .colGroup
    else if colSlotOk x.wg.fmts (colSslot d) first && colSlotOk x.wg.fmts (colDslot d) (bufferAt bs 1) then .ok ()
    else .error .slotKind

/-! ## Queues of engines (R193) -/

def opsOn (s : State) (u : EngineUnit) : Nat := (s.ops.filter (fun o => o.unit == u)).length

def roomFor (s : State) (u : EngineUnit) (depth : Nat) : Option EngineUnit := if opsOn s u < depth then some u else none

/-- The lanes of a die that run nothing, lowest first. -/
def freeLane (s : State) (die : Fin 4) : Option EngineUnit :=
  ((List.range Config.lanes).map (EngineUnit.lane die)).find? (fun u => opsOn s u == 0)

/-- The unit that takes an operation now, or none while its queue is full: a lane runs one and has four waiting. -/
def unitFor (s : State) (core : CoreId) (k : EngineKind) (d : Nat) (bs : List (Nat × Bound)) : Option EngineUnit :=
  match k with
  | .cpy => roomFor s (.copy ⟨core.die, core.cluster⟩) Config.copyDepth
  | .gth | .sct => roomFor s (.gather core.die) Config.gatherDepth
  | .xds => if xdsLane d = 127 then freeLane s core.die else roomFor s (.lane core.die (xdsLane d)) (Config.laneWaiting + 1)
  | .tpf => match bufferAt bs 0 with
    | some b => roomFor s (.tpf (Fin.ofNat 2 (vaDie b.base))) Config.tpfDepth
    | none => none
  | .col => roomFor s (.collective core.die) Config.collectiveDepth

/-! ## Completing and stopping -/

/-- The agent that performs a unit's accesses. -/
def unitActor : EngineUnit → Actor
  | .copy c => .copy c
  | .gather d => .gather d
  | .lane d _ => .transducer d
  | .collective d => .collective d
  | .tpf _ => .migration

/-- UNIT, KIND and DIE of a unit's events (Table 19.3). Which stack's gather engine reports is not fixed. -/
def unitSource (s : State) (u : EngineUnit) : (Nat × Nat × Nat) × State :=
  match u with
  | .copy c => ((c.cluster.val, 2, c.die.val), s)
  | .gather d => (((s.pick 3).1, 3, d.val), (s.pick 3).2)
  | .lane d k => ((k, 4, d.val), s)
  | .collective d => ((0, 5, d.val), s)
  | .tpf f => ((0, 7, 4 + f.val), s)

/-- Take an operation off its engine. -/
def dropOp (s : State) (op : EngineOp) : State := { s with ops := removeFirst (fun o => o == op) s.ops }

/-- Write bytes of an operation's descriptor. -/
def writeDesc (s : State) (op : EngineOp) (v : MemView) (byte : Nat) (bs : List Byte) : State × MemView :=
  match writeSpan s (.plain (unitActor op.unit)) op.ctx v .now (op.descAddr + byte) bs with
  | .ok r => r
  | .error _ => (s, v)

/-- The descriptor's last words or the completion object of an operation lie behind what makes accesses wait. -/
def completionWaits (s : State) (op : EngineOp) : Bool :=
  spanWaits s true op.ctx (op.descAddr + 40) 24 || op.comp.any (fun va => spanWaits s true op.ctx va 16)

/-- The last writes of an operation: its status, then its bytes on its object. Every write of it is performed by then. -/
def writeEnd (s : State) (op : EngineOp) (v : MemView) (status bytes : Nat) : State :=
  let w := writeDesc s op v 56 (bytesOf status 8)
  let w := releaseUo w.1 (unitActor op.unit) op.scope w.2
  match op.comp with
  | none => w.1
  | some va => completeOn w.1 (unitActor op.unit) op.scope w.2 op.ctx va bytes

/-- An operation leaves its engine and makes its last writes; one that a reset has stopped owes them while they wait (R280). -/
def endOp (s : State) (op : EngineOp) (v : MemView) (status bytes : Nat) : State :=
  let s := dropOp s op
  if op.aborted.isSome && completionWaits s op then { s with ends := s.ends ++ [⟨op, v, status, bytes⟩] }
  else writeEnd s op v status bytes

/-- The last writes that stopped operations owe are made once nothing of them waits. -/
def settleEnds (s : State) : State :=
  if s.gated then s
  else (s.ends.filter (fun e => !(completionWaits s e.op))).foldl (fun s e => writeEnd s e.op e.view e.status e.bytes)
    { s with ends := s.ends.filter (fun e => completionWaits s e.op) }

/-- The status word of an operation that stops with a code (R262, R275): where the word has room the code stands in its high
half; its other fields are free values, since which of its writes were made is not fixed (DESIGN CHOICE, log 13). -/
def stoppedStatus (s : State) (op : EngineOp) (c : Code) : Nat × State :=
  match op.kind with
  | .gth | .sct => ((s.pick (2 ^ 32)).1 + codeNumber c * 2 ^ 32, (s.pick (2 ^ 32)).2)
  | .col => (codeNumber c * 2 ^ 32, s)
  | .cpy | .xds | .tpf => s.pick (2 ^ 64)

/-- An operation that meets a lost page, poison or a die reset (R262, R275, R280): it records the code, the starting launch
ends, and it completes. The event's DETAIL for poison is its domain address `at'` (Table 19.3). -/
def stopOp (s : State) (op : EngineOp) (v : MemView) (code : Code) (at' : Nat) (bytes : Nat) : State :=
  let c := op.aborted.getD code
  let src := unitSource s op.unit
  let s := if c = .memPoison then src.2.emit src.1.1 src.1.2.1 src.1.2.2 (codeNumber c) op.ctx op.handle at'
    else src.2.emitFree src.1.1 src.1.2.1 src.1.2.2 (codeNumber c) op.ctx op.handle
  let s := endLaunch s op.launch c
  endOp (stoppedStatus s op c).2 op v (stoppedStatus s op c).1 bytes

/-- The completion object of an operation, where its line is poisoned. -/
def poisonedObject (s : State) (op : EngineOp) : Option Nat :=
  op.comp.filter (fun va => match barrierPlaces s op.ctx va with
    | some (ps, s) => anyPoison s ps
    | none => false)

/-- An operation completes. One that reads poison in its completion object stops with MEM_POISON, and the object still receives its
bytes (R275, R279). -/
def finishOp (s : State) (op : EngineOp) (v : MemView) (status bytes : Nat) : State :=
  match poisonedObject s op with
  | some va => stopOp s op v .memPoison va bytes
  | none => endOp s op v status bytes

/-! ## Bytes of an engine -/

/-- Why an operation goes no further: an access of it waits, or raises a code at a domain address. -/
inductive Halt where
  | waits
  | code (c : Code) (at' : Nat)
  deriving DecidableEq, Repr

/-- Read one byte of a buffer at a domain address: relaxed, after the start (R92, R93). Beyond the bytes of an alias's
blocks there is nothing to read, and the value is free (DESIGN CHOICE, log 25). -/
def engineRead (s : State) (op : EngineOp) (v : MemView) (d : Bound) (o : Nat) : Except Halt (Byte × State × MemView) :=
  if d.backing ≤ o then .ok (BitVec.ofNat 8 (s.pick 256).1, (s.pick 256).2, v)
  else if addrWaits s (d.base + o) then .error .waits
  else match places s op.ctx (d.base + o) 1 with
    | .error c => .error (.code c (d.base + o))
    | .ok (ps, s) =>
      if anyPoison s ps then .error (.code .memPoison (d.base + o))
      else if (blocked s false ps).isSome then .error .waits
      else match farCode s (d.base + o) ps true false with
      | (some c, _) => .error (.code c (d.base + o))
      | (none, s) =>
        let r := readPart (notePage s (unitActor op.unit).die? (d.base + o)) (unitActor op.unit) v .relaxed ps
        .ok (r.1.headD 0, r.2.2.1, r.2.2.2)

/-- Read `n` bytes from an offset. -/
def engineReads (s : State) (op : EngineOp) (v : MemView) (d : Bound) (o : Nat) :
    Nat → Except Halt (List Byte × State × MemView)
  | 0 => .ok ([], s, v)
  | n + 1 => match engineReads s op v d o n with
    | .error c => .error c
    | .ok (bs, s, v) => match engineRead s op v d (o + n) with
      | .error c => .error c
      | .ok (b, s, v) => .ok (bs ++ [b], s, v)

/-- Bytes to write, gathered by aligned 8-byte word; a later byte of an address replaces an earlier one. -/
abbrev WordWrites := List (Nat × List (Nat × Byte))

def addByte (ws : WordWrites) (va : Nat) (b : Byte) : WordWrites :=
  let mine := fun (w : Nat × List (Nat × Byte)) => w.1 == va / 8
  let old := match ws.find? mine with
    | some w => w.2
    | none => []
  upsert mine (va / 8, upsert (fun p => p.1 == va) (va, b) old) ws

/-- Bytes of a buffer from an offset; what lies beyond an alias's blocks goes nowhere. -/
def addBytes (ws : WordWrites) (d : Bound) (o : Nat) (bs : List Byte) : WordWrites :=
  ((List.range bs.length).zip bs).foldl (fun ws p => if d.backing ≤ o + p.1 then ws else addByte ws (d.base + o + p.1) p.2) ws

/-- Places of bytes at their addresses, in order. -/
def bytePlaces (s : State) (ctx : Nat) : List (Nat × Byte) → Except Code (List Place × State)
  | [] => .ok ([], s)
  | p :: rest => match places s ctx p.1 1 with
    | .error c => .error c
    | .ok (qs, s) => match bytePlaces s ctx rest with
      | .error c => .error c
      | .ok (ps, s) => .ok (qs ++ ps, s)

/-- How an operation writes: a collective through an alias makes each block's write a step at the home slice (R67). -/
def opWriter (op : EngineOp) : Writer :=
  match op.kind, bufferAt op.buffers 1 with
  | .col, some d => (Writer.plain (unitActor op.unit)).aliased d
  | _, _ => .plain (unitActor op.unit)

/-- One word's bytes, or one block's of an alias, at their places: one access in each page. -/
def writeWord (s : State) (op : EngineOp) (v : MemView) (w : Nat × List (Nat × Byte)) : Option (State × MemView) :=
  match bytePlaces s op.ctx w.2 with
  | .error _ => none
  | .ok (ps, s) =>
    let va := (w.2.headD (8 * w.1, 0)).1
    let r := storeBytes (notePage s (unitActor op.unit).die? va) (opWriter op) v .now true va ps (w.2.map (·.2))
    some r

/-- Every word is on mapped pages. -/
def allMapped (s : State) (ctx : Nat) (ws : WordWrites) : Bool := ws.all (fun w => (bytePlaces s ctx w.2).isOk)

/-- A word whose write waits: what it waits for has begun in the state (R280, R307, R310, R322). -/
def wordWaits (s : State) (op : EngineOp) (w : Nat × List (Nat × Byte)) : Option State :=
  if addrWaits s (8 * w.1) then some s
  else match bytePlaces s op.ctx w.2 with
    | .error _ => none
    | .ok (ps, s) => blocked s true ps

/-- Some word's write waits. -/
def writesWait (s : State) (op : EngineOp) (ws : WordWrites) : Option State := ws.findSome? (wordWaits s op)

/-- The words that an operation has not written before (R93). -/
def lateWords (op : EngineOp) (ws : WordWrites) : WordWrites :=
  (ws.map (fun w => (w.1, w.2.filter (fun p => !(op.early.any (fun e => e.1 == p.1)))))).filter (fun w => !w.2.isEmpty)

/-- The view of an operation with its earlier writes, which its completion releases too. -/
def withEarly (s : State) (op : EngineOp) (v : MemView) : MemView :=
  op.early.foldl (fun v e => match s.record? e.2 with
    | none => v
    | some r =>
      if r.loose.isSome then { v with uo := unionOf v.uo [r.id] }
      else { v with floor := r.cells.foldl (fun f c => floorSet f c.loc r.id) v.floor }) v

/-- What writing words leaves, and which were written. -/
structure Writing where
  s : State
  v : MemView
  done : WordWrites

/-- Write words; when the operation stops, each word on a mapped page that does not wait is written or not by free choice
(R262). -/
def engineWrite (op : EngineOp) (partly : Bool) (ws : WordWrites) (w : Writing) : Writing :=
  ws.foldl (fun w x =>
    let k := if partly then w.s.pick 2 else (1, w.s)
    match if k.1 = 0 ∨ (partly ∧ (wordWaits k.2 op x).isSome) then none else writeWord k.2 op w.v x with
    | none => { w with s := k.2 }
    | some r => ⟨r.1, r.2, w.done ++ [x]⟩) w

/-- What an operation has read and is to write: why it goes no further, its words, the state and the view. -/
structure Work where
  halt : Option Halt
  ws : WordWrites
  s : State
  v : MemView

/-- The writes of an operation: it waits with the state given, stops with a code, or has made them all. -/
inductive Commit where
  | waits (s : State)
  | stops (c : Code) (at' : Nat) (w : Writing)
  | all (w : Writing)

def engineCommit (s₀ : State) (op : EngineOp) (k : Work) : Commit :=
  if op.aborted.isNone && completionWaits s₀ op then .waits s₀
  else
  let ws := lateWords op k.ws
  let from' : Writing := ⟨k.s, withEarly k.s op k.v, []⟩
  match (op.aborted.map (Halt.code · 0)).or k.halt with
  | some .waits => .waits s₀
  | some (.code c va) => .stops c va (engineWrite op true ws from')
  | none => match writesWait k.s op ws with
    | some z => .waits { s₀ with reencrypting := z.reencrypting }
    | none =>
      if allMapped k.s op.ctx ws then .all (engineWrite op false ws from')
      else .stops .leaseLost 0 (engineWrite op true ws from')

/-- Write some words of an operation before its completion, by free choice (R93). -/
def earlyWords (op : EngineOp) : WordWrites → State → List (Nat × Nat) → State × List (Nat × Nat)
  | [], s, done => (s, done)
  | w :: ws, s, done =>
    let k := s.pick 2
    if k.1 = 0 ∨ (wordWaits k.2 op w).isSome then earlyWords op ws k.2 done
    else match writeWord k.2 op .empty w with
      | none => earlyWords op ws k.2 done
      | some r => earlyWords op ws r.1 (done ++ w.2.map (fun p => (p.1, k.2.nextWrite)))

/-- An operation makes some of its writes, or none, before its completion: a reader may see each byte old or new (R93). -/
def progressOp (work : State → EngineOp → Option Work) (s : State) (op : EngineOp) : State :=
  let k := ({ s with peers := op.peers }).pick 2
  if k.1 = 0 then { k.2 with peers := s.peers }
  else match work k.2 op with
    | none => { k.2 with peers := s.peers }
    | some w =>
      if w.halt.isSome then { k.2 with peers := s.peers }
      else
        let r := earlyWords op (lateWords op w.ws) w.s []
        { r.1 with
            peers := s.peers
            ops := replaceFirst (fun o => o == op) { op with early := op.early ++ r.2 } r.1.ops }

/-! ## Copies (R195) -/

/-- Source and destination offsets of a copy, in row order. -/
def copyPairs (d : Nat) : List (Int × Int) :=
  (List.range (cpyRows d)).flatMap (fun (r : Nat) => (List.range (cpyRowBytes d)).map (fun (j : Nat) =>
    (descInt d 1 + (r : Int) * descInt d 4 + (j : Int), descInt d 2 + (r : Int) * descInt d 5 + (j : Int))))

/-- Read the bytes of a copy. A source byte that the copy has written already gives its old or its new value. -/
def copyBytes (op : EngineOp) (src dst : Bound) : List (Int × Int) → Work → Work
  | [], w => w
  | (a, b) :: rest, w =>
    match engineRead w.s op w.v src a.toNat with
    | .error h => { w with halt := some h }
    | .ok (x, s, v) =>
      let from' := src.base + a.toNat
      let mine := match w.ws.find? (fun w => w.1 == from' / 8) with
        | some w => (w.2.find? (fun p => p.1 == from')).map (·.2)
        | none => none
      let y := match mine with
        | none => (x, s)
        | some z => (if (s.pick 2).1 = 0 then x else z, (s.pick 2).2)
      copyBytes op src dst rest ⟨none, addBytes w.ws dst (dst.swz b.toNat) [y.1], y.2, v⟩

/-- What a copy reads and writes. -/
def copyWork (s : State) (op : EngineOp) : Option Work :=
  match bufferAt op.buffers 0, bufferAt op.buffers 1 with
  | some src, some dst =>
    let pairs := copyPairs op.desc
    let k := if src.base < dst.base + dst.len ∧ dst.base < src.base + src.len then s.pick 2 else (0, s)
    some (copyBytes op src dst (if k.1 = 0 then pairs else pairs.reverse) ⟨none, [], k.2, op.view⟩)
  | _, _ => none

/-- The lines that a copy has written whole are clean of poison (R279). -/
def clearPoison (s : State) (op : EngineOp) (ws : WordWrites) : State :=
  if s.poison.isEmpty then s
  else
    let vas := ws.flatMap (fun w => w.2.map (·.1)) ++ op.early.map (·.1)
    let locs := vas.filterMap (fun a => match places s op.ctx a 1 with
      | .ok (ps, _) => (ps.filterMap Place.loc?).head?
      | .error _ => none)
    { s with poison := s.poison.filter (fun l => !((List.range 64).all (fun k => locs.contains (64 * l + k)))) }

/-- The granules of die SRAM that words touch. -/
def granulesOf (s : State) (ws : WordWrites) : List Nat :=
  ws.foldl (fun acc w =>
    let va := 8 * w.1
    if inWindow va ∧ vaModule va = s.module.toNat then
      (let g := granuleOf (sramLoc (vaDie va) (vaOfs va - windowBase))
       if acc.contains g then acc else acc ++ [g])
    else acc) []

def fillGranules (s : State) (agent : Actor) (sc : Scope) (v : MemView) (gs : List Nat) : State :=
  gs.foldl (fun s g => setFull s agent g [relOf s agent sc v]) s

/-- An operation is carried out under the peer table of its start (R308). -/
def EngineOp.run (op : EngineOp) (s : State) (f : State → EngineOp → State) : State :=
  { f { s with peers := op.peers } op with peers := s.peers }

/-- A copy runs and completes. (DESIGN CHOICE, log 13) -/
def runCopy (s : State) (op : EngineOp) : State :=
  match copyWork s op with
  | none => dropOp s op
  | some k => match engineCommit s op k with
    | .waits s => s
    | .stops c va w => stopOp (clearPoison w.s op w.done) op w.v c va (cpyBytes op.desc)
    | .all w =>
      let s := clearPoison w.s op w.done
      let s := if cpyFull op.desc then fillGranules s (unitActor op.unit) op.scope w.v (granulesOf s k.ws) else s
      finishOp s op w.v (cpyBytes op.desc) (cpyBytes op.desc)

/-! ## Gather and scatter (R196) -/

/-- The bytes of one record: none when the data record lies outside its buffer. -/
def recordOffset (data : Bound) (d x : Nat) : Option Nat :=
  let lo := descInt d 3 + (x * gthSize d : Nat)
  if lo < 0 ∨ (data.len : Int) < lo + gthSize d then none else some lo.toNat

/-- Records from `i` on, and the number skipped. -/
def gatherRecords (op : EngineOp) (data idx dense : Bound) : List Nat → Work → Nat → Work × Nat
  | [], w, n => (w, n)
  | i :: rest, w, n =>
    let d := op.desc
    let z := gthSize d
    let dst := (descInt d 4 + (i * z : Nat)).toNat
    let halt := fun h => ({ w with halt := some h }, n)
    match engineReads w.s op w.v idx (4 * (descInt d 1 + i)).toNat 4 with
    | .error h => halt h
    | .ok (ib, s, v) => match recordOffset data d (ofBytes ib), op.kind with
      | none, .gth => gatherRecords op data idx dense rest ⟨none, addBytes w.ws dense dst (List.replicate z 0), s, v⟩ (n + 1)
      | none, _ => gatherRecords op data idx dense rest ⟨none, w.ws, s, v⟩ (n + 1)
      | some o, .gth => match engineReads s op v data o z with
        | .error h => halt h
        | .ok (bs, s, v) => gatherRecords op data idx dense rest ⟨none, addBytes w.ws dense dst bs, s, v⟩ n
      | some o, _ => match engineReads s op v dense dst z with
        | .error h => halt h
        | .ok (bs, s, v) => gatherRecords op data idx dense rest ⟨none, addBytes w.ws data o bs, s, v⟩ n

/-- What a gather or a scatter reads and writes, and the records it skips. -/
def gatherWork (s : State) (op : EngineOp) : Option (Work × Nat) :=
  match bufferAt op.buffers 0, bufferAt op.buffers 1, bufferAt op.buffers 2 with
  | some data, some idx, some dense =>
    some (gatherRecords op data idx dense (List.range (gthCount op.desc)) ⟨none, [], s, op.view⟩ 0)
  | _, _, _ => none

def runGather (s : State) (op : EngineOp) : State :=
  let bytes := gthCount op.desc * gthSize op.desc
  match gatherWork s op with
  | none => dropOp s op
  | some r => match engineCommit s op r.1 with
    | .waits s => s
    | .stops c va w => stopOp w.s op w.v c va bytes
    | .all w =>
      let die := match op.unit with
        | .gather d => d.val
        | _ => 0
      let k := w.s.pick 3
      let s := (k.2.count die (1283 + 8 * k.1) (gthCount op.desc)).count die (1284 + 8 * k.1) r.2
      finishOp s op w.v r.2 bytes

/-! ## Transducer lanes (R199) -/

/-- Why a run stops, and what it has done. -/
structure Run where
  s : State
  v : MemView
  st : Nat
  p : Nat
  out : List Byte
  marks : List Nat
  reason : Nat
  failed : Option Halt

/-- Fields of a transition entry (Table 9.11). -/
def entNext (e : Nat) : Nat := natField e 0 12
def entDict (e : Nat) : Bool := e.testBit 12
def entNlit (e : Nat) : Nat := natField e 13 3
def entDlen (e : Nat) : Nat := natField e 40 8
def entDofs (e : Nat) : Nat := natField e 16 24

/-- Bytes an entry emits. -/
def entCount (e : Nat) : Nat := bitOf (e.testBit 50) + (if entDict e then entDlen e else entNlit e)

/-- A bad entry. With DICT set an NLIT of 1 to 4 has no part in it (Table 9.11 gives 0 there, and no stop for
another; DESIGN CHOICE, log 13). -/
def entBad (table : Bound) (states e : Nat) : Bool :=
  natField e 51 13 != 0 || decide (states ≤ entNext e) || decide (4 < entNlit e) ||
  (entDict e && decide (table.len < entDofs e + entDlen e))

/-- The steps of a run, at most `fuel`. Of a CLASS byte the low four bits count (Table 9.10 gives zeros above; DESIGN CHOICE,
log 13). -/
def laneSteps (op : EngineOp) (table input : Bound) (states : Nat) : Nat → Run → Run
  | 0, r => r
  | fuel + 1, r =>
    let d := op.desc
    if xdsIlen d ≤ r.p then r
    else
      let fail := fun c => { r with failed := some c }
      match engineRead r.s op r.v input (descInt d 1 + r.p).toNat with
      | .error c => fail c
      | .ok (b, s, v) => match engineRead s op v table (64 + b.toNat) with
        | .error c => fail c
        | .ok (k, s, v) => match engineReads s op v table (320 + 128 * r.st + 8 * (k.toNat % 16)) 8 with
          | .error c => fail c
          | .ok (eb, s, v) =>
            let e := ofBytes eb
            let here := { r with s := s, v := v }
            if entBad table states e then { here with reason := 4 }
            else if xdsOcap d < r.out.length + entCount e then { here with reason := 2 }
            else if e.testBit 48 ∧ r.marks.length = xdsMcap d then { here with reason := 3 }
            else match if entDict e then engineReads s op v table (entDofs e) (entDlen e)
                else .ok (bytesOf (natField e 16 32) (entNlit e), s, v) with
              | .error c => fail c
              | .ok (lit, s, v) =>
                let r : Run := { s, v, st := entNext e, p := r.p + 1, failed := none
                                 out := r.out ++ (if e.testBit 50 then [b] else []) ++ lit
                                 marks := if e.testBit 48 then r.marks ++ [r.p] else r.marks
                                 reason := if e.testBit 49 then 1 else 0 }
                if e.testBit 49 then r else laneSteps op table input states fuel r

/-- The header's NSTATES and START. -/
def laneHeader (s : State) (op : EngineOp) (table : Bound) : Except Halt (Nat × State × MemView) :=
  match engineReads s op op.view table 0 4 with
  | .error c => .error c
  | .ok (bs, s, v) => .ok (ofBytes bs, s, v)

/-- Marks as bytes of 32-bit elements. -/
def markBytes (ms : List Nat) : List Byte := ms.flatMap (fun m => bytesOf m 4)

/-- What a lane's run reads and writes. -/
def laneWork (s : State) (op : EngineOp) : Option (Work × Run) :=
  match bufferAt op.buffers 0, bufferAt op.buffers 1, bufferAt op.buffers 2, bufferAt op.buffers 3 with
  | some table, some input, some out, some marks =>
    let d := op.desc
    match laneHeader s op table with
    | .error h => some (⟨some h, [], s, op.view⟩, ⟨s, op.view, 0, 0, [], [], 0, some h⟩)
    | .ok (h, s, v) =>
      let r := laneSteps op table input (natField h 0 13) (xdsIlen d) ⟨s, v, natField h 16 12, 0, [], [], 0, none⟩
      some (⟨r.failed, addBytes (addBytes [] out (descInt d 2).toNat r.out) marks (4 * descInt d 4).toNat (markBytes r.marks),
        r.s, r.v⟩, r)
  | _, _, _, _ => none

/-- A lane runs one operation and completes; MARKS is bits 63:32 of word 5 (R193). -/
def runLane (s : State) (op : EngineOp) : State :=
  match laneWork s op with
  | none => dropOp s op
  | some (k, r) => match engineCommit s op k with
    | .waits s => s
    | .stops c va w => stopOp w.s op w.v c va (xdsIlen op.desc)
    | .all w =>
      let m := writeDesc w.s op w.v 44 (bytesOf r.marks.length 4)
      let (die, lane) := match op.unit with
        | .lane d k => (d.val, k)
        | _ => (0, 0)
      finishOp (m.1.count die (1285 + 8 * (lane / 32)) r.p) op m.2
        (r.reason + r.st * 2 ^ 4 + r.p * 2 ^ 16 + r.out.length * 2 ^ 40) (xdsIlen op.desc)

/-! ## Starts -/

/-- Steps 1 to 4 of R193 passed: the descriptor, buffers and object of an operation. -/
structure Checked where
  desc : Nat
  va : Nat
  buffers : List (Nat × Bound)
  comp : Option ObjectAt
  s : State

/-- Steps 2 to 4. -/
def checkStart (s : State) (x : Member) (k : EngineKind) (desc va : Nat) : Except Code Checked :=
  let bd := binderOf s x.wg x.t
  match tableHeader s bd k desc with
  | .error c => .error c
  | .ok (h, s) => match checkNeeds s bd (needsOf k x.wg.fmts (tableStates h) desc) with
    | .error c => .error c
    | .ok (bs, s) => match completionOf s bd k desc with
      | .error c => .error c
      | .ok (o, s) => match ownChecks s x k desc h bs with
        | .error c => .error c
        | .ok _ => .ok ⟨desc, va, bs, o, s⟩

/-- Step 5 with room: the enqueue, a release; a copy of no bytes completes at once. -/
def enqueueOp (x : Member) (k : EngineKind) (sc : Scope) (u : EngineUnit) (c : Checked) : State :=
  let s := c.s
  let agent := (binderOf s x.wg x.t).agent
  let f := releaseUo s agent sc (s.viewOf x.wg.uid x.t.tid)
  let s := f.1.setView x.wg.uid x.t.tid f.2
  let op : EngineOp :=
    { unit := u, kind := k, desc := c.desc, descAddr := c.va, scope := sc, ctx := x.wg.ctx, launch := x.wg.launch
      handle := x.wg.handle s.mode, buffers := c.buffers, fmts := x.wg.fmts, comp := c.comp.map (·.va)
      view := .ofRels [relOf s agent sc f.2], early := [], plan := none, started := s.now, peers := s.peers, aborted := none }
  let s := { s with ops := s.ops ++ [op] }
  if k = .cpy ∧ cpyBytes c.desc = 0 then runCopy s op else s

/-- The start of an engine's operation (R193). One that waits, for room or for a path, reads and checks its descriptor again when it is
tried again (DEDUCED, log 45). -/
def bodyStart (i : Instr) (k : EngineKind) (m : MemOp) (x : Member) (s : State) : MRes :=
  match objectOf x s m 8 { r := true, w := true } 64 .recordAlign with
  | .error c => .trap c x.t.pc
  | .ok (o, s) =>
    if !(m.scope.atLeast (engineScope k)) then .trap .scopeNarrow x.t.pc
    else onObject false o.ps x i o s (fun s =>
      let r := readWords s o.bd.agent (s.viewOf x.wg.uid x.t.tid) .relaxed (cutWords o.va o.ps [])
      let s := r.s.setView x.wg.uid x.t.tid r.v
      let desc := ofBytes r.bytes
      if !(descOk k desc) then .trap .descField x.t.pc
      else match checkStart s x k desc o.va with
        | .error c => .trap c x.t.pc
        | .ok c =>
          if c.buffers.any (fun b => pathWaits s b.2) then waitFor s .link i 0
          else match unitFor c.s x.wg.core k desc c.buffers with
            | none => waitFor c.s .engineRoom i 0
            | some u => .done (enqueueOp x k m.scope u c) {})

def execCpy (c : Common) (m : MemOp) (s : State) : Out := .next (runCore (.cpy c m) (bodyStart (.cpy c m) .cpy m) s)
def execGth (c : Common) (m : MemOp) (s : State) : Out := .next (runCore (.gth c m) (bodyStart (.gth c m) .gth m) s)
def execSct (c : Common) (m : MemOp) (s : State) : Out := .next (runCore (.sct c m) (bodyStart (.sct c m) .sct m) s)
def execXds (c : Common) (m : MemOp) (s : State) : Out := .next (runCore (.xds c m) (bodyStart (.xds c m) .xds m) s)
def execTpf (c : Common) (m : MemOp) (s : State) : Out := .next (runCore (.tpf c m) (bodyStart (.tpf c m) .tpf m) s)
def execCol (c : Common) (m : MemOp) (s : State) : Out := .next (runCore (.col c m) (bodyStart (.col c m) .col m) s)

/-! ## Completion events -/

/-- What an operation reads and writes; a tier prefetch writes nothing before its completion, and a collective what it has found once
every source was read. -/
def workOf (s : State) (op : EngineOp) : Option Work :=
  match op.kind with
  | .cpy => copyWork s op
  | .gth | .sct => (gatherWork s op).map (·.1)
  | .xds => (laneWork s op).map (·.1)
  | .col => op.plan.map (fun p => ⟨none, p.ws, s, op.view⟩)
  | .tpf => none

/-- Operation `k` of a unit, in the order they were enqueued. -/
def opAt (s : State) (u : EngineUnit) (k : Nat) : Option EngineOp := (s.ops.filter (fun o => o.unit == u))[k]?

def execCopyCompletion (cl : ClusterId) (k : Nat) (s : State) : Out :=
  .next (match opAt s (.copy cl) k with
    | some op =>
      let t := op.run s runCopy
      if t.ops.contains op then t else t.count cl.die.val (1024 + 8 * cl.cluster.val + 7) (cpyBytes op.desc)
    | none => s)

def execGatherScatterCompletion (die : Fin 4) (k : Nat) (s : State) : Out :=
  .next (match opAt s (.gather die) k with
    | some op => op.run s runGather
    | none => s)

/-- A lane runs one of its operations: they are in no order (R193). -/
def execTransducerRun (die : Fin 4) (lane : Nat) (s : State) : Out :=
  let n := opsOn s (.lane die lane)
  .next (match opAt s (.lane die lane) (s.pick n).1 with
    | some op => op.run (s.pick n).2 runLane
    | none => s)

/-! ## Engine status (Table 9.16) -/

def pontilStateCode : PontilState → Nat
  | .free => 0
  | .running => 1
  | .stopped => 2

/-- The status of a context. A context that has never run has a program counter of 0 (DESIGN CHOICE, log 5). -/
def contextStatus (s : State) (id : PontilId) : Nat :=
  let p := (s.pontil? id).getD (Pontil.idle id)
  pontilStateCode p.state + p.flags.toNat * 2 ^ 8 + p.code * 2 ^ 16 + p.pc.toNat % 2 ^ 32 * 2 ^ 32

def engineStatus (s : State) (core : CoreId) (sel : Nat) : Nat :=
  match sel with
  | 0 => contextStatus s ⟨core.die, core.cluster, 0⟩
  | 1 => contextStatus s ⟨core.die, core.cluster, 1⟩
  | 2 => opsOn s (.copy ⟨core.die, core.cluster⟩)
  | 3 => opsOn s (.collective core.die)
  | 4 => ((List.range Config.lanes).filter (fun k => opsOn s (.lane core.die k) != 0)).length
  | _ => 0

def execEngst (c : Common) (d a : VReg) (s : State) : Out :=
  .next (runCore (.engst c d a) (fun x s =>
    late s [.v d (BitVec.ofNat 64 (engineStatus s x.wg.core (x.t.readV a).toNat))]) s)

end Machine
end Sys2Proof
end

