-- ==== Sys2Proof/Machine/Collectives.lean ====
section
/-! DEFINITION. Collectives: sums in the carrier (R71), and how a collective of a group completes (R94, R202, R309). -/

namespace Sys2Proof
namespace Machine

/-! ## One element (R71) -/

/-- What a sum reports: inexact, overflow, saturation, invalid. -/
structure Report where
  inexact : Bool := false
  overflow : Bool := false
  saturated : Bool := false
  invalid : Bool := false
  deriving DecidableEq, Repr

def Report.join (a b : Report) : Report :=
  ⟨a.inexact || b.inexact, a.overflow || b.overflow, a.saturated || b.saturated, a.invalid || b.invalid⟩

/-- The status word: bit 0 inexact, 1 overflow, 2 saturation, 3 invalid. -/
def Report.word (r : Report) : Nat := bitOf r.inexact + 2 * bitOf r.overflow + 4 * bitOf r.saturated + 8 * bitOf r.invalid

/-- The largest magnitude of a contribution. -/
def carrierMax : Nat := 2 ^ 107 - 1

/-- A finite contribution over 2^alpha, rounded to nearest and saturated. -/
def contribution (alpha : Int) (v : Val) : Int × Report :=
  match v with
  | .num s n d e =>
    let q := roundInt n d (e - alpha) .rne s 0
    let r : Report := { inexact := !(isInteger n d (e - alpha)), saturated := decide (carrierMax < q) }
    let q := min q carrierMax
    (if s then -(q : Int) else q, r)
  | _ => (0, {})

/-- The special result of contributions that are not all finite; infinities and NaNs travel as side bits. -/
def sideResult (vs : List Val) : Option (Val × Report) :=
  let pos := vs.any (fun t => match t with | .inf false => true | _ => false)
  let neg := vs.any (fun t => match t with | .inf true => true | _ => false)
  if vs.any Val.isNan || (pos && neg) then some (.nan true, { invalid := true })
  else if pos || neg then some (.inf neg, {})
  else none

/-- The reports of an encoding. -/
def encodeReport (f : Flags) : Report :=
  { inexact := f &&& fInexact != 0, overflow := f &&& fOverflow != 0, invalid := f &&& fInvalid != 0 }

/-- collective_element: the result's bits and what is reported. -/
def collectiveElement (dst : FDef) (vs : List Val) (alpha : Int) (rm : Round) (pos : Nat) : Nat × Report :=
  let cs : List (Int × Report) := vs.map (contribution alpha)
  let rep : Report := cs.foldl (fun (r : Report) (c : Int × Report) => r.join c.2) ({} : Report)
  let (v, side) : Val × Report := match sideResult vs with
    | some r => r
    | none => (valInt (cs.foldl (fun (t : Int) (c : Int × Report) => t + c.1) (0 : Int)) alpha, {})
  let r := encodeElem dst v rm pos false
  (r.1, (rep.join side).join (encodeReport r.2))

/-! ## Contributions -/

/-- Read bytes of a buffer from an offset in one access for each page (R66, R75). -/
def engineBlock (s : State) (op : EngineOp) (v : MemView) (d : Bound) (o n : Nat) : Except Halt (List Byte × State × MemView) :=
  if d.backing < o + n then .ok ((freeBytes s n).1, (freeBytes s n).2, v)
  else if addrWaits s (d.base + o) then .error .waits
  else match places s op.ctx (d.base + o) n with
    | .error c => .error (.code c (d.base + o))
    | .ok (ps, s) =>
      if anyPoison s ps then .error (.code .memPoison (d.base + o))
      else if (blocked s false ps).isSome then .error .waits
      else
        let r := readParts (notePage s (unitActor op.unit).die? (d.base + o)) (unitActor op.unit) v .relaxed
          (partsOf s (d.base + o) true ps)
        .ok (r.1, r.2.2.1, r.2.2.2)

/-- What one rank brings: its start's fields, its elements, none for one that could not be read, and the operation when it is one
of this module. -/
structure Rank where
  r : RemoteRank
  elems : List (Option Nat)
  op : Option EngineOp
  view : MemView
  halt : Option Halt

/-- The source elements `0, …, n - 1` of a rank from SOFF; through an alias each is converted (R66). -/
def sourceElems (op : EngineOp) (src : Bound) (f : FDef) : Nat → State → Rank → Rank × State
  | 0, s, r => (r, s)
  | n + 1, s, r =>
    let q := sourceElems op src f n s r
    let lo := ((descInt op.desc 1 + (n : Int)) * (f.w : Int)).toNat
    let sp := src.span lo f.w
    match engineBlock q.2 op q.1.view src (sp.1 - src.base) sp.2 with
    | .ok (bs, s, v) => ({ q.1 with elems := q.1.elems ++ [some (elemBits src lo f.w bs)], view := v }, s)
    | .error h => ({ q.1 with
        elems := q.1.elems ++ [none], halt := if q.1.halt = some .waits then q.1.halt else some h }, q.2)

/-- The contribution of an operation of this module. -/
def localRank (s : State) (op : EngineOp) : Rank × State :=
  let d := op.desc
  let sdef := slotWord op.fmts (colSslot d)
  let base : Rank := ⟨⟨colRank d, colOp d, colCount d, colNrank d, colAlpha d, colRm d, sdef,
    slotWord op.fmts (colDslot d), []⟩, [], some op, op.view, none⟩
  match bufferAt op.buffers 0 with
  | none => (base, s)
  | some src => sourceElems op src (fdefOf sdef) (colSourceCount d) s base

/-- The operations pending on a group at an engine, oldest first. -/
def pendingOn (s : State) (die : Fin 4) (tag : Word) : List EngineOp :=
  s.ops.filter (fun o => o.unit == .collective die && o.kind == .col && colGroup o.desc == tag)

/-- The first operation of each RANK. -/
def firstRanks : List EngineOp → List EngineOp
  | [] => []
  | o :: os => o :: (firstRanks os).filter (fun p => colRank p.desc != colRank o.desc)

/-- Which operations of an engine belong to the next collective of a group for which it carries `m` ranks: the first of
each RANK; when fewer ranks than that have started but `m` operations wait, two of them may claim one RANK. -/
def takeRanks (s : State) (die : Fin 4) (tag : Word) (m : Nat) : Option (List EngineOp) × State :=
  let ops := pendingOn s die tag
  let firsts := firstRanks ops
  if m ≤ firsts.length then (some (firsts.take m), s)
  else if m ≤ ops.length then
    (if (s.pick 2).1 = 0 then (none, (s.pick 2).2) else (some (ops.take m), (s.pick 2).2))
  else (none, s)

/-- The ranks a group places on an engine of this module. -/
def ranksAt (s : State) (g : Group) (die : Fin 4) : Nat :=
  (g.members.filter (fun m => m.module == s.module && m.die == die)).length

/-- The operations of this module's engines for the next collective of a group. (DESIGN CHOICE, log 50) -/
def gather (tag : Word) (g : Group) : List (Fin 4) → State → Option (List EngineOp) × State
  | [], s => (some [], s)
  | d :: ds, s => match takeRanks s d tag (ranksAt s g d) with
    | (none, s) => (none, s)
    | (some ops, s) => match gather tag g ds s with
      | (none, s) => (none, s)
      | (some rest, s) => (some (ops ++ rest), s)

def localRanks : List EngineOp → State → List Rank × State
  | [], s => ([], s)
  | op :: ops, s =>
    let r := localRank { s with peers := op.peers } op
    let q := localRanks ops { r.2 with peers := s.peers }
    (r.1 :: q.1, q.2)

/-! ## The combination (R202) -/

/-- The starts agree, and each rank below NRANK is claimed once. -/
def agree (rs : List RemoteRank) (members : Nat) : Bool :=
  match rs with
  | [] => false
  | a :: _ =>
    rs.all (fun b => b.op == a.op && b.count == a.count && b.nrank == a.nrank && b.alpha == a.alpha && b.rm == a.rm &&
      b.sdef == a.sdef && b.ddef == a.ddef) && a.nrank == members &&
      (List.range members).all (fun k => (rs.filter (fun b => b.rank == k)).length == 1)

/-- Elements at position `j` of every rank, where each could be read. -/
def column (rs : List Rank) (f : FDef) (j : Nat) : Option (List Val) :=
  rs.mapM (fun r => (r.elems.getD j none).map (decodeElem f))

/-- The results of elements `0, …, n - 1`. The position for stochastic rounding is a free value, the same at every rank. -/
def sums (rs : List Rank) (a : RemoteRank) : Nat → State → List (Option (Nat × Report)) × State
  | 0, s => ([], s)
  | n + 1, s =>
    let r := sums rs a n s
    let dst := fdefOf a.ddef
    let rm := effRm a.rm dst
    let k := if rm = .rsr then r.2.pick 32 else (0, r.2)
    (r.1 ++ [(column rs (fdefOf a.sdef) n).map (fun vs => collectiveElement dst vs a.alpha rm k.1)], k.2)

/-- The destination elements of a rank, out of the sums or out of the gathered bits. -/
def destElems (rs : List Rank) (xs : List (Option Nat)) (r : RemoteRank) : List (Option Nat) :=
  match r.op with
  | 0 => xs
  | 1 => (xs.drop (r.rank * r.count)).take r.count
  | _ => (List.range r.nrank).flatMap (fun q => match rs.find? (fun b => b.r.rank == q) with
    | some b => b.elems
    | none => [])

/-- How many sums a collective forms. -/
def sumCount (a : RemoteRank) : Nat :=
  match a.op with
  | 0 => a.count
  | 1 => a.nrank * a.count
  | _ => 0

/-! ## Writing and completing -/

/-- The latest bytes at an address of a buffer; of another module they are free values (DESIGN CHOICE, log 16), and an unmapped
byte is never written. -/
def bytesUnder (s : State) (op : EngineOp) (va n : Nat) : List Byte × State :=
  if vaModule va ≠ s.module.toNat then freeBytes s n
  else ((List.range n).map (fun k => match places s op.ctx (va + k) 1 with
    | .ok (ps, s) => (latestBytes s ps).headD 0
    | .error _ => 0), s)

/-- Put the element at bit `lo` into the bytes to be written. Through an alias it is a read-modify-write of its block, which is
written as one access (R67). -/
def putElem (op : EngineOp) (dst : Bound) (w lo x : Nat) (p : WordWrites × State) : WordWrites × State :=
  let sp := dst.span lo w
  let key := fun (va : Nat) => if dst.mxk = 0 then va / 8 else sp.1 / 8
  let made := fun (va : Nat) => match p.1.find? (fun e => e.1 == key va) with
    | some e => (e.2.find? (fun (b : Nat × Byte) => b.1 == va)).map Prod.snd
    | none => none
  let u := bytesUnder p.2 op sp.1 sp.2
  let old := (List.range sp.2).map (fun k => (made (sp.1 + k)).getD (u.1.getD k 0))
  let new := ((List.range sp.2).zip (elemBytes dst lo w x old)).map (fun b => (sp.1 + b.1, b.2))
  (if dst.mxk = 0 then new.foldl (fun ws b => addByte ws b.1 b.2) p.1
   else upsert (fun e => e.1 == sp.1 / 8) (sp.1 / 8, new) p.1, u.2)

/-- A free order of a list: an engine makes its accesses in no order (R92). -/
def anyOrder {α : Type} : Nat → List α → State → List α × State
  | 0, xs, s => (xs, s)
  | fuel + 1, xs, s =>
    let k := s.pick xs.length
    match xs[k.1]? with
    | none => (xs, k.2)
    | some x =>
      let r := anyOrder fuel (xs.eraseIdx k.1) k.2
      (x :: r.1, r.2)

/-- The bytes that elements from bit `lo` leave, over the bytes that stand at them. -/
def elemsBytes (s : State) (op : EngineOp) (dst : Bound) (lo w : Nat) (xs : List (Option Nat)) : WordWrites × State :=
  let es := (List.range xs.length).zip xs |>.filterMap (fun p => p.2.map (fun x => (lo + p.1 * w, x)))
  let o := if dst.mxk = 0 then (es, s) else anyOrder es.length es s
  o.1.foldl (fun p e => putElem op dst w e.1 e.2 p) ([], o.2)

/-- Pages of 64 KiB that a buffer touches. -/
def bufferPages (d : Bound) : List Nat :=
  (List.range ((d.base + d.backing - 1) / 65536 - d.base / 65536 + 1)).map (fun k => max d.base ((d.base / 65536 + k) * 65536))

/-- A location lies in a buffer. -/
def inBuffer (s : State) (ctx : Nat) (d : Bound) (loc : Nat) : Bool :=
  (bufferPages d).any (fun va => match places s ctx va 1 with
    | .ok ([.here l _], _) => decide (l ≤ loc ∧ loc < l + min (65536 - va % 65536) (d.base + d.backing - va))
    | _ => false)

/-- A location lies in a buffer that the collective names. -/
def inNamed (s : State) (rs : List Rank) (loc : Nat) : Bool :=
  rs.any (fun r => match r.op with
    | some op => op.buffers.any (fun b => inBuffer s op.ctx b.2 loc)
    | none => false)

/-- What participants had seen, of the buffers the collective names (R94). -/
def namedView (s : State) (rs : List Rank) : MemView :=
  { MemView.empty with
      floor := (rs.foldl (fun f r => floorJoin f r.view.floor) []).filter (fun p => inNamed s rs p.1)
      uo := (rs.foldl (fun u r => unionOf u r.view.uo) []).filter (fun i => match s.record? i with
        | some w => w.cells.any (fun c => inNamed s rs c.loc)
        | none => false) }

/-- What a rank of this module is to write. -/
structure Part where
  op : EngineOp
  ws : WordWrites
  failed : Option (Code × Nat)

/-- The code of a rank whose source could not be read, and where. -/
def Rank.failed (r : Rank) : Option (Code × Nat) :=
  match r.halt with
  | some (.code c va) => some (c, va)
  | _ => none

/-- The writes of the ranks of this module. An element made from data that could not be read is not written (R275). -/
def rankParts (rs : List Rank) (xs : List (Option Nat)) (good : Bool) : List Rank → State → List Part × State
  | [], s => ([], s)
  | r :: rest, s => match r.op with
    | none => rankParts rs xs good rest s
    | some op =>
      let w : WordWrites × State := match bufferAt op.buffers 1 with
        | some dst =>
          let d := fdefOf r.r.ddef
          if good then elemsBytes s op dst (descInt op.desc 2 * (d.w : Int)).toNat d.w (destElems rs xs r.r) else ([], s)
        | none => ([], s)
      let q := rankParts rs xs good rest w.2
      let lost := if r.failed.isNone && !(allMapped s op.ctx w.1) then some (.leaseLost, 0) else r.failed
      (⟨op, w.1, lost⟩ :: q.1, q.2)

/-- Write the destinations: all of them, or some words when data of the collective or the destination is lost (R275). -/
def writeRanks (lost : Bool) (ps : List Part) (s : State) (v : MemView) : State × MemView :=
  ps.foldl (fun p x =>
    let u := { p.1 with peers := x.op.peers }
    let w := engineWrite x.op (lost || x.failed.isSome) (lateWords x.op x.ws) ⟨u, withEarly u x.op .empty, []⟩
    let f := releaseUo w.s (unitActor x.op.unit) .system w.v
    ({ f.1 with peers := p.1.peers }, { p.2 with floor := floorJoin p.2.floor f.2.floor, uo := unionOf p.2.uo f.2.uo })) (s, v)

/-- Bytes a rank's completion subtracts. -/
def collectiveBytes (op : EngineOp) : Nat :=
  ceilDiv (colDestCount op.desc * (slotDef op.fmts (colDslot op.desc)).w) 8

/-- Complete each rank of this module: it has seen what the collective releases. -/
def completeRanks (status : Nat) (v : MemView) (ps : List Part) (s : State) : State :=
  ps.foldl (fun s x => x.op.run s (fun s op => match x.failed with
    | some c => stopOp s op v c.1 c.2 (collectiveBytes op)
    | none => finishOp (s.count (((unitActor op.unit).die?).getD 0) 1313 (collectiveBytes op)) op v status (collectiveBytes op))) s

/-- The completion on a die comes 40 ticks or more after the starts on the others (R282). -/
def afterStarts (ps : List Part) (s : State) : State :=
  let die := fun (x : Part) => (unitActor x.op.unit).die?
  ps.foldl (fun s x => if ps.any (fun y => die y != die x) then { s with now := max s.now (x.op.started + 40) } else s) s

/-- What a collective whose sources have been read is to write, and the status of each rank. -/
structure Findings where
  parts : List Part
  status : Nat
  s : State

/-- What the ranks of this module found before, where some of it has been written (R93). -/
def planned (ranks : List Rank) (s : State) : Option Findings :=
  let ops := ranks.filterMap (·.op)
  if ops.all (fun o => o.early.isEmpty) then none
  else (ops.mapM (fun (o : EngineOp) => o.plan.map (fun p => (⟨o, p.ws, none⟩ : Part)))).map (fun ps =>
    ⟨ps, ((ops.head?.bind (·.plan)).map (·.status)).getD 0, s⟩)

/-- The results of a collective (R202), or what was found before. -/
def findings (ranks : List Rank) (members : Nat) (s : State) : Findings :=
  match planned ranks s with
  | some f => f
  | none =>
    let rs := ranks.map (·.r)
    let good := agree rs members
    let a : RemoteRank := rs.headD ⟨0, 0, 0, 0, 0, .slotDefault, 0, 0, []⟩
    let sm := if good then sums ranks a (sumCount a) s else ([], s)
    let rep := (sm.1.filterMap id).foldl (fun (r : Report) (x : Nat × Report) => r.join x.2) ({} : Report)
    let ps := rankParts ranks (sm.1.map (fun x => x.map (·.1))) good ranks sm.2
    ⟨ps.1, if good then rep.word else 16, ps.2⟩

/-- A collective whose every rank has started: it waits while an access of it waits, and otherwise writes and completes. -/
def runCollective (s₀ s : State) (ranks : List Rank) (members : Nat) : State :=
  if ranks.any (fun r => r.halt == some .waits || r.op.any (fun o => completionWaits { s₀ with peers := o.peers } o)) then s₀
  else
    let f := findings ranks members s
    match f.parts.findSome? (fun x => writesWait { f.s with peers := x.op.peers } x.op (lateWords x.op x.ws)) with
    | some z => { s₀ with reencrypting := z.reencrypting }
    | none =>
      let w := writeRanks (ranks.any (fun r => r.failed.isSome)) f.parts (afterStarts f.parts f.s) (namedView f.s ranks)
      completeRanks f.status w.2 f.parts w.1

/-- The next collective of one of some groups with a tag (two of them name no engine in common, R309): the first whose every
rank has started. -/
def completeGroup (tag : Word) (remote : List RemoteRank) : List Group → State → State
  | [], s => s
  | g :: gs, s₀ =>
    let s := s₀
    if remote.length ≠ (g.members.filter (fun m => m.module != s.module)).length then completeGroup tag remote gs s
    else match gather tag g (List.finRange 4) s with
      | (none, s) => completeGroup tag remote gs s
      | (some ops, s) =>
        if ops.isEmpty then completeGroup tag remote gs s
        else
          let l := localRanks ops s
          runCollective s₀ l.2 (l.1 ++ remote.map (fun r => ⟨r, r.elems.map some, none, .empty, none⟩)) g.members.length

/-! ## Before the completion (R93) -/

/-- The contributions of other modules to a group's collective: those of the completion that comes for its tag (DESIGN CHOICE, log 13). -/
def remoteFor (s : State) (tag : Word) : List RemoteRank :=
  (s.agenda.findSome? (fun t => match t with
    | .event (.collectiveCompletion x remote) => if x == tag then some remote else none
    | _ => none)).getD []

/-- The sources of a group's next collective are read, once every rank has started: what its ranks find is kept, and some of it may be
written before the completion. -/
def planGroup (s₀ : State) (g : Group) : State :=
  let k := s₀.pick 2
  let remote := remoteFor s₀ g.tag
  if k.1 = 0 ∨ remote.length ≠ (g.members.filter (fun m => m.module != s₀.module)).length then k.2
  else match gather g.tag g (List.finRange 4) k.2 with
    | (none, s) => s
    | (some ops, s) =>
      if ops.isEmpty || ops.any (·.plan.isSome) then s
      else
        let l := localRanks ops s
        let f := findings (l.1 ++ remote.map (fun r => ⟨r, r.elems.map some, none, .empty, none⟩)) g.members.length l.2
        if l.1.any (fun r => r.halt.isSome) || f.parts.any (·.failed.isSome) then s
        else f.parts.foldl (fun s p => { s with ops := replaceFirst (fun o => o == p.op) { p.op with plan := some ⟨p.ws, f.status⟩ } s.ops }) f.s

/-- Operations under way make some of their writes; while the package is stopped none does (R93, R294). -/
def engineProgress (s : State) : State :=
  if s.gated then s
  else
    let s := s.groups.foldl planGroup s
    s.ops.foldl (progressOp workOf) s

/-- COLLECTIVE_COMPLETION: `remote` are the contributions of the ranks of other modules. Nothing happens before every rank
of this module has started and every other one's contribution is there. -/
def execCollectiveCompletion (tag : Word) (remote : List RemoteRank) (s : State) : Out :=
  .next (completeGroup tag remote (s.groups.filter (fun g => g.tag == tag)) s)

end Machine
end Sys2Proof
end

