-- ==== Sys2Proof/Machine/Forks.lean ====
section
/-! DEFINITION. Starting a pontil routine, and meeting it (R168 to R171). -/

namespace Sys2Proof
namespace Machine

/-! ## The fork descriptor (Table 9.1) -/

def forkEntry (d : Nat) : Nat := natField d 0 32
def forkCtx (d : Nat) : Nat := natField d 32 2
def forkRbind (d : Nat) : Nat := natField d 64 6
def forkRelem (d : Nat) : Nat := natField d 128 64
def forkQ (d k : Nat) : Word := BitVec.ofNat 64 (natField d (192 + 64 * k) 64)

/-- Values Table 9.1 allows. -/
def forkOk (d : Nat) : Bool :=
  forkCtx d != 3 && forkEntry d % 64 == 0 && natField d 34 30 == 0 && natField d 70 58 == 0

/-! ## Which context a fork takes (R168) -/

/-- The contexts of a cluster that CTX names. -/
def wanted (want : Nat) : List (Fin 2) := if want = 2 then [0, 1] else [Fin.ofNat 2 want]

/-- A context that no routine runs on. -/
def contextFree (s : State) (p : PontilId) : Bool :=
  match s.pontil? p with
  | some x => x.state != .running
  | none => true

/-- A fork that waits for a context of a cluster: its number, CTX, and thread. The wait's limit holds CTX. -/
structure ForkWaiter where
  since : Nat
  want : Nat
  t : ThreadId
  deriving DecidableEq, Repr

def forkWaiterOf (g : Workgroup) (t : Thread) : Option ForkWaiter :=
  match t.wait with
  | some w => if w.kind == .forkContext then some ⟨w.since, w.limit, ⟨g.uid, t.tid⟩⟩ else none
  | none => none

/-- The forks waiting on a cluster. -/
def forkWaiters (s : State) (cl : ClusterId) : List ForkWaiter :=
  (s.workgroups.filter (fun g => g.core.die == cl.die && g.core.cluster == cl.cluster)).flatMap
    (fun g => g.threads.filterMap (forkWaiterOf g))

/-- The waiter that began first. -/
def oldestWaiter : List ForkWaiter → Option ForkWaiter
  | [] => none
  | w :: ws => match oldestWaiter ws with
    | none => some w
    | some x => some (if x.since < w.since then x else w)

/-- The first context a fork may take among those left. -/
def takeContext (free : List (Fin 2)) (want : Nat) : Option (Fin 2) := (wanted want).find? (fun c => free.contains c)

/-- What the forks that began to wait earlier leave, `fuel` of them at most. -/
def leftFree : Nat → List ForkWaiter → List (Fin 2) → List (Fin 2)
  | 0, _, free => free
  | fuel + 1, ws, free => match oldestWaiter ws with
    | none => free
    | some w =>
      let rest := ws.filter (fun x => x != w)
      match takeContext free w.want with
      | none => leftFree fuel rest free
      | some c => leftFree fuel rest (free.filter (fun x => x != c))

/-- The context a fork with this number takes now. -/
def contextFor (s : State) (cl : ClusterId) (want number : Nat) : Option PontilId :=
  let free := ([0, 1] : List (Fin 2)).filter (fun c => contextFree s ⟨cl.die, cl.cluster, c⟩)
  let ahead := (forkWaiters s cl).filter (fun w => decide (w.since < number))
  (takeContext (leftFree ahead.length ahead free) want).map (fun c => ⟨cl.die, cl.cluster, c⟩)

/-! ## The start of a routine (R170) -/

/-- What a context takes at its start. -/
def startedPontil (id : PontilId) (x : Member) (d : Nat) (rdv : Nat) (sc : Scope) (v : MemView) : Pontil :=
  { Pontil.idle id with
      state := .running, pc := BitVec.ofNat 64 (forkEntry d)
      q := (List.range 32).map (fun k => if k < 5 then forkQ d k else 0)
      lc := List.replicate 4 0
      fmts := (List.range 4).map fixedSlot ++ x.wg.fmts
      rdv := BitVec.ofNat 64 rdv, rbind := Fin.ofNat 64 (forkRbind d), relem := BitVec.ofNat 64 (forkRelem d)
      rtid := x.t.tid, scope := sc, wg := x.wg.uid
      view := v }

/-- Start a context: a release of the forking thread (R92). -/
def startContext (s : State) (x : Member) (id : PontilId) (d rdv : Nat) (sc : Scope) : State :=
  let agent := (binderOf s x.wg x.t).agent
  let f := releaseUo s agent sc (s.viewOf x.wg.uid x.t.tid)
  (f.1.setView x.wg.uid x.t.tid f.2).setPontil (startedPontil id x d rdv sc (.ofRels [relOf f.1 agent sc f.2]))

/-- The rendezvous object a descriptor names (R168 step 6). -/
def forkObject (s : State) (x : Member) (d : Nat) : Except Code (ObjectAt × State) :=
  namedBarrier s (binderOf s x.wg x.t) (forkRbind d) (signedOf 64 (forkRelem d))

/-- fork (R168). -/
def bodyFork (i : Instr) (r : VReg) (m : MemOp) (x : Member) (s : State) : MRes :=
  match objectOf x s m 8 { r := true } 64 .recordAlign with
  | .error c => .trap c x.t.pc
  | .ok (o, s) =>
    if !(m.scope.atLeast .cluster) then .trap .scopeNarrow x.t.pc
    else onObject false o.ps x i o s (fun s =>
      let rd := readWords s o.bd.agent (s.viewOf x.wg.uid x.t.tid) .relaxed (cutWords o.va o.ps [])
      let s := rd.s.setView x.wg.uid x.t.tid rd.v
      let d := ofBytes rd.bytes
      if !(forkOk d) then .trap .descField x.t.pc
      else match forkObject s x d with
        | .error c => .trap c x.t.pc
        | .ok (b, s) => match contextFor s ⟨x.wg.core.die, x.wg.core.cluster⟩ (forkCtx d) (ownNumber x s) with
          | none => waitFor s .forkContext i (forkCtx d)
          | some id => .done (startContext s x id d b.va m.scope) { writes := [.v r (BitVec.ofNat 64 id.ctx.val)] })

def execFork (c : Common) (d : VReg) (m : MemOp) (s : State) : Out :=
  .next (runCore (.fork c d m) (bodyFork (.fork c d m) d m) s)

/-! ## rdv (R171) -/

/-- rdv: one arrival of no bytes, and the register that bwait takes: the phase before it, with no limit. -/
def bodyRdv (i : Instr) (d : VReg) (m : MemOp) (x : Member) (s : State) : MRes :=
  match barrierOf x s m with
  | .error c => .trap c x.t.pc
  | .ok (o, s) =>
    if !(m.scope.atLeast .cluster) then .trap .scopeNarrow x.t.pc
    else onObject true o.ps x i o s (fun s =>
      match objectStep s o.bd.agent m.scope (s.viewOf x.wg.uid x.t.tid) o.va o.ps (fun w => barArrive w 0) with
      | none => .trap .barrierOver x.t.pc
      | some (w, s, v) =>
        .done (s.setView x.wg.uid x.t.tid v)
          { writes := [.v d (BitVec.ofNat 64 (bitOf (barPhase w) * 2 ^ 63 + (2 ^ 63 - 1)))] })

def execRdv (c : Common) (d : VReg) (m : MemOp) (s : State) : Out :=
  .next (runCore (.rdv c d m) (bodyRdv (.rdv c d m) d m) s)

end Machine
end Sys2Proof
end

