-- ==== Sys2Proof/Machine/Priv.lean ====
section
/-! DEFINITION. Privileged instructions other than lehrsv and lehrld (R229 to R231): registers, invalidation of entries (R260)
and of translations (R255), queue control (R245), the stop on a tick (R293). -/

namespace Sys2Proof
namespace Machine

/-! ## Privileged registers (Table 16.2) -/

/-- PRIV, CHECK and DEBUG of a context as bits. -/
def cflagsOf (s : State) (c : Nat) : Nat := bitOf (s.isPriv c) + 2 * bitOf (s.isChecked c) + 4 * bitOf (s.isDebug c)

/-- The queues a context holds, as bits. -/
def queueBits (s : State) (c : Nat) : Nat :=
  ((List.range 64).map (fun q => bitOf (s.heldQueue c q).isSome * 2 ^ q)).foldl (· + ·) 0

def privReg (s : State) (g : Workgroup) (r : PrivReg) : Nat :=
  match r with
  | .ctx => g.ctx
  | .cflags => cflagsOf s g.ctx
  | .btbase => match s.context? g.ctx with
    | some c => c.btbase.toNat
    | none => 0
  | .btlen => match s.context? g.ctx with
    | some c => c.btlen
    | none => 0
  | .queues => queueBits s g.ctx
  | .wgh => g.handle s.mode

def execRdpr (c : Common) (d : VReg) (r : PrivReg) (s : State) : Out :=
  .next (runCore (.rdpr c d r) (fun x s => late s [.v d (BitVec.ofNat 64 (privReg s x.wg r))]) s)

/-- Change the DEBUG flag of a context. -/
def setDebug (s : State) (c : Nat) (b : Bool) : State :=
  { s with contexts := s.contexts.map (fun x => if x.id.val = c then { x with debug := b } else x) }

/-- wrpr p.cflags: every core of the device has taken the flag when it completes (R231). -/
def execWrpr (c : Common) (a : VReg) (s : State) : Out :=
  .next (runCore (.wrpr c a) (fun x s =>
    let w := x.t.readV a
    if w.toNat % 4 = cflagsOf s x.wg.ctx % 4 ∧ w.toNat < 8 then .done (setDebug s x.wg.ctx (wordBit w 2)) {}
    else .trap .illegalField x.t.pc) s)

/-! ## bfinv (R260) -/

/-- 2^24 ticks. -/
def longWait : Nat := 2 ^ 24

def bodyBfinv (i : Instr) (d a b : VReg) (x : Member) (s : State) : MRes :=
  let n := (x.t.readV b).toNat
  let len := match s.context? x.wg.ctx with
    | some c => c.btlen
    | none => 0
  if len < (x.t.readV a).toNat + n then .trap .bounds x.t.pc
  else if n = 0 then late s [.v d (BitVec.ofNat 64 (diesPerDevice s.mode))]
  else
    let f := releaseUo s (binderOf s x.wg x.t).agent .system (s.viewOf x.wg.uid x.t.tid)
    waitFor (f.1.setView x.wg.uid x.t.tid f.2) .bfinv i (s.tickOf x.wg.core.die.val + longWait)

def execBfinv (c : Common) (d a b : VReg) (s : State) : Out :=
  .next (runCore (.bfinv c d a b) (bodyBfinv (.bfinv c d a b) d a b) s)

/-- A cached entry is held on a die. -/
def cachedOn (die : Nat) (e : CachedEntry) : Bool := e.holder.die? == some die

/-- A thread's bfinv under way: the destination, the first entry and the count. -/
structure Invalidation where
  w : Wait
  d : VReg
  first : Nat
  n : Nat

def invalidationOf (t : Thread) : Option Invalidation :=
  match t.wait with
  | none => none
  | some w => if w.kind != .bfinv then none else match w.instr with
    | .bfinv _ d a b => some ⟨w, d, (t.readV a).toNat, (t.readV b).toNat⟩
    | _ => none

/-- The end of a bfinv: the dies that have acknowledged. -/
def endBfinv (s : State) (t : ThreadId) (v : Invalidation) (acks : List Nat) : State :=
  s.modThread t.wg t.tid (fun th =>
    th.resume (stallOf v.w.instr) { writes := [.v v.d (BitVec.ofNat 64 acks.length)] })

/-- A die drops its copies of the entries and acknowledges, once every access checked against a dropped copy is performed: no
write to a UO page changes its place afterwards. A die under reset answers only once its reset completes, and one that answers
after 2^24 ticks is not counted. -/
def ackBfinv (t : ThreadId) (die : Fin 4) (s : State) : State :=
  match s.wg? t.wg, s.thread? t.wg t.tid with
    | some g, some th => match invalidationOf th with
      | none => s
      | some v =>
        if !((s.diesOf g.ctx).contains die.val) || v.w.acks.contains die.val || s.down.any (fun x => x.die == die)
            || decide (v.w.limit < s.tickOf g.core.die.val) then s
        else
          let s := { settleLoose s with entryCache := s.entryCache.filter (fun e =>
            !(cachedOn die.val e && e.ctx == g.ctx && decide (v.first ≤ e.index ∧ e.index < v.first + v.n))) }
          let s := s.count die.val 1316 1
          let acks := die.val :: v.w.acks
          if (s.diesOf g.ctx).all acks.contains then endBfinv s t v acks
          else s.modThread t.wg t.tid (fun th => { th with wait := some { v.w with acks } })
    | _, _ => s

def execBfinvInvalidate (t : ThreadId) (die : Fin 4) (s : State) : Out := .next (ackBfinv t die s)

def execBfinvTimeout (t : ThreadId) (s : State) : Out :=
  .next (match s.wg? t.wg, s.thread? t.wg t.tid with
    | some g, some th => match invalidationOf th with
      | none => s
      | some v => if v.w.limit ≤ s.tickOf g.core.die.val then endBfinv s t v v.w.acks else s
    | _, _ => s)

/-! ## tlbinv (R255) -/

/-- The home die of an address is one whose translations this device may drop. -/
def mayInvalidate (s : State) (ctx va : Nat) : Bool :=
  vaModule va == s.module.toNat && ((s.diesOf ctx).contains (vaDie va) || vaDie va == 4 || vaDie va == 5)

/-- Drop translations, once every request translated with one of them is performed (R32, R255), so that no write changes its place
afterwards. Leaves written before are in effect from now on where the tlbinv covers them: at each die, the page of an offset or every
page (R256). -/
def dropTranslations (s : State) (p : TlbEntry → Bool) (dies : List Nat) (ofs : Option Nat) : State :=
  let s := settleLoose s
  { s with
      tlb := s.tlb.filter (fun t => !(p t))
      invalidated := dies.map (fun d => ⟨d, ofs, s.nextWrite⟩) ++
        s.invalidated.filter (fun x => !(dies.contains x.die && (ofs.isNone || x.ofs == ofs))) }

def execTlbinvPg (c : Common) (a : VReg) (s : State) : Out :=
  .next (runCore (.tlbinvPg c a) (fun x s =>
    let va := (x.t.readV a).toNat
    if mayInvalidate s x.wg.ctx va then
      .done (dropTranslations s (fun e => e.covers (vaDie va) (vaOfs va)) [vaDie va] (some (vaOfs va))) {}
    else .trap .bounds x.t.pc) s)

def execTlbinvAll (c : Common) (s : State) : Out :=
  .next (runCore (.tlbinvAll c) (fun x s =>
    let dies := s.diesOf x.wg.ctx ++ [4, 5]
    .done (dropTranslations s (fun e => e.ctx == x.wg.ctx && dies.contains e.die) dies none) {}) s)

/-! ## hqctl (R245) -/

/-- The queue v[A] names, when the context holds it. -/
def namedQueue (x : Member) (s : State) (a : VReg) : Option Queue :=
  let q := (x.t.readV a).toNat
  if q < queuesPerDevice s.mode then s.heldQueue x.wg.ctx q else none

def setPaused (s : State) (q : Queue) (b : Bool) : State :=
  refreshAges { s with
    queues := replaceFirst (fun y => y.num == q.num && y.owner == q.owner) { q with paused := b } s.queues }

/-- The queue's state word afterwards, in v[D]. -/
def queueResult (s : State) (x : Member) (d : VReg) (q : Queue) : MRes := late s [.v d (queueWord s x.wg.ctx q.num)]

def bodyHqctl (a : VReg) (act : Queue → State → MRes) (x : Member) (s : State) : MRes :=
  match namedQueue x s a with
  | none => .trap .queueRange x.t.pc
  | some q => act q s

def execHqctlRd (c : Common) (d a : VReg) (s : State) : Out :=
  .next (runCore (.hqctlRd c d a) (fun x => bodyHqctl a (fun q s => queueResult s x d q) x) s)

def execHqctlPause (c : Common) (d a : VReg) (s : State) : Out :=
  .next (runCore (.hqctlPause c d a) (fun x => bodyHqctl a (fun q s => queueResult (setPaused s q true) x d q) x) s)

def execHqctlResume (c : Common) (d a : VReg) (s : State) : Out :=
  .next (runCore (.hqctlResume c d a) (fun x => bodyHqctl a (fun q s => queueResult (setPaused s q false) x d q) x) s)

/-- The result of hqctl.drain stays owed until nothing of the queue is resident; the value then is the queue's state. -/
def execHqctlDrain (c : Common) (d a : VReg) (s : State) : Out :=
  .next (runCore (.hqctlDrain c d a) (fun x => bodyHqctl a (fun q s =>
    .done (setPaused s q true) { writes := [.v d 0], queue := some q.num }) x) s)

/-! ## Stops on a tick (R293) -/

/-- The latest reading of any die. -/
def lastTick (s : State) : Nat := (List.range 6).foldl (fun n d => max n (s.tickOf d)) 0

/-- The arm is void when some die has passed T − 64: the setting that stood before stays. -/
def execStoptArm (c : Common) (a : VReg) (s : State) : Out :=
  .next (runCore (.stoptArm c a) (fun x s =>
    let t := (x.t.readV a).toNat
    .done (if t < lastTick s + 64 then s else { s with stopAt := some t }) {}) s)

def execStoptOff (c : Common) (s : State) : Out :=
  .next (runCore (.stoptOff c) (fun _ s => .done { s with stopAt := none } {}) s)

end Machine
end Sys2Proof
end

