-- ==== Sys2Proof/Machine/CoreEvents.lean ====
section
/-! DEFINITION. A cycle of a core: which gangs form and issue (R11, R31 to R35), and the events that waits and scoreboarded
results end with (R32). -/

namespace Sys2Proof
namespace Machine

/-! ## Readiness (R32, R329) -/

/-- The guard's predicate. -/
def guardReg (i : Instr) : Option PReg :=
  match commonOf? i with
  | some ⟨_, .pred k _⟩ => some k
  | _ => none

/-- An instruction names the target of a register write; rdind names the register its index picks. -/
def namesWrite (x : Member) (i : Instr) (w : RegWrite) : Bool :=
  let u := uses i
  match w with
  | .v r _ => r != 0xFF && (u.vregs.contains r || (x.ownReads i).contains r)
  | .p q _ => u.pdst.contains q || u.psrc.contains q || guardReg i == some q
  | .vm k _ => u.vdst.contains k || u.vsrc.contains k

/-- rdsr and wrsr of s.fflags. -/
def touchesFlags (i : Instr) : Bool :=
  match i with
  | .rdsr _ _ .fflags | .wrsr _ _ => true
  | _ => false

/-- The thread waits for a scoreboarded result before its next instruction. -/
def owedFor (x : Member) (i : Instr) : Bool :=
  x.t.owed.any (fun o => o.writes.any (namesWrite x i)) ||
  (touchesFlags i && x.t.owed.any (·.flagged)) ||
  (match i with
   | .bsync _ => x.t.guardOk i && !x.t.owed.isEmpty
   | _ => false)

/-- A thread is ready: live, not waiting, with no code raised, and owed nothing its next instruction names. (DEDUCED, log 11) -/
def readyThread (s : State) (g : Workgroup) (t : Thread) : Bool :=
  t.live && t.wait.isNone && t.trap.isNone &&
    (t.owed.isEmpty || (match fetchThread s g t with
      | .ok (i, _) => !(owedFor ⟨g, t, [t.tid]⟩ i)
      | .error _ => true))

/-! ## Forming a gang (R31, R33, R34) -/

/-- Key `a` is lower than key `b` (R31). -/
def keyBelow (a b : Thread) : Bool := decide (b.depth < a.depth) || (a.depth == b.depth && decide (a.pc.toNat < b.pc.toNat))

def sameKey (a b : Thread) : Bool := a.depth == b.depth && a.pc == b.pc

/-- A thread of lowest key. -/
def lowest : List Thread → Option Thread
  | [] => none
  | t :: ts => match lowest ts with
    | none => some t
    | some u => some (if keyBelow u t then u else t)

/-- Of the threads of one key, those of lowest warp number on each home lane. -/
def onePerLane (ts : List Thread) : List Thread :=
  ts.filter (fun t => !(ts.any (fun u => u.lane == t.lane && decide (u.warp < t.warp))))

/-- What a workgroup offers an issue slot: nothing, a gang held by a member's stall count, or a gang, with whether the
workgroup unparks. -/
inductive Offer where
  | none
  | held
  | gang (tids : List Nat) (unpark : Bool)
  deriving DecidableEq, Repr

def gangOf (ts : List Thread) (unpark : Bool) : Offer :=
  match lowest ts with
  | Option.none => .none
  | some k =>
    let ms := onePerLane (ts.filter (sameKey k))
    if ms.all (fun t => t.stall == 0) then .gang (ms.map (·.tid)) unpark else .held

/-- The end notice of a workgroup's launch has reached its core: 2^12 ticks after the launch ended at the latest (R274). -/
def noticed (s : State) (g : Workgroup) : Bool :=
  match s.launch? g.launch with
  | some l => l.code.isSome && decide (l.codeAt + 2 ^ 12 < s.now)
  | none => false

/-- The gang that the picker forms (R33). A gang that R11 has kept formed is offered again. -/
def formGang (s : State) (g : Workgroup) : Offer :=
  if g.halted || noticed s g then .none
  else if !g.formed.isEmpty then
    .gang g.formed (g.threads.any (fun t => g.formed.contains t.tid && t.parked))
  else
    let ready := g.threads.filter (readyThread s g)
    let u := ready.filter (fun t => !t.parked)
    if u.isEmpty then gangOf ready true else gangOf u false

/-- The fetch of a gang's word waits for a path or a frame (R307, R310). -/
def gangWaits (s : State) (g : Workgroup) (tids : List Nat) : Bool :=
  match membersOf g tids with
  | [] => false
  | x :: _ => fetchWaits s (binderOf s g x.t) x.t.pc

/-- What a workgroup offers: its gang, held while the fetch of its word waits. -/
def offerOf (s : State) (g : Workgroup) : Offer :=
  match formGang s g with
  | .gang tids unpark => if gangWaits s g tids then .held else .gang tids unpark
  | o => o

/-- The word of a gang is of the format arithmetic or of the lane instructions: majors 0x20 to 0x5F, whatever else it holds
(R11). -/
def takesUnit (s : State) (g : Workgroup) (tids : List Nat) : Bool :=
  match membersOf g tids with
  | [] => false
  | x :: _ => match fetchWord s (binderOf s g x.t) (sinceOf s g) x.t.pc with
    | .ok (w, _) => decide (0x20 ≤ wordField w 56 8 ∧ wordField w 56 8 < 0x60)
    | .error _ => false

/-- The instruction of a gang is a fork. -/
def forks (s : State) (g : Workgroup) (tids : List Nat) : Bool :=
  match membersOf g tids with
  | [] => false
  | x :: _ => match fetchThread s g x.t with
    | .ok (.fork .., _) => true
    | _ => false

/-! ## A cycle (R35) -/

/-- A workgroup with its gang. -/
structure Pick where
  g : Workgroup
  tids : List Nat
  unpark : Bool

/-- The core's pointer. -/
def pointerOf (s : State) (c : CoreId) : Nat :=
  match s.corePointers.find? (fun p => p.1 == c) with
  | some p => p.2
  | none => 0

def setPointer (s : State) (c : CoreId) (n : Nat) : State :=
  { s with corePointers := upsert (fun p => p.1 == c) (c, n % 16) s.corePointers }

/-- The workgroups of a core in slot order from its pointer. -/
def inOrder (s : State) (c : CoreId) : List Workgroup :=
  (List.range 16).flatMap (fun k => (wgsOn s c).filter (fun g => g.slot.val == (pointerOf s c + k) % 16))

/-- The eligible workgroups, in order. -/
def picksOf (s : State) (gs : List Workgroup) : List Pick :=
  gs.filterMap (fun g => match offerOf s g with
    | .gang tids unpark => some ⟨g, tids, unpark⟩
    | _ => none)

/-- One cycle passes for every stall count of the core. -/
def tickStalls (s : State) (c : CoreId) : State :=
  { s with workgroups := s.workgroups.map (fun g =>
      if g.core = c then { g with threads := g.threads.map (fun t => { t with stall := t.stall - 1 }) } else g) }

/-- Counter `j` of Table 20.10 of a core. -/
def countCore (s : State) (c : CoreId) (j n : Nat) : State := if n = 0 then s else s.count c.die.val (8 * coreUnit c + j) n

/-- A gang goes to issue in a slot: its workgroup unparks if the picker had to (R34). A gang that R11 keeps formed unparks when it
issues, not when it forms (DEDUCED, log 54). -/
def issuePick (s : State) (c : CoreId) (slot : Nat) (p : Pick) : State :=
  let g := { p.g with formed := [], threads := if p.unpark then p.g.threads.map (fun t => { t with parked := false })
                                              else p.g.threads }
  let s := s.setWg g
  let s := { s with issue := s.issue ++ [.gang g.uid p.tids] }
  countCore (countCore (countCore s c slot 1) c 2 p.tids.length) c 6 (bitOf p.unpark)

/-- The pointer after a slot. -/
def pastSlot (s : State) (c : CoreId) (p : Pick) : State := setPointer s c (p.g.slot.val + 1)

/-- The counts of a cycle: slots held by step 4, no ready thread, residents. -/
def countCycle (s : State) (c : CoreId) (gs : List Workgroup) (issued : Nat) : State :=
  let held := (gs.filter (fun g => offerOf s g == .held)).length
  let idle := gs.all (fun g => offerOf s g == .none)
  let t := countCore s c 3 (min held (2 - issued))
  countCore (countCore t c 5 (bitOf (!gs.isEmpty && idle))) c 7 gs.length

/-- Two gangs of one cycle act in the order of their issue slots (DEDUCED, log 54); two forks in that of their workgroup slots,
which is the order in which they wait for a context (R168). -/
def issueBoth (s : State) (c : CoreId) (p q : Pick) : State :=
  if forks s p.g p.tids && forks s q.g q.tids && decide (q.g.slot < p.g.slot) then issuePick (issuePick s c 1 q) c 0 p
  else issuePick (issuePick s c 0 p) c 1 q

/-- A cycle of a core: at most two gangs go to issue. -/
def cycle (s : State) (c : CoreId) : State :=
  let s := tickStalls s c
  let gs := inOrder s c
  match picksOf s gs with
  | [] => countCycle s c gs 0
  | [p] => pastSlot (issuePick (countCycle s c gs 1) c 0 p) c p
  | p :: q :: _ =>
    if takesUnit s p.g p.tids && takesUnit s q.g q.tids then
      let t := countCore (issuePick (countCycle s c gs 1) c 0 p) c 4 1
      setPointer (t.setWg { q.g with formed := q.tids }) c q.g.slot.val
    else pastSlot (issueBoth (countCycle s c gs 2) c p q) c q

def execGangForm (c : CoreId) (s : State) : Out :=
  .next (if s.down.any (fun d => d.die == c.die) then s else cycle s c)

/-! ## Waits that end -/

/-- The meaning of an instruction at which a thread may wait. -/
def waitBody (i : Instr) (x : Member) (s : State) : MRes :=
  match i with
  | .ld _ d m => bodyLoad i d m oneElem x s
  | .ldp _ d m => bodyLoad i d m FDef.lanes x s
  | .st _ d m => bodyStore i d m oneElem x s
  | .stp _ d m => bodyStore i d m FDef.lanes x s
  | .ldfe _ d m => bodyTake i d m false x s
  | .ldfeClr _ d m => bodyTake i d m true x s
  | .stfe _ d m => bodyFill i d m x s
  | .atomAdd _ d m => bodyAtom i .add d m x s
  | .atomMin _ d m => bodyAtom i .min d m x s
  | .atomMax _ d m => bodyAtom i .max d m x s
  | .atomAnd _ d m => bodyAtom i .and d m x s
  | .atomOr _ d m => bodyAtom i .or d m x s
  | .atomXor _ d m => bodyAtom i .xor d m x s
  | .atomXchg _ d m => bodyAtom i .xchg d m x s
  | .atomCas _ d m => bodyAtom i .cas d m x s
  | .fence _ _ _ | .fenceSc _ _ => fenceDoneBody i x s
  | .binit _ d m => bodyBinit i d m x s
  | .barr _ d m => bodyBarr i d m x s
  | .bwait _ d m => bodyBwait i d m false x s
  | .nbpost _ k d m => bodyNbpost i k d m x s
  | .nbget _ d m => bodyNbget i d m x s
  | .nbinit _ b sc => bodyNbinit i b sc x s
  | .spawn _ d m => bodySpawn i d m x s
  | .joinRec _ d m => bodyJoin i d m x s
  | .fork _ d m => bodyFork i d m x s
  | .rdv _ d m => bodyRdv i d m x s
  | .cpy _ m => bodyStart i .cpy m x s
  | .gth _ m => bodyStart i .gth m x s
  | .sct _ m => bodyStart i .sct m x s
  | .xds _ m => bodyStart i .xds m x s
  | .tpf _ m => bodyStart i .tpf m x s
  | .col _ m => bodyStart i .col m x s
  | .lehrsv _ d a b k => bodyLehrsv i d a b k x s
  | .lehrld _ d a k => bodyLehrld i d a k x s
  | _ => .done s {}

/-- The threads that wait with a kind, oldest wait first. -/
def waitersOf (s : State) (k : WaitKind) : List (Nat × ThreadId) :=
  s.workgroups.flatMap (fun g => g.threads.filterMap (fun t => match t.wait with
    | some w => if w.kind == k then some (w.since, ⟨g.uid, t.tid⟩) else none
    | none => none))

/-- Insert by number. -/
def insertWaiter (w : Nat × ThreadId) : List (Nat × ThreadId) → List (Nat × ThreadId)
  | [] => [w]
  | x :: xs => if w.1 ≤ x.1 then w :: x :: xs else x :: insertWaiter w xs

def sortedWaiters (s : State) (k : WaitKind) : List ThreadId :=
  ((waitersOf s k).foldl (fun acc w => insertWaiter w acc) []).map (·.2)

/-- Try again for every thread that waits with a kind; while the package is stopped no agent goes on (R294). -/
def retryAll (k : WaitKind) (s : State) : State :=
  if s.stopped then s
  else (sortedWaiters s k).foldl (fun s t => retryWait (· == k) waitBody t s) s

/-- A scoreboarded result returns. A drain whose queue still has residents is not returned; a lehrsv that waits for such a
result is tried again. -/
def execScoreboardReturn (t : ThreadId) (k : Nat) (s : State) : Out :=
  .next (match s.wg? t.wg, s.thread? t.wg t.tid with
    | some g, some th => match th.owed[k]? with
      | none => s
      | some o =>
        if o.held s g.ctx then s
        else retryAll .save (s.modThread t.wg t.tid (fun th => { th.deliver s g.ctx o with owed := th.owed.eraseIdx k }))
    | _, _ => s)

def execFeWaitServed (t : ThreadId) (s : State) : Out := .next (retryWait (· == .granule) waitBody t s)

def execFenceDone (t : ThreadId) (s : State) : Out := .next (retryWait (· == .fence) waitBody t s)

def execBwaitComplete (t : ThreadId) (s : State) : Out := .next (retryWait (· == .barrier) waitBody t s)

/-- A barrier wait whose limit has passed reads the object once more (R155). -/
def expiredBody (i : Instr) (x : Member) (s : State) : MRes :=
  match i with
  | .bwait _ d m => bodyBwait i d m true x s
  | _ => .done s {}

/-- The last tick of a thread's wait: a completion at that tick still counts (R155). -/
def limitOf (t : Thread) : Nat :=
  match t.wait with
  | some w => w.limit
  | none => 0

def execBwaitTimeout (t : ThreadId) (s : State) : Out :=
  .next (match s.wg? t.wg, s.thread? t.wg t.tid with
    | some g, some th =>
      if limitOf th < s.tickOf g.core.die.val then retryWait (· == .barrier) expiredBody t s else s
    | _, _ => s)

def execSpawnJoinRetry (t : ThreadId) (s : State) : Out := .next (retryWait (· == .queueRoom) waitBody t s)

def execEngineQueueRoom (t : ThreadId) (s : State) : Out := .next (retryWait (· == .engineRoom) waitBody t s)

/-- The fork that has waited longest for a context takes it (R168). -/
def execForkContextFree (p : PontilId) (s : State) : Out :=
  let ws := (forkWaiters s ⟨p.die, p.cluster⟩).filter (fun w => (wanted w.want).contains p.ctx)
  .next (match oldestWaiter ws with
    | some w => retryWait (· == .forkContext) waitBody w.t s
    | none => s)

end Machine
end Sys2Proof
end

