-- ==== Sys2Proof/Machine/Migration.lean ====
section
/-! DEFINITION. Page moves: what may move (R265), a move (R95, R266), settling (R268), the windows of demand moves (R267),
tier prefetches (R200), and the re-encryption of a far-tier region (R322). -/

namespace Sys2Proof
namespace Machine

/-! ## The migration control block (Table 18.6) -/

/-- The location of a die's migration control block. -/
def controlBlock (s : State) (die : Nat) : Option Nat := (s.mcbs.getD die none).map (ownLoc die)

def mcbField (s : State) (cb ofs n : Nat) : Nat := s.peekNat (cb + ofs) n

/-- Add one to a count of the home die's control block. -/
def countUp (s : State) (die ofs : Nat) : State :=
  match controlBlock s die with
  | none => s
  | some cb => pokeNat s .migration (cb + ofs) 4 ((mcbField s cb ofs 4 + 1) % 2 ^ 32)

def countSkipped (s : State) (die : Nat) : State := countUp s die 40
def countAbandoned (s : State) (die : Nat) : State := countUp s die 44
def countSettle (s : State) (die : Nat) : State := countUp s die 48

/-- The next index of a ring. -/
def ringNext (i len : Nat) : Nat := if i + 1 = len then 0 else i + 1

/-- Take the frame at FLHEAD of a memory's free list. -/
def takeFrame (s : State) (memory : Nat) : Option (Nat × State) :=
  match controlBlock s memory with
  | none => none
  | some cb =>
    let head := mcbField s cb 20 4
    if head = mcbField s cb 24 4 then none
    else some (s.peekNat (ownLoc memory (mcbField s cb 8 8 + 8 * head)) 8,
      pokeNat s .migration (cb + 20) 4 (ringNext head (mcbField s cb 16 4)))

/-- Append a frame at FLTAIL. -/
def giveFrame (s : State) (memory frame : Nat) : State :=
  match controlBlock s memory with
  | none => s
  | some cb =>
    let tail := mcbField s cb 24 4
    let s := pokeNat s .migration (ownLoc memory (mcbField s cb 8 8 + 8 * tail)) 8 frame
    pokeNat s .migration (cb + 24) 4 (ringNext tail (mcbField s cb 16 4))

/-! ## Leaves -/

def leafTier (l : Nat) : Nat := natField l 4 2
def leafHold (l : Nat) : Nat := natField l 6 2
def leafPort (l : Nat) : Nat := natField l 8 2
def leafPin (l : Nat) : Bool := l.testBit 10
def leafPfn (l : Nat) : Nat := natField l 16 36

/-- LPDDR-6 frames of one far-tier die, 1 TiB. -/
def farFrames : Nat := 2 ^ 24

/-- The die whose memory holds a leaf's frame: a near-tier die, a far-tier die for LPDDR-6, none behind a CXL port. -/
def leafMemory (l : Nat) : Option Nat :=
  match leafTier l with
  | 0 => some (leafHold l)
  | 1 => some (4 + leafPfn l / farFrames)
  | _ => none

/-- A leaf with its frame in another memory: only TIER, HOLD, PORT and PFN change (R265). -/
def movedLeaf (l memory frame : Nat) : Nat :=
  let kept := l - leafTier l * 2 ^ 4 - leafHold l * 2 ^ 6 - leafPort l * 2 ^ 8 - leafPfn l * 2 ^ 16
  if memory < 4 then kept + memory * 2 ^ 6 + frame % 2 ^ 36 * 2 ^ 16
  else kept + 2 ^ 4 + frame % 2 ^ 36 * 2 ^ 16

/-- The far-tier die that a near-tier home die's pages go to. -/
def farOf (die : Nat) : Nat := 4 + die % 2

/-- The leaf of a page that may move, and where it stands (R265). -/
def movableLeaf (s : State) (page : Nat) : Option (Nat × Nat) :=
  if vaModule page ≠ s.module.toNat ∨ 4 ≤ vaDie page ∨ inWindow page then none
  else match walk s (vaDie page) (vaOfs page) with
    | some (leaf, 16, at') => if leafPin leaf || isSettled s page then none else some (leaf, at')
    | _ => none

/-! ## A page's bytes and history follow it (R95) -/

/-- Where a location is after the frame at `old` has moved to `new`; the former contents of the new frame are gone. -/
def moveLoc (old new loc : Nat) : Option Nat :=
  if old ≤ loc ∧ loc < old + 65536 then some (new + (loc - old))
  else if new ≤ loc ∧ loc < new + 65536 then none
  else some loc

def moveFloor (old new : Nat) (f : List (Nat × Nat)) : List (Nat × Nat) :=
  f.filterMap (fun p => (moveLoc old new p.1).map (fun l => (l, p.2)))

def moveRel (old new : Nat) (r : Rel) : Rel := { r with floor := moveFloor old new r.floor }

def moveView (old new : Nat) (v : MemView) : MemView :=
  { v with
    floor := moveFloor old new v.floor
    reads := moveFloor old new v.reads
    fences := v.fences.map (moveRel old new)
    seen := v.seen.map (moveRel old new) }

def moveWrite (old new : Nat) (w : WriteRec) : WriteRec :=
  { w with
      cells := w.cells.filterMap (fun c => (moveLoc old new c.loc).map (fun l => { c with loc := l }))
      rels := w.rels.map (moveRel old new) }

def moveThread (old new : Nat) (t : Thread) : Thread := { t with view := moveView old new t.view }

def movePontil (old new : Nat) (p : Pontil) : Pontil :=
  { p with
      view := moveView old new p.view
      drained := moveView old new p.drained
      wait := p.wait.map (fun w => { w with fills := w.fills.map (fun x => (x.1, moveRel old new x.2)) }) }

def moveLaunch (old new : Nat) (l : Launch) : Launch :=
  { l with
      rels := l.rels.map (moveRel old new)
      exits := moveFloor old new l.exits
      marks := l.marks.map (fun m => { m with
        views := m.views.map (moveView old new), pontilViews := m.pontilViews.map (moveView old new) }) }

/-- Copy a frame's bytes over another's. -/
def copyFrame (m : List Host.Cell) (old new : Nat) : List Host.Cell :=
  let inside := fun (b : Nat) (c : Host.Cell) => decide (b ≤ c.1 ∧ c.1 < b + 65536)
  (m.filter (inside old)).foldl (fun m c => memPut m (new + (c.1 - old)) c.2) (m.filter (fun c => !(inside new c)))

/-- Poisoned lines after a copy: those of the old frame are poisoned in the new one too. -/
def copyPoison (ps : List Nat) (old new : Nat) : List Nat :=
  let inside := fun (b l : Nat) => decide (b / 64 ≤ l ∧ l < b / 64 + 1024)
  (ps.filter (inside old)).map (fun l => new / 64 + (l - old / 64)) ++ ps.filter (fun l => !(inside new l))

/-- The lines of a frame in the far tier are written by a copy into it (R321). -/
def bumpFrame (s : State) (new : Nat) : State :=
  if isFar new then (List.range 1024).foldl (fun s k => bumpLine s (new + 64 * k)) s else s

/-- Copy a page into its new frame; what agents have seen of it and the order of its writes stay. -/
def movePage (s : State) (old new : Nat) : State :=
  bumpFrame { s with
    mem := copyFrame s.mem old new
    hist := s.hist.map (moveWrite old new)
    scFences := s.scFences.map (fun f => { f with floor := moveFloor old new f.floor })
    pointSeen := s.pointSeen.filterMap (fun x => (moveLoc old new x.loc).map (fun l => { x with loc := l }))
    fullRels := s.fullRels.map (fun p => (p.1, moveRel old new p.2))
    poison := copyPoison s.poison old new
    hostView := moveView old new s.hostView
    workgroups := s.workgroups.map (fun g => { g with threads := g.threads.map (moveThread old new) })
    pontils := s.pontils.map (movePontil old new)
    ops := s.ops.map (fun o => { o with view := moveView old new o.view })
    launches := s.launches.map (moveLaunch old new) } new

/-! ## A move (R266) -/

/-- Performed moves of a page (R268). -/
def movesOf (s : State) (page : Nat) : List Nat :=
  match s.moveLogs.find? (fun m => m.page == page) with
  | some m => m.ticks
  | none => []

/-- A performed move at a tick; ticks too old to count toward a later request are dropped. -/
def logMove (s : State) (page t : Nat) : State :=
  let log : MoveLog := ⟨page, t :: (movesOf s page).filter (fun u => decide (t ≤ u + 2 ^ 22))⟩
  { s with moveLogs := upsert (fun m => m.page == page) log s.moveLogs }

/-- The page settles: its SETTLED bit, SETTLES, the event with its address, and no history (R268). -/
def settle (s : State) (page : Nat) : State :=
  let die := vaDie page
  let s := match settledAt s page with
    | some (loc, k) => orByte s loc (2 ^ k)
    | none => s
  let s := (countSettle s die).count (farOf die) 12 1
  let s := s.emit 0 7 (farOf die) 0 0 0 page
  { s with moveLogs := s.moveLogs.filter (fun m => m.page != page) }

/-- The frame a page leaves joins the free list of its memory; of a frame behind a CXL port the host is told (R265). -/
def releaseFrame (s : State) (die leaf : Nat) : State :=
  match leafMemory leaf with
  | some m => giveFrame s m (leafPfn leaf)
  | none => s.emit 0 7 (farOf die) 0 0 0 (leafPfn leaf + leafPort leaf * 2 ^ 36)

/-- Pages moved into and out of HBM4E of dies, and moves performed (R299). -/
def countMove (s : State) (die leaf target : Nat) : State :=
  let s := s.count (farOf die) 10 1
  let s := if target < 4 then s.count target 1318 1 else s
  if leafTier leaf = 0 then s.count (leafHold leaf) 1319 1 else s

/-- The home die's die cache writes back the lines of a page that it holds; which of the other lines not yet written back it holds
is a free choice (R266; DESIGN CHOICE, log 14). -/
def writeBackPage (s : State) (page leaf : Nat) : State :=
  s.dirtyLines.foldl (fun s x =>
    if 64 * x.line / 65536 = page / 65536 then
      let k := if x.cache.isSome then (0, s) else s.pick 2
      if k.1 = 0 then writeBackLine k.2 x.line (some (leafLoc leaf 16 (vaOfs (64 * x.line)))) else k.2
    else s) s

/-- Note how a request ended: one of a tier prefetch stays for its status. -/
def endMove (s : State) (m : MoveReq) (moved : Bool) : State :=
  { s with moves :=
      if m.tpf.isSome then replaceFirst (fun x => x == m) { m with done := some moved } s.moves
      else removeFirst (fun x => x == m) s.moves }

/-- The move is abandoned: the new frame returns to its list (R266). -/
def abandonMove (s : State) (m : MoveReq) : State :=
  let s := endMove (countAbandoned (giveFrame s m.target m.frame) (vaDie m.page)) m false
  if m.settle then settle s m.page else s

/-- The compare-and-swap of a leaf at its home slice, which has found what it compares. -/
def swapLeaf (s : State) (at' new : Nat) : State := writeBytes s (homeWriter s at') at' (bytesOf new 8)

/-- The copy of a frame waits for the port behind which it lies (R310). -/
def frameWaits (s : State) (leaf : Nat) : Bool := (blocked s false [.here (leafLoc leaf 16 0) .rc]).isSome

/-- Steps 2 to 5 of R266, as one. -/
def finishMove (s : State) (m : MoveReq) : State :=
  let die := vaDie m.page
  if frameWaits s m.leaf then s
  else if s.peekNat m.at' 8 ≠ m.leaf then abandonMove s m
  else
    let new := movedLeaf m.leaf m.target m.frame
    let s := writeBackPage s m.page m.leaf
    let s := movePage s (leafLoc m.leaf 16 0) (leafLoc new 16 0)
    let s := swapLeaf s m.at' new
    let s := { s with tlb := s.tlb.filter (fun t => !(t.covers die (vaOfs m.page))) }
    let s := countMove (releaseFrame s die m.leaf) die m.leaf m.target
    let s := endMove s m true
    if m.settle then settle s m.page else logMove s m.page (s.tickOf die)

/-- Step 1 of R266: a frame is taken; with none free the move does not happen. -/
def startMove (s : State) (page at' leaf target : Nat) (settling : Bool) (tpf : Option Nat) : State :=
  match takeFrame s target with
  | some (frame, s) => { s with moves := s.moves ++ [⟨page, at', leaf, target, frame, settling, tpf, none⟩] }
  | none =>
    let s := (countSkipped s (vaDie page)).count (farOf (vaDie page)) 11 1
    let s := if tpf.isSome then { s with moves := s.moves ++ [⟨page, at', leaf, target, 0, settling, tpf, some false⟩] } else s
    if settling then settle s page else s

/-- Four moves of the page have been performed at ticks t with q − 2^22 ≤ t < q. -/
def mustSettle (s : State) (page q : Nat) : Bool :=
  decide (4 ≤ ((movesOf s page).filter (fun t => decide (q ≤ t + 2 ^ 22 ∧ t < q))).length)

/-- A move request at tick `q` (R268) for a page whose leaf may move. -/
def requestMove (s : State) (page at' leaf target q : Nat) (tpf : Option Nat) : State :=
  let die := vaDie page
  if mustSettle s page q then
    (if leafMemory leaf = some die then
      settle (if tpf.isSome then { s with moves := s.moves ++ [⟨page, at', leaf, die, 0, true, tpf, some false⟩] } else s) page
     else startMove s page at' leaf die true tpf)
  else startMove s page at' leaf target false tpf

/-- A move of the page is under way. -/
def underMove (s : State) (page : Nat) : Option MoveReq := s.moves.find? (fun m => m.page == page && m.done.isNone)

/-! ## Demand moves (R267) -/

/-- Pages homed on a die that have been requested, or that have lines which may have been written back, in its window. -/
def countedPages (s : State) (die : Nat) : List Nat :=
  (s.pageCounts.map PageCount.page ++ s.dirtyLines.map (fun (x : DirtyLine) => 64 * x.line / 65536 * 65536)).foldl
    (fun acc p => if vaDie p = die ∧ !(acc.contains p) then acc ++ [p] else acc) []

/-- Lines of a page not yet written back. (DESIGN CHOICE, log 31) -/
def pendingLines (s : State) (page : Nat) : Nat :=
  (s.dirtyLines.filter (fun x => 64 * x.line / 65536 == page / 65536)).length

/-- The fills and write-backs of a page that a die's requests cause in a window: not more than two for each of its requests
and one for each line not yet written back; which requests a cache serves is a free value (DESIGN CHOICE, log 7). -/
def windowCount (s : State) (page die : Nat) : Nat × State :=
  match s.pageCounts.find? (fun c => c.page == page && c.die == die) with
  | none => s.pick (pendingLines s page + 1)
  | some c => s.pick (2 * (c.count + c.before) + pendingLines s page + 1)

def windowCounts (page : Nat) : List Nat → State → List (Nat × Nat) × State
  | [], s => ([], s)
  | d :: ds, s =>
    let c := windowCount s page d
    let r := windowCounts page ds c.2
    ((d, c.1) :: r.1, r.2)

/-- The die with the largest count, the lowest of equals. -/
def leader : List (Nat × Nat) → Option (Nat × Nat)
  | [] => none
  | c :: cs => match leader cs with
    | none => some c
    | some d => some (if c.2 < d.2 then d else c)

/-- Near-tier dies of a die's device. -/
def deviceDies (mode : Fin 3) (die : Nat) : List Nat :=
  (List.range 4).filter (fun d => deviceOf mode d == deviceOf mode die)

/-- What the end of a window asks for a page, by its counts. -/
def demandTarget (leaf migt : Nat) (cs : List (Nat × Nat)) : Option Nat :=
  match leader cs with
  | none => none
  | some (d, n) =>
    if migt = 0 ∨ n < migt then none
    else if leafTier leaf ≠ 0 then some d
    else
      let holder := leafHold leaf
      let held := match cs.find? (fun c => c.1 == holder) with
        | some c => c.2
        | none => 0
      if d ≠ holder ∧ held < n then some d else none

/-- One page at the end of a window that ends at tick `q`. A page under move makes no request. -/
def demandPage (q migt : Nat) (s : State) (page : Nat) : State :=
  match movableLeaf s page with
  | none => s
  | some (leaf, at') =>
    let cs := windowCounts page (deviceDies s.mode (vaDie page)) s
    if (underMove s page).isSome then cs.2
    else match demandTarget leaf migt cs.1 with
      | none => cs.2
      | some t => requestMove cs.2 page at' leaf t q none

/-- Counts of the window that has ended; its requests may still cause write-backs in the next. -/
def startWindow (s : State) (die : Nat) : State :=
  { s with
      pageCounts := (s.pageCounts.filter (fun c => vaDie c.page != die || c.count != 0)).map (fun c =>
        if vaDie c.page = die then { c with count := 0, before := c.count } else c)
      windowEnds := setAt s.windowEnds die (s.windowEnds.getD die 0 + 2 ^ 20) }

/-- The end of a die's window, once its tick has come. -/
def execMigrationWindowEnd (die : Fin 4) (s : State) : Out :=
  let q := s.windowEnds.getD die.val 0
  .next (if s.tickOf die.val < q || s.down.any (fun x => x.die == die) then s
    else
      let s := match controlBlock s die.val with
        | none => s
        | some cb =>
          let migt := mcbField s cb 0 4
          if migt = 0 then s else (countedPages s die.val).foldl (demandPage q migt) s
      startWindow s die.val)

/-! ## Tier prefetches (R200) -/

/-- The pages that meet a prefetch's bytes. (DESIGN CHOICE, log 32) -/
def tpfPages (op : EngineOp) : List Nat :=
  match bufferAt op.buffers 0 with
  | none => []
  | some d =>
    let lo := ((d.base : Int) + descInt op.desc 1).toNat
    let n := tpfLen op.desc
    if n = 0 then []
    else (List.range ((lo + n - 1) / 65536 - lo / 65536 + 1)).map (fun k => (lo / 65536 + k) * 65536)

/-- Where a prefetch moves a page of a home die. -/
def tpfTarget (op : EngineOp) (page : Nat) : Nat := if tpfFar op.desc then farOf (vaDie page) else vaDie page

/-- A prefetch asks for a page: none when it stays where it is. -/
def tpfRequest (s : State) (op : EngineOp) (page : Nat) : Option State :=
  match movableLeaf s page with
  | none => none
  | some (leaf, at') =>
    let t := tpfTarget op page
    if leafMemory leaf = some t then none
    else some (requestMove (s.count (farOf (vaDie page)) 13 1) page at' leaf t (s.tickOf (vaDie page)) (some op.descAddr))

/-- The request of a prefetch for a page. -/
def tpfMove (s : State) (op : EngineOp) (page : Nat) : Option MoveReq :=
  s.moves.find? (fun m => m.page == page && m.tpf == some op.descAddr)

/-- Finish the move of a page that is under way. -/
def settleMoves (s : State) (page : Nat) : State :=
  match underMove s page with
  | some m => finishMove s m
  | none => s

/-- A prefetch's part on one page, brought to its end: whether the page moved. -/
def tpfPage (s : State) (op : EngineOp) (page : Nat) : Bool × State :=
  let s := settleMoves s page
  match tpfMove s op page with
  | some m => (m.done == some true, s)
  | none => match tpfRequest s op page with
    | none => (false, s)
    | some s =>
      let s := settleMoves s page
      (match tpfMove s op page with
      | some m => (m.done == some true, s)
      | none => (false, s))

def tpfCount (op : EngineOp) : List Nat → State → Nat × State
  | [], s => (0, s)
  | p :: ps, s =>
    let r := tpfPage s op p
    let q := tpfCount op ps r.2
    (bitOf r.1 + q.1, q.2)

/-- A page of another module, or with a valid leaf here. -/
def pageMapped (s : State) (page : Nat) : Bool :=
  vaModule page != s.module.toNat || inWindow page || (walk s (vaDie page) (vaOfs page)).isSome

/-- A prefetch waits for the home die of a page, or for the port behind which a page's frame lies. -/
def tpfHeld (s : State) (op : EngineOp) : Bool :=
  (tpfPages op).any (fun p => vaModule p == s.module.toNat && (s.down.any (fun x => x.die.val == vaDie p) ||
    (match movableLeaf s p with
    | some x => frameWaits s x.1
    | none => false)))

/-- A prefetch moves the pages it has not yet moved, and completes. A page that no valid leaf maps stops it before it (R262). -/
def execTpfCompletion (far : Fin 2) (k : Nat) (s : State) : Out :=
  .next (match opAt s (.tpf far) k with
    | none => s
    | some op =>
      if op.aborted.isNone && (tpfHeld s op || completionWaits s op) then s
      else
        let ps := tpfPages op
        let good := ps.takeWhile (pageMapped s)
        let r := tpfCount op good s
        let s := { r.2 with moves := r.2.moves.filter (fun m => m.tpf != some op.descAddr) }
        let op := (opAt s (.tpf far) k).getD op
        if good.length < ps.length || op.aborted.isSome then stopOp s op op.view .leaseLost 0 (tpfLen op.desc)
        else finishOp s op op.view (r.1 + (ps.length - r.1) * 2 ^ 32) (tpfLen op.desc))

/-- A prefetch outstanding that has not asked for a page. -/
def tpfFor (s : State) (page : Nat) : Option EngineOp :=
  s.ops.find? (fun o => o.kind == .tpf && (tpfPages o).contains page && (tpfMove s o page).isNone)

/-- PAGE_MOVE: the move of the page that is under way is performed or abandoned; otherwise a prefetch starts one. A home die
under reset moves nothing. -/
def execPageMove (page : Word) (s : State) : Out :=
  let p := page.toNat / 65536 * 65536
  .next (if s.down.any (fun x => x.die.val == vaDie p) then s
    else match underMove s p with
      | some m => finishMove s m
      | none => match tpfFor s p with
        | none => s
        | some op => (tpfRequest s op p).getD s)

end Machine
end Sys2Proof
end

