-- ==== Sys2Proof/Machine/Resets.lean ====
section
/-! DEFINITION. Soft errors (R278, R279), the reset of a die (R280, R281), power (R312, R317, R323, R324), and the stop on a
tick (R294). -/

namespace Sys2Proof
namespace Machine

/-! ## Power -/

/-- The firmware that ran may have raised the minimum SVN, by a free amount (R314; DESIGN CHOICE, log 21). -/
def raiseSvn (s : State) : State :=
  if s.power = .running then
    (let k := s.pick (2 ^ 32 - s.minSvn.toNat)
     { k.2 with minSvn := s.minSvn + BitVec.ofNat 32 k.1 })
  else s

/-- The module starts from its boot ROM (R312): nothing of the last start is left. The outside world's agenda, what has
been sent, the fused minimum SVN (R314) and the model's count of free choices go on; the dies draw three fresh keys each. -/
def bootState (s : State) : State :=
  let s := raiseSvn s
  { State.reset with
      agenda := s.agenda, choice := s.choice, keyDraws := s.keyDraws + 6, outbox := s.outbox, linkOut := s.linkOut
      minSvn := s.minSvn }

def execPowerUp (s : State) : Out := .next (if s.power = .off then bootState s else s)

/-- The clocks are lowered by some steps, and die control sends an event (R323). The die that reports it is far-tier die 0
(DESIGN CHOICE, log 27). -/
def execThermalThrottle (level : Nat) (s : State) : Out := .next ({ s with clockLevel := level }.emitFree 0 9 4 0 0 0)

/-- Some port is up. -/
def anyPortUp (s : State) : Bool := s.ports.any (fun p => p.state == 2)

/-! ## Event messages (R305, Table 19.3) -/

/-- An event record as bytes. -/
def eventBytes (r : EventRec) : List Byte :=
  bytesOf (r.src + r.seq * 2 ^ 32 + r.tick % 2 ^ 64 * 2 ^ 64 + r.code * 2 ^ 128 + r.ctx % 64 * 2 ^ 144 + r.handle % 2 ^ 13 * 2 ^ 150 +
    r.dropped * 2 ^ 176 + r.detail % 2 ^ 64 * 2 ^ 192) 32

/-- The message that carries records. -/
def eventMessage (dest : Nat) (tag : Tag) (rs : List EventRec) : Message :=
  ⟨dest, 0x80, false, tag, 0, 0, rs.flatMap eventBytes⟩

/-- The bytes of a message on its link: its header (Table 21.1) and its payload. -/
def Message.frame (m : Message) : List Byte := headerBytes m.op m.reply m.tag m.payload.length m.ctx m.status ++ m.payload

/-- Send some undelivered records in one message. -/
def sendRecords (s : State) (rs : List EventRec) : State :=
  match s.destination with
  | none => s
  | some dest =>
    if rs.isEmpty then s
    else
      let tag : Tag := BitVec.ofNat 32 s.uids
      { s with
          uids := s.uids + 1
          pending := s.pending.filter (fun r => !(rs.contains r))
          sent := s.sent ++ [⟨tag, rs, s.now⟩]
          outbox := s.outbox ++ [eventMessage dest tag rs] }

/-- A trip removes power from every die, after an event when a port is still up (R324). -/
def execThermalTrip (s : State) : Out :=
  let t := s.emitFree 0 9 4 0 0 0
  let t := raiseSvn (if anyPortUp s then sendRecords t (t.pending.drop (t.pending.length - 1)) else s)
  .next { State.reset with
            power := .off, agenda := t.agenda, choice := t.choice, keyDraws := t.keyDraws, outbox := t.outbox, linkOut := t.linkOut
            minSvn := t.minSvn }

/-! ## The stop (R294) -/

/-- UALink ports that are up go down for the length of a stop (R294, R307). -/
def portsDown (s : State) : State :=
  { s with ports := s.ports.map (fun p => if p.kind = .ualink then { p with state := 0 } else p) }

/-- Once the armed tick has ended every clock domain gates. -/
def execStopAtTick (s : State) : Out :=
  .next (match s.stopAt with
    | none => s
    | some t => if s.stopped || decide (s.now ≤ t) then s else portsDown { s with stopped := true })

/-! ## Soft errors -/

/-- The counter of a frame that counts corrected errors of a unit (Table 20.10): a stack's, another unit's, a far-tier die's. -/
def correctedCounter (die kind unit : Nat) : Nat :=
  if 4 ≤ die then 24 else if kind = 3 then 1286 + 8 * (unit % 3) else 1315

/-- A corrected error changes a count, and sends an event for every 2^16 of its source (R278). -/
def execCorrectedError (die : Fin 6) (kind : Fin 10) (unit : BitVec 16) (s : State) : Out :=
  let src := sourceKey unit.toNat kind.val die.val
  let mine := fun (c : Counter) => c.die == die.val && c.num == src
  let old := match s.corrected.find? mine with
    | some c => c.value
    | none => 0
  let t := { s.count die.val (correctedCounter die.val kind.val unit.toNat) 1 with
    corrected := upsert mine ⟨die.val, src, old + 1⟩ s.corrected }
  .next (if (old + 1) % 2 ^ 16 = 0 then t.emitFree unit.toNat kind.val die.val 0 0 0 else t)

/-! ## The reset of a near-tier die (R280) -/

/-- An operation belongs to an engine of a die. -/
def EngineOp.onDie (op : EngineOp) (die : Fin 4) : Bool :=
  match op.unit with
  | .copy c => c.die == die
  | .gather d => d == die
  | .lane d _ => d == die
  | .collective d => d == die
  | .tpf _ => false

/-- An operation of the die records DIE_RESET and completes as R275 states: each of its bytes is written or not. A collective
writes nothing (DESIGN CHOICE, log 28). -/
def resetOp (s : State) (op : EngineOp) : State :=
  let a := { op with aborted := some .dieReset }
  let s := { s with ops := replaceFirst (fun o => o == op) a s.ops }
  match op.unit with
  | .copy _ => a.run s runCopy
  | .gather _ => a.run s runGather
  | .lane _ _ => a.run s runLane
  | _ => a.run s (fun s a => stopOp s a a.view .dieReset 0 (collectiveBytes a))

/-- A workgroup of the die stops, and its launch ends with DIE_RESET. -/
def resetWg (s : State) (g : Workgroup) : State := discard (endLaunch s g.launch .dieReset) g

/-- Every line in the die's cache reaches its frame; a line that may be in it or in another's does by free choice (DESIGN CHOICE,
log 14). -/
def writeBackDie (s : State) (die : Nat) : State :=
  s.dirtyLines.foldl (fun s x =>
    let k := if x.cache = some die then (0, s) else s.pick 2
    if k.1 = 0 then writeBackLine k.2 x.line (locationOf s (64 * x.line)) else k.2) s

/-- Die SRAM is written zero, so that no earlier value of it can be read, and every granule is set empty. -/
def clearSram (s : State) (die : Nat) : State :=
  let lo := sramLoc die 0
  let inside := fun (l : Nat) => decide (lo ≤ l ∧ l < lo + 2 ^ 52)
  { s with
      mem := s.mem.filter (fun c => !(inside c.1))
      hist := s.hist.map (fun r => { r with cells := r.cells.filter (fun c => !(inside c.loc)) })
      pointSeen := s.pointSeen.filter (fun x => !(inside x.loc))
      full := s.full.filter (fun g => !(inside (16 * g))), fullRels := s.fullRels.filter (fun p => !(inside (16 * p.1))) }

/-- Step 3: pontil contexts, translations and entry copies of the die are cleared. -/
def clearUnits (s : State) (die : Fin 4) : State :=
  { s with
      pontils := s.pontils.filter (fun p => p.id.die != die)
      tlb := s.tlb.filter (fun t => t.die != die.val)
      entryCache := s.entryCache.filter (fun e => !(cachedOn die.val e)) }

/-- Page moves homed on the die that are under way are abandoned. -/
def abandonMoves (s : State) (die : Nat) : State :=
  (s.moves.filter (fun m => vaDie m.page == die && m.done.isNone)).foldl abandonMove s

/-- UALink ports of a die train; so do its ports to the other dies, which have no other state. -/
def trainPorts (s : State) (die : Nat) : State :=
  { s with ports := s.ports.map (fun p =>
      if p.kind = .ualink ∧ p.num / 8 = die ∧ p.state = 2 then { p with state := 1 } else p) }

/-- Steps 1 to 4 of R280; step 5 follows when each port has finished its handshake. -/
def beginReset (s : State) (die : Fin 4) (command : Bool) (reply : Option Tag) : State :=
  let s := (s.workgroups.filter (fun g => g.core.die == die)).foldl resetWg s
  let s := (s.ops.filter (fun o => o.onDie die)).foldl resetOp s
  let s := abandonMoves s die.val
  let s := clearSram (clearUnits (writeBackDie s die.val) die) die.val
  let s := trainPorts s die.val
  refreshAges { s with down := s.down.filter (fun x => x.die != die) ++
    [⟨die, s.tickOf die.val, List.finRange 13, false, reply, command⟩] }

/-- A reset begins, unless one is under way; then the command's reply follows its end. `command` is whether a command begins it, which
is complete only when the reset has ended (R302). -/
def resetDie (s : State) (die : Fin 4) (command : Bool) (reply : Option Tag) : State :=
  match s.down.find? (fun x => x.die == die && !x.offline) with
  | some x => { s with down := replaceFirst (fun y => y == x) { x with reply := reply.or x.reply } s.down }
  | none => beginReset s die command reply

/-- The reply that the end of a reset owes. -/
def replyReset (s : State) (x : DieDown) : State :=
  match x.reply with
  | some tag => s.send 0x0C tag 0 []
  | none => s

/-- Threads that wait at a bfinv. -/
def bfinvWaiters (s : State) : List ThreadId := sortedWaiters s .bfinv

/-- Step 5: the die acknowledges waiting bfinvs, sends its event, and takes up its work; requests to it proceed. -/
def endReset (s : State) (x : DieDown) : State :=
  let s := { s with down := s.down.filter (fun y => y.die != x.die) }
  let s := (bfinvWaiters s).foldl (fun s t => ackBfinv t x.die s) s
  let s := s.emitFree 0 9 x.die.val (codeNumber .dieReset) 0 0
  replyReset (retryAll .link (refreshAges s)) x

/-- A port's handshake completes: the port is up again if it was being trained. After 2^24 ticks the die stays offline. -/
def execFlushHandshake (die : Fin 4) (port : Fin 13) (s : State) : Out :=
  .next (match s.down.find? (fun x => x.die == die && !x.offline && x.ports.contains port) with
    | none => s
    | some x =>
      if x.since + longWait < s.tickOf die.val then s
      else
      let y := { x with ports := x.ports.filter (fun p => p != port) }
      let s := { s with
        down := replaceFirst (fun z => z == x) y s.down
        ports := s.ports.map (fun p =>
          if p.kind = .ualink ∧ p.num = 8 * die.val + port.val ∧ port.val < 8 ∧ p.state = 1 then { p with state := 2 } else p) }
      if y.ports.isEmpty then endReset s y else s)

/-- A response that arrives before its port's handshake completes is dropped and counted; no other state changes. A port's table of
request tags is that of the results its die's agents are owed, each of which names its port and its tag: a reset ends them, and none
begins before it has ended (R281; DESIGN CHOICE, log 28). -/
def execStaleResponseDrop (die : Fin 4) (port : Fin 13) (s : State) : Out :=
  .next (if s.down.any (fun x => x.die == die && x.ports.contains port) then s.count die.val 1314 1 else s)

/-- A reset that has not ended within 2^24 ticks leaves the die offline; the host is told by an event of die control and by
the reply (DESIGN CHOICE, log 28). -/
def execDieResetTimeout (die : Fin 4) (s : State) : Out :=
  .next (match s.down.find? (fun x => x.die == die && !x.offline) with
    | none => s
    | some x =>
      if s.tickOf die.val ≤ x.since + longWait then s
      else
        let s := { s with down := replaceFirst (fun z => z == x) { x with offline := true, reply := none } s.down }
        replyReset (s.emitFree 0 9 die.val (codeNumber .dieReset) 0 0) x)

/-- Poison a register of a thread. -/
def poisonRegister (t : Thread) (r : ThreadReg) : Thread :=
  if t.poisoned.contains r then t else { t with poisoned := r :: t.poisoned }

/-- An uncorrectable error poisons its unit, resets the die, or resets the module (R279, R317). -/
def execUncorrectableError (unit : ErrorUnit) (s : State) : Out :=
  .next (match unit with
    | .register t v => s.modThread t.wg t.tid (fun x => poisonRegister x v)
    | .line loc => if s.poison.contains (loc / 64) then s else { s with poison := loc / 64 :: s.poison }
    | .nearControl die => if s.power = .running then resetDie s die false none else s
    | .farDie => bootState s)

end Machine
end Sys2Proof
end

