-- ==== Sys2Proof/Machine/Links.lean ====
section
/-! DEFINITION. Links: ports going down and coming up (R307, R310), requests of peer modules (R269, R306), ticks aligned
with other modules (R311), and the end of a region's re-encryption (R322). -/

namespace Sys2Proof
namespace Machine

/-! ## Ports -/

/-- The die of a port. -/
def portDie (k : PortKind) (n : Nat) : Nat :=
  match k with
  | .ualink => n / 8
  | .cxl => 4 + n / 2
  | .ethernet => 4 + n / 4

def State.port? (s : State) (k : PortKind) (n : Nat) : Option Port := s.ports.find? (fun p => p.kind == k && p.num == n)

def setPort (s : State) (p : Port) : State :=
  { s with ports := replaceFirst (fun q => q.kind == p.kind && q.num == p.num) p s.ports }

/-- A port changes state: the host sees a link event (R307). -/
def portEvent (s : State) (p : Port) : State := (setPort s p).emitFree p.num 8 (portDie p.kind p.num) 0 0 0

/-- A path goes down, or trains. -/
def execLinkDown (kind : PortKind) (port : Fin 32) (training : Bool) (s : State) : Out :=
  .next (match s.port? kind port.val with
    | none => s
    | some p =>
      if p.state = bitOf training then s else portEvent s { p with state := bitOf training })

/-- A port that cannot come up: UALink while the package is stopped (R294), or on a die that has not finished its handshake
(R281); any but Ultra Ethernet port 0 before START (R312, R316). -/
def portHeld (s : State) (kind : PortKind) (port : Nat) : Bool :=
  (kind == .ualink && (s.stopped || s.down.any (fun x => x.die.val == port / 8 && x.ports.any (fun q => q.val == port % 8)))) ||
  (s.power != .running && !(kind == .ethernet && port == 0))

/-- What the Q9 supports of what a far end offers on a kind of port: x4 UALink, reliable and ordered delivery, a memory expander;
the rest is refused (R6, R300, R306, R310). -/
def offered (kind : PortKind) (o : LinkOffer) : Bool :=
  match kind, o with
  | .ualink, .ualinkX4 | .ethernet, .etherReliable | .cxl, .cxlExpander => true
  | _, _ => false

/-- A path comes up, and the requests that waited for one proceed (R307). A far end that asks for what the Q9 does not support is
refused, and the port stays as it is. -/
def execLinkUp (kind : PortKind) (port : Fin 32) (peer : LinkPeer) (s : State) : Out :=
  .next (match s.port? kind port.val with
    | none => s
    | some p =>
      if p.state = 2 ∨ portHeld s kind port.val ∨ offered kind peer.offer = false then s
      else retryAll .link (portEvent s { p with state := 2, peer := if kind = .ualink then peer.module else 0 }))

/-! ## Requests of peers -/

/-- A request waits and is tried again: its home die is under reset (R280), or its frame's path is down, or its region is
under re-encryption. -/
def waitRequest (s : State) (i : Instr) : State := { s with agenda := s.agenda ++ [.event i] }

def homeDown (s : State) (va : Nat) : Bool := s.down.any (fun x => x.die.val == vaDie va)

def answer (s : State) (module : BitVec 11) (tag : Word) (code : Nat) (data : List Byte) : State :=
  { s with linkOut := s.linkOut ++ [⟨module, tag, code, data⟩] }

/-- The bytes that stand at places, read as a peer reads them. -/
def peerRead (s : State) (source : BitVec 11) (tag : Word) (va : Nat) (ps : List Place) : State :=
  let r := readWords s (.remote source) .empty .relaxed (cutWords va ps [])
  answer r.s source tag 0 r.bytes

/-- A peer's write is performed and acknowledged. -/
def peerWrite (s : State) (source : BitVec 11) (tag : Word) (va : Nat) (ps : List Place) (bs : List Byte) : State :=
  answer (writeAt s (.plain (.remote source)) .empty .back va ps bs).1 source tag 0 []

/-- The eight bytes that hold a peer's element. -/
def homeBound (va : Nat) : Bound :=
  { base := va / 8 * 8, len := 8, r := true, w := true, a := true, x := false, board := false, slots := 0, mxk := 0, comp := 0
    smask := 0, sshift := 0, gen := 0, owner := 0, off := 0 }

/-- An element of a peer's request. -/
def peerTarget (source : BitVec 11) (va bit : Nat) (f : FDef) : Target :=
  { bd := ⟨.remote source, 64, 0, none⟩, d := homeBound va, lo := va % 8 * 8 + bit, f }

def homeTarget (r : HomeRequest) : Target := peerTarget r.module r.addr.toNat r.bit.val (fdefOf r.fdr)

/-- The element of a native atomic: an integer of 32 or 64 bits (Table 18.8). -/
def nativeDef (signed wide : Bool) : FDef := { fdefOf (fixedSlot (if signed then 1 else 0)) with mw := if wide then 63 else 31 }

/-- An atomic of R147 at the home slice for a peer, whose answer is the value found (R269); an atomic on a UO page, or one that
reads a poisoned line, is answered with its code (R330, R279). `again` is the request, to be tried again when it waits. -/
def peerAtomic (s : State) (source : BitVec 11) (tag : Word) (t : Target) (op : AtomOp) (sc : Scope) (o : Order) (x y : Nat)
    (again : Instr) : State :=
  match targetPlaces s t 1 with
  | .error c => answer s source tag (codeNumber c) []
  | .ok (ps, s) =>
    if anyUo ps then answer s source tag (codeNumber .orderKind) []
    else if anyPoison s ps then answer s source tag (codeNumber .memPoison) []
    else match blocked s true ps with
      | some s => waitRequest s again
      | none =>
        let r := atomStep s op t sc o false ps x y .empty
        answer r.2.2.1 source tag 0 (bytesOf r.1 8)

/-- A request of 1 to 256 bytes of this module on a port (R306). An address that no valid leaf maps, or a poisoned line read, is
answered with its code; a native atomic not aligned to its size is not answered (DESIGN CHOICE, log 17). -/
def performRequest (s : State) (source : BitVec 11) (tag : Word) (va : Nat) (r : LinkRequest) (len : Nat) (again : Instr) :
    State :=
  match r with
  | .atomic op signed wide x y =>
    if va % (if wide then 8 else 4) ≠ 0 then s
    else peerAtomic s source tag (peerTarget source va 0 (nativeDef signed wide)) op .system .plain x.toNat y.toNat again
  | .read => match places s 64 va len with
    | .error c => answer s source tag (codeNumber c) []
    | .ok (ps, s) => match blocked s false ps with
      | some s => waitRequest s again
      | none => if anyPoison s ps then answer s source tag (codeNumber .memPoison) [] else peerRead s source tag va ps
  | .write bs => match places s 64 va bs.length with
    | .error c => answer s source tag (codeNumber c) []
    | .ok (ps, s) => match blocked s true ps with
      | some s => waitRequest s again
      | none => peerWrite s source tag va ps bs

/-- Bytes of a request; `len` is what a read asks for. -/
def requestBytes (r : LinkRequest) (len : Nat) : Nat :=
  match r with
  | .read => len
  | .write bs => bs.length
  | .atomic _ _ wide _ _ => if wide then 8 else 4

/-- A request of a peer on a port that is up. -/
def execUalinkRequest (port : Fin 32) (source : BitVec 11) (tag addr : Word) (data : LinkRequest) (len : Nat) (s : State) :
    Out :=
  let va := addr.toNat
  let n := requestBytes data len
  let again := Instr.ualinkRequest port source tag addr data len
  .next (match s.port? .ualink port.val with
    | none => s
    | some p =>
      if p.state ≠ 2 ∨ n = 0 ∨ 256 < n ∨ vaModule va ≠ s.module.toNat then s
      else if homeDown s va then waitRequest s again
      else performRequest s source tag va data len again)

/-- Some UALink port is up. -/
def ualinkUp (s : State) : Bool := s.ports.any (fun p => p.kind == .ualink && p.state == 2)

/-- A home-execute request, on whichever UALink port is up: the atomic is performed at the home slice (R269). -/
def execHomeExecuteRequest (r : HomeRequest) (s : State) : Out :=
  let va := r.addr.toNat
  let t := homeTarget r
  .next (if !(ualinkUp s) ∨ vaModule va ≠ s.module.toNat ∨ !(oneWord t.d t.lo t.f.w) then s
    else if homeDown s va then waitRequest s (.homeExecuteRequest r)
    else peerAtomic s r.module r.tag t r.op r.scope r.order r.operand.toNat r.operand2.toNat (.homeExecuteRequest r))

/-! ## Re-encryption and ticks -/

/-- A region's re-encryption ends, and the writes that waited for it proceed (R322). -/
def execReencryptRegion (memory region : Nat) (s : State) : Out :=
  .next (if s.reencrypting.contains (memory, region) then retryAll .link (reencrypt s (memory, region)) else s)

/-- The tick is slewed by at most 100 parts per million, over Ultra Ethernet port 0 (R311). How many nanoseconds pass
between two steps is free (DESIGN CHOICE, log 2). -/
def execPtpSync (ppm : Int) (s : State) : Out :=
  .next (match s.port? .ethernet 0 with
    | some p => if p.state = 2 then { s with ppm := max (-100) (min 100 ppm) } else s
    | none => s)

end Machine
end Sys2Proof
end

