-- ==== Sys2Proof/Machine/Watching.lean ====
section
/-! DEFINITION. Sample records (R296), the counter series (R297 to R299), and event messages (R305). -/

namespace Sys2Proof
namespace Machine

/-! ## Samples (R296) -/

/-- The record of a workgroup: its lowest-keyed ready thread, and the threads that share its key in its warp. A workgroup
with no ready thread has none (DESIGN CHOICE, log 29). -/
def sampleWg (s : State) (die cb tick : Nat) (g : Workgroup) : State :=
  match lowest (g.threads.filter (readyThread s g)) with
  | none => s
  | some t =>
    let same := g.threads.filter (fun u => u.live && u.warp == t.warp && sameKey u t)
    traceRecord s die cb (traceBits tick 7 t.warp (g.handle s.mode) g.ctx
      ((same.map (fun u => 2 ^ u.lane)).foldl (· + ·) 0) t.pc (t.depth % 2 ^ 16 + bitOf t.parked * 2 ^ 16))

/-- Period exponents of samples and of latches. -/
def periodOk (k : Nat) : Bool := decide (10 ≤ k ∧ k ≤ 24)

/-- The first multiple of 2^k after a tick. -/
def nextMultiple (k t : Nat) : Nat := (t / 2 ^ k + 1) * 2 ^ k

/-- SEXP of a control block. -/
def sampleExp (s : State) (die cb : Nat) : Nat := natField (s.peekNat (ownLoc die cb) 8) 8 5

/-- A die takes notice of SEXP: which of the ticks of the first period the first sample falls on is a free value (DESIGN CHOICE,
log 29). -/
def noticeSample (s : State) (w : Watch) : Watch × State :=
  match w.traceCb with
  | none => ({ w with sample := none }, s)
  | some cb =>
    let e := sampleExp s w.die cb
    if 4 ≤ w.die ∨ !(periodOk e) then ({ w with sample := none }, s)
    else if w.sample.map (·.1) = some e then (w, s)
    else
      let k := s.pick (2 ^ e)
      ({ w with sample := some (e, s.tickOf w.die + 1 + k.1) }, k.2)

/-- A sample of a die at the tick it is due: a record for each resident workgroup of TCTX, and the next is due 2^SEXP ticks
later (R296). Bits of the control block that Table 20.6 reserves are ignored (DESIGN CHOICE, log 53). -/
def execTraceSample (die : Fin 4) (s : State) : Out :=
  .next (match s.watch? die.val with
    | none => s
    | some w => match w.sample with
      | none => s
      | some (e, due) =>
        if s.tickOf die.val < due then s
        else
          let s := s.setWatch { w with sample := some (e, due + 2 ^ e) }
          match w.traceCb with
          | none => s
          | some cb =>
            if sampleExp s die.val cb ≠ e then s
            else
              let ctx := natField (s.peekNat (ownLoc die.val cb) 8) 13 6
              (s.workgroups.filter (fun g => g.core.die == die && g.ctx == ctx)).foldl (fun s g => sampleWg s die.val cb due g) s)

/-! ## The counter series (R297 to R299) -/

/-- Counters of a frame. -/
def frameCounters (die : Nat) : Nat := if die < 4 then 1368 else 64

/-- Counters that the model counts: gangs, thread-instructions and cycles of cores; B planes, bytes drained and copied; records,
transducer steps and corrected errors of stacks; settled requests, accesses that waited for a granule, bytes of collectives, stale
responses, corrected errors, bfinvs and page moves; of a far-tier die moves, prefetched pages, re-encrypted regions and corrected
errors. -/
def counted (die n : Nat) : Bool :=
  if die < 4 then
    decide (n < 1024) || (decide (1024 ≤ n ∧ n < 1280) && (n % 8 == 4 || n % 8 == 5 || n % 8 == 7)) || (decide (1280 ≤ n ∧ n < 1304) && decide (3 ≤ n % 8)) ||
      n == 1309 || n == 1310 || n == 1313 || n == 1314 || n == 1315 || n == 1316 || n == 1318 || n == 1319
  else (decide (10 ≤ n) && decide (n ≤ 13)) || n == 15 || n == 24

/-- Reserved counters read zero. -/
def reservedCounter (die n : Nat) : Bool :=
  if die < 4 then decide (1336 ≤ n) || n == 1287 || n == 1295 || n == 1303 else decide (25 ≤ n)

/-- A counter's value in a frame: what has been counted since the latch before, and it starts again. One of cycles, of the bytes that
go over a link or to a memory with what the manual does not count of them, or of what caches of lines and translations do, which the
manual does not fix, is a free value (DESIGN CHOICE, log 29). -/
def frameValue (s : State) (die n : Nat) : Nat × State :=
  if reservedCounter die n then (0, s)
  else if counted die n then
    let mine := fun (c : Counter) => c.die == die && c.num == n
    match s.counters.find? mine with
    | none => (0, s)
    | some c => (c.value, { s with counters := replaceFirst mine { c with value := 0 } s.counters })
  else s.pick (2 ^ 64)

def frameValues (die : Nat) : List Nat → State → List Nat × State
  | [], s => ([], s)
  | n :: ns, s =>
    let v := frameValue s die n
    let r := frameValues die ns v.2
    (v.1 :: r.1, r.2)

/-- The header of a frame (Table 20.9). -/
def frameHeader (tick prev seq die k lost : Nat) : Nat :=
  tick % 2 ^ 64 + prev % 2 ^ 64 * 2 ^ 64 + seq % 2 ^ 64 * 2 ^ 128 + die * 2 ^ 192 + k * 2 ^ 195 + frameCounters die * 2 ^ 200 +
    min lost (2 ^ 32 - 1) * 2 ^ 216

/-- A die takes notice of EN and K: the first latch is at the first multiple of 2^K after (R297), and PREV of the first frame is
the tick at which EN was seen set (Table 20.9). Latches of the old period go on up to the first multiple of a new 2^K. -/
def noticeLatch (s : State) (w : Watch) : Watch :=
  match w.seriesCb with
  | none => { w with latch := none }
  | some cb =>
    let head := s.peekNat (ownLoc w.die cb) 8
    let k := natField head 1 5
    let t := s.tickOf w.die
    if !(head.testBit 0 && periodOk k) then { w with latch := none }
    else match w.latch with
      | none => { w with latch := some (k, nextMultiple k t), lastLatch := t }
      | some (j, due) => if j = k ∨ due < nextMultiple k t then w else { w with latch := some (k, nextMultiple k t) }

/-- Write a frame into a die's ring, or lose it when the ring is full. -/
def writeFrame (s : State) (w : Watch) (cb k t : Nat) : State :=
  let die := w.die
  let at' := ownLoc die cb
  let head := s.peekNat (at' + 20) 4
  let next := ringNext head (s.peekNat (at' + 16) 4)
  let vs := frameValues die (List.range (frameCounters die)) s
  let later := { w with latch := some (k, t + 2 ^ k), lastLatch := t }
  if next = s.peekNat (at' + 24) 4 then vs.2.setWatch { later with lost := w.lost + 1 }
  else
    let x := frameHeader t w.lastLatch w.seriesSeq die k w.lost + 2 ^ 512 * vs.1.foldr (fun v acc => v % 2 ^ 64 + 2 ^ 64 * acc) 0
    let s := writeEntry vs.2 die (s.peekNat (at' + 8) 8 + 11008 * head) (64 + 8 * frameCounters die) x
    let s := pokeNat s (.dispatcher (Fin.ofNat 4 die)) (at' + 20) 4 next
    s.setWatch { later with seriesSeq := w.seriesSeq + 1, lost := 0 }

/-- A die latches its counters at the tick that is due. Bits of the control block that Table 20.8 reserves are ignored (DESIGN
CHOICE, log 53). -/
def execCounterLatch (die : Fin 6) (s : State) : Out :=
  .next (match s.watch? die.val with
    | none => s
    | some w => match w.seriesCb, w.latch with
      | some cb, some (k, t) => if s.tickOf die.val < t then s else writeFrame s w cb k t
      | _, _ => s)

/-- The counters of a die start again. -/
def clearCounters (s : State) (die : Nat) : State :=
  { s with counters := s.counters.map (fun c => if c.die = die then { c with value := 0 } else c) }

/-- A die takes notice of its control blocks: when EN is set, its counters start (R297). -/
def noticeWatch (s : State) (w : Watch) : State :=
  let r := noticeSample s w
  let x := noticeLatch r.2 r.1
  let s := r.2.setWatch x
  if w.latch.isNone && x.latch.isSome then clearCounters s w.die else s

/-- Every die takes notice of its control blocks; while the package is stopped none does (R294). -/
def noticeWatches (s : State) : State := if s.gated then s else s.watches.foldl noticeWatch s

/-- What a stop has passed over is not taken: the next sample and the next latch are those after (R297). -/
def skipPassed (s : State) : State :=
  { s with watches := s.watches.map (fun w =>
      let t := s.tickOf w.die
      { w with
          sample := w.sample.map (fun x => if x.2 < t then (x.1, x.2 + ceilDiv (t - x.2) (2 ^ x.1) * 2 ^ x.1) else x)
          latch := w.latch.map (fun x => if x.2 < t then (x.1, ceilDiv t (2 ^ x.1) * 2 ^ x.1) else x) }) }

/-! ## Event messages (R305) -/

/-- The oldest undelivered record of each source. -/
def oldestRecords : List EventRec → List EventRec
  | [] => []
  | r :: rs => r :: (oldestRecords rs).filter (fun x => x.src != r.src)

/-- Choose `n` records, each the oldest of its source that is left. -/
def chooseRecords : Nat → List EventRec → State → List EventRec × State
  | 0, _, s => ([], s)
  | n + 1, rs, s => match (oldestRecords rs)[(s.pick (oldestRecords rs).length).1]? with
    | none => ([], s)
    | some r =>
      let q := chooseRecords n (removeFirst (fun x => x == r) rs) (s.pick (oldestRecords rs).length).2
      (r :: q.1, q.2)

/-- The module sends up to `count` + 1 records. Before START there is no host to send them to. -/
def execEvent (count : Fin 64) (s : State) : Out :=
  .next (if s.power != .running then s
    else
      let r := chooseRecords (count.val + 1) s.pending s
      sendRecords r.2 r.1)

/-- The host acknowledges a message: its records are delivered; a fault whose completion event they hold leaves the summary
of R304. -/
def execEventAck (tag : Tag) (s : State) : Out :=
  let acked := (s.sent.filter (fun m => m.tag == tag)).flatMap (·.recs)
  .next { s with
            sent := s.sent.filter (fun m => m.tag != tag)
            faults := s.faults.filter (fun f => !(acked.any (fun r => r.src == f.src && f.seq == some r.seq))) }

/-- Records not acknowledged within 2^24 ticks are sent again, with the same SEQ. -/
def execEventResend (tag : Tag) (s : State) : Out :=
  .next (match s.destination, s.sent.find? (fun m => m.tag == tag && decide (m.tick + longWait ≤ s.now)) with
    | some dest, some m =>
      { s with
          sent := replaceFirst (fun x => x == m) { m with tick := s.now } s.sent
          outbox := s.outbox ++ [eventMessage dest tag m.recs] }
    | _, _ => s)

end Machine
end Sys2Proof
end

