-- ==== Sys2Proof/Machine/HostCommands.lean ====
section
/-! DEFINITION. Commands of the host over the Qori command protocol (R226, R227, R235, R238, R300 to R305, R308, R309,
Table 21.2). -/

namespace Sys2Proof
namespace Machine

/-! ## Replies -/

def State.done (s : State) (op : Nat) (tag : Tag) (ctx : Nat := 0) : State := s.reply op tag 0 [] ctx
def State.malformed (s : State) (op : Nat) (tag : Tag) (ctx : Nat := 0) : State := s.reply op tag 2 [] ctx
def State.busy (s : State) (op : Nat) (tag : Tag) (ctx : Nat := 0) : State := s.reply op tag 3 [] ctx

/-- A message as it is sent: the header of Table 21.1, then the payload (R301). -/
def Message.bytes (m : Message) : List Byte :=
  bytesOf (0x49524F51 + 2 ^ 32 + m.op * 2 ^ 40 + bitOf m.reply * 2 ^ 48 + m.tag.toNat * 2 ^ 64 + m.payload.length * 2 ^ 96 +
    m.ctx * 2 ^ 128 + m.status * 2 ^ 160) 32 ++ m.payload

/-- A refusal: the reply carries the code, and an event reports it (R276). The source is die control of far-tier die 0 (DESIGN
CHOICE, log 49). -/
def State.refuse (s : State) (op : Nat) (tag : Tag) (c : Code) (ctx : Nat := 0) : State :=
  State.emitFree (s.reply op tag 1 (bytesOf (codeNumber c) 2) ctx) 0 9 4 (codeNumber c) ctx 0

/-- Act on a live context, or refuse with CTX_ABSENT (R303). -/
def onContext (s : State) (op : Nat) (tag : Tag) (c : Fin 64) (f : Context → State) : State :=
  match s.context? c.val with
  | some cx => f cx
  | none => s.refuse op tag .ctxAbsent c.val

/-- Every byte of a span lies in a window or at a valid leaf; pages are stepped over whole. What another module maps is not
known here (DESIGN CHOICE, log 16). -/
def mappedFrom (s : State) (last : Nat) : Nat → Nat → Bool
  | 0, _ => true
  | fuel + 1, va =>
    if last < va ∨ vaModule va ≠ s.module.toNat then true
    else if inWindow va then
      decide (vaOfs va < windowBase + Config.sramBytes) &&
        mappedFrom s last fuel (va - vaOfs va + windowBase + Config.sramBytes)
    else if 6 ≤ vaDie va then false
    else match walk s (vaDie va) (vaOfs va) with
      | none => false
      | some (_, bits, _) => mappedFrom s last fuel ((va / 2 ^ bits + 1) * 2 ^ bits)

/-- An address of a payload, with the bytes it stands for, checked and translated (R303, R306). -/
def checkPayload (s : State) (va n : Nat) : Except Code Unit :=
  if !(pathKnown s va) then .error .bounds
  else if decide (va + n ≤ 2 ^ 64) && mappedFrom s (va + n - 1) (n / 65536 + 3) va then .ok ()
  else .error .leaseLost

/-- Go on when the addresses of a payload pass, or refuse. -/
def onPayload (s : State) (op : Nat) (tag : Tag) (ctx : Nat) (spans : List (Nat × Nat)) (f : State) : State :=
  match spans.findSome? (fun x => match checkPayload s x.1 x.2 with
    | .error c => some c
    | .ok _ => none) with
  | some c => s.refuse op tag c ctx
  | none => f

/-! ## The session (R300) -/

/-- OPEN: a new session; the commands of the old one still in progress complete, and their replies are dropped. (DEDUCED, log 34)
-/
def execHostOpen (tag : Tag) (sender : Nat) (s : State) : Out :=
  .next (if s.host = some sender then
    State.done { s with
      session := true, mute := false, aborts := []
      down := s.down.map (fun x => { x with reply := none })
      arrived := s.arrived.map (fun x => { x with quiet := true }) } 0x01 tag
  else s)

/-- A message that is no command this mode performs (R301 to R303, R312). -/
def execUnknownOp (tag : Tag) (why : BadMessage) (s : State) : Out :=
  .next (match why with
    | .malformed op => s.malformed op tag
    | .notInThisMode op => s.busy op tag)

/-- A frame of another identity is dropped and counted (R300, R312). -/
def execForeignFrameDrop (_sender : Nat) (s : State) : Out := .next { s with droppedFrames := s.droppedFrames + 1 }

/-! ## RESYNC (R304, Tables 21.3, 21.8) -/

/-- Every record not yet sent goes out, so that what follows the reply has a later SEQ (DESIGN CHOICE, log 30). `fuel` messages. -/
def flushEvents : Nat → State → State
  | 0, s => s
  | n + 1, s => if s.pending.isEmpty then s else flushEvents n (sendRecords s (s.pending.take 64))

/-- The sources of a die, as UNIT and KIND (Table 19.3); a port's UNIT is its number. -/
def sourcesOfDie (die : Nat) : List (Nat × Nat) :=
  if die < 4 then
    (List.range 128).map (fun k => (k, 0)) ++ (List.range 64).map (fun k => (k, 1)) ++ (List.range 32).map (fun k => (k, 2)) ++
    (List.range 3).map (fun k => (k, 3)) ++ (List.range 96).map (fun k => (k, 4)) ++ [(0, 5), (0, 6)] ++
    (List.range 8).map (fun k => (8 * die + k, 8)) ++ [(0, 9)]
  else (0, 7) :: ((List.range 8).filter (fun n => portDie .ethernet n == die || (decide (n < 4) && portDie .cxl n == die))).map
    (fun n => (n, 8)) ++ [(0, 9)]

/-- Every event source, with those that have reported. One that has reported nothing comes before SEQ 0 (DESIGN CHOICE, log 30).
-/
def allSources (s : State) : List Source :=
  let all := (List.range 6).flatMap (fun die => (sourcesOfDie die).map (fun u => sourceKey u.1 u.2 die))
  all.map (fun k => (s.sources.find? (fun x => x.src == k)).getD ⟨k, 0, 0⟩) ++ s.sources.filter (fun x => !(all.contains x.src))

/-- Launches ended by a code of class E that have not completed. -/
def endedLaunches (s : State) : List FaultRec :=
  s.launches.filterMap (fun l => match l.code with
    | some c => if codeClass c == .ends then some ⟨l.addr, codeNumber c, 0, none⟩ else none
    | none => none)

def faultList (s : State) : List FaultRec := s.faults ++ endedLaunches s

def resyncHeader (s : State) : List Byte :=
  bytesOf (s.tickOf 4 % 2 ^ 64 + s.mode.val * 2 ^ 64 + s.contexts.length * 2 ^ 72 + (faultList s).length % 2 ^ 32 * 2 ^ 96 +
    (allSources s).length % 2 ^ 32 * 2 ^ 128) 64

/-- The digest of a kind of image, zero when none is verified (R315). -/
def digestOf (s : State) (k : Fin 2) : List Byte :=
  match s.verified.find? (fun v => v.kind == k) with
  | some v => v.digest
  | none => []

/-- Bytes at a length: cut, or filled with zeros. -/
def fitTo (n : Nat) (bs : List Byte) : List Byte := bs.take n ++ List.replicate (n - bs.length) 0

def contextFlags (c : Context) : Nat := bitOf c.priv + 2 * bitOf c.check + 4 * bitOf c.debug

def contextBytes (s : State) (k : Nat) : List Byte :=
  match s.context? k with
  | none => bytesOf 0 64
  | some c =>
    bytesOf (1 + s.mode.val * 2 ^ 8 + c.device * 2 ^ 16 + contextFlags c * 2 ^ 24 + c.btbase.toNat * 2 ^ 64 +
      c.btlen * 2 ^ 128 + queueBits s k * 2 ^ 192) 64

/-- The oldest accepted launch of a queue not yet completed: its entry; with none, the entry that comes next. -/
def headOf (s : State) (q : Queue) : Nat :=
  match s.launches.find? (usesEntry q.owner.val q.num) with
  | some l => l.entry
  | none => nextEntry s q

/-- Record `k`: queue k mod (64 / devices) of device ⌊k × devices / 64⌋. -/
def queueBytes (s : State) (k : Nat) : List Byte :=
  let device := k * deviceCount s.mode / 64
  let num := k % queuesPerDevice s.mode
  match s.queues.find? (fun q => q.num == num && s.deviceOfCtx q.owner.val == device) with
  | none => bytesOf (0xFF + device * 2 ^ 8) 32
  | some q =>
    bytesOf (q.owner.val + device * 2 ^ 8 + q.qbase.toNat * 2 ^ 64 + headOf s q % 2 ^ 32 * 2 ^ 128 +
      nextEntry s q % 2 ^ 32 * 2 ^ 160 + (queueWord s q.owner.val q.num).toNat * 2 ^ 192) 32

def faultBytes (f : FaultRec) : List Byte := bytesOf (f.addr.toNat + f.code * 2 ^ 64) 16

def portCode : PortKind → Nat
  | .ualink => 0
  | .cxl => 1
  | .ethernet => 2

def linkBytes (s : State) (k : PortKind) (n : Nat) : List Byte :=
  match s.ports.find? (fun p => p.kind == k && p.num == n) with
  | none => bytesOf (portCode k + n * 2 ^ 8) 8
  | some p => bytesOf (portCode k + n * 2 ^ 8 + p.state * 2 ^ 16 + p.peer.toNat * 2 ^ 32) 8

/-- LASTSEQ: of the latest event that has gone to the host. -/
def lastSeq (s : State) (x : Source) : Nat := (x.seq + 2 ^ 32 - 1 - (s.pending.filter (fun r => r.src == x.src)).length) % 2 ^ 32

def sourceBytes (s : State) (x : Source) : List Byte :=
  bytesOf (x.src % 2 ^ 16 + natField x.src 16 4 * 2 ^ 16 + natField x.src 20 3 * 2 ^ 24 + lastSeq s x * 2 ^ 64) 16

/-- The summary. -/
def summary (s : State) : List Byte :=
  resyncHeader s ++ fitTo 64 (digestOf s 0) ++ fitTo 64 (digestOf s 1) ++
  (List.range 64).flatMap (contextBytes s) ++ (List.range 64).flatMap (queueBytes s) ++ (faultList s).flatMap faultBytes ++
  (List.range 32).flatMap (linkBytes s .ualink) ++ (List.range 4).flatMap (linkBytes s .cxl) ++
  (List.range 8).flatMap (linkBytes s .ethernet) ++ (allSources s).flatMap (sourceBytes s)

def execResync (tag : Tag) (s : State) : Out :=
  let s := if s.power = .running ∧ !s.stopped then flushEvents s.pending.length s else s
  .next (s.reply 0x02 tag 0 (summary s))

/-! ## Contexts and queues (R226, R227, R238) -/

def execCtxCreate (tag : Tag) (c : Fin 64) (f : CtxFields) (s : State) : Out :=
  .next (if (s.context? c.val).isSome then s.refuse 0x03 tag .ctxLive c.val
    else if !s.contexts.isEmpty && s.mode != f.mode then s.refuse 0x03 tag .modeBusy c.val
    else onPayload s 0x03 tag c.val [(f.btbase.toNat, 64 * f.btlen)]
      (let cx : Context := ⟨c, f.device, f.flags.getLsbD 0, f.flags.getLsbD 1, f.flags.getLsbD 2, f.btbase, f.btlen⟩
       State.done { s with mode := f.mode, contexts := s.contexts ++ [cx] } 0x03 tag c.val))

/-- The context has a resident workgroup or an accepted launch. -/
def contextBusy (s : State) (c : Nat) : Bool :=
  s.workgroups.any (fun g => g.ctx == c) || s.launches.any (fun l => l.ctx.val == c)

def execCtxDestroy (tag : Tag) (c : Fin 64) (s : State) : Out :=
  .next (onContext s 0x04 tag c (fun _ =>
    if contextBusy s c.val then s.busy 0x04 tag c.val
    else State.done (refreshAges { s with
        contexts := s.contexts.filter (fun x => x.id != c)
        queues := s.queues.filter (fun q => q.owner != c) }) 0x04 tag c.val))

/-- An accepted launch of the queue has not completed. -/
def queueBusy (s : State) (c q : Nat) : Bool := s.launches.any (fun l => l.ctx.val == c && l.queue == q)

/-- Another context of the device holds the queue. -/
def queueTaken (s : State) (c : Fin 64) (q : Nat) : Bool :=
  s.queues.any (fun x => x.num == q && x.owner != c && s.deviceOfCtx x.owner.val == s.deviceOfCtx c.val)

/-- A queue as a command sets it: nothing taken from its backing. -/
def newQueue (c : Fin 64) (f : QueueFields) (paused : Bool) : Queue :=
  ⟨f.queue, c, f.prio, f.pre, f.qbase, f.qlen, f.sabase, f.salen.toNat, paused, 0⟩

/-- QUEUE_SET on a queue that its context holds (R238). -/
def resetQueue (s : State) (tag : Tag) (c : Fin 64) (f : QueueFields) (q : Queue) : State :=
  let put := fun (x : Queue) => State.done (refreshAges { s with
    queues := replaceFirst (fun y => y.num == q.num && y.owner == c) x s.queues }) 0x05 tag c.val
  if q.qbase = f.qbase ∧ q.qlen = f.qlen ∧ q.sabase = f.sabase ∧ q.salen = f.salen.toNat then
    put { q with prio := f.prio, pre := f.pre }
  else if queueBusy s c.val f.queue then s.busy 0x05 tag c.val
  else put (newQueue c f q.paused)

def execQueueSet (tag : Tag) (c : Fin 64) (f : QueueFields) (s : State) : Out :=
  .next (if queuesPerDevice s.mode ≤ f.queue then s.malformed 0x05 tag c.val
    else onContext s 0x05 tag c (fun _ =>
      if queueTaken s c f.queue then s.busy 0x05 tag c.val
      else onPayload s 0x05 tag c.val [(f.qbase.toNat, 576 * f.qlen), (f.sabase.toNat, f.salen.toNat)]
        (match s.heldQueue c.val f.queue with
        | some q => resetQueue s tag c f q
        | none => State.done (refreshAges { s with queues := s.queues ++ [newQueue c f false] }) 0x05 tag c.val)))

/-! ## Submitting and ending launches -/

/-- What the host has written, released at system scope (R302). -/
def hostRel (s : State) : Rel := relOf s .host .system s.hostView

/-- A record with JOIN zero: it is accepted, or refused with memory unchanged (R235, R236); on a full backing nothing
changes (R238). -/
def submitReady (s : State) (tag : Tag) (cx : Context) (va : Nat) : State :=
  match acceptRecord s cx va [hostRel s] with
  | .error c => s.refuse 0x06 tag c cx.id.val
  | .ok (l, _) =>
    if recCount l.record ≠ 0 ∧ !(hasRoom s cx.id.val l.queue) then s.busy 0x06 tag cx.id.val
    else match acceptNow (finishLaunch chainFuel) s cx va [hostRel s] with
      | .error c => s.refuse 0x06 tag c cx.id.val
      | .ok t => t.done 0x06 tag cx.id.val

/-- SUBMIT. A record with JOIN above zero is held in memory (R244). -/
def execSubmit (tag : Tag) (c : Fin 64) (rec' : Word) (s : State) : Out :=
  let va := rec'.toNat
  .next (onContext s 0x06 tag c (fun cx =>
    if !(pathKnown s va) then s.refuse 0x06 tag .bounds c.val
    else match readSpan s .host c.val s.hostView .latest va 4 with
    | .error e => s.refuse 0x06 tag e c.val
    | .ok r =>
      if ofBytes r.bytes ≠ 0 then s.done 0x06 tag c.val
      else submitReady { r.s with hostView := r.v } tag cx va))

/-- The launch of a record that is accepted and not yet completed. -/
def liveLaunch (s : State) (c : Fin 64) (rec' : Word) : Option Launch :=
  s.launches.find? (fun l => l.ctx == c && l.addr == rec' && l.joined.isNone)

/-- ABORT: the launch ends with LAUNCH_ABORT when it is accepted and not completed; the reply comes when its end is complete
(R274, R302). -/
def execAbort (tag : Tag) (c : Fin 64) (rec' : Word) (s : State) : Out :=
  .next (onContext s 0x0A tag c (fun _ =>
    match liveLaunch s c rec' with
    | some l =>
      let t := refreshAges (endLaunch s l.uid .launchAbort)
      if t.mute then t else { t with aborts := t.aborts ++ [⟨l.uid, tag, c.val⟩] }
    | none => s.done 0x0A tag c.val))

/-! ## Memory (R303) -/

/-- The whole lines that a write of the host covers are clean of poison (R279). -/
def cleanLines (s : State) (locs : List Nat) : State :=
  if s.poison.isEmpty then s
  else { s with poison := s.poison.filter (fun l => !((List.range 64).all (fun k => locs.contains (64 * l + k)))) }

/-- MEM_WRITE: bytes written as a release at system scope. -/
def execMemWrite (tag : Tag) (addr : Word) (data : List Byte) (s : State) : Out :=
  .next (if !(pathKnown s addr.toNat) then s.refuse 0x07 tag .bounds
    else match places s 64 addr.toNat data.length with
    | .error c => s.refuse 0x07 tag c
    | .ok (ps, s) =>
      let w := writeAt s (storeWriter s .host .system true s.hostView) s.hostView .back addr.toNat ps data
      let f := releaseUo w.1 .host .system w.2
      (cleanLines { f.1 with hostView := f.2 } (ps.filterMap Place.loc?)).done 0x07 tag)

/-- MEM_READ: an acquire at system scope; the reply carries the bytes. (DESIGN CHOICE, log 35) -/
def execMemRead (tag : Tag) (addr : Word) (count : Nat) (s : State) : Out :=
  .next (if !(pathKnown s addr.toNat) then s.refuse 0x08 tag .bounds
    else match readSpan s .host 64 s.hostView .relaxed addr.toNat count with
    | .error c => s.refuse 0x08 tag c
    | .ok r =>
      let a := takeRels r.s .host .system true r.rels r.v
      State.reply { a.1 with hostView := a.2 } 0x08 tag 0 r.bytes)

/-- CACHE_WB: every modified line reaches its frame (R264). -/
def execCacheWb (tag : Tag) (s : State) : Out :=
  let t := s.dirtyLines.foldl (fun s x => writeBackLine s x.line (locationOf s (64 * x.line))) s
  .next (State.done { t with dirtyLines := [] } 0x09 tag)

/-! ## RESTORE (R290) -/

/-- The buffer of an entry of a context's table, as a binding to it would find it. What a table in another module holds is a
free value (DESIGN CHOICE, log 16). -/
def entryAt (s : State) (cx : Context) (i : Nat) : Except Code (Bound × State) :=
  match places s cx.id.val (cx.btbase.toNat + 64 * i) 64 with
  | .error c => .error c
  | .ok (ps, s) =>
    if anyPoison s ps then .error .memPoison
    else
      let (e, s) := if anyAway ps then s.pick (2 ^ 512) else (ofBytes (latestBytes s ps), s)
      if !(entryUsable e) then .error .bindEmpty
      else if (boundOf e).owner ≠ cx.id.val then .error .owner
      else .ok (boundOf e, s)

/-- lehrld for the host: the handle, or the code that refuses. -/
def hostRestore (s : State) (cx : Context) (tidx ofs : Nat) : Except Code (Nat × State) :=
  match entryAt s cx tidx with
  | .error c => .error c
  | .ok (d, s) => match imageHeader d ((ofs / 8 : Nat) : Int) with
    | .error c => .error c
    | .ok _ => match checkPeers s d with
    | .error c => .error c
    | .ok _ => match imageAt s .host cx.id.val s.hostView d ((ofs / 8 : Nat) : Int) with
      | .error c => .error c
      | .ok (bs, s, v) => restoreImage { s with hostView := v } cx bs (coresOf (imageDie s cx bs)) v

def execRestore (tag : Tag) (c : Fin 64) (tidx : BitVec 16) (ofs : Word) (s : State) : Out :=
  .next (onContext s 0x0B tag c (fun cx =>
    if cx.btlen ≤ tidx.toNat then s.malformed 0x0B tag c.val
    else match hostRestore s cx tidx.toNat ofs.toNat with
      | .error e => s.refuse 0x0B tag e c.val
      | .ok (h, t) => t.reply 0x0B tag 0 (bytesOf h 8) c.val))

/-! ## Reset, scan, resume -/

/-- DIE_RESET: the reply follows the end of the reset (R280, R302). -/
def execDieReset (tag : Tag) (die : Fin 4) (s : State) : Out := .next (resetDie s die true (if s.mute then none else some tag))

/-- SCAN: the bytes of a scan image are not architectural (R303). -/
def execScan (tag : Tag) (_die : Fin 6) (ofs : Word) (count : Nat) (s : State) : Out :=
  .next (if s.stopped then
    State.reply { s with choice := s.choice + 1 } 0x0D tag 0
      ((List.range count).map (fun k => Config.scanByte s.choice (ofs.toNat + k)))
  else s.busy 0x0D tag)

/-- RESUME ends a stop, and the stop is disarmed (R294). -/
def execResume (tag : Tag) (s : State) : Out :=
  .next (if s.stopped then (skipPassed { s with stopped := false, stopAt := none }).done 0x0E tag else s.done 0x0E tag)

/-! ## Peers and groups (R308, R309) -/

def execPeerSet (tag : Tag) (entries : List PeerEntry) (s : State) : Out :=
  let ps := entries.foldl (fun ps e => upsert (fun (p : PeerEntry) => p.module == e.module) e ps) s.peers
  .next (State.done { s with peers := ps } 0x0F tag)

/-- A group names an engine of this module. -/
def namesEngine (s : State) (ms : List GroupMember) (die : Fin 4) : Bool :=
  ms.any (fun m => m.module == s.module && m.die == die)

/-- The group would exceed an engine's 256, or repeat a tag at an engine that it names. -/
def groupRefused (s : State) (tag : Word) (ms : List GroupMember) : Bool :=
  (List.finRange 4).any (fun die => namesEngine s ms die &&
    (decide (256 ≤ (s.groups.filter (fun g => namesEngine s g.members die)).length) ||
     s.groups.any (fun g => g.tag == tag && namesEngine s g.members die)))

def execGroupReg (tag : Tag) (group : Word) (members : List GroupMember) (s : State) : Out :=
  .next (if groupRefused s group members then s.busy 0x10 tag
    else State.done { s with groups := s.groups ++ [⟨group, members⟩] } 0x10 tag)

/-- A collective of the group is pending. -/
def groupPending (s : State) (group : Word) : Bool :=
  s.ops.any (fun o => o.kind == .col && colGroup o.desc == group)

def execGroupDrop (tag : Tag) (group : Word) (s : State) : Out :=
  .next (if groupPending s group then s.busy 0x11 tag
    else State.done { s with groups := s.groups.filter (fun g => g.tag != group) } 0x11 tag)

end Machine
end Sys2Proof
end

