-- ==== Sys2Proof/Machine/BringUp.lean ====
section
/-! DEFINITION. Bring-up: HELLO, firmware images and their verification (R312 to R315), START (R316), attestation (R318, R319). -/

namespace Sys2Proof
namespace Machine

/-! ## Identity (R318) -/

/-- Bytes of a name. -/
def nameBytes (n : List Nat) : List Byte := n.map (BitVec.ofNat 8)

/-- "ESLITH-ID" and "ESLITH-AT". -/
def identityName : List Byte := nameBytes [0x45, 0x53, 0x4C, 0x49, 0x54, 0x48, 0x2D, 0x49, 0x44]
def attestName : List Byte := nameBytes [0x45, 0x53, 0x4C, 0x49, 0x54, 0x48, 0x2D, 0x41, 0x54]

/-- U, byte 0 first. -/
def secretBytes : List Byte := bytesOf Config.secret.toNat 32

/-- S_I. -/
def identitySeed : List Byte := Sha.shake256 (identityName ++ secretBytes) 64

/-- S_A. -/
def attestSeed (s : State) : List Byte :=
  Sha.shake256 (attestName ++ secretBytes ++ fitTo 64 (digestOf s 0) ++ fitTo 64 (digestOf s 1)) 64

/-- The Ed25519 and the ML-DSA-65 public key of a seed; bytes 0 to 31 of the seed are the first's, 32 to 63 the second's. -/
def edKey (seed : List Byte) : List Byte := fitTo 32 (Config.publicKey 0 (seed.take 32))
def mlKey (seed : List Byte) : List Byte := fitTo 1952 (Config.publicKey 1 (seed.drop 32))

def edSign (seed msg : List Byte) : List Byte := fitTo 64 (Config.sign 0 (seed.take 32) msg)
def mlSign (seed msg : List Byte) : List Byte := fitTo 3309 (Config.sign 1 (seed.drop 32) msg)

/-! ## HELLO (R312) -/

/-- The first peer that sends HELLO becomes the bring-up peer; the reply carries serial number, ROM version and public keys. -/
def execHello (tag : Tag) (sender : Nat) (s : State) : Out :=
  let s := match s.hello with
    | some _ => s
    | none => { s with hello := some sender }
  .next (s.reply 0x40 tag 0 (bytesOf Config.serial.toNat 8 ++ bytesOf Config.romVersion.toNat 4 ++ edKey identitySeed ++
    mlKey identitySeed))

/-! ## Loading (R313) -/

/-- LOAD_BEGIN opens an area and clears what was staged or verified of its KIND (R315). -/
def execLoadBegin (tag : Tag) (kind : Fin 2) (size : Nat) (s : State) : Out :=
  .next (State.done { s with
    staging := ⟨kind, size, [], true⟩ :: s.staging.filter (fun x => x.kind != kind)
    verified := s.verified.filter (fun v => v.kind != kind) } 0x41 tag)

/-- LOAD_DATA writes into the area opened last (DESIGN CHOICE, log 21). -/
def execLoadData (tag : Tag) (ofs : Nat) (data : List Byte) (s : State) : Out :=
  .next (match s.staging with
    | x :: rest =>
      if !x.opened || decide (x.size < ofs + data.length) then s.busy 0x42 tag
      else State.done { s with staging := { x with data := (ofs, data) :: x.data } :: rest } 0x42 tag
    | [] => s.busy 0x42 tag)

/-- A staged byte: of the latest write that covers it; a byte never written reads as the far tier's memory does (R321). -/
def stagedByte (ds : List (Nat × List Byte)) (k : Nat) : Byte :=
  match ds.find? (fun d => decide (d.1 ≤ k ∧ k < d.1 + d.2.length)) with
  | some d => d.2.getD (k - d.1) 0
  | none => 0

def stagedBytes (x : Staging) : List Byte := (List.range x.size).map (stagedByte x.data)

/-! ## Verification (R314, Table 22.2) -/

/-- The 64-byte header of an image, as a number. -/
def firmHeader (bs : List Byte) : Nat := ofBytes (bs.take 64)

def firmLength (h : Nat) : Nat := natField h 64 64
def firmSvn (h : Nat) : Nat := natField h 128 32

def firmLegal (h : Nat) : Bool :=
  natField h 0 32 == 0x4D524946 && natField h 32 16 == 1 && decide (natField h 48 4 ≤ 1) && natField h 52 12 == 0 &&
  decide (1 ≤ firmLength h ∧ firmLength h ≤ 2 ^ 28) && natField h 160 352 == 0

/-- M: the digest of header and body. -/
def firmDigest (bs : List Byte) : List Byte := Sha.sha512 (bs.take (64 + firmLength (firmHeader bs)))

/-- The reason mask: bit 0 Ed25519, bit 1 ML-DSA-65, bit 2 SVN, bit 3 malformed. -/
def firmMask (bs : List Byte) (minSvn : BitVec 32) : Nat :=
  let h := firmHeader bs
  let sigs := bs.drop (64 + firmLength h)
  let m := firmDigest bs
  bitOf (!(Config.verify 0 m (sigs.take 64))) + 2 * bitOf (!(Config.verify 1 m ((sigs.drop 64).take 3309))) +
  4 * bitOf (decide (firmSvn h < minSvn.toNat)) +
  8 * bitOf (!(firmLegal h) || bs.length != 64 + firmLength h + 3373)

/-- LOAD_END closes staging and verifies the image; an event reports a refusal, as for any command (R276; log 49). -/
def execLoadEnd (tag : Tag) (kind : Fin 2) (s : State) : Out :=
  .next (match s.staging.find? (fun x => x.kind == kind && x.opened) with
    | none => s.busy 0x43 tag
    | some x =>
      let bs := stagedBytes x
      let t := { s with staging := s.staging.filter (fun y => y.kind != kind) }
      let mask := firmMask bs s.minSvn
      if mask = 0 then
        State.done { t with verified := t.verified ++ [⟨kind, Sha.sha512 bs, BitVec.ofNat 32 (firmSvn (firmHeader bs))⟩] } 0x43 tag
      else State.emitFree (t.reply 0x43 tag 1 (bytesOf (codeNumber .descField) 2 ++ bytesOf mask 1)) 0 9 4 (codeNumber .descField) 0 0)

/-! ## START (R316) -/

def isVerified (s : State) (k : Fin 2) : Bool := s.verified.any (fun v => v.kind == k)

/-- What configuration has given a die for its watching (DESIGN CHOICE, log 5). -/
def startWatch (w : Watch) : Watch := { w with traceCb := Config.traceBlock w.die, seriesCb := Config.seriesBlock w.die }

/-- The dies run: the secret is locked, Ultra Ethernet ports 1 to 7 come up, the host's identity and the module's number are
fixed, and each die has the page table and the control blocks that it is configured with (DESIGN CHOICE, log 5). -/
def startModule (s : State) (module : BitVec 11) : State :=
  { s with
      secretLocked := true
      power := .running
      ports := s.ports.map (fun p => if p.kind = .ethernet then { p with state := 2 } else p)
      host := s.hello
      roots := (List.range 6).map Config.pageRoot
      mcbs := (List.range 6).map Config.migrationBlock
      watches := s.watches.map startWatch
      module }

def execStart (tag : Tag) (module : BitVec 11) (s : State) : Out :=
  .next (if isVerified s 0 && isVerified s 1 then (startModule s module).done 0x44 tag else s.busy 0x44 tag)

/-! ## ATTEST (R319, Table 22.3) -/

/-- The SVN of a verified image. -/
def svnOf (s : State) (k : Fin 2) : Nat :=
  match s.verified.find? (fun v => v.kind == k) with
  | some v => v.svn.toNat
  | none => 0

/-- Bytes 0 to 2,239 of the report. -/
def reportBody (s : State) (nonce : List Byte) : List Byte :=
  bytesOf 0x53545441 4 ++ bytesOf 1 2 ++ bytesOf 0 2 ++ bytesOf Config.serial.toNat 8 ++ fitTo 64 nonce ++
  bytesOf (s.tickOf 4) 8 ++ fitTo 64 (digestOf s 0) ++ fitTo 64 (digestOf s 1) ++ bytesOf (svnOf s 0) 4 ++ bytesOf (svnOf s 1) 4 ++
  bytesOf s.minSvn.toNat 4 ++ bytesOf 0 28 ++ edKey (attestSeed s) ++ mlKey (attestSeed s)

/-- The report: the identity keys sign bytes 88 to 2,239, the attestation keys bytes 0 to 5,612. -/
def report (s : State) (nonce : List Byte) : List Byte :=
  let body := reportBody s nonce
  let m := Sha.sha512 (body.drop 88)
  let signed := body ++ edSign identitySeed m ++ mlSign identitySeed m
  let n := Sha.sha512 signed
  signed ++ edSign (attestSeed s) n ++ mlSign (attestSeed s) n

def execAttest (tag : Tag) (nonce : List Byte) (s : State) : Out :=
  .next ((raiseSvn s).reply 0x45 tag 0 (report (raiseSvn s) nonce))

end Machine
end Sys2Proof
end

