-- ==== Sys2Proof/Machine/Espalier.lean ====
section
/-! DEFINITION. Pontils: their slots and the spans of their words, operand words, and loading a tile into the espalier store
(R175 to R178). -/

namespace Sys2Proof
namespace Machine

/-! ## Slots and elements of a pontil word (R170, R192) -/

/-- A context's own copy of a definition. -/
def Pontil.fdef (p : Pontil) (f : Nat) : Word := p.fmts.getD f 0

/-- A definition that is not null. -/
def Pontil.slot (p : Pontil) (f : Nat) : Except Code FDef :=
  if p.fdef f = 0 then .error .slotKind else .ok (fdefOf (p.fdef f))

/-- The element a pontil word names. -/
def Pontil.elem (p : Pontil) (m : QMemOp) : Int := elemIndex (p.offset m.ofsReg) m.ofs

/-- Row spans of a buffer: bits of the first row, the pitch, and the length of a row. -/
structure Rows where
  first : Int
  pitch : Int
  n : Nat
  rows : Nat
  deriving DecidableEq, Repr

def Rows.at' (r : Rows) (i : Nat) : Int := r.first + i * r.pitch

/-- Rows of `cols` elements, or of `cols / 32` blocks, from element or block `e`. -/
def rowsOf (f : FDef) (e : Int) (stride rows cols : Nat) : Rows :=
  let w := if f.isBlock then f.blockBits else f.w
  ⟨e * w, (stride * w : Nat), (if f.isBlock then cols / 32 else cols) * w, rows⟩

/-- R72 for each row span in turn. -/
def checkRows (d : Bound) (r : Rows) (need : Rights) : Nat → Except Code Unit
  | 0 => .ok ()
  | n + 1 => match checkRows d r need n with
    | .error c => .error c
    | .ok _ => checkSpan d (r.at' n) r.n need

/-- The bytes of a row, as offsets of the buffer. -/
def rowBytes (lo n : Nat) : List Nat := if n = 0 then [] else (List.range ((lo + n - 1) / 8 - lo / 8 + 1)).map (lo / 8 + ·)

/-! ## Operand words (Table 9.2) -/

def opAddr (o : Word) : Nat := wordField o 0 13
def opRole (o : Word) : Nat := wordField o 14 1
def opFew (o : Word) : Bool := wordBit o 15
def opRows (o : Word) : Nat := wordField o 16 6 + 1
def opKlen (o : Word) : Nat := wordField o 22 12 + 1
def opStride (o : Word) : Nat := wordField o 34 22
def opFec (o : Word) : Bool := wordBit o 56
def opSlot (o : Word) : Nat := wordField o 58 4
def opReserved (o : Word) : Bool := wordBit o 13 || wordBit o 57 || wordField o 62 2 != 0

/-- P(F): planes of an operand. -/
def planesOf (f : FDef) : Nat := f.mw + 1

/-- The footprint of a tile, in units of 256 bytes. -/
def footprint (o : Word) (f : FDef) : Nat := ceilDiv (opRows o * opKlen o * (planesOf f + 25)) 2048

/-! ## Bytes taken -/

/-- Bytes an ocld has taken: pieces of memory, by piece number, first byte first. A piece is a granule in die SRAM and an
aligned 8-byte word elsewhere. -/
abbrev Pieces := List (Nat × List Byte)

def pieceSize (d : Bound) : Nat := if inWindow d.base then 16 else 8

/-- The pieces that offsets of a buffer touch, each once. -/
def piecesOf (d : Bound) (os : List Nat) : List Nat :=
  os.foldl (fun acc o =>
    let k := (d.base + d.swz o) / pieceSize d
    if acc.contains k then acc else k :: acc) []

/-- The byte at an offset, of a piece that has been taken. -/
def takenByte (d : Bound) (ps : Pieces) (o : Nat) : Option Byte :=
  let va := d.base + d.swz o
  match ps.find? (fun p => p.1 == va / pieceSize d) with
  | some p => p.2[va % pieceSize d]?
  | none => none

/-- The bytes at offsets, when all have been taken. -/
def takenBytes (d : Bound) (ps : Pieces) : List Nat → Option (List Byte)
  | [] => some []
  | o :: os => match takenByte d ps o, takenBytes d ps os with
    | some b, some bs => some (b :: bs)
    | _, _ => none

/-! ## What an ocld reads -/

/-- An ocld that has passed its checks. -/
structure Load where
  o : Word
  f : FDef
  bd : Binder
  d : Bound
  e : Int

def Load.bitmap (l : Load) : Bool := l.d.comp == 1

/-- Bytes of the bitmap of one row (R178). -/
def bitmapBytes (l : Load) : Nat := ceilDiv (opKlen l.o) 128 * 16

/-- The rows: of elements or blocks, or of bitmaps at byte offsets. -/
def Load.rows (l : Load) : Rows :=
  if l.bitmap then ⟨8 * l.e, 8 * (opStride l.o : Int), 8 * bitmapBytes l, opRows l.o⟩
  else rowsOf l.f l.e (opStride l.o) (opRows l.o) (opKlen l.o)

/-- The offsets of an alias element's block. -/
def aliasBytes (d : Bound) (lo : Nat) : List Nat := (List.range (mxBlockBytes d.mxk)).map (lo / 512 * mxBlockBytes d.mxk + ·)

/-- The offsets row `r` of the first kind of bytes touches: its elements, or its bitmap. -/
def Load.firstBytes (l : Load) (r : Nat) : List Nat :=
  let lo := (l.rows.at' r).toNat
  if l.d.mxk = 0 then rowBytes lo l.rows.n
  else (List.range (opKlen l.o)).flatMap (fun k => aliasBytes l.d (lo + 16 * k))

/-- The bitmap of row `r`, when its bytes have been taken. -/
def Load.bitmapOf (l : Load) (ps : Pieces) (r : Nat) : Option Nat :=
  (takenBytes l.d ps (l.firstBytes r)).map (fun bs => ofBytes bs % 2 ^ opKlen l.o)

/-- The set bits of a bitmap below `n`. -/
def bitsBelow (x n : Nat) : Nat := ((List.range n).filter (fun k => x.testBit k)).length

/-- Where the present elements of row `r` stand. -/
def Load.presentAt (l : Load) (r : Nat) : Int := l.rows.at' r + 8 * (bitmapBytes l : Int)

/-- The offsets that an ocld touches, as far as the bytes taken say: every first kind, then for each row whose bitmap has
been taken its present elements. A row whose elements lie outside the buffer raises its code. -/
def Load.touched (l : Load) (ps : Pieces) : Nat → Except Code (List Nat)
  | 0 => .ok []
  | r + 1 => match l.touched ps r with
    | .error c => .error c
    | .ok os =>
      if !l.bitmap then .ok (os ++ l.firstBytes r)
      else match l.bitmapOf ps r with
        | none => .ok (os ++ l.firstBytes r)
        | some x =>
          let n := bitsBelow x (opKlen l.o) * l.f.w
          if n = 0 then .ok (os ++ l.firstBytes r)
          else match checkSpan l.d (l.presentAt r) n { r := true } with
            | .error c => .error c
            | .ok _ => .ok (os ++ l.firstBytes r ++ rowBytes (l.presentAt r).toNat n)

/-- The bits of element `k` of a packed span that starts at bit `lo`. -/
def packedBits (l : Load) (ps : Pieces) (lo : Nat) : Option Nat :=
  (takenBytes l.d ps (rowBytes lo l.f.w)).map (fun bs => natField (ofBytes bs) (lo % 8) l.f.w)

/-- Element `k` of row `r` (R176, R178): its value, and whether it is present. -/
def Load.element (l : Load) (ps : Pieces) (r k : Nat) : Option EspElem :=
  let lo := (l.rows.at' r).toNat
  if l.bitmap then
    match l.bitmapOf ps r with
    | none => none
    | some x =>
      if x.testBit k then
        (packedBits l ps ((l.presentAt r).toNat + bitsBelow x k * l.f.w)).map (fun b => ⟨decodeElem l.f b, true⟩)
      else some ⟨valZero false, false⟩
  else if l.f.isBlock then
    (takenBytes l.d ps (rowBytes (lo + k / 32 * l.f.blockBits) l.f.blockBits)).map (fun bs =>
      ⟨blockElem l.f (ofBytes bs) (k % 32), true⟩)
  else if l.d.mxk ≠ 0 then
    (takenBytes l.d ps (aliasBytes l.d (lo + 16 * k))).map (fun bs =>
      ⟨decodeElem l.f (aliasRead (mxDef l.d.mxk) (ofBytes bs) ((lo / 16 + k) % 32)), true⟩)
  else (packedBits l ps (lo + k * l.f.w)).map (fun b => ⟨decodeElem l.f b, true⟩)

/-- A value with its significand of `p` bits from its leading bit down, as the store keeps it (R177). -/
def topPlanes (p : Nat) (v : Val) : Val :=
  match v with
  | .num s n d e =>
    if n = 0 ∨ d ≠ 1 then v
    else
      let drop := log2 n + 1 - p
      .num s (n / 2 ^ drop) 1 (e + drop)
  | _ => v

/-- The region an ocld leaves. An element whose bytes are not known would be a zero; none is left when all are taken. -/
def Load.region (l : Load) (ps : Pieces) : EspRegion :=
  { addr := opAddr l.o, units := footprint l.o l.f, rows := opRows l.o, klen := opKlen l.o, role := opRole l.o
    planes := planesOf l.f, intact := true, gone := []
    elems := (List.range (opRows l.o)).map (fun r => (List.range (opKlen l.o)).map (fun k =>
      (l.element ps r k).getD ⟨valZero false, false⟩)) }

/-- Two regions share a unit. -/
def EspRegion.meets (a b : EspRegion) : Bool := decide (a.addr < b.addr + b.units ∧ b.addr < a.addr + a.units)

/-- The store after a load: earlier regions it overlaps are no longer intact, those it covers are gone (R177). -/
def storeRegion (esp : List EspRegion) (r : EspRegion) : List EspRegion :=
  r :: (esp.filter (fun x => !(decide (r.addr ≤ x.addr ∧ x.addr + x.units ≤ r.addr + r.units)))).map (fun x =>
    if x.meets r then { x with intact := false } else x)

/-! ## Taking bytes -/

/-- The granule of a piece in die SRAM of this module. -/
def pieceGranule (s : State) (d : Bound) (k : Nat) : Option Nat :=
  if inWindow d.base ∧ vaModule d.base = s.module.toNat then
    some (granuleOf (sramLoc (vaDie d.base) (vaOfs (16 * k) - windowBase)))
  else none

/-- Bytes that a drain of this context wrote and its view does not force are read one by one (R213); the others of a piece
in one access. -/
def splitRead (s : State) (p : Pontil) (v : MemView) (ps : List Place) : Bool :=
  s.hist.any (fun r => r.agent == .pontil p.id && !(v.uo.contains r.id) &&
    r.cells.any (fun c => (ps.filterMap Place.loc?).contains c.loc && decide (floorGet v.floor c.loc < r.id)))

/-- Of a release by this context, what its own ocld takes with the fill of a granule: the drains' bytes of that granule alone, and all that
is not its drains' (R213). -/
def ownFill (p : Pontil) (g : Nat) (r : Rel) : Rel :=
  if r.agent = .pontil p.id then
    { r with
      floor := r.floor.filter (fun x => granuleOf x.1 == g || !(p.drained.floor.any (fun d => d.1 == x.1)))
      uo := r.uo.filter (fun i => !(p.drained.uo.contains i)) }
  else r

/-- A pontil while it takes pieces. -/
structure Taking where
  s : State
  p : Pontil
  ps : Pieces
  fills : List (Nat × Rel)

/-- Take one piece, in one step at its bank with FEW or FEC (R176). With FEW it observes the fill of a full granule, and so
reads what the fill releases (R91). -/
def takePiece (l : Load) (sc : Scope) (k : Nat) (t : Taking) : Except Code Taking :=
  let z := pieceSize l.d
  match places t.s l.bd.ctx (z * k) z with
  | .error c => .error c
  | .ok (qs, s) =>
    if anyPoison s qs then .error .memPoison
    else
      let s := notePage s (some t.p.id.die.val) (z * k)
      let g := if opFew l.o || opFec l.o then pieceGranule s l.d k else none
      let fills := s.fullRels.filter (fun x => g == some x.1)
      let own := fun (rels : List Rel) => match g with
        | some g => rels.map (ownFill t.p g)
        | none => rels
      let a := if opFew l.o then takeRels s l.bd.agent sc true (own (fills.map (·.2))) t.p.view else (s, t.p.view)
      let split := splitRead a.1 t.p a.2 qs
      let r := readParts a.1 l.bd.agent a.2 (if g.isSome && (opFew l.o || !split) then .atPoint .home else .relaxed)
        (partsOf a.1 (z * k) (!split) qs)
      let b := takeRels r.2.2.1 l.bd.agent sc (opFew l.o) (own r.2.1) r.2.2.2
      .ok ⟨match g with
           | some g => if opFec l.o then setEmpty b.1 g else b.1
           | none => b.1, { t.p with view := b.2 }, (k, r.1) :: t.ps, fills ++ t.fills⟩

/-- Whether a piece can be taken now: without FEW always; with it, once its granule is full. Which granules that are full
an ocld takes at once, and which later, is not fixed. -/
def readyPiece (l : Load) (s : State) (k : Nat) : Bool × State :=
  if !(opFew l.o) then (true, s)
  else match pieceGranule s l.d k with
    | none => (true, s)
    | some g => if s.full.contains g then ((s.pick 2).1 == 0, (s.pick 2).2) else (false, s)

/-- Take those of the pieces that can be. -/
def takeSome (l : Load) (sc : Scope) : List Nat → Taking → Except Code Taking
  | [], t => .ok t
  | k :: ks, t =>
    let r := readyPiece l t.s k
    if r.1 then
      match takePiece l sc k { t with s := r.2 } with
      | .error c => .error c
      | .ok t => takeSome l sc ks t
    else takeSome l sc ks { t with s := r.2 }

/-- The pieces still to be taken. -/
def missing (l : Load) (ps : Pieces) : Except Code (List Nat) :=
  match l.touched ps (opRows l.o) with
  | .error c => .error c
  | .ok os => .ok ((piecesOf l.d os).filter (fun k => !(ps.any (fun x => x.1 == k))))

/-- The piece number under which a wait keeps a piece: its granule. -/
def keyOf (s : State) (d : Bound) (k : Nat) : Nat := (pieceGranule s d k).getD k

/-- The ocld is done when it has taken everything, and otherwise waits. -/
def settleLoad (l : Load) (i : Instr) (t : Taking) : PRes :=
  match missing l t.ps with
  | .error c => .stop c t.p.pc
  | .ok [] => .done t.s { t.p with esp := storeRegion t.p.esp (l.region t.ps), restored := none, wait := none } false
  | .ok _ => .wait t.s { t.p with wait := some ⟨i, t.ps.map (fun x => (keyOf t.s l.d x.1, x.2)), t.fills, false, t.s.peers⟩ }

/-- The checks of R176, in order. -/
def checkLoad (s : State) (p : Pontil) (d : QReg) (m : QMemOp) : Except Code (Load × State) :=
  let o := p.getQ d
  if opReserved o then .error .descField
  else match p.slot (opSlot o) with
    | .error c => .error c
    | .ok f =>
      if f.isBlock && opKlen o % 32 != 0 then .error .shapeIllegal
      else if 8192 < opAddr o + footprint o f then .error .espRange
      else
        let bd := binderOfPontil s p
        match bufferFor s bd m.bind.val f with
        | .error c => .error c
        | .ok (b, s) =>
          let l : Load := ⟨o, f, bd, b, p.elem m⟩
          match checkRows b l.rows { r := true } (opRows o) with
            | .error c => .error c
            | .ok _ =>
              if l.bitmap && f.isBlock then .error .slotKind
              else if (opFew o || opFec o) && !(inWindow b.base) then .error .feKind
              else match checkPeers s b with
                | .error c => .error c
                | .ok _ => .ok (l, s)

/-- A piece behind a port or a die that does not answer: the context stays at its instruction until it does (R280, R307,
R310). -/
def pieceBlocked (l : Load) (s : State) (k : Nat) : Bool :=
  match places s l.bd.ctx (pieceSize l.d * k) (pieceSize l.d) with
  | .error _ => false
  | .ok (qs, s) => (blocked s false qs).isSome

/-- An ocld stops while it takes pieces: for poison the DETAIL is the address of the first poisoned piece (Table 19.3). -/
def stopTaking (l : Load) (s : State) (p : Pontil) (ks : List Nat) (c : Code) : PRes :=
  let poisoned := fun k => match places s l.bd.ctx (pieceSize l.d * k) (pieceSize l.d) with
    | .error _ => false
    | .ok (qs, s) => anyPoison s qs
  match c, ks.find? poisoned with
  | .memPoison, some k => .stop c (BitVec.ofNat 64 (pieceSize l.d * k))
  | _, _ => .stop c p.pc

/-- ocld takes the first kind of its bytes, then what they show it to need. -/
def runLoad (s : State) (p : Pontil) (i : Instr) (d : QReg) (m : QMemOp) : PRes :=
  match checkLoad s p d m with
  | .error c => .stop c p.pc
  | .ok (l, s) => match missing l [] with
    | .error c => .stop c p.pc
    | .ok ks =>
      if pathWaits s l.d || ks.any (pieceBlocked l s) then .wait s p
      else match takeSome l m.scope ks ⟨s, p, [], []⟩ with
      | .error c => stopTaking l s p ks c
      | .ok t =>
        if !l.bitmap then settleLoad l i t
        else match missing l t.ps with
          | .error c => .stop c p.pc
          | .ok ks =>
            if ks.any (pieceBlocked l t.s) then .wait s p
            else match takeSome l m.scope ks t with
            | .error c => stopTaking l s p ks c
            | .ok t => settleLoad l i t

def execOcld (c : Common) (d : QReg) (m : QMemOp) (s : State) : Out :=
  .next (runMatrix (.ocld c d m) (fun p s => runLoad s p (.ocld c d m) d m) s)

/-! ## A waiting ocld -/

/-- A granule on which a waiting ocld waits has become full and is taken. -/
def takeWaited (s : State) (p : Pontil) (w : OcldWait) (d : QReg) (m : QMemOp) (granule : Nat) : PRes :=
  match checkLoad s { p with wait := none } d m with
  | .error c => .stop c p.pc
  | .ok (l, s) =>
    -- pieces were kept by granule: the bank's window gives them back
    let num := fun g => (16 * g - locSpace (16 * g) * 2 ^ 52 + l.d.base - vaOfs l.d.base + windowBase) / 16
    let t : Taking := ⟨s, p, w.taken.map (fun x => (num x.1, x.2)), w.fills⟩
    match missing l t.ps with
    | .error c => .stop c p.pc
    | .ok ks =>
      if pathWaits s l.d then .wait s p
      else if ks.contains (num granule) && pieceGranule s l.d (num granule) == some granule && s.full.contains granule then
        (match takePiece l m.scope (num granule) t with
        | .error c => stopTaking l s p [num granule] c
        | .ok t => settleLoad l w.instr t)
      else settleLoad l w.instr t

def execOcldGranuleTaken (p : PontilId) (granule : Nat) (s : State) : Out :=
  .next (match s.pontil? p with
    | some x => match x.state, x.wait with
      | .running, some w => match w.instr with
        | .ocld _ d m => match takeWaited s x w d m granule with
          | .stop c k => stopPontil (untake s x).1 (untake s x).2 c k
          | .wait s x => s.setPontil x
          | .done s x _ => s.setPontil x.advance
        | _ => s
      | _, _ => s
    | none => s)

end Machine
end Sys2Proof
end

