-- ==== Sys2Proof/Machine/Marver.lean ====
section
/-! DEFINITION. Products in the marver (R68 to R70, R179 to R182), the online-softmax rescale (R183), azero (R187). -/

namespace Sys2Proof
namespace Machine

/-! ## Tiles -/

/-- A tile with all 4,096 cells and 64 side registers written out. -/
def Tile.full (t : Tile) : Tile :=
  ⟨(List.range 4096).map t.cell, (List.range 64).map t.maxAt, (List.range 64).map t.sumAt⟩

def Pontil.setTile (p : Pontil) (a : AReg) (t : Tile) : Pontil :=
  { p with tiles := setAt ((List.range 16).map p.tile) a.val t }

def Pontil.mergeFlags (p : Pontil) (f : Flags) : Pontil := { p with flags := p.flags ||| f }

/-! ## Operands out of the store (R177) -/

/-- A free value of any class, with a significand of `p` bits. -/
def freeElem (p : Nat) (s : State) : EspElem × State :=
  let cls := s.pick 5
  let sg := cls.2.pick 2
  let n := sg.2.pick (2 ^ p)
  let e := n.2.pick (2 ^ 24)
  let b := e.2.pick 2
  let v : Val := match cls.1 with
    | 0 => valZero (sg.1 == 1)
    | 1 => .inf (sg.1 == 1)
    | 2 => .nan true
    | 3 => .nan false
    | _ => .num (sg.1 == 1) n.1 1 ((e.1 : Int) - 2 ^ 23)
  (⟨v, b.1 == 1⟩, b.2)

def freeRow (p : Nat) : Nat → State → List EspElem × State
  | 0, s => ([], s)
  | n + 1, s =>
    let r := freeRow p n s
    let x := freeElem p r.2
    (x.1 :: r.1, x.2)

def freeRows (p cols : Nat) : Nat → State → List (List EspElem) × State
  | 0, s => ([], s)
  | n + 1, s =>
    let r := freeRows p cols n s
    let x := freeRow p cols r.2
    (x.1 :: r.1, x.2)

/-- Elements of a region some of whose units are gone: which unit holds an element is the marver's own (R177, R288), so that each reads as
loaded or as a unit marked empty does, by free choice (DESIGN CHOICE, log 10). -/
def holedRow : List EspElem → State → List EspElem × State
  | [], s => ([], s)
  | x :: xs, s =>
    let k := s.pick 2
    let r := holedRow xs k.2
    ((if k.1 = 0 then x else ⟨valZero false, false⟩) :: r.1, r.2)

def holedRows : List (List EspElem) → State → List (List EspElem) × State
  | [], s => ([], s)
  | x :: xs, s =>
    let k := holedRow x s
    let r := holedRows xs k.2
    (k.1 :: r.1, r.2)

/-- Rows 0 to `rows - 1`, elements 0 to `cols - 1` of the tile an operand word names, under a slot of `pl` planes. -/
def tileOperand (s : State) (esp : List EspRegion) (o : Word) (pl units rows cols : Nat) : List (List EspElem) × State :=
  let named := fun (r : EspRegion) => r.intact && r.addr == opAddr o && r.rows == opRows o && r.klen == opKlen o &&
    r.role == opRole o
  let zeros := List.replicate rows (List.replicate cols (⟨valZero false, false⟩ : EspElem))
  match esp.find? named with
  | some r =>
    let xs := (r.elems.take rows).map (fun row => (row.take cols).map (fun x => { x with val := topPlanes pl x.val }))
    if r.gone.isEmpty then (xs, s) else if r.gone.length = r.units then (zeros, s) else holedRows xs s
  | none =>
    if (List.range units).all (fun u => unitEmpty esp (opAddr o + u)) then (zeros, s)
    else freeRows pl cols rows s

/-! ## One cell (R69, R70) -/

/-- Products of pairs, with their flags. -/
def productsOf (ps : List (Val × Val)) : List Val × Flags :=
  (ps.map (fun p => (exactMul p.1 p.2).1), ps.foldl (fun f p => f ||| (exactMul p.1 p.2).2) 0)

/-- The special result of a sum of terms, if some term is not finite (Table 4.8). -/
def specialSum (ts : List Val) : Option (Val × Flags) :=
  let pos := ts.any (fun t => match t with | .inf false => true | _ => false)
  let neg := ts.any (fun t => match t with | .inf true => true | _ => false)
  if pos && neg then some (.nan true, fInvalid)
  else if ts.any Val.isNan then some (.nan true, 0)
  else if pos || neg then some (.inf neg, 0)
  else none

/-- A sum none of whose terms is nonzero (R59). -/
def zeroOf (ts : List Val) (rm : Round) : Val :=
  match ts with
  | [] => valZero false
  | t :: rest => valZero (rest.foldl (fun sg u => zeroSum sg u.sign (rm == .rdn)) t.sign)

/-- floor(log2) of the largest nonzero term. -/
def largest (ts : List Val) : Option Int := maxLog none ts

/-- A term over λ = 2^lo, toward zero, and whether it is no multiple of λ. -/
def overLambda (lo : Int) (t : Val) : Int × Bool :=
  match t with
  | .num s n d e =>
    let p := intParts n d (e - lo)
    (if s then -(p.1 : Int) else p.1, p.2.1 != 0)
  | _ => (0, false)

/-- mma_cell (R69) of finite terms, of which one is nonzero: the value to encode, and sticky. -/
def windowSum (ts : List Val) (big : Int) (rm : Round) : Val × Bool :=
  let lo := big - 48
  let qs := ts.map (overLambda lo)
  let sigma := qs.foldl (fun a q => a + q.1) (0 : Int)
  let sticky := qs.any (·.2)
  if sticky then (valInt (2 * sigma + (if 0 ≤ sigma then 1 else -1)) (lo - 1), true)
  else if sigma = 0 then (valZero (rm == .rdn), false)
  else (valInt sigma lo, false)

/-- The exact sum of terms (R70). -/
def exactSum (ts : List Val) (rm : Round) : Val :=
  match ts with
  | [] => valZero false
  | t :: rest => rest.foldl (fun a u => (valAdd (rm == .rdn) a u).1) t

/-- A float cell: R69, or R70 when `fused`. `pos` is n + φ. -/
def floatCell (g : FDef) (fused : Bool) (c : Val) (ps : List (Val × Val)) (rm : Round) (pos : Nat) : Nat × Flags :=
  let pr := productsOf ps
  let ts := pr.1 ++ [c]
  let fl := pr.2 ||| flagIf c.isSignalling fInvalid
  match specialSum ts with
  | some (v, f) => let r := encodeElem g v rm pos false; (r.1, r.2 ||| f ||| fl)
  | none => match largest ts with
    | none => let r := encodeElem g (zeroOf ts rm) rm pos false; (r.1, r.2 ||| fl)
    | some big =>
      if fused then (let r := encodeElem g (exactSum ts rm) rm pos false; (r.1, r.2 ||| fl))
      else
        let w := windowSum ts big rm
        let r := encodeElem g w.1 rm pos false
        (r.1, r.2 ||| fl ||| flagIf w.2 fInexact)

/-- An operand's integer under a slot (Table 4.11); none when the value is not finite. (DEDUCED, log 44) -/
def integerOf (f : FDef) (v : Val) : Option Int :=
  match v with
  | .num s n d e => let q := (intParts n d (e + f.frac)).1; some (if s then -(q : Int) else q)
  | _ => none

/-- Σ of the products of the operands' integers. -/
def integerSum (fa fb : FDef) : List (Val × Val) → Option Int
  | [] => some 0
  | p :: ps => match integerOf fa p.1, integerOf fb p.2, integerSum fa fb ps with
    | some x, some y, some z => some (x * y + z)
    | _, _, _ => none

/-- An integer cell, clamped to the signed 64-bit range (R70). -/
def integerCell (c sum : Int) : Nat × Flags :=
  let t := c + sum
  if t < -(2 ^ 63) then (patternOf 64 (-(2 ^ 63)), fOverflow)
  else if 2 ^ 63 - 1 < t then (patternOf 64 (2 ^ 63 - 1), fOverflow)
  else (patternOf 64 t, 0)

/-! ## Shapes and classes (Tables 4.11, 9.4) -/

def widthClass (w : Nat) : Nat := if w ≤ 4 then 0 else if w ≤ 8 then 1 else if w ≤ 16 then 2 else if w ≤ 32 then 3 else 4

/-- M, N, K of a shape code, and the widest class that has it. -/
def shapeOf (code : Nat) : Option (Nat × Nat × Nat × Nat) :=
  match code with
  | 0 => some (64, 64, 64, 4)
  | 1 => some (64, 64, 128, 4)
  | 2 => some (64, 64, 256, 4)
  | 3 => some (64, 64, 512, 3)
  | 4 => some (64, 64, 1024, 2)
  | 5 => some (64, 64, 2048, 1)
  | 6 => some (64, 64, 4096, 0)
  | 16 => some (16, 16, 64, 4)
  | 17 => some (32, 32, 128, 4)
  | 18 => some (16, 64, 128, 4)
  | 19 => some (64, 16, 128, 4)
  | _ => none

/-- Table 4.11: the operands' definitions with accumulator slot `g`. -/
def accOk (fa fb : FDef) (g : Nat) : Bool :=
  if fa.isInt && fb.isInt then g == 1
  else if fa.isInt || fb.isInt then false
  else if 32 < max fa.w fb.w then g == 2
  else g == 2 || g == 3

/-! ## mma and mmas -/

/-- A product that has passed its checks. -/
structure Product where
  oa : Word
  ob : Word
  fa : FDef
  fb : FDef
  m : Nat
  n : Nat
  k : Nat
  fused : Bool

/-- The checks of R179, in order. -/
def checkProduct (p : Pontil) (a b : QReg) (f : Slot) (shape : Fin 32) : Except Code Product :=
  let oa := p.getQ a
  let ob := p.getQ b
  if opReserved oa || opReserved ob then .error .descField
  else match p.slot (opSlot oa), p.slot (opSlot ob) with
    | .ok fa, .ok fb =>
      let cls := widthClass (max fa.w fb.w)
      match shapeOf shape.val with
      | none => .error .shapeIllegal
      | some (m, n, k, widest) =>
        if widest < cls || !(accOk fa fb f.val) || opRole oa != 0 || opRole ob != 1 then .error .shapeIllegal
        else if opRows oa < m ∨ opRows ob < n ∨ opKlen oa < k ∨ opKlen ob < k then .error .shapeIllegal
        else .ok ⟨oa, ob, fa, fb, m, n, k, cls == 4⟩
    | _, _ => .error .slotKind

/-- The pairs of a cell; of mmas only those both of whose elements are present (R182). -/
def pairsOf (sparse : Bool) (as bs : List EspElem) : List (Val × Val) :=
  ((as.zip bs).filter (fun p => !sparse || (p.1.present && p.2.present))).map (fun p => (p.1.val, p.2.val))

/-- The prior value of a cell. -/
def priorOf (g : FDef) (acc : Bool) (cell : Word) : Val := if acc then decodeElem g (cell.toNat % 2 ^ g.w) else valZero false

/-- One cell of a product: its bits and flags. An operand that is no finite value where the cell holds an integer leaves
the cell a free value. -/
def productCell (s : State) (x : Product) (g : FDef) (acc : Bool) (cell : Word) (ps : List (Val × Val)) (rm : Round)
    (pos : Nat) : (Nat × Flags) × State :=
  if g.isInt then
    match integerSum x.fa x.fb ps with
    | some t => (integerCell (if acc then cell.toInt else 0) t, s)
    | none => (((s.pick (2 ^ 64)).1, 0), (s.pick (2 ^ 64)).2)
  else (floatCell g x.fused (priorOf g acc cell) ps rm pos, s)

/-- Cells `0, …, i - 1` of a product in row order: their bits, the flags of all, the state. -/
def productCells (x : Product) (g : FDef) (acc sparse : Bool) (t : Tile) (as bs : List (List EspElem)) (rm : Round)
    (phi : Nat) : List Nat → State → List (Nat × Word) × Flags × State
  | [], s => ([], 0, s)
  | i :: is, s =>
    let m := i / x.n
    let n := i % x.n
    let r := productCell s x g acc (t.cell (64 * m + n)) (pairsOf sparse (as.getD m []) (bs.getD n [])) rm (n % 32 + phi)
    let q := productCells x g acc sparse t as bs rm phi is r.2
    ((64 * m + n, BitVec.ofNat 64 r.1.1) :: q.1, r.1.2 ||| q.2.1, q.2.2)

/-- New cells over a tile's. -/
def withCells (t : Tile) (cs : List (Nat × Word)) : Tile :=
  let t := t.full
  { t with cells := cs.foldl (fun l c => setAt l c.1 c.2) t.cells }

/-- mma and mmas (R179, R182): the planes of B that a product reads are those of its slot (R177; DEDUCED, log 29). -/
def runProduct (s : State) (p : Pontil) (sparse : Bool) (d : AReg) (a b : QReg) (f : Slot) (rm : Round) (shape : Fin 32)
    (acc : Bool) : PRes :=
  match checkProduct p a b f shape with
  | .error c => .stop c p.pc
  | .ok x =>
    let g := fdefOf (p.fdef f.val)
    let ra := tileOperand s p.esp x.oa (planesOf x.fa) (footprint x.oa x.fa) x.m x.k
    let rb := tileOperand ra.2 p.esp x.ob (planesOf x.fb) (footprint x.ob x.fb) x.n x.k
    let t := p.tile d.val
    let r := productCells x g acc sparse t ra.1 rb.1 (effRm rm g) p.phi (List.range (x.m * x.n)) rb.2
    .done (r.2.2.count p.id.die.val (1028 + 8 * p.id.cluster.val) (planesOf x.fb)) ((p.setTile d (withCells t r.1)).mergeFlags r.2.1)
      false

def execMma (c : Common) (d : AReg) (a b : QReg) (f : Slot) (rm : Round) (shape : Fin 32) (acc : Bool) (s : State) : Out :=
  .next (runMatrix (.mma c d a b f rm shape acc) (fun p s => runProduct s p false d a b f rm shape acc) s)

def execMmas (c : Common) (d : AReg) (a b : QReg) (f : Slot) (rm : Round) (shape : Fin 32) (acc : Bool) (s : State) : Out :=
  .next (runMatrix (.mmas c d a b f rm shape acc) (fun p s => runProduct s p true d a b f rm shape acc) s)

/-! ## smrs (R183) -/

/-- A binary64 word as a value, and back. -/
def f2val (w : Word) : Val := decodeElem f2def w.toNat

/-- 2^x as a binary64 value within the bound of Table 7.10 under RNE, the same for one x; it need not be what fexp2 gives. -/
def powerOfTwo (x : Val) : Nat × Flags :=
  match x with
  | .num neg n _ e =>
    if n = 0 then Elementary.element .exp2 (fixedSlot 2) .rne x
    else Elementary.atFinite .exp2 (fixedSlot 2) .rne (2 * Elementary.argKey neg n e + 1) neg n e
  | v => Elementary.element .exp2 (fixedSlot 2) .rne v

/-- x − y without flags. -/
def difference (x y : Val) : Val := (valAdd false x y.negate).1

/-- One row of smrs: new rows of the two tiles, the maximum, the sum, the flags. -/
structure SoftRow where
  a : List Nat
  d : List Nat
  rmax : Nat
  rsum : Nat
  flags : Flags

/-- The maximum of values that are no NaN; −0 lies below +0 as in R122. -/
def maxVal (x : Val) (ys : List Val) : Val := ys.foldl (fun m y => if valBelow m y then y else m) x

/-- Encodings of a list; `pos` gives each column its position in the table of R54. -/
def encodeRow (g : FDef) (rm : Round) (pos : Nat → Nat) (vs : List (Val × Flags)) : List (Nat × Flags) :=
  ((List.range vs.length).zip vs).map (fun p => encodeWith g rm (pos p.1) p.2)

def flagsOf (xs : List (Nat × Flags)) : Flags := xs.foldl (fun f x => f ||| x.2) 0

/-- The scores t[n]. -/
def scoresOf (g : FDef) (c : Val) (as : List Nat) : List (Nat × Flags) :=
  as.map (fun x => encodeWith f2def .rne 0 (exactMul c (decodeElem g x)))

/-- A row with a NaN, or whose maximum is +∞. -/
def nanRow (g : FDef) (fl : Flags) : SoftRow :=
  let c := canonicalNan g
  ⟨List.replicate 64 c, List.replicate 64 c, canonicalNan f2def, canonicalNan f2def, fl ||| fInvalid⟩

/-- A row with a maximum below +∞; `ps` and `alpha` are binary64 values. -/
def softRow (g : FDef) (rm : Round) (posA posD : Nat → Nat) (mnew : Val) (alpha : Val) (ps : List Val) (rsum : Val) (ds : List Nat)
    (fl : Flags) : SoftRow :=
  let a := encodeRow g rm posA (ps.map (fun p => (p, 0)))
  let d := encodeRow g rm posD (ds.map (fun x => exactMul (decodeElem g x) alpha))
  let s0 := exactMul rsum alpha
  let sum := a.foldl (fun acc x => (valAdd false acc (decodeElem g x.1)).1) s0.1
  let r := encodeElem f2def sum .rne 0 false
  let m := encodeElem f2def mnew .rne 0 false
  ⟨a.map (·.1) ++ List.replicate (64 - a.length) 0, d.map (·.1), m.1, r.1,
   fl ||| flagsOf a ||| flagsOf d ||| s0.2 ||| r.2⟩

/-- smrs_row (R183). -/
def smrsRow (g : FDef) (rm : Round) (posA posD : Nat → Nat) (ns : Nat) (c : Val) (as ds : List Nat) (rmax rsum : Word) : SoftRow :=
  let ts := scoresOf g c (as.take ns)
  let tv := ts.map (fun x => decodeElem f2def x.1)
  let mold := f2val rmax
  let mnew := maxVal mold (tv.filter (fun v => !v.isNan))
  let fl := flagsOf ts
  if tv.any Val.isNan || mold.isNan || mnew == .inf false then nanRow g fl
  else if mnew == .inf true then
    softRow g rm posA posD mnew (valInt 1 0) (List.replicate ns (valZero false)) (f2val rsum) ds fl
  else
    let al := powerOfTwo (difference mold mnew)
    let ps := tv.map (fun t => powerOfTwo (difference t mnew))
    softRow g rm posA posD mnew (decodeElem f2def al.1) (ps.map (fun p => decodeElem f2def p.1)) (f2val rsum) ds
      (fl ||| al.2 ||| flagsOf ps)

/-- Row `m` of a tile as bits of the slot. -/
def tileRow (t : Tile) (g : FDef) (m : Nat) : List Nat := (List.range 64).map (fun n => (t.cell (64 * m + n)).toNat % 2 ^ g.w)

def wordsOf (xs : List Nat) : List Word := xs.map (BitVec.ofNat 64)

/-- smrs. The manual gives it no position for stochastic rounding (R54): there each position is a free value (DESIGN CHOICE, log 7). -/
def runSmrs (s : State) (p : Pontil) (d a : AReg) (b : QReg) (f : Slot) (rm : Round) (ns : Fin 64) : PRes :=
  let g := fdefOf (p.fdef f.val)
  let ta := p.tile a.val
  let td := p.tile d.val
  let pos := fun k => if effRm rm g = .rsr then Config.free (s.choice + k) else 0
  let s := if effRm rm g = .rsr then { s with choice := s.choice + 8192 } else s
  let rows := (List.range 64).map (fun m => smrsRow g (effRm rm g) (fun n => pos (128 * m + n))
    (fun n => pos (128 * m + 64 + n)) (ns.val + 1) (f2val (p.getQ b)) (tileRow ta g m) (tileRow td g m) (td.maxAt m)
    (td.sumAt m))
  let q := (p.setTile a { ta.full with cells := rows.flatMap (fun r => wordsOf r.a) }).setTile d
    ⟨rows.flatMap (fun r => wordsOf r.d), wordsOf (rows.map (·.rmax)), wordsOf (rows.map (·.rsum))⟩
  .done s (q.mergeFlags (rows.foldl (fun x r => x ||| r.flags) 0)) false

def execSmrs (c : Common) (d a : AReg) (b : QReg) (f : Slot) (rm : Round) (ns : Fin 64) (s : State) : Out :=
  .next (runMatrix (.smrs c d a b f rm ns) (fun p s => runSmrs s p d a b f rm ns) s)

/-- azero (R187). -/
def execAzero (c : Common) (d : AReg) (s : State) : Out :=
  .next (runMatrix (.azero c d) (fun p s => .done s (p.setTile d Tile.zero) false) s)

end Machine
end Sys2Proof
end

