-- ==== Sys2Proof/Machine/Drains.lean ====
section
/-! DEFINITION. Draining tiles (R184 to R186). -/

namespace Sys2Proof
namespace Machine

/-! ## Drain words (Table 9.5) -/

def drTile (d : Word) : Nat := wordField d 0 4
def drRows (d : Word) : Nat := wordField d 4 6 + 1
def drCols (d : Word) : Nat := wordField d 10 6 + 1
def drSlot (d : Word) : Nat := wordField d 16 2
def drRm (d : Word) : Round := roundOf (wordField d 18 3)
def drNorm (d : Word) : Bool := wordBit d 21
def drFull (d : Word) : Bool := wordBit d 22
def drStride (d : Word) : Nat := wordField d 24 24
def drBind (d : Word) : Nat := wordField d 48 6
def drFrac (d : Word) : Nat := wordField d 54 8

/-- A reserved field is not zero: ABIND counts in drn, CFRAC unless ASLOT is 1, where 255, which Table 9.5 leaves out, counts too
(DESIGN CHOICE, log 52). -/
def drReserved (d : Word) (merges : Bool) : Bool :=
  wordBit d 23 || wordField d 62 2 != 0 || (!merges && drBind d != 0) ||
  (if drSlot d = 1 then drFrac d == 255 else drFrac d != 0)

/-- pairs(ASLOT, F) (R185). -/
def drPairs (a : Nat) (f : FDef) : Bool := if a = 1 then f.isInt else !f.isInt

/-! ## The values of a row -/

/-- Cell (m, n) of the tile as it is drained, with the flags of its quotient. -/
def drainedVal (t : Tile) (d : Word) (a : FDef) (m n : Nat) : Val × Flags :=
  let x := (decodeElem a ((t.cell (64 * m + n)).toNat % 2 ^ a.w)).scale (-(drFrac d : Int))
  if drNorm d then exactDiv x (f2val (t.sumAt m)) else (x, 0)

def rowVals (t : Tile) (d : Word) (a : FDef) (m : Nat) : List (Val × Flags) :=
  (List.range (drCols d)).map (drainedVal t d a m)

/-- Elements of a row under a slot, one after another: patterns, width, flags. -/
structure RowImage where
  elems : List Nat
  w : Nat
  flags : Flags

def elemRow (f : FDef) (rm : Round) (phi : Nat) (vs : List (Val × Flags)) : RowImage :=
  let xs := encodeRow f rm (fun n => n % 32 + phi) vs
  ⟨xs.map (·.1), f.w, flagsOf xs⟩

/-- The blocks of a row. -/
def blockRow (f : FDef) (rm : Round) (phi : Nat) (vs : List (Val × Flags)) : RowImage :=
  let bs := (List.range (vs.length / 32)).map (fun j => packBlock f ((vs.drop (32 * j)).take 32) rm phi)
  ⟨bs.map (·.1), f.blockBits, flagsOf bs⟩

def rowImage (f : FDef) (rm : Round) (phi : Nat) (vs : List (Val × Flags)) : RowImage :=
  if f.isBlock then blockRow f rm phi vs else elemRow f rm phi vs

/-- The values a row writes, as rounded into the slot: what its patterns stand for, which no input flushing touches (R53, R186). -/
def writtenVals (f : FDef) (r : RowImage) : List Val :=
  if f.isBlock then r.elems.flatMap (fun b => (List.range 32).map (blockElem f b))
  else r.elems.map (decodeElem { f with sub := 0 })

/-- A row as one number. -/
def RowImage.bits (r : RowImage) : Nat := r.elems.foldr (fun x acc => x % 2 ^ r.w + 2 ^ r.w * acc) 0

/-! ## Writing rows -/

/-- Some bits of a byte: address, the bits that are written, their values. -/
structure BitPart where
  va : Nat
  mask : Nat
  val : Nat
  deriving DecidableEq, Repr

/-- The bytes of a row that starts at bit `lo`, each at swz of its offset. -/
def rowParts (d : Bound) (lo : Nat) (r : RowImage) : List BitPart :=
  let n := r.elems.length * r.w
  let x := r.bits * 2 ^ (lo % 8)
  let ones := (2 ^ n - 1) * 2 ^ (lo % 8)
  (rowBytes lo n).map (fun o => ⟨d.base + d.swz o, natField ones (8 * (o - lo / 8)) 8, natField x (8 * (o - lo / 8)) 8⟩)

/-- Cut parts into accesses: bytes of one aligned 8-byte word that follow one another. -/
def cutParts : List BitPart → List BitPart → List (List BitPart)
  | [], acc => if acc.isEmpty then [] else [acc.reverse]
  | p :: ps, acc => match acc with
    | q :: _ => if q.va / 8 = p.va / 8 then cutParts ps (p :: acc) else acc.reverse :: cutParts ps [p]
    | [] => cutParts ps [p]

/-- A list in some order: each element goes to a free position. -/
def shuffled {α : Type} : List α → State → List α × State
  | [], s => ([], s)
  | x :: xs, s =>
    let r := shuffled xs s
    let k := r.2.pick (r.1.length + 1)
    (r.1.take k.1 ++ x :: r.1.drop k.1, k.2)

/-- The places of parts. -/
def partPlaces (s : State) (ctx : Nat) : List BitPart → Except Code (List Place × State)
  | [] => .ok ([], s)
  | p :: ps => match places s ctx p.va 1 with
    | .error c => .error c
    | .ok (q, s) => match partPlaces s ctx ps with
      | .error c => .error c
      | .ok (qs, s) => .ok (q ++ qs, s)

/-- The byte a part leaves over the byte that stands there. -/
def BitPart.over (p : BitPart) (b : Byte) : Byte := BitVec.ofNat 8 ((b.toNat &&& (255 - p.mask)) ||| (p.val &&& p.mask))

/-- Write one access of a drain. -/
def writeDrain (s : State) (bd : Binder) (w : Writer) (v : MemView) (reach : Reach) (ps : List BitPart) : State × MemView :=
  match ps, partPlaces s bd.ctx ps with
  | p :: _, .ok (qs, s) =>
    storeBytes (notePage s bd.agent.die? p.va) w v reach true p.va qs
      ((ps.zip (latestBytes s qs)).map (fun p => p.1.over p.2))
  | _, _ => (s, v)

def writeAll (bd : Binder) (w : Writer) (reach : Reach) : List (List BitPart) → State → MemView → State × MemView
  | [], s, v => (s, v)
  | ps :: rest, s, v =>
    let r := writeDrain s bd w v reach ps
    writeAll bd w reach rest r.1 r.2

/-- The elements of rows through an alias, each a read-modify-write of its block (R67). -/
def writeAlias (bd : Binder) (d : Bound) (w : Writer) : List (Nat × Nat) → State → MemView → Except Code (State × MemView)
  | [], s, v => .ok (s, v)
  | x :: xs, s, v => match writeElem s bd w v .now d x.1 16 x.2 with
    | .error c => .error c
    | .ok (s, v) => writeAlias bd d w xs s v

/-! ## drn -/

/-- A drain that has passed its checks. -/
structure Drain where
  d : Word
  f : FDef
  a : FDef
  rm : Round
  bd : Binder
  b : Bound
  rows : Rows

/-- The rows of a drain as images. -/
def Drain.images (x : Drain) (p : Pontil) : List RowImage :=
  (List.range (drRows x.d)).map (fun m => rowImage x.f x.rm p.phi (rowVals (p.tile (drTile x.d)) x.d x.a m))

/-- The first bit of a row. -/
def Drain.bit (x : Drain) (m : Nat) : Nat := (x.rows.at' m).toNat

/-- The accesses of a drain into a buffer that is no alias. -/
def Drain.parts (x : Drain) (rs : List RowImage) : List (List BitPart) :=
  ((List.range rs.length).zip rs).flatMap (fun p => cutParts (rowParts x.b (x.bit p.1) p.2) [])

/-- The elements of a drain into an alias. -/
def Drain.aliasElems (x : Drain) (rs : List RowImage) : List (Nat × Nat) :=
  ((List.range rs.length).zip rs).flatMap (fun p =>
    ((List.range p.2.elems.length).zip p.2.elems).map (fun q => (x.bit p.1 + 16 * q.1, q.2)))

/-- Rows share bytes, so that the order of writes shows. -/
def Drain.overlaps (x : Drain) : Bool := decide (x.rows.pitch < x.rows.n)

/-- The bytes an alias drain touches are those of its blocks. -/
def Drain.touched (x : Drain) (rs : List RowImage) : List BitPart :=
  if x.b.mxk = 0 then (x.parts rs).flatten
  else (x.aliasElems rs).flatMap (fun e => (aliasBytes x.b e.1).map (fun o => ⟨x.b.base + o, 255, 0⟩))

/-- The checks of R185, in order, up to the page kinds. -/
def checkDrain (s : State) (p : Pontil) (merges : Bool) (q : QReg) (m : QMemOp) : Except Code (Drain × State) :=
  let d := p.getQ q
  if drReserved d merges then .error .descField
  else match p.slot m.slot.val with
    | .error c => .error c
    | .ok f =>
      if drSlot d = 0 ∨ !(drPairs (drSlot d) f) then .error .slotKind
      else if f.isBlock && drCols d % 32 != 0 then .error .shapeIllegal
      else
        let bd := binderOfPontil s p
        match bufferFor s bd m.bind.val f with
        | .error c => .error c
        | .ok (b, s) =>
          let rows := rowsOf f (p.elem m) (drStride d) (drRows d) (drCols d)
          match checkRows b rows { w := true } (drRows d) with
          | .error c => .error c
          | .ok _ =>
            if drFull d && !(inWindow b.base) then .error .feKind
            else match checkPeers s b with
              | .error c => .error c
              | .ok _ => .ok (⟨d, f, fdefOf (p.fdef (drSlot d)), effRm (drRm d) f, bd, b, rows⟩, s)

/-- What a drain's release makes visible: what the context has seen and what its drains wrote. -/
def drainRel (s : State) (p : Pontil) (sc : Scope) : Rel := relOf s (.pontil p.id) sc p.allView

/-- Perform a drain's writes: the state, and the context with what it has drained. The writes have no order among themselves (R185),
which shows where rows share bytes and, through an alias, in every block, since each write rescales it (R67; DEDUCED, log 52). The
context's own ocld may miss them (R213). -/
def performDrain (s : State) (p : Pontil) (x : Drain) (rs : List RowImage) (m : QMemOp) : Except Code (State × Pontil) :=
  let w : Writer := ⟨.pontil p.id, none, false, [], if m.order.isRelease then some (drainRel s p m.scope) else none⟩
  let done : Except Code (State × MemView) :=
    if x.b.mxk = 0 then
      let ps := if x.overlaps then shuffled (x.parts rs) s else (x.parts rs, s)
      .ok (writeAll x.bd w (reachOf (m.evict == 3)) ps.1 ps.2 p.drained)
    else
      let es := shuffled (x.aliasElems rs) s
      writeAlias x.bd x.b w es.1 es.2 p.drained
  match done with
  | .error c => .error c
  | .ok (z, v) => .ok (lateParts z s.nextWrite true, { p with drained := v })

/-- The granules a drain touches. -/
def drainGranules (s : State) (x : Drain) (rs : List RowImage) : List Nat :=
  (x.touched rs).foldl (fun acc p =>
    if vaModule p.va = s.module.toNat then
      (let g := granuleOf (sramLoc (vaDie p.va) (vaOfs p.va - windowBase))
       if acc.contains g then acc else acc ++ [g])
    else acc) []

/-- After a drain's writes: full bits, the phase of stochastic rounding, the flags. -/
def settleDrain (s : State) (p : Pontil) (x : Drain) (rs : List RowImage) (sc : Scope) : State × Pontil :=
  let s := s.count p.id.die.val (1024 + 8 * p.id.cluster.val + 5) (x.touched rs).length
  let s := if drFull x.d then
      (drainGranules s x rs).foldl (fun s g => setFull s (.pontil p.id) g [drainRel s p sc]) s
    else s
  (s, { p with phi := (p.phi + 13) % 32, flags := rs.foldl (fun f r => f ||| r.flags) p.flags })

/-- A 32-bit unsigned element, as which the patterns of binary32 are ordered. -/
def word32 : FDef := ⟨2, 1, 0, 31, 0, 0, 0, 0, false, 1, 0⟩

/-- The maximum word of drnm: element q[D + 1] of f3 in binding ABIND. -/
def maxTarget (s : State) (p : Pontil) (q : QReg) : Except Code (Target × State) :=
  let bd := binderOfPontil s p
  match bufferFor s bd (drBind (p.getQ q)) word32 with
  | .error c => .error c
  | .ok (b, s) =>
    let e := (p.getQ (q + 1)).toInt
    match checkSpan b (e * 32) 32 { a := true } with
    | .error c => .error c
    | .ok _ => .ok (⟨bd, b, (e * 32).toNat, word32⟩, s)

/-- The word a merge names lies behind a path, a die or a port that does not answer (R280, R307, R310). -/
def maxWaits (s : State) (p : Pontil) (q : QReg) : Bool :=
  match maxTarget s p q with
  | .ok (t, s) => spanWaits s true t.bd.ctx (t.d.span t.lo t.f.w).1 (t.d.span t.lo t.f.w).2
  | .error _ => false

/-- A drain with what follows its writes; `k` is that of drnm. -/
def runDrain (s : State) (p : Pontil) (merges : Bool) (q : QReg) (m : QMemOp)
    (check : State → Except (Code × Word) State) (k : List Val → State → Pontil → PRes) : PRes :=
  match checkDrain s p merges q m with
  | .error c => .stop c p.pc
  | .ok (x, s) =>
    let rs := x.images p
    match partPlaces s x.bd.ctx (x.touched rs) with
    | .error c => .stop c p.pc
    | .ok (ps, s) =>
      if anyUo ps && (m.order != .plain || drFull x.d) then .stop .orderKind p.pc
      else match check s with
        | .error c => .stop c.1 c.2
        | .ok s =>
          if pathWaits s x.b || (merges && maxWaits s p q) then .wait s p
          else match blocked s true ps with
            | some s => .wait s p
            | none => match farCode s x.b.base ps false (m.order != .plain || drFull x.d) with
              | (some c, _) => .stop c p.pc
              | (none, s) => match performDrain s p x rs m with
                | .error c => .stop c p.pc
                | .ok (s, p) =>
                  let r := settleDrain s p x rs m.scope
                  k (rs.flatMap (writtenVals x.f)) r.1 r.2

def execDrn (c : Common) (d : QReg) (m : QMemOp) (s : State) : Out :=
  .next (runMatrix (.drn c d m) (fun p s => runDrain s p false d m .ok (fun _ s p => .done s p false)) s)

/-! ## drnm (R186) -/

/-- The checks of R147 of the merge, an unsigned maximum of 32-bit words, which a native path carries (Table 18.8). -/
def checkMax (p : Pontil) (q : QReg) (sc : Scope) (s : State) : Except (Code × Word) State :=
  match maxTarget s p q with
  | .error c => .error (c, p.pc)
  | .ok (t, s) => match checkAtomic s t sc with
    | .error c => .error (c, p.pc)
    | .ok (ps, s) =>
      if anyPoison s ps then .error (.memPoison, poisonDetail t)
      else match farCode s t.d.base ps true true with
        | (some c, _) => .error (c, if c = .memPoison then poisonDetail t else p.pc)
        | (none, s) => .ok s

/-- a = encode(f3, max |x|, toward +∞); a NaN gives the canonical NaN. -/
def maxPatternOf (vs : List Val) : Nat :=
  if vs.any Val.isNan then 0x7FC00000
  else (encodeElem f3def (maxVal (valZero false) (vs.map Val.abs)) .rup 0 false).1

/-- The merge, an atomic unsigned maximum. -/
def mergeMax (s : State) (p : Pontil) (q : QReg) (m : QMemOp) (vs : List Val) : PRes :=
  match maxTarget s p q with
  | .error c => .stop c p.pc
  | .ok (t, s) => match checkAtomic s t m.scope with
    | .error c => .stop c p.pc
    | .ok (ps, s) =>
      let r := atomStep s .max t m.scope m.order (m.evict == 3) ps (maxPatternOf vs) 0
        (if m.order.isRelease then p.allView else p.view)
      .done r.2.2.1 { p with view := arrivedView p r.2.2.2 } false

def execDrnm (c : Common) (d : QReg) (m : QMemOp) (s : State) : Out :=
  .next (runMatrix (.drnm c d m) (fun p s =>
    runDrain s p true d m (checkMax p d m.scope) (fun vs s p => mergeMax s p d m vs)) s)

end Machine
end Sys2Proof
end

