-- ==== Sys2Proof/Machine/Format.lean ====
section
/-! DEFINITION. Format arithmetic, conversions, transcendentals, blocks and format slots (R119 to R134). -/

namespace Sys2Proof
namespace Machine

/-! ## Elements of a register -/

/-- A register of a slot, element by element, with the flags of all of them (R119). -/
def elements (f : FDef) (n : Nat) (g : Nat → Nat × Flags) : Word × Flags :=
  let es := (List.range n).map g
  (BitVec.ofNat 64 (packElems f (es.map (·.1))), es.foldl (fun acc e => acc ||| e.2) 0)

/-- The latency of a fixed result by the width of its slot (Table 3.5). -/
def fmtLatency (f : FDef) : Nat := if f.w ≤ 32 then 6 else 8

/-- A result of the format group. -/
def fmtResult (s : State) (fixedResult : Bool) (f : FDef) (w : RegWrite) (fl : Flags) : MRes :=
  .done s { lat := if fixedResult then some (fmtLatency f) else none, writes := [w], flags := fl, flagged := true }

/-- The slot of a word, with the checks of R106 and R119. -/
def fmtSlot (x : Member) (fs : Slot) (accepts : Nat → Bool) (m : Mods) : Except Code FDef :=
  match slotOf x.wg.fmts fs accepts with
  | .error c => .error c
  | .ok f => if signsOf m && f.kind != 0 then .error .slotKind else .ok f

/-- The position of element `e` under RSR (R54). -/
def fmtPos (x : Member) (f : FDef) (e : Nat) : Nat := f.lanes * x.t.lane + e

/-- An instruction of the format group: `g` gives each element from its index and effective rounding. -/
def fmtOp (x : Member) (s : State) (d : VReg) (fs : Slot) (accepts : Nat → Bool) (rm : Round) (m : Mods)
    (fixedResult : Bool) (g : FDef → Round → Nat → Nat × Flags) : MRes :=
  match fmtSlot x fs accepts m with
  | .error c => .trap c x.t.pc
  | .ok f =>
    let r := elements f f.lanes (g f (effRm rm f))
    fmtResult s (fixedResult && !(crossedOf m)) f (.v d r.1) r.2

/-- Element `e` of a register's value, decoded and modified as operand `k`. -/
def operand (f : FDef) (m : Mods) (k : Nat) (w : Word) (e : Nat) : Val :=
  applyMods m k (decodeElem f (elemOf f w.toNat e))

/-- An operation of one, two or three operands. -/
def fmt1 (x : Member) (s : State) (d a : VReg) (fs : Slot) (accepts : Nat → Bool) (rm : Round) (m : Mods)
    (fixedResult : Bool) (op : Round → Val → Val × Flags) : MRes :=
  let wa := x.opA a m
  fmtOp x s d fs accepts rm m fixedResult (fun f rm e =>
    encodeWith f rm (fmtPos x f e) (op rm (operand f m 0 wa e)))

def fmt2 (x : Member) (s : State) (d a b : VReg) (fs : Slot) (accepts : Nat → Bool) (rm : Round) (m : Mods)
    (fixedResult : Bool) (op : Round → Val → Val → Val × Flags) : MRes :=
  let wa := x.opA a m
  let wb := x.opB b m
  fmtOp x s d fs accepts rm m fixedResult (fun f rm e =>
    encodeWith f rm (fmtPos x f e) (op rm (operand f m 0 wa e) (operand f m 1 wb e)))

def fmt3 (x : Member) (s : State) (d a b k : VReg) (fs : Slot) (rm : Round) (m : Mods)
    (op : Round → Val → Val → Val → Val × Flags) : MRes :=
  let wa := x.opA a m
  let wb := x.opB b m
  let wk := x.t.readV k
  fmtOp x s d fs kinds04 rm m true (fun f rm e =>
    encodeWith f rm (fmtPos x f e) (op rm (operand f m 0 wa e) (operand f m 1 wb e) (operand f m 2 wk e)))

/-- A transcendental (R129). -/
def fmtTransc (x : Member) (s : State) (d a : VReg) (fs : Slot) (rm : Round) (m : Mods) (fn : Transc) : MRes :=
  let wa := x.opA a m
  let word := slotWord x.wg.fmts fs
  fmtOp x s d fs kind0 rm m false (fun f rm e =>
    Elementary.element fn word rm (operand f m 0 wa e))

/-! ## Arithmetic (R120, R121) -/

def execFadd (c : Common) (d a b : VReg) (f : Slot) (rm : Round) (m : Mods) (s : State) : Out :=
  .next (runCore (.fadd c d a b f rm m) (fun x s => fmt2 x s d a b f kinds04 rm m true exactAdd) s)

def execFsub (c : Common) (d a b : VReg) (f : Slot) (rm : Round) (m : Mods) (s : State) : Out :=
  .next (runCore (.fsub c d a b f rm m) (fun x s => fmt2 x s d a b f kinds04 rm m true exactSub) s)

def execFmul (c : Common) (d a b : VReg) (f : Slot) (rm : Round) (m : Mods) (s : State) : Out :=
  .next (runCore (.fmul c d a b f rm m) (fun x s => fmt2 x s d a b f kinds04 rm m true (fun _ => exactMul)) s)

def execFfma (c : Common) (d a b k : VReg) (f : Slot) (rm : Round) (m : Mods) (s : State) : Out :=
  .next (runCore (.ffma c d a b k f rm m) (fun x s => fmt3 x s d a b k f rm m exactFma) s)

def execFdiv (c : Common) (d a b : VReg) (f : Slot) (rm : Round) (m : Mods) (s : State) : Out :=
  .next (runCore (.fdiv c d a b f rm m) (fun x s => fmt2 x s d a b f kind0 rm m false (fun _ => exactDiv)) s)

def execFsqrt (c : Common) (d a : VReg) (f : Slot) (rm : Round) (m : Mods) (s : State) : Out :=
  .next (runCore (.fsqrt c d a f rm m) (fun x s => fmt1 x s d a f kind0 rm m false (fun _ => exactSqrt)) s)

def execFrcp (c : Common) (d a : VReg) (f : Slot) (rm : Round) (m : Mods) (s : State) : Out :=
  .next (runCore (.frcp c d a f rm m) (fun x s => fmt1 x s d a f kind0 rm m false (fun _ => exactDiv (.num false 1 1 0))) s)

/-! ## Choices, comparisons, classes, signs and integers (R122 to R127) -/

def execFlim (c : Common) (d a b : VReg) (f : Slot) (t : FLim) (s : State) : Out :=
  .next (runCore (.flim c d a b f t) (fun x s =>
    let wa := x.t.readV a
    let wb := x.t.readV b
    fmtOp x s d f kinds04 .slotDefault (.source 0) true (fun f _ e =>
      flimElem f t (elemOf f wa.toNat e) (elemOf f wb.toNat e))) s)

def execFcmp (c : Common) (d : PReg) (a b : VReg) (f : Slot) (t : FTest) (s : State) : Out :=
  .next (runCore (.fcmp c d a b f t) (fun x s =>
    match fmtSlot x f kinds04 (.source 0) with
    | .error e => .trap e x.t.pc
    | .ok f =>
      let r := fcmpVal t (operand f (.source 0) 0 (x.t.readV a) 0) (operand f (.source 0) 0 (x.t.readV b) 0)
      fmtResult s true f (.p d r.1) r.2) s)

def execFclass (c : Common) (d a : VReg) (f : Slot) (s : State) : Out :=
  .next (runCore (.fclass c d a f) (fun x s =>
    match fmtSlot x f kind0 (.source 0) with
    | .error e => .trap e x.t.pc
    | .ok f => fmtResult s true f (.v d (BitVec.ofNat 64 (2 ^ fclassOf f (elemOf f (x.t.readV a).toNat 0)))) 0) s)

def execFsgn (c : Common) (d a : VReg) (f : Slot) (t : FSgn) (s : State) : Out :=
  .next (runCore (.fsgn c d a f t) (fun x s =>
    match fmtSlot x f kind0 (.source 0) with
    | .error e => .trap e x.t.pc
    | .ok f =>
      if f.s = 0 then .trap .slotKind x.t.pc
      else
        let wa := x.t.readV a
        let wb := match t with
          | .cps b | .xsgn b => x.t.readV b
          | .abs | .neg => 0
        let r := elements f f.lanes (fun e =>
          let ea := elemOf f wa.toNat e
          let sa := signOf f ea
          let sb := signOf f (elemOf f wb.toNat e)
          (fsgnElem f ea (match t with
            | .abs => false
            | .neg => !sa
            | .cps _ => sb
            | .xsgn _ => sa != sb), 0))
        fmtResult s true f (.v d r.1) 0) s)

def execFrnd (c : Common) (d a : VReg) (f : Slot) (rm : Round) (exact : Bool) (s : State) : Out :=
  .next (runCore (.frnd c d a f rm exact) (fun x s =>
    let wa := x.t.readV a
    fmtOp x s d f kind0 rm (.source 0) true (fun f rm e =>
      frndElem f (elemOf f wa.toNat e) rm exact (fmtPos x f e))) s)

/-- fscale (R127): n is the whole of operand B, signed; beyond ±2^18 every scaling of a slot overflows or is tiny in the
same way. (DEDUCED, log 42) -/
def execFscale (c : Common) (d a b : VReg) (f : Slot) (rm : Round) (m : Mods) (s : State) : Out :=
  .next (runCore (.fscale c d a b f rm m) (fun x s =>
    let n := clampInt (-262144) 262144 (x.opB b m).toInt
    fmt1 x s d a f kind0 rm m true (fun _ v => (v.scale n, signal [v]))) s)

/-- cvt (R128): elements that both slots have are converted, the rest of the destination are zero patterns. -/
def execCvt (c : Common) (d a : VReg) (f g : Slot) (rm : Round) (s : State) : Out :=
  .next (runCore (.cvt c d a f g rm) (fun x s =>
    match fmtSlot x f kinds04 (.source 0), fmtSlot x g kinds04 (.source 0) with
    | .ok f, .ok g =>
      let wa := x.t.readV a
      let r := elements f (min f.lanes g.lanes) (fun e =>
        cvtElem g f (elemOf g wa.toNat e) (effRm rm f) (fmtPos x f e))
      fmtResult s true f (.v d r.1) r.2
    | _, _ => .trap .slotKind x.t.pc) s)

/-! ## Transcendentals (R129) -/

def execFexp2 (c : Common) (d a : VReg) (f : Slot) (rm : Round) (m : Mods) (s : State) : Out :=
  .next (runCore (.fexp2 c d a f rm m) (fun x s => fmtTransc x s d a f rm m .exp2) s)

def execFlog2 (c : Common) (d a : VReg) (f : Slot) (rm : Round) (m : Mods) (s : State) : Out :=
  .next (runCore (.flog2 c d a f rm m) (fun x s => fmtTransc x s d a f rm m .log2) s)

def execFexp (c : Common) (d a : VReg) (f : Slot) (rm : Round) (m : Mods) (s : State) : Out :=
  .next (runCore (.fexp c d a f rm m) (fun x s => fmtTransc x s d a f rm m .exp) s)

def execFlog (c : Common) (d a : VReg) (f : Slot) (rm : Round) (m : Mods) (s : State) : Out :=
  .next (runCore (.flog c d a f rm m) (fun x s => fmtTransc x s d a f rm m .log) s)

def execFrsqrt (c : Common) (d a : VReg) (f : Slot) (rm : Round) (m : Mods) (s : State) : Out :=
  .next (runCore (.frsqrt c d a f rm m) (fun x s => fmtTransc x s d a f rm m .rsqrt) s)

def execFsin (c : Common) (d a : VReg) (f : Slot) (rm : Round) (m : Mods) (s : State) : Out :=
  .next (runCore (.fsin c d a f rm m) (fun x s => fmtTransc x s d a f rm m .sin) s)

def execFcos (c : Common) (d a : VReg) (f : Slot) (rm : Round) (m : Mods) (s : State) : Out :=
  .next (runCore (.fcos c d a f rm m) (fun x s => fmtTransc x s d a f rm m .cos) s)

def execFtanh (c : Common) (d a : VReg) (f : Slot) (rm : Round) (m : Mods) (s : State) : Out :=
  .next (runCore (.ftanh c d a f rm m) (fun x s => fmtTransc x s d a f rm m .tanh) s)

def execFerf (c : Common) (d a : VReg) (f : Slot) (rm : Round) (m : Mods) (s : State) : Out :=
  .next (runCore (.ferf c d a f rm m) (fun x s => fmtTransc x s d a f rm m .erf) s)

/-! ## Blocks (R130 to R132) -/

/-- The operand of source lane `j`: the reader's own value as it reads it, another thread's, or zero with no thread. -/
def blockSource (x : Member) (a : VReg) (j : Nat) : Word :=
  if j = x.t.lane then x.t.readV a
  else match x.wg.thread? (32 * x.t.warp + j) with
    | some u => if a = 0xFF then 0 else u.getV a
    | none => 0

/-- Bytes of a block image. -/
def blockBytes (f : FDef) : Nat := f.blockBits / 8

def execBpack (c : Common) (d a : VReg) (f : Slot) (rm : Round) (s : State) : Out :=
  .next (runCore (.bpack c d a f rm) (fun x s =>
    match fmtSlot x f kindsBlock (.source 0) with
    | .error e => .trap e x.t.pc
    | .ok f =>
      let u := (List.range 32).map (fun j => (decodeElem f2def (blockSource x a j).toNat, 0))
      let r := packBlock f u (effRm rm f) 0
      let mine := ((List.range 3).map (fun q => x.t.lane + 32 * q)).filter (fun k => decide (k < blockBytes f))
      fmtResult s false f (.v d (BitVec.ofNat 64 (ofBytes (mine.map (fun k => BitVec.ofNat 8 (natField r.1 (8 * k) 8))))))
        r.2) s)

def execBunpack (c : Common) (d a : VReg) (f : Slot) (s : State) : Out :=
  .next (runCore (.bunpack c d a f) (fun x s =>
    match fmtSlot x f kindsBlock (.source 0) with
    | .error e => .trap e x.t.pc
    | .ok f =>
      let img := ofBytes ((List.range (blockBytes f)).map (fun k =>
        BitVec.ofNat 8 (natField (blockSource x a (k % 32)).toNat (8 * (k / 32)) 8)))
      fmtResult s false f (.v d (BitVec.ofNat 64 (toBinary64 (blockElem f img x.t.lane)).1)) 0) s)

/-! ## Format slots (R133, R134) -/

/-- setfmt: the definition governs later gangs. Word checks keep `f` from 4 to 15. -/
def execSetfmt (c : Common) (a : VReg) (f : Slot) (s : State) : Out :=
  .next (runCore (.setfmt c a f) (fun x s =>
    let w := x.t.readV a
    if !(fdefLegal w) then .trap .formatIllegal x.t.pc
    else match s.wg? x.wg.uid with
      | some g => .done (s.setWg { g with fmts := setAt g.fmts (f.val - 4) w }) {}
      | none => .done s {}) s)

def execGetfmt (c : Common) (d : VReg) (f : Slot) (s : State) : Out :=
  .next (runCore (.getfmt c d f) (fun x s =>
    let w := slotWord x.wg.fmts f
    fixed s (if (fdefOf w).w ≤ 32 then 6 else 8) [.v d w]) s)

end Machine
end Sys2Proof
end

