-- ==== Sys2Proof/Machine/Integer.lean ====
section
/-! DEFINITION. Integer and address instructions, constants and special registers (R116 to R118). -/

namespace Sys2Proof
namespace Machine

/-! ## Effects on whole registers (Table 7.3) -/

/-- Bits 127:64 of a product. -/
def mulHigh (sg : Signed) (a b : Word) : Word :=
  match sg with
  | .signed => BitVec.ofInt 64 (a.toInt * b.toInt / 2 ^ 64)
  | .unsigned => BitVec.ofNat 64 (a.toNat * b.toNat / 2 ^ 64)

def shiftLeft (a b : Word) : Word := if b.toNat < 64 then a <<< b.toNat else 0

def shiftRight (sg : Signed) (a b : Word) : Word :=
  match sg with
  | .unsigned => if b.toNat < 64 then a >>> b.toNat else 0
  | .signed => a.sshiftRight (min b.toNat 63)

def rotateLeft (a b : Word) : Word := a.rotateLeft (b.toNat % 64)

def intTest (t : ITest) (a b : Word) : Bool :=
  match t with
  | .eq => a == b
  | .ne => a != b
  | .lt => a.slt b
  | .le => a.sle b
  | .gt => b.slt a
  | .ge => b.sle a
  | .ltu => a.ult b
  | .leu => a.ule b
  | .gtu => b.ult a
  | .geu => b.ule a

def intLimit (t : ILim) (a b : Word) : Word :=
  match t with
  | .min => if a.sle b then a else b
  | .max => if a.sle b then b else a
  | .minu => if a.ule b then a else b
  | .maxu => if a.ule b then b else a

/-- Set bits of a number below 2^n. -/
def popCount (n x : Nat) : Nat := ((List.range n).filter (fun i => x.testBit i)).length

def bitCount (t : IBit) (a : Word) : Word :=
  match t with
  | .popc => BitVec.ofNat 64 (popCount 64 a.toNat)
  | .clz => BitVec.ofNat 64 ((findBelow 64 (fun i => a.getLsbD (63 - i))).getD 64)
  | .ctz => BitVec.ofNat 64 ((findBelow 64 (fun i => a.getLsbD i)).getD 64)
  | .brev => a.reverse

/-- The field of bfx and bfi: its lowest bit, and its width cut at bit 63. -/
def fieldAt (b k : Word) : Nat × Nat := (min b.toNat 64, min k.toNat (64 - min b.toNat 64))

def bitExtract (sg : Signed) (a b k : Word) : Word :=
  let q := (fieldAt b k).1
  let n := (fieldAt b k).2
  let x := natField a.toNat q n
  if n = 0 then 0
  else match sg with
  | .unsigned => BitVec.ofNat 64 x
  | .signed => BitVec.ofInt 64 (signedOf n x)

def bitInsert (old a b k : Word) : Word :=
  let q := (fieldAt b k).1
  let n := (fieldAt b k).2
  BitVec.ofNat 64 (old.toNat - natField old.toNat q n * 2 ^ q + natField a.toNat 0 n * 2 ^ q)

def intUnary (t : IUn) (a : Word) : Word :=
  match t with
  | .neg => -a
  | .abs => if a.slt 0 then -a else a

/-! ## Results -/

/-- A result of the integer group: ready after 4 cycles, scoreboarded when an operand is taken across lanes. -/
def intResult (s : State) (m : Mods) (d : VReg) (x : Word) : MRes :=
  if crossedOf m then late s [.v d x] else fixed s 4 [.v d x]

/-! ## Meanings -/

/-- nop: a thread or a pontil goes on. -/
def execNop (c : Common) (s : State) : Out :=
  .next (runShared (.nop c) (fun _ s => .done s {}) (fun p s => .done s p false) s)

def execIadd (c : Common) (d a b : VReg) (m : Mods) (s : State) : Out :=
  .next (runCore (.iadd c d a b m) (fun x s => intResult s m d (x.opA a m + x.opB b m)) s)

def execIsub (c : Common) (d a b : VReg) (m : Mods) (s : State) : Out :=
  .next (runCore (.isub c d a b m) (fun x s => intResult s m d (x.opA a m - x.opB b m)) s)

def execImul (c : Common) (d a b : VReg) (m : Mods) (s : State) : Out :=
  .next (runCore (.imul c d a b m) (fun x s => intResult s m d (x.opA a m * x.opB b m)) s)

def execImulh (c : Common) (d a b : VReg) (sg : Signed) (s : State) : Out :=
  .next (runCore (.imulh c d a b sg) (fun x s => fixed s 4 [.v d (mulHigh sg (x.t.readV a) (x.t.readV b))]) s)

def execImad (c : Common) (d a b k : VReg) (m : Mods) (s : State) : Out :=
  .next (runCore (.imad c d a b k m) (fun x s => intResult s m d (x.opA a m * x.opB b m + x.t.readV k)) s)

def execIand (c : Common) (d a b : VReg) (m : Mods) (s : State) : Out :=
  .next (runCore (.iand c d a b m) (fun x s => intResult s m d (x.opA a m &&& x.opB b m)) s)

def execIor (c : Common) (d a b : VReg) (m : Mods) (s : State) : Out :=
  .next (runCore (.ior c d a b m) (fun x s => intResult s m d (x.opA a m ||| x.opB b m)) s)

def execIxor (c : Common) (d a b : VReg) (m : Mods) (s : State) : Out :=
  .next (runCore (.ixor c d a b m) (fun x s => intResult s m d (x.opA a m ^^^ x.opB b m)) s)

def execIandn (c : Common) (d a b : VReg) (m : Mods) (s : State) : Out :=
  .next (runCore (.iandn c d a b m) (fun x s => intResult s m d (x.opA a m &&& ~~~(x.opB b m))) s)

def execIshl (c : Common) (d a b : VReg) (m : Mods) (s : State) : Out :=
  .next (runCore (.ishl c d a b m) (fun x s => intResult s m d (shiftLeft (x.opA a m) (x.opB b m))) s)

def execIshr (c : Common) (d a b : VReg) (sg : Signed) (s : State) : Out :=
  .next (runCore (.ishr c d a b sg) (fun x s => fixed s 4 [.v d (shiftRight sg (x.t.readV a) (x.t.readV b))]) s)

def execIrot (c : Common) (d a b : VReg) (m : Mods) (s : State) : Out :=
  .next (runCore (.irot c d a b m) (fun x s => intResult s m d (rotateLeft (x.opA a m) (x.opB b m))) s)

def execIcmp (c : Common) (d : PReg) (a b : VReg) (t : ITest) (s : State) : Out :=
  .next (runCore (.icmp c d a b t) (fun x s => fixed s 4 [.p d (intTest t (x.t.readV a) (x.t.readV b))]) s)

def execIlim (c : Common) (d a b : VReg) (t : ILim) (s : State) : Out :=
  .next (runCore (.ilim c d a b t) (fun x s => fixed s 4 [.v d (intLimit t (x.t.readV a) (x.t.readV b))]) s)

def execIsel (c : Common) (d a b : VReg) (p : PReg) (s : State) : Out :=
  .next (runCore (.isel c d a b p)
    (fun x s => fixed s 4 [.v d (if x.t.readP p then x.t.readV a else x.t.readV b)]) s)

def execIbit (c : Common) (d a : VReg) (t : IBit) (s : State) : Out :=
  .next (runCore (.ibit c d a t) (fun x s => fixed s 4 [.v d (bitCount t (x.t.readV a))]) s)

def execBfx (c : Common) (d a b k : VReg) (sg : Signed) (s : State) : Out :=
  .next (runCore (.bfx c d a b k sg)
    (fun x s => fixed s 4 [.v d (bitExtract sg (x.t.readV a) (x.t.readV b) (x.t.readV k))]) s)

def execBfi (c : Common) (d a b k : VReg) (s : State) : Out :=
  .next (runCore (.bfi c d a b k)
    (fun x s => fixed s 4 [.v d (bitInsert (x.t.readV d) (x.t.readV a) (x.t.readV b) (x.t.readV k))]) s)

def execIun (c : Common) (d a : VReg) (t : IUn) (s : State) : Out :=
  .next (runCore (.iun c d a t) (fun x s => fixed s 4 [.v d (intUnary t (x.t.readV a))]) s)

def execAddk (c : Common) (d a : VReg) (k : BitVec 12) (s : State) : Out :=
  .next (runCore (.addk c d a k) (fun x s => fixed s 4 [.v d (x.t.readV a + k.signExtend 64)]) s)

/-- adpc: the start of the fetch block plus k · 2^12. -/
def execAdpc (c : Common) (d : VReg) (k : BitVec 20) (s : State) : Out :=
  .next (runCore (.adpc c d k) (fun x s => fixed s 4 [.v d (blockStart x.t.pc + k.signExtend 64 <<< 12)]) s)

def execMovk (c : Common) (d : VReg) (k : BitVec 32) (s : State) : Out :=
  .next (runCore (.movk c d k) (fun _ s => fixed s 4 [.v d (k.zeroExtend 64)]) s)

def execMovhk (c : Common) (d a : VReg) (k : BitVec 32) (s : State) : Out :=
  .next (runCore (.movhk c d a k)
    (fun x s => fixed s 4 [.v d (k ++ (x.t.readV a).setWidth 32)]) s)

/-- rdsr (R118): s.tick is the tick at issue. -/
def execRdsr (c : Common) (d : VReg) (r : SReg) (s : State) : Out :=
  .next (runCore (.rdsr c d r) (fun x s => fixed s 4 [.v d (BitVec.ofNat 64 (specialReg s x.wg x.t r))]) s)

/-- wrsr s.fflags (R118): bits 4:0 replace the flags at once, with no window in which rdsr would read too soon (DESIGN CHOICE,
log 19). -/
def execWrsr (c : Common) (a : VReg) (s : State) : Out :=
  .next (runCore (.wrsr c a)
    (fun x s => .done (s.modThread x.wg.uid x.t.tid (fun t => { t with fflags := (x.t.readV a).setWidth 5 })) {}) s)

end Machine
end Sys2Proof
end

