-- ==== Sys2Proof/Machine/Lanes.lean ====
section
/-! DEFINITION. Lanes, indirect registers and predicates (R135, R136). -/

namespace Sys2Proof
namespace Machine

/-- lmov: the result is scoreboarded. -/
def execLmov (c : Common) (d a : VReg) (m : Mods) (s : State) : Out :=
  .next (runCore (.lmov c d a m) (fun x s => lateLane s [.v d (x.opA a m)]) s)

def execVote (c : Common) (d a : PReg) (t : Vote) (s : State) : Out :=
  .next (runCore (.vote c d a t) (fun x s =>
    let vs := voters x (.vote c d a t)
    fixed s 4 [.p d (match t with
      | .any => vs.any (·.readP a)
      | .all => vs.all (·.readP a))]) s)

def execVoteBallot (c : Common) (d : VReg) (a : PReg) (s : State) : Out :=
  .next (runCore (.voteBallot c d a) (fun x s =>
    let vs := (voters x (.voteBallot c d a)).filter (·.readP a)
    lateLane s [.v d (BitVec.ofNat 64 ((vs.map (fun u => 2 ^ u.lane)).foldl (· + ·) 0))]) s)

/-- perm: v[A] of lane v[B]; a lane at 32 or above is outside the warp. -/
def execPerm (c : Common) (d a b : VReg) (s : State) : Out :=
  .next (runCore (.perm c d a b) (fun x s => lateLane s [.v d (x.fromLane (permLane (x.t.readV b)) a)]) s)

/-- The register an index names, when the kernel has it (R136). -/
def indexed (x : Member) (w : Word) : Option VReg :=
  if w.toNat ≤ 255 then
    (let r : VReg := w.setWidth 8
     if granted x.wg.nregs r then some r else none)
  else none

def execRdind (c : Common) (d a : VReg) (s : State) : Out :=
  .next (runCore (.rdind c d a) (fun x s =>
    match indexed x (x.t.readV a) with
    | none => .trap .regRange x.t.pc
    | some r => lateLane s [.v d (x.t.readV r)]) s)

def execWrind (c : Common) (d a : VReg) (s : State) : Out :=
  .next (runCore (.wrind c d a) (fun x s =>
    match indexed x (x.t.readV d) with
    | none => .trap .regRange x.t.pc
    | some r => lateLane s [.v r (x.t.readV a)]) s)

def plogValue (t : Thread) (a : PReg) (op : PLog) : Bool :=
  let x := t.readP a
  match op with
  | .and b => x && t.readP b
  | .or b => x || t.readP b
  | .xor b => x != t.readP b
  | .andn b => x && !(t.readP b)
  | .not => !x
  | .mov => x

def execPlog (c : Common) (d a : PReg) (op : PLog) (s : State) : Out :=
  .next (runCore (.plog c d a op) (fun x s => fixed s 4 [.p d (plogValue x.t a op)]) s)

def execPmovToV (c : Common) (d : VReg) (s : State) : Out :=
  .next (runCore (.pmovToV c d) (fun x s =>
    lateLane s [.v d (BitVec.ofNat 64 ((List.finRange 7).foldl (fun n k => n + bitOf (x.t.readP k) * 2 ^ k.val) 0))]) s)

def execPmovFromV (c : Common) (a : VReg) (s : State) : Out :=
  .next (runCore (.pmovFromV c a) (fun x s =>
    fixed s 4 ((List.finRange 7).map (fun k => .p k ((x.t.readV a).getLsbD k.val)))) s)

end Machine
end Sys2Proof
end

