-- ==== Sys2Proof/Machine/Routines.lean ====
section
/-! DEFINITION. The pontil's scalars, loads and stores (R188), branches (R189), loops (R190), and its arrivals (R191). -/

namespace Sys2Proof
namespace Machine

/-! ## Scalars -/

def qAlu (t : QAlu) (a b : Word) : Word :=
  match t with
  | .add => a + b
  | .sub => a - b
  | .mul => a * b
  | .and => a &&& b
  | .or => a ||| b
  | .xor => a ^^^ b
  | .shl => if b.toNat < 64 then a <<< b.toNat else 0
  | .shr => if b.toNat < 64 then a >>> b.toNat else 0
  | .hi => b <<< 32 ||| (a &&& 0xFFFFFFFF)

def qTest (t : QTest) (a b : Word) : Bool :=
  match t with
  | .eq => a == b
  | .ne => a != b
  | .ltu => a.ult b
  | .lt => a.slt b

/-- Bit `k` of cw replaced. -/
def setCw (cw : BitVec 32) (k : Fin 7) (b : Bool) : BitVec 32 :=
  let one := (1 : BitVec 32) <<< k.val
  if b then cw ||| one else cw &&& ~~~one

def execQop (c : Common) (d a b : QReg) (t : QAlu) (s : State) : Out :=
  .next (runMatrix (.qop c d a b t) (fun p s => .done s (p.setQ d (qAlu t (p.getQ a) (p.getQ b))) false) s)

def execQopCmp (c : Common) (d : Fin 7) (a b : QReg) (t : QTest) (s : State) : Out :=
  .next (runMatrix (.qopCmp c d a b t) (fun p s =>
    .done s { p with cw := setCw p.cw d (qTest t (p.getQ a) (p.getQ b)) } false) s)

def execQmovk (c : Common) (d : QReg) (k : BitVec 32) (s : State) : Out :=
  .next (runMatrix (.qmovk c d k) (fun p s => .done s (p.setQ d (k.setWidth 64)) false) s)

/-! ## qld and qst -/

/-- The element a context's word names (R139 with n = 1). -/
def pontilTarget (s : State) (p : Pontil) (m : QMemOp) (need : Rights) : Except Code (Target × State) :=
  match targetAt s (binderOfPontil s p) (p.fmts.drop 4) m.slot m.bind (p.elem m) oneElem need with
  | .error c => .error c
  | .ok (t, s) => match checkPeers s t.d with
    | .error c => .error c
    | .ok _ => .ok (t, s)

/-- Go on with an access by a pontil unless a far home die answers it with a code. -/
def onFarPontil (s : State) (p : Pontil) (t : Target) (ps : List Place) (read ordered : Bool) (k : State → PRes) : PRes :=
  match farCode s t.d.base ps read ordered with
  | (some c, _) => .stop c (if c = .memPoison then poisonDetail t else p.pc)
  | (none, s) => k s

def runQld (s : State) (p : Pontil) (d : QReg) (m : QMemOp) : PRes :=
  match pontilTarget s p m { r := true } with
  | .error c => .stop c p.pc
  | .ok (t, s) =>
    if pathWaits s t.d then .wait s p
    else match targetPlaces s t 1 with
      | .error c => .stop c p.pc
      | .ok (ps, s) =>
        if m.order != .plain && anyUo ps then .stop .orderKind p.pc
        else if anyPoison s ps then .stop .memPoison (poisonDetail t)
        else match blocked s false ps with
          | some s => .wait s p
          | none => onFarPontil s p t ps true (m.order != .plain) (fun s =>
            match readElem s t.bd p.view .relaxed t.d t.lo t.f.w with
            | .error c => .stop c p.pc
            | .ok (x, rels, s, v) =>
              let r := takeRels s t.bd.agent m.scope m.order.isAcquire rels v
              .done r.1 ({ p with view := r.2 }.setQ d (BitVec.ofNat 64 x)) false)

def execQld (c : Common) (d : QReg) (m : QMemOp) (s : State) : Out :=
  .next (runMatrix (.qld c d m) (fun p s => runQld s p d m) s)

/-- qst; a release makes visible what the context's drains wrote as well. -/
def runQst (s : State) (p : Pontil) (d : QReg) (m : QMemOp) : PRes :=
  match pontilTarget s p m { w := true } with
  | .error c => .stop c p.pc
  | .ok (t, s) =>
    if pathWaits s t.d then .wait s p
    else match targetPlaces s t 1 with
      | .error c => .stop c p.pc
      | .ok (ps, s) =>
        if m.order != .plain && anyUo ps then .stop .orderKind p.pc
        else match blocked s true ps with
          | some s => .wait s p
          | none => onFarPontil s p t ps false (m.order != .plain) (fun s =>
            let w : Writer := ⟨t.bd.agent, none, false, [],
              if m.order.isRelease then some (relOf s t.bd.agent m.scope p.allView) else none⟩
            match writeElem s t.bd w p.view (reachOf (m.evict == 3)) t.d t.lo t.f.w ((p.getQ d).toNat % 2 ^ t.f.w) with
            | .error c => .stop c p.pc
            | .ok (s, v) => .done s { p with view := v } false)

def execQst (c : Common) (d : QReg) (m : QMemOp) (s : State) : Out :=
  .next (runMatrix (.qst c d m) (fun p s => runQst s p d m) s)

/-! ## Branches and loops -/

def execPbr (c : Common) (disp : BitVec 26) (s : State) : Out :=
  .next (runMatrix (.pbr c disp) (fun p s => .done s { p with pc := branchTarget p.pc disp } true) s)

/-- Where execution goes after an instruction that names its successor, the loop walk of R190 first. -/
def Pontil.continueAt (p : Pontil) (next : Word) : Pontil :=
  let r := loopWalk p.pc p.loops p.lc
  { p with pc := r.1.getD next, lc := r.2.1, loops := r.2.2 }

/-- loop (R190). `n` is the number of words of the body less one. -/
def startLoop (s : State) (p : Pontil) (d : LcReg) (a : QReg) (n : BitVec 16) : PRes :=
  let c := (p.getQ a).toNat
  let first := linkOf p.pc
  let last := first + BitVec.ofNat 64 (8 * n.toNat)
  if 2 ^ 32 - 1 < c then .stop .loopCount p.pc
  else if c = 0 then .done s (p.continueAt (last + 8)) true
  else
    .done s ({ p with
        lc := setAt p.lc d.val (BitVec.ofNat 32 c)
        loops := ⟨d, first, last⟩ :: p.loops.filter (fun l => l.lc != d) }.continueAt first) true

def execLoop (c : Common) (d : LcReg) (a : QReg) (n : BitVec 16) (s : State) : Out :=
  .next (runMatrix (.loop c d a n) (fun p s => startLoop s p d a n) s)

/-! ## Arrivals -/

def execParr (c : Common) (s : State) : Out :=
  .next (runMatrix (.parr c) (fun p s => match arrivalBlocked s p with
    | some s => .wait s p
    | none =>
      let r := pontilArrive s p
      match r.1 with
      | none => .done r.2.1 r.2.2 false
      | some c => .stop c (arrivalDetail p c)) s)

/-- pend: the arrival, and the context becomes free; its FLAGS stay until the next fork (R203). What it wrote belongs to what its launch's completion releases. -/
def endRoutine (p : Pontil) (s : State) : PRes :=
  match arrivalBlocked s p with
  | some s => .wait s p
  | none =>
    let r := pontilArrive s p
    match r.1 with
    | some c => .stop c (arrivalDetail p c)
    | none =>
      let s := match s.wg? p.wg with
        | some g => noteExit r.2.1 g.launch (.pontil p.id)
        | none => r.2.1
      .done s { Pontil.idle p.id with wg := 2 ^ 64, flags := p.flags, pc := p.pc } true

/-- The workgroup of a context on issue. -/
def issuingContext (s : State) : Option Nat :=
  match s.issue with
  | .pontil id :: _ => (s.pontil? id).map (·.wg)
  | _ => none

def execPend (c : Common) (s : State) : Out :=
  let t := runMatrix (.pend c) endRoutine s
  .next (match issuingContext s with
    | some u => tryEnd t u
    | none => t)

end Machine
end Sys2Proof
end

