-- ==== Sys2Proof/Machine/Dispatch.lean ====
section
/-! DEFINITION. One arm per step: a direct call of its meaning. -/

namespace Sys2Proof
namespace Machine

def exec (i : Instr) (s : State) : Host.Outcome State Fault Refusal :=
  match i with
  | .nop c => Sys2Proof.Machine.execNop c s
  | .iadd c d a b m => Sys2Proof.Machine.execIadd c d a b m s
  | .isub c d a b m => Sys2Proof.Machine.execIsub c d a b m s
  | .imul c d a b m => Sys2Proof.Machine.execImul c d a b m s
  | .imulh c d a b sg => Sys2Proof.Machine.execImulh c d a b sg s
  | .imad c d a b k m => Sys2Proof.Machine.execImad c d a b k m s
  | .iand c d a b m => Sys2Proof.Machine.execIand c d a b m s
  | .ior c d a b m => Sys2Proof.Machine.execIor c d a b m s
  | .ixor c d a b m => Sys2Proof.Machine.execIxor c d a b m s
  | .iandn c d a b m => Sys2Proof.Machine.execIandn c d a b m s
  | .ishl c d a b m => Sys2Proof.Machine.execIshl c d a b m s
  | .ishr c d a b sg => Sys2Proof.Machine.execIshr c d a b sg s
  | .irot c d a b m => Sys2Proof.Machine.execIrot c d a b m s
  | .icmp c d a b t => Sys2Proof.Machine.execIcmp c d a b t s
  | .ilim c d a b t => Sys2Proof.Machine.execIlim c d a b t s
  | .isel c d a b p => Sys2Proof.Machine.execIsel c d a b p s
  | .ibit c d a t => Sys2Proof.Machine.execIbit c d a t s
  | .bfx c d a b k sg => Sys2Proof.Machine.execBfx c d a b k sg s
  | .bfi c d a b k => Sys2Proof.Machine.execBfi c d a b k s
  | .iun c d a t => Sys2Proof.Machine.execIun c d a t s
  | .addk c d a k => Sys2Proof.Machine.execAddk c d a k s
  | .adpc c d k => Sys2Proof.Machine.execAdpc c d k s
  | .movk c d k => Sys2Proof.Machine.execMovk c d k s
  | .movhk c d a k => Sys2Proof.Machine.execMovhk c d a k s
  | .rdsr c d r => Sys2Proof.Machine.execRdsr c d r s
  | .wrsr c a => Sys2Proof.Machine.execWrsr c a s
  | .fadd c d a b f rm m => Sys2Proof.Machine.execFadd c d a b f rm m s
  | .fsub c d a b f rm m => Sys2Proof.Machine.execFsub c d a b f rm m s
  | .fmul c d a b f rm m => Sys2Proof.Machine.execFmul c d a b f rm m s
  | .ffma c d a b k f rm m => Sys2Proof.Machine.execFfma c d a b k f rm m s
  | .fdiv c d a b f rm m => Sys2Proof.Machine.execFdiv c d a b f rm m s
  | .fsqrt c d a f rm m => Sys2Proof.Machine.execFsqrt c d a f rm m s
  | .frcp c d a f rm m => Sys2Proof.Machine.execFrcp c d a f rm m s
  | .flim c d a b f t => Sys2Proof.Machine.execFlim c d a b f t s
  | .fcmp c d a b f t => Sys2Proof.Machine.execFcmp c d a b f t s
  | .fclass c d a f => Sys2Proof.Machine.execFclass c d a f s
  | .fsgn c d a f t => Sys2Proof.Machine.execFsgn c d a f t s
  | .frnd c d a f rm x => Sys2Proof.Machine.execFrnd c d a f rm x s
  | .cvt c d a f g rm => Sys2Proof.Machine.execCvt c d a f g rm s
  | .fscale c d a b f rm m => Sys2Proof.Machine.execFscale c d a b f rm m s
  | .fexp2 c d a f rm m => Sys2Proof.Machine.execFexp2 c d a f rm m s
  | .flog2 c d a f rm m => Sys2Proof.Machine.execFlog2 c d a f rm m s
  | .fexp c d a f rm m => Sys2Proof.Machine.execFexp c d a f rm m s
  | .flog c d a f rm m => Sys2Proof.Machine.execFlog c d a f rm m s
  | .frsqrt c d a f rm m => Sys2Proof.Machine.execFrsqrt c d a f rm m s
  | .fsin c d a f rm m => Sys2Proof.Machine.execFsin c d a f rm m s
  | .fcos c d a f rm m => Sys2Proof.Machine.execFcos c d a f rm m s
  | .ftanh c d a f rm m => Sys2Proof.Machine.execFtanh c d a f rm m s
  | .ferf c d a f rm m => Sys2Proof.Machine.execFerf c d a f rm m s
  | .bpack c d a f rm => Sys2Proof.Machine.execBpack c d a f rm s
  | .bunpack c d a f => Sys2Proof.Machine.execBunpack c d a f s
  | .setfmt c a f => Sys2Proof.Machine.execSetfmt c a f s
  | .getfmt c d f => Sys2Proof.Machine.execGetfmt c d f s
  | .lmov c d a m => Sys2Proof.Machine.execLmov c d a m s
  | .vote c d a t => Sys2Proof.Machine.execVote c d a t s
  | .voteBallot c d a => Sys2Proof.Machine.execVoteBallot c d a s
  | .perm c d a b => Sys2Proof.Machine.execPerm c d a b s
  | .rdind c d a => Sys2Proof.Machine.execRdind c d a s
  | .wrind c d a => Sys2Proof.Machine.execWrind c d a s
  | .plog c d a t => Sys2Proof.Machine.execPlog c d a t s
  | .pmovToV c d => Sys2Proof.Machine.execPmovToV c d s
  | .pmovFromV c a => Sys2Proof.Machine.execPmovFromV c a s
  | .ld c d m => Sys2Proof.Machine.execLd c d m s
  | .st c d m => Sys2Proof.Machine.execSt c d m s
  | .ldp c d m => Sys2Proof.Machine.execLdp c d m s
  | .stp c d m => Sys2Proof.Machine.execStp c d m s
  | .ldfe c d m => Sys2Proof.Machine.execLdfe c d m s
  | .ldfeClr c d m => Sys2Proof.Machine.execLdfeClr c d m s
  | .stfe c d m => Sys2Proof.Machine.execStfe c d m s
  | .pf c m => Sys2Proof.Machine.execPf c m s
  | .atomAdd c d m => Sys2Proof.Machine.execAtomAdd c d m s
  | .atomMin c d m => Sys2Proof.Machine.execAtomMin c d m s
  | .atomMax c d m => Sys2Proof.Machine.execAtomMax c d m s
  | .atomAnd c d m => Sys2Proof.Machine.execAtomAnd c d m s
  | .atomOr c d m => Sys2Proof.Machine.execAtomOr c d m s
  | .atomXor c d m => Sys2Proof.Machine.execAtomXor c d m s
  | .atomXchg c d m => Sys2Proof.Machine.execAtomXchg c d m s
  | .atomCas c d m => Sys2Proof.Machine.execAtomCas c d m s
  | .fence c scope order => Sys2Proof.Machine.execFence c scope order s
  | .fenceSc c scope => Sys2Proof.Machine.execFenceSc c scope s
  | .bsync c => Sys2Proof.Machine.execBsync c s
  | .binit c d m => Sys2Proof.Machine.execBinit c d m s
  | .barr c d m => Sys2Proof.Machine.execBarr c d m s
  | .bwait c d m => Sys2Proof.Machine.execBwait c d m s
  | .nbpost c k d m => Sys2Proof.Machine.execNbpost c k d m s
  | .nbget c d m => Sys2Proof.Machine.execNbget c d m s
  | .nbinit c bind scope => Sys2Proof.Machine.execNbinit c bind scope s
  | .vmcnt c d a => Sys2Proof.Machine.execVmcnt c d a s
  | .vmtest c d a b => Sys2Proof.Machine.execVmtest c d a b s
  | .vmop c d a b t => Sys2Proof.Machine.execVmop c d a b t s
  | .vmffs c d a => Sys2Proof.Machine.execVmffs c d a s
  | .vmget c d a part => Sys2Proof.Machine.execVmget c d a part s
  | .vmset c d a part => Sys2Proof.Machine.execVmset c d a part s
  | .br c disp y => Sys2Proof.Machine.execBr c disp y s
  | .bri c a y => Sys2Proof.Machine.execBri c a y s
  | .call c disp => Sys2Proof.Machine.execCall c disp s
  | .calli c a => Sys2Proof.Machine.execCalli c a s
  | .ret c a => Sys2Proof.Machine.execRet c a s
  | .spawn c d m => Sys2Proof.Machine.execSpawn c d m s
  | .joinRec c d m => Sys2Proof.Machine.execJoinRec c d m s
  | .exit c => Sys2Proof.Machine.execExit c s
  | .trap c k => Sys2Proof.Machine.execTrap c k s
  | .brk c => Sys2Proof.Machine.execBrk c s
  | .fork c d m => Sys2Proof.Machine.execFork c d m s
  | .rdv c d m => Sys2Proof.Machine.execRdv c d m s
  | .cpy c m => Sys2Proof.Machine.execCpy c m s
  | .gth c m => Sys2Proof.Machine.execGth c m s
  | .sct c m => Sys2Proof.Machine.execSct c m s
  | .xds c m => Sys2Proof.Machine.execXds c m s
  | .tpf c m => Sys2Proof.Machine.execTpf c m s
  | .col c m => Sys2Proof.Machine.execCol c m s
  | .engst c d a => Sys2Proof.Machine.execEngst c d a s
  | .ocld c d m => Sys2Proof.Machine.execOcld c d m s
  | .mma c d a b f rm shape acc => Sys2Proof.Machine.execMma c d a b f rm shape acc s
  | .mmas c d a b f rm shape acc => Sys2Proof.Machine.execMmas c d a b f rm shape acc s
  | .smrs c d a b f rm ns => Sys2Proof.Machine.execSmrs c d a b f rm ns s
  | .drn c d m => Sys2Proof.Machine.execDrn c d m s
  | .drnm c d m => Sys2Proof.Machine.execDrnm c d m s
  | .azero c d => Sys2Proof.Machine.execAzero c d s
  | .qop c d a b t => Sys2Proof.Machine.execQop c d a b t s
  | .qopCmp c d a b t => Sys2Proof.Machine.execQopCmp c d a b t s
  | .qmovk c d k => Sys2Proof.Machine.execQmovk c d k s
  | .qld c d m => Sys2Proof.Machine.execQld c d m s
  | .qst c d m => Sys2Proof.Machine.execQst c d m s
  | .pbr c disp => Sys2Proof.Machine.execPbr c disp s
  | .loop c d a n => Sys2Proof.Machine.execLoop c d a n s
  | .parr c => Sys2Proof.Machine.execParr c s
  | .pend c => Sys2Proof.Machine.execPend c s
  | .rdpr c d r => Sys2Proof.Machine.execRdpr c d r s
  | .wrpr c a => Sys2Proof.Machine.execWrpr c a s
  | .bfinv c d a b => Sys2Proof.Machine.execBfinv c d a b s
  | .tlbinvPg c a => Sys2Proof.Machine.execTlbinvPg c a s
  | .tlbinvAll c => Sys2Proof.Machine.execTlbinvAll c s
  | .hqctlRd c d a => Sys2Proof.Machine.execHqctlRd c d a s
  | .hqctlPause c d a => Sys2Proof.Machine.execHqctlPause c d a s
  | .hqctlResume c d a => Sys2Proof.Machine.execHqctlResume c d a s
  | .hqctlDrain c d a => Sys2Proof.Machine.execHqctlDrain c d a s
  | .lehrsv c d a b bind => Sys2Proof.Machine.execLehrsv c d a b bind s
  | .lehrld c d a bind => Sys2Proof.Machine.execLehrld c d a bind s
  | .stoptArm c a => Sys2Proof.Machine.execStoptArm c a s
  | .stoptOff c => Sys2Proof.Machine.execStoptOff c s
  | .gangForm core => Sys2Proof.Machine.execGangForm core s
  | .scoreboardReturn t k => Sys2Proof.Machine.execScoreboardReturn t k s
  | .feWaitServed t => Sys2Proof.Machine.execFeWaitServed t s
  | .fenceDone t => Sys2Proof.Machine.execFenceDone t s
  | .bwaitComplete t => Sys2Proof.Machine.execBwaitComplete t s
  | .bwaitTimeout t => Sys2Proof.Machine.execBwaitTimeout t s
  | .spawnJoinRetry t => Sys2Proof.Machine.execSpawnJoinRetry t s
  | .trapDisposition wg => Sys2Proof.Machine.execTrapDisposition wg s
  | .launchEnd launch => Sys2Proof.Machine.execLaunchEnd launch s
  | .launchComplete launch => Sys2Proof.Machine.execLaunchComplete launch s
  | .forkContextFree p => Sys2Proof.Machine.execForkContextFree p s
  | .engineQueueRoom t => Sys2Proof.Machine.execEngineQueueRoom t s
  | .copyCompletion cl k => Sys2Proof.Machine.execCopyCompletion cl k s
  | .gatherScatterCompletion die k => Sys2Proof.Machine.execGatherScatterCompletion die k s
  | .transducerRun die lane => Sys2Proof.Machine.execTransducerRun die lane s
  | .tpfCompletion far k => Sys2Proof.Machine.execTpfCompletion far k s
  | .collectiveCompletion tag remote => Sys2Proof.Machine.execCollectiveCompletion tag remote s
  | .ocldGranuleTaken p granule => Sys2Proof.Machine.execOcldGranuleTaken p granule s
  | .homeExecuteRequest r => Sys2Proof.Machine.execHomeExecuteRequest r s
  | .bfinvInvalidate t die => Sys2Proof.Machine.execBfinvInvalidate t die s
  | .bfinvTimeout t => Sys2Proof.Machine.execBfinvTimeout t s
  | .stopAtTick => Sys2Proof.Machine.execStopAtTick s
  | .dispatchOffer core => Sys2Proof.Machine.execDispatchOffer core s
  | .ageBoost die queue => Sys2Proof.Machine.execAgeBoost die queue s
  | .preemptHoldExpiry die => Sys2Proof.Machine.execPreemptHoldExpiry die s
  | .dispatchRestore core => Sys2Proof.Machine.execDispatchRestore core s
  | .migrationWindowEnd die => Sys2Proof.Machine.execMigrationWindowEnd die s
  | .pageMove page => Sys2Proof.Machine.execPageMove page s
  | .reencryptRegion memory region => Sys2Proof.Machine.execReencryptRegion memory region s
  | .correctedError die kind unit => Sys2Proof.Machine.execCorrectedError die kind unit s
  | .uncorrectableError unit => Sys2Proof.Machine.execUncorrectableError unit s
  | .dieResetTimeout die => Sys2Proof.Machine.execDieResetTimeout die s
  | .flushHandshake die port => Sys2Proof.Machine.execFlushHandshake die port s
  | .staleResponseDrop die port => Sys2Proof.Machine.execStaleResponseDrop die port s
  | .traceSample die => Sys2Proof.Machine.execTraceSample die s
  | .counterLatch die => Sys2Proof.Machine.execCounterLatch die s
  | .event count => Sys2Proof.Machine.execEvent count s
  | .eventAck tag => Sys2Proof.Machine.execEventAck tag s
  | .eventResend tag => Sys2Proof.Machine.execEventResend tag s
  | .hostOpen tag sender => Sys2Proof.Machine.execHostOpen tag sender s
  | .resync tag => Sys2Proof.Machine.execResync tag s
  | .ctxCreate tag ctx f => Sys2Proof.Machine.execCtxCreate tag ctx f s
  | .ctxDestroy tag ctx => Sys2Proof.Machine.execCtxDestroy tag ctx s
  | .queueSet tag ctx f => Sys2Proof.Machine.execQueueSet tag ctx f s
  | .submit tag ctx rec => Sys2Proof.Machine.execSubmit tag ctx rec s
  | .memWrite tag addr data => Sys2Proof.Machine.execMemWrite tag addr data s
  | .memRead tag addr count => Sys2Proof.Machine.execMemRead tag addr count s
  | .cacheWb tag => Sys2Proof.Machine.execCacheWb tag s
  | .abort tag ctx rec => Sys2Proof.Machine.execAbort tag ctx rec s
  | .restore tag ctx tidx ofs => Sys2Proof.Machine.execRestore tag ctx tidx ofs s
  | .dieReset tag die => Sys2Proof.Machine.execDieReset tag die s
  | .scan tag die ofs count => Sys2Proof.Machine.execScan tag die ofs count s
  | .resume tag => Sys2Proof.Machine.execResume tag s
  | .peerSet tag entries => Sys2Proof.Machine.execPeerSet tag entries s
  | .groupReg tag group members => Sys2Proof.Machine.execGroupReg tag group members s
  | .groupDrop tag group => Sys2Proof.Machine.execGroupDrop tag group s
  | .unknownOp tag why => Sys2Proof.Machine.execUnknownOp tag why s
  | .foreignFrameDrop sender => Sys2Proof.Machine.execForeignFrameDrop sender s
  | .hello tag sender => Sys2Proof.Machine.execHello tag sender s
  | .loadBegin tag kind size => Sys2Proof.Machine.execLoadBegin tag kind size s
  | .loadData tag ofs data => Sys2Proof.Machine.execLoadData tag ofs data s
  | .loadEnd tag kind => Sys2Proof.Machine.execLoadEnd tag kind s
  | .start tag module => Sys2Proof.Machine.execStart tag module s
  | .attest tag nonce => Sys2Proof.Machine.execAttest tag nonce s
  | .linkDown kind port training => Sys2Proof.Machine.execLinkDown kind port training s
  | .linkUp kind port peer => Sys2Proof.Machine.execLinkUp kind port peer s
  | .ualinkRequest port source tag addr data len => Sys2Proof.Machine.execUalinkRequest port source tag addr data len s
  | .ptpSync ppm => Sys2Proof.Machine.execPtpSync ppm s
  | .powerUp => Sys2Proof.Machine.execPowerUp s
  | .thermalThrottle level => Sys2Proof.Machine.execThermalThrottle level s
  | .thermalTrip => Sys2Proof.Machine.execThermalTrip s

end Machine
end Sys2Proof
end

