-- ==== Sys2Proof/Machine/Turns.lean ====
section
/-! DEFINITION. Time (R282, R283; DESIGN CHOICE, log 2), what happens when its tick has come (R294, R296, R297), and which events
and commands happen (R294, R300 to R302, R312). -/

namespace Sys2Proof
namespace Machine

/-! ## Time -/

/-- The earliest of some ticks. -/
def earliest (ts : List Nat) : Option Nat := ts.foldl (fun a t => some (min t (a.getD t))) none

/-- The ticks at which samples and latches are due (R296, R297). -/
def dueTicks (s : State) : List Nat :=
  s.watches.flatMap (fun w => (w.sample.map (·.2)).toList ++ (w.latch.map (·.2)).toList)

/-- `n` or the earlier limit; a limit that has passed is no limit any more. -/
def upTo (lo n : Nat) (limit : Option Nat) : Nat :=
  match limit with
  | some t => max lo (min n t)
  | none => max lo n

/-- Time passes by a free amount, up to a tick at which a sample or a latch is due, and to the end of the tick of an armed stop; the
readings of the dies differ by at most one tick, and none falls (R282, R283). While the package is stopped nothing is due. -/
def passClock (s : State) : State :=
  let due := if s.stopped then none else earliest (dueTicks s)
  let stop := if s.stopped then none else s.stopAt
  let n := upTo s.now (upTo s.now (s.now + Config.free s.choice) due) (stop.map (· + 1))
  let mayLead := (due.all (fun t => decide (n < t))) && (stop.all (fun t => decide (n < t)))
  { s with
      now := n
      ahead := (List.range 6).map (fun d =>
        (decide (n = s.now) && s.ahead.getD d false) || (mayLead && Config.free (s.choice + 1 + d) % 2 == 1))
      choice := s.choice + 7 }

/-- What waited for a re-encryption that has ended with a write to its region goes on (R322). -/
def settleRegions (s : State) : State :=
  if s.reencrypted.isEmpty ∨ s.gated then s else retryAll .link { s with reencrypted := [] }

/-- The arrivals that stopped contexts owe are made once their objects can be reached (R173, R280). -/
def settleArrivals (s : State) : State :=
  if s.gated then s
  else s.arrivals.foldl (fun s p => (arriveOrOwe s p).1) { s with arrivals := [] }

/-- What has waited for what stands no longer goes on; so do trace records that had to let others come first (R296). -/
def settleOwed (s : State) : State :=
  let s := settleEnds (settleArrivals (settleRegions s))
  if s.gated then s else settleRecords s

/-- Between two turns the dies take notice of their control blocks, engines make some of their writes (R93), and time passes. -/
def passTime (s : State) : State := passClock (engineProgress (noticeWatches (settleOwed s)))

/-- What a die's watching does at its tick; after the tick of an armed stop, nothing (R294). -/
def dueWatch (s : State) (w : Watch) : Option Instr :=
  let here := fun (due : Option (Nat × Nat)) => due.any (fun x =>
    decide (x.2 ≤ s.tickOf w.die) && s.stopAt.all (fun t => decide (x.2 ≤ t)))
  if here w.sample then some (.traceSample (Fin.ofNat 4 w.die))
  else if here w.latch then some (.counterLatch (Fin.ofNat 6 w.die)) else none

/-- What happens before any other turn: a latch or a sample whose tick has come, and the stop once its tick has ended. -/
def dueEvent (s : State) : Option Instr :=
  if s.stopped then none
  else match s.watches.findSome? (dueWatch s) with
    | some i => some i
    | none => if s.stopAt.any (fun t => decide (t < s.now)) then some .stopAtTick else none

/-! ## Which events and commands happen -/

/-- Messages that are answered while the package is stopped (R294); an ABORT is performed on arrival (R302), and is answered when its
launch has completed. -/
def answersStopped (i : Instr) : Bool :=
  match i with
  | .scan .. | .resume .. | .resync .. | .abort .. | .hostOpen .. | .unknownOp .. | .foreignFrameDrop .. | .eventAck .. => true
  | _ => false

/-- Other events that R294 leaves running while the package is stopped: the tick is aligned, and power goes off. -/
def goesOnStopped (i : Instr) : Bool :=
  match i with
  | .thermalTrip | .ptpSync .. => true
  | _ => false

/-- Commands of the bring-up that START ends (Table 22.1, R316). -/
def isBringUp (i : Instr) : Bool :=
  match i with
  | .hello .. | .loadBegin .. | .loadData .. | .loadEnd .. | .start .. => true
  | _ => false

/-- Commands that only a running module performs (R312). -/
def needsHost (i : Instr) : Bool :=
  match i with
  | .hostOpen .. | .ctxCreate .. | .ctxDestroy .. | .queueSet .. | .submit .. | .memWrite .. | .memRead .. | .cacheWb .. | .abort ..
  | .restore .. | .dieReset .. | .scan .. | .resume .. | .peerSet .. | .groupReg .. | .groupDrop .. => true
  | _ => false

/-- A command of the host (Tables 21.2, 22.1). -/
def isCommand (i : Instr) : Bool :=
  match i with
  | .resync .. | .unknownOp .. | .attest .. => true
  | _ => isBringUp i || needsHost i

/-- The commands of each mode (R312, R316). -/
def inMode (s : State) (i : Instr) : Bool := !(if s.power = .running then isBringUp i else needsHost i)

/-- Which events happen: with power off, only power-up; the commands of the mode; while the package is stopped, what R294 leaves
running. -/
def State.awake (s : State) (i : Instr) : Bool :=
  if s.power = .off then i == .powerUp
  else inMode s i && (if s.stopped then answersStopped i || goesOnStopped i else true)

/-- ABORT, RESYNC and RESUME are performed on arrival (R302); so is OPEN, which ends the session whose commands wait (R300). -/
def overtakes (i : Instr) : Bool :=
  match i with
  | .abort .. | .resync .. | .resume .. | .hostOpen .. => true
  | _ => false

/-- A record waits, or what its acceptance reaches where its JOIN is zero. -/
def submitWaits (s : State) (ctx va : Nat) : Bool :=
  spanWaits s false ctx va 64 || (match places s ctx va 64 with
  | .ok (ps, s) =>
    let r := ofBytes (latestBytes s ps)
    natField r 0 32 == 0 && acceptWaits s ctx (recQueue r) va
  | .error _ => false)

/-- A context's buffer table, or an image in one of its buffers, waits. -/
def restoreWaits (s : State) (c : Nat) (tidx ofs : Nat) : Bool :=
  tableWaits s c || (match s.context? c with
  | none => false
  | some cx => match entryAt s cx tidx with
    | .ok (d, s) => imageWaits s c d ((ofs / 8 : Nat) : Int)
    | .error _ => false)

/-- A command of addresses that reaches what waits (R280, R307, R310, R322). -/
def reachesWaiting (s : State) (i : Instr) : Bool :=
  match i with
  | .memWrite _ a d => spanWaits s true 64 a.toNat d.length
  | .memRead _ a n => spanWaits s false 64 a.toNat n
  | .submit _ c a => submitWaits s c.val a.toNat
  | .restore _ c t o => restoreWaits s c.val t.toNat o.toNat
  | .ctxCreate _ _ f => addrWaits s f.btbase.toNat
  | .queueSet _ _ f => addrWaits s f.qbase.toNat || addrWaits s f.sabase.toNat
  | _ => false

/-- A command that cannot be performed yet: the package is stopped (R294), it comes behind a command's die reset that has not ended or
behind commands that wait (R302), or what it reaches waits. -/
def commandHeld (s : State) (i : Instr) : Bool :=
  isCommand i && (!(s.awake i) ||
    (!(overtakes i) && (s.down.any (fun x => !x.offline && (x.command || x.reply.isSome)) || !s.arrived.isEmpty || reachesWaiting s i)))

/-- The identity whose frames are performed: the host after START, the bring-up peer before (R300, R312). -/
def State.listensTo (s : State) (sender : Nat) : Bool :=
  match s.power with
  | .running => s.host == some sender
  | _ => match s.hello with
    | some p => p == sender
    | none => true

/-- The step a frame is. (DEDUCED, log 34) -/
def frameStep (s : State) (sender : Nat) (bytes : List Byte) : Instr :=
  if s.listensTo sender then decodeMessage (s.power != .running) sender bytes else .foreignFrameDrop sender

end Machine
end Sys2Proof
end

