-- ==== Sys2Proof/Machine/Step.lean ====
section
/-! DEFINITION. One step of the machine (DESIGN CHOICE, log 1): an instruction on issue is fetched and performed; otherwise time
passes, and then happens what its tick has come for, or a command that waits and may now be performed, or the next turn of the
agenda. -/

namespace Sys2Proof
namespace Machine

/-- Fetch and perform the instruction on issue. -/
def stepIssue (s : State) : Host.Outcome State Fault Refusal :=
  match fetchIssue s with
  | .error t => .next t
  | .ok (i, t) => exec i t

/-- An event or a command happens where power and stops let it (R294, R312). -/
def stepEvent (s : State) (i : Instr) : Host.Outcome State Fault Refusal :=
  if (commonOf? i).isSome then .fault .notAnEvent
  else if s.awake i then exec i s else .next s

/-- A frame arrives: a command that cannot be performed yet waits (R302); with power off nothing arrives. -/
def stepFrame (s : State) (sender : Nat) (bytes : List Byte) : Host.Outcome State Fault Refusal :=
  let i := frameStep s sender bytes
  if s.power = .off then .next s
  else if commandHeld s i then .next { s with arrived := s.arrived ++ [⟨sender, bytes, false⟩] }
  else stepEvent { s with caller := some sender, mute := false } i

/-- The turn at the head of the agenda. -/
def stepTurn (s : State) (t : Turn) : Host.Outcome State Fault Refusal :=
  match t with
  | .event i => stepEvent s i
  | .pontil p => if s.stopped then .next s else stepIssue { s with issue := [.pontil p] }
  | .frame sender bytes => stepFrame s sender bytes

/-- The oldest command that waits, when it may now be performed: the state without it, and the step it is. -/
def arrivedReady (s : State) : Option (State × Instr) :=
  match s.arrived with
  | [] => none
  | x :: rest =>
    let t := { s with arrived := rest, caller := some x.sender, mute := x.quiet }
    let i := frameStep t x.sender x.bytes
    if commandHeld { t with arrived := [] } i then none else some (t, i)

/-- A turn, once time has passed. -/
def stepNext (s : State) : Host.Outcome State Fault Refusal :=
  match dueEvent s with
  | some i => exec i s
  | none => match arrivedReady s with
    | some (t, i) => stepEvent t i
    | none => match s.agenda with
      | [] => .next s
      | t :: rest => stepTurn { s with agenda := rest } t

/-- One step. -/
def step (s : State) : Host.Outcome State Fault Refusal :=
  match s.issue with
  | _ :: _ => stepIssue s
  | [] => stepNext (passTime s)

/-- The instruction whose bits are `w` stands where `step` takes its next one: a word in the code image of a thread or a
pontil on issue, or a message at the head of the agenda, with nothing else due or waiting. -/
def State.withFetchWord (s : State) (nbits w : Nat) : State :=
  if nbits ≤ 64 then
    let word : Word := BitVec.ofNat 64 w
    let maj := wordField word 56 8
    placeWord s word (decide (0xB0 ≤ maj ∧ maj ≤ 0xBE))
  else
    { s with
        issue := [], arrived := [], down := [], power := .running, stopped := false, stopAt := none, host := some 0, mute := false
        watches := [], agenda := .frame 0 (bytesOf w (nbits / 8)) :: s.agenda }

end Machine
end Sys2Proof
end

