-- ==== Sys2Proof/Safety.lean ====
section
/-! DEFINITION. Safe states and steps, and the terms in which claims speak of an instruction on issue. -/

namespace Sys2Proof
namespace Machine

/-! ## Safe steps -/

/-- No thread is stopped at a code it raised, and no pontil context is stopped. -/
def State.untrapped (s : State) : Prop :=
  (∀ g ∈ s.workgroups, ∀ t ∈ g.threads, t.trap = none) ∧ ∀ p ∈ s.pontils, p.state ≠ .stopped

/-- A step that goes on: neither a fault nor a refusal. -/
def State.goesOn (s : State) : Prop := ∃ t, step s = .next t

/-- A step after which nothing new is stopped at a code. -/
def State.safeStep (s : State) : Prop := ∃ t, step s = .next t ∧ (s.untrapped → t.untrapped)

/-! ## An instruction on issue -/

/-- The state once the head of the issue list has been taken. -/
def State.popped (s : State) : State := { s with issue := s.issue.tail }

/-- `m` is a member, live, of the gang on issue. -/
def OnIssue (s : State) (m : Member) : Prop :=
  (∃ rest, s.issue = .gang m.wg.uid m.gang :: rest) ∧ s.wg? m.wg.uid = some m.wg ∧ m ∈ membersOf m.wg m.gang ∧
  m.t.live = true

/-- No trace is kept on the die of `m` (R295). -/
def Untraced (s : State) (m : Member) : Prop := ∀ w, s.watch? m.wg.core.die.val = some w → w.traceCb = none

/-- `m` is the only thread on issue. -/
def Alone (s : State) (m : Member) : Prop :=
  m.gang = [m.t.tid] ∧ (∃ rest, s.issue = .gang m.wg.uid [m.t.tid] :: rest) ∧ s.wg? m.wg.uid = some m.wg ∧
  m.wg.thread? m.t.tid = some m.t ∧ m.t.live = true

/-- `m` performs `i`: no check of R112 or R328 stops it and its guard is true. -/
def Performs (s : State) (m : Member) (i : Instr) : Prop := OnIssue s m ∧ gate s m i = .ok true

/-- `m` alone is on issue and performs `i`. -/
def PerformsAlone (s : State) (m : Member) (i : Instr) : Prop := Alone s m ∧ gate s m i = .ok true

/-- The next state, and in it the thread of `m`. -/
def ThreadAfter (o : Out) (m : Member) (p : State → Thread → Prop) : Prop :=
  ∃ s' t', o = .next s' ∧ s'.thread? m.wg.uid m.t.tid = some t' ∧ p s' t'

/-- The instruction completes with the results `ws`, written at once (R40), and the thread is held `n` cycles. A register that the
kernel lacks, vz among them, takes nothing. -/
def WritesNowAt (n : Nat) (o : Out) (m : Member) (ws : List RegWrite) (fl : Flags) : Prop :=
  ThreadAfter o m (fun _ t' =>
    (∀ r x, .v r x ∈ ws → granted m.t.regs.length r = true → r ≠ 0xFF → t'.getV r = x) ∧
    (∀ p b, .p p b ∈ ws → m.t.preds.length = 7 → t'.getP p = b) ∧
    (∀ k x, .vm k x ∈ ws → m.t.vms.length = 8 → t'.getVm k = x) ∧
    t'.fflags = m.t.fflags ||| fl ∧ t'.pc = m.t.pc + 8 ∧ t'.stall = n ∧ t'.owed = m.t.owed)

/-- `WritesNowAt` the issue: the stall count is the word's (R21). -/
def WritesNow (o : Out) (m : Member) (i : Instr) (ws : List RegWrite) (fl : Flags) : Prop := WritesNowAt (stallOf i) o m ws fl

/-- The instruction completes and owes the results `ws` (R32): a later return writes them, and merges the flags `fl` with them (that
the flags come with the result and not at issue is the model's reading, log 19). The thread is held `n` cycles. -/
def WritesLaterAt (n : Nat) (o : Out) (m : Member) (ws : List RegWrite) (fl : Flags) (memory load : Bool) : Prop :=
  ThreadAfter o m (fun _ t' =>
    (∃ q, t'.owed = m.t.owed ++ [q] ∧ q.writes = ws ∧ q.flags = fl ∧ q.memory = memory ∧ q.load = load) ∧
    t'.regs = m.t.regs ∧ t'.preds = m.t.preds ∧ t'.vms = m.t.vms ∧ t'.fflags = m.t.fflags ∧ t'.pc = m.t.pc + 8 ∧
    t'.stall = n)

/-- `WritesLaterAt` the issue. -/
def WritesLater (o : Out) (m : Member) (i : Instr) (ws : List RegWrite) (fl : Flags) (memory load : Bool) : Prop :=
  WritesLaterAt (stallOf i) o m ws fl memory load

/-- Results of an instruction whose operand may be taken across lanes: then they are scoreboarded (R107). -/
def Delivers (o : Out) (m : Member) (i : Instr) (md : Mods) (ws : List RegWrite) (fl : Flags) : Prop :=
  if crossedOf md then WritesLater o m i ws fl false false else WritesNow o m i ws fl

/-- Every member of a gang that performs `i` ends it with the results `ws`, written at once. -/
def GivesNow (i : Instr) (ws : State → Member → List RegWrite) (fl : State → Member → Flags) : Prop :=
  ∀ s m, Performs s m i → WritesNow (exec i s) m i (ws s m) (fl s m)

/-- Every member of a gang that performs `i` ends it owing the results `ws`. -/
def GivesLater (i : Instr) (ws : State → Member → List RegWrite) (fl : State → Member → Flags) : Prop :=
  ∀ s m, Performs s m i → WritesLater (exec i s) m i (ws s m) (fl s m) false false

/-- Every member of a gang that performs `i` ends it with the result `x` in v[d]: at once, or owed if an operand is taken
across lanes. -/
def Gives (i : Instr) (md : Mods) (d : VReg) (x : Member → Word) : Prop :=
  ∀ s m, Performs s m i → Delivers (exec i s) m i md [.v d (x m)] 0

/-- The member raises a code (R272): its whole state stays, with its program counter at the instruction, and its
workgroup is halted. -/
def Traps (o : Out) (m : Member) (c : Code) (detail : Word) : Prop :=
  ThreadAfter o m (fun s' t' => t' = { m.t with trap := some (c, detail), wait := none } ∧
    ∃ g, s'.wg? m.wg.uid = some g ∧ g.halted = true)

/-- The first `n` elements of a register are `g 0`, `g 1`, …, and its other bits are zero (R48). -/
def ElementsAre (f : FDef) (n : Nat) (x : Word) (g : Nat → Nat) : Prop :=
  (∀ e, e < n → elemOf f x.toNat e = g e % 2 ^ f.w) ∧ x.toNat < 2 ^ (n * f.w)

/-- The flags that any of the first `n` elements raises. -/
def anyFlags (n : Nat) (g : Nat → Flags) : Flags := (List.range n).foldl (fun acc e => acc ||| g e) 0

/-- `i` works element by element in the slot `fs` of kinds that `accepts` allows: element e of v[d] and its flags are
`g` of the slot, the effective rounding and e. Any other slot raises SLOT_KIND. The result is ready after a fixed
latency when `fix` and no operand is taken across lanes, and owed otherwise. -/
def WorksByElements (i : Instr) (d : VReg) (fs : Slot) (accepts : Nat → Bool) (rm : Round) (md : Mods) (fix : Bool)
    (g : Member → FDef → Round → Nat → Nat × Flags) : Prop :=
  ∀ s m, Performs s m i →
    (∀ f, fmtSlot m fs accepts md = .ok f → ∃ x, ElementsAre f f.lanes x (fun e => (g m f (effRm rm f) e).1) ∧
      if fix && !(crossedOf md) then WritesNow (exec i s) m i [.v d x] (anyFlags f.lanes (fun e => (g m f (effRm rm f) e).2))
      else WritesLater (exec i s) m i [.v d x] (anyFlags f.lanes (fun e => (g m f (effRm rm f) e).2)) false false) ∧
    ∀ c, fmtSlot m fs accepts md = .error c → c = .slotKind ∧ Traps (exec i s) m .slotKind m.t.pc

/-- The number a finite value denotes; none for a NaN or an infinity. -/
def valueOf : Val → Option ℚ
  | .num s n d e => some ((if s then -1 else 1) * ((n : ℚ) / (d : ℚ)) * (2 : ℚ) ^ e)
  | _ => none

/-- Instructions of a gang that act on registers, predicates, view masks and flags of their threads alone (wrsr of
s.fflags among them); not setfmt, which writes the workgroup's slots. -/
def LocalOnly : Instr → Prop
  | .nop _ | .iadd .. | .isub .. | .imul .. | .imulh .. | .imad .. | .iand .. | .ior .. | .ixor .. | .iandn .. | .ishl ..
  | .ishr .. | .irot .. | .icmp .. | .ilim .. | .isel .. | .ibit .. | .bfx .. | .bfi .. | .iun .. | .addk .. | .adpc ..
  | .movk .. | .movhk .. | .rdsr .. | .wrsr .. => True
  | .fadd .. | .fsub .. | .fmul .. | .ffma .. | .fdiv .. | .fsqrt .. | .frcp .. | .flim .. | .fcmp .. | .fclass .. | .fsgn ..
  | .frnd .. | .cvt .. | .fscale .. | .fexp2 .. | .flog2 .. | .fexp .. | .flog .. | .frsqrt .. | .fsin .. | .fcos ..
  | .ftanh .. | .ferf .. | .bpack .. | .bunpack .. | .getfmt .. => True
  | .lmov .. | .vote .. | .voteBallot .. | .perm .. | .rdind .. | .wrind .. | .plog .. | .pmovToV .. | .pmovFromV .. => True
  | .vmcnt .. | .vmtest .. | .vmop .. | .vmffs .. | .vmget .. | .vmset .. | .engst .. | .rdpr .. => True
  | _ => False

/-- Nothing but the threads of cores and the records of events differs: memory, full/empty bits, contexts, queues,
launches, pontils, engines, page moves, links and time are as before. -/
def OnlyCores (s s' : State) : Prop :=
  s' = { s with issue := s'.issue, uids := s'.uids, workgroups := s'.workgroups, choice := s'.choice, sources := s'.sources
                pending := s'.pending }

/-- Every byte of memory reads as before. -/
def SameMemory (s s' : State) : Prop := ∀ l, s'.peek l = s.peek l

/-- Every byte of memory outside `ls` reads as before. -/
def SameBut (ls : List Nat) (s s' : State) : Prop := ∀ l, l ∉ ls → s'.peek l = s.peek l

/-- Threads other than those of the gang on issue are as before. -/
def OthersKept (s s' : State) (m : Member) : Prop :=
  ∀ u tid, (u ≠ m.wg.uid ∨ tid ∉ m.gang) → s'.thread? u tid = s.thread? u tid

/-- The member waits at the instruction (R32): nothing of its thread changes but the wait, which keeps the definitions of the issue
(R133), and the stall count, which runs from the issue (Table 3.1). -/
def WaitsAt (o : Out) (m : Member) (i : Instr) (k : WaitKind) : Prop :=
  ThreadAfter o m (fun _ t' => ∃ w, t' = { m.t with wait := some w, stall := stallOf i } ∧ w.kind = k ∧ w.instr = i ∧
    w.fmts = m.wg.fmts)

/-! ## Memory, in claims -/

/-- Every cached translation is what a walk of the tables gives (R255, R256). -/
def TlbFresh (s : State) : Prop :=
  ∀ t ∈ s.tlb, ∀ ofs, t.covers t.die ofs = true → ∃ at', walk s t.die ofs = some (t.leaf.toNat, t.bits, at')

/-- No frame is mapped twice (R256); an address has 64 bits. -/
def NoFrameTwice (s : State) (ctx : Nat) : Prop :=
  ∀ va va' l k k' z z', translate s ctx va = .ok (.here l k, z) → translate s ctx va' = .ok (.here l k', z') →
    va % 2 ^ 64 = va' % 2 ^ 64

/-- No die counts pages or keeps dirty bits (R263, R267). -/
def NoMigrationControl (s : State) : Prop := ∀ d, s.mcbs.getD d none = none

/-- An access of `m`, alone on issue, that the checks of R72 let through to the places `ps` of this module, none of them
poisoned or waiting, and an ordered one not on a UO page: `t` is the target of its word and `n` the elements it accesses. -/
structure Reaches (s : State) (m : Member) (o : MemOp) (n : FDef → Nat) (need : Rights) (write : Bool) (t : Target)
    (ps : List Place) : Prop where
  target : ∃ s₁, targetHere m s.popped o n need = .ok (t, s₁) ∧ checkPeers s₁ t.d = .ok () ∧ pathWaits s₁ t.d = false ∧
    ∃ s₂, targetPlaces s₁ t (n t.f) = .ok (ps, s₂) ∧ blocked s₂ write ps = none
  here : ps.all (fun p => p.away?.isNone) = true ∧ vaModule t.d.base = s.module.toNat
  legal : 2 ≤ t.f.w ∧ t.f.w ≤ 64
  sorted : memWf s.mem = true
  plain : o.order ≠ .plain → anyUo ps = false
  clean : s.poison = []

/-- The locations of places. -/
def locsOf (ps : List Place) : List Nat := ps.filterMap Place.loc?

/-- Element `e` of a target, as memory holds it. -/
def ElementIs (s s' : State) (t : Target) (e x : Nat) : Prop :=
  ∀ qs z, places s t.bd.ctx (t.d.span (t.bit e) t.f.w).1 (t.d.span (t.bit e) t.f.w).2 = .ok (qs, z) →
    elemBits t.d (t.bit e) t.f.w ((locsOf qs).map s'.peek) = x

/-- The block of a target of an alias, as memory holds it once its element `t.lo` has been written with the bits `x` (R67). -/
def BlockIs (s s' : State) (t : Target) (x : Nat) : Prop :=
  ∀ qs z, places s t.bd.ctx (t.d.span t.lo t.f.w).1 (t.d.span t.lo t.f.w).2 = .ok (qs, z) →
    ofBytes ((locsOf qs).map s'.peek) =
      aliasWrite (mxDef t.d.mxk) (ofBytes ((locsOf qs).map s.peek)) (t.d.lane t.lo) x

/-- No write on record touches these locations. -/
def Untouched (s : State) (ls : List Nat) : Prop := ∀ r ∈ s.hist, ∀ c ∈ r.cells, c.loc ∉ ls

/-- An object, a board or a descriptor as memory holds it. -/
def objectNow (s : State) (ps : List Place) : Nat := ofBytes ((locsOf ps).map s.peek)

/-- Every cached buffer table entry is what memory holds (R259, R260). -/
def EntriesFresh (s : State) : Prop :=
  ∀ e ∈ s.entryCache, ∀ cx, s.context? e.ctx = some cx → ∀ ps z,
    places s e.ctx (cx.btbase.toNat + 64 * e.index) 64 = .ok (ps, z) → e.bits = objectNow s ps

/-- An object that a word names, in this module, that may be operated on at once: nothing of it waits, is poisoned or
has a write on record. -/
structure ObjectFree (s : State) (b : ObjectAt) (write : Bool) : Prop where
  path : pathWaits s b.d = false
  room : blocked s write b.ps = none
  clean : s.poison = []
  here : b.ps.all (fun p => p.away?.isNone) = true ∧ vaModule b.d.base = s.module.toNat
  apart : (locsOf b.ps).Nodup
  untouched : Untouched s (locsOf b.ps)
  counts : NoMigrationControl s
  sorted : memWf s.mem = true

/-- The four fields of a barrier object (Table 8.6). -/
def barrierFields (o : Nat) : Nat × Nat × Nat × Bool := (barPend o, barExp o, barBytes o, barPhase o)

/-- One arrival with `n` bytes at an object with these fields, PEND not 0 (R154). -/
def arrived (f : Nat × Nat × Nat × Bool) (n : Nat) : Nat × Nat × Nat × Bool :=
  if f.1 = 1 ∧ (f.2.2.1 + n) % 2 ^ 48 = 0 then (f.2.1, f.2.1, 0, !f.2.2.2)
  else (f.1 - 1, f.2.1, (f.2.2.1 + n) % 2 ^ 48, f.2.2.2)

/-- An engine's completion with `n` bytes at an object with these fields (R154). -/
def subtracted (f : Nat × Nat × Nat × Bool) (n : Nat) : Nat × Nat × Nat × Bool :=
  let bytes := (f.2.2.1 + (2 ^ 48 - n % 2 ^ 48)) % 2 ^ 48
  if f.1 = 0 ∧ bytes = 0 then (f.2.1, f.2.1, 0, !f.2.2.2) else (f.1, f.2.1, bytes, f.2.2.2)

/-- A state in which nothing but the access on hand decides what memory gives: no write on record, no poison, no die down,
no count of pages, no stale copy of a translation or an entry. -/
structure Quiet (s : State) : Prop where
  hist : s.hist = []
  clean : s.poison = []
  up : s.down = []
  counts : NoMigrationControl s
  sorted : memWf s.mem = true
  tlb : TlbFresh s
  entries : EntriesFresh s

/-- No thread has waited for a granule since before the wait number `n`. -/
def NoOlderWait (s : State) (n : Nat) : Prop :=
  ∀ g ∈ s.workgroups, ∀ t ∈ g.threads, ∀ w, t.wait = some w → w.kind = .granule → n ≤ w.since

/-- `m` is a thread that waits at `i`, with nothing on issue: it has the format definitions of its issue (R133), and the peer table
is still that of its issue (R308). -/
def WaitingAt (s : State) (m : Member) (i : Instr) (k : WaitKind) : Prop :=
  s.issue = [] ∧ m.gang = [m.t.tid] ∧ ∃ g w, s.wg? m.wg.uid = some g ∧ g.thread? m.t.tid = some m.t ∧
  m.wg = { g with fmts := w.fmts } ∧ m.t.wait = some w ∧ w.kind = k ∧ w.instr = i ∧ w.peers = s.peers

/-- `o` is what comes of `i` for `m`: its issue, after which the thread is held `n` cycles, or the event `e`, after which it is held
for what is left of its own count (Table 3.1). -/
def IssuedOrResumed (s : State) (m : Member) (i : Instr) (k : WaitKind) (e : Instr) (o : Out) (n : Nat) : Prop :=
  (PerformsAlone s m i ∧ o = exec i s ∧ n = stallOf i) ∨ (WaitingAt s m i k ∧ o = exec e s ∧ n = m.t.stall)

/-- `WaitsAt` for an issue or for a thread that goes on waiting. -/
def WaitsOn (n : Nat) (o : Out) (m : Member) (i : Instr) (k : WaitKind) (q : State → Prop) : Prop :=
  ThreadAfter o m (fun s' t' => q s' ∧ ∃ w, t' = { m.t with wait := some w, stall := n } ∧ w.kind = k ∧ w.instr = i)

/-- A pontil context on issue that runs and does not wait. -/
def PontilOnIssue (s : State) (p : Pontil) : Prop :=
  (∃ rest, s.issue = .pontil p.id :: rest) ∧ s.pontil? p.id = some p ∧ p.state = .running ∧ p.wait = none

/-- The context performs `i`: it may, and its guard is true. -/
def PontilPerforms (s : State) (p : Pontil) (i : Instr) : Prop :=
  PontilOnIssue s p ∧ checkPontil i = .ok () ∧ p.guardOk i = true

/-- The context has gone on: its program counter and its loops are those after its instruction (R190). -/
def GoesOn (p p' : Pontil) : Prop := p'.pc = p.advance.pc ∧ p'.lc = p.advance.lc ∧ p'.loops = p.advance.loops ∧ p'.state = .running

/-- Only the context `p` of the machine's pontils, and no thread, differs. -/
def OnlyContext (s s' : State) (p : Pontil) : Prop :=
  (∀ q, q ≠ p.id → s'.pontil? q = s.pontil? q) ∧ s'.workgroups = s.workgroups ∧ s'.launches = s.launches ∧ s'.ops = s.ops

/-- An access of a context, as `Reaches` is of a thread. -/
structure PontilReaches (s : State) (p : Pontil) (o : QMemOp) (need : Rights) (write : Bool) (t : Target) (ps : List Place) :
    Prop where
  target : ∃ s₁, pontilTarget s.popped p o need = .ok (t, s₁) ∧ pathWaits s₁ t.d = false ∧
    ∃ s₂, targetPlaces s₁ t 1 = .ok (ps, s₂) ∧ blocked s₂ write ps = none
  here : ps.all (fun p => p.away?.isNone) = true ∧ vaModule t.d.base = s.module.toNat
  legal : 2 ≤ t.f.w ∧ t.f.w ≤ 64
  plain : o.order ≠ .plain → anyUo ps = false

/-- The next state, and in it the context. -/
def PontilAfter (o : Out) (p : Pontil) (q : State → Pontil → Prop) : Prop :=
  ∃ s' p', o = .next s' ∧ s'.pontil? p.id = some p' ∧ q s' p'

/-- No translation rests on the bytes at `ls`: the walks of R254 are the same whatever stands there. -/
def TablesApart (s : State) (ls : List Nat) : Prop :=
  ∀ z : State, z.roots = s.roots → z.mode = s.mode → (∀ l, l ∉ ls → z.peek l = s.peek l) → ∀ die ofs, die < 6 →
    ofs < 2 ^ 50 → walk z die ofs = walk s die ofs

/-- The record `b`, whose JOIN is zero in `z`, has been put forward in `s'`, for its context (R235, R236): a launch of at least one
workgroup that passes the checks and takes its leases stands on its queue; a record that fails a check adds no launch, and with no
completion object it has the code, with REFUSED, in its STATUS, where nothing else that is on record decides what that reads as. -/
def PutForward (s : State) (b : ObjectAt) (m : Member) (z s' : State) : Prop :=
  ∀ cx, s.context? m.wg.ctx = some cx →
    let accepted := acceptRecord z cx b.va (latestRels z (b.ps.take 8))
    (∀ e, accepted = .error e → s'.launches = s.launches ∧
      (recComp (objectNow s b.ps) = 0 → TablesApart s (locsOf b.ps) → (∀ r ∈ s.hist, r.loose = none) →
        objectNow s' (b.ps.drop 56) = codeNumber e + 2 ^ 16)) ∧
    (∀ l z₁, accepted = .ok (l, z₁) → recCount l.record ≠ 0 → takeLeases z₁ cx l.block = true →
      ∃ l', s'.launches = s.launches ++ [l'] ∧ l' = { l with entry := l'.entry } ∧ l'.addr = BitVec.ofNat 64 b.va ∧ l'.code = none)

/-- The bytes at `ls` are none of the context's buffer table. -/
def EntriesApart (s : State) (ctx : Nat) (ls : List Nat) : Prop :=
  ∀ cx i es z, s.context? ctx = some cx → i < cx.btlen → places s ctx (cx.btbase.toNat + 64 * i) 64 = .ok (es, z) →
    ∀ l ∈ locsOf es, l ∉ ls

/-! ## Engines, in claims -/

/-- Where `s` keeps the byte at a domain address. -/
def locAt (s : State) (ctx va : Nat) : Nat :=
  match translate s ctx va with
  | .ok (.here l _, _) => l
  | _ => 0

/-- The byte at a domain address, in a state `z` that keeps it where `s` does; `n` of them; and the `w` bits from bit `lo` of a
buffer. -/
def byteNow (s z : State) (ctx va : Nat) : Byte := z.peek (locAt s ctx va)
def bytesNow (s z : State) (ctx va n : Nat) : Nat := ofBytes ((List.range n).map (fun k => byteNow s z ctx (va + k)))
def bitsNow (s z : State) (ctx : Nat) (d : Bound) (lo w : Nat) : Nat :=
  natField (bytesNow s z ctx (d.base + lo / 8) ((lo % 8 + w + 7) / 8)) (lo % 8) w

/-- The addresses of the bytes that hold `n` bits from bit `lo` of a buffer. -/
def bitAddrs (d : Bound) (lo n : Nat) : List Nat :=
  if n = 0 then [] else (List.range ((lo + n - 1) / 8 - lo / 8 + 1)).map (fun k => d.base + lo / 8 + k)

/-- What operations touch besides the bytes they read: those they write, their status words and their objects. -/
def touchedBy (ops : List EngineOp) (writes : List Nat) : List Nat :=
  writes ++ ops.flatMap (fun op => (List.range 8).map (fun k => op.descAddr + 56 + k)) ++
    ops.flatMap (fun op => match op.comp with
      | none => []
      | some va => (List.range 16).map (fun k => va + k))

/-- Operations that nothing keeps from completing: every byte they touch is here, off UO pages and not waiting, none is touched
twice or read by another, and no page table lies among what they write. -/
structure EnginesFree (s : State) (ctx : Nat) (ops : List EngineOp) (reads writes : List Nat) : Prop where
  quiet : Quiet s
  once : NoFrameTwice s ctx
  whole : ∀ op ∈ ops, op.ctx = ctx ∧ op.aborted = none ∧ op.early = []
  reached : ∀ va ∈ reads ++ touchedBy ops writes, ∃ l kind z, translate s ctx va = .ok (.here l kind, z) ∧ kind ≠ .uo ∧
    ∀ write, blocked s write [.here l kind] = none
  apart : ((touchedBy ops writes).map (· % 2 ^ 64)).Nodup ∧ ∀ a ∈ reads, ∀ b ∈ touchedBy ops writes, a % 2 ^ 64 ≠ b % 2 ^ 64
  tables : TablesApart s ((touchedBy ops writes).map (locAt s ctx))

/-- Operations have completed: they have left their engines, their status words and their objects are as R193 says, and of memory
nothing else than what they write has changed. -/
structure EnginesEnd (s s' : State) (ctx : Nat) (ops : List EngineOp) (writes : List Nat) (status bytes : EngineOp → Nat) :
    Prop where
  gone : s'.ops = ops.foldl (fun os op => removeFirst (fun o => o == op) os) s.ops
  kept : s'.workgroups = s.workgroups ∧ s'.pontils = s.pontils
  status : ∀ op ∈ ops, bytesNow s s' ctx (op.descAddr + 56) 8 = status op
  object : ∀ op ∈ ops, ∀ va, op.comp = some va →
    barrierFields (bytesNow s s' ctx va 16) = subtracted (barrierFields (bytesNow s s ctx va 16)) (bytes op)
  memory : ∀ l, l ∉ (touchedBy ops writes).map (locAt s ctx) → s'.peek l = s.peek l

/-- How a run of a transducer ends: REASON, STATE, CONSUMED, the bytes it produces and its marks. -/
structure XdsEnd where
  reason : Nat
  state : Nat
  consumed : Nat
  out : List Nat
  marks : List Nat

/-- xds_run of R199 over a table of `len` bytes `tb`, from state `st` and input byte `p`, with so many input bytes left. -/
def xdsRun (tb inp : Nat → Nat) (len states ocap mcap : Nat) : Nat → Nat → Nat → List Nat → List Nat → XdsEnd
  | 0, st, p, out, marks => ⟨0, st, p, out, marks⟩
  | left + 1, st, p, out, marks =>
    let b := inp p
    let t := ofBytes ((List.range 8).map (fun k => BitVec.ofNat 8 (tb (320 + 128 * st + 8 * (tb (64 + b) % 16) + k))))
    let next := natField t 0 12
    let dict := t.testBit 12
    let nlit := natField t 13 3
    let dofs := natField t 16 24
    let dlen := natField t 40 8
    let emitted := (if t.testBit 50 then [b] else []) ++
      (if dict then (List.range dlen).map (fun k => tb (dofs + k)) else (List.range nlit).map (fun k => natField t (16 + 8 * k) 8))
    if natField t 51 13 ≠ 0 ∨ states ≤ next ∨ 4 < nlit ∨ (dict = true ∧ len < dofs + dlen) then ⟨4, st, p, out, marks⟩
    else if ocap < out.length + emitted.length then ⟨2, st, p, out, marks⟩
    else if t.testBit 48 ∧ marks.length = mcap then ⟨3, st, p, out, marks⟩
    else
      let marks := if t.testBit 48 then marks ++ [p] else marks
      if t.testBit 49 then ⟨1, next, p + 1, out ++ emitted, marks⟩
      else xdsRun tb inp len states ocap mcap left next (p + 1) (out ++ emitted) marks

/-- Every write of the host to a UO page has its place in coherence order: MEM_WRITE releases what it writes (R78, Table 21.2). -/
def HostPlaced (s : State) : Prop := ∀ r ∈ s.hist, r.agent = .host → ∀ l, r.loose = some l → l.placed = true

/-- A frame of the host: a header (Table 21.1) without REPLY or STATUS, and the payload. -/
def hostFrame (op : Nat) (tag : Tag) (ctx : Fin 64) (p : List Byte) : List Byte :=
  bytesOf (0x49524F51 + 2 ^ 32 + op * 2 ^ 40 + tag.toNat * 2 ^ 64 + p.length * 2 ^ 96 + ctx.val * 2 ^ 128) 32 ++ p

/-- One reply has been sent to the agent that commands answer to; none when there is none, or when a later OPEN has ended the
command's session (R300). -/
def Replies (s s' : State) (op : Nat) (tag : Tag) (status : Nat) (payload : List Byte) (ctx : Nat := 0) : Prop :=
  s'.outbox = s.outbox ++ (if s'.mute then [] else match s'.answersTo with
    | none => []
    | some d => [⟨d, op, true, tag, ctx, status, payload⟩])

/-- A command is answered, and nothing else happens. -/
def OnlyReplies (o : Out) (s : State) (op : Nat) (tag : Tag) (status : Nat) (payload : List Byte) (ctx : Nat := 0) : Prop :=
  ∃ s', o = .next s' ∧ Replies s s' op tag status payload ctx ∧ s' = { s with outbox := s'.outbox }

/-- A command is refused with a code: the reply carries it, one event reports it (R276; its source is the model's choice, log 49),
and nothing else happens. -/
def Refuses (o : Out) (s : State) (op : Nat) (tag : Tag) (c : Code) (ctx : Nat := 0) : Prop :=
  ∃ s', o = .next s' ∧ Replies s s' op tag 1 (bytesOf (codeNumber c) 2) ctx ∧
    ∃ detail, s' = State.emit { s with outbox := s'.outbox, choice := s'.choice } 0 9 4 (codeNumber c) ctx 0 detail

/-- Only an event record, if any, and what is named in `f` differ. -/
def ButEvents (s s' : State) : Prop :=
  s' = { s with choice := s'.choice, sources := s'.sources, pending := s'.pending }

/-- What a location holds after bytes have been written at places, in order. -/
def HoldsBytes (s' : State) (ps : List Place) (bs : List Byte) : Prop := (locsOf ps).map s'.peek = bs

end Machine
end Sys2Proof
end

