-- ==== Sys2Proof/Certificates/Slice0/Obligations.lean ====
section
/-! DEFINITION. Statements about the machine, for the provers. -/

open Sys2Proof Sys2Proof.Machine

/-! ## Words -/

/-- Encoding a well-formed instruction word and decoding it gives it back, with every operand at every value the encoding
admits (R96 to R110). -/
def Obligations.EncodeThenDecode : Prop :=
  ∀ (i : Instr) (w : Word), encode i = some w → i.wf = true → decodeWord w = .ok i

/-- A word that decodes is the encoding of what it decodes to, and that is well formed: every word has one meaning, and no
bit of it is dropped. -/
def Obligations.DecodeThenEncode : Prop :=
  ∀ (w : Word) (i : Instr), decodeWord w = .ok i → encode i = some w ∧ i.wf = true ∧ (commonOf? i).isSome = true

/-- Words of Tables 6.21 and 6.22 of the spec, bit by bit, and what they stand for. -/
def Obligations.DecodedWords : Prop :=
  decodeTableWord 64 0x2367040204033000 = some (.ffma ⟨6, .always⟩ 4 2 4 3 3 .slotDefault (.source 0)) ∧
  decodeTableWord 64 0x2007060405FF3082 = some (.fadd ⟨0, .always⟩ 6 4 5 3 .slotDefault (.cross .rotate 1 false)) ∧
  decodeTableWord 64 0x2C670504FFFF4203 = some (.cvt ⟨6, .always⟩ 5 4 4 3 .rne) ∧
  decodeTableWord 64 0x0E47000008FF0006 = some (.icmp ⟨4, .always⟩ 0 0 8 .ltu) ∧
  decodeTableWord 64 0x1447FEFE00000FFF = some (.addk ⟨4, .always⟩ 0xFE 0xFE 0xFFF) ∧
  decodeTableWord 64 0x6007040000000053 = some (.ld ⟨0, .always⟩ 4 ⟨0, 0, 0, .thread, .plain, 2, true, 3⟩) ∧
  decodeTableWord 64 0x600702FF14000A80 = some (.ld ⟨0, .always⟩ 2 ⟨0xFF, 5, 0, .device, .acquire, 0, false, 0⟩) ∧
  decodeTableWord 64 0x9001FFFF00000040 = some (.br ⟨0, .pred 1 false⟩ 1 false) ∧
  decodeTableWord 64 0x9007FDFF00000082 = some (.call ⟨0, .always⟩ 2) ∧
  decodeTableWord 64 0x9007FFFD00000004 = some (.ret ⟨0, .always⟩ 0xFD) ∧
  (∀ w ∈ [0x0000000000000000, 0x010F000000000000, 0x0107000000000001, 0x9007FFFF00000005, 0x9007FDFF000000A2,
    0x600702FF14000E80, 0x0E47070008FF0006, 0xD007000000000000], decodeTableWord 64 w = none)

/-! ## Steps -/

/-- A step fetches the word at the program counter of the gang, or pontil, on issue, and performs the instruction it
decodes to (R39, R98, R172); a fetch that must wait leaves its issuer as it was (R280, R307, R310). With nothing on issue, time
passes, and then happens what its tick has come for, else a command that waits and may now be performed, else the turn at the head
of the agenda (log 1, log 2). When no write is on record, the word fetched is what memory holds at its places, least significant
byte first. -/
def Obligations.StepRunsDecodedInstruction : Prop :=
  (∀ (s t : State) (rest : List Issuer) (u : Nat) (tids : List Nat) (g : Workgroup) (m : Member) (ms : List Member)
      (l : Launch) (w : Word) (i : Instr),
    s.issue = .gang u tids :: rest → s.wg? u = some g → membersOf g tids = m :: ms → s.launch? g.launch = some l →
    (fetchWaits s (binderOf s g m.t) m.t.pc = true → step s = .next { s with issue := rest }) ∧
    (fetchWaits s (binderOf s g m.t) m.t.pc = false → fetchWord s (binderOf s g m.t) l.since m.t.pc = .ok (w, t) →
      decodeWord w = .ok i → step s = exec i t)) ∧
  (∀ (s t : State) (p : Pontil) (g : Workgroup) (l : Launch) (w : Word) (i : Instr),
    PontilOnIssue s p → s.wg? p.wg = some g → s.launch? g.launch = some l →
    (fetchWaits s (binderOfPontil s p) p.pc = true → step s = .next s.popped) ∧
    (fetchWaits s (binderOfPontil s p) p.pc = false → fetchWord s (binderOfPontil s p) l.since p.pc = .ok (w, t) →
      decodeWord w = .ok i → step s = exec i t)) ∧
  (∀ (s t : State) (rest : List Turn) (sender : Nat) (bytes : List Byte) (i : Instr), s.issue = [] →
    let z := passTime s
    let next : State := { z with agenda := rest }
    (dueEvent z = some i → step s = exec i z) ∧
    (dueEvent z = none → arrivedReady z = some (t, i) → commonOf? i = none → t.awake i = true → step s = exec i t) ∧
    (dueEvent z = none → arrivedReady z = none → z.agenda = .event i :: rest → commonOf? i = none → next.awake i = true →
      step s = exec i next) ∧
    (dueEvent z = none → arrivedReady z = none → z.agenda = .frame sender bytes :: rest → z.power ≠ .off →
      frameStep next sender bytes = i → commonOf? i = none → commandHeld next i = false → next.awake i = true →
      step s = exec i { next with caller := some sender, mute := false })) ∧
  (∀ (s t t' : State) (bd : Binder) (since : Nat) (pc w : Word) (d : Bound) (ps : List Place),
    s.hist = [] → bindingEntry s bd 62 = .ok (d, t) → places t bd.ctx (d.base + pc.toNat) 8 = .ok (ps, t') →
    ps.all (fun p => p.away?.isNone) = true →
    (∃ t'', fetchWord s bd since pc = .ok (w, t'')) → w = BitVec.ofNat 64 (ofBytes ((ps.filterMap Place.loc?).map s.peek)))

/-! ## Invariants and reset -/

/-- Every step keeps memory in its canonical form, from every state that has it. -/
def Obligations.MemoryStaysCanonical : Prop :=
  ∀ s t : State, memWf s.mem = true → step s = .next t → memWf t.mem = true

/-- After reset the package is in minimal mode: nothing is loaded, no context, launch, workgroup or pontil is there, the
tick is 0, and of its ports only Ultra Ethernet port 0 is up (R312). Its memory is in canonical form, and reads zero everywhere
(the model's choice: log 4). -/
def Obligations.ResetIsMinimalMode : Prop :=
  memWf State.reset.mem = true ∧ (∀ l, State.reset.peek l = 0) ∧
  State.reset.power = .minimal ∧ State.reset.contexts = [] ∧ State.reset.queues = [] ∧ State.reset.launches = [] ∧
  State.reset.workgroups = [] ∧ State.reset.pontils = [] ∧ State.reset.ops = [] ∧ State.reset.verified = [] ∧
  State.reset.now = 0 ∧ State.reset.full = [] ∧
  ∀ p ∈ State.reset.ports, (p.state ≠ 0 ↔ p.kind = .ethernet ∧ p.num = 0)

/-! ## Checks, guards and traps -/

/-- The checks of R112 before the guard depend on the word and the context alone, so a check that fails, in the order opcode, class,
privilege, fields, registers, is raised by every member of the gang, guarded true or not, and each keeps its program counter at the
word; nothing of the word is performed (R112, R113). The second half is of a word that does not decode. Where the die keeps a trace,
the record of the code follows (R296). -/
def Obligations.WordChecks : Prop :=
  (∀ (s : State) (m : Member) (i : Instr), OnIssue s m → (commonOf? i).isSome = true →
    Untraced s m →
    (∀ c, checkCore s i m.wg.ctx m.wg.nregs = .error c →
      Traps (exec i s) m c m.t.pc ∧ ∃ s', exec i s = .next s' ∧ OnlyCores s s' ∧ OthersKept s s' m) ∧
    (classOf i = .pontil → checkCore s i m.wg.ctx m.wg.nregs = .error .illegalClass) ∧
    (classOf i = .priv → s.isPriv m.wg.ctx = false → checkCore s i m.wg.ctx m.wg.nregs = .error .privInstr) ∧
    (classOf i ≠ .pontil → (classOf i = .priv → s.isPriv m.wg.ctx = true) → i.wf = false →
      checkCore s i m.wg.ctx m.wg.nregs = .error .illegalField) ∧
    (classOf i ≠ .pontil → (classOf i = .priv → s.isPriv m.wg.ctx = true) → i.wf = true →
      (∃ r ∈ (uses i).vregs, granted m.wg.nregs r = false) → checkCore s i m.wg.ctx m.wg.nregs = .error .regRange)) ∧
  (∀ (s t : State) (rest : List Issuer) (u : Nat) (tids : List Nat) (g : Workgroup) (m : Member) (ms : List Member)
      (l : Launch) (w : Word) (c : Code),
    s.issue = .gang u tids :: rest → s.wg? u = some g → membersOf g tids = m :: ms → s.launch? g.launch = some l →
    fetchWaits s (binderOf s g m.t) m.t.pc = false →
    fetchWord s (binderOf s g m.t) l.since m.t.pc = .ok (w, t) → decodeWord w = .error c →
    (∀ x ∈ m :: ms, Traps (step s) x (wordCode w true (s.isPriv g.ctx)) m.t.pc) ∧
    ∃ y, step s = .next (traceRaised s.popped y u) ∧ SameMemory s y ∧ y.full = s.full ∧ y.launches = s.launches ∧
      y.pontils = s.pontils ∧ (Untraced s m → traceRaised s.popped y u = y))

/-- A member whose guard is false has no effect, but advances its program counter and takes the stall count (R20, R36). -/
def Obligations.FalseGuardOnlyAdvances : Prop :=
  ∀ (s : State) (m : Member) (i : Instr), OnIssue s m → gate s m i = .ok false →
    ThreadAfter (exec i s) m (fun _ t' =>
      t' = { m.t with pc := m.t.pc + 8, stall := stallOf i, windows := ageWindows (stallOf i) m.t.windows [], wait := none })

/-- A code that an instruction raises is precise: the raising thread is left exactly as it was, but for the code, and memory,
full/empty bits, launches, engines and every other thread are unchanged (R272). -/
def Obligations.TrapIsPrecise : Prop :=
  ∀ (s s' : State) (m : Member) (t' : Thread) (i : Instr), Alone s m → (commonOf? i).isSome = true →
    Untraced s m → m.t.trap = none →
    exec i s = .next s' → s'.thread? m.wg.uid m.t.tid = some t' → t'.trap ≠ none →
    t' = { m.t with trap := t'.trap, wait := none } ∧ OnlyCores s s' ∧ SameMemory s s' ∧ OthersKept s s' m

/-- A register written with latency L is read as the new value once the stall counts since add up to L or more, and as the
value held before until then (R40, R41); `ns` are the counts of the instructions issued since. With the checking flag set, a
read of a register or predicate inside a short window raises STALL_SHORT instead (R41, R328). -/
def Obligations.ShortWindows : Prop :=
  (∀ (t : Thread) (L n : Nat) (d : VReg) (x : Word) (ns : List Nat), granted t.regs.length d = true → d ≠ 0xFF →
    t.vShort d = false →
    (ns.foldl (fun t n => t.apply n {}) (t.apply n { lat := some L, writes := [.v d x] })).readV d =
      if L ≤ n + ns.sum then x else t.getV d) ∧
  (∀ (s : State) (m : Member) (i : Instr), OnIssue s m → (commonOf? i).isSome = true →
    checkCore s i m.wg.ctx m.wg.nregs = .ok () → s.isChecked m.wg.ctx = true →
    (m.t.guardShort i = true ∨ (m.t.guardOk i = true ∧ m.readsShort i = true)) → Traps (exec i s) m .stallShort m.t.pc)

/-! ## Frames of instructions on registers -/

/-- Instructions on registers alone change nothing but their own threads, and there only destinations, flags, the program
counter, the stall count and the bookkeeping of results (R36). Where the die keeps a trace, the records of the codes that members
raise follow (R296). -/
def Obligations.RegisterInstructionsFrame : Prop :=
  ∀ (s : State) (m : Member) (i : Instr), OnIssue s m → LocalOnly i →
    ∃ s', exec i s = .next (traceRaised s.popped s' m.wg.uid) ∧
      (traceOn s' m.wg.core.die.val m.wg.ctx 4 = none → exec i s = .next s') ∧
      OnlyCores s s' ∧ SameMemory s s' ∧ OthersKept s s' m ∧
      (∀ u g, s.wg? u = some g → ∃ g', s'.wg? u = some g' ∧
        { g' with threads := g.threads, halted := g.halted, formed := g.formed } = g) ∧
      ∃ t', s'.thread? m.wg.uid m.t.tid = some t' ∧
        (∀ r, r ∉ (uses i).dst → t'.getV r = m.t.getV r) ∧ (∀ p, p ∉ (uses i).pdst → t'.getP p = m.t.getP p) ∧
        (∀ k, k ∉ (uses i).vdst → t'.getVm k = m.t.getVm k) ∧
        (classOf i ≠ .format → (∀ c a, i ≠ .wrsr c a) → t'.fflags = m.t.fflags) ∧
        ((∀ c a, i ≠ .wrsr c a) → t'.fflags &&& m.t.fflags = m.t.fflags) ∧
        t'.depth = m.t.depth ∧ t'.parked = m.t.parked ∧ t'.live = m.t.live ∧ t'.view = m.t.view ∧
        t'.poisoned = m.t.poisoned ∧ t'.regs.length = m.t.regs.length

/-! ## Integer and address instructions (Tables 7.3, 7.5) -/

/-- Results of the integer group on whole registers (R116, Table 7.3). -/
def Obligations.IntegerResults : Prop :=
  ∀ (c : Common) (d a b k : VReg) (p : PReg) (md : Mods),
    Gives (.iadd c d a b md) md d (fun m => m.opA a md + m.opB b md) ∧
    Gives (.isub c d a b md) md d (fun m => m.opA a md - m.opB b md) ∧
    Gives (.imul c d a b md) md d (fun m => m.opA a md * m.opB b md) ∧
    Gives (.imad c d a b k md) md d (fun m => m.opA a md * m.opB b md + m.t.readV k) ∧
    Gives (.iand c d a b md) md d (fun m => m.opA a md &&& m.opB b md) ∧
    Gives (.ior c d a b md) md d (fun m => m.opA a md ||| m.opB b md) ∧
    Gives (.ixor c d a b md) md d (fun m => m.opA a md ^^^ m.opB b md) ∧
    Gives (.iandn c d a b md) md d (fun m => m.opA a md &&& ~~~(m.opB b md)) ∧
    Gives (.ishl c d a b md) md d (fun m => m.opA a md <<< m.opB b md) ∧
    Gives (.irot c d a b md) md d (fun m => (m.opA a md).rotateLeft (m.opB b md).toNat) ∧
    GivesNow (.imulh c d a b .signed) (fun _ m => [.v d
      (((m.t.readV a).signExtend 128 * (m.t.readV b).signExtend 128).extractLsb' 64 64)]) (fun _ _ => 0) ∧
    GivesNow (.imulh c d a b .unsigned) (fun _ m => [.v d
      (((m.t.readV a).setWidth 128 * (m.t.readV b).setWidth 128).extractLsb' 64 64)]) (fun _ _ => 0) ∧
    GivesNow (.ishr c d a b .signed) (fun _ m => [.v d ((m.t.readV a).sshiftRight (m.t.readV b).toNat)]) (fun _ _ => 0) ∧
    GivesNow (.ishr c d a b .unsigned) (fun _ m => [.v d (m.t.readV a >>> m.t.readV b)]) (fun _ _ => 0) ∧
    GivesNow (.isel c d a b p) (fun _ m => [.v d (if m.t.readP p then m.t.readV a else m.t.readV b)]) (fun _ _ => 0) ∧
    GivesNow (.iun c d a .neg) (fun _ m => [.v d (-(m.t.readV a))]) (fun _ _ => 0) ∧
    GivesNow (.iun c d a .abs) (fun _ m => [.v d (if (m.t.readV a).toInt < 0 then -(m.t.readV a) else m.t.readV a)])
      (fun _ _ => 0)

/-- Comparisons, limits, bit counts and bit fields (R116, Tables 6.19 and 7.3). -/
def Obligations.IntegerTestsAndFields : Prop :=
  ∀ (c : Common) (d a b k : VReg) (p : PReg),
    (∀ t, GivesNow (.icmp c p a b t) (fun _ m =>
      let x := m.t.readV a
      let y := m.t.readV b
      [.p p (match t with
        | .eq => decide (x.toNat = y.toNat) | .ne => decide (x.toNat ≠ y.toNat)
        | .lt => decide (x.toInt < y.toInt) | .le => decide (x.toInt ≤ y.toInt)
        | .gt => decide (y.toInt < x.toInt) | .ge => decide (y.toInt ≤ x.toInt)
        | .ltu => decide (x.toNat < y.toNat) | .leu => decide (x.toNat ≤ y.toNat)
        | .gtu => decide (y.toNat < x.toNat) | .geu => decide (y.toNat ≤ x.toNat))]) (fun _ _ => 0)) ∧
    (∀ t, GivesNow (.ilim c d a b t) (fun _ m =>
      let x := m.t.readV a
      let y := m.t.readV b
      [.v d (match t with
        | .min => BitVec.ofInt 64 (min x.toInt y.toInt) | .max => BitVec.ofInt 64 (max x.toInt y.toInt)
        | .minu => BitVec.ofNat 64 (min x.toNat y.toNat) | .maxu => BitVec.ofNat 64 (max x.toNat y.toNat))]) (fun _ _ => 0)) ∧
    (∀ t, GivesNow (.ibit c d a t) (fun _ m =>
      let x := m.t.readV a
      [.v d (match t with
        | .popc => BitVec.ofNat 64 ((List.finRange 64).countP (fun i => x.getLsbD i.val))
        | .clz => x.clz
        | .ctz => x.ctz
        | .brev => x.reverse)]) (fun _ _ => 0)) ∧
    GivesNow (.bfx c d a b k .unsigned) (fun _ m =>
      let q := min (m.t.readV b).toNat 64
      let n := min (m.t.readV k).toNat (64 - q)
      [.v d (((m.t.readV a).extractLsb' q n).setWidth 64)]) (fun _ _ => 0) ∧
    GivesNow (.bfx c d a b k .signed) (fun _ m =>
      let q := min (m.t.readV b).toNat 64
      let n := min (m.t.readV k).toNat (64 - q)
      [.v d (((m.t.readV a).extractLsb' q n).signExtend 64)]) (fun _ _ => 0) ∧
    GivesNow (.bfi c d a b k) (fun _ m =>
      let q := min (m.t.readV b).toNat 64
      let n := min (m.t.readV k).toNat (64 - q)
      let field : Word := (BitVec.allOnes n).setWidth 64 <<< q
      [.v d ((m.t.readV d &&& ~~~field) ||| ((m.t.readV a <<< q) &&& field))]) (fun _ _ => 0)

/-- Constants, special registers and s.fflags (R15, R117, R118, Tables 1.4, 1.6, 7.5 and 17.1). That a die's tick is a common count,
or one more, is the model's (log 2). -/
def Obligations.ConstantsAndSpecialRegisters : Prop :=
  ∀ (c : Common) (d a : VReg) (k12 : BitVec 12) (k20 : BitVec 20) (k32 : BitVec 32),
    GivesNow (.addk c d a k12) (fun _ m => [.v d (BitVec.ofInt 64 ((m.t.readV a).toInt + k12.toInt))]) (fun _ _ => 0) ∧
    GivesNow (.adpc c d k20) (fun _ m => [.v d (BitVec.ofInt 64 ((m.t.pc.toNat / 64 * 64 : Nat) + k20.toInt * 2 ^ 12))])
      (fun _ _ => 0) ∧
    GivesNow (.movk c d k32) (fun _ _ => [.v d (BitVec.ofNat 64 k32.toNat)]) (fun _ _ => 0) ∧
    GivesNow (.movhk c d a k32) (fun _ m => [.v d (BitVec.ofNat 64 (k32.toNat * 2 ^ 32 + (m.t.readV a).toNat % 2 ^ 32))])
      (fun _ _ => 0) ∧
    (∀ r, GivesNow (.rdsr c d r) (fun s m => [.v d (BitVec.ofNat 64 (specialReg s m.wg m.t r))]) (fun _ _ => 0)) ∧
    (∀ (s : State) (m : Member), Performs s m (.wrsr c a) → ThreadAfter (exec (.wrsr c a) s) m (fun _ t' =>
      t'.fflags = (m.t.readV a).setWidth 5 ∧ t'.regs = m.t.regs ∧ t'.preds = m.t.preds ∧ t'.pc = m.t.pc + 8)) ∧
    (∀ (s : State) (g : Workgroup) (t : Thread) (l : Launch), s.launch? g.launch = some l →
      specialReg s g t .lane = t.tid % 32 ∧ specialReg s g t .warp = t.tid / 32 ∧ specialReg s g t .tid = t.tid ∧
      specialReg s g t .wgsize = g.size ∧ specialReg s g t .depth = t.depth ∧ specialReg s g t .fflags = t.fflags.toNat ∧
      specialReg s g t .module = s.module.toNat ∧ specialReg s g t .mode = s.mode.val ∧
      specialReg s g t .core = g.core.core.val ∧ specialReg s g t .cluster = g.core.cluster.val ∧
      specialReg s g t .gridx = natField l.record 128 32 ∧ specialReg s g t .gridy = natField l.record 160 32 ∧
      specialReg s g t .gridz = natField l.record 192 32 ∧ specialReg s g t .ndie = [4, 2, 1].getD s.mode.val 0 ∧
      specialReg s g t .tick = (s.now + if s.ahead.getD g.core.die.val false then 1 else 0) % 2 ^ 64 ∧
      (∀ cx, s.context? g.ctx = some cx → specialReg s g t .dev = cx.device ∧
        ∀ k, g.core.die.val = [4, 2, 1].getD s.mode.val 0 * cx.device + k → specialReg s g t .die = k) ∧
      (0 < recGridX l.record → 0 < recGridY l.record →
        specialReg s g t .wgx < specialReg s g t .gridx ∧ specialReg s g t .wgy < specialReg s g t .gridy ∧
        g.index = specialReg s g t .wgx + specialReg s g t .gridx *
          (specialReg s g t .wgy + specialReg s g t .gridy * specialReg s g t .wgz)))

/-! ## Format arithmetic (R119 to R134) -/

/-- Sums, products, quotients, roots and scalings, rounded once into each element of the slot (R119 to R121, R127). -/
def Obligations.FormatArithmetic : Prop :=
  ∀ (c : Common) (d a b k : VReg) (fs : Slot) (rm : Round) (md : Mods),
    let x (m : Member) (f : FDef) (e : Nat) := operand f md 0 (m.opA a md) e
    let y (m : Member) (f : FDef) (e : Nat) := operand f md 1 (m.opB b md) e
    let z (m : Member) (f : FDef) (e : Nat) := operand f md 2 (m.t.readV k) e
    let at' (m : Member) (f : FDef) (e : Nat) := f.lanes * m.t.lane + e
    WorksByElements (.fadd c d a b fs rm md) d fs kinds04 rm md true
      (fun m f r e => encodeWith f r (at' m f e) (exactAdd r (x m f e) (y m f e))) ∧
    WorksByElements (.fsub c d a b fs rm md) d fs kinds04 rm md true
      (fun m f r e => encodeWith f r (at' m f e) (exactAdd r (x m f e) (y m f e).negate)) ∧
    WorksByElements (.fmul c d a b fs rm md) d fs kinds04 rm md true
      (fun m f r e => encodeWith f r (at' m f e) (exactMul (x m f e) (y m f e))) ∧
    WorksByElements (.ffma c d a b k fs rm md) d fs kinds04 rm md true
      (fun m f r e => encodeWith f r (at' m f e) (exactFma r (x m f e) (y m f e) (z m f e))) ∧
    WorksByElements (.fdiv c d a b fs rm md) d fs kind0 rm md false
      (fun m f r e => encodeWith f r (at' m f e) (exactDiv (x m f e) (y m f e))) ∧
    WorksByElements (.fsqrt c d a fs rm md) d fs kind0 rm md false
      (fun m f r e => encodeWith f r (at' m f e) (exactSqrt (x m f e))) ∧
    WorksByElements (.frcp c d a fs rm md) d fs kind0 rm md false
      (fun m f r e => encodeWith f r (at' m f e) (exactDiv (.num false 1 1 0) (x m f e))) ∧
    WorksByElements (.fscale c d a b fs rm md) d fs kind0 rm md true
      (fun m f r e => encodeWith f r (at' m f e)
        ((x m f e).scale (clampInt (-262144) 262144 (m.opB b md).toInt), signal [x m f e]))

/-- Transcendentals work element by element in float slots, owe their result, and deliver for each element what the slot, the
effective rounding and the value of the operand alone decide (R119, R129). Special arguments give what Table 7.11 says. A result
that the slot has is delivered exactly, and else inexact is raised. A value within the slot's finite range is within the bound of
Table 7.10, on no side that a directed rounding excludes; there the lower end of the model's enclosure stands for y (log 9). -/
def Obligations.Transcendentals : Prop :=
  (∀ (fn : Transc) (w : Word) (rm : Round),
    let f := fdefOf w
    let mode : Round := if rm = .rsr ∨ rm = .rod then .rne else rm
    let table (v : Val) : Option (Val × Flags) := match fn, v with
      | _, .nan q => some (.nan true, if q then 0 else fInvalid)
      | .exp2, .num _ 0 _ _ | .exp, .num _ 0 _ _ | .cos, .num _ 0 _ _ => some (valInt 1 0, 0)
      | .exp2, .inf s | .exp, .inf s => some (if s then valZero false else .inf false, 0)
      | .log2, .num s n _ _ | .log, .num s n _ _ =>
        if n = 0 then some (.inf true, fDivZero) else if s then some (.nan true, fInvalid) else none
      | .log2, .inf s | .log, .inf s => some (if s then (.nan true, fInvalid) else (.inf false, 0))
      | .rsqrt, .num s n _ _ => if n = 0 then some (.inf s, fDivZero) else if s then some (.nan true, fInvalid) else none
      | .rsqrt, .inf s => some (if s then (.nan true, fInvalid) else (valZero false, 0))
      | .sin, .inf _ | .cos, .inf _ => some (.nan true, fInvalid)
      | .sin, .num s 0 d e | .tanh, .num s 0 d e | .erf, .num s 0 d e => some (.num s 0 d e, 0)
      | .tanh, .inf s | .erf, .inf s => some (valInt (if s then -1 else 1) 0, 0)
      | _, _ => none
    let exact (x y : ℚ) : Prop := match fn with
      | .exp2 => ∃ k : ℤ, x = k ∧ y = 2 ^ k
      | .log2 => ∃ k : ℤ, x = 2 ^ k ∧ y = k
      | .log => x = 1 ∧ y = 0
      | .rsqrt => ∃ k : ℤ, x = 4 ^ k ∧ y = 2 ^ (-k)
      | _ => False
    let rounded : Bool := match fn with
      | .exp2 | .log2 | .exp | .log | .rsqrt => true
      | _ => false
    let value (p : Nat) : Option ℚ := valueOf (decodeFloat f false p)
    fdefLegal w = true → f.kind = 0 →
    (∀ v y fl, table v = some (y, fl) → Elementary.element fn w rm v =
      (let q := encodeElem f y mode 0 (fl == fDivZero)
       (q.1, fl ||| q.2))) ∧
    ∀ (s : Bool) (n : Nat) (e : Int) (x : ℚ), n ≠ 0 → valueOf (.num s n 1 e) = some x → table (.num s n 1 e) = none →
      let r := Elementary.element fn w rm (.num s n 1 e)
      let en := (Elementary.enclosed fn f mode s n e).1
      let y : ℚ := (if en.neg then -1 else 1) * en.lo * (2 : ℚ) ^ en.e
      let bound : ℚ := match fn with
        | .sin | .cos => if f.mw ≤ 10 ∨ |x| ≤ 2 ^ 20 * (314159 / 100000) then 1 else 2
        | .tanh | .erf => if f.mw ≤ 10 then 1 else 2
        | _ => 1
      (∀ y p, exact x y → f.sub ≤ 1 → p < 2 ^ f.w → value p = some y →
        value r.1 = some y ∧ r.2 &&& fInexact = 0 ∧ (y = 0 → r.1 = 0)) ∧
      ((∀ y p, exact x y → p < 2 ^ f.w → value p ≠ some y) → r.2 &&& fInvalid = 0 → r.2 &&& fInexact = fInexact) ∧
      (rounded = true → f.mw ≤ 10 → r.1 = (encodeElem f (.num en.neg en.lo 1 en.e) mode 0 false).1) ∧
      (en.lo ≠ 0 → r.2 &&& (fInvalid ||| fOverflow) = 0 → (2 ≤ f.sub → r.2 &&& fUnderflow = 0) →
        ∃ q : ℚ, value r.1 = some q ∧ |q - y| < bound * 2 ^ (max (Int.log 2 |y|) (1 - f.bias) - f.mw) ∧
          (mode = .rup → y ≤ q) ∧ (mode = .rdn → q ≤ y) ∧ (mode = .rtz → if en.neg then y ≤ q else q ≤ y))) ∧
  ∀ (c : Common) (d a : VReg) (fs : Slot) (rm : Round) (md : Mods),
    let g (fn : Transc) (m : Member) (f : FDef) (r : Round) (e : Nat) :=
      Elementary.element fn (slotWord m.wg.fmts fs) r (operand f md 0 (m.opA a md) e)
    WorksByElements (.fexp2 c d a fs rm md) d fs kind0 rm md false (g .exp2) ∧
    WorksByElements (.flog2 c d a fs rm md) d fs kind0 rm md false (g .log2) ∧
    WorksByElements (.fexp c d a fs rm md) d fs kind0 rm md false (g .exp) ∧
    WorksByElements (.flog c d a fs rm md) d fs kind0 rm md false (g .log) ∧
    WorksByElements (.frsqrt c d a fs rm md) d fs kind0 rm md false (g .rsqrt) ∧
    WorksByElements (.fsin c d a fs rm md) d fs kind0 rm md false (g .sin) ∧
    WorksByElements (.fcos c d a fs rm md) d fs kind0 rm md false (g .cos) ∧
    WorksByElements (.ftanh c d a fs rm md) d fs kind0 rm md false (g .tanh) ∧
    WorksByElements (.ferf c d a fs rm md) d fs kind0 rm md false (g .erf)

/-- Choices, comparisons, classes, signs, integers and conversions (R122 to R126, R128). The first part says which operand is chosen,
which integer a value is rounded to under each rounding, and what a class, a sign and a rounded integer are on the patterns of a
slot. -/
def Obligations.FormatChoicesAndConversions : Prop :=
  (∀ (t : FLim) (x y : Val),
    let v (z : Val) : ℚ := (valueOf z).getD 0
    let below (x y : Val) : Prop := match x, y with
      | .inf a, .inf b => a = true ∧ b = false
      | .inf a, .num .. => a = true
      | .num .., .inf b => b = false
      | .num a n d e, .num b n' d' e' => v (.num a n d e) < v (.num b n' d' e') ∨ (n = 0 ∧ n' = 0 ∧ a = true ∧ b = false)
      | _, _ => False
    let lower : Prop := t = .min ∨ t = .minnum
    let number : Prop := t = .minnum ∨ t = .maxnum
    let r := flimVal t x y
    (∀ s n d e, (x = .num s n d e ∨ y = .num s n d e) → 0 < d) →
    (x.isNan = true → y.isNan = true → r = .nan true) ∧
    (x.isNan = true → y.isNan = false → (number → r = y) ∧ (¬ number → r = .nan true)) ∧
    (x.isNan = false → y.isNan = true → (number → r = x) ∧ (¬ number → r = .nan true)) ∧
    (x.isNan = false → y.isNan = false → (r = x ∨ r = y) ∧ (lower → ¬ below x r ∧ ¬ below y r) ∧
      (¬ lower → ¬ below r x ∧ ¬ below r y))) ∧
  (∀ (n d : Nat) (e : Int) (neg : Bool) (pos : Nat), 0 < d →
    let m : ℚ := (n : ℚ) / d * (2 : ℚ) ^ e
    let z (rm : Round) : ℤ := (if neg then -1 else 1) * (roundInt n d e rm neg pos : ℤ)
    let x : ℚ := (if neg then -1 else 1) * m
    z .rdn = ⌊x⌋ ∧ z .rup = ⌈x⌉ ∧ (roundInt n d e .rtz neg pos : ℤ) = ⌊m⌋ ∧
    (|(z .rne : ℚ) - x| ≤ 1 / 2 ∧ (|(z .rne : ℚ) - x| = 1 / 2 → Even (z .rne))) ∧
    (|(z .rna : ℚ) - x| ≤ 1 / 2 ∧ (|(z .rna : ℚ) - x| = 1 / 2 → |x| < |(z .rna : ℚ)|)) ∧
    (|(z .rod : ℚ) - x| < 1 ∧ ((z .rod : ℚ) ≠ x → Odd (z .rod))) ∧
    (roundInt n d e .rsr neg pos : ℤ) =
      ⌊m⌋ + if (((BitVec.ofNat 5 pos).reverse.toNat * 2048 + 1024 : Nat) : ℤ) ≤ ⌊Int.fract m * 65536⌋ then 1 else 0) ∧
  (∀ (w : Word) (p pos : Nat) (rm : Round) (exact sign : Bool),
    let f := fdefOf w
    let x := decodeFloat f false p
    let low : ℚ := (2 : ℚ) ^ (1 - f.bias)
    let k := fclassOf f p
    fdefLegal w = true → f.kind = 0 → p < 2 ^ f.w →
    ((x = .nan false → k = 0) ∧ (x = .nan true → k = 1) ∧ (x = .inf true → k = 2) ∧ (x = .inf false → k = 9) ∧
      ∀ s n d e q, x = .num s n d e → valueOf x = some q →
        (q = 0 → k = if s then 5 else 6) ∧ (q ≠ 0 → |q| < low → k = if s then 4 else 7) ∧
        (low ≤ |q| → k = if s then 3 else 8)) ∧
    (let r := fsgnElem f p sign
     f.s = 1 → (x.isNan = true → r = canonicalNan f) ∧
       (x.isNan = false → r < 2 ^ f.w ∧ natField r 0 f.magBits = natField p 0 f.magBits ∧
         (natField r f.magBits 1 = 1 ↔ sign = true ∧ ¬ (f.nan = 3 ∧ natField p 0 f.magBits = 0)) ∧
         ∀ q, valueOf x = some q → valueOf (decodeFloat f false r) = some (if sign then -|q| else |q|))) ∧
    (let r := frndElem f p rm exact pos
     (∀ q, decodeElem f p = .nan q → r = (canonicalNan f, if q then 0 else fInvalid)) ∧
     (∀ s, decodeElem f p = .inf s → r = (p, 0)) ∧
     (∀ s n d e, decodeElem f p = .num s n d e →
       (n = 0 → r = (zeroBits f s, 0)) ∧
       (n ≠ 0 → let q := encodeElem f (.num s (roundInt n d e rm s pos) 1 0) rm pos false
         r.1 = q.1 ∧ r.2 &&& ~~~fInexact = q.2 &&& ~~~fInexact ∧
         (r.2 &&& fInexact = fInexact ↔ exact = true ∧ valueOf (decodeElem f r.1) ≠ valueOf (decodeElem f p)))))) ∧
  ∀ (c : Common) (d a b : VReg) (p : PReg) (fs g : Slot) (rm : Round),
    (∀ t, WorksByElements (.flim c d a b fs t) d fs kinds04 .slotDefault (.source 0) true (fun m f r e =>
      let x := elemOf f (m.t.readV a).toNat e
      let y := elemOf f (m.t.readV b).toNat e
      if f.kind = 0 then
        let v := encodeElem f (flimVal t (decodeElem f x) (decodeElem f y)) r 0 false
        (v.1, v.2 ||| signal [decodeElem f x, decodeElem f y])
      else
        (if (match t with
          | .min | .minnum => valBelow (decodeElem f y) (decodeElem f x)
          | .max | .maxnum => valBelow (decodeElem f x) (decodeElem f y)) then y else x, 0))) ∧
    (∀ x, WorksByElements (.frnd c d a fs rm x) d fs kind0 rm (.source 0) true (fun m f r e =>
      frndElem f (elemOf f (m.t.readV a).toNat e) r x (f.lanes * m.t.lane + e))) ∧
    (∀ t (s : State) (m : Member) (f : FDef), Performs s m (.fcmp c p a b fs t) → fmtSlot m fs kinds04 (.source 0) = .ok f →
      let x := decodeElem f (elemOf f (m.t.readV a).toNat 0)
      let y := decodeElem f (elemOf f (m.t.readV b).toNat 0)
      WritesNow (exec (.fcmp c p a b fs t) s) m (.fcmp c p a b fs t)
        [.p p (match t with
          | .eq => valCompare x y == some .eq | .ne => !(valCompare x y == some .eq)
          | .lt => valCompare x y == some .lt | .le => valCompare x y == some .lt || valCompare x y == some .eq
          | .gt => valCompare x y == some .gt | .ge => valCompare x y == some .gt || valCompare x y == some .eq
          | .un => x.isNan || y.isNan | .or => !(x.isNan || y.isNan))]
        (flagIf (match t with
          | .lt | .le | .gt | .ge => x.isNan || y.isNan
          | _ => x.isSignalling || y.isSignalling) fInvalid)) ∧
    (∀ (s : State) (m : Member) (f : FDef), Performs s m (.fclass c d a fs) → fmtSlot m fs kind0 (.source 0) = .ok f →
      ∃ k, k = fclassOf f (elemOf f (m.t.readV a).toNat 0) ∧ k ≤ 9 ∧
        WritesNow (exec (.fclass c d a fs) s) m (.fclass c d a fs) [.v d (BitVec.ofNat 64 (2 ^ k))] 0) ∧
    (∀ t (s : State) (m : Member) (f : FDef), Performs s m (.fsgn c d a fs t) → fmtSlot m fs kind0 (.source 0) = .ok f →
      (f.s = 0 → Traps (exec (.fsgn c d a fs t) s) m .slotKind m.t.pc) ∧
      (f.s = 1 → ∃ x, WritesNow (exec (.fsgn c d a fs t) s) m (.fsgn c d a fs t) [.v d x] 0 ∧
        ElementsAre f f.lanes x (fun e =>
          let ea := elemOf f (m.t.readV a).toNat e
          fsgnElem f ea (match t with
            | .abs => false
            | .neg => !(signOf f ea)
            | .cps b => signOf f (elemOf f (m.t.readV b).toNat e)
            | .xsgn b => signOf f ea != signOf f (elemOf f (m.t.readV b).toNat e))))) ∧
    (∀ (s : State) (m : Member) (f h : FDef), Performs s m (.cvt c d a fs g rm) → fmtSlot m fs kinds04 (.source 0) = .ok f →
      fmtSlot m g kinds04 (.source 0) = .ok h →
      let n := min f.lanes h.lanes
      let r (e : Nat) :=
        let v := decodeElem h (elemOf h (m.t.readV a).toNat e)
        let w := encodeElem f v (effRm rm f) (f.lanes * m.t.lane + e) false
        (w.1, w.2 ||| signal [v])
      ∃ x, ElementsAre f n x (fun e => (r e).1) ∧
        WritesNow (exec (.cvt c d a fs g rm) s) m (.cvt c d a fs g rm) [.v d x] (anyFlags n (fun e => (r e).2)))

/-- The exact operations of the format group are exact: the values of sums, products and quotients of finite operands, and their
order, are those of the rationals they denote (R58, R59, R120, R121). -/
def Obligations.ArithmeticIsExact : Prop :=
  ∀ (r : Round) (s s' s'' : Bool) (n d n' d' n'' d'' : Nat) (e e' e'' : Int), 0 < d → 0 < d' → 0 < d'' →
    let x : Val := .num s n d e
    let y : Val := .num s' n' d' e'
    let z : Val := .num s'' n'' d'' e''
    let v (w : Val) : ℚ := (valueOf w).getD 0
    valueOf (exactAdd r x y).1 = some (v x + v y) ∧
    valueOf (exactSub r x y).1 = some (v x - v y) ∧
    valueOf (exactMul x y).1 = some (v x * v y) ∧
    valueOf (exactFma r x y z).1 = some (v x * v y + v z) ∧
    (n' ≠ 0 → valueOf (exactDiv x y).1 = some (v x / v y)) ∧
    valCompare x y = some (compare (v x) (v y)) ∧
    (n' = 0 → n ≠ 0 → (exactDiv x y).2 = fDivZero ∧ (exactDiv x y).1 = .inf (s != s'))

/-- A value encoded into a float slot under RNE lies no farther from the exact value than any other value of the slot, when
the encoding neither overflows nor flushes nor has no place for it (R53, R54). -/
def Obligations.RoundsToNearest : Prop :=
  ∀ (w : Word) (s : Bool) (n d : Nat) (e : Int) (p : Nat),
    let f := fdefOf w
    fdefLegal w = true → f.kind = 0 → f.sub = 0 → 0 < d → (f.s = 0 → s = false) →
    let x : Val := .num s n d e
    let r := encodeElem f x .rne 0 false
    r.2 &&& fOverflow = 0 →
    ∀ y q v : ℚ, valueOf x = some v → valueOf (decodeElem f r.1) = some y → p < 2 ^ f.w →
      valueOf (decodeElem f p) = some q → |y - v| ≤ |q - v|

/-- Encoding what a pattern of a slot denotes gives the pattern back, and raises nothing: in every slot of KIND 0 to 4 that does
not flush, for every pattern but a NaN, under every rounding (R50, R52, R53, R57). -/
def Obligations.PatternsRoundTrip : Prop :=
  ∀ (w : Word) (p pos : Nat) (rm : Round),
    let f := fdefOf w
    fdefLegal w = true → f.kind ≤ 4 → f.sub = 0 → p < 2 ^ f.w → (decodeElem f p).isNan = false →
    encodeElem f (decodeElem f p) rm pos false = (p, 0)

/-- Blocks: every lane holds the bytes of the block image that R130 gives it, and takes from a block the value of its own
element (R130 to R132). An element of an MX block is what its bits denote, times 2^(X - 127) (R65). Through an alias it is read
as bfloat16, a NaN as the canonical one (R66), and written by setting the scale anew and encoding all 32 elements under it (R67).
pack_mx encodes 32 binary64 values so under any rounding, with the flags of the encodings (R131). An element of a twin-scale block is
its signed q times 2^(X - 127 - M), X the scale it selects (R63), and pack_twin gives each value the finer scale that holds it (R64);
values of which one is a NaN and one an infinity are left out, as are NaNs in an MX kind without one, where the model chooses flags
(log 41). -/
def Obligations.Blocks : Prop :=
  (∀ (k phi j : Nat) (x : Nat → Nat) (rm : Round), 1 ≤ k → k ≤ 6 → j < 32 →
    let f := mxDef k
    let emax : Int := [8, 15, 2, 4, 2, 0].getD (k - 1) 0
    let kind : FDef := { f with kind := if f.ew = 0 then 3 else 0 }
    let v (n : Nat) : Val := decodeElem f2def (x n)
    let r := packBlock f ((List.range 32).map (fun n => (v n, 0))) rm phi
    let scale := natField r.1 0 8
    let enc (n : Nat) : Nat × Flags := encodeElem kind ((v n).scale (127 - (scale : Int))) rm (n + phi) false
    let lost : Prop := f.nan = 0 ∧ ∃ n, n < 32 ∧ (v n).isNan = true
    (lost → scale = 255) ∧
    (¬ lost → (∀ n q, n < 32 → valueOf (v n) = some q → q = 0) → scale = 0) ∧
    (¬ lost → ∀ a q, a < 32 → valueOf (v a) = some q → q ≠ 0 → (∀ n q', n < 32 → valueOf (v n) = some q' → |q'| ≤ |q|) →
      (scale : Int) = max 0 (min 254 (Int.log 2 |q| - emax + 127))) ∧
    natField r.1 (8 + j * f.w) f.w = (enc j).1 % 2 ^ f.w ∧ r.1 < 2 ^ f.blockBits ∧
    (¬ lost → r.2 = anyFlags 32 (fun n => (enc n).2)) ∧
    (lost → (r.2 &&& fInvalid = fInvalid ↔ ∃ n, n < 32 ∧ (v n).isSignalling = true))) ∧
  (∀ (w : Word) (img i : Nat),
    let f := fdefOf w
    let q := natField img (16 + i * (f.mw + 2)) f.mw
    let neg : Bool := natField img (16 + i * (f.mw + 2) + f.mw) 1 == 1
    let scale := natField img (8 * natField img (16 + i * (f.mw + 2) + f.mw + 1) 1) 8
    fdefLegal w = true → f.kind = 5 → i < 32 →
    (natField img 0 8 = 255 ∨ natField img 8 8 = 255 → (blockElem f img i).isNan = true) ∧
    (natField img 0 8 ≠ 255 → natField img 8 8 ≠ 255 →
      valueOf (blockElem f img i) = some ((if neg then -1 else 1) * q * (2 : ℚ) ^ ((scale : Int) - 127 - f.mw)) ∧
      (blockElem f img i).sign = neg)) ∧
  (∀ (w : Word) (phi j : Nat) (x : Nat → Nat) (rm : Round),
    let f := fdefOf w
    let v (n : Nat) : Val := decodeElem f2def (x n)
    let r := packBlock f ((List.range 32).map (fun n => (v n, 0))) rm phi
    let x0 := natField r.1 0 8
    let x1 := natField r.1 8 8
    let b := natField r.1 (16 + j * (f.mw + 2)) (f.mw + 2)
    let nan : Prop := ∃ n, n < 32 ∧ (v n).isNan = true
    let infinite : Prop := ∃ n s, n < 32 ∧ v n = .inf s
    fdefLegal w = true → f.kind = 5 → j < 32 →
    (nan → ¬ infinite → r = (65535, flagIf ((List.range 32).any (fun n => (v n).isSignalling)) fInvalid)) ∧
    (infinite → ¬ nan → f.sat = false → r = (65535, fInvalid ||| fOverflow)) ∧
    (¬ nan → (infinite → f.sat = true) → x0 = x1 - f.mw ∧ r.1 < 2 ^ f.blockBits ∧ (infinite → x1 = 254 ∧ r.2 &&& fInvalid = fInvalid) ∧
      (∀ s, v j = .inf s → b = 2 ^ (f.mw + 1) + (if s then 2 ^ f.mw else 0) + (2 ^ f.mw - 1)) ∧
      (∀ s n d e, v j = .num s n d e →
        let q0 := roundInt n d (e + 127 + f.mw - x0) rm s (j + phi)
        b = if q0 < 2 ^ f.mw then (if s then 2 ^ f.mw else 0) + q0
          else 2 ^ (f.mw + 1) + (if s then 2 ^ f.mw else 0) + min (roundInt n d (e + 127 + f.mw - x1) rm s (j + phi)) (2 ^ f.mw - 1))) ∧
    (¬ nan → ¬ infinite →
      ((∀ n q, n < 32 → valueOf (v n) = some q → q = 0) → x1 = 0) ∧
      (∀ a q, a < 32 → valueOf (v a) = some q → q ≠ 0 → (∀ n q', n < 32 → valueOf (v n) = some q' → |q'| ≤ |q|) →
        (x1 : Int) = max 0 (min 254 (Int.log 2 |q| + 128))) ∧
      (r.2 &&& ~~~(fOverflow ||| fInexact) = 0) ∧
      (r.2 &&& fOverflow = fOverflow ↔ ∃ n q, n < 32 ∧ valueOf (v n) = some q ∧ (2 : ℚ) ^ ((x1 : Int) - 127) ≤ |q|) ∧
      (r.2 &&& fInexact = fInexact ↔ ∃ n, n < 32 ∧ valueOf (blockElem f r.1 n) ≠ valueOf (v n)))) ∧
  (∀ (k img i x j : Nat), 1 ≤ k → k ≤ 6 → i < 32 → j < 32 → x < 2 ^ 16 →
    let f := mxDef k
    let emax : Int := [8, 15, 2, 4, 2, 0].getD (k - 1) 0
    let kind : FDef := { f with kind := if f.ew = 0 then 3 else 0 }
    let scale := natField img 0 8
    let v (n : Nat) : Val := if n = i then decodeElem bf16 x else mxElem f img n
    let new := aliasWrite f img i x
    let scale' := natField new 0 8
    let lost : Prop := f.nan = 0 ∧ ∃ n, n < 32 ∧ (v n).isNan = true
    (scale = 255 → (mxElem f img i).isNan = true) ∧
    (scale ≠ 255 → mxElem f img i = (decodeElem kind (natField img (8 + i * f.w) f.w)).scale ((scale : Int) - 127)) ∧
    ((mxElem f img i).isNan = true → aliasRead f img i = 0x7FC0) ∧
    ((mxElem f img i).isNan = false → aliasRead f img i = (encodeElem bf16 (mxElem f img i) .rne 0 false).1) ∧
    (lost → scale' = 255) ∧
    (¬ lost → (∀ n q, n < 32 → valueOf (v n) = some q → q = 0) → scale' = 0) ∧
    (¬ lost → ∀ a q, a < 32 → valueOf (v a) = some q → q ≠ 0 → (∀ n q', n < 32 → valueOf (v n) = some q' → |q'| ≤ |q|) →
      (scale' : Int) = max 0 (min 254 (Int.log 2 |q| - emax + 127))) ∧
    natField new (8 + j * f.w) f.w = (encodeElem kind ((v j).scale (127 - (scale' : Int))) .rne 0 false).1 % 2 ^ f.w ∧
    new < 2 ^ f.blockBits) ∧
  ∀ (c : Common) (d a : VReg) (fs : Slot) (rm : Round) (s : State) (m : Member) (f : FDef),
    fmtSlot m fs kindsBlock (.source 0) = .ok f →
    (Performs s m (.bpack c d a fs rm) →
      let r := packBlock f ((List.range 32).map (fun j => (decodeElem f2def (blockSource m a j).toNat, 0))) (effRm rm f) 0
      ∃ x : Word, WritesLater (exec (.bpack c d a fs rm) s) m (.bpack c d a fs rm) [.v d x] r.2 false false ∧
        ∀ j, j < 8 → x.extractLsb' (8 * j) 8 = if m.t.lane + 32 * j < f.blockBits / 8 ∧ j < 3 then
          BitVec.ofNat 8 (natField r.1 (8 * (m.t.lane + 32 * j)) 8) else 0) ∧
    (Performs s m (.bunpack c d a fs) →
      ∃ img : Nat, (∀ k, k < f.blockBits / 8 →
          natField img (8 * k) 8 = natField (blockSource m a (k % 32)).toNat (8 * (k / 32)) 8) ∧ img < 2 ^ f.blockBits ∧
        WritesLater (exec (.bunpack c d a fs) s) m (.bunpack c d a fs)
          [.v d (BitVec.ofNat 64 (toBinary64 (blockElem f img m.t.lane)).1)] 0 false false)

/-- setfmt writes a legal definition into its slot of the workgroup, or raises FORMAT_ILLEGAL (R133); getfmt reads a slot, a null
one as zero (R134). A slot that is null or of a kind that an instruction does not accept raises SLOT_KIND (R119, R123 to R125,
R128, R131, R132). -/
def Obligations.FormatSlots : Prop :=
  (∀ (c : Common) (a : VReg) (f : Slot) (s : State) (m : Member), PerformsAlone s m (.setfmt c a f) → m.wg.fmts.length = 12 →
    (fdefLegal (m.t.readV a) = true → ∃ s' g', exec (.setfmt c a f) s = .next s' ∧ s'.wg? m.wg.uid = some g' ∧
      slotWord g'.fmts f = m.t.readV a ∧ (∀ h : Slot, h ≠ f → slotWord g'.fmts h = slotWord m.wg.fmts h) ∧
      (∃ t', s'.thread? m.wg.uid m.t.tid = some t' ∧ t'.regs = m.t.regs ∧ t'.fflags = m.t.fflags ∧ t'.pc = m.t.pc + 8)) ∧
    (fdefLegal (m.t.readV a) = false → Traps (exec (.setfmt c a f) s) m .formatIllegal m.t.pc)) ∧
  (∀ (c : Common) (d : VReg) (f : Slot), GivesNow (.getfmt c d f) (fun _ m => [.v d (slotWord m.wg.fmts f)]) (fun _ _ => 0)) ∧
  (∀ (s : State) (m : Member) (i : Instr) (c : Common) (d a b : VReg) (p : PReg) (f g : Slot) (rm : Round),
    Performs s m i →
    (((∃ t, i = .fcmp c p a b f t) ∧ ∃ e, fmtSlot m f kinds04 (.source 0) = .error e) ∨
     (i = .fclass c d a f ∧ ∃ e, fmtSlot m f kind0 (.source 0) = .error e) ∨
     ((∃ t, i = .fsgn c d a f t) ∧ ∃ e, fmtSlot m f kind0 (.source 0) = .error e) ∨
     (i = .cvt c d a f g rm ∧ ((∃ e, fmtSlot m f kinds04 (.source 0) = .error e) ∨
       ∃ e, fmtSlot m g kinds04 (.source 0) = .error e)) ∨
     (i = .bpack c d a f rm ∧ ∃ e, fmtSlot m f kindsBlock (.source 0) = .error e) ∨
     (i = .bunpack c d a f ∧ ∃ e, fmtSlot m f kindsBlock (.source 0) = .error e)) →
    Traps (exec i s) m .slotKind m.t.pc)

/-! ## Lanes, predicates and view masks (R115, R135, R136) -/

/-- An operand across lanes: of the thread on the lane of Table 6.18 when there is one, whatever it does, and the reader's own otherwise
(R115). `perm` takes its lane from v[B]. Results are owed (R107, R135). Votes over the members of the gang in the reader's warp whose
guard is true (R135). -/
def Obligations.LanesAndVotes : Prop :=
  (∀ (c : Common) (d a b : VReg),
    let other (m : Member) (lane : Option Nat) : Word := match lane with
      | none => m.t.readV a
      | some l => if l = m.t.tid % 32 then m.t.readV a else match m.wg.thread? (32 * (m.t.tid / 32) + l) with
        | some u => if a = 0xFF then 0 else u.getV a
        | none => m.t.readV a
    (∀ (k : CrossKind) (dist : Fin 32), GivesLater (.lmov c d a (.cross k dist false)) (fun _ m =>
      let l := m.t.tid % 32
      [.v d (other m (match k with
        | .broadcast => some dist.val
        | .rotate => some ((l + dist.val) % 32)
        | .butterfly => some (l ^^^ dist.val)
        | .shiftDown => if l + dist.val < 32 then some (l + dist.val) else none
        | .shiftUp => if dist.val ≤ l then some (l - dist.val) else none))]) (fun _ _ => 0)) ∧
    (∀ sm, GivesLater (.lmov c d a (.source sm)) (fun _ m => [.v d (m.t.readV a)]) (fun _ _ => 0)) ∧
    GivesLater (.perm c d a b) (fun _ m =>
      [.v d (other m (if (m.t.readV b).toNat < 32 then some (m.t.readV b).toNat else none))]) (fun _ _ => 0)) ∧
  (∀ (c : Common) (d : VReg) (p a : PReg),
    let votes (i : Instr) (m : Member) (u : Thread) : Prop :=
      u ∈ m.wg.threads ∧ u.tid ∈ m.gang ∧ u.tid / 32 = m.t.tid / 32 ∧ u.guardOk i = true
    (∀ (s : State) (m : Member), Performs s m (.vote c p a .any) → ∃ b, WritesNow (exec (.vote c p a .any) s) m (.vote c p a .any)
      [.p p b] 0 ∧ (b = true ↔ ∃ u, votes (.vote c p a .any) m u ∧ u.readP a = true)) ∧
    (∀ (s : State) (m : Member), Performs s m (.vote c p a .all) → ∃ b, WritesNow (exec (.vote c p a .all) s) m (.vote c p a .all)
      [.p p b] 0 ∧ (b = true ↔ ∀ u, votes (.vote c p a .all) m u → u.readP a = true)) ∧
    (∀ (s : State) (m : Member), Performs s m (.voteBallot c d a) → (m.wg.threads.map (·.tid)).Nodup →
      ∃ x : Word, WritesLater (exec (.voteBallot c d a) s) m (.voteBallot c d a) [.v d x] 0 false false ∧
        ∀ l, x.getLsbD l = true ↔ ∃ u, votes (.voteBallot c d a) m u ∧ u.tid % 32 = l ∧ u.readP a = true))

/-- Indirect registers: the register the index names, or REG_RANGE (R136); predicates (R135). -/
def Obligations.IndirectRegistersAndPredicates : Prop :=
  ∀ (c : Common) (d a : VReg) (p q : PReg),
    (∀ (s : State) (m : Member), Performs s m (.rdind c d a) →
      ((m.t.readV a).toNat < 256 → granted m.wg.nregs (BitVec.ofNat 8 (m.t.readV a).toNat) = true →
        WritesLater (exec (.rdind c d a) s) m (.rdind c d a) [.v d (m.t.readV (BitVec.ofNat 8 (m.t.readV a).toNat))] 0 false
          false) ∧
      ((256 ≤ (m.t.readV a).toNat ∨ granted m.wg.nregs (BitVec.ofNat 8 (m.t.readV a).toNat) = false) →
        Traps (exec (.rdind c d a) s) m .regRange m.t.pc)) ∧
    (∀ (s : State) (m : Member), Performs s m (.wrind c d a) →
      ((m.t.readV d).toNat < 256 → granted m.wg.nregs (BitVec.ofNat 8 (m.t.readV d).toNat) = true →
        WritesLater (exec (.wrind c d a) s) m (.wrind c d a) [.v (BitVec.ofNat 8 (m.t.readV d).toNat) (m.t.readV a)] 0 false
          false) ∧
      ((256 ≤ (m.t.readV d).toNat ∨ granted m.wg.nregs (BitVec.ofNat 8 (m.t.readV d).toNat) = false) →
        Traps (exec (.wrind c d a) s) m .regRange m.t.pc)) ∧
    (∀ t, GivesNow (.plog c p q t) (fun _ m => [.p p (match t with
      | .and r => m.t.readP q && m.t.readP r | .or r => m.t.readP q || m.t.readP r
      | .xor r => m.t.readP q ^^ m.t.readP r | .andn r => m.t.readP q && !(m.t.readP r)
      | .not => !(m.t.readP q) | .mov => m.t.readP q)]) (fun _ _ => 0)) ∧
    (∀ (s : State) (m : Member), Performs s m (.pmovToV c d) → ∃ x : Word,
      WritesLater (exec (.pmovToV c d) s) m (.pmovToV c d) [.v d x] 0 false false ∧
      (∀ k : PReg, x.getLsbD k.val = m.t.readP k) ∧ x.toNat < 128) ∧
    GivesNow (.pmovFromV c a) (fun _ m => (List.finRange 7).map (fun k => .p k ((m.t.readV a).getLsbD k.val))) (fun _ _ => 0)

/-- View masks: counts, tests, combinations, and their words (Table 6.13), and what engst (Table 9.16) and rdpr (Tables 16.2 and 16.3)
read. All are owed. That a context never started reads as free, with a program counter of 0, is the model's choice (log 5). -/
def Obligations.ViewMasks : Prop :=
  ∀ (c : Common) (d b : VReg) (p : PReg) (x y z : VmReg) (i : Fin 4),
    GivesLater (.vmcnt c d x) (fun _ m =>
      [.v d (BitVec.ofNat 64 ((List.finRange 256).countP (fun j => (m.t.getVm x).getLsbD j.val)))]) (fun _ _ => 0) ∧
    GivesLater (.vmtest c p x b) (fun _ m => [.p p ((m.t.getVm x).getLsbD (m.t.readV b).toNat)]) (fun _ _ => 0) ∧
    (∀ t, GivesLater (.vmop c x y z t) (fun _ m => [.vm x (match t with
      | .and => m.t.getVm y &&& m.t.getVm z | .or => m.t.getVm y ||| m.t.getVm z
      | .andn => m.t.getVm y &&& ~~~(m.t.getVm z) | .xor => m.t.getVm y ^^^ m.t.getVm z)]) (fun _ _ => 0)) ∧
    GivesLater (.vmffs c d x) (fun _ m => [.v d (BitVec.ofNat 64 (m.t.getVm x).ctz.toNat)]) (fun _ _ => 0) ∧
    GivesLater (.vmget c d x i) (fun _ m => [.v d ((m.t.getVm x).extractLsb' (64 * i.val) 64)]) (fun _ _ => 0) ∧
    (∀ (s : State) (m : Member), Performs s m (.vmset c x b i) → ∃ k : ViewMask,
      WritesLater (exec (.vmset c x b i) s) m (.vmset c x b i) [.vm x k] 0 false false ∧
      ∀ j : Fin 4, k.extractLsb' (64 * j.val) 64 = if j = i then m.t.readV b else (m.t.getVm x).extractLsb' (64 * j.val) 64) ∧
    (let status (s : State) (id : PontilId) : Word := match s.pontil? id with
       | none => 0
       | some q => BitVec.ofNat 32 q.pc.toNat ++ BitVec.ofNat 16 q.code ++ (0 : BitVec 3) ++ q.flags ++ (0 : BitVec 6) ++
         (match q.state with | .free => (0 : BitVec 2) | .running => 1 | .stopped => 2)
     let waiting (s : State) (u : EngineUnit) : Nat := s.ops.countP (fun o => o.unit = u)
     ∀ (s : State) (m : Member), Performs s m (.engst c d b) → (∀ q ∈ s.pontils, q.code < 2 ^ 16) →
       let core := m.wg.core
       WritesLater (exec (.engst c d b) s) m (.engst c d b) [.v d (match (m.t.readV b).toNat with
         | 0 => status s ⟨core.die, core.cluster, 0⟩
         | 1 => status s ⟨core.die, core.cluster, 1⟩
         | 2 => BitVec.ofNat 64 (waiting s (.copy ⟨core.die, core.cluster⟩))
         | 3 => BitVec.ofNat 64 (waiting s (.collective core.die))
         | 4 => BitVec.ofNat 64 ((List.range 96).countP (fun k => 0 < waiting s (.lane core.die k)))
         | _ => 0)] 0 false false) ∧
    (∀ (s : State) (m : Member) (k : Context) (r : PrivReg), Performs s m (.rdpr c d r) → s.context? m.wg.ctx = some k →
      ∃ x : Word, WritesLater (exec (.rdpr c d r) s) m (.rdpr c d r) [.v d x] 0 false false ∧ (match r with
        | .ctx => x = BitVec.ofNat 64 m.wg.ctx
        | .cflags => x.toNat < 8 ∧ x.getLsbD 0 = k.priv ∧ x.getLsbD 1 = k.check ∧ x.getLsbD 2 = k.debug
        | .btbase => x = k.btbase
        | .btlen => x = BitVec.ofNat 64 k.btlen
        | .queues => ∀ q, x.getLsbD q = true ↔ q < 64 ∧ (s.heldQueue m.wg.ctx q).isSome = true
        | .wgh => x.toNat < 2 ^ 13 ∧ (x.extractLsb' 0 2).toNat = m.wg.core.die.val % diesPerDevice s.mode ∧
          (x.extractLsb' 2 5).toNat = m.wg.core.cluster.val ∧ (x.extractLsb' 7 2).toNat = m.wg.core.core.val ∧
          (x.extractLsb' 9 4).toNat = m.wg.slot.val))

/-! ## Control -/

/-- Branches, calls and returns: target, depth, link and parked bit, or the code raised (R38, R39, R102, R162). The link is a
scoreboarded result of v253. -/
def Obligations.Branches : Prop :=
  ∀ (c : Common) (disp : BitVec 26) (a : VReg) (y : Bool) (s : State) (m : Member),
    let block : Nat := m.t.pc.toNat / 64 * 64
    let near : Word := BitVec.ofInt 64 ((block : Int) + disp.toInt * 64)
    let far : Word := m.t.readV a
    let goes (t' : Thread) (target : Word) (depth : Nat) (parked : Bool) : Prop :=
      t'.pc = target ∧ t'.depth = depth ∧ t'.parked = parked ∧ t'.regs = m.t.regs ∧ t'.preds = m.t.preds ∧
      t'.fflags = m.t.fflags ∧ t'.stall = max c.stall.val 1
    let link (t' : Thread) : Prop :=
      ∃ q, t'.owed = m.t.owed ++ [q] ∧ q.writes = [.v 0xFD (BitVec.ofNat 64 (block + 64))] ∧ q.flags = 0
    (Performs s m (.br c disp y) → ThreadAfter (exec (.br c disp y) s) m (fun _ t' =>
      goes t' near m.t.depth (m.t.parked || (y && decide (near.toNat ≤ block))) ∧ t'.owed = m.t.owed)) ∧
    (Performs s m (.bri c a y) →
      (far.toNat % 64 = 0 → ThreadAfter (exec (.bri c a y) s) m (fun _ t' =>
        goes t' far m.t.depth (m.t.parked || (y && decide (far.toNat ≤ block))) ∧ t'.owed = m.t.owed)) ∧
      (far.toNat % 64 ≠ 0 → Traps (exec (.bri c a y) s) m .branchAlign m.t.pc)) ∧
    (Performs s m (.call c disp) →
      (m.t.depth ≠ 65535 → ThreadAfter (exec (.call c disp) s) m (fun _ t' =>
        goes t' near (m.t.depth + 1) m.t.parked ∧ link t')) ∧
      (m.t.depth = 65535 → Traps (exec (.call c disp) s) m .depthLimit m.t.pc)) ∧
    (Performs s m (.calli c a) →
      (far.toNat % 64 = 0 → m.t.depth ≠ 65535 → ThreadAfter (exec (.calli c a) s) m (fun _ t' =>
        goes t' far (m.t.depth + 1) m.t.parked ∧ link t')) ∧
      (far.toNat % 64 ≠ 0 → Traps (exec (.calli c a) s) m .branchAlign m.t.pc) ∧
      (far.toNat % 64 = 0 → m.t.depth = 65535 → Traps (exec (.calli c a) s) m .depthLimit m.t.pc)) ∧
    (Performs s m (.ret c a) →
      (far.toNat % 64 = 0 → m.t.depth ≠ 0 → ThreadAfter (exec (.ret c a) s) m (fun _ t' =>
        goes t' far (m.t.depth - 1) m.t.parked ∧ t'.owed = m.t.owed)) ∧
      (far.toNat % 64 ≠ 0 → Traps (exec (.ret c a) s) m .branchAlign m.t.pc) ∧
      (far.toNat % 64 = 0 → m.t.depth = 0 → Traps (exec (.ret c a) s) m .depthLimit m.t.pc))

/-- exit ends the thread, and with the last thread and routine of its workgroup the workgroup (R164, R37); trap raises
PROGRAM_TRAP with its constant (R165); brk raises BREAKPOINT in a context under debugging and is a nop otherwise (R166). That the pc
of a thread that has exited stays at its exit, and that of the results it is owed only loads are dropped, is the model's reading
(log 20). -/
def Obligations.ExitTrapBreak : Prop :=
  ∀ (c : Common) (k : BitVec 16) (s : State) (m : Member),
    (PerformsAlone s m (.exit c) → (m.wg.threads.map (·.tid)).Nodup →
      ((∃ u ∈ m.wg.threads, u.tid ≠ m.t.tid ∧ u.live = true) → ThreadAfter (exec (.exit c) s) m (fun _ t' =>
        t'.live = false ∧ t'.pc = m.t.pc ∧ t'.regs = m.t.regs ∧ t'.owed = m.t.owed.filter (fun o => !o.load))) ∧
      ((∀ u ∈ m.wg.threads, u.tid ≠ m.t.tid → u.live = false) →
        (∀ p ∈ s.pontils, p.wg = m.wg.uid → p.state ≠ .running) →
        ∃ s', exec (.exit c) s = .next s' ∧ s'.wg? m.wg.uid = none ∧
          ∀ l, s.launch? m.wg.launch = some l → ∃ l', s'.launch? m.wg.launch = some l' ∧ l'.ended = l.ended + 1)) ∧
    (Performs s m (.trap c k) → Traps (exec (.trap c k) s) m .programTrap (BitVec.ofNat 64 k.toNat)) ∧
    (OnIssue s m → gate s m (.trap c k) = .ok false → ThreadAfter (exec (.trap c k) s) m (fun _ t' =>
      t'.pc = m.t.pc + 8 ∧ t'.live = true ∧ t'.trap = m.t.trap ∧ t'.regs = m.t.regs)) ∧
    encode (.trap c k) = some ((0x94 : BitVec 8) ++ BitVec.ofNat 4 c.stall.val ++ guardCode c.guard ++ (0xFFFF : BitVec 16) ++
      (0 : BitVec 16) ++ k) ∧
    (Performs s m (.brk c) → s.isDebug m.wg.ctx = true → Traps (exec (.brk c) s) m .breakpoint m.t.pc) ∧
    (Performs s m (.brk c) → s.isDebug m.wg.ctx = false → WritesNow (exec (.brk c) s) m (.brk c) [] 0) ∧
    (Performs s m (.nop c) → WritesNow (exec (.nop c) s) m (.nop c) [] 0)

/-! ## Memory -/

/-- Loads: each element that the access reaches, as memory holds it, when no write on record touches it, through an alias as the
bfloat16 of its block's element (R66), and on a page of every kind; no byte of memory, no full/empty bit and no other thread changes
(R138, R139, R72). -/
def Obligations.Loads : Prop :=
  ∀ (c : Common) (d : VReg) (o : MemOp) (s : State) (m : Member) (i : Instr) (n : FDef → Nat) (t : Target)
      (ps : List Place),
    ((i = .ld c d o ∧ n = fun _ => 1) ∨ (i = .ldp c d o ∧ n = FDef.lanes)) →
    PerformsAlone s m i → TlbFresh s → Reaches s m o n { r := true } false t ps →
    ∃ x, WritesLater (exec i s) m i [.v d x] 0 true true ∧
      (Untouched s (locsOf ps) → ∀ e, e < n t.f → ElementIs s s t e (elemOf t.f x.toNat e)) ∧
      ∃ s', exec i s = .next s' ∧ SameMemory s s' ∧ s'.full = s.full ∧ OthersKept s s' m

/-- Stores: the elements of v[S] stand in memory afterwards, on a page of every kind, and every byte outside the places of the access
reads as before (R138, R139, R72). A store through an alias leaves its block written anew with its element (R67). The places hold no
page table. -/
def Obligations.Stores : Prop :=
  ∀ (c : Common) (d : VReg) (o : MemOp) (s : State) (m : Member) (i : Instr) (n : FDef → Nat) (t : Target)
      (ps : List Place),
    ((i = .st c d o ∧ n = fun _ => 1) ∨ (i = .stp c d o ∧ n = FDef.lanes)) →
    PerformsAlone s m i → TlbFresh s → NoMigrationControl s → Reaches s m o n { w := true } true t ps →
    TablesApart s (locsOf ps) → WritesNow (exec i s) m i [] 0 ∧
      ∃ s', exec i s = .next s' ∧ SameBut (locsOf ps) s s' ∧ s'.full = s.full ∧ OthersKept s s' m ∧
        (t.d.mxk = 0 → NoFrameTwice s.popped t.bd.ctx → ∀ e, e < n t.f →
          ElementIs s.popped s' t e (elemOf t.f (m.t.readV d).toNat e)) ∧
        (t.d.mxk ≠ 0 → i = .st c d o → Untouched s (locsOf ps) → NoFrameTwice s.popped t.bd.ctx →
          BlockIs s.popped s' t (elemOf t.f (m.t.readV d).toNat 0))

/-- An access that fails a check raises its code, and nothing else happens. Of the checks that fail the first is raised, in the order
of Table 8.10: the slot and the alias, the entry, its owner, the bounds, the rights, FE_KIND and FE_SPAN, ATOMIC_ALIGN, RECORD_ALIGN,
ORDER_KIND and ATOMIC_PATH (R66, R72, R78, R90, R139, R147, R150, R167, R279, R306). The second part is of barrier objects, records
and descriptors, the third of notice boards (R159). -/
def Obligations.AccessChecks : Prop :=
  (∀ (c : Common) (d : VReg) (o : MemOp) (s : State) (m : Member) (i : Instr) (n : FDef → Nat) (need : Rights),
    let one : FDef → Nat := fun _ => 1
    let plain : Prop := ((i = .ld c d o ∧ n = one ∨ i = .ldp c d o ∧ n = FDef.lanes) ∧ need = { r := true }) ∨
      ((i = .st c d o ∧ n = one ∨ i = .stp c d o ∧ n = FDef.lanes) ∧ need = { w := true })
    let granule : Prop := n = one ∧ (((i = .ldfe c d o ∨ i = .ldfeClr c d o) ∧ need = { r := true }) ∨
      (i = .stfe c d o ∧ need = { w := true }))
    let atomic : Prop := n = one ∧ need = { a := true } ∧ i ∈ [.atomAdd c d o, .atomMin c d o, .atomMax c d o, .atomAnd c d o,
      .atomOr c d o, .atomXor c d o, .atomXchg c d o, .atomCas c d o]
    let bd := binderOf s.popped m.wg m.t
    let traps (x : Code) : Prop := Traps (exec i s) m x m.t.pc
    PerformsAlone s m i → (plain ∨ granule ∨ atomic) →
    (∀ x, slotOf m.wg.fmts o.slot kinds04 = .error x → traps .slotKind) ∧
    ∀ f, slotOf m.wg.fmts o.slot kinds04 = .ok f →
      (∀ x, entryOf s.popped bd o.bind.val = .error x → traps x ∧ (x = .bindEmpty ∨ x = .leaseLost ∨ x = .memPoison)) ∧
      ∀ b z, entryOf s.popped bd o.bind.val = .ok (b, z) →
        (b.mxk ≠ 0 → isBf16 f = false → traps .slotKind) ∧
        ((b.mxk = 0 ∨ isBf16 f = true) → (b.owner ≠ m.wg.ctx → traps .owner) ∧
          ∀ g, grantedBy bd o.bind.val b = .ok g →
            let lo : Int := elemIndex (m.t.readV o.ofsReg) o.ofs * f.w
            let t : Target := ⟨bd, g, lo.toNat, f⟩
            let sp := g.span lo.toNat f.w
            let inWord : Prop := g.mxk ≠ 0 ∨ lo.toNat / 64 = (lo.toNat + f.w - 1) / 64
            ((lo < 0 ∨ 8 * (g.len : Int) < lo + (n f * f.w : Nat)) → traps .bounds) ∧
            (0 ≤ lo → lo + (n f * f.w : Nat) ≤ 8 * (g.len : Int) → (g.grants need = false → traps .rights) ∧
              (g.grants need = true →
                (pathKnown s g.base = false → (atomic → inWord) → traps .bounds) ∧
                (pathKnown s g.base = true → granule → (inWindow sp.1 = false → traps .feKind) ∧
                  (inWindow sp.1 = true → 16 < sp.1 % 16 + sp.2 → traps .feSpan)) ∧
                (atomic → ¬ inWord → traps .atomicAlign) ∧
                (atomic → inWord → (o.scope.atLeast .device = true ∨ g.mxk ≠ 0 ∨ inWindow g.base = true) →
                  ∀ p, vaModule g.base ≠ s.module.toNat → s.peer? (vaModule g.base) = some p → p.far ≠ 1 →
                  ¬ (p.far = 2 ∧ p.natAtomics = true ∧ (f.kind = 1 ∨ f.kind = 2) ∧ (f.w = 32 ∨ f.w = 64)) → traps .atomicPath) ∧
                (vaModule g.base = s.module.toNat → pathWaits s g = false → (plain ∨ (atomic ∧ inWord)) →
                  (∀ x, targetPlaces z t (n f) = .error x → traps x ∧ x = .leaseLost) ∧
                  ∀ ps z', targetPlaces z t (n f) = .ok (ps, z') →
                    (anyUo ps = true → (atomic ∨ o.order ≠ .plain) → traps .orderKind) ∧
                    ((anyUo ps = false ∨ (plain ∧ o.order = .plain)) → need.w = false → anyPoison z' ps = true →
                      Traps (exec i s) m .memPoison (BitVec.ofNat 64 sp.1))))))) ∧
  (∀ (c : Common) (d : VReg) (o : MemOp) (s : State) (m : Member) (i : Instr) (words align : Nat) (need : Rights) (bad : Code),
    let barrier : Prop := i ∈ [.binit c d o, .barr c d o, .bwait c d o, .rdv c d o] ∧ words = 2 ∧ need = { a := true } ∧
      align = 16 ∧ bad = .atomicAlign
    let recorded : Prop := ((i = .spawn c d o ∧ need = { r := true, w := true, a := true }) ∨
      (i = .joinRec c d o ∧ need = { a := true }) ∨ (i = .fork c d o ∧ need = { r := true }) ∨
      (i ∈ [.cpy c o, .gth c o, .sct c o, .xds c o, .tpf c o, .col c o] ∧ need = { r := true, w := true })) ∧ words = 8 ∧
      align = 64 ∧ bad = .recordAlign
    let bd := binderOf s.popped m.wg m.t
    let e := elemIndex (m.t.readV o.ofsReg) o.ofs
    let traps (x : Code) : Prop := Traps (exec i s) m x m.t.pc
    PerformsAlone s m i → (barrier ∨ recorded) →
    (∀ x, entryOf s.popped bd o.bind.val = .error x → traps x) ∧
    ∀ b z, entryOf s.popped bd o.bind.val = .ok (b, z) → (b.mxk ≠ 0 → traps .slotKind) ∧
      (b.mxk = 0 → (b.owner ≠ m.wg.ctx → traps .owner) ∧
        ∀ g, grantedBy bd o.bind.val b = .ok g →
          let inside : Prop := 0 ≤ e ∧ e * 64 + (words * 64 : Nat) ≤ 8 * (g.len : Int)
          (¬ inside → traps .bounds) ∧ (inside → g.grants need = false → traps .rights) ∧
          (inside → g.grants need = true → (pathKnown s g.base = false → traps .bounds) ∧
            (pathKnown s g.base = true → ((g.base + 8 * e.toNat) % align ≠ 0 → traps bad) ∧
              ((g.base + 8 * e.toNat) % align = 0 → ∀ ps z', places z bd.ctx (g.base + 8 * e.toNat) (8 * words) = .ok (ps, z') →
                anyUo ps = true → traps .orderKind))))) ∧
  (∀ (c : Common) (k : VmReg) (d : VReg) (o : MemOp) (bind : Fin 64) (sc : Scope) (s : State) (m : Member) (i : Instr)
      (slot : Option Int),
    let bd := binderOf s.popped m.wg m.t
    let traps (x : Code) : Prop := Traps (exec i s) m x m.t.pc
    (((i = .nbpost c k d o ∨ i = .nbget c d o) ∧ bind = o.bind ∧ slot = some (elemIndex (m.t.readV o.ofsReg) o.ofs)) ∨
      (i = .nbinit c bind sc ∧ slot = none)) → PerformsAlone s m i →
    (∀ x, bindingEntry s.popped bd bind.val = .error x → traps x) ∧
    ∀ g z, bindingEntry s.popped bd bind.val = .ok (g, z) →
      ((g.board = false ∨ inWindow g.base = true) → traps .boardKind) ∧
      (g.board = true → inWindow g.base = false → pathKnown s g.base = true → ∀ ps z',
        places z bd.ctx g.base (16 + 16 * g.slots) = .ok (ps, z') → ps.all (fun p => p.away?.isNone) = true →
        let fits : Prop := anyUo ps = false ∧ natField (objectNow s (ps.take 8)) 32 9 = g.slots
        let inside : Prop := match slot with
          | some e => 0 ≤ e ∧ e < g.slots
          | none => 16 + 16 * g.slots ≤ g.len
        (¬ fits → traps .boardKind) ∧ (fits → ¬ inside → traps .bounds) ∧ (fits → inside → g.a = false → traps .rights)))

/-- Accesses with the full/empty bit of their granule. A load waits while the granule is empty; from a full one it takes the
element, and leaves it full or, with .clr, empty. A store waits while the granule is full, and leaves it full (R90, R142,
R143). `o'` is the issue of the instruction, or the event that serves a thread that waits at it. -/
def Obligations.FullEmptyAccesses : Prop :=
  ∀ (c : Common) (d : VReg) (o : MemOp) (s : State) (m : Member) (t : Target) (ps : List Place) (g k : Nat) (i : Instr)
      (o' : Out),
    checkGranule t = .ok g → t.d.mxk = 0 → TlbFresh s → NoMigrationControl s → NoOlderWait s (ownNumber m s) →
    IssuedOrResumed s m i .granule (.feWaitServed ⟨m.wg.uid, m.t.tid⟩) o' k →
    ((i = .ldfe c d o ∨ i = .ldfeClr c d o) → Reaches s m o (fun _ => 1) { r := true } false t ps →
      (g ∉ s.full → WaitsOn k o' m i .granule (fun s' => SameMemory s s' ∧ s'.full = s.full)) ∧
      (g ∈ s.full → ∃ x s', WritesLaterAt k o' m [.v d x] 0 true true ∧ (Untouched s (locsOf ps) → ElementIs s.popped s t 0 x.toNat) ∧
        o' = .next s' ∧ SameMemory s s' ∧ OthersKept s s' m ∧
        ∀ j, j ∈ s'.full ↔ j ∈ s.full ∧ (i = .ldfeClr c d o → j ≠ g))) ∧
    (i = .stfe c d o → Reaches s m o (fun _ => 1) { w := true } true t ps →
      (g ∈ s.full → WaitsOn k o' m i .granule (fun s' => SameMemory s s' ∧ s'.full = s.full)) ∧
      (g ∉ s.full → ∃ s', WritesNowAt k o' m [] 0 ∧ o' = .next s' ∧ SameBut (locsOf ps) s s' ∧ OthersKept s s' m ∧
        (NoFrameTwice s.popped t.bd.ctx → ElementIs s.popped s' t 0 (elemOf t.f (m.t.readV d).toNat 0)) ∧
        ∀ j, j ∈ s'.full ↔ j ∈ s.full ∨ j = g))

/-- Atomics: one indivisible step reads the element and writes what the operation gives; v[D] owes the bits found, and the operation's
flags (R146, R147): add gives the encoding of the exact sum under the slot's rounding, RNE for RSR; min and max what flim gives in a float
slot, and the smaller or larger value in others. cas writes only where the element equals v[D]. Through an alias the step reads and writes
the whole block (R331). Every byte outside the element's places reads as before. -/
def Obligations.Atomics : Prop :=
  ∀ (c : Common) (d : VReg) (o : MemOp) (s : State) (m : Member) (t : Target) (ps : List Place) (op : AtomOp) (i : Instr),
    (i, op) ∈ [(.atomAdd c d o, .add), (.atomMin c d o, .min), (.atomMax c d o, .max), (.atomAnd c d o, .and),
      (.atomOr c d o, .or), (.atomXor c d o, .xor), (.atomXchg c d o, .xchg), (.atomCas c d o, .cas)] →
    PerformsAlone s m i → TlbFresh s → NoMigrationControl s → oneWord t.d t.lo t.f.w = true →
    Reaches s m o (fun _ => 1) { a := true } true t ps → anyUo ps = false → Untouched s (locsOf ps) →
    NoFrameTwice s.popped t.bd.ctx →
    ∃ old s', ElementIs s.popped s t 0 old ∧ exec i s = .next s' ∧ SameBut (locsOf ps) s s' ∧ s'.full = s.full ∧ OthersKept s s' m ∧
      (let x := elemOf t.f (m.t.readV d).toNat 0
       let y := elemOf t.f (m.t.readV (d + 1)).toNat 0
       let r := combine op t.f old x y
       WritesLater (exec i s) m i [.v d (BitVec.ofNat 64 old)] r.2 true false ∧
       (op = .cas → old ≠ x → SameMemory s s') ∧
       ((op = .cas → old = x) → (t.d.mxk = 0 → ElementIs s.popped s' t 0 (r.1 % 2 ^ t.f.w)) ∧
         (t.d.mxk ≠ 0 → BlockIs s.popped s' t r.1)) ∧
       (op = .cas → old = x → r.1 = y) ∧ (op = .xchg → r.1 = x) ∧ (op = .and → r.1 = old &&& x) ∧
       (op = .or → r.1 = old ||| x) ∧ (op = .xor → r.1 = old ^^^ x) ∧
       (op ≠ .add → op ≠ .min → op ≠ .max → r.2 = 0) ∧
       (let a := decodeElem t.f old
        let b := decodeElem t.f x
        let rm := if t.f.default = .rsr then .rne else t.f.default
        let chosen (c : FLim) (below : Bool) : Prop :=
          (t.f.kind = 0 → r = (let w := encodeElem t.f (flimVal c a b) t.f.default 0 false; (w.1, w.2 ||| signal [a, b]))) ∧
          (t.f.kind ≠ 0 → r = (if below then x else old, 0))
        (op = .add → r = (let w := encodeElem t.f (exactAdd rm a b).1 rm 0 false; (w.1, w.2 ||| (exactAdd rm a b).2))) ∧
        (op = .min → chosen .minnum (valBelow b a)) ∧ (op = .max → chosen .maxnum (valBelow a b))))

/-- A fence makes its thread wait, and is done once every result of memory owed to the thread has returned: the thread goes on
past it. Neither changes memory when the thread holds no unreleased store to a UO page (R152). pf has no effect on a thread, or
on memory (R145). -/
def Obligations.FencesAndPrefetch : Prop :=
  ∀ (c : Common) (sc : Scope) (ord : Order) (o : MemOp) (s : State) (m : Member) (i : Instr),
    ((i = .fence c sc ord ∨ i = .fenceSc c sc) →
      (Performs s m i → WaitsAt (exec i s) m i .fence) ∧
      (WaitingAt s m i .fence → m.t.view.uo = [] →
        ((∀ q ∈ m.t.owed, q.memory = false) → WritesNowAt m.t.stall (exec (.fenceDone ⟨m.wg.uid, m.t.tid⟩) s) m [] 0 ∧
          ∃ s', exec (.fenceDone ⟨m.wg.uid, m.t.tid⟩) s = .next s' ∧ SameMemory s s' ∧ OthersKept s s' m) ∧
        ((∃ q ∈ m.t.owed, q.memory = true) →
          ∃ s', exec (.fenceDone ⟨m.wg.uid, m.t.tid⟩) s = .next s' ∧ s'.thread? m.wg.uid m.t.tid = some m.t))) ∧
    (PerformsAlone s m (.pf c o) → WritesNow (exec (.pf c o) s) m (.pf c o) [] 0 ∧
      ∃ s', exec (.pf c o) s = .next s' ∧ SameMemory s s' ∧ s'.full = s.full ∧ OthersKept s s' m)

/-! ## Barrier objects, the workgroup barrier and notice boards -/

/-- Barrier objects: binit, barr and rdv as one step on the object, with the codes they raise (R153, R154, R171, R191). An arrival at
an object whose PEND is 0 raises BARRIER_OVER. -/
def Obligations.BarrierObjects : Prop :=
  ∀ (c : Common) (d : VReg) (o : MemOp) (s s₁ : State) (m : Member) (b : ObjectAt) (i : Instr),
    barrierOf m s.popped o = .ok (b, s₁) → ObjectFree s b true → PerformsAlone s m i → TlbFresh s →
    let n := (m.t.readV d).toNat
    let old := barrierFields (objectNow s b.ps)
    let only (s' : State) : Prop := exec i s = .next s' ∧ SameBut (locsOf b.ps) s s' ∧ s'.full = s.full ∧ OthersKept s s' m
    (i = .binit c d o →
      (0 < n → n < 2 ^ 32 → WritesNow (exec i s) m i [] 0 ∧
        ∃ s', only s' ∧ objectNow s' b.ps = n + n * 2 ^ 32) ∧
      ((n = 0 ∨ 2 ^ 32 ≤ n) → Traps (exec i s) m .barrierCount m.t.pc)) ∧
    (i = .barr c d o →
      (n < 2 ^ 47 → old.1 ≠ 0 → WritesNow (exec i s) m i [] 0 ∧
        ∃ s', only s' ∧ barrierFields (objectNow s' b.ps) = arrived old n) ∧
      (n < 2 ^ 47 → old.1 = 0 → Traps (exec i s) m .barrierOver m.t.pc) ∧
      (2 ^ 47 ≤ n → Traps (exec i s) m .barrierCount m.t.pc)) ∧
    (i = .rdv c d o → o.scope.atLeast .cluster = true →
      (old.1 ≠ 0 → WritesLater (exec i s) m i [.v d (BitVec.ofNat 64 (bitOf old.2.2.2 * 2 ^ 63 + (2 ^ 63 - 1)))] 0 false false ∧
        ∃ s', only s' ∧ barrierFields (objectNow s' b.ps) = arrived old 0) ∧
      (old.1 = 0 → Traps (exec i s) m .barrierOver m.t.pc))

/-- A wait at a barrier object: over when the phase differs from bit 63 of the register, timed out when its limit has passed, and
waiting otherwise, to a limit counted from its issue (R155). The result owed is the phase with 1 or 2. The completion and the time-out
of a wait under way read the object again; a completion at the last tick still counts. -/
def Obligations.BarrierWaits : Prop :=
  ∀ (c : Common) (d : VReg) (o : MemOp) (s s₁ : State) (m : Member) (b : ObjectAt),
    barrierOf m s.popped o = .ok (b, s₁) → ObjectFree s b false → TlbFresh s →
    let i : Instr := .bwait c d o
    let w := m.t.readV d
    let ph := barPhase (objectNow s b.ps)
    let t : ThreadId := ⟨m.wg.uid, m.t.tid⟩
    let ends (x : Nat) : List RegWrite := [.v d (BitVec.ofNat 64 (bitOf ph * 2 ^ 63 + x))]
    (PerformsAlone s m i →
      (ph ≠ w.getLsbD 63 → WritesLater (exec i s) m i (ends 1) 0 true false) ∧
      (ph = w.getLsbD 63 → w.toNat % 2 ^ 63 = 0 → WritesLater (exec i s) m i (ends 2) 0 true false) ∧
      (ph = w.getLsbD 63 → w.toNat % 2 ^ 63 ≠ 0 → WaitsAt (exec i s) m i .barrier ∧ (m.t.wait = none → w.toNat % 2 ^ 63 ≠ 2 ^ 63 - 1 →
        ThreadAfter (exec i s) m (fun _ t' => limitOf t' = s.tickOf m.wg.core.die.val + w.toNat % 2 ^ 63))) ∧
      ∃ s', exec i s = .next s' ∧ SameMemory s s' ∧ OthersKept s s' m) ∧
    (WaitingAt s m i .barrier →
      let ended (e : Instr) (x : Nat) : Prop := WritesLaterAt m.t.stall (exec e s) m (ends x) 0 true false
      (ph ≠ w.getLsbD 63 → ended (.bwaitComplete t) 1) ∧
      (ph = w.getLsbD 63 → w.toNat % 2 ^ 63 ≠ 0 → ∃ s', exec (.bwaitComplete t) s = .next s' ∧ s'.thread? m.wg.uid m.t.tid = some m.t) ∧
      (limitOf m.t < s.tickOf m.wg.core.die.val → ended (.bwaitTimeout t) (if ph ≠ w.getLsbD 63 then 1 else 2)) ∧
      (s.tickOf m.wg.core.die.val ≤ limitOf m.t → exec (.bwaitTimeout t) s = .next s))

/-- The workgroup barrier: an arrival waits until every live thread of the workgroup waits at a bsync; then all of them go on past
theirs. The exit of the one thread that does not wait completes it too (R157). -/
def Obligations.WorkgroupBarrier : Prop :=
  ∀ (c : Common) (s : State) (m : Member), (m.wg.threads.map (·.tid)).Nodup →
    let departs (o : Out) : Prop := ∃ s', o = .next s' ∧ ∀ u ∈ m.wg.threads, u.tid ≠ m.t.tid → u.live = true →
      ∃ u', s'.thread? m.wg.uid u.tid = some u' ∧ u'.wait = none ∧ u'.pc = u.pc + 8 ∧ u'.regs = u.regs ∧ u'.live = true
    (PerformsAlone s m (.bsync c) →
      ((∃ u ∈ m.wg.threads, u.tid ≠ m.t.tid ∧ u.live = true ∧ atBsync u = false) → WaitsAt (exec (.bsync c) s) m (.bsync c) .bsync) ∧
      ((∀ u ∈ m.wg.threads, u.tid ≠ m.t.tid → u.live = true → atBsync u = true) →
        WritesNow (exec (.bsync c) s) m (.bsync c) [] 0 ∧ departs (exec (.bsync c) s)) ∧
      ∃ s', exec (.bsync c) s = .next s' ∧ SameMemory s s') ∧
    (PerformsAlone s m (.exit c) → (∃ u ∈ m.wg.threads, u.tid ≠ m.t.tid ∧ u.live = true) →
      (∀ u ∈ m.wg.threads, u.tid ≠ m.t.tid → u.live = true → atBsync u = true) → departs (exec (.exit c) s))

/-- Notice boards: a post numbers itself, writes its slot and reads which slots hold a level; a get reads a slot; nbinit leaves a
board without levels (R158 to R160, Table 8.8). -/
def Obligations.NoticeBoards : Prop :=
  ∀ (c : Common) (k : VmReg) (d : VReg) (o : MemOp) (bind : Fin 64) (sc : Scope) (s s₁ : State) (m : Member) (b : ObjectAt)
      (write : Bool), ObjectFree s b write → TlbFresh s →
    let e := elemIndex (m.t.readV o.ofsReg) o.ofs
    let old := objectNow s b.ps
    let level := natField old 0 32
    (write = true → PerformsAlone s m (.nbpost c k d o) → boardOf m s.popped o.bind (some e) = .ok (b, s₁) →
      (level = 2 ^ 32 - 1 → Traps (exec (.nbpost c k d o) s) m .boardFull m.t.pc) ∧
      (level ≠ 2 ^ 32 - 1 → ∃ (s' : State) (view : ViewMask),
        WritesLater (exec (.nbpost c k d o) s) m (.nbpost c k d o) [.v d (BitVec.ofNat 64 (level + 1)), .vm k view] 0 true false ∧
        exec (.nbpost c k d o) s = .next s' ∧
        (let new := objectNow s' b.ps
         natField new 0 32 = level + 1 ∧ natField new (128 + 128 * e.toNat) 64 = (m.t.readV d).toNat ∧
         natField new (192 + 128 * e.toNat) 32 = level + 1 ∧
         ∀ j, view.getLsbD j = true ↔ j < b.d.slots ∧ natField new (192 + 128 * j) 32 ≠ 0) ∧
        SameBut (locsOf (levelPlaces b.ps ++ slotPlaces b.ps e.toNat)) s s' ∧ s'.full = s.full ∧ OthersKept s s' m)) ∧
    (write = false → PerformsAlone s m (.nbget c d o) → boardOf m s.popped o.bind (some e) = .ok (b, s₁) →
      WritesLater (exec (.nbget c d o) s) m (.nbget c d o)
        [.v d (BitVec.ofNat 64 (natField old (128 + 128 * e.toNat) 64)), .v (d + 1) (BitVec.ofNat 64 (natField old (192 + 128 * e.toNat) 32))]
        0 true false ∧
      ∃ s', exec (.nbget c d o) s = .next s' ∧ SameMemory s s' ∧ s'.full = s.full ∧ OthersKept s s' m) ∧
    (write = true → PerformsAlone s m (.nbinit c bind sc) → boardOf m s.popped bind none = .ok (b, s₁) →
      WritesNow (exec (.nbinit c bind sc) s) m (.nbinit c bind sc) [] 0 ∧
      ∃ s', exec (.nbinit c bind sc) s = .next s' ∧ objectNow s' b.ps = b.d.slots * 2 ^ 32 ∧
        SameBut (locsOf b.ps) s s' ∧ s'.full = s.full ∧ OthersKept s s' m)

/-! ## Visibility -/

/-- What an agent has written, it reads: every read mode returns the agent's own latest write of a byte that no other write has
followed, on a page of every kind, unless the byte is mapped through pages of two kinds (R80) or has been written to a UO page by an
agent that has not released its write (R78, R85). A release passes what its agent had written to whoever acquires it, when each is within
the other's scope: the acquirer's reads return those bytes, of a UO page once a release fence or an engine start has ordered
them (R78, R82 to R85). An atomic step at a point sees what the step before it at that point left (R88, R149). -/
def Obligations.OwnWritesAndReleases : Prop :=
  (∀ (s : State) (w : Writer) (kind : Option PageKind) (bytes : List (Nat × Byte)) (v : MemView) (mode : ReadMode) (l : Nat)
      (b : Byte),
    let z := commit s w kind bytes v
    (bytes.map (·.1)).Nodup → memWf s.mem = true → (l, b) ∈ bytes → mixedAt z.1 kind l = false →
    (∀ r ∈ s.hist, r.touches [l] = true → strictFor s.mode w.agent r = true) →
    (readCut z.1 ⟨w.agent, mode, kind⟩ z.2 [l]).1 = [b] ∧ z.1.peek l = b) ∧
  (∀ (s : State) (a b : Actor) (sa sb : Scope) (kind flagKind : Option PageKind) (data flag : List (Nat × Byte)) (va vb : MemView)
      (pt : Option Point) (step : Bool) (rels : List Rel) (l : Nat) (x : Byte) (r : WriteRec) (rest : List WriteRec),
    (data.map (·.1)).Nodup → (l, x) ∈ data → l ∉ flag.map (·.1) → Untouched s [l] → (∀ r ∈ s.hist, r.id < s.nextWrite) →
    included s.mode sb b sa a = true →
    let w := commit s (.plain a) kind data va
    let o := if kind = some .uo then releaseUo w.1 a sa w.2 else w
    let f := commit o.1 ⟨a, pt, step, rels, some (relOf o.1 a sa o.2)⟩ flagKind flag o.2
    f.1.hist = r :: rest → r.touches (flag.map (·.1)) = true →
    let q := acquireRels f.1 b sb r.rels vb
    mixedAt q.1 kind l = false →
    (readCut q.1 ⟨b, .relaxed, kind⟩ q.2 [l]).1 = [x]) ∧
  (∀ (s : State) (a b : Actor) (p : Point) (kind : Option PageKind) (bytes : List (Nat × Byte)) (va vb : MemView) (l : Nat) (x : Byte),
    let z := commit s ⟨a, some p, true, [], none⟩ kind bytes va
    (bytes.map (·.1)).Nodup → (l, x) ∈ bytes → kind ≠ some .uo → mixedAt z.1 kind l = false →
    (∀ r ∈ s.hist, r.touches [l] = true → strictFor s.mode b r = true) →
    (readCut z.1 ⟨b, .atPoint p, kind⟩ vb [l]).1 = [x])

/-! ## Starting routines and engines -/

/-- fork starts a context of its cluster on a copy of its descriptor, at the entry it names, with q0 to q4 from it and every
other q register zero, or waits for a context (R168, R170). `o'` is the issue of the fork, or the event that gives the oldest waiting
fork a context; that the fork reads and checks its descriptor anew at that event is the model's reading (log 45). -/
def Obligations.ForkStarts : Prop :=
  ∀ (c : Common) (r : VReg) (o : MemOp) (s s₁ s₂ : State) (m : Member) (b rd : ObjectAt) (p : PontilId) (o' : Out) (k : Nat),
    let i : Instr := .fork c r o
    let cl : ClusterId := ⟨m.wg.core.die, m.wg.core.cluster⟩
    let desc := objectNow s b.ps
    objectOf m s.popped o 8 { r := true } 64 .recordAlign = .ok (b, s₁) → ObjectFree s b false → TlbFresh s → EntriesFresh s →
    o.scope.atLeast .cluster = true → m.t.view.uo = [] → p.die = cl.die → p.cluster = cl.cluster →
    ((PerformsAlone s m i ∧ Untraced s m ∧ m.t.wait = none ∧ o' = exec i s ∧ k = stallOf i) ∨
      (WaitingAt s m i .forkContext ∧ o' = exec (.forkContextFree p) s ∧ k = m.t.stall ∧
        ∃ w, oldestWaiter ((forkWaiters s cl).filter (fun w => (wanted w.want).contains p.ctx)) = some w ∧
          w.t = ⟨m.wg.uid, m.t.tid⟩)) →
    (forkOk desc = false → Traps o' m .descField m.t.pc) ∧
    (forkOk desc = true → forkObject s.popped m desc = .ok (rd, s₂) →
      (contextFor s cl (forkCtx desc) (ownNumber m s) = none →
        ThreadAfter o' m (fun s' t' => t'.wait.isSome = true ∧ t'.pc = m.t.pc ∧ t'.regs = m.t.regs ∧ s'.pontils = s.pontils)) ∧
      (∀ q, contextFor s cl (forkCtx desc) (ownNumber m s) = some q →
        WritesLaterAt k o' m [.v r (BitVec.ofNat 64 q.ctx.val)] 0 false false ∧
        ∃ s' x, o' = .next s' ∧ s'.pontil? q = some x ∧ x.state = .running ∧ x.pc = BitVec.ofNat 64 (natField desc 0 32) ∧
          (∀ k : QReg, x.getQ k = if k.val < 5 then BitVec.ofNat 64 (natField desc (192 + 64 * k.val) 64) else 0) ∧
          x.rdv = BitVec.ofNat 64 rd.va ∧ x.wg = m.wg.uid ∧ x.scope = o.scope ∧ x.cw = 0 ∧ x.loops = [] ∧
          (∀ q', q' ≠ q → s'.pontil? q' = s.pontil? q') ∧ SameMemory s s'))

/-- An engine instruction checks its descriptor and enqueues a copy of it on its unit, or waits for room (R193). `o'` is the issue of the
instruction, or the event that makes room for a thread that waits at it; that it reads and checks its descriptor anew at
that event is the model's reading (log 45). -/
def Obligations.EngineStarts : Prop :=
  ∀ (c : Common) (o : MemOp) (s s₁ : State) (m : Member) (b : ObjectAt) (i : Instr) (k : EngineKind) (o' : Out) (held : Nat),
    (i, k) ∈ [(.cpy c o, .cpy), (.gth c o, .gth), (.sct c o, .sct), (.xds c o, .xds), (.tpf c o, .tpf), (.col c o, .col)] →
    objectOf m s.popped o 8 { r := true, w := true } 64 .recordAlign = .ok (b, s₁) → ObjectFree s b false → TlbFresh s →
    EntriesFresh s → m.t.view.uo = [] →
    IssuedOrResumed s m i .engineRoom (.engineQueueRoom ⟨m.wg.uid, m.t.tid⟩) o' held → Untraced s m →
    let desc := objectNow s b.ps
    (o.scope.atLeast (engineScope k) = false → Traps o' m .scopeNarrow m.t.pc) ∧
    (o.scope.atLeast (engineScope k) = true → descOk k desc = false → Traps o' m .descField m.t.pc) ∧
    (o.scope.atLeast (engineScope k) = true → descOk k desc = true →
      (∀ e, checkStart s.popped m k desc b.va = .error e → Traps o' m e m.t.pc) ∧
      (∀ ck, checkStart s.popped m k desc b.va = .ok ck → (∀ x ∈ ck.buffers, pathWaits s x.2 = false) →
        (unitFor s m.wg.core k desc ck.buffers = none →
          ThreadAfter o' m (fun s' t' => t'.wait.isSome = true ∧ t'.pc = m.t.pc ∧ t'.regs = m.t.regs ∧ s'.ops = s.ops)) ∧
        (∀ u, unitFor s m.wg.core k desc ck.buffers = some u → WritesNowAt held o' m [] 0 ∧
          (k ≠ .cpy ∨ cpyBytes desc ≠ 0 → ∃ s' op, o' = .next s' ∧ s'.ops = s.ops ++ [op] ∧ op.unit = u ∧ op.kind = k ∧
            op.desc = desc ∧ op.descAddr = b.va ∧ op.buffers = ck.buffers ∧ op.fmts = m.wg.fmts ∧ op.ctx = m.wg.ctx ∧
            op.launch = m.wg.launch ∧ op.comp = ck.comp.map (·.va) ∧ SameMemory s s' ∧ s'.full = s.full ∧ OthersKept s s' m))))

/-! ## Pontils -/

/-- The pontil's scalars: results in q registers and cw (R188, Table 9.6); azero (R187). Nothing else of the machine changes. -/
def Obligations.PontilScalars : Prop :=
  ∀ (c : Common) (d a b : QReg) (k : Fin 7) (x : BitVec 32) (ar : AReg) (s : State) (p : Pontil),
    let va := p.getQ a
    let vb := p.getQ b
    let gives (i : Instr) (v : Word) : Prop := PontilPerforms s p i → PontilAfter (exec i s) p (fun s' p' =>
      (p.q.length = 32 → p'.getQ d = v) ∧ (∀ r, r ≠ d → p'.getQ r = p.getQ r) ∧ GoesOn p p' ∧
      p'.cw = p.cw ∧ p'.tiles = p.tiles ∧ p'.flags = p.flags ∧ SameMemory s s' ∧ OnlyContext s s' p)
    (∀ t, gives (.qop c d a b t) (match t with
      | .add => va + vb | .sub => va - vb | .mul => va * vb | .and => va &&& vb | .or => va ||| vb | .xor => va ^^^ vb
      | .shl => va <<< vb | .shr => va >>> vb | .hi => vb.setWidth 32 ++ va.setWidth 32)) ∧
    gives (.qmovk c d x) (BitVec.ofNat 64 x.toNat) ∧
    (∀ t, PontilPerforms s p (.qopCmp c k a b t) → PontilAfter (exec (.qopCmp c k a b t) s) p (fun s' p' =>
      (p'.cw.getLsbD k.val = match t with
        | .eq => decide (va.toNat = vb.toNat) | .ne => decide (va.toNat ≠ vb.toNat)
        | .ltu => decide (va.toNat < vb.toNat) | .lt => decide (va.toInt < vb.toInt)) ∧
      (∀ j : Nat, j ≠ k.val → p'.cw.getLsbD j = p.cw.getLsbD j) ∧ p'.q = p.q ∧ GoesOn p p' ∧
      SameMemory s s' ∧ OnlyContext s s' p)) ∧
    (PontilPerforms s p (.azero c ar) → PontilAfter (exec (.azero c ar) s) p (fun s' p' =>
      (∀ n, n < 4096 → (p'.tile ar.val).cell n = 0) ∧
      (∀ n, n < 64 → f2val ((p'.tile ar.val).maxAt n) = .inf true ∧ f2val ((p'.tile ar.val).sumAt n) = valZero false) ∧ (∀ r : AReg, r ≠ ar → p'.tile r.val = p.tile r.val) ∧ p'.q = p.q ∧
      GoesOn p p' ∧ SameMemory s s' ∧ OnlyContext s s' p)) ∧
    encode (.azero c ar) = some ((0xB6 : BitVec 8) ++ BitVec.ofNat 4 c.stall.val ++ guardCode c.guard ++ BitVec.ofNat 8 ar.val ++
      (0xFFFFFF : BitVec 24) ++ (0 : BitVec 16)) ∧
    (∀ i, PontilOnIssue s p → checkPontil i = .ok () → p.guardOk i = false → (∀ c, i ≠ .pend c) →
      PontilAfter (exec i s) p (fun s' p' => p' = p.advance ∧ SameMemory s s' ∧ OnlyContext s s' p)) ∧
    (PontilPerforms s p (.nop c) → PontilAfter (exec (.nop c) s) p (fun _ p' => p' = p.advance))

/-- Branches and loops of a context: pbr goes to its target; loop starts a body, skips one of count 0, and refuses a count of 2^32 or
more; the end of a body goes back while its counter, less one, is not 0, and else the loop is over (R189, R190). -/
def Obligations.PontilControl : Prop :=
  ∀ (c : Common) (disp : BitVec 26) (d : LcReg) (a : QReg) (n : BitVec 16) (s : State) (p : Pontil),
    let block : Nat := p.pc.toNat / 64 * 64
    let first : Word := BitVec.ofNat 64 (block + 64)
    let last : Word := first + BitVec.ofNat 64 (8 * n.toNat)
    let count := (p.getQ a).toNat
    (PontilPerforms s p (.pbr c disp) → PontilAfter (exec (.pbr c disp) s) p (fun s' p' =>
      p' = { p with pc := BitVec.ofInt 64 ((block : Int) + disp.toInt * 64) } ∧ SameMemory s s' ∧ OnlyContext s s' p)) ∧
    (PontilPerforms s p (.loop c d a n) → p.loops = [] → p.lc.length = 4 →
      (count = 0 → PontilAfter (exec (.loop c d a n) s) p (fun s' p' => p' = { p with pc := last + 8 } ∧ SameMemory s s')) ∧
      (0 < count → count < 2 ^ 32 → last ≠ p.pc → PontilAfter (exec (.loop c d a n) s) p (fun s' p' =>
        p'.pc = first ∧ p'.loops = [⟨d, first, last⟩] ∧ p'.lc.getD d.val 0 = BitVec.ofNat 32 count ∧ SameMemory s s')) ∧
      (2 ^ 32 ≤ count → PontilAfter (exec (.loop c d a n) s) p (fun _ p' =>
        p'.state = .stopped ∧ p'.code = codeNumber .loopCount ∧ p'.pc = p.pc ∧ p'.q = p.q))) ∧
    (∀ (l : Loop) (ls : List Loop), p.loops = l :: ls → p.lc.length = 4 →
      (l.last ≠ p.pc → p.advance = { p with pc := p.pc + 8 }) ∧
      (l.last = p.pc → p.lc.getD l.lc.val 0 ≠ 1 →
        p.advance.pc = l.first ∧ p.advance.loops = p.loops ∧ p.advance.lc.getD l.lc.val 0 = p.lc.getD l.lc.val 0 - 1) ∧
      (l.last = p.pc → p.lc.getD l.lc.val 0 = 1 → ls = [] → p.advance.pc = p.pc + 8 ∧ p.advance.loops = []))

/-- Arrivals of a context on its rendezvous object: parr and pend are one arrival each; pend also frees the context; an arrival that the
object does not await raises BARRIER_OVER and stops the context (R191, R173). The object waits for nothing. -/
def Obligations.PontilArrivals : Prop :=
  ∀ (c : Common) (s z : State) (p : Pontil) (g : Workgroup) (ps : List Place),
    s.wg? p.wg = some g → places s.popped g.ctx p.rdv.toNat 16 = .ok (ps, z) → Quiet s →
    ps.all (fun x => x.away?.isNone) = true → (locsOf ps).Nodup → blocked z true ps = none →
    let old := barrierFields (objectNow s ps)
    (PontilPerforms s p (.parr c) →
      (old.1 ≠ 0 → PontilAfter (exec (.parr c) s) p (fun s' p' => barrierFields (objectNow s' ps) = arrived old 0 ∧
        SameBut (locsOf ps) s s' ∧ GoesOn p p' ∧ p'.q = p.q ∧ OnlyContext s s' p)) ∧
      (old.1 = 0 → PontilAfter (exec (.parr c) s) p (fun s' p' => p'.state = .stopped ∧
        p'.code = codeNumber .barrierOver ∧ p'.pc = p.pc ∧ SameMemory s s'))) ∧
    (PontilPerforms s p (.pend c) →
      (old.1 ≠ 0 → PontilAfter (exec (.pend c) s) p (fun s' p' => barrierFields (objectNow s' ps) = arrived old 0 ∧
        SameBut (locsOf ps) s s' ∧ p'.state = .free ∧ p'.flags = p.flags ∧
        ((∃ t ∈ g.threads, t.live = true) → (s'.wg? p.wg).isSome = true))) ∧
      (old.1 = 0 → PontilAfter (exec (.pend c) s) p (fun s' p' => p'.state = .stopped ∧
        p'.code = codeNumber .barrierOver ∧ p'.pc = p.pc ∧ SameMemory s s')))

/-- qld and qst read and write one element, or one through an alias with its block (R188, R66, R67). -/
def Obligations.PontilMemory : Prop :=
  ∀ (c : Common) (d : QReg) (o : QMemOp) (s : State) (p : Pontil) (t : Target) (ps : List Place),
    Quiet s → p.q.length = 32 →
    (PontilPerforms s p (.qld c d o) → PontilReaches s p o { r := true } false t ps →
      PontilAfter (exec (.qld c d o) s) p (fun s' p' => ElementIs s.popped s t 0 (p'.getQ d).toNat ∧
        (∀ r, r ≠ d → p'.getQ r = p.getQ r) ∧ GoesOn p p' ∧ SameMemory s s' ∧ s'.full = s.full ∧ OnlyContext s s' p)) ∧
    (PontilPerforms s p (.qst c d o) → PontilReaches s p o { w := true } true t ps →
      PontilAfter (exec (.qst c d o) s) p (fun s' p' => SameBut (locsOf ps) s s' ∧
        (t.d.mxk = 0 → NoFrameTwice s.popped t.bd.ctx →
          ElementIs s.popped s' t 0 ((p.getQ d).toNat % 2 ^ t.f.w)) ∧
        (t.d.mxk ≠ 0 → NoFrameTwice s.popped t.bd.ctx → BlockIs s.popped s' t ((p.getQ d).toNat % 2 ^ t.f.w)) ∧
        p'.q = p.q ∧ GoesOn p p' ∧ s'.full = s.full ∧ OnlyContext s s' p))

/-- ocld brings a tile into the store. With no granule to wait for it takes every piece of memory it needs at once; with FEW it takes
granules that are full, and with FEC leaves those it takes empty; when nothing is missing the region stands in the store, and
otherwise the context waits, with what it has taken (R175 to R178). A context that waits takes a granule that has become full and is
still missing, and is done exactly when nothing is missing; it stops only at a check that fails. Each element of a region is what
memory holds at its place of the buffer: an element, one of a block, one through an alias, or one that a bitmap says is present. -/
def Obligations.OcldLoads : Prop :=
  ∀ (c : Common) (d : QReg) (o : QMemOp) (s z : State) (p : Pontil) (l : Load),
    let i : Instr := .ocld c d o
    let size := pieceSize l.d
    let found (k : Nat) (qs : List Place) : Prop := ∃ z', places s l.bd.ctx (size * k) size = .ok (qs, z') ∧
      blocked z' false qs = none ∧ qs.all (fun x => x.away?.isNone) = true
    let held (ps : Pieces) : Prop := ∀ x ∈ ps, ∃ qs, found x.1 qs ∧ x.2 = (locsOf qs).map s.peek
    let reached (ps : Pieces) : Prop := ∃ ks, missing l ps = .ok ks ∧ ∀ k ∈ ks, ∃ qs, found k qs
    let keyed (ps : Pieces) : List (Nat × List Byte) := ps.map (fun x => (keyOf s l.d x.1, x.2))
    let ends (s' : State) (p' : Pontil) (new was : Pieces) : Prop := ∃ ks, missing l (new ++ was) = .ok ks ∧
      (ks = [] → GoesOn p p' ∧ p'.wait = none ∧ p'.esp = storeRegion p.esp (l.region (new ++ was))) ∧
      (ks ≠ [] → p'.state = .running ∧ p'.pc = p.pc ∧ p'.esp = p.esp ∧
        ∃ w', p'.wait = some w' ∧ w'.instr = i ∧ w'.taken = keyed (new ++ was)) ∧
      (∀ j, j ∈ s'.full ↔ j ∈ s.full ∧ ¬ (opFec l.o = true ∧ ∃ x ∈ new, pieceGranule s l.d x.1 = some j)) ∧
      p'.q = p.q ∧ p'.tiles = p.tiles ∧ SameMemory s s' ∧ OnlyContext s s' p
    (PontilPerforms s p i → checkLoad s.popped p d o = .ok (l, z) → Quiet s → pathWaits z l.d = false → reached [] →
      (l.d.comp = 1 → ∀ ps, held ps → reached ps) →
      PontilAfter (exec i s) p (fun s' p' => ∃ ps, held ps ∧ (opFew l.o = false → missing l ps = .ok []) ∧
        (opFew l.o = true → ∀ x ∈ ps, ∀ j, pieceGranule s l.d x.1 = some j → j ∈ s.full) ∧ ends s' p' ps [])) ∧
    (∀ (g : Nat) (w : OcldWait), s.pontil? p.id = some p → p.state = .running → p.wait = some w → w.instr = i →
      let e := exec (.ocldGranuleTaken p.id g) s
      let stops (x : Code) : Prop := PontilAfter e p (fun _ p' => p'.state = .stopped ∧ p'.code = codeNumber x ∧ p'.pc = p.pc)
      let inside (k : Nat) : Prop := inWindow (16 * k) = true ∧ 16 * k / 2 ^ 50 = l.d.base / 2 ^ 50
      (∀ x, checkLoad s { p with wait := none } d o = .error x → stops x) ∧
      (checkLoad s { p with wait := none } d o = .ok (l, z) → Quiet s → opFew l.o = true →
        ∀ was, w.taken = keyed was → (∀ x ∈ was, inside x.1) →
        (∀ x, missing l was = .error x → stops x) ∧
        ∀ ks, missing l was = .ok ks → pathWaits z l.d = false →
          ((∀ k ∈ ks, pieceGranule s l.d k = some g → g ∉ s.full) → PontilAfter e p (fun s' p' => ends s' p' [] was)) ∧
          ∀ k qs, k ∈ ks → inside k → pieceGranule s l.d k = some g → g ∈ s.full → found k qs →
            let now : Pieces := [(k, (locsOf qs).map s.peek)]
            (∀ x, missing l (now ++ was) = .error x → stops x) ∧
            (∀ ks', missing l (now ++ was) = .ok ks' → PontilAfter e p (fun s' p' => ends s' p' now was)))) ∧
    (checkLoad s.popped p d o = .ok (l, z) → Quiet s → 2 ≤ l.f.w → ∀ ps, held ps → missing l ps = .ok [] →
      let r := l.region ps
      let byteAt (n : Nat) (b : Byte) : Prop := ∃ qs z', places s l.bd.ctx (l.d.base + l.d.swz n) 1 = .ok (qs, z') ∧
        (locsOf qs).map s.peek = [b]
      let span (lo n x : Nat) : Prop := ∃ bs : List Byte, bs.length = (lo + n - 1) / 8 - lo / 8 + 1 ∧
        (∀ j, j < bs.length → byteAt (lo / 8 + j) (bs.getD j 0)) ∧ x = natField (ofBytes bs) (lo % 8) n
      r.addr = opAddr l.o ∧ r.rows = opRows l.o ∧ r.klen = opKlen l.o ∧ r.role = opRole l.o ∧ r.intact = true ∧
      ∀ m k, m < opRows l.o → k < opKlen l.o →
        let cell : Option EspElem := (r.elems.getD m [])[k]?
        let unit : Nat := if l.d.comp = 1 then 8 else if l.f.isBlock then l.f.blockBits else l.f.w
        let row : Nat := ((p.elem o + m * opStride l.o) * unit).toNat
        (l.d.comp ≠ 1 → l.d.mxk = 0 → l.f.isBlock = false →
          ∃ x, span (row + k * l.f.w) l.f.w x ∧ cell = some ⟨decodeElem l.f x, true⟩) ∧
        (l.d.comp ≠ 1 → l.d.mxk = 0 → l.f.isBlock = true →
          ∃ x, span (row + k / 32 * l.f.blockBits) l.f.blockBits x ∧ cell = some ⟨blockElem l.f x (k % 32), true⟩) ∧
        (l.d.comp ≠ 1 → l.d.mxk ≠ 0 → let n := row / 16 + k
          ∃ x, span (n / 32 * mxBlockBytes l.d.mxk * 8) (mxBlockBytes l.d.mxk * 8) x ∧
            cell = some ⟨decodeElem l.f (aliasRead (mxDef l.d.mxk) x (n % 32)), true⟩) ∧
        (l.d.comp = 1 → l.d.mxk = 0 → ∃ b, span row (opKlen l.o) b ∧
          (b.testBit k = false → cell = some ⟨valZero false, false⟩) ∧
          (b.testBit k = true → ∃ x,
            span (row + (opKlen l.o + 127) / 128 * 128 + (List.range k).countP (fun j => b.testBit j) * l.f.w) l.f.w x ∧
            cell = some ⟨decodeElem l.f x, true⟩)))

/-- Products: each of the M by N cells of the tile is the cell of R69 or R70 on the operands' elements, other cells and tiles stay,
and a product that fails a check stops the context (R179 to R182). smrs gives each row of its two tiles and the side registers as
R183 says. The first three parts say what such a cell and such a row are: a float cell is the encoding of its terms' sum, each cut to a
multiple of 2^(E - 48), or of the exact sum; an integer cell the sum of products of integers, clamped; a row of smrs has the new
maximum, its scores as powers of two of their distance from that, the old row and sum scaled alike. Where the distance is no integer,
which binary64 value within the bound that power is, is the model's choice (log 9). -/
def Obligations.Products : Prop :=
  (∀ (g : FDef) (fused : Bool) (c : Val) (ps : List (Val × Val)) (rm : Round) (pos : Nat),
    let r := floatCell g fused c ps rm pos
    let val (z : Val) : ℚ := (valueOf z).getD 0
    let finite (z : Val) : Prop := ∃ s n d e, z = .num s n d e ∧ 0 < d
    let terms : List ℚ := ps.map (fun p => val p.1 * val p.2) ++ [val c]
    let signs : List Bool := ps.map (fun p => p.1.sign != p.2.sign) ++ [c.sign]
    let cut (q : ℚ) : ℤ := if 0 ≤ q then ⌊q⌋ else ⌈q⌉
    let gives (v : Val) (fl : Flags) : Prop := r = ((encodeElem g v rm pos false).1, (encodeElem g v rm pos false).2 ||| fl)
    (((∃ p ∈ ps, p.1.isNan = true ∨ p.2.isNan = true) ∨ c.isNan = true) → r.1 = (encodeElem g (.nan true) rm pos false).1) ∧
    ((∀ p ∈ ps, finite p.1 ∧ finite p.2) → finite c →
      ((∀ t ∈ terms, t = 0) → ∃ b, gives (valZero b) 0 ∧ (∀ z, (∀ s ∈ signs, s = z) → b = z) ∧
        (true ∈ signs → false ∈ signs → b = (rm == .rdn))) ∧
      ((∃ t ∈ terms, t ≠ 0) → fused = true →
        ∃ v, valueOf v = some terms.sum ∧ gives v 0 ∧ (terms.sum = 0 → v.sign = (rm == .rdn))) ∧
      (∀ (big : ℤ), (∃ t ∈ terms, t ≠ 0 ∧ Int.log 2 |t| = big) → (∀ t ∈ terms, t ≠ 0 → Int.log 2 |t| ≤ big) → fused = false →
        let lambda : ℚ := 2 ^ (big - 48)
        let sigma : ℤ := (terms.map (fun t => cut (t / lambda))).sum
        let sticky : Prop := ∃ t ∈ terms, (cut (t / lambda) : ℚ) ≠ t / lambda
        (sticky → ∃ v, valueOf v = some ((sigma + if 0 ≤ sigma then 1 / 2 else -1 / 2) * lambda) ∧ gives v fInexact) ∧
        (¬ sticky → ∃ v, valueOf v = some (sigma * lambda) ∧ gives v 0 ∧ (sigma = 0 → v.sign = (rm == .rdn)))))) ∧
  (∀ (fa fb : FDef) (l : List (Nat × Nat)) (c sum : ℤ),
    let int (f : FDef) (x : Nat) : ℤ := if f.isSigned then signedOf f.w x else (x % 2 ^ f.w : Nat)
    let r := integerCell c sum
    let clamped : ℤ := max (-(2 ^ 63)) (min (2 ^ 63 - 1) (c + sum))
    (1 ≤ fa.kind → fa.kind ≤ 4 → 1 ≤ fb.kind → fb.kind ≤ 4 →
      integerSum fa fb (l.map (fun p => (decodeElem fa p.1, decodeElem fb p.2))) = some (l.map (fun p => int fa p.1 * int fb p.2)).sum) ∧
    (BitVec.ofNat 64 r.1).toInt = clamped ∧ r.2 = flagIf (clamped != c + sum) fOverflow) ∧
  (∀ (w : Word) (rm : Round) (posA posD : Nat → Nat) (ns : Nat) (c : Val) (as ds : List Nat) (rmax rsum : Word),
    let g := fdefOf w
    let row := smrsRow g rm posA posD ns c as ds rmax rsum
    let old := f2val rmax
    let t (n : Nat) : Val := decodeElem f2def (encodeElem f2def (exactMul c (decodeElem g (as.getD n 0))).1 .rne 0 false).1
    let bad : Prop := old.isNan = true ∨ old = .inf false ∨ ∃ n, n < ns ∧ ((t n).isNan = true ∨ t n = .inf false)
    let two (x : Val) : Val := decodeElem f2def (powerOfTwo x).1
    fdefLegal w = true → g.kind = 0 → ns ≤ 64 → as.length = 64 → ds.length = 64 →
    (∀ (k : ℤ) (s : Bool) (n : Nat) (e : ℤ), -1074 ≤ k → k ≤ 0 → valueOf (.num s n 1 e) = some (k : ℚ) →
      valueOf (two (.num s n 1 e)) = some (2 ^ k)) ∧
    valueOf (two (.inf true)) = some 0 ∧
    (bad → (∀ n, n < 64 → row.a.getD n 0 = canonicalNan g ∧ row.d.getD n 0 = canonicalNan g) ∧
      (decodeElem f2def row.rmax).isNan = true ∧ (decodeElem f2def row.rsum).isNan = true ∧ row.flags &&& fInvalid = fInvalid) ∧
    (¬ bad → ∃ m s, (m = old ∨ ∃ n, n < ns ∧ m = t n) ∧ valBelow m old = false ∧ (∀ n, n < ns → valBelow m (t n) = false) ∧
      row.rmax = (encodeElem f2def m .rne 0 false).1 ∧ row.rsum = (encodeElem f2def s .rne 0 false).1 ∧
      (let alpha : Val := if m = .inf true then valInt 1 0 else two (difference old m)
       let p (n : Nat) : Val := if m = .inf true then valZero false else two (difference (t n) m)
       (∀ n, n < 64 → row.a.getD n 0 = if n < ns then (encodeElem g (p n) rm (posA n) false).1 else 0) ∧
       (∀ n, n < 64 → row.d.getD n 0 = (encodeElem g (exactMul (decodeElem g (ds.getD n 0)) alpha).1 rm (posD n) false).1) ∧
       ∀ (r a : ℚ) (x : Nat → ℚ), valueOf (f2val rsum) = some r → valueOf alpha = some a →
         (∀ n, n < ns → valueOf (decodeElem g (row.a.getD n 0)) = some (x n)) →
         valueOf s = some (r * a + ((List.range ns).map x).sum)))) ∧
  ∀ (c : Common) (d a' : AReg) (a b : QReg) (f : Slot) (rm : Round) (shape : Fin 32) (acc sparse : Bool) (ns : Fin 64) (s : State)
      (p : Pontil) (i : Instr),
    let g := fdefOf (p.fdef f.val)
    (i = (if sparse then .mmas c d a b f rm shape acc else .mma c d a b f rm shape acc) → PontilPerforms s p i →
      (∀ e, checkProduct p a b f shape = .error e → PontilAfter (exec i s) p (fun _ p' =>
        p'.state = .stopped ∧ p'.code = codeNumber e ∧ p'.pc = p.pc ∧ p'.tiles = p.tiles)) ∧
      (∀ x, checkProduct p a b f shape = .ok x → PontilAfter (exec i s) p (fun s' p' =>
        GoesOn p p' ∧ p'.q = p.q ∧ p'.flags &&& p.flags = p.flags ∧ SameMemory s s' ∧ OnlyContext s s' p ∧
        (∀ r : AReg, r ≠ d → p'.tile r.val = p.tile r.val) ∧
        (∀ m n, m < 64 → n < 64 → (x.m ≤ m ∨ x.n ≤ n) → (p'.tile d.val).cell (64 * m + n) = (p.tile d.val).cell (64 * m + n)) ∧
        ∀ as bs, tileOperand s.popped p.esp x.oa (planesOf x.fa) (footprint x.oa x.fa) x.m x.k = (as, s.popped) →
          tileOperand s.popped p.esp x.ob (planesOf x.fb) (footprint x.ob x.fb) x.n x.k = (bs, s.popped) →
          (g.isInt = true → ∀ m n, (integerSum x.fa x.fb (pairsOf sparse (as.getD m []) (bs.getD n []))).isSome = true) →
          ∀ m n, m < x.m → n < x.n → (p'.tile d.val).cell (64 * m + n) = BitVec.ofNat 64
            (let ps := pairsOf sparse (as.getD m []) (bs.getD n [])
             let old := (p.tile d.val).cell (64 * m + n)
             if g.isInt then (integerCell (if acc then old.toInt else 0) ((integerSum x.fa x.fb ps).getD 0)).1
             else (floatCell g x.fused (if acc then decodeElem g (old.toNat % 2 ^ g.w) else valZero false) ps (effRm rm g)
               (n % 32 + p.phi)).1)))) ∧
    (i = .smrs c d a' b f rm ns → PontilPerforms s p i → PontilAfter (exec i s) p (fun s' p' =>
      GoesOn p p' ∧ p'.q = p.q ∧ p'.flags &&& p.flags = p.flags ∧ SameMemory s s' ∧ OnlyContext s s' p ∧
      (∀ r : AReg, r ≠ d → r ≠ a' → p'.tile r.val = p.tile r.val) ∧
      (effRm rm g ≠ .rsr → ∀ m n, m < 64 → n < 64 →
        let row := smrsRow g (effRm rm g) (fun _ => 0) (fun _ => 0) (ns.val + 1) (f2val (p.getQ b)) (tileRow (p.tile a'.val) g m)
          (tileRow (p.tile d.val) g m) ((p.tile d.val).maxAt m) ((p.tile d.val).sumAt m)
        (p'.tile a'.val).cell (64 * m + n) = BitVec.ofNat 64 (row.a.getD n 0) ∧
        (p'.tile d.val).cell (64 * m + n) = BitVec.ofNat 64 (row.d.getD n 0) ∧
        (p'.tile d.val).maxAt m = BitVec.ofNat 64 row.rmax ∧ (p'.tile d.val).sumAt m = BitVec.ofNat 64 row.rsum)))

/-- Drains: the rows of a tile, rounded into the slot, stand in the buffer, the phase of stochastic rounding moves on by 13, and flags
gather; every byte outside the rows, and of drnm outside its maximum word, reads as before (R184, R185, R186). drnm then merges
the largest magnitude it wrote into its maximum word. The rows hold no page table, and of drnm no entry of the buffer table. -/
def Obligations.Drains : Prop :=
  ∀ (c : Common) (q : QReg) (o : QMemOp) (s z z' : State) (p : Pontil) (x : Drain) (ps : List Place) (i : Instr) (merges : Bool),
    let rs := x.images p
    i = (if merges then .drnm c q o else .drn c q o) → PontilPerforms s p i → Quiet s →
    checkDrain s.popped p merges q o = .ok (x, z) → partPlaces z x.bd.ctx (x.touched rs) = .ok (ps, z') →
    anyUo ps = false → ps.all (fun y => y.away?.isNone) = true → vaModule x.b.base = s.module.toNat → blocked s true ps = none →
    TablesApart s (locsOf ps) →
    (merges = false → PontilAfter (exec i s) p (fun s' p' =>
      GoesOn p p' ∧ p'.q = p.q ∧ p'.tiles = p.tiles ∧ p'.phi = (p.phi + 13) % 32 ∧
      p'.flags = rs.foldl (fun f r => f ||| r.flags) p.flags ∧ SameBut (locsOf ps) s s' ∧ OnlyContext s s' p ∧
      (drFull x.d = false → s'.full = s.full) ∧
      (x.b.mxk = 0 → x.b.smask = 0 → x.f.isBlock = false → 2 ≤ x.f.w → x.overlaps = false → NoFrameTwice s.popped x.bd.ctx →
        ∀ m n, m < drRows x.d → n < drCols x.d →
          ElementIs s.popped s' ⟨x.bd, x.b, (x.rows.at' m).toNat + n * x.f.w, x.f⟩ 0
            (((rs.getD m ⟨[], 0, 0⟩).elems.getD n 0) % 2 ^ x.f.w)))) ∧
    (merges = true → ∀ (t : Target) (z₁ z₂ : State) (qs : List Place), maxTarget s.popped p q = .ok (t, z₁) →
      checkAtomic z₁ { t with f := f3def } o.scope = .ok (qs, z₂) → qs.all (fun y => y.away?.isNone) = true → (locsOf qs).Nodup →
      (∀ l ∈ locsOf qs, l ∉ locsOf ps) → blocked s true qs = none → NoFrameTwice s.popped x.bd.ctx →
      EntriesApart s x.bd.ctx (locsOf ps) →
      PontilAfter (exec i s) p (fun s' p' =>
        GoesOn p p' ∧ p'.q = p.q ∧ p'.tiles = p.tiles ∧ p'.phi = (p.phi + 13) % 32 ∧ SameBut (locsOf ps ++ locsOf qs) s s' ∧
        ∃ old, ElementIs s.popped s t 0 old ∧
          ElementIs s.popped s' t 0 (max old (maxPatternOf (rs.flatMap (writtenVals x.f))))))


/-! ## Privileged instructions -/

/-- Privileged instructions that act on flags of a context, translations, queues and the stop on a tick: wrpr changes DEBUG alone
(R231); tlbinv drops translations of the pages it covers, and no other (R255); hqctl gives the queue's state word, after it has
paused or resumed the queue, or owes it until a drain (R245); an arm of a tick that some die has passed, or is less than 64 before, is
void (R293). That wrpr, tlbinv and stopt go on at once, where R231, R255 and R293 say that they wait, is the model's reading (log 45).
bfinv waits until every die of the device has dropped its copies of the entries, or its time is up, and owes how many dies
have (R260). -/
def Obligations.PrivilegedInstructions : Prop :=
  (∀ (c : Common) (d a : VReg) (s : State) (m : Member),
    let x := m.t.readV a
    let dies := s.diesOf m.wg.ctx
    (PerformsAlone s m (.wrpr c a) →
      (x.toNat < 8 → x.getLsbD 0 = s.isPriv m.wg.ctx → x.getLsbD 1 = s.isChecked m.wg.ctx →
        WritesNow (exec (.wrpr c a) s) m (.wrpr c a) [] 0 ∧ ∃ s', exec (.wrpr c a) s = .next s' ∧
          (∀ k, s.context? m.wg.ctx = some k → s'.context? m.wg.ctx = some { k with debug := x.getLsbD 2 }) ∧
          (∀ n, n ≠ m.wg.ctx → s'.context? n = s.context? n) ∧ SameMemory s s' ∧ OthersKept s s' m) ∧
      ((8 ≤ x.toNat ∨ x.getLsbD 0 ≠ s.isPriv m.wg.ctx ∨ x.getLsbD 1 ≠ s.isChecked m.wg.ctx) →
        Traps (exec (.wrpr c a) s) m .illegalField m.t.pc)) ∧
    (PerformsAlone s m (.tlbinvPg c a) →
      (mayInvalidate s m.wg.ctx x.toNat = true → WritesNow (exec (.tlbinvPg c a) s) m (.tlbinvPg c a) [] 0 ∧
        ∃ s', exec (.tlbinvPg c a) s = .next s' ∧ SameMemory s s' ∧ OthersKept s s' m ∧
          ∀ e, e ∈ s'.tlb ↔ e ∈ s.tlb ∧ e.covers (vaDie x.toNat) (vaOfs x.toNat) = false) ∧
      (mayInvalidate s m.wg.ctx x.toNat = false → Traps (exec (.tlbinvPg c a) s) m .bounds m.t.pc)) ∧
    (PerformsAlone s m (.tlbinvAll c) → WritesNow (exec (.tlbinvAll c) s) m (.tlbinvAll c) [] 0 ∧
      ∃ s', exec (.tlbinvAll c) s = .next s' ∧ SameMemory s s' ∧ OthersKept s s' m ∧
        ∀ e, e ∈ s'.tlb ↔ e ∈ s.tlb ∧ ¬ (e.ctx = m.wg.ctx ∧ (e.die ∈ dies ∨ 4 ≤ e.die))) ∧
    (∀ i ∈ [Instr.hqctlRd c d a, .hqctlPause c d a, .hqctlResume c d a, .hqctlDrain c d a], PerformsAlone s m i →
      (namedQueue m s a = none → Traps (exec i s) m .queueRange m.t.pc) ∧
      (∀ q, namedQueue m s a = some q →
        let paused := if i = .hqctlRd c d a then q.paused else if i = .hqctlResume c d a then false else true
        ∃ s', exec i s = .next s' ∧ s'.heldQueue m.wg.ctx q.num = some { q with paused } ∧ SameMemory s s' ∧ OthersKept s s' m ∧
          (i = .hqctlDrain c d a → ∃ t' o, s'.thread? m.wg.uid m.t.tid = some t' ∧ t'.owed = m.t.owed ++ [o] ∧
            o.queue = some q.num ∧ o.writes = [.v d 0] ∧ t'.regs = m.t.regs ∧ t'.pc = m.t.pc + 8) ∧
          (i ≠ .hqctlDrain c d a → WritesLater (exec i s) m i [.v d (queueWord s' m.wg.ctx q.num)] 0 false false))) ∧
    (PerformsAlone s m (.stoptArm c a) → WritesNow (exec (.stoptArm c a) s) m (.stoptArm c a) [] 0 ∧
      ∃ s', exec (.stoptArm c a) s = .next s' ∧ SameMemory s s' ∧ OthersKept s s' m ∧
        ((∃ die, die < 6 ∧ x.toNat < s.tickOf die + 64) → s'.stopAt = s.stopAt) ∧
        ((∀ die, die < 6 → s.tickOf die + 64 ≤ x.toNat) → s'.stopAt = some x.toNat)) ∧
    (PerformsAlone s m (.stoptOff c) → WritesNow (exec (.stoptOff c) s) m (.stoptOff c) [] 0 ∧
      ∃ s', exec (.stoptOff c) s = .next s' ∧ SameMemory s s' ∧ OthersKept s s' m ∧ s'.stopAt = none)) ∧
  (∀ (c : Common) (d a b : VReg) (s : State) (m : Member) (k : Context), s.context? m.wg.ctx = some k →
    let i : Instr := .bfinv c d a b
    let first := (m.t.readV a).toNat
    let n := (m.t.readV b).toNat
    let dies := s.diesOf m.wg.ctx
    let t : ThreadId := ⟨m.wg.uid, m.t.tid⟩
    (PerformsAlone s m i →
      (k.btlen < first + n → Traps (exec i s) m .bounds m.t.pc) ∧
      (first + n ≤ k.btlen → n = 0 → WritesLater (exec i s) m i [.v d (BitVec.ofNat 64 (diesPerDevice s.mode))] 0 false false) ∧
      (first + n ≤ k.btlen → n ≠ 0 → ThreadAfter (exec i s) m (fun s' t' =>
        (m.t.view.uo = [] → SameMemory s s' ∧ t'.view = m.t.view) ∧ ∃ w,
        t' = { m.t with wait := some w, stall := stallOf i, view := t'.view } ∧ w.kind = .bfinv ∧ w.instr = i ∧ w.acks = [] ∧
        w.limit = s.tickOf m.wg.core.die.val + 2 ^ 24))) ∧
    (WaitingAt s m i .bfinv → ∀ w, m.t.wait = some w →
      let now := s.tickOf m.wg.core.die.val
      let late (o' : Out) (count : Nat) : Prop := WritesLaterAt m.t.stall o' m [.v d (BitVec.ofNat 64 count)] 0 false false
      (∀ die : Fin 4, (die.val ∉ dies ∨ die.val ∈ w.acks ∨ (∃ x ∈ s.down, x.die = die) ∨ w.limit < now) →
        exec (.bfinvInvalidate t die) s = .next s) ∧
      (∀ die : Fin 4, die.val ∈ dies → die.val ∉ w.acks → (∀ x ∈ s.down, x.die ≠ die) → now ≤ w.limit →
        (∃ s', exec (.bfinvInvalidate t die) s = .next s' ∧ SameMemory s s' ∧ OthersKept s s' m ∧
          ∀ e, e ∈ s'.entryCache ↔ e ∈ s.entryCache ∧
            ¬ (cachedOn die.val e = true ∧ e.ctx = m.wg.ctx ∧ first ≤ e.index ∧ e.index < first + n)) ∧
        ((∀ x ∈ dies, x = die.val ∨ x ∈ w.acks) → late (exec (.bfinvInvalidate t die) s) (w.acks.length + 1)) ∧
        ((∃ x ∈ dies, x ≠ die.val ∧ x ∉ w.acks) → ThreadAfter (exec (.bfinvInvalidate t die) s) m (fun _ t' =>
          t' = { m.t with wait := some { w with acks := die.val :: w.acks } }))) ∧
      (w.limit ≤ now → late (exec (.bfinvTimeout t) s) w.acks.length) ∧
      (now < w.limit → exec (.bfinvTimeout t) s = .next s)))

/-! ## Saves and restores -/

/-- lehrsv stops the workgroup that a handle names, takes it off its core and marks its index saved, with 0 as its result; 1 names no
workgroup and 2 names the caller's own (R289). That lehrsv waits at its thread while its target owes a result that a save cannot deliver
is the model's reading of R44, R230 and R245 (log 40). lehrld places the workgroup of an image that passes the checks and gives its
handle, or gives the code that refuses it (R290). -/
def Obligations.SavesAndRestores : Prop :=
  ∀ (c : Common) (d a b : VReg) (bind : Fin 64) (s : State) (m : Member),
    (let i : Instr := .lehrsv c d a b bind
     let named := wgOfHandle s (s.deviceOfCtx m.wg.ctx) (m.t.readV a)
     PerformsAlone s m i →
      (named = none → WritesLater (exec i s) m i [.v d 1] 0 true false ∧ ∃ s', exec i s = .next s' ∧ SameMemory s s') ∧
      (∀ g, named = some g → g.uid = m.wg.uid → WritesLater (exec i s) m i [.v d 2] 0 true false ∧
        ∃ s', exec i s = .next s' ∧ SameMemory s s') ∧
      (∀ g, named = some g → g.uid ≠ m.wg.uid → savePending s g = true → WaitsAt (exec i s) m i .save) ∧
      (∀ g e, named = some g → g.uid ≠ m.wg.uid → savePending s g = false →
        imageTarget s.popped (binderOf s.popped m.wg m.t) bind.val (m.t.readV b).toInt (lengthOf s g) = .error e →
        Traps (exec i s) m e m.t.pc) ∧
      (∀ (g : Workgroup) (l : Launch) (cx : Context) (bo : Bound) (va : Nat) (ps : List Place) (z : State),
        named = some g → g.uid ≠ m.wg.uid → savePending s g = false →
        imageTarget s.popped (binderOf s.popped m.wg m.t) bind.val (m.t.readV b).toInt (lengthOf s g) = .ok (bo, va, ps, z) →
        pathWaits z bo = false → blocked z true ps = none → s.launch? g.launch = some l → s.context? g.ctx = some cx →
        WritesLater (exec i s) m i [.v d 0] 0 true false ∧
        ∃ s', exec i s = .next s' ∧ s'.wg? g.uid = none ∧ (∀ p ∈ s'.pontils, p.wg = g.uid → p.state = .free) ∧
          (∃ l', s'.launch? g.launch = some l' ∧ l'.code = l.code ∧ l'.ended = l.ended ∧ ∃ k ∈ l'.marks, k.index = g.index) ∧
          ∀ u tid, u ≠ m.wg.uid → u ≠ g.uid → s'.thread? u tid = s.thread? u tid)) ∧
    (let i : Instr := .lehrld c d a bind
     PerformsAlone s m i → s.uids ≠ m.wg.uid → ∀ (bo : Bound) (s₁ s₂ : State) (bs : List Byte) (v : MemView) (cx : Context),
      bindingEntry s.popped (binderOf s.popped m.wg m.t) bind.val = .ok (bo, s₁) → checkPeers s₁ bo = .ok () →
      (imageWaits s₁ m.wg.ctx bo (m.t.readV a).toInt = true → WaitsAt (exec i s) m i .link) ∧
      (imageWaits s₁ m.wg.ctx bo (m.t.readV a).toInt = false →
      (∀ e, imageAt s₁ (binderOf s.popped m.wg m.t).agent m.wg.ctx m.t.view bo (m.t.readV a).toInt = .error e →
        Traps (exec i s) m e m.t.pc) ∧
      (imageAt s₁ (binderOf s.popped m.wg m.t).agent m.wg.ctx m.t.view bo (m.t.readV a).toInt = .ok (bs, s₂, v) →
        s.context? m.wg.ctx = some cx →
        let s₃ := s₂.setView m.wg.uid m.t.tid v
        let r := restoreImage s₃ cx bs (coresOf (imageDie s₃ cx bs)) v
        (∀ e, r = .error e → WritesLater (exec i s) m i [.v d (BitVec.ofNat 64 (2 ^ 63 + codeNumber e))] 0 true false) ∧
        (∀ h z, r = .ok (h, z) → WritesLater (exec i s) m i [.v d (BitVec.ofNat 64 h)] 0 true false ∧
          ∃ s' g, exec i s = .next s' ∧ g ∈ s'.workgroups ∧ g.handle s'.mode = h ∧ g.halted = false ∧ g.ctx < 64))))

/-! ## Records and launches -/

/-- spawn sets the queue of a record, and join takes one from its count; both are releases. A record whose count is zero at a spawn, or
comes to zero at a join, is put forward by the same step: the launch of a record that passes the checks stands on the queue; one that
fails has the code in its STATUS, and none is added (R163, R235, R236). The step waits, with nothing changed, while the queue has no room
(R163), or what the acceptance reaches lies behind what makes accesses wait. `o'` is the issue of the instruction, or the event that tries
one again that waits; that the record is checked anew at that event is the model's reading (log 45). -/
def Obligations.SpawnAndJoin : Prop :=
  ∀ (c : Common) (d : VReg) (o : MemOp) (s s₁ : State) (m : Member) (b : ObjectAt) (i : Instr) (o' : Out) (n : Nat),
    ObjectFree s b true → TlbFresh s →
    IssuedOrResumed s m i .queueRoom (.spawnJoinRetry ⟨m.wg.uid, m.t.tid⟩) o' n →
    let word := b.ps.take 8
    let old := objectNow s word
    let count := old % 2 ^ 32
    let waits (k : WaitKind) : Prop := WaitsOn n o' m i k (SameMemory s)
    let now : Prop := WritesNowAt n o' m [] 0
    let owes (x : Nat) : Prop := WritesLaterAt n o' m [.v d (BitVec.ofNat 64 x)] 0 true false
    let read := (readObject s₁ b.bd.agent (s₁.viewOf m.wg.uid m.t.tid) word).2.2.2.1
    let reaches (q : Nat) (w : Bool) : Prop := acceptWaits read m.wg.ctx q b.va = w
    let queued (q j : Nat) : Bool := if 32 ≤ j ∧ j < 38 then q.testBit (j - 32) else old.testBit j
    let stepped (r : RecStep) (k : Nat) (p : State → Prop) : Prop := ∃ z v s', r = .done k z v ∧ SameBut (locsOf word) s z ∧
      z.launches = s.launches ∧ p z ∧ o' = .next s' ∧ PutForward s b m (z.setView m.wg.uid m.t.tid v) s'
    (i = .spawn c d o → recordOf m s.popped o { r := true, w := true, a := true } = .ok (b, s₁) →
      let q := (m.t.readV d).toNat
      ((queuesPerDevice s.mode ≤ q ∨ s.heldQueue m.wg.ctx q = none) → Traps o' m .queueRange m.t.pc) ∧
      (q < queuesPerDevice s.mode → (s.heldQueue m.wg.ctx q).isSome = true →
        (count = 0 → hasRoom s m.wg.ctx q = false → waits .queueRoom) ∧
        (count = 0 → hasRoom s m.wg.ctx q = true → reaches q true → waits .link) ∧
        (count = 0 → hasRoom s m.wg.ctx q = true → reaches q false → now ∧
          stepped (spawnStep s₁ m b o.scope q) 0 (fun z => ∀ j, (objectNow z word).testBit j = queued q j)) ∧
        (count ≠ 0 → now ∧ ∃ s', o' = .next s' ∧ SameBut (locsOf word) s s' ∧ OthersKept s s' m ∧
          s'.launches = s.launches ∧ ∀ j, (objectNow s' word).testBit j = queued q j))) ∧
    (i = .joinRec c d o → recordOf m s.popped o { a := true } = .ok (b, s₁) →
      let q := natField old 32 6
      (count = 0 → Traps o' m .joinUnder m.t.pc) ∧
      (count = 1 → hasRoom s m.wg.ctx q = false → waits .queueRoom) ∧
      (count = 1 → hasRoom s m.wg.ctx q = true → reaches q true → waits .link) ∧
      (count = 1 → hasRoom s m.wg.ctx q = true → reaches q false → owes 1 ∧
        stepped (joinStep s₁ b.bd.agent o.scope (s₁.viewOf m.wg.uid m.t.tid) m.wg.ctx b.va word) 1
          (fun z => objectNow z word = old - 1)) ∧
      (1 < count → owes count ∧
        ∃ s', o' = .next s' ∧ SameBut (locsOf word) s s' ∧ OthersKept s s' m ∧ s'.launches = s.launches ∧
          objectNow s' word = old - 1))

/-- What follows a code: outside debugging, and for every code of class E, the workgroup is discarded and its launch ends with the code
unless it has one; under debugging, for other codes, the workgroup is saved or stays stopped (R273), once what it has issued is complete.
The end of a launch discards its workgroups, and only those (R274); one that has issued an access which waits for a path or a die, or a
post, follows when that is complete (R231). A launch whose workgroups have all ended completes: its record's STATUS is written, and it is
gone, when it has no dependents or has a code (R243, Table 17.3). -/
def Obligations.LaunchEnds : Prop :=
  (∀ (s : State) (u : Nat),
    (∀ g, s.wg? u = some g →
      let held : Prop := s.isDebug g.ctx = true ∧ (savePending s g = true ∨ areaWaits s g = true)
      ((g.halted = false ∨ g.disposed = true ∨ trapOf g = none ∨ held) → exec (.trapDisposition u) s = .next s) ∧
      (∀ c x, g.halted = true → g.disposed = false → trapOf g = some (c, x) → ¬ held → ∃ s', exec (.trapDisposition u) s = .next s' ∧
        ((s.isDebug g.ctx = false ∨ codeClass c = .ends) → s'.wg? u = none ∧
          ∀ l, s.launch? g.launch = some l → ∃ l', s'.launch? g.launch = some l' ∧ l'.code = some (l.code.getD c)) ∧
        (s.isDebug g.ctx = true → codeClass c ≠ .ends →
          (∀ l, s.launch? g.launch = some l → ∃ l', s'.launch? g.launch = some l' ∧ l'.code = l.code) ∧
          (s'.wg? u = none ∨ s'.wg? u = some { g with disposed := true })))) ∧
    (∀ l, s.launch? u = some l → (s.workgroups.map (·.uid)).Nodup →
      (l.code = none → exec (.launchEnd u) s = .next s) ∧
      (∀ c, l.code = some c → ∃ s', exec (.launchEnd u) s = .next s' ∧
        (∀ g ∈ s.workgroups, g.launch = u → s'.wg? g.uid = if linkPending g = true then some g else none) ∧
        (∀ g ∈ s.workgroups, g.launch ≠ u → s'.wg? g.uid = some g) ∧
        ∃ l', s'.launch? u = some l' ∧ l'.code = some c ∧ l'.saved = [] ∧ l'.marks = []))) ∧
  (∀ (s : State) (u : Nat) (l : Launch), s.launch? u = some l →
    (readyToComplete s l = true ↔ l.joined.isSome = true ∨
      ((∀ g ∈ s.workgroups, g.launch ≠ l.uid) ∧ (l.code ≠ none ∨ recCount l.record ≤ l.ended))) ∧
    ((readyToComplete s l = false ∨ completionHeld s l = true) → exec (.launchComplete u) s = .next s) ∧
    (readyToComplete s l = true → completionHeld s l = false → (l.code ≠ none ∨ blkNdep l.block = 0) →
      ∃ s', exec (.launchComplete u) s = .next s' ∧
      s'.launches = s.launches.filter (fun x => x.uid ≠ u) ∧ s'.workgroups = s.workgroups ∧
      ∀ ps z, places s l.ctx.val (l.addr.toNat + 56) 8 = .ok (ps, z) → ps.all (fun p => p.away?.isNone) = true →
        (locsOf ps).Nodup → NoMigrationControl s → memWf s.mem = true → (∀ r ∈ s.hist, r.loose = none) → l.joined = none →
        l.under = false → recComp l.record = 0 →
        SameBut (locsOf ps) s s' ∧ objectNow s' ps = (match l.code with
          | some c => codeNumber c + 2 ^ 17
          | none => 0)))

/-! ## Cycles of a core -/

/-- A cycle of a core counts every stall down, and sends at most two gangs to issue, in the order of its slots from its pointer, two
forks in that of their workgroups' slots (R168); of two that need the unit of formats and lanes, the second is kept for the next cycle,
which offers it again as it was formed (R11, R35). A gang formed now is of ready threads of one workgroup, with one key, on different
lanes, with no stall left, and no thread that could go is of a lower key; its workgroup unparks when every ready thread is parked (R31
to R34). That a gang kept over unparks when it issues is the model's choice (log 54). -/
def Obligations.CoreCycle : Prop :=
  ∀ (s : State) (c : CoreId), (s.workgroups.map (·.uid)).Nodup →
    ((∃ x ∈ s.down, x.die = c.die) → exec (.gangForm c) s = .next s) ∧
    ((∀ x ∈ s.down, x.die ≠ c.die) → ∃ s', exec (.gangForm c) s = .next s' ∧ SameMemory s s' ∧ s'.full = s.full ∧
      s'.launches = s.launches ∧ s'.pontils = s.pontils ∧
      (∀ u tid t, s.thread? u tid = some t → ∃ t', s'.thread? u tid = some t' ∧
        { t' with parked := t.parked, stall := t.stall } = t ∧
        ∀ g, s.wg? u = some g → t'.stall = if g.core = c then t.stall - 1 else t.stall) ∧
      let z := tickStalls s c
      let picks := picksOf z (inOrder z c)
      let go (p : Pick) : Issuer := .gang p.g.uid p.tids
      let ready (p : Pick) (t : Thread) : Prop := t ∈ p.g.threads ∧ readyThread z p.g t = true
      let issued (p : Pick) : Prop := ∃ g, s'.wg? p.g.uid = some g ∧ g.formed = [] ∧
        g.threads = if p.unpark then p.g.threads.map (fun t => { t with parked := false }) else p.g.threads
      (match picks with
       | [] => s'.issue = s.issue ∧ pointerOf s' c = pointerOf s c
       | [p] => s'.issue = s.issue ++ [go p] ∧ pointerOf s' c = (p.g.slot.val + 1) % 16 ∧ issued p
       | p :: q :: _ => issued p ∧
         (if takesUnit z p.g p.tids = true ∧ takesUnit z q.g q.tids = true then
           s'.issue = s.issue ++ [go p] ∧ pointerOf s' c = q.g.slot.val ∧ s'.wg? q.g.uid = some { q.g with formed := q.tids }
         else issued q ∧ pointerOf s' c = (q.g.slot.val + 1) % 16 ∧
           s'.issue = s.issue ++
             (if forks z p.g p.tids = true ∧ forks z q.g q.tids = true ∧ q.g.slot < p.g.slot then [go q, go p] else [go p, go q]))) ∧
      ∀ p ∈ picks, p.g ∈ z.workgroups ∧ p.g.core = c ∧ p.g.halted = false ∧ noticed z p.g = false ∧
        gangWaits z p.g p.tids = false ∧ p.tids ≠ [] ∧
        (p.g.formed ≠ [] → p.tids = p.g.formed ∧ (p.unpark = true ↔ ∃ t ∈ p.g.threads, t.tid ∈ p.tids ∧ t.parked = true)) ∧
        (p.g.formed = [] → (p.unpark = true ↔ ∀ t, ready p t → t.parked = true) ∧
          ∀ tid ∈ p.tids, ∃ t, ready p t ∧ t.tid = tid ∧ t.stall = 0 ∧
            (∀ t', ready p t' → t'.tid ∈ p.tids → t'.parked = t.parked → sameKey t' t = true → t'.lane = t.lane →
              t'.warp = t.warp) ∧
            ∀ t', ready p t' → (t.parked = true → t'.parked = true) ∧ (t'.parked = t.parked → keyBelow t' t = false)))

/-- The return of a result writes its registers and flags and ends what is owed of it; the state of a queue is returned once the
queue has drained, and is the queue's word then (R32, R40, R245). -/
def Obligations.ResultsReturn : Prop :=
  ∀ (s : State) (u tid k : Nat) (g : Workgroup) (t : Thread) (o : Owed), s.wg? u = some g → s.thread? u tid = some t →
    let e := exec (.scoreboardReturn ⟨u, tid⟩ k) s
    (t.owed[k]? = none → e = .next s) ∧
    (t.owed[k]? = some o → waitersOf s .save = [] →
      (o.held s g.ctx = true → e = .next s) ∧
      (o.held s g.ctx = false → ∃ s' t', e = .next s' ∧ s'.thread? u tid = some t' ∧ OnlyCores s s' ∧ SameMemory s s' ∧
        (∀ u' tid', (u' ≠ u ∨ tid' ≠ tid) → s'.thread? u' tid' = s.thread? u' tid') ∧
        t'.owed = t.owed.eraseIdx k ∧ t'.fflags = t.fflags ||| o.flags ∧ t'.pc = t.pc ∧ t'.stall = t.stall ∧
        (∀ r x, o.writes = [.v r x] → granted t.regs.length r = true → r ≠ 0xFF →
          t'.readV r = (match o.queue with | none => x | some q => queueWord s g.ctx q) ∧
          ∀ r', r' ≠ r → t'.getV r' = t.getV r') ∧
        (∀ p x, o.writes = [.p p x] → t.preds.length = 7 → t'.readP p = x ∧ t'.regs = t.regs)))

/-! ## Engines -/

/-- An engine's operation comes to its end: it leaves its engine, and no other does, unless an access of it waits; one that is to stop
with a code ends its launch with it (R193, R275). A copy's destination bytes are its source bytes (R195). A gather fills its dense
records, with zeros for a record that lies outside the data buffer, and a scatter writes each data record from the last dense record that
names it; the status counts the records skipped (R196). A lane's run is the one of R199. A prefetch with nothing to move counts its pages
as left in place (R200). A collective waits for every rank; then every rank's destination holds the sums of R71 or the gathered bits, or
nothing is written and the status reports a mismatch (R202); that an NRANK other than the number of the group's members is such a mismatch
is the model's choice (log 50). When and in what order writes come before the completion is log 13. Each status word and each object is as
R193 says. A sum whose contributions are whole multiples of 2^ALPHA, none too large, is the exact sum encoded once (R71). -/
def Obligations.EngineCompletions : Prop :=
  (∀ (s : State) (cl : ClusterId) (die : Fin 4) (lane k : Nat) (op : EngineOp),
    let ends (o' : Out) (n : Nat) (op : EngineOp) : Prop := ∃ s', o' = .next s' ∧ s'.workgroups = s.workgroups ∧ s'.pontils = s.pontils ∧
      (s'.ops = removeFirst (fun o => o == op) s.ops ∨ (s'.ops = s.ops ∧ SameMemory s s' ∧ s'.full = s.full)) ∧
      ∀ c, n ≤ op.buffers.length → op.aborted = some c → s'.ops = removeFirst (fun o => o == op) s.ops ∧
        ∀ l, s.launch? op.launch = some l → ∃ l', s'.launch? op.launch = some l' ∧ l'.code = some (l.code.getD c)
    (opAt s (.copy cl) k = none → exec (.copyCompletion cl k) s = .next s) ∧
    (opAt s (.copy cl) k = some op → ends (exec (.copyCompletion cl k) s) 2 op) ∧
    (opAt s (.gather die) k = none → exec (.gatherScatterCompletion die k) s = .next s) ∧
    (opAt s (.gather die) k = some op → ends (exec (.gatherScatterCompletion die k) s) 3 op) ∧
    ((∀ o ∈ s.ops, o.unit ≠ .lane die lane) → exec (.transducerRun die lane) s = .next s) ∧
    ((∃ o ∈ s.ops, o.unit = .lane die lane) → ∃ o ∈ s.ops, o.unit = .lane die lane ∧ ends (exec (.transducerRun die lane) s) 4 o)) ∧
  (∀ (s : State) (cl : ClusterId) (k b₀ b₁ : Nat) (op : EngineOp) (src dst : Bound),
    let pairs := copyPairs op.desc
    let source (p : Int × Int) : Nat := src.base + p.1.toNat
    let target (p : Int × Int) : Nat := dst.base + dst.swz p.2.toNat
    let writes := pairs.map target
    opAt s (.copy cl) k = some op → op.buffers = [(b₀, src), (b₁, dst)] → EnginesFree s op.ctx [op] (pairs.map source) writes →
    (∀ p ∈ pairs, p.1.toNat < src.backing ∧ dst.swz p.2.toNat < dst.backing) →
    ∃ s', exec (.copyCompletion cl k) s = .next s' ∧
      EnginesEnd s s' op.ctx [op] writes (fun _ => cpyBytes op.desc) (fun _ => cpyBytes op.desc) ∧
      (∀ p ∈ pairs, byteNow s s' op.ctx (target p) = byteNow s s op.ctx (source p)) ∧
      (∀ j, j ∈ s'.full ↔ j ∈ s.full ∨ (cpyFull op.desc = true ∧ ∃ va ∈ writes, inWindow va = true ∧ j = locAt s op.ctx va / 16))) ∧
  (∀ (s : State) (die : Fin 4) (k b₀ b₁ b₂ : Nat) (op : EngineOp) (data idx dense : Bound),
    opAt s (.gather die) k = some op → op.buffers = [(b₀, data), (b₁, idx), (b₂, dense)] → (op.kind = .gth ∨ op.kind = .sct) →
    data.mxk = 0 → idx.mxk = 0 → dense.mxk = 0 →
    let n := gthCount op.desc
    let size := gthSize op.desc
    let first : Int := descInt op.desc 1
    let dofs : Int := descInt op.desc 3
    let pofs : Int := descInt op.desc 4
    let index (i : Nat) : Nat := bytesNow s s op.ctx (idx.base + 4 * (first.toNat + i)) 4
    let inside (i : Nat) : Bool := decide (0 ≤ dofs + (index i * size : Nat) ∧ dofs + ((index i + 1) * size : Nat) ≤ data.len)
    let record (i : Nat) : List Nat := (List.range size).map (fun j => data.base + (dofs + (index i * size : Nat)).toNat + j)
    let filled (i : Nat) : List Nat := (List.range size).map (fun j => dense.base + pofs.toNat + i * size + j)
    let named := (List.range n).filter inside
    let last := named.filter (fun i => (List.range n).all (fun j => decide (j ≤ i ∨ index j ≠ index i)))
    let indexes := (List.range (4 * n)).map (fun j => idx.base + 4 * first.toNat + j)
    let reads := indexes ++ (if op.kind = .gth then named.flatMap record else named.flatMap filled)
    let writes := if op.kind = .gth then (List.range n).flatMap filled else last.flatMap record
    0 ≤ first → 0 ≤ pofs → 4 * (first.toNat + n) ≤ idx.len → pofs.toNat + n * size ≤ dense.len →
    EnginesFree s op.ctx [op] reads writes →
    ∃ s', exec (.gatherScatterCompletion die k) s = .next s' ∧ s'.full = s.full ∧
      EnginesEnd s s' op.ctx [op] writes (fun _ => (List.range n).countP (fun i => !(inside i))) (fun _ => n * size) ∧
      (op.kind = .gth → ∀ i j, i < n → j < size → byteNow s s' op.ctx ((filled i).getD j 0) =
        if inside i then byteNow s s op.ctx ((record i).getD j 0) else 0) ∧
      (op.kind = .sct → ∀ i ∈ last, ∀ j, j < size →
        byteNow s s' op.ctx ((record i).getD j 0) = byteNow s s op.ctx ((filled i).getD j 0))) ∧
  (∀ (s : State) (die : Fin 4) (lane b₀ b₁ b₂ b₃ : Nat) (op : EngineOp) (table input out marks : Bound),
    s.ops.filter (fun o => o.unit == .lane die lane) = [op] →
    op.buffers = [(b₀, table), (b₁, input), (b₂, out), (b₃, marks)] →
    table.mxk = 0 → input.mxk = 0 → out.mxk = 0 → marks.mxk = 0 →
    let ilen := xdsIlen op.desc
    let iofs := (descInt op.desc 1).toNat
    let oofs := (descInt op.desc 2).toNat
    let mofs := (descInt op.desc 4).toNat
    let tb (k : Nat) : Nat := (byteNow s s op.ctx (table.base + k)).toNat
    let inp (k : Nat) : Nat := (byteNow s s op.ctx (input.base + iofs + k)).toNat
    let header := bytesNow s s op.ctx table.base 4
    let states := natField header 0 13
    let r := xdsRun tb inp table.len states (xdsOcap op.desc) (xdsMcap op.desc) ilen (natField header 16 12) 0 [] []
    let outAt := (List.range r.out.length).map (fun k => out.base + oofs + k)
    let markAt := (List.range (4 * r.marks.length)).map (fun k => marks.base + 4 * mofs + k)
    let reads := (List.range table.len).map (fun k => table.base + k) ++ (List.range ilen).map (fun k => input.base + iofs + k)
    let writes := outAt ++ markAt ++ (List.range 4).map (fun k => op.descAddr + 44 + k)
    0 ≤ descInt op.desc 1 → 0 ≤ descInt op.desc 2 → 0 ≤ descInt op.desc 4 → natField header 16 12 < states →
    320 + 128 * states ≤ table.len → iofs + ilen ≤ input.len → oofs + xdsOcap op.desc ≤ out.len →
    4 * (mofs + xdsMcap op.desc) ≤ marks.len → ilen < 2 ^ 24 → xdsOcap op.desc < 2 ^ 24 →
    EnginesFree s op.ctx [op] reads writes →
    ∃ s', exec (.transducerRun die lane) s = .next s' ∧ s'.full = s.full ∧
      EnginesEnd s s' op.ctx [op] writes
        (fun _ => r.reason + r.state * 2 ^ 4 + r.consumed * 2 ^ 16 + r.out.length * 2 ^ 40) (fun _ => ilen) ∧
      (∀ k, k < r.out.length → (byteNow s s' op.ctx (out.base + oofs + k)).toNat = r.out.getD k 0 % 256) ∧
      (∀ k, k < r.marks.length → bytesNow s s' op.ctx (marks.base + 4 * (mofs + k)) 4 = r.marks.getD k 0) ∧
      bytesNow s s' op.ctx (op.descAddr + 44) 4 = r.marks.length) ∧
  (∀ (s : State) (far : Fin 2) (k : Nat),
    (opAt s (.tpf far) k = none → exec (.tpfCompletion far k) s = .next s) ∧
    (∀ op, opAt s (.tpf far) k = some op →
      (op.aborted = none → (tpfHeld s op = true ∨ completionWaits s op = true) → exec (.tpfCompletion far k) s = .next s) ∧
      ((op.aborted ≠ none ∨ (tpfHeld s op = false ∧ completionWaits s op = false)) →
        ∃ s', exec (.tpfCompletion far k) s = .next s' ∧ s'.ops.length + 1 = s.ops.length ∧
          s'.moves.filter (fun m => m.tpf == some op.descAddr) = []) ∧
      (tpfHeld s op = false → EnginesFree s op.ctx [op] [] [] → s.moves = [] →
        (∀ p ∈ tpfPages op, pageMapped s p = true ∧ tpfRequest s op p = none) →
        ∃ s', exec (.tpfCompletion far k) s = .next s' ∧ s'.full = s.full ∧ s'.moves = [] ∧
          EnginesEnd s s' op.ctx [op] [] (fun _ => (tpfPages op).length * 2 ^ 32 % 2 ^ 64) (fun _ => tpfLen op.desc)))) ∧
  (∀ (s z : State) (tag : Word) (remote : List RemoteRank) (g : Group) (ctx : Nat) (ops : List EngineOp)
      (src dst : EngineOp → Bound),
    s.groups.filter (fun g => g.tag == tag) = [g] →
    (remote.length ≠ (g.members.filter (fun m => m.module != s.module)).length →
      exec (.collectiveCompletion tag remote) s = .next s) ∧
    (remote.length = (g.members.filter (fun m => m.module != s.module)).length →
      (gather tag g (List.finRange 4) s = (none, z) → ∃ s', exec (.collectiveCompletion tag remote) s = .next s' ∧
        s' = { s with choice := s'.choice }) ∧
      (gather tag g (List.finRange 4) s = (some ops, z) → ops ≠ [] → (∀ o ∈ ops, colGroup o.desc = tag) ∧
        let fs (op : EngineOp) : FDef := fdefOf (slotWord op.fmts (colSslot op.desc))
        let fd (op : EngineOp) : FDef := fdefOf (slotWord op.fmts (colDslot op.desc))
        let from' (op : EngineOp) (j : Nat) : Nat := ((descInt op.desc 1).toNat + j) * (fs op).w
        let to' (op : EngineOp) (j : Nat) : Nat := ((descInt op.desc 2).toNat + j) * (fd op).w
        let reads := ops.flatMap (fun op => bitAddrs (src op) (from' op 0) (colSourceCount op.desc * (fs op).w))
        let writes := ops.flatMap (fun op => bitAddrs (dst op) (to' op 0) (colDestCount op.desc * (fd op).w))
        let start (op : EngineOp) : RemoteRank := ⟨colRank op.desc, colOp op.desc, colCount op.desc, colNrank op.desc,
          colAlpha op.desc, colRm op.desc, slotWord op.fmts (colSslot op.desc), slotWord op.fmts (colDslot op.desc), []⟩
        let ranks := ops.map start ++ remote
        let agreed : Prop := (∀ a ∈ ranks, a.nrank = g.members.length ∧ ∀ b ∈ ranks, b.op = a.op ∧ b.count = a.count ∧
          b.alpha = a.alpha ∧ b.rm = a.rm ∧ b.sdef = a.sdef ∧ b.ddef = a.ddef) ∧
          ∀ r, r < g.members.length → ranks.countP (fun a => a.rank == r) = 1
        let brought : List (Nat → Nat) := ops.map (fun op j => bitsNow s s ctx (src op) (from' op j) (fs op).w) ++
          remote.map (fun r j => r.elems.getD j 0)
        let sum (op : EngineOp) (j : Nat) : Nat × Report := collectiveElement (fd op)
          (brought.map (fun x => decodeElem (fs op) (x j))) (colAlpha op.desc) (effRm (colRm op.desc) (fd op)) 0
        let count (op : EngineOp) : Nat := match colOp op.desc with
          | 0 => colCount op.desc
          | 1 => colNrank op.desc * colCount op.desc
          | _ => 0
        let some' (op : EngineOp) (p : Report → Bool) : Nat := bitOf ((List.range (count op)).any (fun j => p (sum op j).2))
        let bytes (op : EngineOp) : Nat := (colDestCount op.desc * (fd op).w + 7) / 8
        (∀ op ∈ ops, (∃ b b', op.buffers = [(b, src op), (b', dst op)]) ∧ (src op).mxk = 0 ∧ (dst op).mxk = 0 ∧ 2 ≤ (fs op).w ∧
          2 ≤ (fd op).w ∧ 0 ≤ descInt op.desc 1 ∧ 0 ≤ descInt op.desc 2 ∧ effRm (colRm op.desc) (fd op) ≠ .rsr ∧
          from' op (colSourceCount op.desc) ≤ 8 * (src op).len ∧ to' op (colDestCount op.desc) ≤ 8 * (dst op).len) →
        (∀ r ∈ remote, r.elems.length = if r.op = 1 then r.nrank * r.count else r.count) → EnginesFree s ctx ops reads writes →
        ∃ s', exec (.collectiveCompletion tag remote) s = .next s' ∧ s'.full = s.full ∧
          (¬ agreed → EnginesEnd s s' ctx ops [] (fun _ => 16) bytes) ∧
          (agreed → EnginesEnd s s' ctx ops writes (fun op => some' op Report.inexact + 2 * some' op Report.overflow +
              4 * some' op Report.saturated + 8 * some' op Report.invalid) bytes ∧
            ∀ op ∈ ops, ∀ j, j < colDestCount op.desc →
              bitsNow s s' ctx (dst op) (to' op j) (fd op).w = (match colOp op.desc with
                | 0 => (sum op j).1
                | 1 => (sum op (colRank op.desc * colCount op.desc + j)).1
                | _ => match (ranks.zip brought).find? (fun p => p.1.rank == j / colCount op.desc) with
                  | some p => p.2 (j % colCount op.desc)
                  | none => 0) % 2 ^ (fd op).w)))) ∧
  (∀ (dst : FDef) (xs : List (Bool × Nat)) (alpha : Int) (rm : Round) (pos : Nat), (∀ x ∈ xs, x.2 ≤ carrierMax) →
    let vs : List Val := xs.map (fun x => .num x.1 x.2 1 alpha)
    let total : Int := (xs.map (fun x => if x.1 then -(x.2 : Int) else x.2)).sum
    (collectiveElement dst vs alpha rm pos).1 = (encodeElem dst (valInt total alpha) rm pos false).1 ∧
    valueOf (valInt total alpha) = some ((vs.map (fun v => (valueOf v).getD 0)).sum))

/-! ## Scheduling -/

/-- A dispatcher offers the next workgroup of an eligible queue of the highest effective priority, and a core with room takes it:
its threads start at the entry block with registers of zeros (R10, R240, R241). A queue that has waited 2^20 ticks gains a level (R240).
Room is made only for a PRE queue's workgroup held for 2^16 ticks, and only by workgroups that may yield (R246). A dispatcher's save
is restored, or refused and its launch ended (R332). -/
def Obligations.Scheduling : Prop :=
  (∀ (s : State) (core : CoreId), (∃ x ∈ s.down, x.die = core.die) →
    exec (.dispatchOffer core) s = .next s ∧ exec (.dispatchRestore core) s = .next s) ∧
  (∀ (s t : State) (core : CoreId) (q : Queue) (l : Launch), (∀ x ∈ s.down, x.die ≠ core.die) →
    chooseQueue s core.die.val = some (q, t) → currentLaunch t q core.die.val = some l →
    let die := core.die.val
    let k := die - firstDie s.mode (s.deviceOfCtx l.ctx.val)
    let room := coreRoom s core (warpsOf (recWgsize l.record)) (recRegs l.record)
    q ∈ s.queues ∧ eligible s die q = true ∧ (∀ q' ∈ s.queues, eligible s die q' = true → effective s die q' ≤ effective s die q) ∧
    (nextSaved l die ≠ none → exec (.dispatchOffer core) s = .next s) ∧
    (nextSaved l die = none → room = true → s.launch? l.uid = some l → ∃ s' g, exec (.dispatchOffer core) s = .next s' ∧
      s'.workgroups = s.workgroups ++ [g] ∧ g.core = core ∧ g.launch = l.uid ∧ g.index = l.next.getD k 0 ∧ g.ctx = l.ctx.val ∧
      g.halted = false ∧ (∀ h ∈ s.workgroups, h.core = core → h.slot ≠ g.slot) ∧ g.threads.length = recWgsize l.record ∧
      (∀ th ∈ g.threads, th.pc = BitVec.ofNat 64 (blkEntry l.block) ∧ th.live = true ∧ th.depth = 0 ∧
        th.regs = List.replicate (recRegs l.record) 0 ∧ th.fflags = 0 ∧ ∀ p, th.getP p = false) ∧
      (∀ f : Slot, 4 ≤ f.val → slotWord g.fmts f = blkFmt l.block (f.val - 4)) ∧
      SameMemory s s' ∧ heldOn s' die = none ∧
      ∃ l', s'.launch? l.uid = some l' ∧ l' = { l with next := setAt l.next k (l.next.getD k 0 + 1) }) ∧
    (nextSaved l die = none → room = false → (∀ c ∈ coresOf core.die, coreRoom s c (warpsOf (recWgsize l.record))
        (recRegs l.record) = false) → die < s.held.length →
      ∃ s' h, exec (.dispatchOffer core) s = .next s' ∧ s'.workgroups = s.workgroups ∧ heldOn s' die = some h ∧
        h.launch = l.uid ∧ h.index = l.next.getD k 0) ∧
    (∀ (x : Saved) (cx : Context), nextSaved l die = some x → t.context? l.ctx.val = some cx →
      (spanWaits t true cx.id.val q.sabase.toNat 4096 = true ∨ spanWaits t false cx.id.val (q.sabase.toNat + x.ofs) x.len = true) →
      exec (.dispatchRestore core) s = .next t) ∧
    (∀ (x : Saved) (cx : Context) (r : SpanRead), nextSaved l die = some x → t.context? l.ctx.val = some cx →
      spanWaits t true cx.id.val q.sabase.toNat 4096 = false → spanWaits t false cx.id.val (q.sabase.toNat + x.ofs) x.len = false →
      readSpan t (.dispatcher core.die) cx.id.val .empty .latest (q.sabase.toNat + x.ofs) x.len = .ok r →
      (coresOf core.die).filter (imageFits r.s (ofBytes (r.bytes.take 1024))) ≠ [] →
      (∀ h z, restoreImage r.s cx r.bytes [core] (.ofRels r.rels) = .ok (h, z) → ∃ s', exec (.dispatchRestore core) s = .next s' ∧
        s'.workgroups = z.workgroups ∧ s'.pontils = z.pontils ∧ heldOn s' die = none) ∧
      (∀ c, restoreImage r.s cx r.bytes [core] (.ofRels r.rels) = .error c → c ≠ .restoreCapacity → s.launch? l.uid = some l →
        ∃ s' l', exec (.dispatchRestore core) s = .next s' ∧ s'.launch? l.uid = some l' ∧ l'.code = some (l.code.getD c) ∧
          x ∉ l'.saved ∧ s'.workgroups = s.workgroups))) ∧
  (∀ (s : State) (die : Fin 4) (queue : Nat),
    let aged := s.ages.find? (fun a => a.die == die.val && a.queue == queue)
    (aged = none → exec (.ageBoost die queue) s = .next s) ∧
    (∀ a, aged = some a → s.tickOf die.val < a.since + 2 ^ 20 → exec (.ageBoost die queue) s = .next s) ∧
    (∀ a, aged = some a → a.since + 2 ^ 20 ≤ s.tickOf die.val → ∃ s', exec (.ageBoost die queue) s = .next s' ∧
      boostOf s' die.val queue = boostOf s die.val queue + 1 ∧ s' = { s with ages := s'.ages })) ∧
  (∀ (s : State) (die : Fin 4), (s.workgroups.map (·.uid)).Nodup → (∀ g ∈ s.workgroups, g.uid < s.uids) →
    (heldOn s die.val = none → exec (.preemptHoldExpiry die) s = .next s) ∧
    (∀ (h : Held) (l : Launch) (q : Queue), heldOn s die.val = some h → s.launch? h.launch = some l → s.queueOf l = some q →
      ((q.pre = false ∨ eligible s die.val q = false ∨ s.tickOf die.val < h.since + 2 ^ 16) →
        exec (.preemptHoldExpiry die) s = .next s) ∧
      (q.pre = true → eligible s die.val q = true → h.since + 2 ^ 16 ≤ s.tickOf die.val →
        ∃ s', exec (.preemptHoldExpiry die) s = .next s' ∧ ∀ g ∈ s.workgroups,
          ((s.launch? g.launch = none ∨ g.halted = true ∨ g.core.die ≠ die) → s'.wg? g.uid = some g) ∧
          (s'.wg? g.uid = some g ∨ (s'.wg? g.uid = none ∧ mayYield s g = true)))))

/-! ## Power, stops, errors and resets -/

/-- Power, the stop on a tick, clocks, soft errors, and the reset of a die: what each changes (R278 to R281, R293, R294, R311, R312,
R317, R323, R324). That the memory of a module without power reads zero when it starts again is the model's choice (log 4), the port
handshakes of a reset are log 28, the errors log 27, and STATUS 0 for a RESUME of a package that is not stopped is log 34. -/
def Obligations.PowerErrorsAndResets : Prop :=
  (∀ s : State,
    (s.stopAt = none → exec .stopAtTick s = .next s) ∧
    (∀ t, s.stopAt = some t → (s.stopped = true ∨ s.now ≤ t) → exec .stopAtTick s = .next s) ∧
    (∀ t, s.stopAt = some t → s.stopped = false → t < s.now → ∃ s', exec .stopAtTick s = .next s' ∧
      s' = { s with stopped := true, ports := s'.ports } ∧ ∀ k n p', s'.port? k n = some p' →
        ∃ p, s.port? k n = some p ∧ p' = { p with state := if k = .ualink then 0 else p.state }) ∧
    (∀ level, ∃ s', exec (.thermalThrottle level) s = .next s' ∧ ButEvents { s with clockLevel := level } s') ∧
    (∃ s', exec .thermalTrip s = .next s' ∧ s'.power = .off ∧ s'.contexts = [] ∧ s'.workgroups = [] ∧ s'.verified = [] ∧
      ∀ l, s'.peek l = 0) ∧
    (s.power ≠ .off → exec .powerUp s = .next s) ∧
    (s.power = .off → ∃ s', exec .powerUp s = .next s' ∧ s'.power = .minimal ∧ s'.contexts = [] ∧ s'.workgroups = [] ∧
      s'.keyDraws = s.keyDraws + 6 ∧ ∀ l, s'.peek l = 0) ∧
    (∀ ppm p, s.port? .ethernet 0 = some p → exec (.ptpSync ppm) s = .next (if p.state = 2 then
      { s with ppm := max (-100) (min 100 ppm) } else s))) ∧
  (∀ (s : State) (tag : Tag),
    (s.stopped = true → ∃ s', exec (.resume tag) s = .next s' ∧ s'.stopped = false ∧ s'.stopAt = none ∧ Replies s s' 0x0E tag 0 [] ∧
      s' = { s with stopped := false, stopAt := none, watches := s'.watches, outbox := s'.outbox }) ∧
    (s.stopped = false → OnlyReplies (exec (.resume tag) s) s 0x0E tag 0 [])) ∧
  (∀ (s : State) (die : Fin 6) (kind : Fin 10) (unit : BitVec 16),
    let errors (z : State) : Nat :=
      match z.corrected.find? (fun c => c.die == die.val && c.num == sourceKey unit.toNat kind.val die.val) with
      | some c => c.value
      | none => 0
    ∃ s', exec (.correctedError die kind unit) s = .next s' ∧ errors s' = errors s + 1 ∧
      ButEvents { s with counters := s'.counters, corrected := s'.corrected } s' ∧
      ((errors s + 1) % 2 ^ 16 ≠ 0 → s'.pending = s.pending ∧ s'.sources = s.sources)) ∧
  (∀ s : State,
    (∀ u tid v t, s.thread? u tid = some t → ∃ s' t', exec (.uncorrectableError (.register ⟨u, tid⟩ v)) s = .next s' ∧
      s'.thread? u tid = some t' ∧ (∀ r, r ∈ t'.poisoned ↔ r ∈ t.poisoned ∨ r = v) ∧ t' = { t with poisoned := t'.poisoned }) ∧
    (∀ loc, ∃ s', exec (.uncorrectableError (.line loc)) s = .next s' ∧ (∀ x, x ∈ s'.poison ↔ x ∈ s.poison ∨ x = loc / 64) ∧
      s' = { s with poison := s'.poison }) ∧
    (∀ die, s.power ≠ .running → exec (.uncorrectableError (.nearControl die)) s = .next s) ∧
    (∃ s', exec (.uncorrectableError .farDie) s = .next s' ∧ s'.power = .minimal ∧ s'.contexts = [] ∧ s'.workgroups = [])) ∧
  (∀ (s : State) (die : Fin 4) (tag : Tag) (i : Instr) (reply : Option Tag), memWf s.mem = true →
    ((i = .dieReset tag die ∧ reply = if s.mute then none else some tag) ∨
      (i = .uncorrectableError (.nearControl die) ∧ s.power = .running ∧ reply = none)) →
    (∀ x, s.down.find? (fun x => x.die == die && !x.offline) = some x → ∃ s', exec i s = .next s' ∧ s' = { s with down := s'.down } ∧
      { x with reply := reply.or x.reply } ∈ s'.down) ∧
    ((∀ x ∈ s.down, x.die = die → x.offline = true) → ∃ s', exec i s = .next s' ∧
      (∃ x ∈ s'.down, x.die = die ∧ x.ports = List.finRange 13 ∧ x.offline = false ∧ x.reply = reply) ∧
      (∀ g ∈ s'.workgroups, g.core.die ≠ die) ∧ (∀ p ∈ s'.pontils, p.id.die ≠ die) ∧ (∀ op ∈ s'.ops, op.onDie die = false) ∧
      (∀ e ∈ s'.tlb, e.die ≠ die.val) ∧ (∀ ofs, ofs < 2 ^ 52 → s'.peek (sramLoc die.val ofs) = 0) ∧
      (∀ g ∈ s'.full, ∀ ofs, ofs < 2 ^ 52 → 16 * g ≠ sramLoc die.val ofs) ∧
      (∀ g ∈ s.workgroups, g.core.die = die → ∀ l, s.launch? g.launch = some l → l.code = none →
        ∃ l', s'.launch? g.launch = some l' ∧ l'.code = some .dieReset))) ∧
  (∀ (s : State) (die : Fin 4) (port : Fin 13),
    let down := s.down.find? (fun x => x.die == die && !x.offline && x.ports.contains port)
    (down = none → exec (.flushHandshake die port) s = .next s) ∧
    (∀ x, down = some x → x.since + 2 ^ 24 < s.tickOf die.val → exec (.flushHandshake die port) s = .next s) ∧
    (∀ x, down = some x → s.tickOf die.val ≤ x.since + 2 ^ 24 → (∃ q ∈ x.ports, q ≠ port) → ∃ s', exec (.flushHandshake die port) s = .next s' ∧
      { x with ports := x.ports.filter (fun p => p ≠ port) } ∈ s'.down ∧ s' = { s with down := s'.down, ports := s'.ports }) ∧
    (∀ x, down = some x → s.tickOf die.val ≤ x.since + 2 ^ 24 → (∀ q ∈ x.ports, q = port) →
      ∃ s', exec (.flushHandshake die port) s = .next s' ∧ (∀ y ∈ s'.down, y.die ≠ die) ∧
        ∀ tag d, x.reply = some tag → s.answersTo = some d → ⟨d, 0x0C, true, tag, 0, 0, []⟩ ∈ s'.outbox) ∧
    (let stale (z : State) : Nat :=
       match z.counters.find? (fun c => c.die == die.val && c.num == 1314) with
       | some c => c.value
       | none => 0
     ∃ s', exec (.staleResponseDrop die port) s = .next s' ∧ s' = { s with counters := s'.counters } ∧
      (∀ d n, (d ≠ die.val ∨ n ≠ 1314) → s'.counters.find? (fun c => c.die == d && c.num == n) =
        s.counters.find? (fun c => c.die == d && c.num == n)) ∧
      ((∃ x ∈ s.down, x.die = die ∧ port ∈ x.ports) → stale s' = stale s + 1) ∧
      ((∀ x ∈ s.down, x.die = die → port ∉ x.ports) → s' = s))) ∧
  (∀ (s : State) (die : Fin 4),
    let down := s.down.find? (fun x => x.die == die && !x.offline)
    (down = none → exec (.dieResetTimeout die) s = .next s) ∧
    (∀ x, down = some x → s.tickOf die.val ≤ x.since + 2 ^ 24 → exec (.dieResetTimeout die) s = .next s) ∧
    (∀ x, down = some x → x.since + 2 ^ 24 < s.tickOf die.val → ∃ s', exec (.dieResetTimeout die) s = .next s' ∧
      { x with offline := true, reply := none } ∈ s'.down ∧ ButEvents { s with down := s'.down, outbox := s'.outbox } s' ∧
      (∀ tag d, x.reply = some tag → s.answersTo = some d → s'.outbox = s.outbox ++ [⟨d, 0x0C, true, tag, 0, 0, []⟩]) ∧
      (x.reply = none → s'.outbox = s.outbox)))

/-! ## Page moves and protection -/

/-- A page move copies the page's bytes into its new frame, swaps the leaf when it is still the one found, and drops the page's
translations; a leaf that has changed abandons the move, and memory stays (R266, R95). A window's end asks for moves only to a die
whose count is largest and at least the least count, and starts the next window (R267). The end of a re-encryption raises the
region's major count (R322). -/
def Obligations.PageMoves : Prop :=
  (∀ (s : State) (page : Word) (m : MoveReq), NoMigrationControl s → memWf s.mem = true →
    let p := page.toNat / 65536 * 65536
    let leaf := movedLeaf m.leaf m.target m.frame
    let old := leafLoc m.leaf 16 0
    let new := leafLoc leaf 16 0
    let inFrame (f l : Nat) : Prop := f ≤ l ∧ l < f + 65536
    let inLeaf (l : Nat) : Prop := m.at' ≤ l ∧ l < m.at' + 8
    ((∃ x ∈ s.down, x.die.val = vaDie p) → exec (.pageMove page) s = .next s) ∧
    ((∀ x ∈ s.down, x.die.val ≠ vaDie p) → underMove s p = none → tpfFor s p = none → exec (.pageMove page) s = .next s) ∧
    (underMove s p = some m → frameWaits s m.leaf = true → exec (.pageMove page) s = .next s) ∧
    ((∀ x ∈ s.down, x.die.val ≠ vaDie p) → underMove s p = some m → frameWaits s m.leaf = false →
      (s.peekNat m.at' 8 ≠ m.leaf → ∃ s', exec (.pageMove page) s = .next s' ∧ SameMemory s s' ∧ s'.tlb = s.tlb) ∧
      (s.peekNat m.at' 8 = m.leaf → (∀ l, inLeaf l → ¬ inFrame old l ∧ ¬ inFrame new l) →
        ∃ s', exec (.pageMove page) s = .next s' ∧ (∀ k, k < 65536 → s'.peek (new + k) = s.peek (old + k)) ∧
          s'.peekNat m.at' 8 = leaf ∧ (∀ l, ¬ inFrame new l → ¬ inLeaf l → s'.peek l = s.peek l) ∧
          ∀ e ∈ s'.tlb, e.covers (vaDie p) (vaOfs p) = false))) ∧
  (∀ (s : State) (die : Fin 4), die.val < s.windowEnds.length →
    let q := s.windowEnds.getD die.val 0
    (s.tickOf die.val < q → exec (.migrationWindowEnd die) s = .next s) ∧
    ((∃ x ∈ s.down, x.die = die) → exec (.migrationWindowEnd die) s = .next s) ∧
    (q ≤ s.tickOf die.val → (∀ x ∈ s.down, x.die ≠ die) → ∃ s', exec (.migrationWindowEnd die) s = .next s' ∧
      s'.windowEnds.getD die.val 0 = q + 2 ^ 20 ∧ s'.workgroups = s.workgroups ∧ (NoMigrationControl s → SameMemory s s') ∧
      ∀ c ∈ s'.pageCounts, vaDie c.page = die.val → c.count = 0)) ∧
  (∀ (leaf migt d : Nat) (cs : List (Nat × Nat)), demandTarget leaf migt cs = some d →
    0 < migt ∧ ∃ n, (d, n) ∈ cs ∧ migt ≤ n ∧ (∀ c ∈ cs, c.2 ≤ n) ∧ (leafTier leaf = 0 → d ≠ leafHold leaf)) ∧
  (∀ (s : State) (memory region : Nat),
    let major (z : State) : Nat := match z.majors.find? (fun c => c.memory == memory && c.region == region) with
      | some c => c.major
      | none => 0
    ((memory, region) ∉ s.reencrypting → exec (.reencryptRegion memory region) s = .next s) ∧
    ((memory, region) ∈ s.reencrypting → waitersOf s .link = [] → ∃ s', exec (.reencryptRegion memory region) s = .next s' ∧
      (memory, region) ∉ s'.reencrypting ∧ major s' = (major s + 1) % 2 ^ 64 ∧
      (∀ c ∈ s'.minors, regionOf (64 * c.line) = (memory, region) → c.minor = 1) ∧ SameMemory s s' ∧
      s'.workgroups = s.workgroups))

/-! ## Watching, events and the session -/

/-- What a die watches and what the module tells its host: samples every 2^SEXP ticks (R296), latches at the multiples of 2^K, with PREV
and the lost frames (R297, R298), event messages, their acknowledgement and their repetition (R305), OPEN, RESYNC and frames that are no
command (R300, R301, R304), the header of what is sent (R301), and the command that a frame is (R301 to R303, R312; Tables 21.1, 21.2,
21.5 to 21.7, 22.1). The tick of a first sample (log 29), the control blocks of a die (log 5), what RESYNC sends before it (log 30), the
layout of LOAD_BEGIN, LOAD_DATA and LOAD_END (log 21), the OP that answers a malformed frame (log 34), and that a series control block
with reserved bits set still latches (log 53) are the model's choices. -/
def Obligations.WatchingAndEvents : Prop :=
  (∀ (s : State) (die : Fin 4) (w : Watch), s.watch? die.val = some w →
    (w.sample = none → exec (.traceSample die) s = .next s) ∧
    (∀ e due, w.sample = some (e, due) →
      (s.tickOf die.val < due → exec (.traceSample die) s = .next s) ∧
      (due ≤ s.tickOf die.val → ∃ s', exec (.traceSample die) s = .next s' ∧
        s'.watch? die.val = some { w with sample := some (e, due + 2 ^ e) } ∧ s'.workgroups = s.workgroups ∧
        ((∀ cb, w.traceCb = some cb → natField (s.peekNat (ownLoc die.val cb) 8) 8 5 ≠ e) → SameMemory s s')))) ∧
  (∀ (s : State) (w : Watch) (cb : Nat), w.seriesCb = some cb →
    let head := s.peekNat (ownLoc w.die cb) 8
    let k := natField head 1 5
    ((head.testBit 0 = false ∨ k < 10 ∨ 24 < k) → noticeLatch s w = { w with latch := none }) ∧
    (head.testBit 0 = true → 10 ≤ k → k ≤ 24 → w.latch = none → ∃ t, noticeLatch s w = { w with latch := some (k, t), lastLatch := s.tickOf w.die } ∧
      t % 2 ^ k = 0 ∧ s.tickOf w.die < t ∧ t ≤ s.tickOf w.die + 2 ^ k)) ∧
  (∀ (s : State) (die : Fin 6) (w : Watch), s.watch? die.val = some w →
    ((w.seriesCb = none ∨ w.latch = none) → exec (.counterLatch die) s = .next s) ∧
    (∀ cb k t, w.seriesCb = some cb → w.latch = some (k, t) →
      let at' := ownLoc die.val cb
      let head := s.peekNat (at' + 20) 4
      let next := if head + 1 = s.peekNat (at' + 16) 4 then 0 else head + 1
      let latched : Watch := { w with latch := some (k, t + 2 ^ k), lastLatch := t }
      (s.tickOf die.val < t → exec (.counterLatch die) s = .next s) ∧
      (t ≤ s.tickOf die.val → next = s.peekNat (at' + 24) 4 → ∃ s', exec (.counterLatch die) s = .next s' ∧
        s'.watch? die.val = some { latched with lost := w.lost + 1 } ∧
        s' = { s with watches := s'.watches, counters := s'.counters, choice := s'.choice }) ∧
      (t ≤ s.tickOf die.val → next ≠ s.peekNat (at' + 24) 4 → memWf s.mem = true → ∃ s', exec (.counterLatch die) s = .next s' ∧
        s'.watch? die.val = some { latched with seriesSeq := w.seriesSeq + 1, lost := 0 } ∧ s'.workgroups = s.workgroups ∧
        s'.peekNat (at' + 20) 4 = next % 2 ^ 32))) ∧
  (∀ (s : State) (count : Fin 64) (d : Nat),
    (s.power ≠ .running → exec (.event count) s = .next s) ∧
    (s.power = .running → s.host = some d → s.pending ≠ [] → ∃ s' tag rs, exec (.event count) s = .next s' ∧ rs ≠ [] ∧
      rs.length ≤ count.val + 1 ∧ (∀ r ∈ rs, r ∈ s.pending) ∧ s'.pending = s.pending.filter (fun r => r ∉ rs) ∧
      (s.pending.Nodup → ∀ older r newer, s.pending = older ++ r :: newer → r ∈ rs → ∀ q ∈ older, q.src = r.src → q ∈ rs) ∧
      s'.sent = s.sent ++ [⟨tag, rs, s.now⟩] ∧ s'.outbox = s.outbox ++ [⟨d, 0x80, false, tag, 0, 0, rs.flatMap eventBytes⟩])) ∧
  (∀ (s : State) (tag : Tag),
    (∃ s', exec (.eventAck tag) s = .next s' ∧ s' = { s with sent := s'.sent, faults := s'.faults } ∧
      s'.sent = s.sent.filter (fun m => m.tag ≠ tag) ∧
      ∀ f, f ∈ s'.faults ↔ f ∈ s.faults ∧ ∀ m ∈ s.sent, m.tag = tag → ∀ r ∈ m.recs, ¬ (r.src = f.src ∧ f.seq = some r.seq)) ∧
    ((∀ m ∈ s.sent, m.tag = tag → s.now < m.tick + 2 ^ 24) → exec (.eventResend tag) s = .next s) ∧
    (∀ m d, s.destination = some d → s.sent.find? (fun m => m.tag == tag && decide (m.tick + 2 ^ 24 ≤ s.now)) = some m →
      ∃ s', exec (.eventResend tag) s = .next s' ∧ { m with tick := s.now } ∈ s'.sent ∧
        s'.outbox = s.outbox ++ [⟨d, 0x80, false, tag, 0, 0, m.recs.flatMap eventBytes⟩] ∧
        s' = { s with sent := s'.sent, outbox := s'.outbox })) ∧
  (∀ (s : State) (tag : Tag) (sender op : Nat),
    (s.host ≠ some sender → exec (.hostOpen tag sender) s = .next s) ∧
    (s.host = some sender → ∃ s', exec (.hostOpen tag sender) s = .next s' ∧ Replies s s' 0x01 tag 0 [] ∧
      s' = { s with
        session := true, mute := false, aborts := [], down := s.down.map (fun x => { x with reply := none })
        arrived := s.arrived.map (fun x => { x with quiet := true }), outbox := s'.outbox }) ∧
    ((s.power ≠ .running ∨ s.stopped = true ∨ s.pending = []) → OnlyReplies (exec (.resync tag) s) s 0x02 tag 0 (summary s)) ∧
    (s.power = .running → s.stopped = false → (∃ d, s.host = some d) → ∃ z s', exec (.resync tag) s = .next s' ∧ z.pending = [] ∧
      z = { s with uids := z.uids, pending := [], sent := z.sent, outbox := z.outbox } ∧ Replies z s' 0x02 tag 0 (summary z) ∧
      s' = { z with outbox := s'.outbox }) ∧
    (exec (.foreignFrameDrop sender) s = .next { s with droppedFrames := s.droppedFrames + 1 }) ∧
    OnlyReplies (exec (.unknownOp tag (.malformed op)) s) s op tag 2 [] ∧
    OnlyReplies (exec (.unknownOp tag (.notInThisMode op)) s) s op tag 3 []) ∧
  (∀ (m : Message) (c : Fin 64), m.op < 2 ^ 8 → m.ctx = c.val → m.status ≤ 3 → m.payload.length ≤ 2 ^ 24 →
    headerOf m.bytes = some ⟨1, m.op, m.reply, m.tag, m.payload.length, c, m.status⟩ ∧ m.bytes.drop 32 = m.payload) ∧
  (∀ (minimal : Bool) (sender : Nat) (tag : Tag) (bs : List Byte), byteField bs 8 4 = tag.toNat →
    let bad : Prop := decodeMessage minimal sender bs = .unknownOp tag (.malformed (byteField bs 5 1))
    ((bs.length < 32 ∨ byteField bs 0 4 ≠ 0x49524F51 ∨ byteField bs 4 1 ≠ 1 ∨ 1 < byteField bs 6 2 ∨ 2 ^ 24 < byteField bs 12 4 ∨
      63 < byteField bs 16 4 ∨ 3 < byteField bs 20 2 ∨ byteField bs 22 10 ≠ 0) → bad) ∧
    (bs.length ≠ 32 + byteField bs 12 4 → minimal = false → 1 ≤ byteField bs 5 1 → byteField bs 5 1 ≤ 0x11 → bad) ∧
    (bs = bytesOf (0x49524F51 + 2 ^ 32 + 0x80 * 2 ^ 40 + 2 ^ 48 + tag.toNat * 2 ^ 64) 32 →
      decodeMessage minimal sender bs = .eventAck tag)) ∧
  (∀ (sender : Nat) (tag : Tag) (c : Fin 64),
    let run (op : Nat) (p : List Byte) : Instr := decodeMessage false sender (hostFrame op tag c p)
    let boot (op : Nat) (p : List Byte) : Instr := decodeMessage true sender (hostFrame op tag c p)
    let bad (op : Nat) : Instr := .unknownOp tag (.malformed op)
    (run 0x01 [] = .hostOpen tag sender ∧ run 0x02 [] = .resync tag ∧ boot 0x02 [] = .resync tag ∧ run 0x04 [] = .ctxDestroy tag c ∧
      run 0x09 [] = .cacheWb tag ∧ run 0x0E [] = .resume tag ∧ boot 0x40 [] = .hello tag sender) ∧
    (∀ mode device flags btbase btlen, mode < 2 ^ 8 → device < 2 ^ 8 → flags < 2 ^ 8 → btbase < 2 ^ 64 → btlen < 2 ^ 32 →
      let p := bytesOf (mode + device * 2 ^ 8 + flags * 2 ^ 16 + btbase * 2 ^ 64 + btlen * 2 ^ 128) 32
      let fits : Prop := device < 2 ^ mode ∧ flags < 8 ∧ btbase % 64 = 0 ∧ 1 ≤ btlen ∧ btlen ≤ 65536
      (∀ m : Fin 3, m.val = mode → fits → run 0x03 p = .ctxCreate tag c ⟨m, device, BitVec.ofNat 3 flags, BitVec.ofNat 64 btbase, btlen⟩) ∧
      (¬ (mode < 3 ∧ fits) → run 0x03 p = bad 0x03)) ∧
    (∀ queue prio pre qbase qlen sabase salen, queue < 2 ^ 8 → prio < 2 ^ 8 → pre < 2 ^ 8 → qbase < 2 ^ 64 → qlen < 2 ^ 32 →
      sabase < 2 ^ 64 → salen < 2 ^ 64 →
      let p := bytesOf (queue + prio * 2 ^ 8 + pre * 2 ^ 16 + qbase * 2 ^ 64 + qlen * 2 ^ 128 + sabase * 2 ^ 192 + salen * 2 ^ 256) 48
      let fits : Prop := queue < 64 ∧ (pre = 0 ∨ (pre = 1 ∧ prio = 3)) ∧ qbase % 64 = 0 ∧ 1 ≤ qlen ∧ qlen ≤ 2 ^ 24 ∧ sabase % 64 = 0 ∧
        salen % 64 = 0 ∧ 4096 ≤ salen
      (∀ m : Fin 4, m.val = prio → fits → run 0x05 p = .queueSet tag c
        ⟨queue, m, pre == 1, BitVec.ofNat 64 qbase, qlen, BitVec.ofNat 64 sabase, BitVec.ofNat 64 salen⟩) ∧
      (¬ (prio < 4 ∧ fits) → run 0x05 p = bad 0x05)) ∧
    (∀ x y, x < 2 ^ 64 → y < 2 ^ 64 →
      let rec' := bytesOf (x + y * 2 ^ 64) 16
      (x % 64 = 0 → y = 0 → run 0x06 rec' = .submit tag c (BitVec.ofNat 64 x) ∧ run 0x0A rec' = .abort tag c (BitVec.ofNat 64 x)) ∧
      ((x % 64 ≠ 0 ∨ y ≠ 0) → run 0x06 rec' = bad 0x06 ∧ run 0x0A rec' = bad 0x0A) ∧
      (x < 2 ^ 16 → y % 8 = 0 → run 0x0B rec' = .restore tag c (BitVec.ofNat 16 x) (BitVec.ofNat 64 y)) ∧
      ((2 ^ 16 ≤ x ∨ y % 8 ≠ 0) → run 0x0B rec' = bad 0x0B) ∧
      (1 ≤ y → y ≤ 2 ^ 24 → run 0x08 rec' = .memRead tag (BitVec.ofNat 64 x) y) ∧
      ((y = 0 ∨ 2 ^ 24 < y) → run 0x08 rec' = bad 0x08)) ∧
    (∀ x (data : List Byte), x < 2 ^ 64 → data.length ≤ 2 ^ 24 - 16 →
      (data ≠ [] → run 0x07 (bytesOf x 8 ++ bytesOf data.length 8 ++ data) = .memWrite tag (BitVec.ofNat 64 x) data) ∧
      run 0x07 (bytesOf x 8 ++ bytesOf 0 8 ++ data) = bad 0x07 ∧
      (∀ n, n < 2 ^ 32 → n ≠ data.length → run 0x07 (bytesOf x 8 ++ bytesOf n 8 ++ data) = bad 0x07)) ∧
    (∀ x, x < 2 ^ 64 →
      (∀ d : Fin 4, x = d.val → run 0x0C (bytesOf x 8) = .dieReset tag d) ∧ (4 ≤ x → run 0x0C (bytesOf x 8) = bad 0x0C) ∧
      run 0x11 (bytesOf x 8) = .groupDrop tag (BitVec.ofNat 64 x) ∧
      (x < 2 ^ 11 → boot 0x44 (bytesOf x 8) = .start tag (BitVec.ofNat 11 x)) ∧ (2 ^ 11 ≤ x → boot 0x44 (bytesOf x 8) = bad 0x44) ∧
      (∀ k : Fin 2, x = k.val → boot 0x43 (bytesOf x 8) = .loadEnd tag k) ∧ (2 ≤ x → boot 0x43 (bytesOf x 8) = bad 0x43) ∧
      (∀ data : List Byte, data.length ≤ 2 ^ 24 - 8 → boot 0x42 (bytesOf x 8 ++ data) = .loadData tag x data) ∧
      (∀ (k : Fin 2), boot 0x41 (bytesOf (k.val + x * 2 ^ 64) 16) = .loadBegin tag k x)) ∧
    (∀ die ofs n, die < 2 ^ 64 → ofs < 2 ^ 64 → n < 2 ^ 64 →
      let p := bytesOf (die + ofs * 2 ^ 64 + n * 2 ^ 128) 24
      (∀ d : Fin 6, d.val = die → 1 ≤ n → n ≤ 2 ^ 24 → run 0x0D p = .scan tag d (BitVec.ofNat 64 ofs) n) ∧
      ((6 ≤ die ∨ n = 0 ∨ 2 ^ 24 < n) → run 0x0D p = bad 0x0D)) ∧
    (∀ es : List PeerEntry, es.length ≤ 2048 →
      let entry (e : PeerEntry) : Nat := e.module.toNat + e.far.val * 2 ^ 11 + (if e.natAtomics then 2 ^ 13 else 0) + e.ports.toNat * 2 ^ 32
      let p := bytesOf es.length 8 ++ es.flatMap (fun e => bytesOf (entry e) 8)
      run 0x0F p = if es = [] then bad 0x0F else .peerSet tag es) ∧
    (∀ (group : Word) (ms : List GroupMember), ms.length ≤ 2 ^ 19 →
      let p := bytesOf (group.toNat + ms.length * 2 ^ 64) 12 ++ ms.flatMap (fun m => bytesOf (m.module.toNat + m.die.val * 2 ^ 11) 2)
      run 0x10 p = if ms = [] then bad 0x10 else .groupReg tag group ms) ∧
    (∀ nonce : List Byte, nonce.length = 64 → run 0x45 nonce = .attest tag nonce ∧ boot 0x45 nonce = .attest tag nonce) ∧
    (∀ op n p, (op, n) ∈ [(0x01, 0), (0x02, 0), (0x03, 32), (0x04, 0), (0x05, 48), (0x06, 16), (0x08, 16), (0x09, 0), (0x0A, 16),
      (0x0B, 16), (0x0C, 8), (0x0D, 24), (0x0E, 0), (0x11, 8), (0x45, 64)] → p.length ≠ n → p.length ≤ 2 ^ 24 → run op p = bad op) ∧
    (∀ op p, op < 2 ^ 8 → p.length ≤ 2 ^ 24 →
      ((op = 0x01 ∨ (0x03 ≤ op ∧ op ≤ 0x11) ∨ op = 0x80) → boot op p = .unknownOp tag (.notInThisMode op)) ∧
      ((0x40 ≤ op ∧ op ≤ 0x44) → run op p = .unknownOp tag (.notInThisMode op)) ∧ run 0x80 p = bad 0x80 ∧
      ((op = 0 ∨ (0x11 < op ∧ op < 0x40) ∨ (0x45 < op ∧ op ≠ 0x80)) → run op p = bad op ∧ boot op p = bad op)))

/-! ## Commands of the host -/

/-- Contexts and queues, launches and memory under the host's commands: what each changes, and how it is answered (R226, R227, R235,
R238, R244, R261, R264, R274, R290, R301 to R303, R306). A refusal is an event too, whose source is the model's choice (log 49), as
are the STATUS of some replies (log 34), that MEM_READ gives the bytes of poisoned lines and that a path is checked at the first byte
alone (log 35), and that bytes of another module always pass (log 16). -/
def Obligations.HostCommands : Prop :=
  (∀ (s : State) (va n : Nat), 0 < n → va + n ≤ 2 ^ 64 →
    (pathKnown s va = false → checkPayload s va n = .error .bounds) ∧
    (pathKnown s va = true →
      let mapped (b : Nat) : Prop :=
        if inWindow b then vaOfs b < windowBase + Config.sramBytes else vaDie b < 6 ∧ (walk s (vaDie b) (vaOfs b)).isSome = true
      (checkPayload s va n = .ok () ∨ checkPayload s va n = .error .leaseLost) ∧
      (checkPayload s va n = .ok () ↔ ∀ k, k < n → vaModule (va + k) = s.module.toNat → mapped (va + k)))) ∧
  (∀ (s : State) (tag : Tag) (c : Fin 64) (f : CtxFields),
    let e := exec (.ctxCreate tag c f) s
    ((s.context? c.val).isSome = true → Refuses e s 0x03 tag .ctxLive c.val) ∧
    (s.context? c.val = none → s.contexts ≠ [] → s.mode ≠ f.mode → Refuses e s 0x03 tag .modeBusy c.val) ∧
    (s.context? c.val = none → (s.contexts = [] ∨ s.mode = f.mode) →
      (∀ code, checkPayload s f.btbase.toNat (64 * f.btlen) = .error code → Refuses e s 0x03 tag code c.val) ∧
      (checkPayload s f.btbase.toNat (64 * f.btlen) = .ok () → ∃ s' k, e = .next s' ∧ Replies s s' 0x03 tag 0 [] c.val ∧
        s' = { s with mode := f.mode, contexts := s.contexts ++ [k], outbox := s'.outbox } ∧ s'.context? c.val = some k ∧
        k.device = f.device ∧ k.btbase = f.btbase ∧ k.btlen = f.btlen ∧ k.priv = f.flags.getLsbD 0 ∧ k.check = f.flags.getLsbD 1 ∧
        k.debug = f.flags.getLsbD 2))) ∧
  (∀ (s : State) (tag : Tag) (c : Fin 64),
    let e := exec (.ctxDestroy tag c) s
    (s.context? c.val = none → Refuses e s 0x04 tag .ctxAbsent c.val) ∧
    ((s.context? c.val).isSome = true → contextBusy s c.val = true → OnlyReplies e s 0x04 tag 3 [] c.val) ∧
    ((s.context? c.val).isSome = true → contextBusy s c.val = false → ∃ s', e = .next s' ∧ Replies s s' 0x04 tag 0 [] c.val ∧
      s'.context? c.val = none ∧ (∀ q ∈ s'.queues, q.owner ≠ c) ∧ (∀ n, n ≠ c.val → s'.context? n = s.context? n) ∧
      s' = { s with contexts := s'.contexts, queues := s'.queues, ages := s'.ages, outbox := s'.outbox })) ∧
  (∀ (s : State) (tag : Tag) (c : Fin 64) (f : QueueFields),
    let e := exec (.queueSet tag c f) s
    (queuesPerDevice s.mode ≤ f.queue → OnlyReplies e s 0x05 tag 2 [] c.val) ∧
    (f.queue < queuesPerDevice s.mode → s.context? c.val = none → Refuses e s 0x05 tag .ctxAbsent c.val) ∧
    (f.queue < queuesPerDevice s.mode → (s.context? c.val).isSome = true →
      (queueTaken s c f.queue = true → OnlyReplies e s 0x05 tag 3 [] c.val) ∧
      (queueTaken s c f.queue = false →
        let backing := checkPayload s f.qbase.toNat (576 * f.qlen)
        let area := checkPayload s f.sabase.toNat f.salen.toNat
        (∀ code, (backing = .error code ∨ (backing = .ok () ∧ area = .error code)) → Refuses e s 0x05 tag code c.val) ∧
        (backing = .ok () → area = .ok () →
          let done (q : Queue) : Prop := ∃ s', e = .next s' ∧ s'.heldQueue c.val f.queue = some q ∧ Replies s s' 0x05 tag 0 [] c.val ∧
            s' = { s with queues := s'.queues, ages := s'.ages, outbox := s'.outbox }
          let fresh (paused : Bool) : Queue := ⟨f.queue, c, f.prio, f.pre, f.qbase, f.qlen, f.sabase, f.salen.toNat, paused, 0⟩
          (s.heldQueue c.val f.queue = none → done (fresh false)) ∧
          ∀ q, s.heldQueue c.val f.queue = some q →
            let same : Prop := q.qbase = f.qbase ∧ q.qlen = f.qlen ∧ q.sabase = f.sabase ∧ q.salen = f.salen.toNat
            (same → done { q with prio := f.prio, pre := f.pre }) ∧
            (¬ same → queueBusy s c.val f.queue = true → OnlyReplies e s 0x05 tag 3 [] c.val) ∧
            (¬ same → queueBusy s c.val f.queue = false → done (fresh q.paused)))))) ∧
  (∀ (s : State) (tag : Tag) (c : Fin 64) (va : Word),
    let e := exec (.submit tag c va) s
    (s.context? c.val = none → Refuses e s 0x06 tag .ctxAbsent c.val) ∧
    ((s.context? c.val).isSome = true → pathKnown s va.toNat = false → Refuses e s 0x06 tag .bounds c.val) ∧
    ((s.context? c.val).isSome = true → pathKnown s va.toNat = true → ∀ code,
      readSpan s .host c.val s.hostView .latest va.toNat 4 = .error code → Refuses e s 0x06 tag code c.val) ∧
    (∀ cx r, s.context? c.val = some cx → pathKnown s va.toNat = true →
      readSpan s .host c.val s.hostView .latest va.toNat 4 = .ok r →
      let z : State := { r.s with hostView := r.v }
      (ofBytes r.bytes ≠ 0 → OnlyReplies e s 0x06 tag 0 [] c.val) ∧
      (ofBytes r.bytes = 0 → cx.id = c → s.aborts = [] →
        (∀ code, acceptRecord z cx va.toNat [hostRel z] = .error code → Refuses e z 0x06 tag code c.val) ∧
        (∀ l z₁, acceptRecord z cx va.toNat [hostRel z] = .ok (l, z₁) →
          (recCount l.record ≠ 0 → hasRoom z c.val l.queue = false → OnlyReplies e z 0x06 tag 3 [] c.val) ∧
          (recCount l.record ≠ 0 → hasRoom z c.val l.queue = true → takeLeases z₁ cx l.block = true →
            ∃ s' l', e = .next s' ∧ Replies s s' 0x06 tag 0 [] c.val ∧ s'.launches = s.launches ++ [l'] ∧
              l' = { l with entry := l'.entry } ∧ l'.addr = va ∧ s'.workgroups = s.workgroups) ∧
          ((recCount l.record = 0 ∨ (hasRoom z c.val l.queue = true ∧ takeLeases z₁ cx l.block = false)) →
            ∃ s', e = .next s' ∧ Replies s s' 0x06 tag 0 [] c.val ∧ s'.workgroups = s.workgroups))))) ∧
  (∀ (s : State) (tag : Tag) (c : Fin 64) (va : Word),
    let e := exec (.abort tag c va) s
    let named := s.launches.find? (fun l => l.ctx == c && l.addr == va && l.joined.isNone)
    (s.context? c.val = none → Refuses e s 0x0A tag .ctxAbsent c.val) ∧
    ((s.context? c.val).isSome = true → named = none → OnlyReplies e s 0x0A tag 0 [] c.val) ∧
    (∀ l, (s.context? c.val).isSome = true → named = some l → s.launch? l.uid = some l → ∃ s' l', e = .next s' ∧
      s'.launch? l.uid = some l' ∧ l' = { l with code := some (l.code.getD .launchAbort), codeAt := if l.code = none then s.now else l.codeAt } ∧
      s'.aborts = (if s.mute then s.aborts else s.aborts ++ [⟨l.uid, tag, c.val⟩]) ∧
      s' = { s with launches := s'.launches, ages := s'.ages, aborts := s'.aborts })) ∧
  (∀ (s : State) (l : Launch) (d : Nat), s.launch? l.uid = some l → l.code.isSome = true → hasResident s l.uid = false →
    completionHeld s l = false → s.answersTo = some d → ∃ s', exec (.launchComplete l.uid) s = .next s' ∧ s'.launch? l.uid = none ∧
      ∀ a ∈ s.aborts, a.launch = l.uid → ⟨d, 0x0A, true, a.tag, a.ctx, 0, []⟩ ∈ s'.outbox) ∧
  (∀ (s : State) (tag : Tag) (c : Fin 64) (tidx : BitVec 16) (ofs : Word),
    let e := exec (.restore tag c tidx ofs) s
    (s.context? c.val = none → Refuses e s 0x0B tag .ctxAbsent c.val) ∧
    (∀ cx, s.context? c.val = some cx →
      (cx.btlen ≤ tidx.toNat → OnlyReplies e s 0x0B tag 2 [] c.val) ∧
      (tidx.toNat < cx.btlen →
        (∀ code, hostRestore s cx tidx.toNat ofs.toNat = .error code → Refuses e s 0x0B tag code c.val) ∧
        (∀ h z, hostRestore s cx tidx.toNat ofs.toNat = .ok (h, z) → ∃ s', e = .next s' ∧ Replies s s' 0x0B tag 0 (bytesOf h 8) c.val ∧
          ∃ g ∈ s'.workgroups, g.handle s'.mode = h ∧ g.halted = false)))) ∧
  (∀ (s : State) (tag : Tag) (addr : Word) (data : List Byte) (count : Nat),
    (pathKnown s addr.toNat = false → Refuses (exec (.memWrite tag addr data) s) s 0x07 tag .bounds ∧
      Refuses (exec (.memRead tag addr count) s) s 0x08 tag .bounds) ∧
    (pathKnown s addr.toNat = true →
      (∀ code, places s 64 addr.toNat data.length = .error code → Refuses (exec (.memWrite tag addr data) s) s 0x07 tag code) ∧
      (∀ code, places s 64 addr.toNat count = .error code → Refuses (exec (.memRead tag addr count) s) s 0x08 tag code) ∧
      (∀ ps z, places s 64 addr.toNat data.length = .ok (ps, z) → ps.all (fun p => p.away?.isNone) = true → (locsOf ps).Nodup →
        NoMigrationControl s → memWf s.mem = true → HostPlaced s → ∃ s', exec (.memWrite tag addr data) s = .next s' ∧
          HoldsBytes s' ps data ∧ SameBut (locsOf ps) s s' ∧ HostPlaced s' ∧ s'.full = s.full ∧ s'.workgroups = s.workgroups ∧
          Replies s s' 0x07 tag 0 []) ∧
      (∀ ps z, places s 64 addr.toNat count = .ok (ps, z) → ps.all (fun p => p.away?.isNone) = true → s.hist = [] →
        ∃ s', exec (.memRead tag addr count) s = .next s' ∧ SameMemory s s' ∧ s'.workgroups = s.workgroups ∧
          Replies s s' 0x08 tag 0 ((locsOf ps).map s.peek)))) ∧
  (∀ (s : State) (tag : Tag) (die : Fin 6) (ofs : Word) (count : Nat),
    (∃ s', exec (.cacheWb tag) s = .next s' ∧ s'.dirtyLines = [] ∧ Replies s s' 0x09 tag 0 [] ∧
      (NoMigrationControl s → SameMemory s s') ∧ s'.workgroups = s.workgroups) ∧
    (s.stopped = false → OnlyReplies (exec (.scan tag die ofs count) s) s 0x0D tag 3 []) ∧
    (s.stopped = true → ∃ s' bytes, exec (.scan tag die ofs count) s = .next s' ∧ bytes.length = count ∧
      Replies s s' 0x0D tag 0 bytes ∧ s' = { s with choice := s'.choice, outbox := s'.outbox }))

/-! ## Links, peers and bring-up -/

/-- Peers, groups, ports and the requests of other modules (R269, R280, R306 to R310), and bring-up (R312 to R319). How a request
that finds its page lost or poisoned, or an atomic that is not aligned, is answered (log 17), and the layout and the order of
bring-up messages (log 21), are the model's choices, as is STATUS 0 for a GROUP_DROP of a tag that is not there (log 34). -/
def Obligations.LinksAndBringUp : Prop :=
  (∀ (s : State) (tag : Tag) (es : List PeerEntry), ∃ s', exec (.peerSet tag es) s = .next s' ∧ Replies s s' 0x0F tag 0 [] ∧
    s' = { s with peers := s'.peers, outbox := s'.outbox } ∧
    (∀ m, (∀ e ∈ es, e.module.toNat ≠ m) → s'.peer? m = s.peer? m) ∧
    ((es.map (·.module)).Nodup → ∀ e ∈ es, s'.peer? e.module.toNat = some e)) ∧
  (∀ (s : State) (tag : Tag) (group : Word) (ms : List GroupMember),
    (groupRefused s group ms = true → OnlyReplies (exec (.groupReg tag group ms) s) s 0x10 tag 3 []) ∧
    (groupRefused s group ms = false → ∃ s', exec (.groupReg tag group ms) s = .next s' ∧ Replies s s' 0x10 tag 0 [] ∧
      s' = { s with groups := s.groups ++ [⟨group, ms⟩], outbox := s'.outbox }) ∧
    (groupPending s group = true → OnlyReplies (exec (.groupDrop tag group) s) s 0x11 tag 3 []) ∧
    (groupPending s group = false → ∃ s', exec (.groupDrop tag group) s = .next s' ∧ Replies s s' 0x11 tag 0 [] ∧
      s' = { s with groups := s.groups.filter (fun g => g.tag ≠ group), outbox := s'.outbox })) ∧
  (∀ (s : State) (kind : PortKind) (port : Fin 32) (training : Bool) (peer : LinkPeer) (p : Port), s.port? kind port.val = some p →
    let down : Nat := if training then 1 else 0
    (p.state = down → exec (.linkDown kind port training) s = .next s) ∧
    (p.state ≠ down → ∃ s', exec (.linkDown kind port training) s = .next s' ∧
      s'.port? kind port.val = some { p with state := down } ∧ ButEvents { s with ports := s'.ports } s') ∧
    (let supported : Prop := (kind = .ualink ∧ peer.offer = .ualinkX4) ∨ (kind = .ethernet ∧ peer.offer = .etherReliable) ∨
       (kind = .cxl ∧ peer.offer = .cxlExpander)
     let held : Prop := (kind = .ualink ∧ (s.stopped = true ∨ ∃ x ∈ s.down, x.die.val = port.val / 8 ∧ ∃ q ∈ x.ports, q.val = port.val % 8)) ∨
       (s.power ≠ .running ∧ ¬ (kind = .ethernet ∧ port.val = 0))
     ((p.state = 2 ∨ held ∨ ¬ supported) → exec (.linkUp kind port peer) s = .next s) ∧
     (p.state ≠ 2 → ¬ held → supported → ∃ s', exec (.linkUp kind port peer) s = .next s' ∧
       s'.port? kind port.val = some { p with state := 2, peer := if kind = .ualink then peer.module else 0 } ∧
       (waitersOf s .link = [] → ButEvents { s with ports := s'.ports } s')))) ∧
  (∀ (s : State) (port : Fin 32) (source : BitVec 11) (tag addr : Word) (data : LinkRequest) (len : Nat) (p : Port),
    s.port? .ualink port.val = some p →
    let i : Instr := .ualinkRequest port source tag addr data len
    let n := match data with
      | .read => len
      | .write bs => bs.length
      | .atomic _ _ wide _ _ => if wide then 8 else 4
    let write : Bool := data != .read
    let ends (m : LinkReply) : Prop := ∃ s', exec i s = .next s' ∧ SameMemory s s' ∧ s'.linkOut = s.linkOut ++ [m]
    ((p.state ≠ 2 ∨ n = 0 ∨ 256 < n ∨ vaModule addr.toNat ≠ s.module.toNat) → exec i s = .next s) ∧
    (p.state = 2 → 0 < n → n ≤ 256 → vaModule addr.toNat = s.module.toNat →
      ((∃ x ∈ s.down, x.die.val = vaDie addr.toNat) → exec i s = .next { s with agenda := s.agenda ++ [.event i] }) ∧
      ((∀ x ∈ s.down, x.die.val ≠ vaDie addr.toNat) →
        (∀ op signed wide x y, data = .atomic op signed wide x y → addr.toNat % n ≠ 0 → exec i s = .next s) ∧
        ((data = .read ∨ ∃ bs, data = .write bs) →
          (∀ code, places s 64 addr.toNat n = .error code → ends ⟨source, tag, codeNumber code, []⟩) ∧
          (∀ ps z, places s 64 addr.toNat n = .ok (ps, z) →
            (∀ w, blocked z write ps = some w → ∃ s', exec i s = .next s' ∧ s'.agenda = s.agenda ++ [.event i] ∧ SameMemory s s' ∧
              s'.linkOut = s.linkOut) ∧
            (blocked z write ps = none → data = .read → anyPoison z ps = true → ends ⟨source, tag, codeNumber .memPoison, []⟩) ∧
            (ps.all (fun x => x.away?.isNone) = true → (locsOf ps).Nodup → blocked z write ps = none → Quiet s →
              (data = .read → ends ⟨source, tag, 0, (locsOf ps).map s.peek⟩) ∧
              (∀ bs, data = .write bs → ∃ s', exec i s = .next s' ∧ s'.linkOut = s.linkOut ++ [⟨source, tag, 0, []⟩] ∧
                HoldsBytes s' ps bs ∧ SameBut (locsOf ps) s s')))))) ) ∧
  (∀ (s : State) (r : HomeRequest),
    ((∀ p ∈ s.ports, p.kind = .ualink → p.state ≠ 2) ∨ vaModule r.addr.toNat ≠ s.module.toNat) →
      exec (.homeExecuteRequest r) s = .next s) ∧
  (∀ (s : State) (i : Instr) (source : BitVec 11) (tag : Word) (va : Nat) (t : Target) (op : AtomOp) (x y : Word),
    ((∃ r : HomeRequest, i = .homeExecuteRequest r ∧ source = r.module ∧ tag = r.tag ∧ va = r.addr.toNat ∧ t = homeTarget r ∧ op = r.op ∧
        x = r.operand ∧ y = r.operand2 ∧ ∃ p ∈ s.ports, p.kind = .ualink ∧ p.state = 2) ∨
      (∃ (port : Fin 32) (addr : Word) (signed wide : Bool) (len : Nat) (p : Port),
        i = .ualinkRequest port source tag addr (.atomic op signed wide x y) len ∧ s.port? .ualink port.val = some p ∧ p.state = 2 ∧
        va = addr.toNat ∧ va % (if wide then 8 else 4) = 0 ∧ t = peerTarget source va 0 (nativeDef signed wide))) →
    vaModule va = s.module.toNat → oneWord t.d t.lo t.f.w = true → 2 ≤ t.f.w → t.f.w ≤ 64 →
    ((∃ d ∈ s.down, d.die.val = vaDie va) → exec i s = .next { s with agenda := s.agenda ++ [.event i] }) ∧
    ((∀ d ∈ s.down, d.die.val ≠ vaDie va) →
      let ends (code : Nat) : Prop := ∃ s', exec i s = .next s' ∧ SameMemory s s' ∧ s'.linkOut = s.linkOut ++ [⟨source, tag, code, []⟩]
      (∀ code, targetPlaces s t 1 = .error code → ends (codeNumber code)) ∧
      (∀ ps z, targetPlaces s t 1 = .ok (ps, z) →
        (anyUo ps = true → ends (codeNumber .orderKind)) ∧
        (anyUo ps = false → anyPoison z ps = true → ends (codeNumber .memPoison)) ∧
        (anyUo ps = false → anyPoison z ps = false → ∀ w, blocked z true ps = some w → ∃ s', exec i s = .next s' ∧
          s'.agenda = s.agenda ++ [.event i] ∧ SameMemory s s' ∧ s'.linkOut = s.linkOut) ∧
        (ps.all (fun x => x.away?.isNone) = true → anyUo ps = false → blocked z true ps = none → Quiet s → NoFrameTwice s t.bd.ctx →
          ∃ s' old, exec i s = .next s' ∧ ElementIs s s t 0 old ∧
            (¬ (op = .cas ∧ old ≠ x.toNat) → ElementIs s s' t 0 ((combine op t.f old x.toNat y.toNat).1 % 2 ^ t.f.w)) ∧
            (op = .cas → old ≠ x.toNat → SameMemory s s') ∧
            s'.linkOut = s.linkOut ++ [⟨source, tag, 0, bytesOf old 8⟩] ∧ SameBut (locsOf ps) s s')))) ∧
  (∀ (s : State) (tag : Tag) (sender : Nat) (kind : Fin 2) (size ofs : Nat) (data nonce : List Byte) (module : BitVec 11),
    (∃ s' bytes, exec (.hello tag sender) s = .next s' ∧ s'.hello = some (s.hello.getD sender) ∧ bytes.length = 1996 ∧
      bytes.take 8 = bytesOf Config.serial.toNat 8 ∧ Replies s s' 0x40 tag 0 bytes ∧ s' = { s with hello := s'.hello, outbox := s'.outbox }) ∧
    (∃ s' rest, exec (.loadBegin tag kind size) s = .next s' ∧ s'.staging = ⟨kind, size, [], true⟩ :: rest ∧
      (∀ x ∈ rest, x ∈ s.staging ∧ x.kind ≠ kind) ∧ (∀ v ∈ s'.verified, v.kind ≠ kind) ∧ Replies s s' 0x41 tag 0 []) ∧
    (s.staging = [] → OnlyReplies (exec (.loadData tag ofs data) s) s 0x42 tag 3 []) ∧
    (∀ x rest, s.staging = x :: rest →
      ((x.opened = false ∨ x.size < ofs + data.length) → OnlyReplies (exec (.loadData tag ofs data) s) s 0x42 tag 3 []) ∧
      (x.opened = true → ofs + data.length ≤ x.size → ∃ s' y, exec (.loadData tag ofs data) s = .next s' ∧
        s'.staging = y :: rest ∧ y.kind = x.kind ∧ y.size = x.size ∧ Replies s s' 0x42 tag 0 [] ∧
        ∀ k, stagedByte y.data k = if ofs ≤ k ∧ k < ofs + data.length then data.getD (k - ofs) 0 else stagedByte x.data k)) ∧
    (let staged := s.staging.find? (fun x => x.kind == kind && x.opened)
     (staged = none → OnlyReplies (exec (.loadEnd tag kind) s) s 0x43 tag 3 []) ∧
     (∀ x, staged = some x →
       let mask := firmMask (stagedBytes x) s.minSvn
       (mask = 0 → ∃ s', exec (.loadEnd tag kind) s = .next s' ∧ Replies s s' 0x43 tag 0 [] ∧
         isVerified s' kind = true ∧ (∀ y ∈ s'.staging, y.kind ≠ kind)) ∧
       (mask ≠ 0 → ∃ s', exec (.loadEnd tag kind) s = .next s' ∧ s'.verified = s.verified ∧
         Replies s s' 0x43 tag 1 (bytesOf (codeNumber .descField) 2 ++ bytesOf mask 1) ∧
         (∀ y ∈ s'.staging, y.kind ≠ kind)))) ∧
    ((isVerified s 0 = false ∨ isVerified s 1 = false) → OnlyReplies (exec (.start tag module) s) s 0x44 tag 3 []) ∧
    (isVerified s 0 = true → isVerified s 1 = true → ∃ s', exec (.start tag module) s = .next s' ∧ s'.power = .running ∧
      s'.host = s.hello ∧ s'.module = module ∧ s'.secretLocked = true ∧ Replies s s' 0x44 tag 0 [] ∧
      ∀ k n p', s'.port? k n = some p' → ∃ p, s.port? k n = some p ∧ p' = { p with state := if k = .ethernet then 2 else p.state }) ∧
    (nonce.length = 64 → ∃ s' bytes, exec (.attest tag nonce) s = .next s' ∧ Replies s s' 0x45 tag 0 bytes ∧
      s' = { s with minSvn := s'.minSvn, choice := s'.choice, outbox := s'.outbox } ∧ s.minSvn.toNat ≤ s'.minSvn.toNat ∧
      bytes.length = 8986 ∧ bytes.take 4 = [0x41, 0x54, 0x54, 0x53] ∧ (bytes.drop 16).take 64 = nonce ∧
      byteField bytes 80 8 = s.tickOf 4 % 2 ^ 64 ∧ (bytes.drop 88).take 64 = fitTo 64 (digestOf s 0) ∧
      (bytes.drop 152).take 64 = fitTo 64 (digestOf s 1) ∧ byteField bytes 224 4 = s'.minSvn.toNat))
end

