-- ==== Sys2Proof/Laws/State.lean ====
section
/-! SUPPORT. One lemma per field for each update of a state, a workgroup or a thread: what it changes, and that it changes
nothing else. -/

namespace Sys2Proof
namespace Machine


/-! ## A workgroup replaced -/

@[simp] theorem State.setWg_agenda (s : State) (g : Workgroup) :
    (s.setWg g).agenda = s.agenda := rfl
@[simp] theorem State.setWg_arrived (s : State) (g : Workgroup) :
    (s.setWg g).arrived = s.arrived := rfl
@[simp] theorem State.setWg_issue (s : State) (g : Workgroup) :
    (s.setWg g).issue = s.issue := rfl
@[simp] theorem State.setWg_choice (s : State) (g : Workgroup) :
    (s.setWg g).choice = s.choice := rfl
@[simp] theorem State.setWg_uids (s : State) (g : Workgroup) :
    (s.setWg g).uids = s.uids := rfl
@[simp] theorem State.setWg_now (s : State) (g : Workgroup) :
    (s.setWg g).now = s.now := rfl
@[simp] theorem State.setWg_ahead (s : State) (g : Workgroup) :
    (s.setWg g).ahead = s.ahead := rfl
@[simp] theorem State.setWg_power (s : State) (g : Workgroup) :
    (s.setWg g).power = s.power := rfl
@[simp] theorem State.setWg_stopped (s : State) (g : Workgroup) :
    (s.setWg g).stopped = s.stopped := rfl
@[simp] theorem State.setWg_stopAt (s : State) (g : Workgroup) :
    (s.setWg g).stopAt = s.stopAt := rfl
@[simp] theorem State.setWg_module (s : State) (g : Workgroup) :
    (s.setWg g).module = s.module := rfl
@[simp] theorem State.setWg_mode (s : State) (g : Workgroup) :
    (s.setWg g).mode = s.mode := rfl
@[simp] theorem State.setWg_clockLevel (s : State) (g : Workgroup) :
    (s.setWg g).clockLevel = s.clockLevel := rfl
@[simp] theorem State.setWg_ppm (s : State) (g : Workgroup) :
    (s.setWg g).ppm = s.ppm := rfl
@[simp] theorem State.setWg_down (s : State) (g : Workgroup) :
    (s.setWg g).down = s.down := rfl
@[simp] theorem State.setWg_secretLocked (s : State) (g : Workgroup) :
    (s.setWg g).secretLocked = s.secretLocked := rfl
@[simp] theorem State.setWg_minSvn (s : State) (g : Workgroup) :
    (s.setWg g).minSvn = s.minSvn := rfl
@[simp] theorem State.setWg_staging (s : State) (g : Workgroup) :
    (s.setWg g).staging = s.staging := rfl
@[simp] theorem State.setWg_verified (s : State) (g : Workgroup) :
    (s.setWg g).verified = s.verified := rfl
@[simp] theorem State.setWg_hello (s : State) (g : Workgroup) :
    (s.setWg g).hello = s.hello := rfl
@[simp] theorem State.setWg_host (s : State) (g : Workgroup) :
    (s.setWg g).host = s.host := rfl
@[simp] theorem State.setWg_session (s : State) (g : Workgroup) :
    (s.setWg g).session = s.session := rfl
@[simp] theorem State.setWg_caller (s : State) (g : Workgroup) :
    (s.setWg g).caller = s.caller := rfl
@[simp] theorem State.setWg_mute (s : State) (g : Workgroup) :
    (s.setWg g).mute = s.mute := rfl
@[simp] theorem State.setWg_aborts (s : State) (g : Workgroup) :
    (s.setWg g).aborts = s.aborts := rfl
@[simp] theorem State.setWg_droppedFrames (s : State) (g : Workgroup) :
    (s.setWg g).droppedFrames = s.droppedFrames := rfl
@[simp] theorem State.setWg_keyDraws (s : State) (g : Workgroup) :
    (s.setWg g).keyDraws = s.keyDraws := rfl
@[simp] theorem State.setWg_contexts (s : State) (g : Workgroup) :
    (s.setWg g).contexts = s.contexts := rfl
@[simp] theorem State.setWg_queues (s : State) (g : Workgroup) :
    (s.setWg g).queues = s.queues := rfl
@[simp] theorem State.setWg_launches (s : State) (g : Workgroup) :
    (s.setWg g).launches = s.launches := rfl
@[simp] theorem State.setWg_ages (s : State) (g : Workgroup) :
    (s.setWg g).ages = s.ages := rfl
@[simp] theorem State.setWg_pointers (s : State) (g : Workgroup) :
    (s.setWg g).pointers = s.pointers := rfl
@[simp] theorem State.setWg_held (s : State) (g : Workgroup) :
    (s.setWg g).held = s.held := rfl
@[simp] theorem State.setWg_corePointers (s : State) (g : Workgroup) :
    (s.setWg g).corePointers = s.corePointers := rfl
@[simp] theorem State.setWg_pontils (s : State) (g : Workgroup) :
    (s.setWg g).pontils = s.pontils := rfl
@[simp] theorem State.setWg_arrivals (s : State) (g : Workgroup) :
    (s.setWg g).arrivals = s.arrivals := rfl
@[simp] theorem State.setWg_ops (s : State) (g : Workgroup) :
    (s.setWg g).ops = s.ops := rfl
@[simp] theorem State.setWg_ends (s : State) (g : Workgroup) :
    (s.setWg g).ends = s.ends := rfl
@[simp] theorem State.setWg_groups (s : State) (g : Workgroup) :
    (s.setWg g).groups = s.groups := rfl
@[simp] theorem State.setWg_mem (s : State) (g : Workgroup) :
    (s.setWg g).mem = s.mem := rfl
@[simp] theorem State.setWg_hist (s : State) (g : Workgroup) :
    (s.setWg g).hist = s.hist := rfl
@[simp] theorem State.setWg_nextWrite (s : State) (g : Workgroup) :
    (s.setWg g).nextWrite = s.nextWrite := rfl
@[simp] theorem State.setWg_scFences (s : State) (g : Workgroup) :
    (s.setWg g).scFences = s.scFences := rfl
@[simp] theorem State.setWg_pointSeen (s : State) (g : Workgroup) :
    (s.setWg g).pointSeen = s.pointSeen := rfl
@[simp] theorem State.setWg_full (s : State) (g : Workgroup) :
    (s.setWg g).full = s.full := rfl
@[simp] theorem State.setWg_fullRels (s : State) (g : Workgroup) :
    (s.setWg g).fullRels = s.fullRels := rfl
@[simp] theorem State.setWg_poison (s : State) (g : Workgroup) :
    (s.setWg g).poison = s.poison := rfl
@[simp] theorem State.setWg_tlb (s : State) (g : Workgroup) :
    (s.setWg g).tlb = s.tlb := rfl
@[simp] theorem State.setWg_invalidated (s : State) (g : Workgroup) :
    (s.setWg g).invalidated = s.invalidated := rfl
@[simp] theorem State.setWg_entryCache (s : State) (g : Workgroup) :
    (s.setWg g).entryCache = s.entryCache := rfl
@[simp] theorem State.setWg_dirtyLines (s : State) (g : Workgroup) :
    (s.setWg g).dirtyLines = s.dirtyLines := rfl
@[simp] theorem State.setWg_hostView (s : State) (g : Workgroup) :
    (s.setWg g).hostView = s.hostView := rfl
@[simp] theorem State.setWg_roots (s : State) (g : Workgroup) :
    (s.setWg g).roots = s.roots := rfl
@[simp] theorem State.setWg_mcbs (s : State) (g : Workgroup) :
    (s.setWg g).mcbs = s.mcbs := rfl
@[simp] theorem State.setWg_pageCounts (s : State) (g : Workgroup) :
    (s.setWg g).pageCounts = s.pageCounts := rfl
@[simp] theorem State.setWg_moveLogs (s : State) (g : Workgroup) :
    (s.setWg g).moveLogs = s.moveLogs := rfl
@[simp] theorem State.setWg_moves (s : State) (g : Workgroup) :
    (s.setWg g).moves = s.moves := rfl
@[simp] theorem State.setWg_windowEnds (s : State) (g : Workgroup) :
    (s.setWg g).windowEnds = s.windowEnds := rfl
@[simp] theorem State.setWg_minors (s : State) (g : Workgroup) :
    (s.setWg g).minors = s.minors := rfl
@[simp] theorem State.setWg_majors (s : State) (g : Workgroup) :
    (s.setWg g).majors = s.majors := rfl
@[simp] theorem State.setWg_reencrypting (s : State) (g : Workgroup) :
    (s.setWg g).reencrypting = s.reencrypting := rfl
@[simp] theorem State.setWg_reencrypted (s : State) (g : Workgroup) :
    (s.setWg g).reencrypted = s.reencrypted := rfl
@[simp] theorem State.setWg_tree (s : State) (g : Workgroup) :
    (s.setWg g).tree = s.tree := rfl
@[simp] theorem State.setWg_espVault (s : State) (g : Workgroup) :
    (s.setWg g).espVault = s.espVault := rfl
@[simp] theorem State.setWg_ports (s : State) (g : Workgroup) :
    (s.setWg g).ports = s.ports := rfl
@[simp] theorem State.setWg_peers (s : State) (g : Workgroup) :
    (s.setWg g).peers = s.peers := rfl
@[simp] theorem State.setWg_outbox (s : State) (g : Workgroup) :
    (s.setWg g).outbox = s.outbox := rfl
@[simp] theorem State.setWg_linkOut (s : State) (g : Workgroup) :
    (s.setWg g).linkOut = s.linkOut := rfl
@[simp] theorem State.setWg_sources (s : State) (g : Workgroup) :
    (s.setWg g).sources = s.sources := rfl
@[simp] theorem State.setWg_pending (s : State) (g : Workgroup) :
    (s.setWg g).pending = s.pending := rfl
@[simp] theorem State.setWg_sent (s : State) (g : Workgroup) :
    (s.setWg g).sent = s.sent := rfl
@[simp] theorem State.setWg_faults (s : State) (g : Workgroup) :
    (s.setWg g).faults = s.faults := rfl
@[simp] theorem State.setWg_watches (s : State) (g : Workgroup) :
    (s.setWg g).watches = s.watches := rfl
@[simp] theorem State.setWg_traceHeld (s : State) (g : Workgroup) :
    (s.setWg g).traceHeld = s.traceHeld := rfl
@[simp] theorem State.setWg_counters (s : State) (g : Workgroup) :
    (s.setWg g).counters = s.counters := rfl
@[simp] theorem State.setWg_corrected (s : State) (g : Workgroup) :
    (s.setWg g).corrected = s.corrected := rfl

/-! ## A pontil context replaced -/

@[simp] theorem State.setPontil_agenda (s : State) (p : Pontil) :
    (s.setPontil p).agenda = s.agenda := rfl
@[simp] theorem State.setPontil_arrived (s : State) (p : Pontil) :
    (s.setPontil p).arrived = s.arrived := rfl
@[simp] theorem State.setPontil_issue (s : State) (p : Pontil) :
    (s.setPontil p).issue = s.issue := rfl
@[simp] theorem State.setPontil_choice (s : State) (p : Pontil) :
    (s.setPontil p).choice = s.choice := rfl
@[simp] theorem State.setPontil_uids (s : State) (p : Pontil) :
    (s.setPontil p).uids = s.uids := rfl
@[simp] theorem State.setPontil_now (s : State) (p : Pontil) :
    (s.setPontil p).now = s.now := rfl
@[simp] theorem State.setPontil_ahead (s : State) (p : Pontil) :
    (s.setPontil p).ahead = s.ahead := rfl
@[simp] theorem State.setPontil_power (s : State) (p : Pontil) :
    (s.setPontil p).power = s.power := rfl
@[simp] theorem State.setPontil_stopped (s : State) (p : Pontil) :
    (s.setPontil p).stopped = s.stopped := rfl
@[simp] theorem State.setPontil_stopAt (s : State) (p : Pontil) :
    (s.setPontil p).stopAt = s.stopAt := rfl
@[simp] theorem State.setPontil_module (s : State) (p : Pontil) :
    (s.setPontil p).module = s.module := rfl
@[simp] theorem State.setPontil_mode (s : State) (p : Pontil) :
    (s.setPontil p).mode = s.mode := rfl
@[simp] theorem State.setPontil_clockLevel (s : State) (p : Pontil) :
    (s.setPontil p).clockLevel = s.clockLevel := rfl
@[simp] theorem State.setPontil_ppm (s : State) (p : Pontil) :
    (s.setPontil p).ppm = s.ppm := rfl
@[simp] theorem State.setPontil_down (s : State) (p : Pontil) :
    (s.setPontil p).down = s.down := rfl
@[simp] theorem State.setPontil_secretLocked (s : State) (p : Pontil) :
    (s.setPontil p).secretLocked = s.secretLocked := rfl
@[simp] theorem State.setPontil_minSvn (s : State) (p : Pontil) :
    (s.setPontil p).minSvn = s.minSvn := rfl
@[simp] theorem State.setPontil_staging (s : State) (p : Pontil) :
    (s.setPontil p).staging = s.staging := rfl
@[simp] theorem State.setPontil_verified (s : State) (p : Pontil) :
    (s.setPontil p).verified = s.verified := rfl
@[simp] theorem State.setPontil_hello (s : State) (p : Pontil) :
    (s.setPontil p).hello = s.hello := rfl
@[simp] theorem State.setPontil_host (s : State) (p : Pontil) :
    (s.setPontil p).host = s.host := rfl
@[simp] theorem State.setPontil_session (s : State) (p : Pontil) :
    (s.setPontil p).session = s.session := rfl
@[simp] theorem State.setPontil_caller (s : State) (p : Pontil) :
    (s.setPontil p).caller = s.caller := rfl
@[simp] theorem State.setPontil_mute (s : State) (p : Pontil) :
    (s.setPontil p).mute = s.mute := rfl
@[simp] theorem State.setPontil_aborts (s : State) (p : Pontil) :
    (s.setPontil p).aborts = s.aborts := rfl
@[simp] theorem State.setPontil_droppedFrames (s : State) (p : Pontil) :
    (s.setPontil p).droppedFrames = s.droppedFrames := rfl
@[simp] theorem State.setPontil_keyDraws (s : State) (p : Pontil) :
    (s.setPontil p).keyDraws = s.keyDraws := rfl
@[simp] theorem State.setPontil_contexts (s : State) (p : Pontil) :
    (s.setPontil p).contexts = s.contexts := rfl
@[simp] theorem State.setPontil_queues (s : State) (p : Pontil) :
    (s.setPontil p).queues = s.queues := rfl
@[simp] theorem State.setPontil_launches (s : State) (p : Pontil) :
    (s.setPontil p).launches = s.launches := rfl
@[simp] theorem State.setPontil_ages (s : State) (p : Pontil) :
    (s.setPontil p).ages = s.ages := rfl
@[simp] theorem State.setPontil_pointers (s : State) (p : Pontil) :
    (s.setPontil p).pointers = s.pointers := rfl
@[simp] theorem State.setPontil_held (s : State) (p : Pontil) :
    (s.setPontil p).held = s.held := rfl
@[simp] theorem State.setPontil_corePointers (s : State) (p : Pontil) :
    (s.setPontil p).corePointers = s.corePointers := rfl
@[simp] theorem State.setPontil_workgroups (s : State) (p : Pontil) :
    (s.setPontil p).workgroups = s.workgroups := rfl
@[simp] theorem State.setPontil_arrivals (s : State) (p : Pontil) :
    (s.setPontil p).arrivals = s.arrivals := rfl
@[simp] theorem State.setPontil_ops (s : State) (p : Pontil) :
    (s.setPontil p).ops = s.ops := rfl
@[simp] theorem State.setPontil_ends (s : State) (p : Pontil) :
    (s.setPontil p).ends = s.ends := rfl
@[simp] theorem State.setPontil_groups (s : State) (p : Pontil) :
    (s.setPontil p).groups = s.groups := rfl
@[simp] theorem State.setPontil_mem (s : State) (p : Pontil) :
    (s.setPontil p).mem = s.mem := rfl
@[simp] theorem State.setPontil_hist (s : State) (p : Pontil) :
    (s.setPontil p).hist = s.hist := rfl
@[simp] theorem State.setPontil_nextWrite (s : State) (p : Pontil) :
    (s.setPontil p).nextWrite = s.nextWrite := rfl
@[simp] theorem State.setPontil_scFences (s : State) (p : Pontil) :
    (s.setPontil p).scFences = s.scFences := rfl
@[simp] theorem State.setPontil_pointSeen (s : State) (p : Pontil) :
    (s.setPontil p).pointSeen = s.pointSeen := rfl
@[simp] theorem State.setPontil_full (s : State) (p : Pontil) :
    (s.setPontil p).full = s.full := rfl
@[simp] theorem State.setPontil_fullRels (s : State) (p : Pontil) :
    (s.setPontil p).fullRels = s.fullRels := rfl
@[simp] theorem State.setPontil_poison (s : State) (p : Pontil) :
    (s.setPontil p).poison = s.poison := rfl
@[simp] theorem State.setPontil_tlb (s : State) (p : Pontil) :
    (s.setPontil p).tlb = s.tlb := rfl
@[simp] theorem State.setPontil_invalidated (s : State) (p : Pontil) :
    (s.setPontil p).invalidated = s.invalidated := rfl
@[simp] theorem State.setPontil_entryCache (s : State) (p : Pontil) :
    (s.setPontil p).entryCache = s.entryCache := rfl
@[simp] theorem State.setPontil_dirtyLines (s : State) (p : Pontil) :
    (s.setPontil p).dirtyLines = s.dirtyLines := rfl
@[simp] theorem State.setPontil_hostView (s : State) (p : Pontil) :
    (s.setPontil p).hostView = s.hostView := rfl
@[simp] theorem State.setPontil_roots (s : State) (p : Pontil) :
    (s.setPontil p).roots = s.roots := rfl
@[simp] theorem State.setPontil_mcbs (s : State) (p : Pontil) :
    (s.setPontil p).mcbs = s.mcbs := rfl
@[simp] theorem State.setPontil_pageCounts (s : State) (p : Pontil) :
    (s.setPontil p).pageCounts = s.pageCounts := rfl
@[simp] theorem State.setPontil_moveLogs (s : State) (p : Pontil) :
    (s.setPontil p).moveLogs = s.moveLogs := rfl
@[simp] theorem State.setPontil_moves (s : State) (p : Pontil) :
    (s.setPontil p).moves = s.moves := rfl
@[simp] theorem State.setPontil_windowEnds (s : State) (p : Pontil) :
    (s.setPontil p).windowEnds = s.windowEnds := rfl
@[simp] theorem State.setPontil_minors (s : State) (p : Pontil) :
    (s.setPontil p).minors = s.minors := rfl
@[simp] theorem State.setPontil_majors (s : State) (p : Pontil) :
    (s.setPontil p).majors = s.majors := rfl
@[simp] theorem State.setPontil_reencrypting (s : State) (p : Pontil) :
    (s.setPontil p).reencrypting = s.reencrypting := rfl
@[simp] theorem State.setPontil_reencrypted (s : State) (p : Pontil) :
    (s.setPontil p).reencrypted = s.reencrypted := rfl
@[simp] theorem State.setPontil_tree (s : State) (p : Pontil) :
    (s.setPontil p).tree = s.tree := rfl
@[simp] theorem State.setPontil_espVault (s : State) (p : Pontil) :
    (s.setPontil p).espVault = s.espVault := rfl
@[simp] theorem State.setPontil_ports (s : State) (p : Pontil) :
    (s.setPontil p).ports = s.ports := rfl
@[simp] theorem State.setPontil_peers (s : State) (p : Pontil) :
    (s.setPontil p).peers = s.peers := rfl
@[simp] theorem State.setPontil_outbox (s : State) (p : Pontil) :
    (s.setPontil p).outbox = s.outbox := rfl
@[simp] theorem State.setPontil_linkOut (s : State) (p : Pontil) :
    (s.setPontil p).linkOut = s.linkOut := rfl
@[simp] theorem State.setPontil_sources (s : State) (p : Pontil) :
    (s.setPontil p).sources = s.sources := rfl
@[simp] theorem State.setPontil_pending (s : State) (p : Pontil) :
    (s.setPontil p).pending = s.pending := rfl
@[simp] theorem State.setPontil_sent (s : State) (p : Pontil) :
    (s.setPontil p).sent = s.sent := rfl
@[simp] theorem State.setPontil_faults (s : State) (p : Pontil) :
    (s.setPontil p).faults = s.faults := rfl
@[simp] theorem State.setPontil_watches (s : State) (p : Pontil) :
    (s.setPontil p).watches = s.watches := rfl
@[simp] theorem State.setPontil_traceHeld (s : State) (p : Pontil) :
    (s.setPontil p).traceHeld = s.traceHeld := rfl
@[simp] theorem State.setPontil_counters (s : State) (p : Pontil) :
    (s.setPontil p).counters = s.counters := rfl
@[simp] theorem State.setPontil_corrected (s : State) (p : Pontil) :
    (s.setPontil p).corrected = s.corrected := rfl

/-! ## A watch replaced -/

@[simp] theorem State.setWatch_agenda (s : State) (w : Watch) :
    (s.setWatch w).agenda = s.agenda := rfl
@[simp] theorem State.setWatch_arrived (s : State) (w : Watch) :
    (s.setWatch w).arrived = s.arrived := rfl
@[simp] theorem State.setWatch_issue (s : State) (w : Watch) :
    (s.setWatch w).issue = s.issue := rfl
@[simp] theorem State.setWatch_choice (s : State) (w : Watch) :
    (s.setWatch w).choice = s.choice := rfl
@[simp] theorem State.setWatch_uids (s : State) (w : Watch) :
    (s.setWatch w).uids = s.uids := rfl
@[simp] theorem State.setWatch_now (s : State) (w : Watch) :
    (s.setWatch w).now = s.now := rfl
@[simp] theorem State.setWatch_ahead (s : State) (w : Watch) :
    (s.setWatch w).ahead = s.ahead := rfl
@[simp] theorem State.setWatch_power (s : State) (w : Watch) :
    (s.setWatch w).power = s.power := rfl
@[simp] theorem State.setWatch_stopped (s : State) (w : Watch) :
    (s.setWatch w).stopped = s.stopped := rfl
@[simp] theorem State.setWatch_stopAt (s : State) (w : Watch) :
    (s.setWatch w).stopAt = s.stopAt := rfl
@[simp] theorem State.setWatch_module (s : State) (w : Watch) :
    (s.setWatch w).module = s.module := rfl
@[simp] theorem State.setWatch_mode (s : State) (w : Watch) :
    (s.setWatch w).mode = s.mode := rfl
@[simp] theorem State.setWatch_clockLevel (s : State) (w : Watch) :
    (s.setWatch w).clockLevel = s.clockLevel := rfl
@[simp] theorem State.setWatch_ppm (s : State) (w : Watch) :
    (s.setWatch w).ppm = s.ppm := rfl
@[simp] theorem State.setWatch_down (s : State) (w : Watch) :
    (s.setWatch w).down = s.down := rfl
@[simp] theorem State.setWatch_secretLocked (s : State) (w : Watch) :
    (s.setWatch w).secretLocked = s.secretLocked := rfl
@[simp] theorem State.setWatch_minSvn (s : State) (w : Watch) :
    (s.setWatch w).minSvn = s.minSvn := rfl
@[simp] theorem State.setWatch_staging (s : State) (w : Watch) :
    (s.setWatch w).staging = s.staging := rfl
@[simp] theorem State.setWatch_verified (s : State) (w : Watch) :
    (s.setWatch w).verified = s.verified := rfl
@[simp] theorem State.setWatch_hello (s : State) (w : Watch) :
    (s.setWatch w).hello = s.hello := rfl
@[simp] theorem State.setWatch_host (s : State) (w : Watch) :
    (s.setWatch w).host = s.host := rfl
@[simp] theorem State.setWatch_session (s : State) (w : Watch) :
    (s.setWatch w).session = s.session := rfl
@[simp] theorem State.setWatch_caller (s : State) (w : Watch) :
    (s.setWatch w).caller = s.caller := rfl
@[simp] theorem State.setWatch_mute (s : State) (w : Watch) :
    (s.setWatch w).mute = s.mute := rfl
@[simp] theorem State.setWatch_aborts (s : State) (w : Watch) :
    (s.setWatch w).aborts = s.aborts := rfl
@[simp] theorem State.setWatch_droppedFrames (s : State) (w : Watch) :
    (s.setWatch w).droppedFrames = s.droppedFrames := rfl
@[simp] theorem State.setWatch_keyDraws (s : State) (w : Watch) :
    (s.setWatch w).keyDraws = s.keyDraws := rfl
@[simp] theorem State.setWatch_contexts (s : State) (w : Watch) :
    (s.setWatch w).contexts = s.contexts := rfl
@[simp] theorem State.setWatch_queues (s : State) (w : Watch) :
    (s.setWatch w).queues = s.queues := rfl
@[simp] theorem State.setWatch_launches (s : State) (w : Watch) :
    (s.setWatch w).launches = s.launches := rfl
@[simp] theorem State.setWatch_ages (s : State) (w : Watch) :
    (s.setWatch w).ages = s.ages := rfl
@[simp] theorem State.setWatch_pointers (s : State) (w : Watch) :
    (s.setWatch w).pointers = s.pointers := rfl
@[simp] theorem State.setWatch_held (s : State) (w : Watch) :
    (s.setWatch w).held = s.held := rfl
@[simp] theorem State.setWatch_corePointers (s : State) (w : Watch) :
    (s.setWatch w).corePointers = s.corePointers := rfl
@[simp] theorem State.setWatch_workgroups (s : State) (w : Watch) :
    (s.setWatch w).workgroups = s.workgroups := rfl
@[simp] theorem State.setWatch_pontils (s : State) (w : Watch) :
    (s.setWatch w).pontils = s.pontils := rfl
@[simp] theorem State.setWatch_arrivals (s : State) (w : Watch) :
    (s.setWatch w).arrivals = s.arrivals := rfl
@[simp] theorem State.setWatch_ops (s : State) (w : Watch) :
    (s.setWatch w).ops = s.ops := rfl
@[simp] theorem State.setWatch_ends (s : State) (w : Watch) :
    (s.setWatch w).ends = s.ends := rfl
@[simp] theorem State.setWatch_groups (s : State) (w : Watch) :
    (s.setWatch w).groups = s.groups := rfl
@[simp] theorem State.setWatch_mem (s : State) (w : Watch) :
    (s.setWatch w).mem = s.mem := rfl
@[simp] theorem State.setWatch_hist (s : State) (w : Watch) :
    (s.setWatch w).hist = s.hist := rfl
@[simp] theorem State.setWatch_nextWrite (s : State) (w : Watch) :
    (s.setWatch w).nextWrite = s.nextWrite := rfl
@[simp] theorem State.setWatch_scFences (s : State) (w : Watch) :
    (s.setWatch w).scFences = s.scFences := rfl
@[simp] theorem State.setWatch_pointSeen (s : State) (w : Watch) :
    (s.setWatch w).pointSeen = s.pointSeen := rfl
@[simp] theorem State.setWatch_full (s : State) (w : Watch) :
    (s.setWatch w).full = s.full := rfl
@[simp] theorem State.setWatch_fullRels (s : State) (w : Watch) :
    (s.setWatch w).fullRels = s.fullRels := rfl
@[simp] theorem State.setWatch_poison (s : State) (w : Watch) :
    (s.setWatch w).poison = s.poison := rfl
@[simp] theorem State.setWatch_tlb (s : State) (w : Watch) :
    (s.setWatch w).tlb = s.tlb := rfl
@[simp] theorem State.setWatch_invalidated (s : State) (w : Watch) :
    (s.setWatch w).invalidated = s.invalidated := rfl
@[simp] theorem State.setWatch_entryCache (s : State) (w : Watch) :
    (s.setWatch w).entryCache = s.entryCache := rfl
@[simp] theorem State.setWatch_dirtyLines (s : State) (w : Watch) :
    (s.setWatch w).dirtyLines = s.dirtyLines := rfl
@[simp] theorem State.setWatch_hostView (s : State) (w : Watch) :
    (s.setWatch w).hostView = s.hostView := rfl
@[simp] theorem State.setWatch_roots (s : State) (w : Watch) :
    (s.setWatch w).roots = s.roots := rfl
@[simp] theorem State.setWatch_mcbs (s : State) (w : Watch) :
    (s.setWatch w).mcbs = s.mcbs := rfl
@[simp] theorem State.setWatch_pageCounts (s : State) (w : Watch) :
    (s.setWatch w).pageCounts = s.pageCounts := rfl
@[simp] theorem State.setWatch_moveLogs (s : State) (w : Watch) :
    (s.setWatch w).moveLogs = s.moveLogs := rfl
@[simp] theorem State.setWatch_moves (s : State) (w : Watch) :
    (s.setWatch w).moves = s.moves := rfl
@[simp] theorem State.setWatch_windowEnds (s : State) (w : Watch) :
    (s.setWatch w).windowEnds = s.windowEnds := rfl
@[simp] theorem State.setWatch_minors (s : State) (w : Watch) :
    (s.setWatch w).minors = s.minors := rfl
@[simp] theorem State.setWatch_majors (s : State) (w : Watch) :
    (s.setWatch w).majors = s.majors := rfl
@[simp] theorem State.setWatch_reencrypting (s : State) (w : Watch) :
    (s.setWatch w).reencrypting = s.reencrypting := rfl
@[simp] theorem State.setWatch_reencrypted (s : State) (w : Watch) :
    (s.setWatch w).reencrypted = s.reencrypted := rfl
@[simp] theorem State.setWatch_tree (s : State) (w : Watch) :
    (s.setWatch w).tree = s.tree := rfl
@[simp] theorem State.setWatch_espVault (s : State) (w : Watch) :
    (s.setWatch w).espVault = s.espVault := rfl
@[simp] theorem State.setWatch_ports (s : State) (w : Watch) :
    (s.setWatch w).ports = s.ports := rfl
@[simp] theorem State.setWatch_peers (s : State) (w : Watch) :
    (s.setWatch w).peers = s.peers := rfl
@[simp] theorem State.setWatch_outbox (s : State) (w : Watch) :
    (s.setWatch w).outbox = s.outbox := rfl
@[simp] theorem State.setWatch_linkOut (s : State) (w : Watch) :
    (s.setWatch w).linkOut = s.linkOut := rfl
@[simp] theorem State.setWatch_sources (s : State) (w : Watch) :
    (s.setWatch w).sources = s.sources := rfl
@[simp] theorem State.setWatch_pending (s : State) (w : Watch) :
    (s.setWatch w).pending = s.pending := rfl
@[simp] theorem State.setWatch_sent (s : State) (w : Watch) :
    (s.setWatch w).sent = s.sent := rfl
@[simp] theorem State.setWatch_faults (s : State) (w : Watch) :
    (s.setWatch w).faults = s.faults := rfl
@[simp] theorem State.setWatch_traceHeld (s : State) (w : Watch) :
    (s.setWatch w).traceHeld = s.traceHeld := rfl
@[simp] theorem State.setWatch_counters (s : State) (w : Watch) :
    (s.setWatch w).counters = s.counters := rfl
@[simp] theorem State.setWatch_corrected (s : State) (w : Watch) :
    (s.setWatch w).corrected = s.corrected := rfl

/-! ## A thread changed -/

@[simp] theorem State.modThread_agenda (s : State) (u tid : Nat) (f : Thread → Thread) :
    (s.modThread u tid f).agenda = s.agenda := by unfold State.modThread; repeat' (first | rfl | split)
@[simp] theorem State.modThread_arrived (s : State) (u tid : Nat) (f : Thread → Thread) :
    (s.modThread u tid f).arrived = s.arrived := by unfold State.modThread; repeat' (first | rfl | split)
@[simp] theorem State.modThread_issue (s : State) (u tid : Nat) (f : Thread → Thread) :
    (s.modThread u tid f).issue = s.issue := by unfold State.modThread; repeat' (first | rfl | split)
@[simp] theorem State.modThread_choice (s : State) (u tid : Nat) (f : Thread → Thread) :
    (s.modThread u tid f).choice = s.choice := by unfold State.modThread; repeat' (first | rfl | split)
@[simp] theorem State.modThread_uids (s : State) (u tid : Nat) (f : Thread → Thread) :
    (s.modThread u tid f).uids = s.uids := by unfold State.modThread; repeat' (first | rfl | split)
@[simp] theorem State.modThread_now (s : State) (u tid : Nat) (f : Thread → Thread) :
    (s.modThread u tid f).now = s.now := by unfold State.modThread; repeat' (first | rfl | split)
@[simp] theorem State.modThread_ahead (s : State) (u tid : Nat) (f : Thread → Thread) :
    (s.modThread u tid f).ahead = s.ahead := by unfold State.modThread; repeat' (first | rfl | split)
@[simp] theorem State.modThread_power (s : State) (u tid : Nat) (f : Thread → Thread) :
    (s.modThread u tid f).power = s.power := by unfold State.modThread; repeat' (first | rfl | split)
@[simp] theorem State.modThread_stopped (s : State) (u tid : Nat) (f : Thread → Thread) :
    (s.modThread u tid f).stopped = s.stopped := by unfold State.modThread; repeat' (first | rfl | split)
@[simp] theorem State.modThread_stopAt (s : State) (u tid : Nat) (f : Thread → Thread) :
    (s.modThread u tid f).stopAt = s.stopAt := by unfold State.modThread; repeat' (first | rfl | split)
@[simp] theorem State.modThread_module (s : State) (u tid : Nat) (f : Thread → Thread) :
    (s.modThread u tid f).module = s.module := by unfold State.modThread; repeat' (first | rfl | split)
@[simp] theorem State.modThread_mode (s : State) (u tid : Nat) (f : Thread → Thread) :
    (s.modThread u tid f).mode = s.mode := by unfold State.modThread; repeat' (first | rfl | split)
@[simp] theorem State.modThread_clockLevel (s : State) (u tid : Nat) (f : Thread → Thread) :
    (s.modThread u tid f).clockLevel = s.clockLevel := by unfold State.modThread; repeat' (first | rfl | split)
@[simp] theorem State.modThread_ppm (s : State) (u tid : Nat) (f : Thread → Thread) :
    (s.modThread u tid f).ppm = s.ppm := by unfold State.modThread; repeat' (first | rfl | split)
@[simp] theorem State.modThread_down (s : State) (u tid : Nat) (f : Thread → Thread) :
    (s.modThread u tid f).down = s.down := by unfold State.modThread; repeat' (first | rfl | split)
@[simp] theorem State.modThread_secretLocked (s : State) (u tid : Nat) (f : Thread → Thread) :
    (s.modThread u tid f).secretLocked = s.secretLocked := by unfold State.modThread; repeat' (first | rfl | split)
@[simp] theorem State.modThread_minSvn (s : State) (u tid : Nat) (f : Thread → Thread) :
    (s.modThread u tid f).minSvn = s.minSvn := by unfold State.modThread; repeat' (first | rfl | split)
@[simp] theorem State.modThread_staging (s : State) (u tid : Nat) (f : Thread → Thread) :
    (s.modThread u tid f).staging = s.staging := by unfold State.modThread; repeat' (first | rfl | split)
@[simp] theorem State.modThread_verified (s : State) (u tid : Nat) (f : Thread → Thread) :
    (s.modThread u tid f).verified = s.verified := by unfold State.modThread; repeat' (first | rfl | split)
@[simp] theorem State.modThread_hello (s : State) (u tid : Nat) (f : Thread → Thread) :
    (s.modThread u tid f).hello = s.hello := by unfold State.modThread; repeat' (first | rfl | split)
@[simp] theorem State.modThread_host (s : State) (u tid : Nat) (f : Thread → Thread) :
    (s.modThread u tid f).host = s.host := by unfold State.modThread; repeat' (first | rfl | split)
@[simp] theorem State.modThread_session (s : State) (u tid : Nat) (f : Thread → Thread) :
    (s.modThread u tid f).session = s.session := by unfold State.modThread; repeat' (first | rfl | split)
@[simp] theorem State.modThread_caller (s : State) (u tid : Nat) (f : Thread → Thread) :
    (s.modThread u tid f).caller = s.caller := by unfold State.modThread; repeat' (first | rfl | split)
@[simp] theorem State.modThread_mute (s : State) (u tid : Nat) (f : Thread → Thread) :
    (s.modThread u tid f).mute = s.mute := by unfold State.modThread; repeat' (first | rfl | split)
@[simp] theorem State.modThread_aborts (s : State) (u tid : Nat) (f : Thread → Thread) :
    (s.modThread u tid f).aborts = s.aborts := by unfold State.modThread; repeat' (first | rfl | split)
@[simp] theorem State.modThread_droppedFrames (s : State) (u tid : Nat) (f : Thread → Thread) :
    (s.modThread u tid f).droppedFrames = s.droppedFrames := by unfold State.modThread; repeat' (first | rfl | split)
@[simp] theorem State.modThread_keyDraws (s : State) (u tid : Nat) (f : Thread → Thread) :
    (s.modThread u tid f).keyDraws = s.keyDraws := by unfold State.modThread; repeat' (first | rfl | split)
@[simp] theorem State.modThread_contexts (s : State) (u tid : Nat) (f : Thread → Thread) :
    (s.modThread u tid f).contexts = s.contexts := by unfold State.modThread; repeat' (first | rfl | split)
@[simp] theorem State.modThread_queues (s : State) (u tid : Nat) (f : Thread → Thread) :
    (s.modThread u tid f).queues = s.queues := by unfold State.modThread; repeat' (first | rfl | split)
@[simp] theorem State.modThread_launches (s : State) (u tid : Nat) (f : Thread → Thread) :
    (s.modThread u tid f).launches = s.launches := by unfold State.modThread; repeat' (first | rfl | split)
@[simp] theorem State.modThread_ages (s : State) (u tid : Nat) (f : Thread → Thread) :
    (s.modThread u tid f).ages = s.ages := by unfold State.modThread; repeat' (first | rfl | split)
@[simp] theorem State.modThread_pointers (s : State) (u tid : Nat) (f : Thread → Thread) :
    (s.modThread u tid f).pointers = s.pointers := by unfold State.modThread; repeat' (first | rfl | split)
@[simp] theorem State.modThread_held (s : State) (u tid : Nat) (f : Thread → Thread) :
    (s.modThread u tid f).held = s.held := by unfold State.modThread; repeat' (first | rfl | split)
@[simp] theorem State.modThread_corePointers (s : State) (u tid : Nat) (f : Thread → Thread) :
    (s.modThread u tid f).corePointers = s.corePointers := by unfold State.modThread; repeat' (first | rfl | split)
@[simp] theorem State.modThread_pontils (s : State) (u tid : Nat) (f : Thread → Thread) :
    (s.modThread u tid f).pontils = s.pontils := by unfold State.modThread; repeat' (first | rfl | split)
@[simp] theorem State.modThread_arrivals (s : State) (u tid : Nat) (f : Thread → Thread) :
    (s.modThread u tid f).arrivals = s.arrivals := by unfold State.modThread; repeat' (first | rfl | split)
@[simp] theorem State.modThread_ops (s : State) (u tid : Nat) (f : Thread → Thread) :
    (s.modThread u tid f).ops = s.ops := by unfold State.modThread; repeat' (first | rfl | split)
@[simp] theorem State.modThread_ends (s : State) (u tid : Nat) (f : Thread → Thread) :
    (s.modThread u tid f).ends = s.ends := by unfold State.modThread; repeat' (first | rfl | split)
@[simp] theorem State.modThread_groups (s : State) (u tid : Nat) (f : Thread → Thread) :
    (s.modThread u tid f).groups = s.groups := by unfold State.modThread; repeat' (first | rfl | split)
@[simp] theorem State.modThread_mem (s : State) (u tid : Nat) (f : Thread → Thread) :
    (s.modThread u tid f).mem = s.mem := by unfold State.modThread; repeat' (first | rfl | split)
@[simp] theorem State.modThread_hist (s : State) (u tid : Nat) (f : Thread → Thread) :
    (s.modThread u tid f).hist = s.hist := by unfold State.modThread; repeat' (first | rfl | split)
@[simp] theorem State.modThread_nextWrite (s : State) (u tid : Nat) (f : Thread → Thread) :
    (s.modThread u tid f).nextWrite = s.nextWrite := by unfold State.modThread; repeat' (first | rfl | split)
@[simp] theorem State.modThread_scFences (s : State) (u tid : Nat) (f : Thread → Thread) :
    (s.modThread u tid f).scFences = s.scFences := by unfold State.modThread; repeat' (first | rfl | split)
@[simp] theorem State.modThread_pointSeen (s : State) (u tid : Nat) (f : Thread → Thread) :
    (s.modThread u tid f).pointSeen = s.pointSeen := by unfold State.modThread; repeat' (first | rfl | split)
@[simp] theorem State.modThread_full (s : State) (u tid : Nat) (f : Thread → Thread) :
    (s.modThread u tid f).full = s.full := by unfold State.modThread; repeat' (first | rfl | split)
@[simp] theorem State.modThread_fullRels (s : State) (u tid : Nat) (f : Thread → Thread) :
    (s.modThread u tid f).fullRels = s.fullRels := by unfold State.modThread; repeat' (first | rfl | split)
@[simp] theorem State.modThread_poison (s : State) (u tid : Nat) (f : Thread → Thread) :
    (s.modThread u tid f).poison = s.poison := by unfold State.modThread; repeat' (first | rfl | split)
@[simp] theorem State.modThread_tlb (s : State) (u tid : Nat) (f : Thread → Thread) :
    (s.modThread u tid f).tlb = s.tlb := by unfold State.modThread; repeat' (first | rfl | split)
@[simp] theorem State.modThread_invalidated (s : State) (u tid : Nat) (f : Thread → Thread) :
    (s.modThread u tid f).invalidated = s.invalidated := by unfold State.modThread; repeat' (first | rfl | split)
@[simp] theorem State.modThread_entryCache (s : State) (u tid : Nat) (f : Thread → Thread) :
    (s.modThread u tid f).entryCache = s.entryCache := by unfold State.modThread; repeat' (first | rfl | split)
@[simp] theorem State.modThread_dirtyLines (s : State) (u tid : Nat) (f : Thread → Thread) :
    (s.modThread u tid f).dirtyLines = s.dirtyLines := by unfold State.modThread; repeat' (first | rfl | split)
@[simp] theorem State.modThread_hostView (s : State) (u tid : Nat) (f : Thread → Thread) :
    (s.modThread u tid f).hostView = s.hostView := by unfold State.modThread; repeat' (first | rfl | split)
@[simp] theorem State.modThread_roots (s : State) (u tid : Nat) (f : Thread → Thread) :
    (s.modThread u tid f).roots = s.roots := by unfold State.modThread; repeat' (first | rfl | split)
@[simp] theorem State.modThread_mcbs (s : State) (u tid : Nat) (f : Thread → Thread) :
    (s.modThread u tid f).mcbs = s.mcbs := by unfold State.modThread; repeat' (first | rfl | split)
@[simp] theorem State.modThread_pageCounts (s : State) (u tid : Nat) (f : Thread → Thread) :
    (s.modThread u tid f).pageCounts = s.pageCounts := by unfold State.modThread; repeat' (first | rfl | split)
@[simp] theorem State.modThread_moveLogs (s : State) (u tid : Nat) (f : Thread → Thread) :
    (s.modThread u tid f).moveLogs = s.moveLogs := by unfold State.modThread; repeat' (first | rfl | split)
@[simp] theorem State.modThread_moves (s : State) (u tid : Nat) (f : Thread → Thread) :
    (s.modThread u tid f).moves = s.moves := by unfold State.modThread; repeat' (first | rfl | split)
@[simp] theorem State.modThread_windowEnds (s : State) (u tid : Nat) (f : Thread → Thread) :
    (s.modThread u tid f).windowEnds = s.windowEnds := by unfold State.modThread; repeat' (first | rfl | split)
@[simp] theorem State.modThread_minors (s : State) (u tid : Nat) (f : Thread → Thread) :
    (s.modThread u tid f).minors = s.minors := by unfold State.modThread; repeat' (first | rfl | split)
@[simp] theorem State.modThread_majors (s : State) (u tid : Nat) (f : Thread → Thread) :
    (s.modThread u tid f).majors = s.majors := by unfold State.modThread; repeat' (first | rfl | split)
@[simp] theorem State.modThread_reencrypting (s : State) (u tid : Nat) (f : Thread → Thread) :
    (s.modThread u tid f).reencrypting = s.reencrypting := by unfold State.modThread; repeat' (first | rfl | split)
@[simp] theorem State.modThread_reencrypted (s : State) (u tid : Nat) (f : Thread → Thread) :
    (s.modThread u tid f).reencrypted = s.reencrypted := by unfold State.modThread; repeat' (first | rfl | split)
@[simp] theorem State.modThread_tree (s : State) (u tid : Nat) (f : Thread → Thread) :
    (s.modThread u tid f).tree = s.tree := by unfold State.modThread; repeat' (first | rfl | split)
@[simp] theorem State.modThread_espVault (s : State) (u tid : Nat) (f : Thread → Thread) :
    (s.modThread u tid f).espVault = s.espVault := by unfold State.modThread; repeat' (first | rfl | split)
@[simp] theorem State.modThread_ports (s : State) (u tid : Nat) (f : Thread → Thread) :
    (s.modThread u tid f).ports = s.ports := by unfold State.modThread; repeat' (first | rfl | split)
@[simp] theorem State.modThread_peers (s : State) (u tid : Nat) (f : Thread → Thread) :
    (s.modThread u tid f).peers = s.peers := by unfold State.modThread; repeat' (first | rfl | split)
@[simp] theorem State.modThread_outbox (s : State) (u tid : Nat) (f : Thread → Thread) :
    (s.modThread u tid f).outbox = s.outbox := by unfold State.modThread; repeat' (first | rfl | split)
@[simp] theorem State.modThread_linkOut (s : State) (u tid : Nat) (f : Thread → Thread) :
    (s.modThread u tid f).linkOut = s.linkOut := by unfold State.modThread; repeat' (first | rfl | split)
@[simp] theorem State.modThread_sources (s : State) (u tid : Nat) (f : Thread → Thread) :
    (s.modThread u tid f).sources = s.sources := by unfold State.modThread; repeat' (first | rfl | split)
@[simp] theorem State.modThread_pending (s : State) (u tid : Nat) (f : Thread → Thread) :
    (s.modThread u tid f).pending = s.pending := by unfold State.modThread; repeat' (first | rfl | split)
@[simp] theorem State.modThread_sent (s : State) (u tid : Nat) (f : Thread → Thread) :
    (s.modThread u tid f).sent = s.sent := by unfold State.modThread; repeat' (first | rfl | split)
@[simp] theorem State.modThread_faults (s : State) (u tid : Nat) (f : Thread → Thread) :
    (s.modThread u tid f).faults = s.faults := by unfold State.modThread; repeat' (first | rfl | split)
@[simp] theorem State.modThread_watches (s : State) (u tid : Nat) (f : Thread → Thread) :
    (s.modThread u tid f).watches = s.watches := by unfold State.modThread; repeat' (first | rfl | split)
@[simp] theorem State.modThread_traceHeld (s : State) (u tid : Nat) (f : Thread → Thread) :
    (s.modThread u tid f).traceHeld = s.traceHeld := by unfold State.modThread; repeat' (first | rfl | split)
@[simp] theorem State.modThread_counters (s : State) (u tid : Nat) (f : Thread → Thread) :
    (s.modThread u tid f).counters = s.counters := by unfold State.modThread; repeat' (first | rfl | split)
@[simp] theorem State.modThread_corrected (s : State) (u tid : Nat) (f : Thread → Thread) :
    (s.modThread u tid f).corrected = s.corrected := by unfold State.modThread; repeat' (first | rfl | split)

/-! ## A free choice -/

@[simp] theorem State.pick_agenda (s : State) (n : Nat) :
    ((s.pick n).2).agenda = s.agenda := by unfold State.pick; split <;> rfl
@[simp] theorem State.pick_arrived (s : State) (n : Nat) :
    ((s.pick n).2).arrived = s.arrived := by unfold State.pick; split <;> rfl
@[simp] theorem State.pick_issue (s : State) (n : Nat) :
    ((s.pick n).2).issue = s.issue := by unfold State.pick; split <;> rfl
@[simp] theorem State.pick_uids (s : State) (n : Nat) :
    ((s.pick n).2).uids = s.uids := by unfold State.pick; split <;> rfl
@[simp] theorem State.pick_now (s : State) (n : Nat) :
    ((s.pick n).2).now = s.now := by unfold State.pick; split <;> rfl
@[simp] theorem State.pick_ahead (s : State) (n : Nat) :
    ((s.pick n).2).ahead = s.ahead := by unfold State.pick; split <;> rfl
@[simp] theorem State.pick_power (s : State) (n : Nat) :
    ((s.pick n).2).power = s.power := by unfold State.pick; split <;> rfl
@[simp] theorem State.pick_stopped (s : State) (n : Nat) :
    ((s.pick n).2).stopped = s.stopped := by unfold State.pick; split <;> rfl
@[simp] theorem State.pick_stopAt (s : State) (n : Nat) :
    ((s.pick n).2).stopAt = s.stopAt := by unfold State.pick; split <;> rfl
@[simp] theorem State.pick_module (s : State) (n : Nat) :
    ((s.pick n).2).module = s.module := by unfold State.pick; split <;> rfl
@[simp] theorem State.pick_mode (s : State) (n : Nat) :
    ((s.pick n).2).mode = s.mode := by unfold State.pick; split <;> rfl
@[simp] theorem State.pick_clockLevel (s : State) (n : Nat) :
    ((s.pick n).2).clockLevel = s.clockLevel := by unfold State.pick; split <;> rfl
@[simp] theorem State.pick_ppm (s : State) (n : Nat) :
    ((s.pick n).2).ppm = s.ppm := by unfold State.pick; split <;> rfl
@[simp] theorem State.pick_down (s : State) (n : Nat) :
    ((s.pick n).2).down = s.down := by unfold State.pick; split <;> rfl
@[simp] theorem State.pick_secretLocked (s : State) (n : Nat) :
    ((s.pick n).2).secretLocked = s.secretLocked := by unfold State.pick; split <;> rfl
@[simp] theorem State.pick_minSvn (s : State) (n : Nat) :
    ((s.pick n).2).minSvn = s.minSvn := by unfold State.pick; split <;> rfl
@[simp] theorem State.pick_staging (s : State) (n : Nat) :
    ((s.pick n).2).staging = s.staging := by unfold State.pick; split <;> rfl
@[simp] theorem State.pick_verified (s : State) (n : Nat) :
    ((s.pick n).2).verified = s.verified := by unfold State.pick; split <;> rfl
@[simp] theorem State.pick_hello (s : State) (n : Nat) :
    ((s.pick n).2).hello = s.hello := by unfold State.pick; split <;> rfl
@[simp] theorem State.pick_host (s : State) (n : Nat) :
    ((s.pick n).2).host = s.host := by unfold State.pick; split <;> rfl
@[simp] theorem State.pick_session (s : State) (n : Nat) :
    ((s.pick n).2).session = s.session := by unfold State.pick; split <;> rfl
@[simp] theorem State.pick_caller (s : State) (n : Nat) :
    ((s.pick n).2).caller = s.caller := by unfold State.pick; split <;> rfl
@[simp] theorem State.pick_mute (s : State) (n : Nat) :
    ((s.pick n).2).mute = s.mute := by unfold State.pick; split <;> rfl
@[simp] theorem State.pick_aborts (s : State) (n : Nat) :
    ((s.pick n).2).aborts = s.aborts := by unfold State.pick; split <;> rfl
@[simp] theorem State.pick_droppedFrames (s : State) (n : Nat) :
    ((s.pick n).2).droppedFrames = s.droppedFrames := by unfold State.pick; split <;> rfl
@[simp] theorem State.pick_keyDraws (s : State) (n : Nat) :
    ((s.pick n).2).keyDraws = s.keyDraws := by unfold State.pick; split <;> rfl
@[simp] theorem State.pick_contexts (s : State) (n : Nat) :
    ((s.pick n).2).contexts = s.contexts := by unfold State.pick; split <;> rfl
@[simp] theorem State.pick_queues (s : State) (n : Nat) :
    ((s.pick n).2).queues = s.queues := by unfold State.pick; split <;> rfl
@[simp] theorem State.pick_launches (s : State) (n : Nat) :
    ((s.pick n).2).launches = s.launches := by unfold State.pick; split <;> rfl
@[simp] theorem State.pick_ages (s : State) (n : Nat) :
    ((s.pick n).2).ages = s.ages := by unfold State.pick; split <;> rfl
@[simp] theorem State.pick_pointers (s : State) (n : Nat) :
    ((s.pick n).2).pointers = s.pointers := by unfold State.pick; split <;> rfl
@[simp] theorem State.pick_held (s : State) (n : Nat) :
    ((s.pick n).2).held = s.held := by unfold State.pick; split <;> rfl
@[simp] theorem State.pick_corePointers (s : State) (n : Nat) :
    ((s.pick n).2).corePointers = s.corePointers := by unfold State.pick; split <;> rfl
@[simp] theorem State.pick_workgroups (s : State) (n : Nat) :
    ((s.pick n).2).workgroups = s.workgroups := by unfold State.pick; split <;> rfl
@[simp] theorem State.pick_pontils (s : State) (n : Nat) :
    ((s.pick n).2).pontils = s.pontils := by unfold State.pick; split <;> rfl
@[simp] theorem State.pick_arrivals (s : State) (n : Nat) :
    ((s.pick n).2).arrivals = s.arrivals := by unfold State.pick; split <;> rfl
@[simp] theorem State.pick_ops (s : State) (n : Nat) :
    ((s.pick n).2).ops = s.ops := by unfold State.pick; split <;> rfl
@[simp] theorem State.pick_ends (s : State) (n : Nat) :
    ((s.pick n).2).ends = s.ends := by unfold State.pick; split <;> rfl
@[simp] theorem State.pick_groups (s : State) (n : Nat) :
    ((s.pick n).2).groups = s.groups := by unfold State.pick; split <;> rfl
@[simp] theorem State.pick_mem (s : State) (n : Nat) :
    ((s.pick n).2).mem = s.mem := by unfold State.pick; split <;> rfl
@[simp] theorem State.pick_hist (s : State) (n : Nat) :
    ((s.pick n).2).hist = s.hist := by unfold State.pick; split <;> rfl
@[simp] theorem State.pick_nextWrite (s : State) (n : Nat) :
    ((s.pick n).2).nextWrite = s.nextWrite := by unfold State.pick; split <;> rfl
@[simp] theorem State.pick_scFences (s : State) (n : Nat) :
    ((s.pick n).2).scFences = s.scFences := by unfold State.pick; split <;> rfl
@[simp] theorem State.pick_pointSeen (s : State) (n : Nat) :
    ((s.pick n).2).pointSeen = s.pointSeen := by unfold State.pick; split <;> rfl
@[simp] theorem State.pick_full (s : State) (n : Nat) :
    ((s.pick n).2).full = s.full := by unfold State.pick; split <;> rfl
@[simp] theorem State.pick_fullRels (s : State) (n : Nat) :
    ((s.pick n).2).fullRels = s.fullRels := by unfold State.pick; split <;> rfl
@[simp] theorem State.pick_poison (s : State) (n : Nat) :
    ((s.pick n).2).poison = s.poison := by unfold State.pick; split <;> rfl
@[simp] theorem State.pick_tlb (s : State) (n : Nat) :
    ((s.pick n).2).tlb = s.tlb := by unfold State.pick; split <;> rfl
@[simp] theorem State.pick_invalidated (s : State) (n : Nat) :
    ((s.pick n).2).invalidated = s.invalidated := by unfold State.pick; split <;> rfl
@[simp] theorem State.pick_entryCache (s : State) (n : Nat) :
    ((s.pick n).2).entryCache = s.entryCache := by unfold State.pick; split <;> rfl
@[simp] theorem State.pick_dirtyLines (s : State) (n : Nat) :
    ((s.pick n).2).dirtyLines = s.dirtyLines := by unfold State.pick; split <;> rfl
@[simp] theorem State.pick_hostView (s : State) (n : Nat) :
    ((s.pick n).2).hostView = s.hostView := by unfold State.pick; split <;> rfl
@[simp] theorem State.pick_roots (s : State) (n : Nat) :
    ((s.pick n).2).roots = s.roots := by unfold State.pick; split <;> rfl
@[simp] theorem State.pick_mcbs (s : State) (n : Nat) :
    ((s.pick n).2).mcbs = s.mcbs := by unfold State.pick; split <;> rfl
@[simp] theorem State.pick_pageCounts (s : State) (n : Nat) :
    ((s.pick n).2).pageCounts = s.pageCounts := by unfold State.pick; split <;> rfl
@[simp] theorem State.pick_moveLogs (s : State) (n : Nat) :
    ((s.pick n).2).moveLogs = s.moveLogs := by unfold State.pick; split <;> rfl
@[simp] theorem State.pick_moves (s : State) (n : Nat) :
    ((s.pick n).2).moves = s.moves := by unfold State.pick; split <;> rfl
@[simp] theorem State.pick_windowEnds (s : State) (n : Nat) :
    ((s.pick n).2).windowEnds = s.windowEnds := by unfold State.pick; split <;> rfl
@[simp] theorem State.pick_minors (s : State) (n : Nat) :
    ((s.pick n).2).minors = s.minors := by unfold State.pick; split <;> rfl
@[simp] theorem State.pick_majors (s : State) (n : Nat) :
    ((s.pick n).2).majors = s.majors := by unfold State.pick; split <;> rfl
@[simp] theorem State.pick_reencrypting (s : State) (n : Nat) :
    ((s.pick n).2).reencrypting = s.reencrypting := by unfold State.pick; split <;> rfl
@[simp] theorem State.pick_reencrypted (s : State) (n : Nat) :
    ((s.pick n).2).reencrypted = s.reencrypted := by unfold State.pick; split <;> rfl
@[simp] theorem State.pick_tree (s : State) (n : Nat) :
    ((s.pick n).2).tree = s.tree := by unfold State.pick; split <;> rfl
@[simp] theorem State.pick_espVault (s : State) (n : Nat) :
    ((s.pick n).2).espVault = s.espVault := by unfold State.pick; split <;> rfl
@[simp] theorem State.pick_ports (s : State) (n : Nat) :
    ((s.pick n).2).ports = s.ports := by unfold State.pick; split <;> rfl
@[simp] theorem State.pick_peers (s : State) (n : Nat) :
    ((s.pick n).2).peers = s.peers := by unfold State.pick; split <;> rfl
@[simp] theorem State.pick_outbox (s : State) (n : Nat) :
    ((s.pick n).2).outbox = s.outbox := by unfold State.pick; split <;> rfl
@[simp] theorem State.pick_linkOut (s : State) (n : Nat) :
    ((s.pick n).2).linkOut = s.linkOut := by unfold State.pick; split <;> rfl
@[simp] theorem State.pick_sources (s : State) (n : Nat) :
    ((s.pick n).2).sources = s.sources := by unfold State.pick; split <;> rfl
@[simp] theorem State.pick_pending (s : State) (n : Nat) :
    ((s.pick n).2).pending = s.pending := by unfold State.pick; split <;> rfl
@[simp] theorem State.pick_sent (s : State) (n : Nat) :
    ((s.pick n).2).sent = s.sent := by unfold State.pick; split <;> rfl
@[simp] theorem State.pick_faults (s : State) (n : Nat) :
    ((s.pick n).2).faults = s.faults := by unfold State.pick; split <;> rfl
@[simp] theorem State.pick_watches (s : State) (n : Nat) :
    ((s.pick n).2).watches = s.watches := by unfold State.pick; split <;> rfl
@[simp] theorem State.pick_traceHeld (s : State) (n : Nat) :
    ((s.pick n).2).traceHeld = s.traceHeld := by unfold State.pick; split <;> rfl
@[simp] theorem State.pick_counters (s : State) (n : Nat) :
    ((s.pick n).2).counters = s.counters := by unfold State.pick; split <;> rfl
@[simp] theorem State.pick_corrected (s : State) (n : Nat) :
    ((s.pick n).2).corrected = s.corrected := by unfold State.pick; split <;> rfl

/-! ## A counter -/

@[simp] theorem State.count_agenda (s : State) (die num n : Nat) :
    (s.count die num n).agenda = s.agenda := rfl
@[simp] theorem State.count_arrived (s : State) (die num n : Nat) :
    (s.count die num n).arrived = s.arrived := rfl
@[simp] theorem State.count_issue (s : State) (die num n : Nat) :
    (s.count die num n).issue = s.issue := rfl
@[simp] theorem State.count_choice (s : State) (die num n : Nat) :
    (s.count die num n).choice = s.choice := rfl
@[simp] theorem State.count_uids (s : State) (die num n : Nat) :
    (s.count die num n).uids = s.uids := rfl
@[simp] theorem State.count_now (s : State) (die num n : Nat) :
    (s.count die num n).now = s.now := rfl
@[simp] theorem State.count_ahead (s : State) (die num n : Nat) :
    (s.count die num n).ahead = s.ahead := rfl
@[simp] theorem State.count_power (s : State) (die num n : Nat) :
    (s.count die num n).power = s.power := rfl
@[simp] theorem State.count_stopped (s : State) (die num n : Nat) :
    (s.count die num n).stopped = s.stopped := rfl
@[simp] theorem State.count_stopAt (s : State) (die num n : Nat) :
    (s.count die num n).stopAt = s.stopAt := rfl
@[simp] theorem State.count_module (s : State) (die num n : Nat) :
    (s.count die num n).module = s.module := rfl
@[simp] theorem State.count_mode (s : State) (die num n : Nat) :
    (s.count die num n).mode = s.mode := rfl
@[simp] theorem State.count_clockLevel (s : State) (die num n : Nat) :
    (s.count die num n).clockLevel = s.clockLevel := rfl
@[simp] theorem State.count_ppm (s : State) (die num n : Nat) :
    (s.count die num n).ppm = s.ppm := rfl
@[simp] theorem State.count_down (s : State) (die num n : Nat) :
    (s.count die num n).down = s.down := rfl
@[simp] theorem State.count_secretLocked (s : State) (die num n : Nat) :
    (s.count die num n).secretLocked = s.secretLocked := rfl
@[simp] theorem State.count_minSvn (s : State) (die num n : Nat) :
    (s.count die num n).minSvn = s.minSvn := rfl
@[simp] theorem State.count_staging (s : State) (die num n : Nat) :
    (s.count die num n).staging = s.staging := rfl
@[simp] theorem State.count_verified (s : State) (die num n : Nat) :
    (s.count die num n).verified = s.verified := rfl
@[simp] theorem State.count_hello (s : State) (die num n : Nat) :
    (s.count die num n).hello = s.hello := rfl
@[simp] theorem State.count_host (s : State) (die num n : Nat) :
    (s.count die num n).host = s.host := rfl
@[simp] theorem State.count_session (s : State) (die num n : Nat) :
    (s.count die num n).session = s.session := rfl
@[simp] theorem State.count_caller (s : State) (die num n : Nat) :
    (s.count die num n).caller = s.caller := rfl
@[simp] theorem State.count_mute (s : State) (die num n : Nat) :
    (s.count die num n).mute = s.mute := rfl
@[simp] theorem State.count_aborts (s : State) (die num n : Nat) :
    (s.count die num n).aborts = s.aborts := rfl
@[simp] theorem State.count_droppedFrames (s : State) (die num n : Nat) :
    (s.count die num n).droppedFrames = s.droppedFrames := rfl
@[simp] theorem State.count_keyDraws (s : State) (die num n : Nat) :
    (s.count die num n).keyDraws = s.keyDraws := rfl
@[simp] theorem State.count_contexts (s : State) (die num n : Nat) :
    (s.count die num n).contexts = s.contexts := rfl
@[simp] theorem State.count_queues (s : State) (die num n : Nat) :
    (s.count die num n).queues = s.queues := rfl
@[simp] theorem State.count_launches (s : State) (die num n : Nat) :
    (s.count die num n).launches = s.launches := rfl
@[simp] theorem State.count_ages (s : State) (die num n : Nat) :
    (s.count die num n).ages = s.ages := rfl
@[simp] theorem State.count_pointers (s : State) (die num n : Nat) :
    (s.count die num n).pointers = s.pointers := rfl
@[simp] theorem State.count_held (s : State) (die num n : Nat) :
    (s.count die num n).held = s.held := rfl
@[simp] theorem State.count_corePointers (s : State) (die num n : Nat) :
    (s.count die num n).corePointers = s.corePointers := rfl
@[simp] theorem State.count_workgroups (s : State) (die num n : Nat) :
    (s.count die num n).workgroups = s.workgroups := rfl
@[simp] theorem State.count_pontils (s : State) (die num n : Nat) :
    (s.count die num n).pontils = s.pontils := rfl
@[simp] theorem State.count_arrivals (s : State) (die num n : Nat) :
    (s.count die num n).arrivals = s.arrivals := rfl
@[simp] theorem State.count_ops (s : State) (die num n : Nat) :
    (s.count die num n).ops = s.ops := rfl
@[simp] theorem State.count_ends (s : State) (die num n : Nat) :
    (s.count die num n).ends = s.ends := rfl
@[simp] theorem State.count_groups (s : State) (die num n : Nat) :
    (s.count die num n).groups = s.groups := rfl
@[simp] theorem State.count_mem (s : State) (die num n : Nat) :
    (s.count die num n).mem = s.mem := rfl
@[simp] theorem State.count_hist (s : State) (die num n : Nat) :
    (s.count die num n).hist = s.hist := rfl
@[simp] theorem State.count_nextWrite (s : State) (die num n : Nat) :
    (s.count die num n).nextWrite = s.nextWrite := rfl
@[simp] theorem State.count_scFences (s : State) (die num n : Nat) :
    (s.count die num n).scFences = s.scFences := rfl
@[simp] theorem State.count_pointSeen (s : State) (die num n : Nat) :
    (s.count die num n).pointSeen = s.pointSeen := rfl
@[simp] theorem State.count_full (s : State) (die num n : Nat) :
    (s.count die num n).full = s.full := rfl
@[simp] theorem State.count_fullRels (s : State) (die num n : Nat) :
    (s.count die num n).fullRels = s.fullRels := rfl
@[simp] theorem State.count_poison (s : State) (die num n : Nat) :
    (s.count die num n).poison = s.poison := rfl
@[simp] theorem State.count_tlb (s : State) (die num n : Nat) :
    (s.count die num n).tlb = s.tlb := rfl
@[simp] theorem State.count_invalidated (s : State) (die num n : Nat) :
    (s.count die num n).invalidated = s.invalidated := rfl
@[simp] theorem State.count_entryCache (s : State) (die num n : Nat) :
    (s.count die num n).entryCache = s.entryCache := rfl
@[simp] theorem State.count_dirtyLines (s : State) (die num n : Nat) :
    (s.count die num n).dirtyLines = s.dirtyLines := rfl
@[simp] theorem State.count_hostView (s : State) (die num n : Nat) :
    (s.count die num n).hostView = s.hostView := rfl
@[simp] theorem State.count_roots (s : State) (die num n : Nat) :
    (s.count die num n).roots = s.roots := rfl
@[simp] theorem State.count_mcbs (s : State) (die num n : Nat) :
    (s.count die num n).mcbs = s.mcbs := rfl
@[simp] theorem State.count_pageCounts (s : State) (die num n : Nat) :
    (s.count die num n).pageCounts = s.pageCounts := rfl
@[simp] theorem State.count_moveLogs (s : State) (die num n : Nat) :
    (s.count die num n).moveLogs = s.moveLogs := rfl
@[simp] theorem State.count_moves (s : State) (die num n : Nat) :
    (s.count die num n).moves = s.moves := rfl
@[simp] theorem State.count_windowEnds (s : State) (die num n : Nat) :
    (s.count die num n).windowEnds = s.windowEnds := rfl
@[simp] theorem State.count_minors (s : State) (die num n : Nat) :
    (s.count die num n).minors = s.minors := rfl
@[simp] theorem State.count_majors (s : State) (die num n : Nat) :
    (s.count die num n).majors = s.majors := rfl
@[simp] theorem State.count_reencrypting (s : State) (die num n : Nat) :
    (s.count die num n).reencrypting = s.reencrypting := rfl
@[simp] theorem State.count_reencrypted (s : State) (die num n : Nat) :
    (s.count die num n).reencrypted = s.reencrypted := rfl
@[simp] theorem State.count_tree (s : State) (die num n : Nat) :
    (s.count die num n).tree = s.tree := rfl
@[simp] theorem State.count_espVault (s : State) (die num n : Nat) :
    (s.count die num n).espVault = s.espVault := rfl
@[simp] theorem State.count_ports (s : State) (die num n : Nat) :
    (s.count die num n).ports = s.ports := rfl
@[simp] theorem State.count_peers (s : State) (die num n : Nat) :
    (s.count die num n).peers = s.peers := rfl
@[simp] theorem State.count_outbox (s : State) (die num n : Nat) :
    (s.count die num n).outbox = s.outbox := rfl
@[simp] theorem State.count_linkOut (s : State) (die num n : Nat) :
    (s.count die num n).linkOut = s.linkOut := rfl
@[simp] theorem State.count_sources (s : State) (die num n : Nat) :
    (s.count die num n).sources = s.sources := rfl
@[simp] theorem State.count_pending (s : State) (die num n : Nat) :
    (s.count die num n).pending = s.pending := rfl
@[simp] theorem State.count_sent (s : State) (die num n : Nat) :
    (s.count die num n).sent = s.sent := rfl
@[simp] theorem State.count_faults (s : State) (die num n : Nat) :
    (s.count die num n).faults = s.faults := rfl
@[simp] theorem State.count_watches (s : State) (die num n : Nat) :
    (s.count die num n).watches = s.watches := rfl
@[simp] theorem State.count_traceHeld (s : State) (die num n : Nat) :
    (s.count die num n).traceHeld = s.traceHeld := rfl
@[simp] theorem State.count_corrected (s : State) (die num n : Nat) :
    (s.count die num n).corrected = s.corrected := rfl

/-! ## An event record -/

@[simp] theorem State.emit_agenda (s : State) (unit kind die code ctx wgh detail : Nat) :
    (s.emit unit kind die code ctx wgh detail).agenda = s.agenda := by unfold State.emit; simp only []; split <;> rfl
@[simp] theorem State.emit_arrived (s : State) (unit kind die code ctx wgh detail : Nat) :
    (s.emit unit kind die code ctx wgh detail).arrived = s.arrived := by unfold State.emit; simp only []; split <;> rfl
@[simp] theorem State.emit_issue (s : State) (unit kind die code ctx wgh detail : Nat) :
    (s.emit unit kind die code ctx wgh detail).issue = s.issue := by unfold State.emit; simp only []; split <;> rfl
@[simp] theorem State.emit_choice (s : State) (unit kind die code ctx wgh detail : Nat) :
    (s.emit unit kind die code ctx wgh detail).choice = s.choice := by unfold State.emit; simp only []; split <;> rfl
@[simp] theorem State.emit_uids (s : State) (unit kind die code ctx wgh detail : Nat) :
    (s.emit unit kind die code ctx wgh detail).uids = s.uids := by unfold State.emit; simp only []; split <;> rfl
@[simp] theorem State.emit_now (s : State) (unit kind die code ctx wgh detail : Nat) :
    (s.emit unit kind die code ctx wgh detail).now = s.now := by unfold State.emit; simp only []; split <;> rfl
@[simp] theorem State.emit_ahead (s : State) (unit kind die code ctx wgh detail : Nat) :
    (s.emit unit kind die code ctx wgh detail).ahead = s.ahead := by unfold State.emit; simp only []; split <;> rfl
@[simp] theorem State.emit_power (s : State) (unit kind die code ctx wgh detail : Nat) :
    (s.emit unit kind die code ctx wgh detail).power = s.power := by unfold State.emit; simp only []; split <;> rfl
@[simp] theorem State.emit_stopped (s : State) (unit kind die code ctx wgh detail : Nat) :
    (s.emit unit kind die code ctx wgh detail).stopped = s.stopped := by unfold State.emit; simp only []; split <;> rfl
@[simp] theorem State.emit_stopAt (s : State) (unit kind die code ctx wgh detail : Nat) :
    (s.emit unit kind die code ctx wgh detail).stopAt = s.stopAt := by unfold State.emit; simp only []; split <;> rfl
@[simp] theorem State.emit_module (s : State) (unit kind die code ctx wgh detail : Nat) :
    (s.emit unit kind die code ctx wgh detail).module = s.module := by unfold State.emit; simp only []; split <;> rfl
@[simp] theorem State.emit_mode (s : State) (unit kind die code ctx wgh detail : Nat) :
    (s.emit unit kind die code ctx wgh detail).mode = s.mode := by unfold State.emit; simp only []; split <;> rfl
@[simp] theorem State.emit_clockLevel (s : State) (unit kind die code ctx wgh detail : Nat) :
    (s.emit unit kind die code ctx wgh detail).clockLevel = s.clockLevel := by unfold State.emit; simp only []; split <;> rfl
@[simp] theorem State.emit_ppm (s : State) (unit kind die code ctx wgh detail : Nat) :
    (s.emit unit kind die code ctx wgh detail).ppm = s.ppm := by unfold State.emit; simp only []; split <;> rfl
@[simp] theorem State.emit_down (s : State) (unit kind die code ctx wgh detail : Nat) :
    (s.emit unit kind die code ctx wgh detail).down = s.down := by unfold State.emit; simp only []; split <;> rfl
@[simp] theorem State.emit_secretLocked (s : State) (unit kind die code ctx wgh detail : Nat) :
    (s.emit unit kind die code ctx wgh detail).secretLocked = s.secretLocked := by unfold State.emit; simp only []; split <;> rfl
@[simp] theorem State.emit_minSvn (s : State) (unit kind die code ctx wgh detail : Nat) :
    (s.emit unit kind die code ctx wgh detail).minSvn = s.minSvn := by unfold State.emit; simp only []; split <;> rfl
@[simp] theorem State.emit_staging (s : State) (unit kind die code ctx wgh detail : Nat) :
    (s.emit unit kind die code ctx wgh detail).staging = s.staging := by unfold State.emit; simp only []; split <;> rfl
@[simp] theorem State.emit_verified (s : State) (unit kind die code ctx wgh detail : Nat) :
    (s.emit unit kind die code ctx wgh detail).verified = s.verified := by unfold State.emit; simp only []; split <;> rfl
@[simp] theorem State.emit_hello (s : State) (unit kind die code ctx wgh detail : Nat) :
    (s.emit unit kind die code ctx wgh detail).hello = s.hello := by unfold State.emit; simp only []; split <;> rfl
@[simp] theorem State.emit_host (s : State) (unit kind die code ctx wgh detail : Nat) :
    (s.emit unit kind die code ctx wgh detail).host = s.host := by unfold State.emit; simp only []; split <;> rfl
@[simp] theorem State.emit_session (s : State) (unit kind die code ctx wgh detail : Nat) :
    (s.emit unit kind die code ctx wgh detail).session = s.session := by unfold State.emit; simp only []; split <;> rfl
@[simp] theorem State.emit_caller (s : State) (unit kind die code ctx wgh detail : Nat) :
    (s.emit unit kind die code ctx wgh detail).caller = s.caller := by unfold State.emit; simp only []; split <;> rfl
@[simp] theorem State.emit_mute (s : State) (unit kind die code ctx wgh detail : Nat) :
    (s.emit unit kind die code ctx wgh detail).mute = s.mute := by unfold State.emit; simp only []; split <;> rfl
@[simp] theorem State.emit_aborts (s : State) (unit kind die code ctx wgh detail : Nat) :
    (s.emit unit kind die code ctx wgh detail).aborts = s.aborts := by unfold State.emit; simp only []; split <;> rfl
@[simp] theorem State.emit_droppedFrames (s : State) (unit kind die code ctx wgh detail : Nat) :
    (s.emit unit kind die code ctx wgh detail).droppedFrames = s.droppedFrames := by unfold State.emit; simp only []; split <;> rfl
@[simp] theorem State.emit_keyDraws (s : State) (unit kind die code ctx wgh detail : Nat) :
    (s.emit unit kind die code ctx wgh detail).keyDraws = s.keyDraws := by unfold State.emit; simp only []; split <;> rfl
@[simp] theorem State.emit_contexts (s : State) (unit kind die code ctx wgh detail : Nat) :
    (s.emit unit kind die code ctx wgh detail).contexts = s.contexts := by unfold State.emit; simp only []; split <;> rfl
@[simp] theorem State.emit_queues (s : State) (unit kind die code ctx wgh detail : Nat) :
    (s.emit unit kind die code ctx wgh detail).queues = s.queues := by unfold State.emit; simp only []; split <;> rfl
@[simp] theorem State.emit_launches (s : State) (unit kind die code ctx wgh detail : Nat) :
    (s.emit unit kind die code ctx wgh detail).launches = s.launches := by unfold State.emit; simp only []; split <;> rfl
@[simp] theorem State.emit_ages (s : State) (unit kind die code ctx wgh detail : Nat) :
    (s.emit unit kind die code ctx wgh detail).ages = s.ages := by unfold State.emit; simp only []; split <;> rfl
@[simp] theorem State.emit_pointers (s : State) (unit kind die code ctx wgh detail : Nat) :
    (s.emit unit kind die code ctx wgh detail).pointers = s.pointers := by unfold State.emit; simp only []; split <;> rfl
@[simp] theorem State.emit_held (s : State) (unit kind die code ctx wgh detail : Nat) :
    (s.emit unit kind die code ctx wgh detail).held = s.held := by unfold State.emit; simp only []; split <;> rfl
@[simp] theorem State.emit_corePointers (s : State) (unit kind die code ctx wgh detail : Nat) :
    (s.emit unit kind die code ctx wgh detail).corePointers = s.corePointers := by unfold State.emit; simp only []; split <;> rfl
@[simp] theorem State.emit_workgroups (s : State) (unit kind die code ctx wgh detail : Nat) :
    (s.emit unit kind die code ctx wgh detail).workgroups = s.workgroups := by unfold State.emit; simp only []; split <;> rfl
@[simp] theorem State.emit_pontils (s : State) (unit kind die code ctx wgh detail : Nat) :
    (s.emit unit kind die code ctx wgh detail).pontils = s.pontils := by unfold State.emit; simp only []; split <;> rfl
@[simp] theorem State.emit_arrivals (s : State) (unit kind die code ctx wgh detail : Nat) :
    (s.emit unit kind die code ctx wgh detail).arrivals = s.arrivals := by unfold State.emit; simp only []; split <;> rfl
@[simp] theorem State.emit_ops (s : State) (unit kind die code ctx wgh detail : Nat) :
    (s.emit unit kind die code ctx wgh detail).ops = s.ops := by unfold State.emit; simp only []; split <;> rfl
@[simp] theorem State.emit_ends (s : State) (unit kind die code ctx wgh detail : Nat) :
    (s.emit unit kind die code ctx wgh detail).ends = s.ends := by unfold State.emit; simp only []; split <;> rfl
@[simp] theorem State.emit_groups (s : State) (unit kind die code ctx wgh detail : Nat) :
    (s.emit unit kind die code ctx wgh detail).groups = s.groups := by unfold State.emit; simp only []; split <;> rfl
@[simp] theorem State.emit_mem (s : State) (unit kind die code ctx wgh detail : Nat) :
    (s.emit unit kind die code ctx wgh detail).mem = s.mem := by unfold State.emit; simp only []; split <;> rfl
@[simp] theorem State.emit_hist (s : State) (unit kind die code ctx wgh detail : Nat) :
    (s.emit unit kind die code ctx wgh detail).hist = s.hist := by unfold State.emit; simp only []; split <;> rfl
@[simp] theorem State.emit_nextWrite (s : State) (unit kind die code ctx wgh detail : Nat) :
    (s.emit unit kind die code ctx wgh detail).nextWrite = s.nextWrite := by unfold State.emit; simp only []; split <;> rfl
@[simp] theorem State.emit_scFences (s : State) (unit kind die code ctx wgh detail : Nat) :
    (s.emit unit kind die code ctx wgh detail).scFences = s.scFences := by unfold State.emit; simp only []; split <;> rfl
@[simp] theorem State.emit_pointSeen (s : State) (unit kind die code ctx wgh detail : Nat) :
    (s.emit unit kind die code ctx wgh detail).pointSeen = s.pointSeen := by unfold State.emit; simp only []; split <;> rfl
@[simp] theorem State.emit_full (s : State) (unit kind die code ctx wgh detail : Nat) :
    (s.emit unit kind die code ctx wgh detail).full = s.full := by unfold State.emit; simp only []; split <;> rfl
@[simp] theorem State.emit_fullRels (s : State) (unit kind die code ctx wgh detail : Nat) :
    (s.emit unit kind die code ctx wgh detail).fullRels = s.fullRels := by unfold State.emit; simp only []; split <;> rfl
@[simp] theorem State.emit_poison (s : State) (unit kind die code ctx wgh detail : Nat) :
    (s.emit unit kind die code ctx wgh detail).poison = s.poison := by unfold State.emit; simp only []; split <;> rfl
@[simp] theorem State.emit_tlb (s : State) (unit kind die code ctx wgh detail : Nat) :
    (s.emit unit kind die code ctx wgh detail).tlb = s.tlb := by unfold State.emit; simp only []; split <;> rfl
@[simp] theorem State.emit_invalidated (s : State) (unit kind die code ctx wgh detail : Nat) :
    (s.emit unit kind die code ctx wgh detail).invalidated = s.invalidated := by unfold State.emit; simp only []; split <;> rfl
@[simp] theorem State.emit_entryCache (s : State) (unit kind die code ctx wgh detail : Nat) :
    (s.emit unit kind die code ctx wgh detail).entryCache = s.entryCache := by unfold State.emit; simp only []; split <;> rfl
@[simp] theorem State.emit_dirtyLines (s : State) (unit kind die code ctx wgh detail : Nat) :
    (s.emit unit kind die code ctx wgh detail).dirtyLines = s.dirtyLines := by unfold State.emit; simp only []; split <;> rfl
@[simp] theorem State.emit_hostView (s : State) (unit kind die code ctx wgh detail : Nat) :
    (s.emit unit kind die code ctx wgh detail).hostView = s.hostView := by unfold State.emit; simp only []; split <;> rfl
@[simp] theorem State.emit_roots (s : State) (unit kind die code ctx wgh detail : Nat) :
    (s.emit unit kind die code ctx wgh detail).roots = s.roots := by unfold State.emit; simp only []; split <;> rfl
@[simp] theorem State.emit_mcbs (s : State) (unit kind die code ctx wgh detail : Nat) :
    (s.emit unit kind die code ctx wgh detail).mcbs = s.mcbs := by unfold State.emit; simp only []; split <;> rfl
@[simp] theorem State.emit_pageCounts (s : State) (unit kind die code ctx wgh detail : Nat) :
    (s.emit unit kind die code ctx wgh detail).pageCounts = s.pageCounts := by unfold State.emit; simp only []; split <;> rfl
@[simp] theorem State.emit_moveLogs (s : State) (unit kind die code ctx wgh detail : Nat) :
    (s.emit unit kind die code ctx wgh detail).moveLogs = s.moveLogs := by unfold State.emit; simp only []; split <;> rfl
@[simp] theorem State.emit_moves (s : State) (unit kind die code ctx wgh detail : Nat) :
    (s.emit unit kind die code ctx wgh detail).moves = s.moves := by unfold State.emit; simp only []; split <;> rfl
@[simp] theorem State.emit_windowEnds (s : State) (unit kind die code ctx wgh detail : Nat) :
    (s.emit unit kind die code ctx wgh detail).windowEnds = s.windowEnds := by unfold State.emit; simp only []; split <;> rfl
@[simp] theorem State.emit_minors (s : State) (unit kind die code ctx wgh detail : Nat) :
    (s.emit unit kind die code ctx wgh detail).minors = s.minors := by unfold State.emit; simp only []; split <;> rfl
@[simp] theorem State.emit_majors (s : State) (unit kind die code ctx wgh detail : Nat) :
    (s.emit unit kind die code ctx wgh detail).majors = s.majors := by unfold State.emit; simp only []; split <;> rfl
@[simp] theorem State.emit_reencrypting (s : State) (unit kind die code ctx wgh detail : Nat) :
    (s.emit unit kind die code ctx wgh detail).reencrypting = s.reencrypting := by unfold State.emit; simp only []; split <;> rfl
@[simp] theorem State.emit_reencrypted (s : State) (unit kind die code ctx wgh detail : Nat) :
    (s.emit unit kind die code ctx wgh detail).reencrypted = s.reencrypted := by unfold State.emit; simp only []; split <;> rfl
@[simp] theorem State.emit_tree (s : State) (unit kind die code ctx wgh detail : Nat) :
    (s.emit unit kind die code ctx wgh detail).tree = s.tree := by unfold State.emit; simp only []; split <;> rfl
@[simp] theorem State.emit_espVault (s : State) (unit kind die code ctx wgh detail : Nat) :
    (s.emit unit kind die code ctx wgh detail).espVault = s.espVault := by unfold State.emit; simp only []; split <;> rfl
@[simp] theorem State.emit_ports (s : State) (unit kind die code ctx wgh detail : Nat) :
    (s.emit unit kind die code ctx wgh detail).ports = s.ports := by unfold State.emit; simp only []; split <;> rfl
@[simp] theorem State.emit_peers (s : State) (unit kind die code ctx wgh detail : Nat) :
    (s.emit unit kind die code ctx wgh detail).peers = s.peers := by unfold State.emit; simp only []; split <;> rfl
@[simp] theorem State.emit_outbox (s : State) (unit kind die code ctx wgh detail : Nat) :
    (s.emit unit kind die code ctx wgh detail).outbox = s.outbox := by unfold State.emit; simp only []; split <;> rfl
@[simp] theorem State.emit_linkOut (s : State) (unit kind die code ctx wgh detail : Nat) :
    (s.emit unit kind die code ctx wgh detail).linkOut = s.linkOut := by unfold State.emit; simp only []; split <;> rfl
@[simp] theorem State.emit_sent (s : State) (unit kind die code ctx wgh detail : Nat) :
    (s.emit unit kind die code ctx wgh detail).sent = s.sent := by unfold State.emit; simp only []; split <;> rfl
@[simp] theorem State.emit_faults (s : State) (unit kind die code ctx wgh detail : Nat) :
    (s.emit unit kind die code ctx wgh detail).faults = s.faults := by unfold State.emit; simp only []; split <;> rfl
@[simp] theorem State.emit_watches (s : State) (unit kind die code ctx wgh detail : Nat) :
    (s.emit unit kind die code ctx wgh detail).watches = s.watches := by unfold State.emit; simp only []; split <;> rfl
@[simp] theorem State.emit_traceHeld (s : State) (unit kind die code ctx wgh detail : Nat) :
    (s.emit unit kind die code ctx wgh detail).traceHeld = s.traceHeld := by unfold State.emit; simp only []; split <;> rfl
@[simp] theorem State.emit_counters (s : State) (unit kind die code ctx wgh detail : Nat) :
    (s.emit unit kind die code ctx wgh detail).counters = s.counters := by unfold State.emit; simp only []; split <;> rfl
@[simp] theorem State.emit_corrected (s : State) (unit kind die code ctx wgh detail : Nat) :
    (s.emit unit kind die code ctx wgh detail).corrected = s.corrected := by unfold State.emit; simp only []; split <;> rfl

/-! ## A launch changed -/

@[simp] theorem State.modLaunch_agenda (s : State) (u : Nat) (f : Launch → Launch) :
    (s.modLaunch u f).agenda = s.agenda := by unfold State.modLaunch; split <;> rfl
@[simp] theorem State.modLaunch_arrived (s : State) (u : Nat) (f : Launch → Launch) :
    (s.modLaunch u f).arrived = s.arrived := by unfold State.modLaunch; split <;> rfl
@[simp] theorem State.modLaunch_issue (s : State) (u : Nat) (f : Launch → Launch) :
    (s.modLaunch u f).issue = s.issue := by unfold State.modLaunch; split <;> rfl
@[simp] theorem State.modLaunch_choice (s : State) (u : Nat) (f : Launch → Launch) :
    (s.modLaunch u f).choice = s.choice := by unfold State.modLaunch; split <;> rfl
@[simp] theorem State.modLaunch_uids (s : State) (u : Nat) (f : Launch → Launch) :
    (s.modLaunch u f).uids = s.uids := by unfold State.modLaunch; split <;> rfl
@[simp] theorem State.modLaunch_now (s : State) (u : Nat) (f : Launch → Launch) :
    (s.modLaunch u f).now = s.now := by unfold State.modLaunch; split <;> rfl
@[simp] theorem State.modLaunch_ahead (s : State) (u : Nat) (f : Launch → Launch) :
    (s.modLaunch u f).ahead = s.ahead := by unfold State.modLaunch; split <;> rfl
@[simp] theorem State.modLaunch_power (s : State) (u : Nat) (f : Launch → Launch) :
    (s.modLaunch u f).power = s.power := by unfold State.modLaunch; split <;> rfl
@[simp] theorem State.modLaunch_stopped (s : State) (u : Nat) (f : Launch → Launch) :
    (s.modLaunch u f).stopped = s.stopped := by unfold State.modLaunch; split <;> rfl
@[simp] theorem State.modLaunch_stopAt (s : State) (u : Nat) (f : Launch → Launch) :
    (s.modLaunch u f).stopAt = s.stopAt := by unfold State.modLaunch; split <;> rfl
@[simp] theorem State.modLaunch_module (s : State) (u : Nat) (f : Launch → Launch) :
    (s.modLaunch u f).module = s.module := by unfold State.modLaunch; split <;> rfl
@[simp] theorem State.modLaunch_mode (s : State) (u : Nat) (f : Launch → Launch) :
    (s.modLaunch u f).mode = s.mode := by unfold State.modLaunch; split <;> rfl
@[simp] theorem State.modLaunch_clockLevel (s : State) (u : Nat) (f : Launch → Launch) :
    (s.modLaunch u f).clockLevel = s.clockLevel := by unfold State.modLaunch; split <;> rfl
@[simp] theorem State.modLaunch_ppm (s : State) (u : Nat) (f : Launch → Launch) :
    (s.modLaunch u f).ppm = s.ppm := by unfold State.modLaunch; split <;> rfl
@[simp] theorem State.modLaunch_down (s : State) (u : Nat) (f : Launch → Launch) :
    (s.modLaunch u f).down = s.down := by unfold State.modLaunch; split <;> rfl
@[simp] theorem State.modLaunch_secretLocked (s : State) (u : Nat) (f : Launch → Launch) :
    (s.modLaunch u f).secretLocked = s.secretLocked := by unfold State.modLaunch; split <;> rfl
@[simp] theorem State.modLaunch_minSvn (s : State) (u : Nat) (f : Launch → Launch) :
    (s.modLaunch u f).minSvn = s.minSvn := by unfold State.modLaunch; split <;> rfl
@[simp] theorem State.modLaunch_staging (s : State) (u : Nat) (f : Launch → Launch) :
    (s.modLaunch u f).staging = s.staging := by unfold State.modLaunch; split <;> rfl
@[simp] theorem State.modLaunch_verified (s : State) (u : Nat) (f : Launch → Launch) :
    (s.modLaunch u f).verified = s.verified := by unfold State.modLaunch; split <;> rfl
@[simp] theorem State.modLaunch_hello (s : State) (u : Nat) (f : Launch → Launch) :
    (s.modLaunch u f).hello = s.hello := by unfold State.modLaunch; split <;> rfl
@[simp] theorem State.modLaunch_host (s : State) (u : Nat) (f : Launch → Launch) :
    (s.modLaunch u f).host = s.host := by unfold State.modLaunch; split <;> rfl
@[simp] theorem State.modLaunch_session (s : State) (u : Nat) (f : Launch → Launch) :
    (s.modLaunch u f).session = s.session := by unfold State.modLaunch; split <;> rfl
@[simp] theorem State.modLaunch_caller (s : State) (u : Nat) (f : Launch → Launch) :
    (s.modLaunch u f).caller = s.caller := by unfold State.modLaunch; split <;> rfl
@[simp] theorem State.modLaunch_mute (s : State) (u : Nat) (f : Launch → Launch) :
    (s.modLaunch u f).mute = s.mute := by unfold State.modLaunch; split <;> rfl
@[simp] theorem State.modLaunch_aborts (s : State) (u : Nat) (f : Launch → Launch) :
    (s.modLaunch u f).aborts = s.aborts := by unfold State.modLaunch; split <;> rfl
@[simp] theorem State.modLaunch_droppedFrames (s : State) (u : Nat) (f : Launch → Launch) :
    (s.modLaunch u f).droppedFrames = s.droppedFrames := by unfold State.modLaunch; split <;> rfl
@[simp] theorem State.modLaunch_keyDraws (s : State) (u : Nat) (f : Launch → Launch) :
    (s.modLaunch u f).keyDraws = s.keyDraws := by unfold State.modLaunch; split <;> rfl
@[simp] theorem State.modLaunch_contexts (s : State) (u : Nat) (f : Launch → Launch) :
    (s.modLaunch u f).contexts = s.contexts := by unfold State.modLaunch; split <;> rfl
@[simp] theorem State.modLaunch_queues (s : State) (u : Nat) (f : Launch → Launch) :
    (s.modLaunch u f).queues = s.queues := by unfold State.modLaunch; split <;> rfl
@[simp] theorem State.modLaunch_ages (s : State) (u : Nat) (f : Launch → Launch) :
    (s.modLaunch u f).ages = s.ages := by unfold State.modLaunch; split <;> rfl
@[simp] theorem State.modLaunch_pointers (s : State) (u : Nat) (f : Launch → Launch) :
    (s.modLaunch u f).pointers = s.pointers := by unfold State.modLaunch; split <;> rfl
@[simp] theorem State.modLaunch_held (s : State) (u : Nat) (f : Launch → Launch) :
    (s.modLaunch u f).held = s.held := by unfold State.modLaunch; split <;> rfl
@[simp] theorem State.modLaunch_corePointers (s : State) (u : Nat) (f : Launch → Launch) :
    (s.modLaunch u f).corePointers = s.corePointers := by unfold State.modLaunch; split <;> rfl
@[simp] theorem State.modLaunch_workgroups (s : State) (u : Nat) (f : Launch → Launch) :
    (s.modLaunch u f).workgroups = s.workgroups := by unfold State.modLaunch; split <;> rfl
@[simp] theorem State.modLaunch_pontils (s : State) (u : Nat) (f : Launch → Launch) :
    (s.modLaunch u f).pontils = s.pontils := by unfold State.modLaunch; split <;> rfl
@[simp] theorem State.modLaunch_arrivals (s : State) (u : Nat) (f : Launch → Launch) :
    (s.modLaunch u f).arrivals = s.arrivals := by unfold State.modLaunch; split <;> rfl
@[simp] theorem State.modLaunch_ops (s : State) (u : Nat) (f : Launch → Launch) :
    (s.modLaunch u f).ops = s.ops := by unfold State.modLaunch; split <;> rfl
@[simp] theorem State.modLaunch_ends (s : State) (u : Nat) (f : Launch → Launch) :
    (s.modLaunch u f).ends = s.ends := by unfold State.modLaunch; split <;> rfl
@[simp] theorem State.modLaunch_groups (s : State) (u : Nat) (f : Launch → Launch) :
    (s.modLaunch u f).groups = s.groups := by unfold State.modLaunch; split <;> rfl
@[simp] theorem State.modLaunch_mem (s : State) (u : Nat) (f : Launch → Launch) :
    (s.modLaunch u f).mem = s.mem := by unfold State.modLaunch; split <;> rfl
@[simp] theorem State.modLaunch_hist (s : State) (u : Nat) (f : Launch → Launch) :
    (s.modLaunch u f).hist = s.hist := by unfold State.modLaunch; split <;> rfl
@[simp] theorem State.modLaunch_nextWrite (s : State) (u : Nat) (f : Launch → Launch) :
    (s.modLaunch u f).nextWrite = s.nextWrite := by unfold State.modLaunch; split <;> rfl
@[simp] theorem State.modLaunch_scFences (s : State) (u : Nat) (f : Launch → Launch) :
    (s.modLaunch u f).scFences = s.scFences := by unfold State.modLaunch; split <;> rfl
@[simp] theorem State.modLaunch_pointSeen (s : State) (u : Nat) (f : Launch → Launch) :
    (s.modLaunch u f).pointSeen = s.pointSeen := by unfold State.modLaunch; split <;> rfl
@[simp] theorem State.modLaunch_full (s : State) (u : Nat) (f : Launch → Launch) :
    (s.modLaunch u f).full = s.full := by unfold State.modLaunch; split <;> rfl
@[simp] theorem State.modLaunch_fullRels (s : State) (u : Nat) (f : Launch → Launch) :
    (s.modLaunch u f).fullRels = s.fullRels := by unfold State.modLaunch; split <;> rfl
@[simp] theorem State.modLaunch_poison (s : State) (u : Nat) (f : Launch → Launch) :
    (s.modLaunch u f).poison = s.poison := by unfold State.modLaunch; split <;> rfl
@[simp] theorem State.modLaunch_tlb (s : State) (u : Nat) (f : Launch → Launch) :
    (s.modLaunch u f).tlb = s.tlb := by unfold State.modLaunch; split <;> rfl
@[simp] theorem State.modLaunch_invalidated (s : State) (u : Nat) (f : Launch → Launch) :
    (s.modLaunch u f).invalidated = s.invalidated := by unfold State.modLaunch; split <;> rfl
@[simp] theorem State.modLaunch_entryCache (s : State) (u : Nat) (f : Launch → Launch) :
    (s.modLaunch u f).entryCache = s.entryCache := by unfold State.modLaunch; split <;> rfl
@[simp] theorem State.modLaunch_dirtyLines (s : State) (u : Nat) (f : Launch → Launch) :
    (s.modLaunch u f).dirtyLines = s.dirtyLines := by unfold State.modLaunch; split <;> rfl
@[simp] theorem State.modLaunch_hostView (s : State) (u : Nat) (f : Launch → Launch) :
    (s.modLaunch u f).hostView = s.hostView := by unfold State.modLaunch; split <;> rfl
@[simp] theorem State.modLaunch_roots (s : State) (u : Nat) (f : Launch → Launch) :
    (s.modLaunch u f).roots = s.roots := by unfold State.modLaunch; split <;> rfl
@[simp] theorem State.modLaunch_mcbs (s : State) (u : Nat) (f : Launch → Launch) :
    (s.modLaunch u f).mcbs = s.mcbs := by unfold State.modLaunch; split <;> rfl
@[simp] theorem State.modLaunch_pageCounts (s : State) (u : Nat) (f : Launch → Launch) :
    (s.modLaunch u f).pageCounts = s.pageCounts := by unfold State.modLaunch; split <;> rfl
@[simp] theorem State.modLaunch_moveLogs (s : State) (u : Nat) (f : Launch → Launch) :
    (s.modLaunch u f).moveLogs = s.moveLogs := by unfold State.modLaunch; split <;> rfl
@[simp] theorem State.modLaunch_moves (s : State) (u : Nat) (f : Launch → Launch) :
    (s.modLaunch u f).moves = s.moves := by unfold State.modLaunch; split <;> rfl
@[simp] theorem State.modLaunch_windowEnds (s : State) (u : Nat) (f : Launch → Launch) :
    (s.modLaunch u f).windowEnds = s.windowEnds := by unfold State.modLaunch; split <;> rfl
@[simp] theorem State.modLaunch_minors (s : State) (u : Nat) (f : Launch → Launch) :
    (s.modLaunch u f).minors = s.minors := by unfold State.modLaunch; split <;> rfl
@[simp] theorem State.modLaunch_majors (s : State) (u : Nat) (f : Launch → Launch) :
    (s.modLaunch u f).majors = s.majors := by unfold State.modLaunch; split <;> rfl
@[simp] theorem State.modLaunch_reencrypting (s : State) (u : Nat) (f : Launch → Launch) :
    (s.modLaunch u f).reencrypting = s.reencrypting := by unfold State.modLaunch; split <;> rfl
@[simp] theorem State.modLaunch_reencrypted (s : State) (u : Nat) (f : Launch → Launch) :
    (s.modLaunch u f).reencrypted = s.reencrypted := by unfold State.modLaunch; split <;> rfl
@[simp] theorem State.modLaunch_tree (s : State) (u : Nat) (f : Launch → Launch) :
    (s.modLaunch u f).tree = s.tree := by unfold State.modLaunch; split <;> rfl
@[simp] theorem State.modLaunch_espVault (s : State) (u : Nat) (f : Launch → Launch) :
    (s.modLaunch u f).espVault = s.espVault := by unfold State.modLaunch; split <;> rfl
@[simp] theorem State.modLaunch_ports (s : State) (u : Nat) (f : Launch → Launch) :
    (s.modLaunch u f).ports = s.ports := by unfold State.modLaunch; split <;> rfl
@[simp] theorem State.modLaunch_peers (s : State) (u : Nat) (f : Launch → Launch) :
    (s.modLaunch u f).peers = s.peers := by unfold State.modLaunch; split <;> rfl
@[simp] theorem State.modLaunch_outbox (s : State) (u : Nat) (f : Launch → Launch) :
    (s.modLaunch u f).outbox = s.outbox := by unfold State.modLaunch; split <;> rfl
@[simp] theorem State.modLaunch_linkOut (s : State) (u : Nat) (f : Launch → Launch) :
    (s.modLaunch u f).linkOut = s.linkOut := by unfold State.modLaunch; split <;> rfl
@[simp] theorem State.modLaunch_sources (s : State) (u : Nat) (f : Launch → Launch) :
    (s.modLaunch u f).sources = s.sources := by unfold State.modLaunch; split <;> rfl
@[simp] theorem State.modLaunch_pending (s : State) (u : Nat) (f : Launch → Launch) :
    (s.modLaunch u f).pending = s.pending := by unfold State.modLaunch; split <;> rfl
@[simp] theorem State.modLaunch_sent (s : State) (u : Nat) (f : Launch → Launch) :
    (s.modLaunch u f).sent = s.sent := by unfold State.modLaunch; split <;> rfl
@[simp] theorem State.modLaunch_faults (s : State) (u : Nat) (f : Launch → Launch) :
    (s.modLaunch u f).faults = s.faults := by unfold State.modLaunch; split <;> rfl
@[simp] theorem State.modLaunch_watches (s : State) (u : Nat) (f : Launch → Launch) :
    (s.modLaunch u f).watches = s.watches := by unfold State.modLaunch; split <;> rfl
@[simp] theorem State.modLaunch_traceHeld (s : State) (u : Nat) (f : Launch → Launch) :
    (s.modLaunch u f).traceHeld = s.traceHeld := by unfold State.modLaunch; split <;> rfl
@[simp] theorem State.modLaunch_counters (s : State) (u : Nat) (f : Launch → Launch) :
    (s.modLaunch u f).counters = s.counters := by unfold State.modLaunch; split <;> rfl
@[simp] theorem State.modLaunch_corrected (s : State) (u : Nat) (f : Launch → Launch) :
    (s.modLaunch u f).corrected = s.corrected := by unfold State.modLaunch; split <;> rfl

/-! ## Registers, predicates and view masks of a thread -/

@[simp] theorem Thread.setV_tid (t : Thread) (r : VReg) (x : Word) : (t.setV r x).tid = t.tid := by unfold Thread.setV; split <;> rfl
@[simp] theorem Thread.setV_pc (t : Thread) (r : VReg) (x : Word) : (t.setV r x).pc = t.pc := by unfold Thread.setV; split <;> rfl
@[simp] theorem Thread.setV_depth (t : Thread) (r : VReg) (x : Word) : (t.setV r x).depth = t.depth := by unfold Thread.setV; split <;> rfl
@[simp] theorem Thread.setV_parked (t : Thread) (r : VReg) (x : Word) : (t.setV r x).parked = t.parked := by unfold Thread.setV; split <;> rfl
@[simp] theorem Thread.setV_live (t : Thread) (r : VReg) (x : Word) : (t.setV r x).live = t.live := by unfold Thread.setV; split <;> rfl
@[simp] theorem Thread.setV_stall (t : Thread) (r : VReg) (x : Word) : (t.setV r x).stall = t.stall := by unfold Thread.setV; split <;> rfl
@[simp] theorem Thread.setV_wait (t : Thread) (r : VReg) (x : Word) : (t.setV r x).wait = t.wait := by unfold Thread.setV; split <;> rfl
@[simp] theorem Thread.setV_preds (t : Thread) (r : VReg) (x : Word) : (t.setV r x).preds = t.preds := by unfold Thread.setV; split <;> rfl
@[simp] theorem Thread.setV_vms (t : Thread) (r : VReg) (x : Word) : (t.setV r x).vms = t.vms := by unfold Thread.setV; split <;> rfl
@[simp] theorem Thread.setV_fflags (t : Thread) (r : VReg) (x : Word) : (t.setV r x).fflags = t.fflags := by unfold Thread.setV; split <;> rfl
@[simp] theorem Thread.setV_windows (t : Thread) (r : VReg) (x : Word) : (t.setV r x).windows = t.windows := by unfold Thread.setV; split <;> rfl
@[simp] theorem Thread.setV_owed (t : Thread) (r : VReg) (x : Word) : (t.setV r x).owed = t.owed := by unfold Thread.setV; split <;> rfl
@[simp] theorem Thread.setV_trap (t : Thread) (r : VReg) (x : Word) : (t.setV r x).trap = t.trap := by unfold Thread.setV; split <;> rfl
@[simp] theorem Thread.setV_view (t : Thread) (r : VReg) (x : Word) : (t.setV r x).view = t.view := by unfold Thread.setV; split <;> rfl
@[simp] theorem Thread.setV_poisoned (t : Thread) (r : VReg) (x : Word) : (t.setV r x).poisoned = t.poisoned := by unfold Thread.setV; split <;> rfl

@[simp] theorem Thread.setP_tid (t : Thread) (r : PReg) (x : Bool) : (t.setP r x).tid = t.tid := rfl
@[simp] theorem Thread.setP_pc (t : Thread) (r : PReg) (x : Bool) : (t.setP r x).pc = t.pc := rfl
@[simp] theorem Thread.setP_depth (t : Thread) (r : PReg) (x : Bool) : (t.setP r x).depth = t.depth := rfl
@[simp] theorem Thread.setP_parked (t : Thread) (r : PReg) (x : Bool) : (t.setP r x).parked = t.parked := rfl
@[simp] theorem Thread.setP_live (t : Thread) (r : PReg) (x : Bool) : (t.setP r x).live = t.live := rfl
@[simp] theorem Thread.setP_stall (t : Thread) (r : PReg) (x : Bool) : (t.setP r x).stall = t.stall := rfl
@[simp] theorem Thread.setP_wait (t : Thread) (r : PReg) (x : Bool) : (t.setP r x).wait = t.wait := rfl
@[simp] theorem Thread.setP_regs (t : Thread) (r : PReg) (x : Bool) : (t.setP r x).regs = t.regs := rfl
@[simp] theorem Thread.setP_vms (t : Thread) (r : PReg) (x : Bool) : (t.setP r x).vms = t.vms := rfl
@[simp] theorem Thread.setP_fflags (t : Thread) (r : PReg) (x : Bool) : (t.setP r x).fflags = t.fflags := rfl
@[simp] theorem Thread.setP_windows (t : Thread) (r : PReg) (x : Bool) : (t.setP r x).windows = t.windows := rfl
@[simp] theorem Thread.setP_owed (t : Thread) (r : PReg) (x : Bool) : (t.setP r x).owed = t.owed := rfl
@[simp] theorem Thread.setP_trap (t : Thread) (r : PReg) (x : Bool) : (t.setP r x).trap = t.trap := rfl
@[simp] theorem Thread.setP_view (t : Thread) (r : PReg) (x : Bool) : (t.setP r x).view = t.view := rfl
@[simp] theorem Thread.setP_poisoned (t : Thread) (r : PReg) (x : Bool) : (t.setP r x).poisoned = t.poisoned := rfl

@[simp] theorem Thread.setVm_tid (t : Thread) (r : VmReg) (x : ViewMask) : (t.setVm r x).tid = t.tid := rfl
@[simp] theorem Thread.setVm_pc (t : Thread) (r : VmReg) (x : ViewMask) : (t.setVm r x).pc = t.pc := rfl
@[simp] theorem Thread.setVm_depth (t : Thread) (r : VmReg) (x : ViewMask) : (t.setVm r x).depth = t.depth := rfl
@[simp] theorem Thread.setVm_parked (t : Thread) (r : VmReg) (x : ViewMask) : (t.setVm r x).parked = t.parked := rfl
@[simp] theorem Thread.setVm_live (t : Thread) (r : VmReg) (x : ViewMask) : (t.setVm r x).live = t.live := rfl
@[simp] theorem Thread.setVm_stall (t : Thread) (r : VmReg) (x : ViewMask) : (t.setVm r x).stall = t.stall := rfl
@[simp] theorem Thread.setVm_wait (t : Thread) (r : VmReg) (x : ViewMask) : (t.setVm r x).wait = t.wait := rfl
@[simp] theorem Thread.setVm_regs (t : Thread) (r : VmReg) (x : ViewMask) : (t.setVm r x).regs = t.regs := rfl
@[simp] theorem Thread.setVm_preds (t : Thread) (r : VmReg) (x : ViewMask) : (t.setVm r x).preds = t.preds := rfl
@[simp] theorem Thread.setVm_fflags (t : Thread) (r : VmReg) (x : ViewMask) : (t.setVm r x).fflags = t.fflags := rfl
@[simp] theorem Thread.setVm_windows (t : Thread) (r : VmReg) (x : ViewMask) : (t.setVm r x).windows = t.windows := rfl
@[simp] theorem Thread.setVm_owed (t : Thread) (r : VmReg) (x : ViewMask) : (t.setVm r x).owed = t.owed := rfl
@[simp] theorem Thread.setVm_trap (t : Thread) (r : VmReg) (x : ViewMask) : (t.setVm r x).trap = t.trap := rfl
@[simp] theorem Thread.setVm_view (t : Thread) (r : VmReg) (x : ViewMask) : (t.setVm r x).view = t.view := rfl
@[simp] theorem Thread.setVm_poisoned (t : Thread) (r : VmReg) (x : ViewMask) : (t.setVm r x).poisoned = t.poisoned := rfl

@[simp] theorem Thread.mergeFlags_tid (t : Thread) (f : Flags) : (t.mergeFlags f).tid = t.tid := rfl
@[simp] theorem Thread.mergeFlags_pc (t : Thread) (f : Flags) : (t.mergeFlags f).pc = t.pc := rfl
@[simp] theorem Thread.mergeFlags_depth (t : Thread) (f : Flags) : (t.mergeFlags f).depth = t.depth := rfl
@[simp] theorem Thread.mergeFlags_parked (t : Thread) (f : Flags) : (t.mergeFlags f).parked = t.parked := rfl
@[simp] theorem Thread.mergeFlags_live (t : Thread) (f : Flags) : (t.mergeFlags f).live = t.live := rfl
@[simp] theorem Thread.mergeFlags_stall (t : Thread) (f : Flags) : (t.mergeFlags f).stall = t.stall := rfl
@[simp] theorem Thread.mergeFlags_wait (t : Thread) (f : Flags) : (t.mergeFlags f).wait = t.wait := rfl
@[simp] theorem Thread.mergeFlags_regs (t : Thread) (f : Flags) : (t.mergeFlags f).regs = t.regs := rfl
@[simp] theorem Thread.mergeFlags_preds (t : Thread) (f : Flags) : (t.mergeFlags f).preds = t.preds := rfl
@[simp] theorem Thread.mergeFlags_vms (t : Thread) (f : Flags) : (t.mergeFlags f).vms = t.vms := rfl
@[simp] theorem Thread.mergeFlags_windows (t : Thread) (f : Flags) : (t.mergeFlags f).windows = t.windows := rfl
@[simp] theorem Thread.mergeFlags_owed (t : Thread) (f : Flags) : (t.mergeFlags f).owed = t.owed := rfl
@[simp] theorem Thread.mergeFlags_trap (t : Thread) (f : Flags) : (t.mergeFlags f).trap = t.trap := rfl
@[simp] theorem Thread.mergeFlags_view (t : Thread) (f : Flags) : (t.mergeFlags f).view = t.view := rfl
@[simp] theorem Thread.mergeFlags_poisoned (t : Thread) (f : Flags) : (t.mergeFlags f).poisoned = t.poisoned := rfl

@[simp] theorem Workgroup.setThread_uid (g : Workgroup) (t : Thread) : (g.setThread t).uid = g.uid := rfl
@[simp] theorem Workgroup.setThread_core (g : Workgroup) (t : Thread) : (g.setThread t).core = g.core := rfl
@[simp] theorem Workgroup.setThread_slot (g : Workgroup) (t : Thread) : (g.setThread t).slot = g.slot := rfl
@[simp] theorem Workgroup.setThread_ctx (g : Workgroup) (t : Thread) : (g.setThread t).ctx = g.ctx := rfl
@[simp] theorem Workgroup.setThread_launch (g : Workgroup) (t : Thread) : (g.setThread t).launch = g.launch := rfl
@[simp] theorem Workgroup.setThread_index (g : Workgroup) (t : Thread) : (g.setThread t).index = g.index := rfl
@[simp] theorem Workgroup.setThread_size (g : Workgroup) (t : Thread) : (g.setThread t).size = g.size := rfl
@[simp] theorem Workgroup.setThread_nregs (g : Workgroup) (t : Thread) : (g.setThread t).nregs = g.nregs := rfl
@[simp] theorem Workgroup.setThread_fmts (g : Workgroup) (t : Thread) : (g.setThread t).fmts = g.fmts := rfl
@[simp] theorem Workgroup.setThread_placed (g : Workgroup) (t : Thread) : (g.setThread t).placed = g.placed := rfl
@[simp] theorem Workgroup.setThread_halted (g : Workgroup) (t : Thread) : (g.setThread t).halted = g.halted := rfl
@[simp] theorem Workgroup.setThread_disposed (g : Workgroup) (t : Thread) : (g.setThread t).disposed = g.disposed := rfl
@[simp] theorem Workgroup.setThread_formed (g : Workgroup) (t : Thread) : (g.setThread t).formed = g.formed := rfl

end Machine
end Sys2Proof
end

