-- ==== Sys2Proof/Laws/Memory.lean ====
section
/-! SUPPORT. Memory: what a write leaves at each location, and that every operation on memory keeps its canonical form. -/

namespace Sys2Proof
namespace Machine

/-! ## The list of cells -/

theorem memGet_below {m : List Host.Cell} {lo l : Nat} (h : memWfFrom lo m = true) (hl : l < lo) : memGet m l = unlisted := by
  cases m with
  | nil => rfl
  | cons c rest =>
    obtain ⟨a, b⟩ := c
    simp only [memWfFrom, Bool.and_eq_true, decide_eq_true_eq] at h
    have h1 : ¬ a = l := by omega
    have h2 : l < a := by omega
    simp [memGet, h1, h2]

/-- A canonical form from a higher address on is one from a lower. -/
theorem memWfFrom_mono {m : List Host.Cell} {lo lo' : Nat} (h : memWfFrom lo m = true) (hl : lo' ≤ lo) : memWfFrom lo' m = true := by
  cases m with
  | nil => rfl
  | cons c rest =>
    obtain ⟨a, b⟩ := c
    simp only [memWfFrom, Bool.and_eq_true, decide_eq_true_eq] at h ⊢
    exact ⟨⟨by omega, h.1.2⟩, h.2⟩

/-- A read after a write: the byte written at its location, and every other byte as before. -/
theorem memGet_memPut {m : List Host.Cell} {lo : Nat} (h : memWfFrom lo m = true) (loc l : Nat) (v : Byte) :
    memGet (memPut m loc v) l = if l = loc then v else memGet m l := by
  induction m generalizing lo with
  | nil =>
    by_cases hv : v = unlisted <;> by_cases hl : l = loc
    · simp [memPut, memGet, hv]
    · simp [memPut, memGet, hv]
    · simp [memPut, memGet, hv, hl]
    · have : ¬ loc = l := fun e => hl e.symm
      simp [memPut, memGet, hv, hl, this]
  | cons c rest ih =>
    obtain ⟨a, b⟩ := c
    simp only [memWfFrom, Bool.and_eq_true, decide_eq_true_eq] at h
    have hr := h.2
    by_cases h1 : a < loc
    · simp only [memPut, h1, if_true, memGet]
      by_cases h2 : a = l
      · have : ¬ l = loc := by omega
        simp [h2, this]
      · by_cases h3 : l < a
        · have : ¬ l = loc := by omega
          simp [h2, h3, this]
        · simp only [h2, if_false, h3, ih hr]
    · by_cases h2 : a = loc
      · subst h2
        by_cases hv : v = unlisted
        · simp only [memPut, lt_irrefl, if_false, hv, if_true, memGet]
          by_cases h3 : l = a
          · subst h3
            simp [memGet_below hr (Nat.lt_succ_self _)]
          · have h4 : ¬ a = l := fun e => h3 e.symm
            by_cases h5 : l < a
            · simp [h3, h4, h5, memGet_below hr (by omega : l < a + 1)]
            · simp [h3, h4, h5]
        · simp only [memPut, lt_irrefl, if_false, hv, if_true, memGet]
          by_cases h3 : l = a
          · simp [h3]
          · have h4 : ¬ a = l := fun e => h3 e.symm
            simp [h3, h4]
      · have h3 : loc < a := by omega
        by_cases hv : v = unlisted
        · simp only [memPut, h1, h2, if_false, hv, if_true, memGet]
          by_cases h4 : l = loc
          · have h5 : ¬ a = l := by omega
            have h6 : l < a := by omega
            simp [h4, h3, h2]
          · simp [h4]
        · simp only [memPut, h1, h2, if_false, hv, memGet]
          by_cases h4 : l = loc
          · simp [h4]
          · have h5 : ¬ loc = l := fun e => h4 e.symm
            simp only [h5, h4, if_false]
            by_cases h6 : l < loc
            · have h7 : ¬ a = l := by omega
              have h8 : l < a := by omega
              simp [h6, h7, h8]
            · simp [h6]

theorem memWfFrom_memPut {m : List Host.Cell} {lo loc : Nat} (h : memWfFrom lo m = true) (hl : lo ≤ loc) (v : Byte) :
    memWfFrom lo (memPut m loc v) = true := by
  induction m generalizing lo with
  | nil => by_cases hv : v = unlisted <;> simp [memPut, memWfFrom, hv, hl]
  | cons c rest ih =>
    obtain ⟨a, b⟩ := c
    have h' := h
    simp only [memWfFrom, Bool.and_eq_true, decide_eq_true_eq] at h
    by_cases h1 : a < loc
    · simp only [memPut, h1, if_true, memWfFrom, Bool.and_eq_true, decide_eq_true_eq]
      exact ⟨h.1, ih h.2 (by omega)⟩
    · by_cases h2 : a = loc
      · subst h2
        by_cases hv : v = unlisted
        · simp only [memPut, lt_irrefl, if_false, hv, if_true]
          exact memWfFrom_mono h.2 (by omega)
        · simp only [memPut, lt_irrefl, if_false, hv, if_true, memWfFrom, Bool.and_eq_true, decide_eq_true_eq, bne_iff_ne, ne_eq,
            not_false_eq_true, and_true]
          exact ⟨hl, h.2⟩
      · by_cases hv : v = unlisted
        · simp only [memPut, h1, h2, if_false, hv, if_true]
          exact h'
        · simp only [memPut, h1, h2, if_false, hv, memWfFrom, Bool.and_eq_true, decide_eq_true_eq, bne_iff_ne, ne_eq,
            not_false_eq_true, and_true]
          exact ⟨hl, ⟨by omega, by simpa using h.1.2⟩, h.2⟩

theorem memWf_memPut {m : List Host.Cell} (h : memWf m = true) (loc : Nat) (v : Byte) : memWf (memPut m loc v) = true :=
  memWfFrom_memPut h (Nat.zero_le _) v

theorem memWf_puts {α : Type} {m : List Host.Cell} (h : memWf m = true) (xs : List α) (f : α → Nat × Byte) :
    memWf (xs.foldl (fun m x => memPut m (f x).1 (f x).2) m) = true := by
  induction xs generalizing m with
  | nil => exact h
  | cons x xs ih => exact ih (memWf_memPut h _ _)

theorem memWfFrom_filter {m : List Host.Cell} {lo : Nat} (h : memWfFrom lo m = true) (p : Host.Cell → Bool) :
    memWfFrom lo (m.filter p) = true := by
  induction m generalizing lo with
  | nil => rfl
  | cons c rest ih =>
    obtain ⟨a, b⟩ := c
    simp only [memWfFrom, Bool.and_eq_true, decide_eq_true_eq] at h
    by_cases hp : p (a, b) = true
    · simp only [List.filter, hp, memWfFrom, Bool.and_eq_true, decide_eq_true_eq]
      exact ⟨h.1, ih h.2⟩
    · simp only [List.filter, hp]
      exact memWfFrom_mono (ih h.2) (by omega)

/-- Bytes written to distinct locations stand there afterwards; every other location is as before. -/
theorem memGet_puts {m : List Host.Cell} (h : memWf m = true) (xs : List (Nat × Byte)) (hd : (xs.map (·.1)).Nodup) (l : Nat) :
    memGet (xs.foldl (fun m p => memPut m p.1 p.2) m) l =
      match xs.find? (fun p => p.1 == l) with
      | some p => p.2
      | none => memGet m l := by
  induction xs generalizing m with
  | nil => rfl
  | cons x xs ih =>
    simp only [List.map_cons, List.nodup_cons] at hd
    rw [List.foldl_cons, ih (memWf_memPut h _ _) hd.2, List.find?_cons]
    by_cases hx : x.1 = l
    · have hn : xs.find? (fun p => p.1 == l) = none := by
        rw [List.find?_eq_none]
        intro y hy he
        have : y.1 = l := by simpa using he
        exact hd.1 (List.mem_map.2 ⟨y, hy, by rw [this, hx]⟩)
      simp [hx, hn, memGet_memPut h]
    · have hb : (x.1 == l) = false := by simpa using hx
      rw [hb]
      cases hf : xs.find? (fun p => p.1 == l) with
      | some p => rfl
      | none =>
        have hx' : ¬ l = x.1 := fun e => hx e.symm
        simp [memGet_memPut h, hx']

/-! ## Operations on the memory of a state -/

/-- A write on the record leaves the bytes it writes, and no other location changes. -/
theorem commit_peek {s : State} (h : memWf s.mem = true) (w : Writer) (kind : Option PageKind) (bytes : List (Nat × Byte))
    (v : MemView) (hd : (bytes.map (·.1)).Nodup) (l : Nat) :
    (commit s w kind bytes v).1.peek l =
      match bytes.find? (fun p => p.1 == l) with
      | some p => p.2
      | none => s.peek l := by
  unfold commit
  by_cases he : bytes.isEmpty = true
  · have : bytes = [] := by simpa using he
    subst this
    simp
  · rw [if_neg he]
    exact memGet_puts h bytes hd l

theorem commit_memWf {s : State} (h : memWf s.mem = true) (w : Writer) (kind : Option PageKind) (bytes : List (Nat × Byte))
    (v : MemView) : memWf (commit s w kind bytes v).1.mem = true := by
  unfold commit
  split
  · exact h
  · exact memWf_puts h bytes (fun p => (p.1, p.2))

/-- A fold of steps that keep the canonical form keeps it. -/
theorem foldl_memWf {α : Type} {f : State → α → State} (hf : ∀ s x, memWf s.mem = true → memWf (f s x).mem = true) {s : State}
    (h : memWf s.mem = true) (xs : List α) : memWf (xs.foldl f s).mem = true := by
  induction xs generalizing s with
  | nil => exact h
  | cons x xs ih => exact ih (hf s x h)

theorem dropRec_memWf {s : State} (h : memWf s.mem = true) (r : WriteRec) : memWf (dropRec s r).mem = true := by
  unfold dropRec
  apply foldl_memWf
  · intro s c hs
    split
    · exact hs
    · exact memWf_memPut hs _ _
  · exact h

theorem toEnd_memWf {s : State} (h : memWf s.mem = true) (r : WriteRec) : memWf (toEnd s r).mem = true :=
  memWf_puts (α := Nat × Byte) (dropRec_memWf h r) _ (fun p => (p.1, p.2))

theorem placeLoose_memWf (rs moved : List WriteRec) {s : State} (h : memWf s.mem = true) (ids : List Nat) :
    memWf (placeLoose rs moved s ids).1.mem = true := by
  induction rs generalizing moved s ids with
  | nil => exact h
  | cons r rs ih =>
    have hk : memWf (if moved.any (fun m => m.meets r (r.cells.map (·.loc))) then ((1 : Nat), s) else s.pick 2).2.mem = true := by
      split
      · exact h
      · rw [State.pick_mem]; exact h
    unfold placeLoose
    split
    · exact ih moved h ids
    · revert hk
      dsimp only
      generalize (if moved.any (fun m => m.meets r (r.cells.map (·.loc))) then ((1 : Nat), s) else s.pick 2) = k
      intro hk
      split
      · exact ih moved hk ids
      · exact ih _ (toEnd_memWf hk r) _

/-- A release of stores to UO pages (R78) moves writes in coherence order and keeps the canonical form. -/
theorem releaseUo_memWf {s : State} (h : memWf s.mem = true) (agent : Actor) (sc : Scope) (v : MemView) :
    memWf (releaseUo s agent sc v).1.mem = true := by
  unfold releaseUo
  split
  · exact h
  · dsimp only
    split <;> exact placeLoose_memWf _ _ h _

@[simp] theorem settleLoose_mem (s : State) : (settleLoose s).mem = s.mem := rfl

/-! ## Counters of far-tier lines leave memory as it is -/

@[simp] theorem reencrypt_mem (s : State) (r : Nat × Nat) : (reencrypt s r).mem = s.mem := rfl

@[simp] theorem reencryptNow_mem (s : State) (r : Nat × Nat) : (reencryptNow s r).mem = s.mem := by
  unfold reencryptNow; split <;> rfl

theorem foldl_mem {α : Type} {f : State → α → State} (hf : ∀ s x, (f s x).mem = s.mem) (xs : List α) (s : State) :
    (xs.foldl f s).mem = s.mem := by
  induction xs generalizing s with
  | nil => rfl
  | cons x xs ih => rw [List.foldl_cons, ih, hf]

@[simp] theorem resetNode_mem (s : State) (loc k : Nat) : (resetNode s loc k).mem = s.mem := by
  unfold resetNode
  split
  · exact foldl_mem (fun s r => reencryptNow_mem s r) _ _
  · rfl

@[simp] theorem bumpNode_mem (s : State) (loc k : Nat) : (bumpNode s loc k).mem = s.mem := rfl

@[simp] theorem bumpLine_mem (s : State) (loc : Nat) : (bumpLine s loc).mem = s.mem := by
  unfold bumpLine
  split
  · dsimp only
    rw [foldl_mem (fun s k => bumpNode_mem s loc (k + 1))]
    dsimp only
    split
    · rw [reencryptNow_mem, foldl_mem (fun s k => resetNode_mem s loc (k + 1))]
    · rw [foldl_mem (fun s k => resetNode_mem s loc (k + 1))]
  · rfl

/-- Bytes that die control writes stand in memory as a write leaves them. -/
theorem writeBytes_mem (s : State) (w : Writer) (loc : Nat) (bs : List Byte) :
    (writeBytes s w loc bs).mem =
      (commit s w none ((List.range bs.length).zip bs |>.map (fun p => (loc + p.1, p.2))) .empty).1.mem := by
  unfold writeBytes
  exact foldl_mem (fun s l => bumpLine_mem s l) _ _

theorem writeBytes_memWf {s : State} (h : memWf s.mem = true) (w : Writer) (loc : Nat) (bs : List Byte) :
    memWf (writeBytes s w loc bs).mem = true := by
  rw [writeBytes_mem]; exact commit_memWf h _ _ _ _

theorem copyFrame_memWf {m : List Host.Cell} (h : memWf m = true) (old new : Nat) : memWf (copyFrame m old new) = true := by
  unfold copyFrame
  exact memWf_puts (α := Host.Cell) (memWfFrom_filter h _) _ (fun c => (new + (c.1 - old), c.2))

theorem placeBytes_memWf {m : List Host.Cell} (h : memWf m = true) (loc : Nat) (bs : List Byte) :
    memWf (placeBytes m loc bs) = true := by
  unfold placeBytes
  exact memWf_puts (α := Nat × Byte) h _ (fun p => (loc + p.1, p.2))

theorem pokeNat_memWf {s : State} (h : memWf s.mem = true) (agent : Actor) (loc n x : Nat) :
    memWf (pokeNat s agent loc n x).mem = true := writeBytes_memWf h _ _ _

theorem orByte_memWf {s : State} (h : memWf s.mem = true) (loc x : Nat) : memWf (orByte s loc x).mem = true :=
  writeBytes_memWf h _ _ _

theorem reset_memWf : memWf State.reset.mem = true := rfl

theorem reset_peek (l : Nat) : State.reset.peek l = 0 := rfl

end Machine
end Sys2Proof
end

