-- ==== Sys2Proof/Laws/Trace.lean ====
section
/-! SUPPORT. What the records of a trace can change: memory and what goes with it, and no thread (R295, R296). -/

namespace Sys2Proof
namespace Machine

/-- Memory, its record, the counters of far-tier lines, counters of Table 20.10, what translations draw, the counts of pages, modified lines
the events of dirty bits, and the trace records that are held: nothing else differs. -/
def OnlyWrites (s s' : State) : Prop :=
  s' = { s with mem := s'.mem, hist := s'.hist, nextWrite := s'.nextWrite, minors := s'.minors, majors := s'.majors
                tree := s'.tree, reencrypting := s'.reencrypting, reencrypted := s'.reencrypted, counters := s'.counters, tlb := s'.tlb
                traceHeld := s'.traceHeld, choice := s'.choice, pageCounts := s'.pageCounts, dirtyLines := s'.dirtyLines, sources := s'.sources, pending := s'.pending }

theorem OnlyWrites.refl (s : State) : OnlyWrites s s := rfl

theorem OnlyWrites.trans {a b c : State} (h₁ : OnlyWrites a b) (h₂ : OnlyWrites b c) : OnlyWrites a c := by
  unfold OnlyWrites at *
  rw [h₁] at h₂
  exact h₂

theorem OnlyWrites.foldl {α : Type} {f : State → α → State} (hf : ∀ s x, OnlyWrites s (f s x)) (xs : List α) (s : State) :
    OnlyWrites s (xs.foldl f s) := by
  induction xs generalizing s with
  | nil => rfl
  | cons x xs ih => exact (hf s x).trans (ih _)

theorem OnlyWrites.thread? {a b : State} (h : OnlyWrites a b) (u tid : Nat) : b.thread? u tid = a.thread? u tid := by
  rw [h]; rfl

theorem OnlyWrites.wg? {a b : State} (h : OnlyWrites a b) (u : Nat) : b.wg? u = a.wg? u := by rw [h]; rfl

theorem OnlyWrites.pick (s : State) (n : Nat) : OnlyWrites s (s.pick n).2 := by
  unfold State.pick; split <;> rfl

theorem OnlyWrites.commit (s : State) (w : Writer) (kind : Option PageKind) (bytes : List (Nat × Byte)) (v : MemView) :
    OnlyWrites s (commit s w kind bytes v).1 := by
  unfold Machine.commit; split <;> rfl

theorem OnlyWrites.reencryptNow (s : State) (r : Nat × Nat) : OnlyWrites s (reencryptNow s r) := by
  unfold Machine.reencryptNow; split <;> rfl

theorem OnlyWrites.resetNode (s : State) (loc k : Nat) : OnlyWrites s (resetNode s loc k) := by
  unfold Machine.resetNode
  split
  · exact OnlyWrites.trans (OnlyWrites.foldl OnlyWrites.reencryptNow _ _) rfl
  · rfl

theorem OnlyWrites.bumpNode (s : State) (loc k : Nat) : OnlyWrites s (bumpNode s loc k) := rfl

theorem OnlyWrites.withMinors (s : State) (x : List LineCount) : OnlyWrites s { s with minors := x } := rfl

theorem OnlyWrites.bumpLine (s : State) (loc : Nat) : OnlyWrites s (bumpLine s loc) := by
  unfold Machine.bumpLine
  split
  · have h1 := OnlyWrites.foldl (fun s k => OnlyWrites.resetNode s loc (k + 1)) (List.range treeLevels) s
    revert h1
    dsimp only
    generalize (List.range treeLevels).foldl (fun s k => Machine.resetNode s loc (k + 1)) s = s1
    intro h1
    have h2 : OnlyWrites s1 (if s1.reencrypting.contains (regionOf loc) ∨ minorOf s1 loc = maxMinor then
        Machine.reencryptNow s1 (regionOf loc) else s1) := by
      split
      · exact OnlyWrites.reencryptNow _ _
      · rfl
    revert h2
    generalize (if s1.reencrypting.contains (regionOf loc) ∨ minorOf s1 loc = maxMinor then
        Machine.reencryptNow s1 (regionOf loc) else s1) = s2
    intro h2
    exact (h1.trans h2).trans ((OnlyWrites.withMinors s2 _).trans
      (OnlyWrites.foldl (fun s k => OnlyWrites.bumpNode s loc (k + 1)) _ _))
  · rfl

theorem OnlyWrites.writeBytes (s : State) (w : Writer) (loc : Nat) (bs : List Byte) : OnlyWrites s (writeBytes s w loc bs) :=
  OnlyWrites.trans (OnlyWrites.commit _ _ _ _ _) (OnlyWrites.foldl OnlyWrites.bumpLine _ _)

theorem OnlyWrites.pokeNat (s : State) (agent : Actor) (loc n x : Nat) : OnlyWrites s (pokeNat s agent loc n x) :=
  OnlyWrites.writeBytes ..

theorem OnlyWrites.translate {s s' : State} {ctx va : Nat} {p : Place} (h : translate s ctx va = .ok (p, s')) :
    OnlyWrites s s' := by
  unfold Machine.translate at h
  split at h
  · cases h; rfl
  · dsimp only at h
    split at h
    · cases h
    · split at h
      · split at h
        · cases h; rfl
        · cases h
      · unfold translatePaged at h
        split at h
        · cases h; rfl
        · split at h
          · cases h
          · cases h; rfl

theorem OnlyWrites.placesFrom {s s' : State} {ctx n va : Nat} {prev : Option Place} {ps : List Place}
    (h : placesFrom s ctx va n prev = .ok (ps, s')) : OnlyWrites s s' := by
  induction n generalizing s va prev ps with
  | zero => cases h; rfl
  | succ n ih =>
    unfold Machine.placesFrom at h
    dsimp only at h
    split at h
    · cases h
    · rename_i p t hp
      have h1 : OnlyWrites s t := by
        split at hp
        · split at hp
          · exact OnlyWrites.translate hp
          · cases hp; rfl
        · exact OnlyWrites.translate hp
      split at h
      · cases h
      · rename_i qs u hq
        cases h
        exact h1.trans (ih hq)

theorem OnlyWrites.places {s s' : State} {ctx va n : Nat} {ps : List Place} (h : places s ctx va n = .ok (ps, s')) :
    OnlyWrites s s' := OnlyWrites.placesFrom h

theorem OnlyWrites.writeParts (w : Writer) (ps : List (List (Place × Byte))) (s : State) (v : MemView) :
    OnlyWrites s (writeParts s w v ps).1 := by
  induction ps generalizing s v with
  | nil => rfl
  | cons p ps ih => exact OnlyWrites.trans (OnlyWrites.commit _ _ _ _ _) (ih _ _)

theorem OnlyWrites.count (s : State) (die num n : Nat) : OnlyWrites s (s.count die num n) := rfl

theorem OnlyWrites.emit (s : State) (unit kind die code ctx wgh detail : Nat) :
    OnlyWrites s (s.emit unit kind die code ctx wgh detail) := by
  unfold State.emit; dsimp only; split <;> rfl

theorem OnlyWrites.notePage (s : State) (die : Option Nat) (va : Nat) : OnlyWrites s (notePage s die va) := by
  unfold Machine.notePage
  split
  · rfl
  · split
    · split <;> rfl
    · rfl

theorem OnlyWrites.noteLines (s : State) (agent : Actor) (va : Nat) (ps : List Place) : OnlyWrites s (noteLines s agent va ps) :=
  OnlyWrites.foldl (fun s _ => OnlyWrites.notePage s _ _) _ _

theorem OnlyWrites.loseDirty (s : State) (die mcb : Nat) : OnlyWrites s (loseDirty s die mcb) :=
  (OnlyWrites.pokeNat ..).trans ((OnlyWrites.pick ..).trans (OnlyWrites.emit ..))

theorem OnlyWrites.setDirty (s : State) (va : Nat) : OnlyWrites s (setDirty s va) := by
  unfold Machine.setDirty
  dsimp only
  split
  · rfl
  · split
    · rfl
    · split
      · rename_i h
        exact (OnlyWrites.translate h).trans (OnlyWrites.writeBytes ..)
      · exact OnlyWrites.loseDirty ..

theorem OnlyWrites.reachFrame (s : State) (va : Nat) (loc : Option Nat) : OnlyWrites s (reachFrame s va loc) := by
  unfold Machine.reachFrame
  split
  · exact (OnlyWrites.bumpLine ..).trans (OnlyWrites.setDirty ..)
  · exact OnlyWrites.setDirty ..

theorem OnlyWrites.noteStore (s : State) (cache : Option Nat) (through : Bool) (va : Nat) (loc : Option Nat) :
    OnlyWrites s (noteStore s cache through va loc) := by
  unfold Machine.noteStore
  split
  · rfl
  · have h : OnlyWrites s (if through = true then ((0 : Nat), s) else s.pick 2).2 := by
      split
      · rfl
      · exact OnlyWrites.pick ..
    revert h
    generalize (if through = true then ((0 : Nat), s) else s.pick 2) = k
    obtain ⟨k, z⟩ := k
    intro h
    dsimp only at h ⊢
    split
    · exact h.trans (OnlyWrites.reachFrame ..)
    · exact h.trans rfl

theorem OnlyWrites.writeAt (s : State) (w : Writer) (v : MemView) (r : Reach) (va : Nat) (ps : List Place) (bs : List Byte) :
    OnlyWrites s (writeAt s w v r va ps bs).1 :=
  ((OnlyWrites.noteLines ..).trans (OnlyWrites.writeParts ..)).trans (OnlyWrites.foldl (fun s _ => OnlyWrites.noteStore s _ _ _ _) _ _)

theorem OnlyWrites.writeEntry (s : State) (die va n x : Nat) : OnlyWrites s (writeEntry s die va n x) := by
  unfold Machine.writeEntry
  split
  · rfl
  · rename_i h
    exact (OnlyWrites.places h).trans (OnlyWrites.writeAt ..)

theorem OnlyWrites.traceRecord (s : State) (die cb x : Nat) : OnlyWrites s (traceRecord s die cb x) := by
  unfold Machine.traceRecord
  dsimp only
  generalize (if s.peekNat (ownLoc die cb + 20) 4 + 1 = s.peekNat (ownLoc die cb + 16) 4 then 0
    else s.peekNat (ownLoc die cb + 20) 4 + 1) = next
  split
  · exact OnlyWrites.pokeNat ..
  · exact (OnlyWrites.writeEntry ..).trans (OnlyWrites.pokeNat ..)

theorem OnlyWrites.recordOrHold (s : State) (core : CoreId) (cb tick order x : Nat) :
    OnlyWrites s (recordOrHold s core cb tick order x) := by
  unfold Machine.recordOrHold
  split
  · rfl
  · exact OnlyWrites.traceRecord ..

theorem OnlyWrites.traceWarps (s : State) (g : Workgroup) (cb ty : Nat) (ts : List Thread) (data : Thread → Nat)
    (at' : Thread → Nat × Nat) : OnlyWrites s (traceWarps s g cb ty ts data at') := by
  unfold Machine.traceWarps
  refine OnlyWrites.foldl (fun s k => ?_) _ _
  split
  · rfl
  · exact OnlyWrites.recordOrHold ..

/-- The records of a gang's instruction, and of the codes its members raise, write memory only. -/
theorem OnlyWrites.traceGang (s : State) (g : Workgroup) (ms : List Thread) (i : Instr) : OnlyWrites s (traceGang s g ms i) := by
  unfold Machine.traceGang
  split
  · rfl
  · split
    · rfl
    · exact OnlyWrites.traceWarps ..

theorem OnlyWrites.traceRaised (a s : State) (u : Nat) : OnlyWrites s (traceRaised a s u) := by
  unfold Machine.traceRaised
  split
  · split
    · rfl
    · exact OnlyWrites.traceWarps ..
  · rfl

/-- The kinds of instruction that R296 records; every other leaves the trace alone. -/
theorem traceGang_none {s : State} {g : Workgroup} {ms : List Thread} {i : Instr} (h : traceType i = none) :
    traceGang s g ms i = s := by
  unfold traceGang; rw [h]

/-- With no trace of the context's codes on the die, none is written. -/
theorem traceRaised_off {a s : State} {u : Nat}
    (h : ∀ g, a.workgroups.find? (fun g => g.uid == u) = some g → traceOn s g.core.die.val g.ctx 4 = none) :
    traceRaised a s u = s := by
  unfold traceRaised
  split
  · rename_i g _ hg _
    rw [h g hg]
  · rfl

end Machine
end Sys2Proof
end

