-- ==== Sys2Proof/Laws/Gangs.lean ====
section
/-! SUPPORT. What a gang's instruction can do: the members of a gang, one member's part, and the run of instructions that
change nothing but their own threads. -/

namespace Sys2Proof
namespace Machine

/-! ## Finding and replacing -/

theorem find?_replaceFirst_same {α : Type} (p : α → Bool) (v : α) (l : List α) (x : α) (hv : p v = true)
    (h : l.find? p = some x) : (replaceFirst p v l).find? p = some v := by
  induction l with
  | nil => simp at h
  | cons a as ih =>
    unfold replaceFirst
    split
    · simp [hv]
    · simp_all

theorem find?_replaceFirst_other {α : Type} (p q : α → Bool) (v : α) (l : List α) (hv : q v = false)
    (hd : ∀ x, p x = true → q x = false) : (replaceFirst p v l).find? q = l.find? q := by
  induction l with
  | nil => rfl
  | cons a as ih =>
    unfold replaceFirst
    split
    · rename_i hp
      simp [hv, hd a hp]
    · simp only [List.find?_cons]
      split <;> simp_all

theorem State.wg?_uid {s : State} {u : Nat} {g : Workgroup} (h : s.wg? u = some g) : g.uid = u := by
  have := List.find?_some h
  simpa using this

theorem Workgroup.thread?_tid {g : Workgroup} {tid : Nat} {t : Thread} (h : g.thread? tid = some t) : t.tid = tid := by
  have := List.find?_some h
  simpa using this

theorem State.wg?_setWg_same {s : State} {g h : Workgroup} (hs : s.wg? g.uid = some h) : (s.setWg g).wg? g.uid = some g :=
  find?_replaceFirst_same _ _ _ h (by simp) hs

theorem State.wg?_setWg_other {s : State} {g : Workgroup} {u : Nat} (h : u ≠ g.uid) : (s.setWg g).wg? u = s.wg? u :=
  find?_replaceFirst_other _ _ _ _ (by simp; exact fun h' => h h'.symm)
    (fun x hx => by simp at hx ⊢; rw [hx]; exact fun h' => h h'.symm)

theorem Workgroup.thread?_setThread_same {g : Workgroup} {t u : Thread} (h : g.thread? t.tid = some u) :
    (g.setThread t).thread? t.tid = some t :=
  find?_replaceFirst_same _ _ _ u (by simp) h

theorem Workgroup.thread?_setThread_other {g : Workgroup} {t : Thread} {k : Nat} (h : k ≠ t.tid) :
    (g.setThread t).thread? k = g.thread? k :=
  find?_replaceFirst_other _ _ _ _ (by simp; exact fun h' => h h'.symm)
    (fun x hx => by simp at hx ⊢; rw [hx]; exact fun h' => h h'.symm)

/-- A thread that has been changed holds what `f` gives. -/
theorem State.thread?_modThread_same {s : State} {u tid : Nat} {f : Thread → Thread} {t : Thread}
    (h : s.thread? u tid = some t) (hf : (f t).tid = tid) : (s.modThread u tid f).thread? u tid = some (f t) := by
  unfold State.thread? at h
  split at h
  · rename_i g hg
    have hu := State.wg?_uid hg
    have ht : g.thread? (f t).tid = some t := by rw [hf]; exact h
    unfold State.modThread State.thread?
    rw [hg]; simp only [h]
    have h1 : (s.setWg (g.setThread (f t))).wg? u = some (g.setThread (f t)) := by
      have := State.wg?_setWg_same (s := s) (g := g.setThread (f t)) (h := g) (by simpa [hu] using hg)
      simpa [hu] using this
    rw [h1]; simp only []
    rw [← hf]; exact Workgroup.thread?_setThread_same ht
  · cases h

/-- Every other thread is as before. -/
theorem State.thread?_modThread_other {s : State} {u tid v k : Nat} {f : Thread → Thread}
    (hf : ∀ t, t.tid = tid → (f t).tid = tid) (h : v ≠ u ∨ k ≠ tid) :
    (s.modThread u tid f).thread? v k = s.thread? v k := by
  unfold State.modThread
  split
  · rfl
  · rename_i g hg
    have hu := State.wg?_uid hg
    split
    · rfl
    · rename_i t ht
      have htid := hf t (Workgroup.thread?_tid ht)
      by_cases hv : v = u
      · subst hv
        have hk : k ≠ tid := by rcases h with h | h; exact absurd rfl h; exact h
        unfold State.thread?
        have h1 : (s.setWg (g.setThread (f t))).wg? v = some (g.setThread (f t)) := by
          have := State.wg?_setWg_same (s := s) (g := g.setThread (f t)) (h := g) (by simpa [hu] using hg)
          simpa [hu] using this
        rw [h1, hg]
        exact Workgroup.thread?_setThread_other (by rw [htid]; exact hk)
      · unfold State.thread?
        rw [State.wg?_setWg_other (by simpa [hu] using hv)]

/-- A workgroup replaced by one with the same threads. -/
theorem State.thread?_setWg_threads {s : State} {g h : Workgroup} (hs : s.wg? h.uid = some g) (ht : h.threads = g.threads)
    (v k : Nat) : (s.setWg h).thread? v k = s.thread? v k := by
  unfold State.thread?
  by_cases hv : v = h.uid
  · subst hv
    rw [State.wg?_setWg_same hs, hs]
    simp [Workgroup.thread?, ht]
  · rw [State.wg?_setWg_other hv]

/-! ## States that differ in cores and events only -/

theorem OnlyCores.refl (s : State) : OnlyCores s s := rfl

theorem OnlyCores.trans {a b c : State} (h₁ : OnlyCores a b) (h₂ : OnlyCores b c) : OnlyCores a c := by
  unfold OnlyCores at *
  rw [h₁] at h₂
  exact h₂

theorem OnlyCores.modThread (s : State) (u tid : Nat) (f : Thread → Thread) : OnlyCores s (s.modThread u tid f) := by
  unfold OnlyCores State.modThread
  repeat' (first | rfl | split)

theorem OnlyCores.setWg (s : State) (g : Workgroup) : OnlyCores s (s.setWg g) := rfl

theorem OnlyCores.emit (s : State) (a b c d e f g : Nat) : OnlyCores s (s.emit a b c d e f g) := by
  unfold OnlyCores State.emit
  simp only []
  split <;> rfl

theorem OnlyCores.takeTrap (s : State) (u tid : Nat) (c : Code) (d : Word) : OnlyCores s (takeTrap s u tid c d) := by
  unfold Machine.takeTrap
  split
  · rfl
  · simp only []
    generalize hA : s.modThread u tid _ = A
    have hA' : OnlyCores s A := by rw [← hA]; exact OnlyCores.modThread ..
    refine OnlyCores.trans (OnlyCores.trans hA' ?_) (OnlyCores.emit _ _ _ _ _ _ _ _)
    split <;> rfl

theorem OnlyCores.peek {a b : State} (h : OnlyCores a b) : SameMemory a b := by
  intro l
  rw [h]; rfl

theorem OnlyCores.context? {a b : State} (h : OnlyCores a b) (c : Nat) : b.context? c = a.context? c := by
  rw [h]; rfl

theorem OnlyCores.gate {a b : State} (h : OnlyCores a b) (m : Member) (i : Instr) : gate b m i = gate a m i := by
  unfold Machine.gate checkCore State.isPriv State.isChecked
  simp [h.context?]

/-! ## A trap (R272) -/

theorem State.thread?_emit (s : State) (a b c d e f g u tid : Nat) :
    (s.emit a b c d e f g).thread? u tid = s.thread? u tid := by
  unfold State.thread? State.wg?
  simp

/-- The thread that raises a code keeps all it held, its program counter at the instruction. -/
theorem takeTrap_thread {s : State} {u tid : Nat} {t : Thread} (c : Code) (d : Word) (h : s.thread? u tid = some t) :
    (takeTrap s u tid c d).thread? u tid = some { t with trap := some (c, d), wait := none } := by
  have hm : ∃ g, s.wg? u = some g ∧ g.thread? tid = some t := by
    unfold State.thread? at h
    split at h
    · exact ⟨_, ‹_›, h⟩
    · cases h
  obtain ⟨g, hg, ht⟩ := hm
  unfold Machine.takeTrap
  rw [hg]; simp only []
  rw [State.thread?_emit]
  have h1 := State.thread?_modThread_same (f := fun t => { t with trap := some (c, d), wait := none }) h
    (show t.tid = tid from Workgroup.thread?_tid ht)
  split
  · rename_i g' hg'
    have hu := State.wg?_uid hg'
    have := State.thread?_setWg_threads (h := { g' with halted := true, formed := [] }) (g := g')
      (by simpa [hu] using hg') rfl u tid
    exact Eq.trans this h1
  · exact h1

theorem takeTrap_other {s : State} {u tid v k : Nat} (c : Code) (d : Word) (h : v ≠ u ∨ k ≠ tid) :
    (takeTrap s u tid c d).thread? v k = s.thread? v k := by
  unfold Machine.takeTrap
  split
  · rfl
  · simp only []
    rw [State.thread?_emit]
    have h1 := State.thread?_modThread_other (s := s) (u := u) (tid := tid) (v := v) (k := k)
      (f := fun t => { t with trap := some (c, d), wait := none }) (fun _ h => h) h
    split
    · rename_i g' hg'
      have hu := State.wg?_uid hg'
      have := State.thread?_setWg_threads (h := { g' with halted := true, formed := [] }) (g := g')
        (by simpa [hu] using hg') rfl v k
      exact Eq.trans this h1
    · exact h1

/-! ## The members of a gang -/

theorem mem_membersOf {g : Workgroup} {tids : List Nat} {m : Member} (h : m ∈ membersOf g tids) :
    m.wg = g ∧ m.gang = tids ∧ m.t.tid ∈ tids ∧ g.thread? m.t.tid = some m.t := by
  unfold membersOf at h
  simp only [List.mem_filterMap, Option.map_eq_some_iff] at h
  obtain ⟨l, -, t, ht, rfl⟩ := h
  have hp := List.find?_some ht
  simp only [Bool.and_eq_true, beq_iff_eq, List.contains_iff_mem] at hp
  refine ⟨rfl, rfl, hp.2, ?_⟩
  unfold Workgroup.thread?
  obtain ⟨-, as, bs, hl, hn⟩ := List.find?_eq_some_iff_append.1 ht
  refine List.find?_eq_some_iff_append.2 ⟨by simp, as, bs, hl, fun a ha => ?_⟩
  have := hn a ha
  simp only [Bool.not_eq_true', Bool.and_eq_false_iff] at this
  simp only [Bool.not_eq_true', beq_eq_false_iff_ne, ne_eq]
  intro he
  rcases this with h | h
  · have : a.lane = t.lane := by unfold Thread.lane; rw [he]
    simp [this, hp.1] at h
  · rw [he] at h
    simp [hp.2] at h

theorem membersOf_distinct (g : Workgroup) (tids : List Nat) :
    (membersOf g tids).Pairwise (fun a b => a.t.tid ≠ b.t.tid) := by
  unfold membersOf
  refine List.Pairwise.filterMap _ (R := fun (a b : Nat) => a ≠ b) ?_ (List.nodup_range)
  intro a a' hne b hb b' hb' he
  simp only [Option.map_eq_some_iff] at hb hb'
  obtain ⟨t, ht, rfl⟩ := hb
  obtain ⟨t', ht', rfl⟩ := hb'
  have h1 := List.find?_some ht
  have h2 := List.find?_some ht'
  simp only [Bool.and_eq_true, beq_iff_eq] at h1 h2
  have : t.lane = t'.lane := by unfold Thread.lane; rw [he]
  exact hne (by rw [← h1.1, ← h2.1, this])

/-- One thread alone. -/
theorem membersOf_one {g : Workgroup} {t : Thread} (h : g.thread? t.tid = some t) :
    membersOf g [t.tid] = [⟨g, t, [t.tid]⟩] := by
  have hlane : t.lane < 32 := Nat.mod_lt _ (by decide)
  have hall : ∀ l, (g.threads.find? (fun u => u.lane == l && [t.tid].contains u.tid)) =
      if l = t.lane then some t else none := by
    intro l
    by_cases hl : l = t.lane
    · subst hl
      rw [if_pos rfl, ← h]
      unfold Workgroup.thread?
      congr 1
      funext u
      simp only [List.contains_cons, List.contains_nil, Bool.or_false]
      by_cases hu : u.tid = t.tid
      · simp [hu, Thread.lane]
      · simp [hu]
    · rw [if_neg hl]
      simp only [List.find?_eq_none, Bool.and_eq_true, beq_iff_eq, not_and]
      intro u _ hul
      simp only [List.contains_cons, List.contains_nil, Bool.or_false, beq_iff_eq]
      intro hu
      exact hl (by rw [← hul]; unfold Thread.lane; rw [hu])
  unfold membersOf
  simp only [hall]
  have : ∀ n, t.lane < n → (List.range n).filterMap
      (fun l => (if l = t.lane then some t else none).map (fun t' => (⟨g, t', [t.tid]⟩ : Member))) = [⟨g, t, [t.tid]⟩] := by
    intro n
    induction n with
    | zero => intro h; exact absurd h (Nat.not_lt_zero _)
    | succ n ih =>
      intro hn
      rw [List.range_succ, List.filterMap_append]
      by_cases he : n = t.lane
      · have hz : (List.range n).filterMap
            (fun l => (if l = t.lane then some t else none).map (fun t' => (⟨g, t', [t.tid]⟩ : Member))) = [] := by
          rw [List.filterMap_eq_nil_iff]
          intro a ha
          have := List.mem_range.1 ha
          rw [if_neg (by omega)]; rfl
        rw [hz]; simp [he]
      · rw [ih (by omega)]; simp [he]
  exact this 32 hlane

/-! ## One member's part -/

/-- A member's instruction that changes nothing but its own thread. -/
def MRes.keeps (r : MRes) (m : Member) (s : State) : Prop :=
  match r with
  | .trap _ _ => True
  | .wait s' _ => s' = { s with uids := s'.uids }
  | .done s' _ => s' = s ∨ ∃ f : Thread → Thread, (∀ t, (f t).tid = t.tid) ∧ s' = s.modThread m.wg.uid m.t.tid f

/-- The thread of a member after its part: `f` is what the part does to it in place. -/
def memberAfter (i : Instr) (m : Member) (q : Except Code Bool) (r : MRes) (f : Thread → Thread) : Thread :=
  match q with
  | .error c => { m.t with trap := some (c, m.t.pc), wait := none }
  | .ok false => m.t.apply (stallOf i) {}
  | .ok true => match r with
    | .trap c d => { m.t with trap := some (c, d), wait := none }
    | .wait s w => { m.t with wait := some (m.waits s w), stall := stallOf i }
    | .done _ e => (f m.t).apply (stallOf i) e

theorem Thread.writeFixed_tid (l : Nat) (t : Thread) (w : RegWrite) : (t.writeFixed l w).tid = t.tid := by
  unfold Thread.writeFixed Thread.write
  cases w <;> simp

theorem Thread.foldl_writeFixed_tid (l : Nat) (ws : List RegWrite) (t : Thread) :
    (ws.foldl (fun t w => t.writeFixed l w) t).tid = t.tid := by
  induction ws generalizing t with
  | nil => rfl
  | cons w ws ih => simp [ih, Thread.writeFixed_tid]

theorem Thread.apply_tid (t : Thread) (n : Nat) (e : Effect) : (t.apply n e).tid = t.tid := by
  unfold Thread.apply
  simp only []
  split
  · simp [Thread.foldl_writeFixed_tid]
  · split <;> rfl

/-- What one member's part does, when it changes nothing but its own thread. -/
theorem stepMember_local {i : Instr} {body : Member → State → MRes} {s : State} {m : Member}
    (hk : (body m s).keeps m s) (ht : s.thread? m.wg.uid m.t.tid = some m.t) :
    OnlyCores s (stepMember i body s m) ∧
    (∀ v k, (v ≠ m.wg.uid ∨ k ≠ m.t.tid) → (stepMember i body s m).thread? v k = s.thread? v k) ∧
    ∃ f, (stepMember i body s m).thread? m.wg.uid m.t.tid = some (memberAfter i m (gate s m i) (body m s) f) ∧
      ((∀ s' e, body m s = .done s' e → s' = s) → f = id) := by
  unfold stepMember
  rcases hg : gate s m i with c | b
  · exact ⟨OnlyCores.takeTrap .., fun v k h => takeTrap_other _ _ h, id, takeTrap_thread _ _ ht, fun _ => rfl⟩
  · cases b
    · exact ⟨OnlyCores.modThread .., fun v k h => State.thread?_modThread_other
        (fun t h' => by rw [Thread.apply_tid]; exact h') h, id,
        State.thread?_modThread_same (f := fun t => t.apply (stallOf i) {}) ht (Thread.apply_tid ..), fun _ => rfl⟩
    · rcases hb : body m s with ⟨c, d⟩ | ⟨s', w⟩ | ⟨s', e⟩
      · exact ⟨OnlyCores.takeTrap .., fun v k h => takeTrap_other _ _ h, id, takeTrap_thread _ _ ht, fun _ => rfl⟩
      · rw [hb] at hk
        simp only [MRes.keeps] at hk
        refine ⟨OnlyCores.trans (b := s') ?_ (OnlyCores.modThread ..), fun v k h => ?_, id, ?_, fun _ => rfl⟩
        · rw [hk]; rfl
        · simp only []
          rw [State.thread?_modThread_other (f := fun t => { t with wait := some (m.waits s' w), stall := stallOf i }) (fun t h' => h') h,
            hk]; rfl
        · refine State.thread?_modThread_same (f := fun t => { t with wait := some (m.waits s' w), stall := stallOf i }) ?_ rfl
          rw [hk]; exact ht
      · rw [hb] at hk
        simp only [MRes.keeps] at hk
        rcases hk with rfl | ⟨f, hf, rfl⟩
        · exact ⟨OnlyCores.modThread .., fun v k h => State.thread?_modThread_other
            (fun t h' => by rw [Thread.apply_tid]; exact h') h, id,
            State.thread?_modThread_same (f := fun t => t.apply (stallOf i) e) ht (Thread.apply_tid ..), fun _ => rfl⟩
        · refine ⟨OnlyCores.trans (OnlyCores.modThread ..) (OnlyCores.modThread ..), fun v k h => ?_, ?_⟩
          · simp only []
            rw [State.thread?_modThread_other (fun t h' => by rw [Thread.apply_tid]; exact h') h,
              State.thread?_modThread_other (fun t h' => by rw [hf]; exact h') h]
          · have h1 := State.thread?_modThread_same ht (f := f) (by rw [hf])
            have h2 := State.thread?_modThread_same h1 (f := fun t => t.apply (stallOf i) e)
              (by rw [Thread.apply_tid, hf])
            by_cases hs : s.modThread m.wg.uid m.t.tid f = s
            · rw [hs] at h1
              have he : f m.t = m.t := by rw [ht] at h1; exact (Option.some.inj h1).symm
              exact ⟨id, by simp only []; rw [h2, he]; rfl, fun _ => rfl⟩
            · exact ⟨f, h2, fun h => absurd (h _ e rfl) hs⟩

/-- The members' parts in order. -/
theorem foldl_stepMember_local {i : Instr} {body : Member → State → MRes} (hk : ∀ m s, (body m s).keeps m s)
    (ms : List Member) (hd : ms.Pairwise (fun a b => a.t.tid ≠ b.t.tid)) (s : State)
    (hs : ∀ m ∈ ms, s.thread? m.wg.uid m.t.tid = some m.t) :
    OnlyCores s (ms.foldl (stepMember i body) s) ∧
    (∀ v k, (∀ m ∈ ms, v ≠ m.wg.uid ∨ k ≠ m.t.tid) → (ms.foldl (stepMember i body) s).thread? v k = s.thread? v k) ∧
    ∀ m ∈ ms, ∃ z f, OnlyCores s z ∧
      (ms.foldl (stepMember i body) s).thread? m.wg.uid m.t.tid = some (memberAfter i m (gate z m i) (body m z) f) ∧
      ((∀ s' e, body m z = .done s' e → s' = z) → f = id) := by
  induction ms generalizing s with
  | nil => exact ⟨rfl, fun _ _ _ => rfl, by simp⟩
  | cons a as ih =>
    obtain ⟨h1, h2, f, h3, h4⟩ := stepMember_local (i := i) (hk a s) (hs a (by simp))
    have hd' := List.pairwise_cons.1 hd
    obtain ⟨g1, g2, g3⟩ := ih hd'.2 (stepMember i body s a) (fun m hm => by
      rw [h2 _ _ (Or.inr (fun he => hd'.1 m hm he.symm))]
      exact hs m (by simp [hm]))
    refine ⟨h1.trans g1, fun v k h => ?_, fun m hm => ?_⟩
    · rw [List.foldl_cons, g2 v k (fun m hm => h m (by simp [hm])), h2 v k (h a (by simp))]
    · rcases List.mem_cons.1 hm with rfl | hm
      · refine ⟨s, f, rfl, ?_, h4⟩
        rw [List.foldl_cons, g2 _ _ (fun b hb => Or.inr (hd'.1 b hb))]
        exact h3
      · obtain ⟨z, f', hz, ht, hf⟩ := g3 m hm
        exact ⟨z, f', h1.trans hz, ht, hf⟩

/-! ## The run of a gang -/

/-- An instruction of a gang whose part at each member changes nothing but that member's thread: what it leaves is a state `y` in
which only threads differ, and after it the records of the codes raised. -/
theorem runCore_local {i : Instr} {body : Member → State → MRes} (hk : ∀ m s, (body m s).keeps m s)
    (ht : traceType i = none) {s : State} {m : Member} (hm : OnIssue s m) :
    ∃ y, runCore i body s = traceRaised s.popped y m.wg.uid ∧ OnlyCores s y ∧ OthersKept s y m ∧
    ∃ z f, OnlyCores s z ∧
      y.thread? m.wg.uid m.t.tid = some (memberAfter i m (gate s m i) (body m z) f) ∧
      ((∀ s' e, body m z = .done s' e → s' = z) → f = id) := by
  obtain ⟨⟨rest, hi⟩, hw, hmem, -⟩ := hm
  have hpop' : s.popped = { s with issue := rest } := by unfold State.popped; rw [hi]; rfl
  have hw' : s.popped.wg? m.wg.uid = some m.wg := hw
  have hrun : runCore i body s =
      traceRaised s.popped ((membersOf m.wg m.gang).foldl (stepMember i body) s.popped) m.wg.uid := by
    unfold runCore runShared runGang
    rw [hi]; simp only []
    rw [hpop'] at hw' ⊢
    rw [hw']; simp only []
    rw [traceGang_none ht]
  have hpop : OnlyCores s s.popped := rfl
  have hth : ∀ x ∈ membersOf m.wg m.gang, s.popped.thread? x.wg.uid x.t.tid = some x.t := by
    intro x hx
    obtain ⟨h1, -, -, h4⟩ := mem_membersOf hx
    unfold State.thread?
    rw [h1, hw']; exact h4
  obtain ⟨g1, g2, g3⟩ := foldl_stepMember_local (i := i) hk _ (membersOf_distinct m.wg m.gang) s.popped hth
  refine ⟨_, hrun, hpop.trans g1, fun u tid h => ?_, ?_⟩
  · rw [g2 u tid (fun x hx => ?_)]
    · rfl
    · obtain ⟨h1, h2, h3, -⟩ := mem_membersOf hx
      rcases h with h | h
      · exact Or.inl (by rw [h1]; exact h)
      · exact Or.inr (fun he => h (by rw [he]; exact h3))
  · obtain ⟨z, f, hz, h1, h2⟩ := g3 m hmem
    refine ⟨z, f, hpop.trans hz, ?_, h2⟩
    rw [h1, hz.gate]; rfl

end Machine
end Sys2Proof
end

