-- ==== Sys2Proof/Laws/Hypotheses.lean ====
section
/-! SUPPORT. The hypotheses of claims as checks that evaluate: for each, a Bool function of a state and a lemma that the hypothesis
holds where the check does. -/

namespace Sys2Proof
namespace Machine

/-! ## Answers -/

/-- The answer is a value that passes a check. -/
def okP {ε α : Type} (e : Except ε α) (p : α → Bool) : Bool :=
  match e with
  | .ok x => p x
  | .error _ => false

theorem okP_of {ε α : Type} {e : Except ε α} {p : α → Bool} (h : okP e p = true) : ∃ x, e = .ok x ∧ p x = true := by
  cases e with
  | ok x => exact ⟨x, rfl, h⟩
  | error _ => cases h

/-- The answer is an error that passes a check. -/
def errP {ε α : Type} (e : Except ε α) (p : ε → Bool) : Bool :=
  match e with
  | .ok _ => false
  | .error c => p c

theorem errP_of {ε α : Type} {e : Except ε α} {p : ε → Bool} (h : errP e p = true) : ∃ c, e = .error c ∧ p c = true := by
  cases e with
  | ok _ => cases h
  | error c => exact ⟨c, rfl, h⟩

/-- There is a value, and it passes a check. -/
def someP {α : Type} (o : Option α) (p : α → Bool) : Bool :=
  match o with
  | some x => p x
  | none => false

theorem someP_of {α : Type} {o : Option α} {p : α → Bool} (h : someP o p = true) : ∃ x, o = some x ∧ p x = true := by
  cases o with
  | some x => exact ⟨x, rfl, h⟩
  | none => cases h

/-- The outcome is a next state that passes a check. -/
def nextP (o : Out) (p : State → Bool) : Bool :=
  match o with
  | .next s => p s
  | _ => false

theorem nextP_of {o : Out} {p : State → Bool} (h : nextP o p = true) : ∃ s, o = .next s ∧ p s = true := by
  cases o with
  | next s => exact ⟨s, rfl, h⟩
  | fault _ => cases h
  | refused _ => cases h

/-! ## Members on issue -/

def onIssueB (s : State) (m : Member) : Bool :=
  (match s.issue with
   | x :: _ => x == .gang m.wg.uid m.gang
   | [] => false) &&
  s.wg? m.wg.uid == some m.wg && decide (m ∈ membersOf m.wg m.gang) && m.t.live

theorem onIssue_of {s : State} {m : Member} (h : onIssueB s m = true) : OnIssue s m := by
  simp only [onIssueB, Bool.and_eq_true, beq_iff_eq, decide_eq_true_eq] at h
  obtain ⟨⟨⟨h1, h2⟩, h3⟩, h4⟩ := h
  refine ⟨?_, h2, h3, h4⟩
  split at h1
  · rename_i x rest hx
    rw [beq_iff_eq] at h1
    exact ⟨rest, by rw [hx, h1]⟩
  · cases h1

def aloneB (s : State) (m : Member) : Bool :=
  onIssueB s m && m.gang == [m.t.tid] && m.wg.thread? m.t.tid == some m.t

theorem alone_of {s : State} {m : Member} (h : aloneB s m = true) : Alone s m ∧ OnIssue s m := by
  simp only [aloneB, Bool.and_eq_true, beq_iff_eq] at h
  obtain ⟨⟨h1, h2⟩, h3⟩ := h
  obtain ⟨⟨rest, hr⟩, hw, hm, hl⟩ := onIssue_of h1
  exact ⟨⟨h2, ⟨rest, by rw [hr, h2]⟩, hw, h3, hl⟩, ⟨rest, hr⟩, hw, hm, hl⟩

def gateIs (s : State) (m : Member) (i : Instr) (b : Bool) : Bool := okP (gate s m i) (fun x => x == b)

theorem gate_of {s : State} {m : Member} {i : Instr} {b : Bool} (h : gateIs s m i b = true) : gate s m i = .ok b := by
  obtain ⟨x, hx, hb⟩ := okP_of h
  rw [hx, beq_iff_eq.1 hb]

/-- The member is alone on issue and performs each of some instructions. -/
def performsAll (s : State) (m : Member) (is : List Instr) : Bool := aloneB s m && is.all (fun i => gateIs s m i true)

theorem performs_of {s : State} {m : Member} {is : List Instr} (h : performsAll s m is = true) :
    ∀ i ∈ is, Performs s m i ∧ PerformsAlone s m i := by
  intro i hi
  simp only [performsAll, Bool.and_eq_true, List.all_eq_true] at h
  exact ⟨⟨(alone_of h.1).2, gate_of (h.2 i hi)⟩, (alone_of h.1).1, gate_of (h.2 i hi)⟩

theorem untraced_of {s : State} {m : Member} (h : s.watches.all (fun w => w.traceCb.isNone) = true) : Untraced s m := by
  intro w hw
  have := List.mem_of_find?_eq_some hw
  simpa using (List.all_eq_true.1 h) w this

def waitingB (s : State) (m : Member) (i : Instr) (k : WaitKind) : Bool :=
  s.issue.isEmpty && m.gang == [m.t.tid] && someP (s.wg? m.wg.uid) (fun g => g.thread? m.t.tid == some m.t &&
    someP m.t.wait (fun w => m.wg == { g with fmts := w.fmts } && w.kind == k && w.instr == i && w.peers == s.peers))

theorem waiting_of {s : State} {m : Member} {i : Instr} {k : WaitKind} (h : waitingB s m i k = true) : WaitingAt s m i k := by
  simp only [waitingB, Bool.and_eq_true, beq_iff_eq, List.isEmpty_iff] at h
  obtain ⟨⟨h1, h2⟩, h3⟩ := h
  obtain ⟨g, hg, hr⟩ := someP_of h3
  simp only [Bool.and_eq_true, beq_iff_eq] at hr
  obtain ⟨w, hw, hk⟩ := someP_of hr.2
  simp only [Bool.and_eq_true, beq_iff_eq] at hk
  exact ⟨h1, h2, g, w, hg, hr.1, hk.1.1.1, hw, hk.1.1.2, hk.1.2, hk.2⟩

/-! ## Contexts on issue -/

def pontilOnIssueB (s : State) (p : Pontil) : Bool :=
  (match s.issue with
   | x :: _ => x == .pontil p.id
   | [] => false) && s.pontil? p.id == some p && p.state == .running && p.wait.isNone

theorem pontilOnIssue_of {s : State} {p : Pontil} (h : pontilOnIssueB s p = true) : PontilOnIssue s p := by
  simp only [pontilOnIssueB, Bool.and_eq_true, beq_iff_eq, Option.isNone_iff_eq_none] at h
  obtain ⟨⟨⟨h1, h2⟩, h3⟩, h4⟩ := h
  refine ⟨?_, h2, h3, h4⟩
  split at h1
  · rename_i x rest hx
    rw [beq_iff_eq] at h1
    exact ⟨rest, by rw [hx, h1]⟩
  · cases h1

def pontilPerformsAll (s : State) (p : Pontil) (is : List Instr) : Bool :=
  pontilOnIssueB s p && is.all (fun i => okP (checkPontil i) (fun _ => true) && p.guardOk i)

theorem pontilPerforms_of {s : State} {p : Pontil} {is : List Instr} (h : pontilPerformsAll s p is = true) :
    ∀ i ∈ is, PontilPerforms s p i := by
  intro i hi
  simp only [pontilPerformsAll, Bool.and_eq_true, List.all_eq_true] at h
  obtain ⟨u, hu, _⟩ := okP_of (h.2 i hi).1
  exact ⟨pontilOnIssue_of h.1, hu, (h.2 i hi).2⟩

/-! ## Memory: what no table maps -/

theorem memGet_of_not_listed {m : List Host.Cell} {l : Nat} (h : ∀ c ∈ m, c.1 ≠ l) : memGet m l = unlisted := by
  induction m with
  | nil => rfl
  | cons c rest ih =>
    obtain ⟨a, b⟩ := c
    have ha : ¬ a = l := h (a, b) (List.mem_cons_self ..)
    simp only [memGet, ha, if_false]
    split
    · rfl
    · exact ih (fun c hc => h c (List.mem_cons_of_mem _ hc))

/-- Nothing is listed but bytes of die SRAM. -/
def sramOnly (s : State) : Bool := s.mem.all (fun c => decide (4 * 2 ^ 52 ≤ c.1 ∧ c.1 < 8 * 2 ^ 52))

theorem peek_outside {s : State} (h : sramOnly s = true) {l : Nat} (hl : l < 4 * 2 ^ 52 ∨ 8 * 2 ^ 52 ≤ l) : s.peek l = 0 := by
  apply memGet_of_not_listed
  intro c hc
  have := (List.all_eq_true.1 h) c hc
  simp only [decide_eq_true_eq] at this
  omega

theorem ownLoc_outside {die x : Nat} (hd : die < 6) (hx : x < 2 ^ 40) : ownLoc die x < 4 * 2 ^ 52 ∨ 8 * 2 ^ 52 ≤ ownLoc die x := by
  unfold ownLoc hbmLoc lpddrLoc
  split <;> omega

theorem ofBytes_zeros (n : Nat) : ofBytes (List.replicate n (0 : Byte)) = 0 := by
  induction n with
  | zero => rfl
  | succ n ih => simpa [List.replicate_succ, ofBytes] using ih

theorem peekNat_zero {z : State} {at' n : Nat} (h : ∀ k, k < n → z.peek (at' + k) = 0) : z.peekNat at' n = 0 := by
  have : (List.range n).map (fun i => z.peek (at' + i)) = List.replicate n 0 := by
    apply List.ext_getElem
    · simp
    · intro k h1 _
      simp only [List.length_map, List.length_range] at h1
      simp [h k h1]
  rw [State.peekNat, this, ofBytes_zeros]

/-- No table is at the root of a die, so no walk finds a leaf. -/
theorem walk_none {z : State} (hr : z.roots = List.replicate 6 0) (h : ∀ l, (l < 4 * 2 ^ 52 ∨ 8 * 2 ^ 52 ≤ l) → z.peek l = 0)
    {die ofs : Nat} (hd : die < 6) (ho : ofs < 2 ^ 50) : walk z die ofs = none := by
  have h0 : z.roots.getD die 0 = 0 := by
    rw [hr, List.getD_eq_getElem?_getD]
    rcases Nat.lt_or_ge die 6 with h | h
    · rw [List.getElem?_replicate_of_lt h]; rfl
    · omega
  have he : tableEntry z die (z.roots.getD die 0 + 8 * (ofs / 2 ^ 30)) = 0 := by
    unfold tableEntry
    split
    rotate_left
    · rfl
    apply peekNat_zero
    intro k hk
    apply h
    have : ownLoc die (z.roots.getD die 0 + 8 * (ofs / 2 ^ 30)) + k = ownLoc die (8 * (ofs / 2 ^ 30) + k) := by
      rw [h0]
      unfold ownLoc hbmLoc lpddrLoc
      split <;> omega
    rw [this]
    exact ownLoc_outside hd (by omega)
  have hl : leafValid z.mode die 30 0 = false := by simp [leafValid, natField]
  have ht : tableValid 0 = false := by decide
  simp only [walk, walkBy, he, hl, ht]
  simp

theorem walkInEffect_clean {s : State} (h : s.hist = []) (die ofs : Nat) : walkInEffect s die ofs = walk s die ofs := by
  simp [walkInEffect, h]

/-- Translations are windows of die SRAM alone. -/
def windowsOnly (s : State) : Bool := sramOnly s && s.tlb.isEmpty && s.roots == List.replicate 6 0 && s.hist.isEmpty

theorem tlbFresh_of {s : State} (h : s.tlb.isEmpty = true) : TlbFresh s := by
  intro t ht
  rw [List.isEmpty_iff.1 h] at ht
  cases ht

theorem vaDie_lt {va : Nat} (h : inWindow va = true) : vaDie va < 4 := by
  simp only [inWindow, Bool.and_eq_true, decide_eq_true_eq] at h
  exact h.1

theorem translate_window {s : State} (h : windowsOnly s = true) {ctx va l : Nat} {k : PageKind} {z : State}
    (ht : translate s ctx va = .ok (.here l k, z)) :
    vaModule va = s.module.toNat ∧ inWindow va = true ∧ l = sramLoc (vaDie va) (vaOfs va - windowBase) := by
  simp only [windowsOnly, Bool.and_eq_true, beq_iff_eq] at h
  obtain ⟨⟨⟨h1, h2⟩, h3⟩, h4⟩ := h
  by_cases hm : vaModule va = s.module.toNat
  · by_cases h6 : 6 ≤ vaDie va
    · simp [translate, hm, h6] at ht
    · by_cases hw : inWindow va = true
      · by_cases hs : vaOfs va < windowBase + Config.sramBytes
        · simp only [translate, hm, ne_eq, not_true, if_false, h6, hw, if_true, hs, Except.ok.injEq, Prod.mk.injEq,
            Place.here.injEq] at ht
          exact ⟨hm, hw, ht.1.1.symm⟩
        · simp [translate, hm, h6, hw, hs] at ht
      · have hn : walkInEffect s (vaDie va) (vaOfs va) = none := by
          rw [walkInEffect_clean (List.isEmpty_iff.1 h4)]
          exact walk_none h3 (fun l hl => peek_outside h1 hl) (by omega) (Nat.mod_lt _ (by decide))
        simp [translate, hm, h6, hw, translatePaged, hn, List.isEmpty_iff.1 h2] at ht
  · simp [translate, hm] at ht

theorem noFrameTwice_of {s : State} (h : windowsOnly s = true) (ctx : Nat) : NoFrameTwice s ctx := by
  intro va va' l k k' z z' ht ht'
  obtain ⟨hm, hw, hl⟩ := translate_window h ht
  obtain ⟨hm', hw', hl'⟩ := translate_window h ht'
  have hd := vaDie_lt hw
  have hd' := vaDie_lt hw'
  simp only [inWindow, Bool.and_eq_true, decide_eq_true_eq] at hw hw'
  have hb : windowBase = 0x3FFFFF0000000 := rfl
  have e : sramLoc (vaDie va) (vaOfs va - windowBase) = sramLoc (vaDie va') (vaOfs va' - windowBase) := hl.symm.trans hl'
  simp only [sramLoc, vaDie, vaOfs, vaModule] at *
  omega

theorem noFrameTwice_popped {s : State} (h : windowsOnly s = true) (ctx : Nat) : NoFrameTwice s.popped ctx :=
  noFrameTwice_of (by simpa [windowsOnly, sramOnly, State.popped] using h) ctx

theorem tablesApart_of {s : State} (h : windowsOnly s = true) {ls : List Nat}
    (hl : ∀ l ∈ ls, 4 * 2 ^ 52 ≤ l ∧ l < 8 * 2 ^ 52) : TablesApart s ls := by
  simp only [windowsOnly, Bool.and_eq_true, beq_iff_eq] at h
  obtain ⟨⟨⟨h1, _⟩, h3⟩, _⟩ := h
  intro z hr _ hz die ofs hd ho
  rw [walk_none h3 (fun l hx => peek_outside h1 hx) hd ho]
  refine walk_none (hr.trans h3) (fun l hx => ?_) hd ho
  rw [hz l (fun hm => by have := hl l hm; omega)]
  exact peek_outside h1 hx

/-- Locations of die SRAM, where no table stands while no root is set. -/
def sramLocsB (ls : List Nat) : Bool := ls.all (fun l => decide (4 * 2 ^ 52 ≤ l ∧ l < 8 * 2 ^ 52))

theorem tablesApart_sram {s : State} (h : windowsOnly s = true) (ls : List Nat) (hl : sramLocsB ls = true) : TablesApart s ls :=
  tablesApart_of h (fun l hm => by simpa using (List.all_eq_true.1 hl) l hm)

def entriesApartB (s : State) (ctx : Nat) (ls : List Nat) : Bool :=
  match s.context? ctx with
  | none => true
  | some cx => (List.range cx.btlen).all (fun i => match places s ctx (cx.btbase.toNat + 64 * i) 64 with
    | .ok (es, _) => (locsOf es).all (fun l => !(ls.contains l))
    | .error _ => true)

theorem entriesApart_of {s : State} (ctx : Nat) (ls : List Nat) (h : entriesApartB s ctx ls = true) : EntriesApart s ctx ls := by
  intro cx i es z hc hi hp l hl
  simp only [entriesApartB, hc, List.all_eq_true, List.mem_range] at h
  have := h i hi
  simp only [hp, List.all_eq_true] at this
  simpa using this l hl

/-! ## States in which nothing else decides -/

def noCountsB (s : State) : Bool := s.mcbs.all (fun d => d.isNone)

theorem noCounts_of {s : State} (h : noCountsB s = true) : NoMigrationControl s := by
  intro d
  rw [List.getD_eq_getElem?_getD]
  cases hd : s.mcbs[d]? with
  | none => rfl
  | some x => simpa using (List.all_eq_true.1 h) x (List.mem_of_getElem? hd)

theorem entriesFresh_of {s : State} (h : s.entryCache.isEmpty = true) : EntriesFresh s := by
  intro e he
  rw [List.isEmpty_iff.1 h] at he
  cases he

def quietB (s : State) : Bool :=
  s.hist.isEmpty && s.poison.isEmpty && s.down.isEmpty && noCountsB s && memWf s.mem && s.tlb.isEmpty && s.entryCache.isEmpty

theorem quiet_of {s : State} (h : quietB s = true) : Quiet s := by
  simp only [quietB, Bool.and_eq_true, List.isEmpty_iff] at h
  obtain ⟨⟨⟨⟨⟨⟨h1, h2⟩, h3⟩, h4⟩, h5⟩, h6⟩, h7⟩ := h
  exact ⟨h1, h2, h3, noCounts_of h4, h5, tlbFresh_of (by simp [h6]), entriesFresh_of (by simp [h7])⟩

theorem untouched_of {s : State} (h : s.hist.isEmpty = true) (ls : List Nat) : Untouched s ls := by
  intro r hr
  rw [List.isEmpty_iff.1 h] at hr
  cases hr

theorem noOlderWait_of {s : State} {n : Nat}
    (h : s.workgroups.all (fun g => g.threads.all (fun t => match t.wait with
      | some w => !(w.kind == .granule) || decide (n ≤ w.since)
      | none => true)) = true) : NoOlderWait s n := by
  intro g hg t ht w hw hk
  have := (List.all_eq_true.1 ((List.all_eq_true.1 h) g hg)) t ht
  simp only [hw, hk] at this
  simpa using this

/-! ## Accesses and objects -/

def hereB (ps : List Place) : Bool := ps.all (fun p => p.away?.isNone)

/-- An access that the checks let through, of a target that passes a check of its own. -/
def reachesB (s : State) (m : Member) (o : MemOp) (n : FDef → Nat) (need : Rights) (write : Bool) (q : Target → List Place → Bool) : Bool :=
  okP (targetHere m s.popped o n need) (fun x => okP (checkPeers x.2 x.1.d) (fun _ => true) && !(pathWaits x.2 x.1.d) &&
    okP (targetPlaces x.2 x.1 (n x.1.f)) (fun y => (blocked y.2 write y.1).isNone && hereB y.1 && (o.order == .plain || !(anyUo y.1)) && q x.1 y.1) &&
    decide (vaModule x.1.d.base = s.module.toNat) && decide (2 ≤ x.1.f.w ∧ x.1.f.w ≤ 64)) && memWf s.mem && s.poison.isEmpty

theorem reaches_of {s : State} {m : Member} {o : MemOp} {n : FDef → Nat} {need : Rights} {write : Bool} {q : Target → List Place → Bool}
    (h : reachesB s m o n need write q = true) : ∃ t ps, Reaches s m o n need write t ps ∧ q t ps = true := by
  simp only [reachesB, Bool.and_eq_true, List.isEmpty_iff] at h
  obtain ⟨⟨h1, h2⟩, h3⟩ := h
  obtain ⟨⟨t, s₁⟩, ht, hx⟩ := okP_of h1
  simp only [Bool.and_eq_true, decide_eq_true_eq, Bool.not_eq_true'] at hx
  obtain ⟨⟨⟨⟨hc, hp⟩, hpl⟩, hm⟩, hw⟩ := hx
  obtain ⟨u, hu, _⟩ := okP_of hc
  obtain ⟨⟨ps, s₂⟩, hps, hy⟩ := okP_of hpl
  simp only [Bool.and_eq_true, Bool.or_eq_true, beq_iff_eq, Bool.not_eq_true', Option.isNone_iff_eq_none] at hy
  obtain ⟨⟨⟨hb, hh⟩, ha⟩, hq⟩ := hy
  exact ⟨t, ps, ⟨⟨s₁, ht, hu, hp, s₂, hps, hb⟩, ⟨hh, hm⟩, hw, h2, ha.resolve_left, h3⟩, hq⟩

def objectFreeB (s : State) (b : ObjectAt) (write : Bool) : Bool :=
  !(pathWaits s b.d) && (blocked s write b.ps).isNone && s.poison.isEmpty && hereB b.ps && decide ((locsOf b.ps).Nodup) &&
  s.hist.isEmpty && noCountsB s && memWf s.mem && decide (vaModule b.d.base = s.module.toNat)

theorem objectFree_of {s : State} {b : ObjectAt} {write : Bool} (h : objectFreeB s b write = true) : ObjectFree s b write := by
  simp only [objectFreeB, Bool.and_eq_true, Bool.not_eq_true', Option.isNone_iff_eq_none, decide_eq_true_eq] at h
  obtain ⟨⟨⟨⟨⟨⟨⟨⟨h1, h2⟩, h3⟩, h4⟩, h5⟩, h6⟩, h7⟩, h8⟩, h9⟩ := h
  exact ⟨h1, h2, List.isEmpty_iff.1 h3, ⟨h4, h9⟩, h5, untouched_of h6 _, noCounts_of h7, h8⟩

/-- An object that a word names, free to be operated on, with a check of its own. -/
def objectB (e : Except Code (ObjectAt × State)) (s : State) (write : Bool) (q : ObjectAt → Bool) : Bool :=
  okP e (fun x => objectFreeB s x.1 write && q x.1)

theorem object_of {e : Except Code (ObjectAt × State)} {s : State} {write : Bool} {q : ObjectAt → Bool}
    (h : objectB e s write q = true) : ∃ b s₁, e = .ok (b, s₁) ∧ ObjectFree s b write ∧ q b = true := by
  obtain ⟨⟨b, s₁⟩, hb, hx⟩ := okP_of h
  simp only [Bool.and_eq_true] at hx
  exact ⟨b, s₁, hb, objectFree_of hx.1, hx.2⟩

def pontilReachesB (s : State) (p : Pontil) (o : QMemOp) (need : Rights) (write : Bool) (q : Target → List Place → Bool) : Bool :=
  okP (pontilTarget s.popped p o need) (fun x => !(pathWaits x.2 x.1.d) &&
    okP (targetPlaces x.2 x.1 1) (fun y => (blocked y.2 write y.1).isNone && hereB y.1 && (o.order == .plain || !(anyUo y.1)) && q x.1 y.1) &&
    decide (vaModule x.1.d.base = s.module.toNat) && decide (2 ≤ x.1.f.w ∧ x.1.f.w ≤ 64))

theorem pontilReaches_of {s : State} {p : Pontil} {o : QMemOp} {need : Rights} {write : Bool} {q : Target → List Place → Bool}
    (h : pontilReachesB s p o need write q = true) : ∃ t ps, PontilReaches s p o need write t ps ∧ q t ps = true := by
  obtain ⟨⟨t, s₁⟩, ht, hx⟩ := okP_of h
  simp only [Bool.and_eq_true, decide_eq_true_eq, Bool.not_eq_true'] at hx
  obtain ⟨⟨⟨hp, hpl⟩, hm⟩, hw⟩ := hx
  obtain ⟨⟨ps, s₂⟩, hps, hy⟩ := okP_of hpl
  simp only [Bool.and_eq_true, Bool.or_eq_true, beq_iff_eq, Bool.not_eq_true', Option.isNone_iff_eq_none] at hy
  obtain ⟨⟨⟨hb, hh⟩, ha⟩, hq⟩ := hy
  exact ⟨t, ps, ⟨⟨s₁, ht, hp, s₂, hps, hb⟩, ⟨hh, hm⟩, hw, ha.resolve_left⟩, hq⟩

/-! ## Spans that lie in one part of memory, read where no write is on record -/

theorem placesFrom_run (s : State) (ctx : Nat) (k : PageKind) : ∀ (n va l : Nat), va % 65536 ≠ 0 → va % 65536 + n ≤ 65536 →
    placesFrom s ctx va n (some (.here l k)) = .ok ((List.range n).map (fun i => .here (l + 1 + i) k), s)
  | 0, _, _, _, _ => rfl
  | n + 1, va, l, h0, hn => by
    have hs : placesFrom s ctx (va + 1) n (some (.here (l + 1) k)) = .ok ((List.range n).map (fun i => .here (l + 1 + 1 + i) k), s) := by
      cases n with
      | zero => rfl
      | succ n => exact placesFrom_run s ctx k (n + 1) (va + 1) (l + 1) (by omega) (by omega)
    simp only [placesFrom, h0, if_false, Place.succ, hs, List.range_succ_eq_map, List.map_cons, List.map_map]
    congr 3
    refine List.map_congr_left (fun i _ => ?_)
    simp only [Function.comp, Nat.succ_eq_add_one]
    congr 1
    omega

/-- A span inside 64 KiB lies at one run of locations. -/
theorem places_run {s : State} {ctx va n l : Nat} {k : PageKind} (ht : translate s ctx va = .ok (.here l k, s))
    (hn : va % 65536 + n ≤ 65536) : places s ctx va n = .ok ((List.range n).map (fun i => .here (l + i) k), s) := by
  cases n with
  | zero => rfl
  | succ n =>
    have hs : placesFrom s ctx (va + 1) n (some (.here l k)) = .ok ((List.range n).map (fun i => .here (l + 1 + i) k), s) := by
      cases n with
      | zero => rfl
      | succ n => exact placesFrom_run s ctx k (n + 1) (va + 1) l (by omega) (by omega)
    simp only [places, placesFrom, ht, hs, List.range_succ_eq_map, List.map_cons, List.map_map]
    congr 3
    refine List.map_congr_left (fun i _ => ?_)
    simp only [Function.comp, Nat.succ_eq_add_one]
    congr 1
    omega

/-- With no write on record a read gives what memory holds, and changes nothing. -/
theorem readCut_clean {s : State} (hh : s.hist = []) (a : ReadAs) (v : MemView) (locs : List Nat) :
    readCut s a v locs = (locs.map s.peek, [], s, v) := by
  have hsrc : ∀ l, (⟨[], [], s⟩ : Sight).source? l = none := fun l => rfl
  have hbyte : ∀ l, (⟨[], [], s⟩ : Sight).byte l = s.peek l := by
    intro l
    simp only [Sight.byte, hsrc, initialByte, hh, List.reverse_nil, List.find?_nil]
  have hmix : locs.any (mixedAt s a.kind) = false := by
    rw [List.any_eq_false]
    intro l _
    cases a.kind with
    | none => simp [mixedAt]
    | some k => cases k <;> simp [mixedAt, hh]
  have hg : sightFor s a v locs = ⟨[], [], s⟩ := by
    simp only [sightFor, hmix, hh, List.filter_nil, Bool.false_eq_true, and_false, if_false, seeable]
    cases a.mode <;> simp [State.pick]
  have hb : locs.map (⟨[], [], s⟩ : Sight).byte = locs.map s.peek := List.map_congr_left (fun l _ => hbyte l)
  have hn : ∀ {β : Type} (ls : List Nat), ls.filterMap (fun _ => (none : Option β)) = [] := by
    intro β ls; rw [List.filterMap_eq_nil_iff]; intros; rfl
  unfold readCut
  simp only [hg, hb, hsrc, hn, List.foldl_nil, hh]
  clear hsrc hbyte hmix hg hb hn
  cases s
  dsimp only at hh
  subst hh
  obtain ⟨_, m, k⟩ := a
  cases m <;> rcases k with _ | k <;> first | rfl | (cases k <;> rfl)

theorem anyAway_false {ps : List Place} (ha : ps.all (fun p => p.away?.isNone) = true) : anyAway ps = false := by
  rw [anyAway, List.any_eq_false]
  intro p hp
  have := (List.all_eq_true.1 ha) p hp
  simpa using this

theorem readPart_clean {s : State} (hh : s.hist = []) (agent : Actor) (v : MemView) (mode : ReadMode) {ps : List Place}
    (ha : ps.all (fun p => p.away?.isNone) = true) : readPart s agent v mode ps = ((locsOf ps).map s.peek, [], s, v) := by
  have ho : ∀ p : Prop, ∀ [Decidable p], (if p then ownParts s agent else s) = s := by
    intro p _
    split
    · cases agent <;> simp [ownParts, performParts, hh]
    · rfl
  simp only [readPart, anyAway_false ha, Bool.false_eq_true, if_false, ho, readCut_clean hh, locsOf]

theorem readWords_clean {s : State} (hh : s.hist = []) (agent : Actor) (v : MemView) (mode : ReadMode) (ps : List (List Place))
    (ha : ∀ q ∈ ps, q.all (fun p => p.away?.isNone) = true) :
    readWords s agent v mode ps = ⟨(locsOf ps.flatten).map s.peek, [], s, v⟩ := by
  induction ps with
  | nil => rfl
  | cons q qs ih =>
    simp only [readWords, readPart_clean hh agent v mode (ha q (List.mem_cons_self ..)),
      ih (fun r hr => ha r (List.mem_cons_of_mem _ hr)), locsOf, List.flatten_cons, List.filterMap_append, List.map_append,
      List.append_nil]

theorem readParts_clean {s : State} (hh : s.hist = []) (agent : Actor) (v : MemView) (mode : ReadMode) (ps : List (List Place))
    (ha : ∀ q ∈ ps, q.all (fun p => p.away?.isNone) = true) :
    readParts s agent v mode ps = ((locsOf ps.flatten).map s.peek, [], s, v) := by
  induction ps with
  | nil => rfl
  | cons q qs ih =>
    simp only [readParts, readPart_clean hh agent v mode (ha q (List.mem_cons_self ..)),
      ih (fun r hr => ha r (List.mem_cons_of_mem _ hr)), locsOf, List.flatten_cons, List.filterMap_append, List.map_append,
      List.append_nil]

theorem cutAt_flatten {α : Type} (cut : Nat → Bool) (xs : List α) :
    ∀ (va : Nat) (acc : List α), (cutAt cut va xs acc).flatten = acc.reverse ++ xs := by
  induction xs with
  | nil =>
    intro va acc
    cases acc <;> simp [cutAt]
  | cons x xs ih =>
    intro va acc
    simp only [cutAt]
    split <;> simp [ih]

theorem cutWords_flatten {α : Type} (xs : List α) (va : Nat) (acc : List α) : (cutWords va xs acc).flatten = acc.reverse ++ xs :=
  cutAt_flatten _ xs va acc

/-- Where no die counts pages, a request is counted nowhere. -/
theorem notePage_off {s : State} (h : NoMigrationControl s) (die : Option Nat) (va : Nat) : notePage s die va = s := by
  cases die with
  | none => rfl
  | some k =>
    have h' := h (vaDie va)
    simp only [notePage, countsPage, h', Option.isSome_none, Bool.and_false, Bool.false_eq_true, if_false]

theorem noteLines_off {s : State} (h : NoMigrationControl s) (agent : Actor) (va : Nat) (ps : List Place) :
    noteLines s agent va ps = s := by
  unfold noteLines
  induction linesAt va ps with
  | nil => rfl
  | cons x xs ih => rw [List.foldl_cons, notePage_off h]; exact ih

/-- A span of places of this module, read with no write on record, gives what memory holds, and nothing changes. -/
theorem readSpan_clean {s z : State} {agent : Actor} {ctx va n : Nat} {ps : List Place} {v : MemView}
    (hp : places s ctx va n = .ok (ps, z)) (hh : z.hist = []) (hc : NoMigrationControl z) (mode : ReadMode)
    (ha : ps.all (fun p => p.away?.isNone) = true) :
    readSpan s agent ctx v mode va n = .ok ⟨(locsOf ps).map z.peek, [], z, v⟩ := by
  have hq : ∀ q ∈ cutWords va ps [], q.all (fun p => p.away?.isNone) = true := by
    intro q hq
    rw [List.all_eq_true]
    intro p hpq
    have : p ∈ (cutWords va ps []).flatten := List.mem_flatten.2 ⟨q, hq, hpq⟩
    rw [cutWords_flatten] at this
    exact (List.all_eq_true.1 ha) p (by simpa using this)
  simp only [readSpan, hp, noteLines_off hc, readWords_clean hh agent v mode _ hq, cutWords_flatten, List.reverse_nil,
    List.nil_append]

theorem locsOf_run (k : PageKind) (l n : Nat) : locsOf ((List.range n).map (fun i => Place.here (l + i) k)) = (List.range n).map (l + ·) := by
  induction (List.range n) with
  | nil => rfl
  | cons a as ih => simpa [locsOf, Place.loc?] using ih

theorem translate_sram {s : State} {va : Nat} (ctx : Nat) (hm : vaModule va = s.module.toNat) (hw : inWindow va = true)
    (hs : vaOfs va < windowBase + Config.sramBytes) : translate s ctx va = .ok (.here (sramLoc (vaDie va) (vaOfs va - windowBase)) .sram, s) := by
  have := vaDie_lt hw
  simp [translate, hm, hw, hs, show ¬ 6 ≤ vaDie va by omega]

/-- A read that has found no release takes none. -/
@[simp] theorem takeRels_nil (s : State) (agent : Actor) (sc : Scope) (acq : Bool) (v : MemView) :
    takeRels s agent sc acq [] v = (s, v) := by
  cases acq <;> simp [takeRels, acquireRels, unionOf]

/-- An image that lies in one part of memory, read where no write is on record. -/
theorem imageAt_clean {s : State} {agent : Actor} {ctx n l : Nat} {v : MemView} {d : Bound} {e : Int} {k : PageKind}
    (ht : translate s ctx ((d.base : Int) + 8 * e).toNat = .ok (.here l k, s)) (hh : s.hist = []) (hc : NoMigrationControl s) (hp : s.poison = [])
    (hl : ((d.base : Int) + 8 * e).toNat % 65536 + n ≤ 65536) (hn : 1024 ≤ n) (hx : d.mxk = 0) (ha : ((d.base : Int) + 8 * e) % 64 = 0)
    (h1 : (checkSpan d (64 * e) 8192 { r := true }).isOk = true) (h2 : (checkSpan d (64 * e) (8 * n) { r := true }).isOk = true)
    (hf : imgLength (ofBytes ((List.range 1024).map (fun i => s.peek (l + i)))) = n) :
    imageAt s agent ctx v d e = .ok ((List.range n).map (fun i => s.peek (l + i)), s, v) := by
  have hq : ∀ m, m ≤ n → readImage s agent ctx v ((d.base : Int) + 8 * e).toNat m = .ok ((List.range m).map (fun i => s.peek (l + i)), s, v) := by
    intro m hm
    have hr := readSpan_clean (agent := agent) (v := v) (places_run ht (n := m) (by omega)) hh hc .relaxed (by
      rw [List.all_eq_true]
      intro p hp
      obtain ⟨i, _, rfl⟩ := List.mem_map.1 hp
      rfl)
    simp only [readImage, hr, takeRels_nil, locsOf_run, List.map_map]
    rfl
  have hpois : ∀ ps, anyPoison s ps = false := by
    intro ps
    simp [anyPoison, hp]
  obtain ⟨u, hu1⟩ : ∃ u, checkSpan d (64 * e) 8192 { r := true } = .ok u := by
    cases h : checkSpan d (64 * e) 8192 { r := true } with
    | ok u => exact ⟨u, rfl⟩
    | error c => rw [h] at h1; cases h1
  obtain ⟨w, hw1⟩ : ∃ u, checkSpan d (64 * e) (8 * n) { r := true } = .ok u := by
    cases h : checkSpan d (64 * e) (8 * n) { r := true } with
    | ok u => exact ⟨u, rfl⟩
    | error c => rw [h] at h2; cases h2
  have hmax : max 1024 n = n := by omega
  simp only [imageAt, imageHeader, hx, ha, ne_eq, not_true, if_false, hu1, hq 1024 hn, hf, hw1, hmax, places_run ht hl, hpois, Bool.false_eq_true, hq n (le_refl n)]

/-- Nothing in HBM4E or die SRAM makes an access wait for what stands already. -/
theorem frameHeld_near {s : State} {write : Bool} {locs : List Nat} (h : ∀ l ∈ locs, locSpace l < 8) : frameHeld s write locs = false := by
  have h1 : ∀ l ∈ locs, ¬ (decide (9 ≤ locSpace l) &&
      !(s.ports.any (fun q => q.kind == .cxl && q.num + 9 == locSpace l && q.state == 2))) = true := by
    intro l hl
    have := h l hl
    simp only [Bool.and_eq_true, decide_eq_true_eq, not_and]
    omega
  have h2 : ∀ l ∈ locs, ¬ (isFar l && s.reencrypting.contains (regionOf l)) = true := by
    intro l hl
    have := h l hl
    simp only [isFar, Bool.and_eq_true, decide_eq_true_eq, not_and]
    omega
  simp only [frameHeld, List.any_eq_false.2 h1, List.any_eq_false.2 h2, Bool.and_false, Bool.or_self]

/-- Nothing in HBM4E or die SRAM makes an access wait. -/
theorem blocked_near {s : State} {write : Bool} {ps : List Place} (h : ∀ l ∈ locsOf ps, locSpace l < 8) : blocked s write ps = none := by
  have h2 : (ps.filterMap Place.loc?).filter (fun l => isFar l && minorOf s l == maxMinor) = [] := by
    rw [List.filter_eq_nil_iff]
    intro l hl
    have := h l hl
    simp only [isFar, Bool.and_eq_true, decide_eq_true_eq, not_and]
    omega
  simp only [blocked, show frameHeld s write (ps.filterMap Place.loc?) = false from frameHeld_near h, h2, Bool.false_eq_true, if_false,
    ite_self]

/-- An entry that is no alias, for elements of f0. -/
theorem plainEntry_of {s z : State} {bd : Binder} {b : Nat} {d : Bound} (hb : bindingEntry s bd b = .ok (d, z)) (hx : d.mxk = 0) :
    plainEntry s bd b = .ok (d, z) := by
  unfold bindingEntry at hb
  unfold plainEntry
  split at hb
  · cases hb
  · rename_i x t he
    split at hb
    · cases hb
    · rename_i y hg
      cases hb
      have hk : x.mxk = 0 := by
        unfold grantedBy at hg
        split at hg
        · cases hg
        · split at hg
          · injection hg with hg; rw [← hg] at hx; exact hx
          · split at hg
            · injection hg with hg; rw [← hg] at hx; simpa [sliceOf] using hx
            · injection hg with hg; rw [hg]; exact hx
      simp only [hk, ne_eq, not_true, if_false]

/-- The target of a save that lies in one part of a window of die SRAM. -/
theorem imageTarget_run {s z : State} {bd : Binder} {b n l : Nat} {e : Int} {d : Bound} (hb : bindingEntry s bd b = .ok (d, z)) (hx : d.mxk = 0)
    (ht : translate z bd.ctx ((d.base : Int) + 8 * e).toNat = .ok (.here l .sram, z)) (hl : ((d.base : Int) + 8 * e).toNat % 65536 + n ≤ 65536)
    (ha : ((d.base : Int) + 8 * e) % 64 = 0) (h1 : (checkSpan d (64 * e) (8 * n) { w := true }).isOk = true)
    (h2 : checkPeers z d = .ok ()) :
    imageTarget s bd b e n = .ok (d, ((d.base : Int) + 8 * e).toNat, (List.range n).map (fun i => .here (l + i) .sram), z) := by
  obtain ⟨u, hu⟩ : ∃ u, checkSpan d (64 * e) (8 * n) { w := true } = .ok u := by
    cases h : checkSpan d (64 * e) (8 * n) { w := true } with
    | ok u => exact ⟨u, rfl⟩
    | error c => rw [h] at h1; cases h1
  have h0 : anyUo ((List.range n).map (fun i => Place.here (l + i) .sram)) = false := by
    rw [anyUo, List.any_eq_false]
    intro p hp
    obtain ⟨i, _, rfl⟩ := List.mem_map.1 hp
    simp [Place.isUo]
  simp only [imageTarget, plainEntry_of hb hx, ha, ne_eq, not_true, if_false, hu, h2, places_run ht hl, h0, Bool.false_eq_true]

/-! ## One leaf, and spans that do not wait -/

/-- The tables hold one leaf, of 1 GiB of HBM4E from its first frame, for the first offsets of die 0, and nothing else. -/
def oneLeaf (s : State) (leaf : Nat) : Bool :=
  s.mem.all (fun c => decide (c.1 < 2 ^ 33 + 8 ∨ (4 * 2 ^ 52 ≤ c.1 ∧ c.1 < 8 * 2 ^ 52))) && s.tlb.isEmpty && s.hist.isEmpty &&
  s.roots == [2 ^ 33, 0, 0, 0, 0, 0] && s.peekNat (hbmLoc 0 (2 ^ 33)) 8 == leaf && leafValid s.mode 0 30 leaf &&
  natField leaf 16 36 == 0 && natField leaf 4 4 == 0

theorem leafValid_zero (mode : Fin 3) (die bits : Nat) : leafValid mode die bits 0 = false := by simp [leafValid, natField]

theorem walk_leaf {s z : State} {leaf : Nat} (h : oneLeaf s leaf = true) (hr : z.roots = s.roots) (hm : z.mode = s.mode)
    (hz : ∀ l, 2 ^ 30 ≤ l → (l < 4 * 2 ^ 52 ∨ 8 * 2 ^ 52 ≤ l) → z.peek l = s.peek l) {die ofs : Nat} (hd : die < 6) (ho : ofs < 2 ^ 50) :
    walk z die ofs = if die = 0 ∧ ofs < 2 ^ 30 then some (leaf, 30, hbmLoc 0 (2 ^ 33)) else none := by
  simp only [oneLeaf, Bool.and_eq_true, beq_iff_eq] at h
  obtain ⟨⟨⟨⟨⟨⟨⟨h1, _⟩, _⟩, h3⟩, h4⟩, h5⟩, _⟩, _⟩ := h
  have hp : ∀ l, 2 ^ 33 + 8 ≤ l → (l < 4 * 2 ^ 52 ∨ 8 * 2 ^ 52 ≤ l) → z.peek l = 0 := by
    intro l h8 hl
    rw [hz l (by omega) hl]
    apply memGet_of_not_listed
    intro c hc
    have := (List.all_eq_true.1 h1) c hc
    simp only [decide_eq_true_eq] at this
    omega
  have ht : tableValid 0 = false := by decide
  by_cases hc : die = 0 ∧ ofs < 2 ^ 30
  · obtain ⟨rfl, hs⟩ := hc
    have e0 : ofs / 2 ^ 30 = 0 := by omega
    have er : z.roots.getD 0 0 = 2 ^ 33 := by rw [hr, h3]; rfl
    have el : z.peekNat (hbmLoc 0 (2 ^ 33)) 8 = leaf := by
      rw [← h4]
      unfold State.peekNat
      congr 1
      apply List.map_congr_left
      intro i hi
      have := List.mem_range.1 hi
      apply hz <;> simp only [hbmLoc] <;> omega
    simp only [walk, walkBy, tableEntry, ownBytes, ownLoc, e0, er, Nat.mul_zero, Nat.add_zero, show (0 : Nat) < 4 by decide,
      show 2 ^ 33 + 8 ≤ 192 * 10 ^ 9 by decide, if_true, el, hm, h5, true_and, hs]
  · have he : tableEntry z die (z.roots.getD die 0 + 8 * (ofs / 2 ^ 30)) = 0 := by
      unfold tableEntry
      split
      rotate_left
      · rfl
      apply peekNat_zero
      intro k hk
      rw [hr, h3]
      have hx : ofs / 2 ^ 30 < 2 ^ 20 := by omega
      rcases die with _ | _ | _ | _ | _ | _ | n
      · simp only [true_and, not_lt] at hc
        have : 1 ≤ ofs / 2 ^ 30 := by omega
        apply hp <;> simp only [ownLoc, hbmLoc, List.getD_cons_zero, show (0 : Nat) < 4 by decide, if_true] <;> omega
      all_goals first
        | omega
        | (apply hp <;> simp [ownLoc, hbmLoc, lpddrLoc] <;> omega)
    rw [if_neg hc]
    simp only [walk, walkBy, he, leafValid_zero, ht]
    simp

theorem translate_leaf {s : State} {leaf : Nat} (h : oneLeaf s leaf = true) {ctx va l : Nat} {k : PageKind} {z : State}
    (ht : translate s ctx va = .ok (.here l k, z)) : vaModule va = s.module.toNat ∧
    ((inWindow va = true ∧ l = sramLoc (vaDie va) (vaOfs va - windowBase)) ∨ (vaDie va = 0 ∧ vaOfs va < 2 ^ 30 ∧ l = vaOfs va)) := by
  have hl := h
  simp only [oneLeaf, Bool.and_eq_true, beq_iff_eq] at hl
  obtain ⟨⟨⟨⟨⟨⟨⟨_, h2⟩, h0⟩, _⟩, _⟩, _⟩, h6⟩, h7⟩ := hl
  by_cases hm : vaModule va = s.module.toNat
  · refine ⟨hm, ?_⟩
    by_cases h6' : 6 ≤ vaDie va
    · simp [translate, hm, h6'] at ht
    · by_cases hw : inWindow va = true
      · by_cases hs : vaOfs va < windowBase + Config.sramBytes
        · simp only [translate, hm, ne_eq, not_true, if_false, h6', hw, if_true, hs, Except.ok.injEq, Prod.mk.injEq,
            Place.here.injEq] at ht
          exact .inl ⟨hw, ht.1.1.symm⟩
        · simp [translate, hm, h6', hw, hs] at ht
      · have hn := walk_leaf h rfl rfl (fun _ _ _ => rfl) (die := vaDie va) (ofs := vaOfs va) (by omega) (Nat.mod_lt _ (by decide))
        rw [← walkInEffect_clean (List.isEmpty_iff.1 h0)] at hn
        by_cases hc : vaDie va = 0 ∧ vaOfs va < 2 ^ 30
        · rw [if_pos hc] at hn
          simp only [translate, hm, ne_eq, not_true, if_false, h6', hw, translatePaged, hn, List.isEmpty_iff.1 h2, List.find?_nil,
            Bool.false_eq_true, Except.ok.injEq, Prod.mk.injEq, Place.here.injEq] at ht
          refine .inr ⟨hc.1, hc.2, ?_⟩
          rw [← ht.1.1]
          have e4 : natField leaf 4 2 = 0 := by simp only [natField] at h7 ⊢; omega
          have e6 : natField leaf 6 2 = 0 := by simp only [natField] at h7 ⊢; omega
          simp only [leafLoc, h6, e4, e6, hbmLoc]
          omega
        · rw [if_neg hc] at hn
          simp [translate, hm, h6', hw, translatePaged, hn, List.isEmpty_iff.1 h2] at ht
  · simp [translate, hm] at ht

theorem noFrameTwice_leaf {s : State} {leaf : Nat} (h : oneLeaf s leaf = true) (ctx : Nat) : NoFrameTwice s ctx := by
  intro va va' l k k' z z' ht ht'
  obtain ⟨hm, hl⟩ := translate_leaf h ht
  obtain ⟨hm', hl'⟩ := translate_leaf h ht'
  have hb : windowBase = 0x3FFFFF0000000 := rfl
  rcases hl with ⟨hw, hl⟩ | ⟨hd, ho, hl⟩ <;> rcases hl' with ⟨hw', hl'⟩ | ⟨hd', ho', hl'⟩
  · have hd := vaDie_lt hw
    have hd' := vaDie_lt hw'
    simp only [inWindow, Bool.and_eq_true, decide_eq_true_eq] at hw hw'
    have e : sramLoc (vaDie va) (vaOfs va - windowBase) = sramLoc (vaDie va') (vaOfs va' - windowBase) := hl.symm.trans hl'
    simp only [sramLoc, vaDie, vaOfs, vaModule] at *
    omega
  · have e : sramLoc (vaDie va) (vaOfs va - windowBase) = vaOfs va' := hl.symm.trans hl'
    simp only [sramLoc] at e
    omega
  · have e : vaOfs va = sramLoc (vaDie va') (vaOfs va' - windowBase) := hl.symm.trans hl'
    simp only [sramLoc] at e
    omega
  · have e : vaOfs va = vaOfs va' := hl.symm.trans hl'
    simp only [vaDie, vaOfs, vaModule] at *
    omega

/-- Bytes of the leaf's frames and of die SRAM hold no table. -/
theorem tablesApart_leaf {s : State} {leaf : Nat} (h : oneLeaf s leaf = true) {ls : List Nat}
    (hl : ls.all (fun l => decide (l < 2 ^ 30 ∨ (4 * 2 ^ 52 ≤ l ∧ l < 8 * 2 ^ 52))) = true) : TablesApart s ls := by
  intro z hr hm hz die ofs hd ho
  rw [walk_leaf h rfl rfl (fun _ _ _ => rfl) hd ho]
  refine walk_leaf h hr hm (fun l h30 hx => hz l (fun hin => ?_)) hd ho
  have := (List.all_eq_true.1 hl) l hin
  simp only [decide_eq_true_eq] at this
  omega

/-- A span that lies in one run of die SRAM or HBM4E on dies that are up does not wait. -/
theorem spanWaits_run {s : State} {ctx va n l : Nat} {k : PageKind} (write : Bool) (ht : translate s ctx va = .ok (.here l k, s))
    (hn : va % 65536 + n ≤ 65536) (h1 : addrWaits s va = false) (h2 : addrWaits s (va + n - 1) = false)
    (hl : ∀ i, i < n → locSpace (l + i) < 8) : spanWaits s write ctx va n = false := by
  have hb : frameHeld s write (((List.range n).map (fun i => Place.here (l + i) k)).filterMap Place.loc?) = false := by
    apply frameHeld_near
    intro x hx
    change x ∈ locsOf _ at hx
    rw [locsOf_run] at hx
    obtain ⟨i, hi, rfl⟩ := List.mem_map.1 hx
    exact hl i (List.mem_range.1 hi)
  simp only [spanWaits, h1, h2, places_run ht hn, hb, Bool.or_self]

/-- An image that lies in one such run does not wait. -/
theorem imageWaits_run {s : State} {ctx n l : Nat} {d : Bound} {e : Int} {k : PageKind}
    (ht : translate s ctx ((d.base : Int) + 8 * e).toNat = .ok (.here l k, s)) (hl : ((d.base : Int) + 8 * e).toNat % 65536 + n ≤ 65536)
    (hn : 1024 ≤ n) (hf : imgLength (ofBytes ((List.range 1024).map (fun i => s.peek (l + i)))) = n)
    (h1 : addrWaits s ((d.base : Int) + 8 * e).toNat = false) (h2 : addrWaits s (((d.base : Int) + 8 * e).toNat + n - 1) = false)
    (hs : ∀ i, i < n → locSpace (l + i) < 8) : imageWaits s ctx d e = false := by
  have hb : latestBytes s ((List.range 1024).map (fun i => Place.here (l + i) k)) = (List.range 1024).map (fun i => s.peek (l + i)) := by
    rw [latestBytes, List.map_map]; rfl
  simp only [imageWaits, places_run ht (show _ + 1024 ≤ 65536 by omega), hb, hf, show max 1024 n = n by omega]
  rw [spanWaits_run false ht hl h1 h2 hs, Bool.and_false]

end Machine
end Sys2Proof
end

