-- ==== Sys2Proof/Laws/Threads.lean ====
section
/-! SUPPORT. Registers of a thread: a write is read back, other registers are as before (R9), and what the end of a member's
instruction does to its thread (R32, R40). -/

namespace Sys2Proof
namespace Machine

/-! ## Lists -/

theorem getD_setAt_same {α : Type} (l : List α) (k : Nat) (x d : α) (h : k < l.length) : (setAt l k x).getD k d = x := by
  induction l generalizing k with
  | nil => simp at h
  | cons a as ih =>
    cases k with
    | zero => rfl
    | succ k =>
      simp only [List.length_cons, Nat.add_lt_add_iff_right] at h
      simpa [setAt] using ih k h

theorem getD_setAt_other {α : Type} (l : List α) (j k : Nat) (x d : α) (h : j ≠ k) : (setAt l j x).getD k d = l.getD k d := by
  induction l generalizing j k with
  | nil => rfl
  | cons a as ih =>
    cases j with
    | zero => cases k with
      | zero => exact absurd rfl h
      | succ k => rfl
    | succ j => cases k with
      | zero => rfl
      | succ k => simpa [setAt] using ih j k (fun he => h (by rw [he]))

@[simp] theorem length_setAt {α : Type} (l : List α) (k : Nat) (x : α) : (setAt l k x).length = l.length := by
  induction l generalizing k with
  | nil => rfl
  | cons a as ih => cases k <;> simp [setAt, ih]

/-! ## Rows (R9) -/

theorem rowOf_lt {n : Nat} {r : VReg} {k : Nat} (h : rowOf n r = some k) : k < n := by
  unfold rowOf at h
  simp only [] at h
  repeat' split at h
  all_goals first | (cases h; omega) | cases h

theorem rowOf_inj {n : Nat} {r r' : VReg} {k : Nat} (h : rowOf n r = some k) (h' : rowOf n r' = some k) : r = r' := by
  have key : ∀ x y : Nat, (if n ≤ 2 then (if x < n then some x else none) else if x + 2 < n then some x
      else if x = 253 then some (n - 2) else if x = 254 then some (n - 1) else none) = some k →
      (if n ≤ 2 then (if y < n then some y else none) else if y + 2 < n then some y
      else if y = 253 then some (n - 2) else if y = 254 then some (n - 1) else none) = some k → x = y := by
    intro x y hx hy
    by_cases h2 : n ≤ 2
    · simp only [h2, if_true] at hx hy
      split at hx <;> split at hy <;> simp_all
    · simp only [h2, if_false] at hx hy
      split at hx
      · split at hy
        · simp_all
        · split at hy
          · simp only [Option.some.injEq] at hx hy; omega
          · split at hy
            · simp only [Option.some.injEq] at hx hy; omega
            · simp at hy
      · split at hx
        · split at hy
          · simp only [Option.some.injEq] at hx hy; omega
          · split at hy
            · omega
            · split at hy
              · simp only [Option.some.injEq] at hx hy; omega
              · simp at hy
        · split at hx
          · split at hy
            · simp only [Option.some.injEq] at hx hy; omega
            · split at hy
              · simp only [Option.some.injEq] at hx hy; omega
              · split at hy
                · omega
                · simp at hy
          · simp at hx
  exact BitVec.eq_of_toNat_eq (key _ _ h h')

/-! ## One register -/

@[simp] theorem Thread.setV_length (t : Thread) (r : VReg) (x : Word) : (t.setV r x).regs.length = t.regs.length := by
  unfold Thread.setV
  split <;> simp

theorem Thread.getV_setV_same (t : Thread) (r : VReg) (x : Word) (h : (rowOf t.regs.length r).isSome) :
    (t.setV r x).getV r = x := by
  obtain ⟨k, hk⟩ := Option.isSome_iff_exists.1 h
  unfold Thread.getV
  rw [Thread.setV_length, hk]
  unfold Thread.setV
  rw [hk]
  exact getD_setAt_same _ _ _ _ (rowOf_lt hk)

theorem Thread.getV_setV_other (t : Thread) (r r' : VReg) (x : Word) (h : r ≠ r') : (t.setV r x).getV r' = t.getV r' := by
  unfold Thread.getV
  rw [Thread.setV_length]
  cases hk : rowOf t.regs.length r' with
  | none => rfl
  | some k =>
    unfold Thread.setV
    cases hj : rowOf t.regs.length r with
    | none => rfl
    | some j => exact getD_setAt_other _ _ _ _ _ (fun he => h (rowOf_inj (he ▸ hj) hk))

theorem Thread.getP_setP_same (t : Thread) (p : PReg) (b : Bool) (h : t.preds.length = 7) : (t.setP p b).getP p = b := by
  unfold Thread.getP Thread.setP
  exact getD_setAt_same _ _ _ _ (by rw [h]; exact p.isLt)

theorem Thread.getP_setP_other (t : Thread) (p q : PReg) (b : Bool) (h : p ≠ q) : (t.setP p b).getP q = t.getP q := by
  unfold Thread.getP Thread.setP
  exact getD_setAt_other _ _ _ _ _ (fun he => h (Fin.ext he))

theorem Thread.getVm_setVm_same (t : Thread) (p : VmReg) (b : ViewMask) (h : t.vms.length = 8) : (t.setVm p b).getVm p = b := by
  unfold Thread.getVm Thread.setVm
  exact getD_setAt_same _ _ _ _ (by rw [h]; exact p.isLt)

theorem Thread.getVm_setVm_other (t : Thread) (p q : VmReg) (b : ViewMask) (h : p ≠ q) : (t.setVm p b).getVm q = t.getVm q := by
  unfold Thread.getVm Thread.setVm
  exact getD_setAt_other _ _ _ _ _ (fun he => h (Fin.ext he))

/-- A register that is granted and is not vz has a row. -/
theorem granted_row {n : Nat} {r : VReg} (h : granted n r = true) (hz : r ≠ 0xFF) : (rowOf n r).isSome := by
  unfold granted at h
  rcases Bool.or_eq_true _ _ |>.mp h with h | h
  · exact absurd (by simpa using h) hz
  · exact h

/-! ## A list of writes -/

/-- What two writes of different registers name. -/
def Apart (a b : RegWrite) : Prop := a.same b = false

theorem Thread.getV_congr {t u : Thread} (h : t.regs = u.regs) (r : VReg) : t.getV r = u.getV r := by
  unfold Thread.getV; rw [h]
theorem Thread.getP_congr {t u : Thread} (h : t.preds = u.preds) (r : PReg) : t.getP r = u.getP r := by
  unfold Thread.getP; rw [h]
theorem Thread.getVm_congr {t u : Thread} (h : t.vms = u.vms) (r : VmReg) : t.getVm r = u.getVm r := by
  unfold Thread.getVm; rw [h]

/-- Windows apart, a fixed result is the write itself. -/
theorem Thread.writeFixed_eq (t : Thread) (l : Nat) (w : RegWrite) :
    ∃ ws, t.writeFixed l w = Thread.write { t with windows := ws } w := ⟨_, rfl⟩

@[simp] theorem Thread.write_reg_length (t : Thread) (w : RegWrite) : (t.write w).regs.length = t.regs.length := by
  cases w <;> simp [Thread.write]
@[simp] theorem Thread.write_pred_length (t : Thread) (w : RegWrite) : (t.write w).preds.length = t.preds.length := by
  cases w <;> simp [Thread.write, Thread.setP]
@[simp] theorem Thread.write_vm_length (t : Thread) (w : RegWrite) : (t.write w).vms.length = t.vms.length := by
  cases w <;> simp [Thread.write, Thread.setVm]

theorem Thread.getV_write_other (t : Thread) (w : RegWrite) (r : VReg) (h : ∀ x, w ≠ .v r x) : (t.write w).getV r = t.getV r := by
  cases w with
  | v q y =>
    refine Thread.getV_setV_other _ _ _ _ (fun he => ?_)
    subst he; exact h y rfl
  | p q y => exact Thread.getV_congr (by simp [Thread.write]) r
  | vm q y => exact Thread.getV_congr (by simp [Thread.write]) r

theorem Thread.getP_write_other (t : Thread) (w : RegWrite) (r : PReg) (h : ∀ x, w ≠ .p r x) : (t.write w).getP r = t.getP r := by
  cases w with
  | p q y =>
    refine Thread.getP_setP_other _ _ _ _ (fun he => ?_)
    subst he; exact h y rfl
  | v q y => exact Thread.getP_congr (by simp [Thread.write]) r
  | vm q y => exact Thread.getP_congr (by simp [Thread.write]) r

theorem Thread.getVm_write_other (t : Thread) (w : RegWrite) (r : VmReg) (h : ∀ x, w ≠ .vm r x) :
    (t.write w).getVm r = t.getVm r := by
  cases w with
  | vm q y =>
    refine Thread.getVm_setVm_other _ _ _ _ (fun he => ?_)
    subst he; exact h y rfl
  | v q y => exact Thread.getVm_congr (by simp [Thread.write]) r
  | p q y => exact Thread.getVm_congr (by simp [Thread.write]) r

/-- The thread after fixed results, windows apart. -/
theorem Thread.foldl_writeFixed (l : Nat) (ws : List RegWrite) (t : Thread) :
    (∀ r, (∀ x, .v r x ∉ ws) → (ws.foldl (fun t w => t.writeFixed l w) t).getV r = t.getV r) ∧
    (∀ r, (∀ x, .p r x ∉ ws) → (ws.foldl (fun t w => t.writeFixed l w) t).getP r = t.getP r) ∧
    (∀ r, (∀ x, .vm r x ∉ ws) → (ws.foldl (fun t w => t.writeFixed l w) t).getVm r = t.getVm r) ∧
    (ws.foldl (fun t w => t.writeFixed l w) t).regs.length = t.regs.length ∧
    (ws.foldl (fun t w => t.writeFixed l w) t).preds.length = t.preds.length ∧
    (ws.foldl (fun t w => t.writeFixed l w) t).vms.length = t.vms.length := by
  induction ws generalizing t with
  | nil => simp
  | cons w ws ih =>
    obtain ⟨i1, i2, i3, i4, i5, i6⟩ := ih (t.writeFixed l w)
    obtain ⟨q, hq⟩ := t.writeFixed_eq l w
    simp only [List.foldl_cons]
    refine ⟨fun r h => ?_, fun r h => ?_, fun r h => ?_, ?_, ?_, ?_⟩
    · rw [i1 r (fun x hx => h x (by simp [hx])), hq, Thread.getV_write_other _ _ _ (fun x he => h x (by simp [he]))]
      rfl
    · rw [i2 r (fun x hx => h x (by simp [hx])), hq, Thread.getP_write_other _ _ _ (fun x he => h x (by simp [he]))]
      rfl
    · rw [i3 r (fun x hx => h x (by simp [hx])), hq, Thread.getVm_write_other _ _ _ (fun x he => h x (by simp [he]))]
      rfl
    · rw [i4, hq]; simp
    · rw [i5, hq]; simp
    · rw [i6, hq]; simp

/-- Each of several writes of different registers is read back. -/
theorem Thread.foldl_writeFixed_mem (l : Nat) (ws : List RegWrite) (hd : ws.Pairwise Apart) (t : Thread) :
    (∀ r x, .v r x ∈ ws → (rowOf t.regs.length r).isSome → (ws.foldl (fun t w => t.writeFixed l w) t).getV r = x) ∧
    (∀ r x, .p r x ∈ ws → t.preds.length = 7 → (ws.foldl (fun t w => t.writeFixed l w) t).getP r = x) ∧
    (∀ r x, .vm r x ∈ ws → t.vms.length = 8 → (ws.foldl (fun t w => t.writeFixed l w) t).getVm r = x) := by
  induction ws generalizing t with
  | nil => simp
  | cons w ws ih =>
    have hd' := List.pairwise_cons.1 hd
    obtain ⟨q, hq⟩ := t.writeFixed_eq l w
    have hl : (t.writeFixed l w).regs.length = t.regs.length := by rw [hq]; simp
    have hp : (t.writeFixed l w).preds.length = t.preds.length := by rw [hq]; simp
    have hv : (t.writeFixed l w).vms.length = t.vms.length := by rw [hq]; simp
    obtain ⟨i1, i2, i3⟩ := ih hd'.2 (t.writeFixed l w)
    obtain ⟨f1, f2, f3, -, -, -⟩ := Thread.foldl_writeFixed l ws (t.writeFixed l w)
    simp only [List.foldl_cons]
    refine ⟨fun r x h hr => ?_, fun r x h hr => ?_, fun r x h hr => ?_⟩
    · rcases List.mem_cons.1 h with rfl | h
      · rw [f1 r (fun y hy => by have := hd'.1 _ hy; simp [Apart, RegWrite.same] at this), hq]
        exact Thread.getV_setV_same _ _ _ hr
      · exact i1 r x h (by rw [hl]; exact hr)
    · rcases List.mem_cons.1 h with rfl | h
      · rw [f2 r (fun y hy => by have := hd'.1 _ hy; simp [Apart, RegWrite.same] at this), hq]
        exact Thread.getP_setP_same _ _ _ hr
      · exact i2 r x h (by rw [hp]; exact hr)
    · rcases List.mem_cons.1 h with rfl | h
      · rw [f3 r (fun y hy => by have := hd'.1 _ hy; simp [Apart, RegWrite.same] at this), hq]
        exact Thread.getVm_setVm_same _ _ _ hr
      · exact i3 r x h (by rw [hv]; exact hr)

/-! ## The end of a member's instruction -/

theorem Thread.foldl_writeFixed_rest (l : Nat) (ws : List RegWrite) (t : Thread) :
    (ws.foldl (fun t w => t.writeFixed l w) t).pc = t.pc ∧ (ws.foldl (fun t w => t.writeFixed l w) t).fflags = t.fflags ∧
    (ws.foldl (fun t w => t.writeFixed l w) t).stall = t.stall ∧ (ws.foldl (fun t w => t.writeFixed l w) t).owed = t.owed ∧
    (ws.foldl (fun t w => t.writeFixed l w) t).depth = t.depth ∧ (ws.foldl (fun t w => t.writeFixed l w) t).live = t.live ∧
    (ws.foldl (fun t w => t.writeFixed l w) t).trap = t.trap ∧ (ws.foldl (fun t w => t.writeFixed l w) t).view = t.view ∧
    (ws.foldl (fun t w => t.writeFixed l w) t).parked = t.parked ∧ (ws.foldl (fun t w => t.writeFixed l w) t).wait = t.wait := by
  induction ws generalizing t with
  | nil => simp
  | cons w ws ih =>
    have h := ih (t.writeFixed l w)
    have hw : (t.writeFixed l w).pc = t.pc ∧ (t.writeFixed l w).fflags = t.fflags ∧ (t.writeFixed l w).stall = t.stall ∧
        (t.writeFixed l w).owed = t.owed ∧ (t.writeFixed l w).depth = t.depth ∧ (t.writeFixed l w).live = t.live ∧
        (t.writeFixed l w).trap = t.trap ∧ (t.writeFixed l w).view = t.view ∧ (t.writeFixed l w).parked = t.parked ∧
        (t.writeFixed l w).wait = t.wait := by
      unfold Thread.writeFixed Thread.write
      cases w <;> simp
    simp only [List.foldl_cons]
    simp [h, hw]

/-- Fixed results (R40): written at once. -/
theorem Thread.apply_fixed (t : Thread) (n l : Nat) (e : Effect) (he : e.lat = some l) (hd : e.writes.Pairwise Apart) :
    (∀ r x, .v r x ∈ e.writes → (rowOf t.regs.length r).isSome → (t.apply n e).getV r = x) ∧
    (∀ r x, .p r x ∈ e.writes → t.preds.length = 7 → (t.apply n e).getP r = x) ∧
    (∀ r x, .vm r x ∈ e.writes → t.vms.length = 8 → (t.apply n e).getVm r = x) ∧
    (∀ r, (∀ x, .v r x ∉ e.writes) → (t.apply n e).getV r = t.getV r) ∧
    (∀ r, (∀ x, .p r x ∉ e.writes) → (t.apply n e).getP r = t.getP r) ∧
    (∀ r, (∀ x, .vm r x ∉ e.writes) → (t.apply n e).getVm r = t.getVm r) ∧
    (t.apply n e).fflags = t.fflags ||| e.flags ∧ (t.apply n e).pc = e.next.getD (t.pc + 8) ∧ (t.apply n e).stall = n ∧
    (t.apply n e).owed = t.owed ∧ (t.apply n e).depth = e.depth.getD t.depth ∧ (t.apply n e).live = t.live ∧
    (t.apply n e).trap = t.trap ∧ (t.apply n e).view = t.view ∧ (t.apply n e).parked = (t.parked || e.park) ∧
    (t.apply n e).wait = none := by
  generalize hw : ({ t with stall := n, windows := ageWindows n t.windows [], wait := none } : Thread) = t0
  have r0 : t0.regs = t.regs ∧ t0.preds = t.preds ∧ t0.vms = t.vms ∧ t0.fflags = t.fflags ∧ t0.owed = t.owed ∧
      t0.depth = t.depth ∧ t0.live = t.live ∧ t0.trap = t.trap ∧ t0.view = t.view ∧ t0.parked = t.parked ∧ t0.stall = n ∧
      t0.wait = none := by subst hw; exact ⟨rfl, rfl, rfl, rfl, rfl, rfl, rfl, rfl, rfl, rfl, rfl, rfl⟩
  have ha : t.apply n e = { (e.writes.foldl (fun t w => t.writeFixed (l - n) w) t0).mergeFlags e.flags with
      pc := e.next.getD (t.pc + 8), depth := e.depth.getD t.depth, parked := t.parked || e.park } := by
    unfold Thread.apply
    rw [hw, he]; simp only []
    obtain ⟨p1, -, -, -, p5, -, -, -, p9, -⟩ := Thread.foldl_writeFixed_rest (l - n) e.writes t0
    have q1 : t0.pc = t.pc := by subst hw; rfl
    congr 1
    · simp [p1, q1]
    · simp [p5, r0]
    · simp [p9, r0]
  obtain ⟨m1, m2, m3⟩ := Thread.foldl_writeFixed_mem (l - n) e.writes hd t0
  obtain ⟨f1, f2, f3, -, -, -⟩ := Thread.foldl_writeFixed (l - n) e.writes t0
  obtain ⟨-, q2, q3, q4, -, q6, q7, q8, -, q10⟩ := Thread.foldl_writeFixed_rest (l - n) e.writes t0
  rw [ha]
  refine ⟨fun r x h hr => ?_, fun r x h hr => ?_, fun r x h hr => ?_, fun r h => ?_, fun r h => ?_, fun r h => ?_,
    ?_, rfl, ?_, ?_, rfl, ?_, ?_, ?_, rfl, ?_⟩
  · exact Eq.trans (Thread.getV_congr rfl r) (m1 r x h (by rw [r0.1]; exact hr))
  · exact Eq.trans (Thread.getP_congr rfl r) (m2 r x h (by rw [r0.2.1]; exact hr))
  · exact Eq.trans (Thread.getVm_congr rfl r) (m3 r x h (by rw [r0.2.2.1]; exact hr))
  · exact Eq.trans (Eq.trans (Thread.getV_congr rfl r) (f1 r h)) (Thread.getV_congr r0.1 r)
  · exact Eq.trans (Eq.trans (Thread.getP_congr rfl r) (f2 r h)) (Thread.getP_congr r0.2.1 r)
  · exact Eq.trans (Eq.trans (Thread.getVm_congr rfl r) (f3 r h)) (Thread.getVm_congr r0.2.2.1 r)
  · simp [Thread.mergeFlags, q2, r0]
  · simp [q3, r0]
  · simp [q4, r0]
  · simp [q6, r0]
  · simp [q7, r0]
  · simp [q8, r0]
  · simp [q10, r0]

/-- Scoreboarded results (R32): owed, nothing written. -/
theorem Thread.apply_late (t : Thread) (n : Nat) (e : Effect) (he : e.lat = none) :
    (t.apply n e).regs = t.regs ∧ (t.apply n e).preds = t.preds ∧ (t.apply n e).vms = t.vms ∧
    (t.apply n e).fflags = t.fflags ∧ (t.apply n e).pc = e.next.getD (t.pc + 8) ∧ (t.apply n e).stall = n ∧
    (t.apply n e).depth = e.depth.getD t.depth ∧ (t.apply n e).live = t.live ∧ (t.apply n e).trap = t.trap ∧
    (t.apply n e).view = t.view ∧ (t.apply n e).parked = (t.parked || e.park) ∧ (t.apply n e).wait = none ∧
    (t.apply n e).owed = (if e.writes.isEmpty && !e.flagged && !e.memory then t.owed
      else t.owed ++ [Owed.mk e.writes e.flags e.flagged e.memory e.load e.queue e.tag]) := by
  unfold Thread.apply
  rw [he]
  simp only []
  split <;> simp

end Machine
end Sys2Proof
end

