-- ==== Sys2Proof/Laws/Results.lean ====
section
/-! SUPPORT. How an instruction whose part at each member is a result completes: written at once, or owed. -/

namespace Sys2Proof
namespace Machine

/-- A member that performs an instruction of fixed latency. -/
theorem writesNow {i : Instr} {body : Member → State → MRes} {s : State} {m : Member} {l : Nat} {ws : List RegWrite} {fl : Flags}
    {b : Bool} (hk : ∀ m s, (body m s).keeps m s) (ht : traceType i = none) (hp : Performs s m i)
    (hb : ∀ z, OnlyCores s z → body m z = .done z { lat := some l, writes := ws, flags := fl, flagged := b })
    (hd : ws.Pairwise Apart) : WritesNow (.next (runCore i body s)) m i ws fl := by
  obtain ⟨y, hy, -, -, z, f, hz, h1, h2⟩ := runCore_local hk ht hp.1
  rw [hy]
  have hf : f = id := h2 (fun s' e he => by rw [hb z hz] at he; simp only [MRes.done.injEq] at he; exact he.1.symm)
  rw [hp.2, hb z hz, hf] at h1
  obtain ⟨a1, a2, a3, -, -, -, a7, a8, a9, a10, -⟩ := Thread.apply_fixed m.t (stallOf i) l
    { lat := some l, writes := ws, flags := fl, flagged := b } rfl hd
  exact ⟨_, _, rfl, ((OnlyWrites.traceRaised ..).thread? _ _).trans h1, fun r x h hg hz => a1 r x h (granted_row hg hz), a2, a3, a7, a8, a9, a10⟩

/-- A member that performs an instruction with a scoreboarded result. -/
theorem writesLater {i : Instr} {body : Member → State → MRes} {s : State} {m : Member} {w : RegWrite} {ws : List RegWrite}
    {fl : Flags} {b memory load : Bool} (hk : ∀ m s, (body m s).keeps m s) (ht : traceType i = none)
    (hp : Performs s m i)
    (hb : ∀ z, OnlyCores s z → body m z = .done z { writes := w :: ws, flags := fl, flagged := b, memory, load }) :
    WritesLater (.next (runCore i body s)) m i (w :: ws) fl memory load := by
  obtain ⟨y, hy, -, -, z, f, hz, h1, h2⟩ := runCore_local hk ht hp.1
  rw [hy]
  have hf : f = id := h2 (fun s' e he => by rw [hb z hz] at he; simp only [MRes.done.injEq] at he; exact he.1.symm)
  rw [hp.2, hb z hz, hf] at h1
  obtain ⟨a1, a2, a3, a4, a5, a6, -, -, -, -, -, -, a13⟩ := Thread.apply_late m.t (stallOf i)
    { writes := w :: ws, flags := fl, flagged := b, memory, load } rfl
  exact ⟨_, _, rfl, ((OnlyWrites.traceRaised ..).thread? _ _).trans h1, ⟨_, a13, rfl, rfl, rfl, rfl⟩, a1, a2, a3, a4, a5, a6⟩

end Machine
end Sys2Proof
end

