-- ==== Sys2Proof/Machine/Zwion.lean ====
section
/-! DEFINITION. The loader of Zwion objects (R219 to R225), as functions on bytes. The loader is a program: no step of the machine
calls it (DESIGN CHOICE, log 18). -/

namespace Sys2Proof.Machine.Zwion

/-- The loader's codes. Table 19.1 does not number them. -/
inductive LoadCode where
  | objFormat | objPlace | relUndef | relDup | relSite | relAlign | relOverflow | relPair | relGot | relKind
  deriving DecidableEq, Repr

/-- A refused load: the code, and the index of the record that failed, where one did (R225). -/
structure Refused where
  code : LoadCode
  record : Option Nat
  deriving DecidableEq, Repr

/-- The header (Table 15.1). -/
structure Header where
  pref : Nat
  nsect : Nat
  nkern : Nat
  nsym : Nat
  nrel : Nat
  sectOff : Nat
  kernOff : Nat
  symOff : Nat
  relOff : Nat
  strOff : Nat
  strLen : Nat
  deriving DecidableEq, Repr

/-- A section entry (Table 15.2): kind 1 code, 2 constant, 3 global offset table. -/
structure Sect where
  kind : Nat
  imgOff : Nat
  size : Nat
  fileOff : Nat
  deriving DecidableEq, Repr

/-- A symbol entry (Table 15.3), with the bytes of its name. -/
structure Symbol where
  name : List Byte
  sect : Nat
  isGlobal : Bool
  kind : Nat
  value : Nat
  krec : Nat
  deriving DecidableEq, Repr

/-- A kernel record (Table 15.4). -/
structure Kernel where
  entry : Nat
  regs : Nat
  wgsize : Nat
  pontil : Bool
  bnd : List Nat
  fmt : List Nat
  deriving DecidableEq, Repr

/-- A relocation record (Table 15.5). -/
structure Reloc where
  site : Nat
  kind : Nat
  sym : Nat
  pair : Nat
  addend : Int
  deriving DecidableEq, Repr

/-- What an object holds. -/
structure Object where
  sects : List Sect
  symbols : List Symbol
  kernels : List Kernel
  relocs : List Reloc
  deriving DecidableEq, Repr

/-- A code image: the bytes of b62 and their number, the loaded objects (base and length), the global symbols and the kernels by offset. -/
structure Image where
  size : Nat
  mem : List Host.Cell
  loaded : List (Nat × Nat)
  globals : List (List Byte × Nat)
  kernels : List (Nat × Kernel)
  deriving DecidableEq, Repr

/-! ## Reading the file -/

/-- The number in `n` bytes of the file from `ofs`, least significant byte first (R2). -/
def fileNat (file : List Byte) (ofs n : Nat) : Nat := ofBytes ((file.drop ofs).take n)

/-- Entry `i` of a table whose entries are `n` bytes each. -/
def fileEntry (file : List Byte) (ofs n i : Nat) : Nat := fileNat file (ofs + n * i) n

def headerOf (file : List Byte) : Header :=
  let h := fileNat file 0 64
  { pref := natField h 64 64, nsect := natField h 128 8, nkern := natField h 144 16, nsym := natField h 160 32, nrel := natField h 192 32
    sectOff := natField h 256 32, kernOff := natField h 288 32, symOff := natField h 320 32, relOff := natField h 352 32
    strOff := natField h 384 32, strLen := natField h 416 32 }

/-- The checks of Table 15.1, and that no table runs past the end of the file (R219). A table of no entries whose offset lies past
the end counts as one that does, and so do the contents of an empty section (DESIGN CHOICE, log 18). -/
def headerOk (file : List Byte) : Bool :=
  let b := fileNat file 0 64
  let h := headerOf file
  let inFile (ofs n k : Nat) : Bool := decide (ofs + n * k ≤ file.length)
  decide (64 ≤ file.length) && natField b 0 32 == 0x314F575A && natField b 32 16 == 1 && natField b 48 16 == 0 &&
  h.pref % 64 == 0 && decide (1 ≤ h.nsect ∧ h.nsect ≤ 3) && natField b 136 8 == 0 && natField b 224 32 == 0 && natField b 448 64 == 0 &&
  [h.sectOff, h.kernOff, h.symOff, h.relOff].all (fun o => o % 8 == 0) &&
  inFile h.sectOff 32 h.nsect && inFile h.kernOff 256 h.nkern && inFile h.symOff 32 h.nsym && inFile h.relOff 32 h.nrel &&
  inFile h.strOff 1 h.strLen

def sectOf (e : Nat) : Sect := ⟨natField e 0 4, natField e 64 64, natField e 128 64, natField e 192 32⟩

/-- The checks of Table 15.2. A section's contents lie inside the file. -/
def sectOk (fileLen e : Nat) : Bool :=
  let x := sectOf e
  decide (1 ≤ x.kind ∧ x.kind ≤ 3) && natField e 4 60 == 0 && x.imgOff % 64 == 0 && natField e 224 32 == 0 &&
  (if x.kind = 3 then x.size % 8 == 0 && x.fileOff == 0 else x.size % 64 == 0 && decide (x.fileOff + x.size ≤ fileLen))

/-- Ranges of bytes that share none. -/
def rangesApart (a n b m : Nat) : Bool := n == 0 || m == 0 || decide (a + n ≤ b ∨ b + m ≤ a)

/-- Two sections of one object differ in kind and do not overlap (R220). -/
def sectsApart (x y : Sect) : Bool := x.kind != y.kind && rangesApart x.imgOff x.size y.imgOff y.size

/-- Every section is apart from every later one. -/
def allApart : List Sect → Bool
  | [] => true
  | x :: xs => xs.all (sectsApart x) && allApart xs

def isLetter (b : Byte) : Bool := decide ((65 ≤ b.toNat ∧ b.toNat ≤ 90) ∨ (97 ≤ b.toNat ∧ b.toNat ≤ 122)) || b == 95
def isDigit (b : Byte) : Bool := decide (48 ≤ b.toNat ∧ b.toNat ≤ 57)

/-- The bytes of a word of text. -/
def textBytes (t : String) : List Byte := t.toList.map (fun c => BitVec.ofNat 8 c.toNat)

/-- The mnemonics, without their suffixes. -/
def mnemonics : List String :=
  ["nop", "iadd", "isub", "imul", "imulh", "imad", "iand", "ior", "ixor", "iandn", "ishl", "ishr", "irot", "icmp", "ilim", "isel", "ibit", "bfx", "bfi", "iun", "addk", "adpc", "movk", "movhk", "rdsr", "wrsr"] ++
  ["fadd", "fsub", "fmul", "ffma", "fdiv", "fsqrt", "frcp", "flim", "fcmp", "fclass", "fsgn", "frnd", "cvt", "fscale", "fexp2", "flog2", "fexp", "flog", "frsqrt", "fsin", "fcos", "ftanh", "ferf", "bpack", "bunpack"] ++
  ["setfmt", "getfmt", "lmov", "vote", "perm", "rdind", "wrind", "plog", "pmov", "ld", "st", "ldp", "stp", "ldfe", "stfe", "pf", "atom", "fence", "bsync", "binit", "barr", "bwait", "nbpost", "nbget", "nbinit", "vmcnt"] ++
  ["vmtest", "vmop", "vmffs", "vmget", "vmset", "br", "bri", "call", "calli", "ret", "spawn", "join", "exit", "trap", "brk", "fork", "rdv", "cpy", "gth", "sct", "xds", "tpf", "col", "engst", "ocld", "mma", "mmas", "smrs", "drn"] ++
  ["drnm", "azero", "qop", "qmovk", "qld", "qst", "pbr", "loop", "parr", "pend", "rdpr", "wrpr", "bfinv", "tlbinv", "hqctl", "lehrsv", "lehrld", "stopt"]

/-- The bytes of a number below 1,000 in decimal. -/
def decimalBytes (n : Nat) : List Byte :=
  let digit := fun k => BitVec.ofNat 8 (48 + k % 10)
  (if 100 ≤ n then [digit (n / 100)] else []) ++ (if 10 ≤ n then [digit (n / 10)] else []) ++ [digit n]

/-- The register classes of Table 1.5 by the text before the number, with how many there are. -/
def registerClasses : List (String × Nat) := [("v", 255), ("p", 7), ("vm", 8), ("f", 16), ("q", 32), ("lc", 4), ("a", 16)]

/-- The name of a register: of Table 1.5, or lr or sp, which R22 accepts for two of them (DEDUCED, log 18). A special register's
name has a dot, which no symbol has. -/
def isRegisterName (name : List Byte) : Bool :=
  ["vz", "cw", "lr", "sp"].any (fun r => name == textBytes r) ||
  registerClasses.any (fun c => (List.range c.2).any (fun k => name == textBytes c.1 ++ decimalBytes k))

/-- A name that R17 reserves. -/
def isReserved (name : List Byte) : Bool := isRegisterName name || mnemonics.any (fun m => name == textBytes m)

/-- The form of a symbol's name (R17, R221). -/
def nameOk (name : List Byte) : Bool :=
  (match name with
  | [] => false
  | b :: bs => isLetter b && bs.all (fun c => isLetter c || isDigit c) && decide (bs.length + 1 ≤ 255)) && !(isReserved name)

/-- The string-table bytes from an offset up to the first zero byte; none where no zero byte follows. -/
def nameAt (strings : List Byte) (ofs : Nat) : Option (List Byte) :=
  let rest := strings.drop ofs
  if rest.contains 0 then some (rest.takeWhile (fun b => b != 0)) else none

def symbolOf (strings : List Byte) (e : Nat) : Option Symbol :=
  (nameAt strings (natField e 0 32)).map (fun name =>
    ⟨name, natField e 32 2, natField e 34 2 == 1, natField e 36 3, natField e 64 64, natField e 128 16⟩)

/-- The checks of Table 15.3. -/
def symbolOk (h : Header) (e : Nat) (x : Symbol) : Bool :=
  nameOk x.name && decide (natField e 0 32 < h.strLen) && decide (x.sect ≤ h.nsect) && decide (natField e 34 2 ≤ 1) && decide (x.kind ≤ 3) &&
  natField e 39 25 == 0 && (if x.sect = 0 then x.value == 0 else x.value % 64 == 0) &&
  (if x.kind = 1 ∨ x.kind = 2 then decide (x.krec < h.nkern) else x.krec == 0) && natField e 144 112 == 0

def kernelOf (e : Nat) : Kernel :=
  { entry := natField e 0 32, regs := natField e 32 8, wgsize := natField e 40 11, pontil := natField e 51 1 == 1
    bnd := (List.range 62).map (fun n => natField e (128 + 16 * n) 16), fmt := (List.range 12).map (fun j => natField e (1152 + 64 * j) 64) }

/-- The checks of Table 15.4. Whether a definition is legal is judged at the launch (R27, R235). A routine's record is not refused
for a BND or an FMT that is not zero (R26; DESIGN CHOICE, log 18). -/
def kernelOk (e : Nat) : Bool :=
  let k := kernelOf e
  k.entry % 64 == 0 && (if k.pontil then k.regs == 0 && k.wgsize == 0 else decide (1 ≤ k.regs ∧ 1 ≤ k.wgsize ∧ k.wgsize ≤ 1024)) &&
  natField e 52 76 == 0 && k.bnd.all (fun x => natField x 3 1 == 0 && decide (natField x 4 9 ≤ 256) && natField x 13 3 == 0) &&
  natField e 1120 32 == 0 && natField e 1920 128 == 0

def relocOf (e : Nat) : Reloc := ⟨natField e 0 32, natField e 32 8, natField e 64 32, natField e 96 32, signedOf 64 (natField e 128 64)⟩

/-- The checks of Table 15.5. A kind outside Table 15.6 is refused at its record (REL_KIND). -/
def relocOk (h : Header) (e : Nat) : Bool :=
  let r := relocOf e
  r.site % 8 == 0 && natField e 40 24 == 0 && decide (r.sym < h.nsym) && (if r.kind = 3 then r.pair % 8 == 0 else r.pair == 0) &&
  natField e 192 64 == 0

/-- Every entry of the global offset table has its GOTENT record (R220). -/
def tableFilled (sects : List Sect) (relocs : List Reloc) : Bool :=
  sects.all (fun x => x.kind != 3 || (List.range (x.size / 8)).all (fun k =>
    relocs.any (fun r => r.kind == 5 && r.site == x.imgOff + 8 * k)))

/-- The object in a file that passes every check of R219 to R223 on its format. -/
def readObject (file : List Byte) : Option Object :=
  let h := headerOf file
  let entries (ofs n k : Nat) : List Nat := (List.range k).map (fileEntry file ofs n)
  if !(headerOk file) then none
  else
    let ss := entries h.sectOff 32 h.nsect
    let ks := entries h.kernOff 256 h.nkern
    let ys := entries h.symOff 32 h.nsym
    let rs := entries h.relOff 32 h.nrel
    let strings := (file.drop h.strOff).take h.strLen
    match ys.mapM (symbolOf strings) with
    | none => none
    | some symbols =>
      let sects := ss.map sectOf
      if ss.all (sectOk file.length) && allApart sects && (ys.zip symbols).all (fun p => symbolOk h p.1 p.2) && ks.all kernelOk &&
          rs.all (relocOk h) && tableFilled sects (rs.map relocOf) then
        some ⟨sects, symbols, ks.map kernelOf, rs.map relocOf⟩
      else none

/-! ## Placement and symbols -/

/-- The length L of an object: the largest IMGOFF + SIZE (R220). -/
def lengthOf (o : Object) : Nat := o.sects.foldl (fun n x => max n (x.imgOff + x.size)) 0

/-- R225, step 1: the base is a multiple of 64, and the object lies inside b62 and overlaps no loaded object. An object of no byte
is refused at a base beyond the end of b62 (DESIGN CHOICE, log 18). -/
def placeOk (im : Image) (base len : Nat) : Bool :=
  base % 64 == 0 && decide (base + len ≤ im.size) && im.loaded.all (fun p => rangesApart base len p.1 p.2)

/-- The offset of a global symbol of the image. -/
def globalOf (im : Image) (name : List Byte) : Option Nat := (im.globals.find? (fun p => p.1 == name)).map (·.2)

/-- R221: the b62 offset of a symbol. Two definitions of one global name in one object are both taken, and the first is the one that
later objects find (DESIGN CHOICE, log 18). -/
def resolve (im : Image) (base : Nat) (x : Symbol) : Except LoadCode Nat :=
  if x.sect = 0 then
    match globalOf im x.name with
    | some s => .ok s
    | none => .error .relUndef
  else if x.isGlobal ∧ (globalOf im x.name).isSome then .error .relDup
  else .ok (base + x.value)

/-! ## Records -/

/-- A field to write: the file word or entry at SITE, its lowest bit and width, and the value. -/
structure Patch where
  site : Nat
  lo : Nat
  width : Nat
  value : Nat
  deriving DecidableEq, Repr

/-- The field a kind writes: its lowest bit and width (Table 15.6). -/
def fieldOf : Nat → Option (Nat × Nat)
  | 1 => some (6, 26)
  | 2 => some (12, 20)
  | 3 => some (0, 12)
  | 4 => some (12, 14)
  | 5 => some (0, 64)
  | _ => none

/-- The section of a kind that holds all 8 bytes at SITE. -/
def sectAt (o : Object) (kind site : Nat) : Option Sect :=
  o.sects.find? (fun x => x.kind == kind && decide (x.imgOff ≤ site ∧ site + 8 ≤ x.imgOff + x.size))

/-- The word in the file at a site of a section. -/
def wordAt (file : List Byte) (x : Sect) (site : Nat) : Nat := fileNat file (x.fileOff + (site - x.imgOff)) 8

/-- Whether a word is one that a kind patches (Table 15.6). -/
def wordFits (kind w : Nat) : Bool :=
  let maj := natField w 56 8
  match kind with
  | 1 => maj == 0xBB || (maj == 0x90 && ((splitB (BitVec.ofNat 64 w)).kind.toNat == 0 || (splitB (BitVec.ofNat 64 w)).kind.toNat == 2))
  | 2 => maj == 0x15
  | 3 => maj == 0x14
  | 4 => natField maj 4 4 == 6 && natField w 0 4 == 0
  | _ => false

/-- The site is one the kind patches, its field holds zero in the file, and no earlier record writes it (R223). -/
def siteOk (file : List Byte) (o : Object) (done : List Patch) (r : Reloc) (lo width : Nat) : Bool :=
  done.all (fun p => p.site != r.site || decide (p.lo + p.width ≤ lo ∨ lo + width ≤ p.lo)) &&
  (if r.kind = 5 then (sectAt o 3 r.site).isSome
   else match sectAt o 1 r.site with
     | none => false
     | some x => let w := wordAt file x r.site; wordFits r.kind w && natField w lo width == 0)

/-- Pb: the start of the fetch block of a site. -/
def blockBase (base site : Nat) : Int := ((base + site - (base + site) % 64 : Nat) : Int)

/-- hi of Table 15.6. -/
def hiOf (target pb : Int) : Int := (target - pb + 0x800) / 0x1000

/-- G: the b62 offset of the entry that a GOTENT record naming the symbol with addend 0 writes. -/
def entryOf (o : Object) (base sym : Nat) : Option Nat :=
  (o.relocs.find? (fun q => q.kind == 5 && q.sym == sym && q.addend == 0)).map (fun q => base + q.site)

/-- The value of a record's field, or the code it is refused with (Table 15.6). `s` is the symbol's b62 offset. -/
def valueOf (o : Object) (base : Nat) (r : Reloc) (symKind s : Nat) : Except LoadCode Int :=
  let target : Int := (s : Int) + r.addend
  match r.kind with
  | 1 =>
    let d := (target - blockBase base r.site) / 64
    if target % 64 ≠ 0 then .error .relAlign else if d < -2 ^ 25 ∨ 2 ^ 25 ≤ d then .error .relOverflow else .ok d
  | 2 =>
    let h := hiOf target (blockBase base r.site)
    if h < -524288 ∨ 524287 < h then .error .relOverflow else .ok h
  | 3 =>
    if o.relocs.any (fun q => q.kind == 2 && q.site == r.pair && q.sym == r.sym && q.addend == r.addend) then
      let pb := blockBase base r.pair
      .ok (target - pb - hiOf target pb * 0x1000)
    else .error .relPair
  | 4 =>
    match entryOf o base r.sym with
    | none => .error .relGot
    | some g =>
      let v : Int := ((g / 8 : Nat) : Int) + r.addend
      if v < 0 ∨ 8191 < v then .error .relOverflow else .ok v
  | 5 => if target % 64 ≠ 0 ∧ symKind ≤ 2 then .error .relAlign else .ok target
  | _ => .error .relKind

/-- One record, evaluated against the file's contents. -/
def evaluate (file : List Byte) (o : Object) (base : Nat) (offsets : List Nat) (done : List Patch) (r : Reloc) : Except LoadCode Patch :=
  match fieldOf r.kind, o.symbols[r.sym]?, offsets[r.sym]? with
  | some (lo, width), some x, some s =>
    if !(siteOk file o done r lo width) then .error .relSite
    else match valueOf o base r x.kind s with
      | .error c => .error c
      | .ok v => .ok ⟨r.site, lo, width, patternOf width v⟩
  | _, _, _ => .error .relKind

/-- Every record in table order; the first that fails refuses the load (R225, step 3). -/
def evaluateAll (file : List Byte) (o : Object) (base : Nat) (offsets : List Nat) : List Reloc → Nat → List Patch → Except Refused (List Patch)
  | [], _, done => .ok done
  | r :: rs, i, done => match evaluate file o base offsets done r with
    | .error c => .error ⟨c, some i⟩
    | .ok p => evaluateAll file o base offsets rs (i + 1) (done ++ [p])

/-! ## Writing the image -/

def putBytes : List Host.Cell → Nat → List Byte → List Host.Cell
  | m, _, [] => m
  | m, a, b :: bs => putBytes (memPut m a b) (a + 1) bs

/-- A section's contents; the global offset table has none in the file (R220). -/
def putSect (file : List Byte) (base : Nat) (m : List Host.Cell) (x : Sect) : List Host.Cell :=
  if x.kind = 3 then m else putBytes m (base + x.imgOff) ((file.drop x.fileOff).take x.size)

/-- The number in 8 bytes of the image. -/
def imageNat (m : List Host.Cell) (a : Nat) : Nat := ofBytes ((List.range 8).map (fun i => memGet m (a + i)))

/-- A patched field: the other bits of its word or entry stay. An entry is all field. -/
def putPatch (base : Nat) (m : List Host.Cell) (p : Patch) : List Host.Cell :=
  let a := base + p.site
  let old := if p.width = 64 then 0 else imageNat m a
  putBytes m a (bytesOf (old + p.value * 2 ^ p.lo) 8)

/-- Load an object, whose contents stand in `file`, at a base: nothing is written before every check and every record has
passed. -/
def loadObject (im : Image) (file : List Byte) (o : Object) (base : Nat) : Except Refused Image :=
  if !(placeOk im base (lengthOf o)) then .error ⟨.objPlace, none⟩
  else match o.symbols.mapM (resolve im base) with
    | .error c => .error ⟨c, none⟩
    | .ok offsets => match evaluateAll file o base offsets o.relocs 0 [] with
      | .error f => .error f
      | .ok patches =>
        .ok { size := im.size
              mem := patches.foldl (putPatch base) (o.sects.foldl (putSect file base) im.mem)
              loaded := im.loaded ++ [(base, lengthOf o)]
              globals := im.globals ++ (o.symbols.filter (fun x => x.isGlobal && x.sect != 0)).map (fun x => (x.name, base + x.value))
              kernels := im.kernels ++ o.kernels.map (fun k => (base + k.entry, k)) }

/-- Load a file at a base (R225). -/
def load (im : Image) (file : List Byte) (base : Nat) : Except Refused Image :=
  match readObject file with
  | none => .error ⟨.objFormat, none⟩
  | some o => loadObject im file o base

/-! ## Combining objects (R224) -/

/-- An object with the file its contents stand in. -/
structure Part where
  file : List Byte
  object : Object

/-- The bytes of a kind of section of some objects. -/
def kindSize (ps : List Part) (kind : Nat) : Nat :=
  (ps.flatMap (fun p => (p.object.sects.filter (fun x => x.kind == kind)).map (·.size))).foldl (· + ·) 0

/-- The kinds of section that some object has. -/
def kindsOf (ps : List Part) : List Nat := [1, 2, 3].filter (fun k => ps.any (fun p => p.object.sects.any (fun x => x.kind == k)))

/-- Where a kind of section begins: each at the next multiple of 64 after the kinds before it, as pypas places them (R220). -/
def kindBase (ps : List Part) (kind : Nat) : Nat :=
  ((List.range kind).map (fun k => (kindSize ps k + 63) / 64 * 64)).foldl (· + ·) 0

/-- The contents of a kind of section of some objects, in order. -/
def kindBytes (ps : List Part) (kind : Nat) : List Byte :=
  ps.flatMap (fun p => (p.object.sects.filter (fun x => x.kind == kind)).flatMap (fun x => (p.file.drop x.fileOff).take x.size))

/-- Where an offset that belongs to a section of an object goes, when the section follows those of `before`. -/
def movedIn (all before : List Part) (x : Sect) (ofs : Nat) : Nat := kindBase all x.kind + kindSize before x.kind + ofs - x.imgOff

/-- Where a site goes: with the section that holds it; one in no section stays in none, beyond all of them. -/
def movedSite (all before : List Part) (o : Object) (site : Nat) : Nat :=
  match o.sects.find? (fun x => decide (x.imgOff ≤ site ∧ site < x.imgOff + x.size)) with
  | some x => movedIn all before x site
  | none => kindBase all 4 + site

/-- Where a kernel's entry goes: with the code. -/
def movedEntry (all before : List Part) (o : Object) (entry : Nat) : Nat :=
  match o.sects.find? (fun x => x.kind == 1) with
  | some x => movedIn all before x entry
  | none => kindBase all 4 + entry

/-- The place of a kind of section in the combined section table, counted from 1. -/
def sectNumber (all : List Part) (o : Object) (sect : Nat) : Nat :=
  match o.sects[sect - 1]? with
  | some x => ((kindsOf all).takeWhile (fun k => k != x.kind)).length + 1
  | none => 0

/-- The kernels, and the symbols, of some objects. -/
def kernelCount (ps : List Part) : Nat := (ps.flatMap (fun p => p.object.kernels)).length
def symbolCount (ps : List Part) : Nat := (ps.flatMap (fun p => p.object.symbols)).length

/-- A symbol of the combination: its value goes with its section, also where that is the section's end. -/
def movedSymbol (all before : List Part) (o : Object) (x : Symbol) : Symbol :=
  { x with
    sect := if x.sect = 0 then 0 else sectNumber all o x.sect
    value := match x.sect, o.sects[x.sect - 1]? with
      | _ + 1, some y => movedIn all before y x.value
      | _, _ => x.value
    krec := if x.kind = 1 ∨ x.kind = 2 then kernelCount before + x.krec else 0 }

def movedReloc (all before : List Part) (o : Object) (r : Reloc) : Reloc :=
  { r with
      site := movedSite all before o r.site, sym := symbolCount before + r.sym
      pair := if r.kind = 3 then movedSite all before o r.pair else 0 }

/-- What each object gives, in order. -/
def eachPart {α : Type} (f : List Part → Object → List α) : List Part → List Part → List α
  | _, [] => []
  | before, p :: ps => f before p.object ++ eachPart f (before ++ [p]) ps

/-- A symbol that one of the objects leaves undefined and another defines as global takes that definition (DEDUCED, log 18). -/
def boundSymbol (xs : List Symbol) (x : Symbol) : Symbol :=
  if x.sect ≠ 0 then x
  else match xs.find? (fun y => y.sect != 0 && y.isGlobal && y.name == x.name) with
    | some y => { y with isGlobal := false }
    | none => x

/-- Objects combined: sections are concatenated kind by kind, and SITE, VALUE and ENTRY shifted to match. No relocation is applied
(R224). -/
def combine (ps : List Part) : Part :=
  let code := kindBytes ps 1
  let xs := eachPart (fun b o => o.symbols.map (movedSymbol ps b o)) [] ps
  { file := code ++ kindBytes ps 2
    object :=
      { sects := (kindsOf ps).map (fun k => ⟨k, kindBase ps k, kindSize ps k, if k = 2 then code.length else 0⟩)
        symbols := xs.map (boundSymbol xs)
        kernels := eachPart (fun b o => o.kernels.map (fun k => { k with entry := movedEntry ps b o k.entry })) [] ps
        relocs := eachPart (fun b o => o.relocs.map (movedReloc ps b o)) [] ps } }

/-! ## A launch of a kernel -/

/-- The kernel that a launch names by its b62 offset (R222). -/
def kernelAt (im : Image) (entry : Nat) : Option Kernel := (im.kernels.find? (fun p => p.1 == entry)).map (·.2)

/-- The continuation record of a launch of a kernel: register count and workgroup size are the kernel record's (R222, Table 17.1); the
rest of the record is what the launch gives, in `r`. -/
def launchRecord (k : Kernel) (r : Nat) : Nat :=
  r - natField r 224 19 * 2 ^ 224 + k.wgsize % 2 ^ 11 * 2 ^ 224 + k.regs % 2 ^ 8 * 2 ^ 235

/-- The launch block the loader builds from a kernel record (R233): what the record gives, with the code image's table index, the stack's
index and slice length, and the buffer table index of each binding. -/
def launchBlock (k : Kernel) (base code stack slen : Nat) (tidx : List (Option Nat)) : Nat :=
  let bind (n b : Nat) : Nat :=
    (match tidx.getD n none with
     | some t => t % 2 ^ 16 + 2 ^ 16
     | none => 0) + natField b 0 3 * 2 ^ 17 + natField b 4 9 * 2 ^ 20
  (base + k.entry) % 2 ^ 32 + code % 2 ^ 16 * 2 ^ 32 + stack % 2 ^ 16 * 2 ^ 48 + slen % 2 ^ 32 * 2 ^ 64 +
  ((List.range 62).zip k.bnd).foldl (fun a p => a + bind p.1 p.2 * 2 ^ (512 + 32 * p.1)) 0 +
  ((List.range 12).zip k.fmt).foldl (fun a p => a + p.2 * 2 ^ (2560 + 64 * p.1)) 0

end Sys2Proof.Machine.Zwion
end

