-- ==== Sys2Proof/Tests/Slice0.lean ====
section
/-! SUPPORT. Tests of the model's own: ill-formed words, decoded words, and states that meet the hypotheses of the statements. -/

namespace Sys2Proof
namespace Tests
open Sys2Proof.Machine

-- one theorem at a time: less memory
set_option Elab.async false

/-! ## Ill-formed words: one for each condition of `Instr.wf` -/

def c0 : Common := ⟨0, .always⟩
/-- Format M with no field set, on b0[vz]. -/
def bare : MemOp := ⟨0xFF, 0, 0, .thread, .plain, 0, false, 0⟩
def bareQ : QMemOp := ⟨none, 0, 0, .thread, .plain, 0, false, 0⟩

theorem test_wf_integer_source : (Instr.iadd c0 1 2 3 (.source 0b010000)).wf = false := by decide
theorem test_wf_format_two : (Instr.fadd c0 1 2 3 4 .slotDefault (.source 0b000010)).wf = false := by decide
theorem test_wf_format_three : (Instr.ffma c0 1 2 3 4 5 .slotDefault (.source 0b111111)).wf = true := by decide
theorem test_wf_format_one : (Instr.fsqrt c0 1 2 4 .slotDefault (.source 0b000100)).wf = false ∧
    (Instr.fsqrt c0 1 2 4 .slotDefault (.cross .rotate 1 true)).wf = false := by decide
theorem test_wf_lmov : (Instr.lmov c0 1 2 (.cross .rotate 1 true)).wf = false ∧ (Instr.lmov c0 1 2 (.source 0b100000)).wf = false := by
  decide
theorem test_wf_setfmt : (Instr.setfmt c0 1 3).wf = false := by decide
theorem test_wf_load : (Instr.ld c0 1 { bare with order := .release }).wf = false ∧
    (Instr.ldp c0 1 { bare with scope := .warp }).wf = false := by decide
theorem test_wf_store : (Instr.st c0 1 { bare with order := .acquire }).wf = false ∧
    (Instr.stp c0 1 { bare with scope := .device }).wf = false := by decide
theorem test_wf_full_empty : (Instr.ldfe c0 1 { bare with order := .acquire }).wf = false ∧
    (Instr.ldfeClr c0 1 { bare with order := .release }).wf = false ∧ (Instr.stfe c0 1 { bare with order := .acqrel }).wf = false := by
  decide
theorem test_wf_prefetch : (Instr.pf c0 { bare with lastUse := true }).wf = false ∧
    (Instr.pf c0 { bare with order := .acquire, scope := .device }).wf = false := by decide
theorem test_wf_cas : (Instr.atomCas c0 0xFE bare).wf = false := by decide
theorem test_wf_fence : (Instr.fence c0 .device .plain).wf = false := by decide
theorem test_wf_objects : (Instr.binit c0 1 { bare with slot := 1 }).wf = false ∧ (Instr.barr c0 1 { bare with order := .release }).wf = false ∧
    (Instr.bwait c0 1 { bare with slot := 2 }).wf = false ∧ (Instr.spawn c0 1 { bare with slot := 1 }).wf = false ∧
    (Instr.joinRec c0 1 { bare with order := .acqrel }).wf = false := by decide
theorem test_wf_boards : (Instr.nbpost c0 1 2 { bare with evict := 1 }).wf = false ∧ (Instr.nbget c0 0xFE bare).wf = false := by decide
theorem test_wf_engines : (Instr.fork c0 1 { bare with lastUse := true }).wf = false ∧ (Instr.rdv c0 1 { bare with slot := 1 }).wf = false ∧
    (Instr.cpy c0 { bare with order := .acquire }).wf = false ∧ (Instr.gth c0 { bare with evict := 2 }).wf = false ∧
    (Instr.sct c0 { bare with slot := 9 }).wf = false ∧ (Instr.xds c0 { bare with evict := 3 }).wf = false ∧
    (Instr.tpf c0 { bare with lastUse := true }).wf = false ∧ (Instr.col c0 { bare with order := .release }).wf = false := by decide
theorem test_wf_ocld : (Instr.ocld c0 1 { bareQ with scope := .workgroup }).wf = false := by decide
theorem test_wf_products : (Instr.mma c0 0 1 2 0 .slotDefault 0 false).wf = false ∧ (Instr.mmas c0 0 1 2 4 .slotDefault 0 false).wf = false ∧
    (Instr.smrs c0 3 3 1 2 .slotDefault 0).wf = false ∧ (Instr.smrs c0 3 4 1 1 .slotDefault 0).wf = false := by decide
theorem test_wf_drains : (Instr.drn c0 1 { bareQ with order := .acquire, scope := .cluster }).wf = false ∧
    (Instr.drn c0 1 bareQ).wf = false ∧ (Instr.drnm c0 0x1F { bareQ with scope := .cluster }).wf = false := by decide
theorem test_wf_pontil_memory : (Instr.qld c0 1 { bareQ with order := .acquire, scope := .warp }).wf = false ∧
    (Instr.qst c0 1 { bareQ with order := .acquire, scope := .cluster }).wf = false := by decide

/-! ## Words written out from the encodings of the manual (Tables 2.2, 6.21, 7.15, 8.21, 9.18, 16.5), decoded -/

theorem test_decode_common : decodeTableWord 64 0x0107000000000000 = some (.nop ⟨0, .always⟩) ∧
    decodeTableWord 64 0x0103000000000000 = some (.nop ⟨0, .pred 3 false⟩) ∧
    decodeTableWord 64 0x015B000000000000 = some (.nop ⟨5, .pred 3 true⟩) := by decide +kernel
theorem test_decode_integer : decodeTableWord 64 0x0247010203FF0000 = some (.iadd ⟨4, .always⟩ 1 2 3 (.source 0)) ∧
    decodeTableWord 64 0x154705FF00014000 = some (.adpc ⟨4, .always⟩ 5 0x14) ∧
    decodeTableWord 64 0x1447050500000B00 = some (.addk ⟨4, .always⟩ 5 5 0xB00) := by decide +kernel
theorem test_decode_format : decodeTableWord 64 0x2067030102FF5000 = some (.fadd ⟨6, .always⟩ 3 1 2 5 .slotDefault (.source 0)) ∧
    decodeTableWord 64 0x2387010203042021 = some (.ffma ⟨8, .always⟩ 1 2 3 4 2 .slotDefault (.source 0b100001)) ∧
    decodeTableWord 64 0x3C070504FFFF5000 = some (.bpack ⟨0, .always⟩ 5 4 5 .slotDefault) ∧
    decodeTableWord 64 0x3E07FF01FFFF6000 = some (.setfmt ⟨0, .always⟩ 1 6) := by decide +kernel
theorem test_decode_lanes : decodeTableWord 64 0x50070301FFFF00C2 = some (.lmov ⟨0, .always⟩ 3 1 (.cross .butterfly 1 false)) ∧
    decodeTableWord 64 0x51070201FFFF0002 = some (.voteBallot ⟨0, .always⟩ 2 1) ∧
    decodeTableWord 64 0x88070201FFFF0000 = some (.vmcnt ⟨0, .always⟩ 2 1) := by decide +kernel
theorem test_decode_memory : decodeTableWord 64 0x600702010FFFF001 = some (.ld ⟨0, .always⟩ 2 ⟨1, 3, 0x3FFF, .thread, .plain, 0, false, 1⟩) ∧
    decodeTableWord 64 0x610701FF14000B00 = some (.st ⟨0, .always⟩ 1 ⟨0xFF, 5, 0, .device, .release, 0, false, 0⟩) ∧
    decodeTableWord 64 0x6507030008000800 = some (.ldfeClr ⟨0, .always⟩ 3 ⟨0, 2, 0, .die, .plain, 0, false, 0⟩) ∧
    decodeTableWord 64 0x6707FF0400040023 = some (.pf ⟨0, .always⟩ ⟨4, 0, 64, .thread, .plain, 1, false, 3⟩) := by decide +kernel
theorem test_decode_atomics_fences : decodeTableWord 64 0x6F0704FF18000A00 =
      some (.atomCas ⟨0, .always⟩ 4 ⟨0xFF, 6, 0, .device, .plain, 0, false, 0⟩) ∧
    decodeTableWord 64 0x7107FFFF00000C00 = some (.fenceSc ⟨0, .always⟩ .system) := by decide +kernel
theorem test_decode_barriers_boards : decodeTableWord 64 0x8007FFFFFFFF0000 = some (.bsync ⟨0, .always⟩) ∧
    decodeTableWord 64 0x830706FF1C000A00 = some (.bwait ⟨0, .always⟩ 6 ⟨0xFF, 7, 0, .device, .plain, 0, false, 0⟩) ∧
    decodeTableWord 64 0x8407050224000C01 = some (.nbpost ⟨0, .always⟩ 1 5 ⟨2, 9, 0, .system, .plain, 0, false, 0⟩) := by decide +kernel
theorem test_decode_control : decodeTableWord 64 0x9002FFFF00000020 = some (.br ⟨0, .pred 2 false⟩ 0 true) ∧
    decodeTableWord 64 0x9001FD0700000003 = some (.calli ⟨0, .pred 1 false⟩ 7) ∧
    decodeTableWord 64 0x9107030828000A00 = some (.spawn ⟨0, .always⟩ 3 ⟨8, 10, 0, .device, .plain, 0, false, 0⟩) ∧
    decodeTableWord 64 0x9307FFFFFFFF0000 = some (.exit ⟨0, .always⟩) ∧
    decodeTableWord 64 0x9407FFFF0000002A = some (.trap ⟨0, .always⟩ 42) := by decide +kernel
theorem test_decode_engines : decodeTableWord 64 0xA007010210000600 = some (.fork ⟨0, .always⟩ 1 ⟨2, 4, 0, .cluster, .plain, 0, false, 0⟩) ∧
    decodeTableWord 64 0xA707FF0314000C00 = some (.col ⟨0, .always⟩ ⟨3, 5, 0, .system, .plain, 0, false, 0⟩) ∧
    decodeTableWord 64 0xA8070201FFFF0000 = some (.engst ⟨0, .always⟩ 2 1) := by decide +kernel
theorem test_decode_pontil : decodeTableWord 64 0xB007060708000600 = some (.ocld ⟨0, .always⟩ 6 ⟨some 7, 2, 0, .cluster, .plain, 0, false, 0⟩) ∧
    decodeTableWord 64 0xB107020405FF3023 = some (.mma ⟨0, .always⟩ 2 4 5 3 .slotDefault 3 true) ∧
    decodeTableWord 64 0xB40708090C000605 = some (.drn ⟨0, .always⟩ 8 ⟨some 9, 3, 0, .cluster, .plain, 0, false, 5⟩) ∧
    decodeTableWord 64 0xB707030304FF0000 = some (.qop ⟨0, .always⟩ 3 3 4 .add) ∧
    decodeTableWord 64 0xBC07010100000000 = some (.loop ⟨0, .always⟩ 1 1 0) ∧
    decodeTableWord 64 0xBB02FFFF00000040 = some (.pbr ⟨0, .pred 2 false⟩ 1) := by decide +kernel
theorem test_decode_privileged : decodeTableWord 64 0xC00703FFFF000001 = some (.rdpr ⟨0, .always⟩ 3 .cflags) ∧
    decodeTableWord 64 0xC207020405000000 = some (.bfinv ⟨0, .always⟩ 2 4 5) ∧
    decodeTableWord 64 0xC4070601FF010000 = some (.hqctlPause ⟨0, .always⟩ 6 1) ∧
    decodeTableWord 64 0xC507070102000009 = some (.lehrsv ⟨0, .always⟩ 7 1 2 9) := by decide +kernel
/-- Tables 21.1 and 21.7: a MEM_READ of 16 bytes from 0x1000, tag 7. -/
theorem test_decode_command : decodeTableWord 384
    (0x49524F51 + 1 * 2 ^ 32 + 0x08 * 2 ^ 40 + 7 * 2 ^ 64 + 16 * 2 ^ 96 + 0x1000 * 2 ^ 256 + 16 * 2 ^ 320) = some (.memRead 7 0x1000 16) := by
  decide +kernel

/-! ## Small states -/

/-- An entry of a buffer table over die 0's SRAM; `rights` holds r, w, a, x from bit 0 up. -/
def entryBits (base len rights : Nat) : Nat := windowBase + base + len * 2 ^ 64 + rights * 2 ^ 128 + 2 ^ 132

/-- The table: code; 4 KiB of data with r, w and a; a board of four slots; 64 bytes with r alone. -/
def tableBits : List Nat :=
  [entryBits 8192 64 9, entryBits 16384 4096 7, entryBits 20480 80 5 + 2 ^ 133 + 4 * 2 ^ 134, entryBits 24576 64 1]

/-- Bindings 0, 1 and 2 name entries 1, 2 and 3. -/
def blockBits : Nat := (1 + 2 ^ 16) * 2 ^ 512 + (2 + 2 ^ 16) * 2 ^ 544 + (3 + 2 ^ 16) * 2 ^ 576

/-- Sixteen registers, the first of them given. -/
def rowOf16 (xs : List Word) : List Word := xs ++ List.replicate (16 - xs.length) 0

def thr (regs : List Word) : Thread := { freshThread 0 16 0 with regs := rowOf16 regs }
/-- f4 is bfloat16, f5 a twin-scale element with M = 3 (Table 4.4), f6 a float without sign, f7 MX E4M3; the others are null. -/
def fmts12 : List Word :=
  [0x0C0E00FE28800000, 0x580600FE04800000, 0x0286001E04800000, 0x6A06000E14800000] ++ List.replicate 8 0
def wgWith (t : Thread) : Workgroup := { placedWg with nregs := 16, fmts := fmts12, threads := [t] }
def mem0 (t : Thread) : Member := ⟨wgWith t, t, [0]⟩

/-- The cells of a number of `n` bytes at an offset of die 0's SRAM: bytes that are not zero. -/
def cellsOf (p : Nat × Nat × Nat) : List Host.Cell :=
  ((List.range p.2.1).zip (bytesOf p.2.2 p.2.1)).filterMap (fun q => if q.2 = 0 then none else some (sramLoc 0 (p.1 + q.1), q.2))

/-- A number put in place of the one at its offset, or after the others. -/
def fillOver (acc : List (Nat × Nat × Nat)) (p : Nat × Nat × Nat) : List (Nat × Nat × Nat) :=
  if acc.any (fun q => q.1 == p.1) then acc.map (fun q => if q.1 = p.1 then p else q) else acc ++ [p]

/-- Numbers at rising offsets of die 0's SRAM. -/
def sramWith (fill : List (Nat × Nat × Nat)) : List Host.Cell := (fill.foldl fillOver []).flatMap cellsOf

/-- One thread of one workgroup on issue, with a table, a launch and bytes in SRAM. -/
def world (t : Thread) (fill : List (Nat × Nat × Nat)) : State :=
  { State.reset with
      power := .running, minSvn := 0
      mem := sramWith (((List.range 4).zip tableBits).map (fun p => (4096 + 64 * p.1, 64, p.2)) ++ fill)
      contexts := [⟨0, 0, true, false, false, BitVec.ofNat 64 (windowBase + 4096), 4⟩]
      queues := [⟨3, 0, 1, false, BitVec.ofNat 64 windowBase, 4, 0, 0, false, 0⟩]
      launches := [{ placedLaunch with block := blockBits }], workgroups := [wgWith t], issue := [.gang 0 [0]] }

theorem test_slots_legal : fmts12.map fdefLegal = [true, true, true, true] ++ List.replicate 8 false := by decide +kernel

def always : Common := ⟨4, .always⟩
def sm : Mods := .source 0

/-! ## Witnesses: words, steps and checks -/

def t123 : Thread := thr [1, 2, 3, 100, 256, 255, 16]
def s123 : State := world t123 []
def m123 : Member := mem0 t123

/-- StepRunsDecodedInstruction: a gang's word and a context's word, fetched where no write is on record. -/
theorem test_step_hyps :
    (let s := State.reset.withFetchWord 64 0x0247010203FF0000
     let t := freshThread 0 255 0
     s.issue = [.gang 0 [0]] ∧ s.wg? 0 = some placedWg ∧ membersOf placedWg [0] = [⟨placedWg, t, [0]⟩] ∧
     s.launch? 0 = some placedLaunch ∧ s.hist = [] ∧
     okP (fetchWord s (binderOf s placedWg t) 1 0) (fun x => okP (decodeWord x.1) (fun i => i == .iadd ⟨4, .always⟩ 1 2 3 (.source 0))) = true ∧
     okP (bindingEntry s (binderOf s placedWg t) 62) (fun x => okP (places x.2 0 x.1.base 8) (fun y => hereB y.1)) = true) ∧
    (let s := State.reset.withFetchWord 64 0xB80703FF00000000
     pontilOnIssueB s placedPontil = true ∧ s.wg? placedPontil.wg = some placedWg ∧ s.launch? 0 = some placedLaunch ∧
     okP (fetchWord s (binderOfPontil s placedPontil) 1 0) (fun x => okP (decodeWord x.1) (fun i => i == .qmovk ⟨0, .always⟩ 3 0)) = true) := by
  decide +kernel

/-- StepRunsDecodedInstruction: an event, and a frame that holds a command. -/
theorem test_step_event_hyps :
    (let s : State := { State.reset with agenda := [.event .stopAtTick] }
     s.issue = [] ∧ s.arrived = [] ∧ commonOf? .stopAtTick = none ∧ State.awake (passTime { s with agenda := [] }) .stopAtTick = true) ∧
    (let bytes := bytesOf (0x49524F51 + 1 * 2 ^ 32 + 0x40 * 2 ^ 40 + 5 * 2 ^ 64) 32
     let s : State := { State.reset with agenda := [.frame 3 bytes] }
     let z := passTime { s with agenda := [] }
     s.power ≠ .off ∧ frameStep z 3 bytes = .hello 5 3 ∧ commandHeld z (.hello 5 3) = false ∧ State.awake z (.hello 5 3) = true) := by
  refine ⟨⟨rfl, rfl, rfl, rfl⟩, by decide, rfl, rfl, rfl⟩

/-- WordChecks: a word of each check, and one that does not decode. -/
theorem test_word_checks_hyps :
    (onIssueB s123 m123 = true ∧ checkCore s123 (.qmovk c0 3 0) 0 16 = .error .illegalClass ∧
     checkCore { s123 with contexts := s123.contexts.map (fun k => { k with priv := false }) } (.rdpr c0 1 .ctx) 0 16 = .error .privInstr ∧
     checkCore s123 (.iadd c0 1 2 3 (.source 1)) 0 16 = .error .illegalField ∧
     checkCore s123 (.iadd c0 14 2 3 sm) 0 16 = .error .regRange ∧
     (∃ r ∈ (uses (.iadd c0 14 2 3 sm)).vregs, granted 16 r = false)) ∧
    (let s := State.reset.withFetchWord 64 0
     let t := freshThread 0 255 0
     membersOf placedWg [0] = [⟨placedWg, t, [0]⟩] ∧
     okP (fetchWord s (binderOf s placedWg t) 1 0) (fun x => errP (decodeWord x.1) (fun _ => true)) = true) := by
  decide +kernel

theorem test_untraced : Untraced s123 m123 := untraced_of (by decide +kernel)

/-- FalseGuardOnlyAdvances. -/
theorem test_false_guard_hyps : OnIssue s123 m123 ∧ gate s123 m123 (.iadd ⟨0, .pred 0 false⟩ 1 2 3 sm) = .ok false :=
  ⟨onIssue_of (by decide +kernel), gate_of (by decide +kernel)⟩

/-- TrapIsPrecise: a trap instruction of the only thread on issue. -/
theorem test_precise_hyps : Alone s123 m123 ∧ m123.t.trap = none ∧ nextP (exec (.trap c0 7) s123) (fun s' =>
    someP (s'.thread? 0 0) (fun t => t.trap == some (.programTrap, 7))) = true :=
  ⟨(alone_of (by decide +kernel)).1, rfl, by decide +kernel⟩

/-- ShortWindows: a register outside any window, and one read inside a window under checking. -/
def shortThread : Thread := { t123 with windows := [⟨.v 2 9, 3⟩, ⟨.p 1 true, 1⟩] }
def checkedWorld : State :=
  let s := world shortThread []
  { s with contexts := s.contexts.map (fun k => { k with check := true }) }
theorem test_windows_hyps :
    (granted t123.regs.length 13 = true ∧ t123.vShort 13 = false ∧ granted t123.regs.length 0xFD = true) ∧
    (onIssueB checkedWorld (mem0 shortThread) = true ∧ checkCore checkedWorld (.iadd c0 1 2 3 sm) 0 16 = .ok () ∧
     checkedWorld.isChecked 0 = true ∧ shortThread.guardOk (.iadd c0 1 2 3 sm) = true ∧
     (mem0 shortThread).readsShort (.iadd c0 1 2 3 sm) = true ∧
     shortThread.guardShort (.iadd ⟨0, .pred 1 false⟩ 1 0 3 sm) = true) := by decide +kernel

/-- The integer, constant, lane, predicate and view-mask instructions, and control, of one thread that performs each. -/
def registerWords : List Instr :=
  [.nop always, .iadd always 1 2 3 sm, .isub always 1 2 3 sm, .imul always 1 2 3 sm, .imulh always 1 2 3 .signed, .imad always 1 2 3 4 sm,
   .iand always 1 2 3 sm, .ior always 1 2 3 sm, .ixor always 1 2 3 sm, .iandn always 1 2 3 sm, .ishl always 1 2 3 sm,
   .ishr always 1 2 3 .unsigned, .irot always 1 2 3 sm, .iadd always 0xFF 2 3 (.cross .rotate 1 false), .icmp always 0 1 2 .ltu,
   .ilim always 1 2 3 .min, .isel always 1 2 3 0, .ibit always 1 2 .clz, .bfx always 1 2 3 4 .signed, .bfi always 1 2 3 4,
   .iun always 1 2 .abs, .addk always 1 2 0xFFF, .adpc always 1 4, .movk always 1 5, .movhk always 1 2 5, .rdsr always 1 .tick,
   .wrsr always 1, .getfmt always 1 9, .lmov always 1 2 (.cross .shiftUp 31 false), .lmov always 1 2 sm, .perm always 1 2 3,
   .vote always 0 1 .any, .vote always 0 1 .all, .voteBallot always 1 2, .rdind always 1 0, .rdind always 1 4, .wrind always 0 1,
   .wrind always 4 1, .plog always 0 1 (.and 2), .pmovToV always 1, .pmovFromV always 1, .vmcnt always 1 0, .vmtest always 0 1 2,
   .vmop always 0 1 2 .xor, .vmffs always 1 0, .vmget always 1 0 3, .vmset always 0 1 3, .engst always 1 0, .rdpr always 1 .ctx,
   .rdpr always 1 .btbase]
theorem test_register_words : ∀ i ∈ registerWords, Performs s123 m123 i ∧ PerformsAlone s123 m123 i := performs_of (by decide +kernel)

/-- The format words, in slots of each kind. -/
def formatWords : List Instr :=
  [.fadd always 1 2 3 4 .slotDefault sm, .fsub always 1 2 3 3 .rup sm, .fmul always 1 2 3 0 .slotDefault sm,
   .ffma always 1 2 3 4 3 .slotDefault (.source 0b111111), .fdiv always 1 2 3 2 .slotDefault sm, .fsqrt always 1 2 3 .slotDefault sm,
   .frcp always 1 2 4 .slotDefault (.cross .broadcast 0 false), .fscale always 1 2 3 3 .slotDefault sm, .flim always 1 2 3 3 .minnum,
   .fcmp always 0 1 2 3 .lt, .fclass always 1 2 4, .fsgn always 1 2 3 .abs, .fsgn always 1 2 6 .neg, .frnd always 1 2 3 .rne true,
   .cvt always 1 2 4 3 .slotDefault, .fexp2 always 1 2 3 .slotDefault sm, .flog2 always 1 2 3 .slotDefault sm,
   .fexp always 1 2 3 .slotDefault sm, .flog always 1 2 3 .slotDefault sm, .frsqrt always 1 2 3 .slotDefault sm,
   .fsin always 1 2 3 .slotDefault sm, .fcos always 1 2 3 .slotDefault sm, .ftanh always 1 2 3 .slotDefault sm,
   .ferf always 1 2 3 .slotDefault sm, .bpack always 1 2 5 .slotDefault, .bpack always 1 2 7 .slotDefault, .bunpack always 1 2 5,
   .bunpack always 1 2 3, .fcmp always 0 1 2 5 .eq, .fclass always 1 2 0, .cvt always 1 2 4 9 .rne, .bpack always 1 2 4 .rne]
theorem test_format_words : ∀ i ∈ formatWords, Performs s123 m123 i ∧ PerformsAlone s123 m123 i := performs_of (by decide +kernel)

/-- The slots of those words: accepted, of another kind, null; signed and not. -/
theorem test_slots_hyps :
    okP (fmtSlot m123 4 kinds04 sm) (fun f => f.s == 1) = true ∧ okP (fmtSlot m123 0 kinds04 sm) (fun _ => true) = true ∧
    fmtSlot m123 5 kinds04 sm = .error .slotKind ∧ fmtSlot m123 9 kinds04 sm = .error .slotKind ∧
    okP (fmtSlot m123 3 kind0 sm) (fun f => f.s == 1) = true ∧ okP (fmtSlot m123 6 kind0 sm) (fun f => f.s == 0) = true ∧
    fmtSlot m123 0 kind0 sm = .error .slotKind ∧ okP (fmtSlot m123 5 kindsBlock sm) (fun f => f.blockBits == 176) = true ∧
    okP (fmtSlot m123 7 kindsBlock sm) (fun _ => true) = true ∧ fmtSlot m123 4 kindsBlock sm = .error .slotKind := by decide +kernel

/-- FormatSlots: setfmt of a legal definition, and of an illegal one. -/
theorem test_setfmt_hyps :
    (let t := thr [0x0C0E00FE28800000, 7]
     performsAll (world t []) (mem0 t) [.setfmt c0 0 15, .setfmt c0 1 4] = true ∧ (mem0 t).wg.fmts.length = 12 ∧
     fdefLegal (t.readV 0) = true ∧ fdefLegal (t.readV 1) = false) := by decide +kernel

/-- ArithmeticIsExact and RoundsToNearest: 1/3 into binary32, against the pattern of 1. PatternsRoundTrip: the largest binary32. -/
theorem test_rounding_hyps :
    let w : Word := 0x0C2E00FE28800000
    let f := fdefOf w
    let r := encodeElem f (.num false 1 3 0) .rne 0 false
    fdefLegal w = true ∧ f.kind = 0 ∧ f.sub = 0 ∧ f.s = 1 ∧ r.2 &&& fOverflow = 0 ∧ 0x3F800000 < 2 ^ f.w ∧
    (∃ v, valueOf (.num false 1 3 0) = some v) ∧ (∃ y, valueOf (decodeElem f r.1) = some y) ∧
    (∃ q, valueOf (decodeElem f 0x3F800000) = some q) ∧ (decodeElem f 0x7F7FFFFF).isNan = false := by
  refine ⟨by decide +kernel, by decide +kernel, by decide +kernel, by decide +kernel, by decide +kernel, by decide +kernel, ⟨_, rfl⟩, ?_, ?_, by decide +kernel⟩
  · have : decodeElem (fdefOf 0x0C2E00FE28800000) (encodeElem (fdefOf 0x0C2E00FE28800000) (.num false 1 3 0) .rne 0 false).1 =
      .num false 11184811 1 (-25) := by decide +kernel
    exact ⟨_, by rw [this]; rfl⟩
  · have : decodeElem (fdefOf 0x0C2E00FE28800000) 0x3F800000 = .num false 8388608 1 (-23) := by decide +kernel
    exact ⟨_, by rw [this]; rfl⟩
theorem test_exact_hyps : (0 : Nat) < 3 ∧ (5 : Nat) ≠ 0 ∧
    (exactDiv (.num false 1 3 0) (.num true 0 1 0)).1 = .inf true := by decide +kernel

/-- LanesAndVotes, IndirectRegistersAndPredicates: distinct threads; an index at each end of its range. -/
theorem test_lanes_hyps : (m123.wg.threads.map (·.tid)).Nodup ∧ granted m123.wg.nregs (BitVec.ofNat 8 (m123.t.readV 0).toNat) = true ∧
    (m123.t.readV 5).toNat < 256 ∧ granted m123.wg.nregs (BitVec.ofNat 8 (m123.t.readV 5).toNat) = true ∧
    256 ≤ (m123.t.readV 4).toNat ∧ granted m123.wg.nregs (BitVec.ofNat 8 (m123.t.readV 3).toNat) = false ∧
    s123.context? m123.wg.ctx = some ⟨0, 0, true, false, false, BitVec.ofNat 64 (windowBase + 4096), 4⟩ := by decide +kernel

/-- Branches: an aligned register, one that is not, and the depths at the ends. -/
def controlWords : List Instr :=
  [.br c0 0x3FFFFFF true, .bri c0 0 false, .bri c0 1 true, .call c0 2, .calli c0 0, .calli c0 1, .ret c0 0, .ret c0 1, .exit c0, .trap c0 0xFFFF,
   .brk c0, .nop c0]
theorem test_branch_hyps :
    (let t := { thr [128, 65] with depth := 0 }
     performsAll (world t []) (mem0 t) controlWords = true ∧ (t.readV 0).toNat % 64 = 0 ∧ (t.readV 1).toNat % 64 ≠ 0) ∧
    (let t := { thr [128, 65] with depth := 65535 }
     performsAll (world t []) (mem0 t) controlWords = true) := by decide +kernel

/-- ExitTrapBreak: the last thread, a thread with a live companion, and a context under debugging. -/
def two (f : Thread → Thread) : Workgroup :=
  { placedWg with nregs := 16, fmts := fmts12, size := 2, threads := [thr [1, 2], f { freshThread 1 16 0 with regs := rowOf16 [5, 6] }] }
def pairWorld (f : Thread → Thread) (tids : List Nat) : State := { s123 with workgroups := [two f], issue := [.gang 0 tids] }
theorem test_exit_hyps :
    (∀ u ∈ m123.wg.threads, u.tid ≠ m123.t.tid → u.live = false) ∧ (∀ p ∈ s123.pontils, p.wg = m123.wg.uid → p.state ≠ .running) ∧
    performsAll (pairWorld id [0]) ⟨two id, thr [1, 2], [0]⟩ [.exit c0, .bsync c0] = true ∧ ((two id).threads.map (·.tid)).Nodup ∧
    (∃ u ∈ (two id).threads, u.tid ≠ 0 ∧ u.live = true) ∧ s123.isDebug 0 = false ∧
    (let s := { s123 with contexts := s123.contexts.map (fun k => { k with debug := true }) }
     performsAll s m123 [.brk c0] = true ∧ s.isDebug 0 = true) ∧
    onIssueB s123 m123 = true ∧ gateIs s123 m123 (.trap ⟨0, .pred 2 false⟩ 1) false = true := by decide +kernel

/-! ## Witnesses: memory -/

/-- v0 and v1 count elements, v2 and up are data; v7 is one past the last element of b0, v8 one before its first. -/
def tMem : Thread := thr [2, 511, 0x1122334455667788, 5, 9, 0xFFFFFFFF, 0x100000000, 512, 0xFFFFFFFFFFFFFFFF]
def sMem : State := world tMem [(16384, 8, 77), (16400, 8, 78)]
def mMem : Member := mem0 tMem
def at0 (r : VReg) : MemOp := { bare with ofsReg := r }

theorem test_memory_world : TlbFresh sMem ∧ NoMigrationControl sMem ∧ (∀ ctx, NoFrameTwice sMem.popped ctx) ∧ (∀ ls, Untouched sMem ls) ∧
    mMem.t.view.uo = [] ∧ Untraced sMem mMem ∧ (∀ ls, sramLocsB ls = true → TablesApart sMem ls) :=
  ⟨tlbFresh_of (by decide +kernel), noCounts_of (by decide +kernel), noFrameTwice_popped (by decide +kernel),
    untouched_of (by decide +kernel), rfl, untraced_of (by decide +kernel), tablesApart_sram (by decide +kernel)⟩

/-- Loads and Stores: the last element of b0 in f0, two elements of f3 at once; the last store goes through v8 with an offset. -/
theorem test_load_hyps : (∀ i ∈ [Instr.ld c0 3 (at0 1), .ldp c0 3 { at0 0 with slot := 3 }], PerformsAlone sMem mMem i) ∧
    (∃ t ps, Reaches sMem mMem (at0 1) (fun _ => 1) { r := true } false t ps ∧ true = true) ∧
    (∃ t ps, Reaches sMem mMem { at0 0 with slot := 3 } FDef.lanes { r := true } false t ps ∧ true = true) :=
  ⟨fun i hi => (performs_of (by decide +kernel) i hi).2, reaches_of (q := fun _ _ => true) (by decide +kernel),
    reaches_of (q := fun _ _ => true) (by decide +kernel)⟩
theorem test_store_hyps : (∀ i ∈ [Instr.st c0 2 (at0 1), .stp c0 2 { at0 0 with slot := 3 }], PerformsAlone sMem mMem i) ∧
    (∃ t ps, Reaches sMem mMem (at0 1) (fun _ => 1) { w := true } true t ps ∧ (t.d.mxk == 0 && sramLocsB (locsOf ps)) = true) ∧
    (∃ t ps, Reaches sMem mMem { at0 0 with slot := 3 } FDef.lanes { w := true } true t ps ∧ (t.d.mxk == 0 && sramLocsB (locsOf ps)) = true) :=
  ⟨fun i hi => (performs_of (by decide +kernel) i hi).2, reaches_of (q := fun t ps => t.d.mxk == 0 && sramLocsB (locsOf ps)) (by decide +kernel),
    reaches_of (q := fun t ps => t.d.mxk == 0 && sramLocsB (locsOf ps)) (by decide +kernel)⟩

/-- AccessChecks: below the first and past the last element, an access at the last bit without the right, and an empty binding. -/
def elementLo (r : VReg) (f : FDef) : Int := elemIndex (mMem.t.readV r) 0 * f.w
theorem test_access_hyps :
    slotOf mMem.wg.fmts 0 kinds04 = .ok f0def ∧
    (∀ i ∈ [Instr.ld c0 3 (at0 7), .ld c0 3 (at0 8), .st c0 3 (at0 7), .st c0 3 { at0 0xFF with bind := 2 }, .ld c0 3 { at0 0xFF with bind := 2 },
      .ld c0 3 { at0 0 with bind := 5 }], gateIs sMem mMem i true = true) ∧
    okP (bindingEntry sMem.popped (binderOf sMem.popped mMem.wg mMem.t) 0) (fun x => x.1.mxk == 0 &&
      decide (8 * (x.1.len : Int) < elementLo 7 f0def + f0def.w ∧ elementLo 8 f0def < 0)) = true ∧
    okP (bindingEntry sMem.popped (binderOf sMem.popped mMem.wg mMem.t) 2) (fun x => x.1.mxk == 0 && !x.1.w &&
      decide (0 ≤ elementLo 0xFF f0def ∧ elementLo 0xFF f0def + f0def.w ≤ 8 * (x.1.len : Int))) = true ∧
    (let s := world tMem [(4096 + 64 * 3, 64, entryBits 24576 64 2)]
     okP (bindingEntry s.popped (binderOf s.popped mMem.wg mMem.t) 2) (fun x => x.1.mxk == 0 && !x.1.r) = true) ∧
    errP (bindingEntry sMem.popped (binderOf sMem.popped mMem.wg mMem.t) 5) (fun c => c == .bindEmpty) = true := by decide +kernel

/-- FullEmptyAccesses: of a granule that is full or empty, by a thread on issue and by one that waits. -/
def waitsAt (i : Instr) (k : WaitKind) (limit : Nat) : Thread := { tMem with wait := some ⟨k, i, 3, limit, [], 0, fmts12, []⟩ }
def waitWorld (i : Instr) (k : WaitKind) (limit : Nat) : State := { world (waitsAt i k limit) [(16384, 8, 77)] with issue := [] }
theorem test_full_empty_hyps :
    (∀ i ∈ [Instr.ldfe c0 3 (at0 0), .ldfeClr c0 3 (at0 0), .stfe c0 3 (at0 0)], PerformsAlone sMem mMem i ∧
      WaitingAt (waitWorld i .granule 0) (mem0 (waitsAt i .granule 0)) i .granule ∧
      NoOlderWait (waitWorld i .granule 0) (ownNumber (mem0 (waitsAt i .granule 0)) (waitWorld i .granule 0))) ∧
    NoOlderWait sMem (ownNumber mMem sMem) ∧
    (∃ t ps, Reaches sMem mMem (at0 0) (fun _ => 1) { r := true } false t ps ∧
      (okP (checkGranule t) (fun g => !(sMem.full.contains g)) && t.d.mxk == 0) = true) ∧
    (∃ t ps, Reaches { sMem with full := [sramLoc 0 16400 / 16] } mMem (at0 0) (fun _ => 1) { w := true } true t ps ∧
      okP (checkGranule t) (fun g => g == sramLoc 0 16400 / 16) = true) := by
  refine ⟨fun i hi => ⟨(performs_of (by decide +kernel) i hi).2, ?_, ?_⟩, noOlderWait_of (by decide +kernel), reaches_of (by decide +kernel), reaches_of (by decide +kernel)⟩
  · simp only [List.mem_cons, List.not_mem_nil, or_false] at hi
    rcases hi with rfl | rfl | rfl <;> exact waiting_of (by decide +kernel)
  · simp only [List.mem_cons, List.not_mem_nil, or_false] at hi
    rcases hi with rfl | rfl | rfl <;> exact noOlderWait_of (by decide +kernel)

/-- Atomics: each of them, on one word. -/
def atomicWords : List Instr :=
  [.atomAdd c0 3 (at0 0), .atomMin c0 3 (at0 0), .atomMax c0 3 (at0 0), .atomAnd c0 3 (at0 0), .atomOr c0 3 (at0 0), .atomXor c0 3 (at0 0),
   .atomXchg c0 3 (at0 0), .atomCas c0 3 (at0 0)]
theorem test_atomic_hyps : (∀ i ∈ atomicWords, PerformsAlone sMem mMem i) ∧
    ∃ t ps, Reaches sMem mMem (at0 0) (fun _ => 1) { a := true } true t ps ∧ (oneWord t.d t.lo t.f.w && t.d.mxk == 0) = true :=
  ⟨fun i hi => (performs_of (by decide +kernel) i hi).2, reaches_of (q := fun t _ => oneWord t.d t.lo t.f.w && t.d.mxk == 0) (by decide +kernel)⟩

/-- FencesAndPrefetch: both fences, and a wait with and without a result of memory owed. -/
def owedLoad : Owed := ⟨[.v 1 7], 0, false, true, true, none, none⟩
theorem test_fence_hyps : (∀ i ∈ [Instr.fence c0 .device .acqrel, .fenceSc c0 .system, .pf c0 (at0 0)], Performs sMem mMem i ∧ PerformsAlone sMem mMem i) ∧
    WaitingAt (waitWorld (.fence c0 .device .acqrel) .fence 0) (mem0 (waitsAt (.fence c0 .device .acqrel) .fence 0)) (.fence c0 .device .acqrel) .fence ∧
    (let t : Thread := { waitsAt (.fenceSc c0 .system) .fence 0 with owed := [owedLoad] }
     WaitingAt { world t [] with issue := [] } (mem0 t) (.fenceSc c0 .system) .fence ∧ ∃ q ∈ t.owed, q.memory = true) :=
  ⟨performs_of (by decide +kernel), waiting_of (by decide +kernel), waiting_of (by decide +kernel), owedLoad, List.mem_cons_self .., rfl⟩

/-! ## Witnesses: barrier objects, the workgroup barrier, boards -/

/-- An object with PEND 1 at the first word of b0, and one with PEND 0 sixteen bytes on. -/
def sObj : State := world tMem [(16384, 8, 1 + 3 * 2 ^ 32)]
def obj (ofs : BitVec 14) (sc : Scope) : MemOp := { bare with ofs := ofs, scope := sc }
theorem test_barrier_hyps :
    (∀ i ∈ [Instr.binit c0 4 (obj 0 .workgroup), .binit c0 0xFF (obj 0 .workgroup), .binit c0 5 (obj 0 .device), .binit c0 6 (obj 0 .device),
      .barr c0 3 (obj 0 .cluster), .barr c0 3 (obj 2 .cluster), .barr c0 2 (obj 0 .cluster), .rdv c0 3 (obj 0 .cluster), .rdv c0 3 (obj 2 .cluster)],
      PerformsAlone sObj mMem i) ∧
    (∃ b s₁, barrierOf mMem sObj.popped (obj 0 .cluster) = .ok (b, s₁) ∧ ObjectFree sObj b true ∧ ((barrierFields (objectNow sObj b.ps)).1 == 1) = true) ∧
    (∃ b s₁, barrierOf mMem sObj.popped (obj 2 .cluster) = .ok (b, s₁) ∧ ObjectFree sObj b true ∧ ((barrierFields (objectNow sObj b.ps)).1 == 0) = true) ∧
    (tMem.readV 5).toNat = 2 ^ 32 - 1 ∧ (tMem.readV 6).toNat = 2 ^ 32 ∧ 2 ^ 47 ≤ (tMem.readV 2).toNat ∧ TlbFresh sObj :=
  ⟨fun i hi => (performs_of (by decide +kernel) i hi).2, object_of (by decide +kernel), object_of (by decide +kernel), by decide +kernel,
    by decide +kernel, by decide +kernel, tlbFresh_of (by decide +kernel)⟩

/-- BarrierWaits: a phase that differs, one that does not with a limit and without, and waits under way before and after their limit. -/
theorem test_bwait_hyps :
    (let t := thr [2 ^ 63, 0, 50]
     (∀ i ∈ [Instr.bwait c0 0 (obj 0 .cluster), .bwait c0 1 (obj 0 .cluster), .bwait c0 2 (obj 0 .cluster)], PerformsAlone (world t []) (mem0 t) i) ∧
     ∃ b s₁, barrierOf (mem0 t) (world t []).popped (obj 0 .cluster) = .ok (b, s₁) ∧ ObjectFree (world t []) b false ∧
       (barPhase (objectNow (world t []) b.ps) == false) = true) ∧
    (let i : Instr := .bwait c0 3 (obj 0 .cluster)
     let t := waitsAt i .barrier 100
     WaitingAt (waitWorld i .barrier 100) (mem0 t) i .barrier ∧ limitOf t ≤ { waitWorld i .barrier 100 with now := 100 }.tickOf 0 ∧
     (waitWorld i .barrier 100).tickOf 0 < limitOf t ∧
     ∃ b s₁, barrierOf (mem0 t) (waitWorld i .barrier 100).popped (obj 0 .cluster) = .ok (b, s₁) ∧ ObjectFree (waitWorld i .barrier 100) b false ∧
       true = true) :=
  ⟨⟨fun i hi => (performs_of (by decide +kernel) i hi).2, object_of (by decide +kernel)⟩, waiting_of (by decide +kernel),
    by decide +kernel, by decide +kernel, object_of (q := fun _ => true) (by decide +kernel)⟩

/-- WorkgroupBarrier: a companion that waits at its bsync, or does not. -/
def bsyncWaits (t : Thread) : Thread := { t with wait := some ⟨.bsync, .bsync c0, 1, 0, [], 0, fmts12, []⟩ }
theorem test_bsync_hyps :
    performsAll (pairWorld id [0]) ⟨two id, thr [1, 2], [0]⟩ [.bsync c0, .exit c0] = true ∧
    (∃ u ∈ (two id).threads, u.tid ≠ 0 ∧ u.live = true ∧ atBsync u = false) ∧
    performsAll (pairWorld bsyncWaits [0]) ⟨two bsyncWaits, thr [1, 2], [0]⟩ [.bsync c0, .exit c0] = true ∧
    (∀ u ∈ (two bsyncWaits).threads, u.tid ≠ 0 → u.live = true → atBsync u = true) ∧
    ((two bsyncWaits).threads.map (·.tid)).Nodup := by decide +kernel

/-- NoticeBoards: a board of four slots in HBM4E behind a leaf of 1 GiB (Table 18.2), and one whose level is at its maximum. -/
def sBoard (level : Nat) : State :=
  let s := world tMem [(4096 + 64 * 2, 64, entryBits 20480 80 5 - windowBase + 2 ^ 133 + 4 * 2 ^ 134)]
  { s with roots := [2 ^ 33, 0, 0, 0, 0, 0]
           mem := placeBytes (placeBytes s.mem (hbmLoc 0 (2 ^ 33)) (bytesOf 2 8)) (hbmLoc 0 20480) (bytesOf (level + 4 * 2 ^ 32) 8) }
theorem test_board_hyps :
    (∀ i ∈ [Instr.nbpost c0 1 3 { obj 3 .cluster with bind := 1 }, .nbget c0 3 { obj 3 .cluster with bind := 1 }, .nbinit c0 1 .cluster],
      PerformsAlone (sBoard 0) mMem i) ∧
    (∃ b s₁, boardOf mMem (sBoard 0).popped 1 (some 3) = .ok (b, s₁) ∧ ObjectFree (sBoard 0) b true ∧
      (natField (objectNow (sBoard 0) b.ps) 0 32 == 0) = true) ∧
    (∃ b s₁, boardOf mMem (sBoard (2 ^ 32 - 1)).popped 1 (some 3) = .ok (b, s₁) ∧ ObjectFree (sBoard (2 ^ 32 - 1)) b true ∧
      (natField (objectNow (sBoard (2 ^ 32 - 1)) b.ps) 0 32 == 2 ^ 32 - 1) = true) ∧
    (∃ b s₁, boardOf mMem (sBoard 0).popped 1 (some 3) = .ok (b, s₁) ∧ ObjectFree (sBoard 0) b false ∧ true = true) ∧
    (∃ b s₁, boardOf mMem (sBoard 0).popped 1 none = .ok (b, s₁) ∧ ObjectFree (sBoard 0) b true ∧ true = true) ∧
    elemIndex (mMem.t.readV 0xFF) 3 = 3 ∧ TlbFresh (sBoard 0) :=
  ⟨fun i hi => (performs_of (by decide +kernel) i hi).2, object_of (by decide +kernel), object_of (by decide +kernel),
    object_of (q := fun _ => true) (by decide +kernel), object_of (q := fun _ => true) (by decide +kernel), by decide +kernel, tlbFresh_of (by decide +kernel)⟩

/-- OwnWritesAndReleases: two bytes, a flag apart from them, and scopes that include each other. -/
theorem test_visibility_hyps : ([(5, (1 : Byte)), (6, 2)].map (·.1)).Nodup ∧ (∀ r ∈ State.reset.hist, r.id < State.reset.nextWrite) ∧
    memWf State.reset.mem = true ∧ (5, (1 : Byte)) ∈ [(5, (1 : Byte)), (6, 2)] ∧ 5 ∉ [(9, (1 : Byte))].map (·.1) ∧
    included 0 .cluster (.thread ⟨0, 1, 2⟩ 0 0 0) .device (.thread ⟨0, 1, 3⟩ 1 0 0) = true := by decide +kernel

/-! ## Witnesses: starting routines and engines -/

/-- A fork descriptor (Table 9.1) that names a context, with a rendezvous object 64 bytes into b0. -/
def forkDesc (want : Nat) : Nat := 0x1000 + want * 2 ^ 32 + 8 * 2 ^ 128 + 5 * 2 ^ 192
def running (k : Fin 2) : Pontil := { placedPontil with id := ⟨0, 0, k⟩ }
def forkWorld (want : Nat) (ps : List Pontil) : State := { world tMem [(16384, 64, forkDesc want)] with pontils := ps }
def forkWaits : Thread := waitsAt (.fork c0 3 (obj 0 .cluster)) .forkContext 2
def forkObjectB (s : State) (m : Member) (q : ObjectAt → Bool) : Bool := objectB (objectOf m s.popped (obj 0 .cluster) 8 { r := true } 64 .recordAlign) s false q
theorem test_fork_hyps :
    (∀ i ∈ [Instr.fork c0 3 (obj 0 .cluster)], PerformsAlone (forkWorld 3 []) mMem i ∧ PerformsAlone (forkWorld 2 []) mMem i) ∧
    Untraced (forkWorld 2 []) mMem ∧ TlbFresh (forkWorld 2 []) ∧ EntriesFresh (forkWorld 2 []) ∧
    (∃ b s₁, objectOf mMem (forkWorld 3 []).popped (obj 0 .cluster) 8 { r := true } 64 .recordAlign = .ok (b, s₁) ∧
      ObjectFree (forkWorld 3 []) b false ∧ (!(forkOk (objectNow (forkWorld 3 []) b.ps))) = true) ∧
    (∃ b s₁, objectOf mMem (forkWorld 2 []).popped (obj 0 .cluster) 8 { r := true } 64 .recordAlign = .ok (b, s₁) ∧
      ObjectFree (forkWorld 2 []) b false ∧ (forkOk (objectNow (forkWorld 2 []) b.ps) &&
        okP (forkObject (forkWorld 2 []).popped mMem (objectNow (forkWorld 2 []) b.ps)) (fun _ => true)) = true) ∧
    contextFor (forkWorld 2 [running 0]) ⟨0, 0⟩ 2 (ownNumber mMem (forkWorld 2 [running 0])) = some ⟨0, 0, 1⟩ ∧
    contextFor (forkWorld 2 [running 0, running 1]) ⟨0, 0⟩ 2 (ownNumber mMem (forkWorld 2 [running 0, running 1])) = none ∧
    (let s : State := { world forkWaits [(16384, 64, forkDesc 2)] with issue := [], pontils := [running 0] }
     WaitingAt s (mem0 forkWaits) (.fork c0 3 (obj 0 .cluster)) .forkContext ∧
     oldestWaiter ((forkWaiters s ⟨0, 0⟩).filter (fun w => (wanted w.want).contains 1)) = some ⟨3, 2, ⟨0, 0⟩⟩ ∧
     contextFor s ⟨0, 0⟩ 2 (ownNumber (mem0 forkWaits) s) = some ⟨0, 0, 1⟩) :=
  ⟨fun i hi => ⟨(performs_of (by decide +kernel) i hi).2, (performs_of (by decide +kernel) i hi).2⟩, untraced_of (by decide +kernel),
    tlbFresh_of (by decide +kernel), entriesFresh_of (by decide +kernel), object_of (by decide +kernel),
    object_of (by decide +kernel), by decide +kernel, by decide +kernel, waiting_of (by decide +kernel), by decide +kernel, by decide +kernel⟩

/-- Descriptors of Tables 9.8 to 9.15 whose completion object is 64 bytes into b0; binding 1 is memory behind a leaf. -/
def comp64 : Nat := 8 * 2 ^ 390
def engineDesc : EngineKind → Nat
  | .cpy => 2 ^ 12 + 256 * 2 ^ 128 + 16 * 2 ^ 192 + 2 ^ 224 + comp64
  | .gth | .sct => 1 + 2 * 2 ^ 128 + 16 * 2 ^ 160 + 512 * 2 ^ 256 + comp64
  | .xds => 127 * 2 ^ 24 + 512 * 2 ^ 64 + 768 * 2 ^ 128 + 4 * 2 ^ 192 + 8 * 2 ^ 224 + comp64
  | .tpf => 1 + 4096 * 2 ^ 128 + comp64
  | .col => 4 * 2 ^ 14 + 4 * 2 ^ 18 + 64 * 2 ^ 128 + 2 * 2 ^ 192 + 9 * 2 ^ 256 + 2 ^ 340 + comp64
def engineWord (o : MemOp) : EngineKind → Instr
  | .cpy => .cpy c0 o
  | .gth => .gth c0 o
  | .sct => .sct c0 o
  | .xds => .xds c0 o
  | .tpf => .tpf c0 o
  | .col => .col c0 o
/-- The descriptor stands 1 KiB into b0; a transducer table of one state stands at its start. -/
def engineWorld (t : Thread) (d : Nat) (ops : List EngineOp) : State :=
  let s := world t [(16384, 64, 1), (17408, 64, d), (4096 + 64 * 2, 64, entryBits 0 65536 7 - windowBase)]
  { s with roots := [2 ^ 33, 0, 0, 0, 0, 0], mem := placeBytes s.mem (hbmLoc 0 (2 ^ 33)) (bytesOf 2 8), ops := ops
           groups := [⟨9, [⟨0, 0⟩]⟩] }
def engineObj (sc : Scope) : MemOp := obj 128 sc
/-- A start that the scope and the descriptor let through, and what its checks answer. -/
def startsB (s : State) (m : Member) (k : EngineKind) (q : Checked → Option EngineUnit → Bool) : Bool :=
  aloneB s m && gateIs s m (engineWord (engineObj (engineScope k)) k) true &&
  objectB (objectOf m s.popped (engineObj (engineScope k)) 8 { r := true, w := true } 64 .recordAlign) s false (fun b =>
    descOk k (objectNow s b.ps) && okP (checkStart s.popped m k (objectNow s b.ps) b.va) (fun ck =>
      ck.buffers.all (fun x => !(pathWaits s x.2)) && q ck (unitFor s m.wg.core k (objectNow s b.ps) ck.buffers)))
def refusedB (s : State) (m : Member) (k : EngineKind) (ok : Bool) (e : Code) : Bool :=
  objectB (objectOf m s.popped (engineObj (engineScope k)) 8 { r := true, w := true } 64 .recordAlign) s false (fun b =>
    descOk k (objectNow s b.ps) == ok && (!ok || errP (checkStart s.popped m k (objectNow s b.ps) b.va) (fun c => c == e)))
def engines : List EngineKind := [.cpy, .gth, .sct, .xds, .tpf, .col]
def waitsRoom (k : EngineKind) : Thread := waitsAt (engineWord (engineObj (engineScope k)) k) .engineRoom 0
def opOn (u : EngineUnit) : EngineOp := ⟨u, .cpy, 0, 0, .system, 0, 0, 0, [], [], none, .empty, [], none, 0, [], none⟩
def fullQueue : EngineKind → List EngineOp
  | .cpy => List.replicate 64 (opOn (.copy ⟨0, 0⟩))
  | .gth | .sct => List.replicate 64 (opOn (.gather 0))
  | .xds => (List.range 96).map (fun k => opOn (.lane 0 k))
  | .tpf => List.replicate 256 (opOn (.tpf 0))
  | .col => List.replicate 16 (opOn (.collective 0))
/-- A reserved bit, and a binding that holds nothing. -/
def badDesc (k : EngineKind) : Nat := engineDesc k + 2 ^ 63
def emptyDesc (k : EngineKind) : Nat := engineDesc k + (match k with | .cpy | .xds => 5 | .col => 20 | _ => 4)

theorem test_engine_starts : engines.all (fun k => startsB (engineWorld tMem (engineDesc k) []) mMem k (fun _ u => u.isSome)) = true := by
  decide +kernel
theorem test_engine_full : [EngineKind.cpy, .xds].all (fun k => startsB (engineWorld tMem (engineDesc k) (fullQueue k)) mMem k (fun _ u => u.isNone)) = true := by
  decide +kernel
theorem test_engine_waits : [EngineKind.col].all (fun k =>
    let s := { engineWorld (waitsRoom k) (engineDesc k) [] with issue := [] }
    waitingB s (mem0 (waitsRoom k)) (engineWord (engineObj (engineScope k)) k) .engineRoom && s.tlb.isEmpty && s.entryCache.isEmpty) = true := by
  decide +kernel
theorem test_engine_refused : [EngineKind.gth].all (fun k => refusedB (engineWorld tMem (badDesc k) []) mMem k false .descField &&
    refusedB (engineWorld tMem (emptyDesc k) []) mMem k true .bindEmpty && !((engineObj .thread).scope.atLeast (engineScope k))) = true := by
  decide +kernel

/-! ## Witnesses: pontils -/

/-- A context on issue with these q registers, the slots of the workgroup, and PEND 1 in its rendezvous object when `filled` so. -/
def pont (q : List Word) : Pontil :=
  { placedPontil with q := q ++ List.replicate (32 - q.length) 0, rdv := BitVec.ofNat 64 (windowBase + 16384), tiles := []
                      fmts := (List.range 4).map fixedSlot ++ fmts12 }
def pontWorld (p : Pontil) (fill : List (Nat × Nat × Nat)) : State :=
  { world tMem fill with pontils := [p], issue := [.pontil ⟨0, 0, 0⟩] }

def scalarWords : List Instr :=
  [.qop c0 2 0 1 .add, .qop c0 2 0 1 .sub, .qop c0 2 0 1 .mul, .qop c0 2 0 1 .and, .qop c0 2 0 1 .or, .qop c0 2 0 1 .xor, .qop c0 2 0 1 .shl,
   .qop c0 2 0 1 .shr, .qop c0 2 0 1 .hi, .qmovk c0 2 0xFFFFFFFF, .qopCmp c0 0 0 1 .eq, .qopCmp c0 6 0 1 .ne, .qopCmp c0 3 0 1 .ltu,
   .qopCmp c0 4 0 1 .lt, .azero c0 0, .azero c0 15, .nop c0]
theorem test_scalar_hyps : (∀ i ∈ scalarWords, PontilPerforms (pontWorld (pont [5, 7]) []) (pont [5, 7]) i) ∧
    PontilOnIssue (pontWorld (pont []) []) (pont []) ∧ checkPontil (.qmovk ⟨0, .pred 0 false⟩ 2 1) = .ok () ∧
    (pont []).guardOk (.qmovk ⟨0, .pred 0 false⟩ 2 1) = false :=
  ⟨pontilPerforms_of (by decide +kernel), pontilOnIssue_of (by decide +kernel), by decide +kernel, by decide +kernel⟩

/-- PontilControl: counts 0, 1, 2^32 - 1 and 2^32; the end of a body whose counter is 2, 0 or 1, and a word inside it. -/
def counted : Pontil := pont [0, 1, 0xFFFFFFFF, 0x100000000]
def inBody (n : BitVec 32) (last : Word) : Pontil := { pont [] with pc := 128, loops := [⟨0, 64, last⟩], lc := [n, 0, 0, 0] }
theorem test_control_hyps :
    (∀ i ∈ [Instr.pbr c0 0x3FFFFFF, .loop c0 0 0 0, .loop c0 3 1 65535, .loop c0 0 2 1, .loop c0 0 3 1], PontilPerforms (pontWorld counted []) counted i) ∧
    counted.loops = [] ∧ counted.lc.length = 4 ∧ (counted.getQ 0).toNat = 0 ∧ (counted.getQ 1).toNat = 1 ∧
    (counted.getQ 2).toNat = 2 ^ 32 - 1 ∧ (counted.getQ 3).toNat = 2 ^ 32 ∧ (64 : Word) + 8 * 65535 ≠ counted.pc ∧
    ((inBody 2 128).loops = [⟨0, 64, 128⟩] ∧ (inBody 2 128).pc = 128 ∧ (inBody 2 128).lc.getD 0 0 ≠ 1 ∧ (inBody 0 128).lc.getD 0 0 ≠ 1 ∧
      (inBody 1 128).lc.getD 0 0 = 1 ∧ (inBody 1 136).pc ≠ 136) :=
  ⟨pontilPerforms_of (by decide +kernel), by decide +kernel⟩

/-- PontilArrivals: an object that awaits one arrival, and one that awaits none. -/
theorem test_arrival_hyps : ∀ fill ∈ [[(16384, 8, 1 + 3 * 2 ^ 32)], []], (let s := pontWorld (pont []) fill
    Quiet s ∧ (∀ i ∈ [Instr.parr c0, .pend c0], PontilPerforms s (pont []) i) ∧ s.wg? 0 = some (wgWith tMem) ∧
    (∃ x, places s.popped 0 (pont []).rdv.toNat 16 = .ok x ∧ (hereB x.1 && decide ((locsOf x.1).Nodup) && (blocked x.2 true x.1).isNone &&
      ((barrierFields (objectNow s x.1)).1 == (if fill = [] then 0 else 1))) = true) ∧ ∃ t ∈ (wgWith tMem).threads, t.live = true) := by
  intro fill hf
  simp only [List.mem_cons, List.not_mem_nil, or_false] at hf
  rcases hf with rfl | rfl
  · exact ⟨quiet_of (by decide +kernel), pontilPerforms_of (by decide +kernel), by decide +kernel, okP_of (by decide +kernel), tMem,
      List.mem_cons_self .., rfl⟩
  · exact ⟨quiet_of (by decide +kernel), pontilPerforms_of (by decide +kernel), by decide +kernel, okP_of (by decide +kernel), tMem,
      List.mem_cons_self .., rfl⟩

/-- PontilMemory: the last element of b0 in f0. -/
def lastOfB0 : QMemOp := { bareQ with ofsReg := some 1 }
theorem test_pontil_memory_hyps : (let s := pontWorld (pont [3, 511]) []
    Quiet s ∧ (∀ i ∈ [Instr.qld c0 2 lastOfB0, .qst c0 0 lastOfB0], PontilPerforms s (pont [3, 511]) i) ∧ (pont [3, 511]).q.length = 32 ∧
    (∃ t ps, PontilReaches s (pont [3, 511]) lastOfB0 { r := true } false t ps ∧ true = true) ∧
    (∃ t ps, PontilReaches s (pont [3, 511]) lastOfB0 { w := true } true t ps ∧ (t.d.mxk == 0) = true) ∧ ∀ ctx, NoFrameTwice s.popped ctx) :=
  ⟨quiet_of (by decide +kernel), pontilPerforms_of (by decide +kernel), by decide +kernel, pontilReaches_of (q := fun _ _ => true) (by decide +kernel),
    pontilReaches_of (q := fun t _ => t.d.mxk == 0) (by decide +kernel), noFrameTwice_popped (by decide +kernel)⟩

/-- OcldLoads: one element of bfloat16, and a context that waits for its granule. -/
def loadWord (few : Bool) : Word := 4 <<< 58 ||| BitVec.ofNat 64 (bitOf few * 2 ^ 15)
def clusterQ : QMemOp := { bareQ with scope := .cluster }
def plainLoadB (s : State) (p : Pontil) (l : Load) (z : State) : Bool :=
  decide (l.d.comp = 0 ∧ l.d.mxk = 0 ∧ l.d.smask = 0 ∧ l.f.isBlock = false ∧ 2 ≤ l.f.w ∧ l.f.w ≤ 64 ∧ opFew l.o = false ∧ opFec l.o = false ∧
    vaModule l.d.base = s.module.toNat) && z.tlb.isEmpty && p.view.uo.isEmpty &&
  okP (missing l []) (fun ks => ks.length == 1 && ks.all (fun k => okP (places s.popped l.bd.ctx (pieceSize l.d * k) (pieceSize l.d))
    (fun x => (blocked x.2 false x.1).isNone && hereB x.1)))
def waitingLoad : Pontil := { pont [loadWord true] with wait := some ⟨.ocld c0 0 clusterQ, [], [], false, []⟩ }
theorem test_ocld_hyps : (let s := pontWorld (pont [loadWord false]) [(16384, 2, 0x3F80)]
      Quiet s ∧ (∀ i ∈ [Instr.ocld c0 0 clusterQ], PontilPerforms s (pont [loadWord false]) i) ∧
      ∃ x, checkLoad s.popped (pont [loadWord false]) 0 clusterQ = .ok x ∧ plainLoadB s (pont [loadWord false]) x.1 x.2 = true) ∧
    (let s := pontWorld waitingLoad []
     s.pontil? ⟨0, 0, 0⟩ = some waitingLoad ∧ waitingLoad.state = .running ∧
     waitingLoad.wait = some ⟨.ocld c0 0 clusterQ, [], [], false, []⟩ ∧
     ∃ x, checkLoad s { waitingLoad with wait := none } 0 clusterQ = .ok x ∧ opFew x.1.o = true) :=
  ⟨⟨quiet_of (by decide +kernel), pontilPerforms_of (by decide +kernel), okP_of (by decide +kernel)⟩, by decide +kernel, rfl, rfl,
    okP_of (by decide +kernel)⟩

/-- Products: shape code 16 of bfloat16 operands with f3, of 64-bit integers with f1, and checks that fail. -/
def operand (slot role : Nat) : Word := BitVec.ofNat 64 (role * 2 ^ 14 + 15 * 2 ^ 16 + 63 * 2 ^ 22 + slot * 2 ^ 58)
def tilesPont : Pontil := pont [operand 4 0, operand 4 1, operand 1 0, operand 1 1, 0]
def zeroRows : List (List EspElem) := List.replicate 16 (List.replicate 64 ⟨valZero false, false⟩)
def operandsB (s : State) (p : Pontil) (x : Product) : Bool :=
  decide (tileOperand s.popped p.esp x.oa (planesOf x.fa) (footprint x.oa x.fa) x.m x.k = (zeroRows, s.popped) ∧
    tileOperand s.popped p.esp x.ob (planesOf x.fb) (footprint x.ob x.fb) x.n x.k = (zeroRows, s.popped))
theorem zero_row (m : Nat) : zeroRows.getD m [] = [] ∨ zeroRows.getD m [] = List.replicate 64 ⟨valZero false, false⟩ := by
  by_cases h : m < 16
  · exact .inr (by rw [zeroRows, List.getD_eq_getElem?_getD, List.getElem?_replicate_of_lt h]; rfl)
  · exact .inl (by rw [List.getD_eq_getElem?_getD, List.getElem?_eq_none (by simp [zeroRows]; omega)]; rfl)
theorem test_product_hyps : (let s := pontWorld tilesPont []
    (∀ i ∈ [Instr.mma c0 2 0 1 3 .slotDefault 16 true, .mmas c0 2 0 1 3 .slotDefault 16 false, .mma c0 2 2 3 1 .slotDefault 16 true,
      .smrs c0 0 1 4 3 .slotDefault 0, .smrs c0 15 0 4 2 .slotDefault 63, .smrs c0 1 0 4 3 .rsr 63], PontilPerforms s tilesPont i) ∧
    (∃ x, checkProduct tilesPont 0 1 3 16 = .ok x ∧ operandsB s tilesPont x = true) ∧
    (∃ x, checkProduct tilesPont 2 3 1 16 = .ok x ∧ operandsB s tilesPont x = true) ∧
    (fdefOf (tilesPont.fdef 1)).isInt = true ∧
    (∀ sparse m n, (integerSum f1def f1def (pairsOf sparse (zeroRows.getD m []) (zeroRows.getD n []))).isSome = true) ∧
    (∃ e, checkProduct tilesPont 0 1 1 16 = .error e ∧ (e == .shapeIllegal) = true) ∧
    effRm .slotDefault (fdefOf (tilesPont.fdef 3)) ≠ .rsr) :=
  ⟨pontilPerforms_of (by decide +kernel), okP_of (by decide +kernel), okP_of (by decide +kernel), by decide +kernel,
    fun sparse m n => by
      rcases zero_row m with h | h <;> rcases zero_row n with k | k <;> rw [h, k] <;> cases sparse <;> decide +kernel,
    errP_of (by decide +kernel), by decide +kernel⟩

/-- Drains: one element of f3 into bfloat16 at the start of b0, and a maximum word 128 bytes on. -/
def drainPont : Pontil := pont [3 <<< 16 ||| 1 <<< 24, 32]
def drainOp : QMemOp := { clusterQ with slot := 4 }
theorem test_drain_hyps : (let s := pontWorld drainPont []
    Quiet s ∧ (∀ i ∈ [Instr.drn c0 0 drainOp, .drnm c0 0 drainOp], PontilPerforms s drainPont i) ∧ (∀ ctx, NoFrameTwice s.popped ctx) ∧
    (∀ ls, sramLocsB ls = true → TablesApart s ls) ∧ (∀ ctx ls, entriesApartB s ctx ls = true → EntriesApart s ctx ls) ∧
    (∀ merges, ∃ x, checkDrain s.popped drainPont merges 0 drainOp = .ok x ∧ (drainPont.view.uo.isEmpty && !(x.1.overlaps) && !(drFull x.1.d) &&
      decide (x.1.b.mxk = 0 ∧ x.1.b.smask = 0 ∧ x.1.f.isBlock = false ∧ 2 ≤ x.1.f.w ∧ vaModule x.1.b.base = s.module.toNat) &&
      okP (partPlaces x.2 x.1.bd.ctx (x.1.touched (x.1.images drainPont))) (fun y => !(anyUo y.1) && hereB y.1 && (blocked s true y.1).isNone &&
        sramLocsB (locsOf y.1) && entriesApartB s x.1.bd.ctx (locsOf y.1) &&
        okP (maxTarget s.popped drainPont 0) (fun t => okP (checkAtomic t.2 { t.1 with f := f3def } drainOp.scope) (fun w => hereB w.1 &&
          decide ((locsOf w.1).Nodup) && (locsOf w.1).all (fun l => !((locsOf y.1).contains l)) && (blocked s true w.1).isNone)))) = true)) :=
  ⟨quiet_of (by decide +kernel), pontilPerforms_of (by decide +kernel), noFrameTwice_popped (by decide +kernel),
    tablesApart_sram (by decide +kernel), entriesApart_of,
    fun merges => by cases merges <;> exact okP_of (by decide +kernel)⟩

/-! ## Witnesses: privileged instructions -/

/-- v0 is 1, v1 is 8, v2 is 3: flags that may be written and that may not, and queues held and not; v3 names die 6, v4 is 63, v5 is 64. -/
def tPriv : Thread := thr [1, 8, 3, 6 * 2 ^ 50, 63, 64, 0, 4, 5]
def sPriv : State := world tPriv []
def privWords : List Instr :=
  [.wrpr c0 0, .wrpr c0 1, .wrpr c0 2, .tlbinvPg c0 0, .tlbinvPg c0 3, .tlbinvAll c0, .hqctlRd c0 9 2, .hqctlPause c0 9 2, .hqctlResume c0 9 2,
   .hqctlDrain c0 9 2, .hqctlRd c0 9 0, .stoptArm c0 4, .stoptArm c0 5, .stoptOff c0, .bfinv c0 9 6 8, .bfinv c0 9 7 6, .bfinv c0 9 6 7,
   .lehrsv c0 9 0 6 0, .lehrld c0 9 6 0]
theorem test_priv_hyps : performsAll sPriv (mem0 tPriv) privWords = true ∧
    (let x := tPriv.readV 0
     x.toNat < 8 ∧ x.getLsbD 0 = sPriv.isPriv 0 ∧ x.getLsbD 1 = sPriv.isChecked 0) ∧
    8 ≤ (tPriv.readV 1).toNat ∧ (tPriv.readV 2).getLsbD 1 ≠ sPriv.isChecked 0 ∧
    mayInvalidate sPriv 0 (tPriv.readV 0).toNat = true ∧ mayInvalidate sPriv 0 (tPriv.readV 3).toNat = false ∧
    (namedQueue (mem0 tPriv) sPriv 2).isSome = true ∧ namedQueue (mem0 tPriv) sPriv 0 = none ∧
    (∀ die, die < 6 → sPriv.tickOf die + 64 ≤ (tPriv.readV 5).toNat) ∧ (tPriv.readV 4).toNat < sPriv.tickOf 0 + 64 ∧
    (∃ k, sPriv.context? 0 = some k ∧ k.btlen = 4) ∧ (tPriv.readV 6).toNat + (tPriv.readV 8).toNat = 5 ∧
    (tPriv.readV 7).toNat + (tPriv.readV 6).toNat = 4 ∧ (tPriv.readV 6).toNat + (tPriv.readV 7).toNat = 4 := by decide +kernel

/-- A bfinv of the whole table under way, with no die and with all but one acknowledged. -/
def bfinvWaits (acks : List Nat) : Thread := { tPriv with wait := some ⟨.bfinv, .bfinv c0 9 6 7, 1, 100, acks, 0, fmts12, []⟩ }
theorem test_bfinv_hyps : ∀ acks ∈ [[], [0, 1, 2]], (let s : State := { world (bfinvWaits acks) [] with issue := [] }
    WaitingAt s (mem0 (bfinvWaits acks)) (.bfinv c0 9 6 7) .bfinv ∧ (3 ∈ s.diesOf 0 ∧ 3 ∉ acks ∧ ∀ x ∈ s.down, x.die ≠ 3) ∧
    ((∀ x ∈ s.diesOf 0, x = 3 ∨ x ∈ acks) ∨ ∃ x ∈ s.diesOf 0, x ≠ 3 ∧ x ∉ acks) ∧ s.tickOf 0 < 100 ∧ 100 ≤ { s with now := 100 }.tickOf 0) := by
  intro acks ha
  simp only [List.mem_cons, List.not_mem_nil, or_false] at ha
  rcases ha with rfl | rfl
  · exact ⟨waiting_of (by decide +kernel), by decide +kernel, .inr (by decide +kernel), by decide +kernel⟩
  · exact ⟨waiting_of (by decide +kernel), by decide +kernel, .inl (by decide +kernel), by decide +kernel⟩

/-! ## Witnesses: saves and restores -/

/-- An image of one warp of one register, at pc 0 and live, as Tables 20.2 and 20.3 lay it out; SUM is SHA-512's (R285). -/
def imageHeader : Nat :=
  0x5248454C + 2 ^ 32 + 0x67A9E795148EFD39 * 2 ^ 64 + 11520 * 2 ^ 128 + 2 ^ 198 + 2 ^ 204 + 2 ^ 212 + 0x10001 * 2 ^ 1536 +
  0x10002 * 2 ^ 1600 + 0x10003 * 2 ^ 1664 + 0x10000 * 2 ^ 5504
def imageList : List Byte := bytesOf imageHeader 1024 ++ bytesOf (2 ^ 81) 16 ++ List.replicate 10480 0
/-- The launch of the image: one workgroup of one thread of one register, marked saved; its queue's area is b0. -/
def savedLaunch : Launch :=
  { placedLaunch with block := blockBits, record := 2 ^ 128 + 2 ^ 160 + 2 ^ 192 + 2 ^ 224 + 2 ^ 235 + 2 ^ 256, marks := [⟨0, 0, [], []⟩], queue := 3
                      saved := [⟨0, 0, 0, 0, 11520⟩] }
def areaQueue : Queue := ⟨3, 0, 1, false, BitVec.ofNat 64 windowBase, 4, BitVec.ofNat 64 (windowBase + 16384), 65536, false, 0⟩
def wideB0 : Nat × Nat × Nat := (4096 + 64, 64, entryBits 16384 65536 7)
def imageWorld : State :=
  { world tPriv [wideB0, (16384, 1024, imageHeader), (17408, 16, 2 ^ 81)] with launches := [savedLaunch], queues := [areaQueue], pointers := [4, 0, 0, 0] }
/-- The state once lehrld has read its binding's entry: the core keeps a copy of it (R259). -/
def entryRead : State := { imageWorld.popped with entryCache := [⟨.thread ⟨0, 0, 0⟩ 0 0 0, 0, 1, entryBits 16384 65536 7⟩] }
def cx0 : Context := ⟨0, 0, true, false, false, BitVec.ofNat 64 (windowBase + 4096), 4⟩
def boundB0 : Bound := ⟨windowBase + 16384, 65536, true, true, true, false, false, 0, 0, 0, 0, 0, 0, 0, 0⟩

theorem image_first : (List.range 1040).map (fun i => entryRead.peek (sramLoc 0 16384 + i)) = bytesOf imageHeader 1024 ++ bytesOf (2 ^ 81) 16 := by
  decide +kernel
theorem image_last : entryRead.mem.all (fun c => decide (c.1 < sramLoc 0 16384 + 1040)) = true := by decide +kernel
theorem image_length : imgLength (ofBytes ((List.range 1024).map (fun i => entryRead.peek (sramLoc 0 16384 + i)))) = 11520 := by
  have h : (List.range 1024).map (fun i => entryRead.peek (sramLoc 0 16384 + i)) =
      (bytesOf imageHeader 1024 ++ bytesOf (2 ^ 81) 16).take 1024 := by
    rw [← image_first, ← List.map_take, List.take_range]
    rfl
  rw [h]
  decide +kernel
theorem image_bytes : (List.range 11520).map (fun i => entryRead.peek (sramLoc 0 16384 + i)) = imageList := by
  have hr : List.range 11520 = List.range 1040 ++ (List.range 10480).map (1040 + ·) := List.range_add (n := 1040) (m := 10480)
  rw [hr, List.map_append, image_first, List.map_map]
  refine congrArg _ (List.eq_replicate_iff.2 ⟨by rw [List.length_map, List.length_range], fun b hb => ?_⟩)
  obtain ⟨i, _, rfl⟩ := List.mem_map.1 hb
  apply memGet_of_not_listed
  intro c hc
  have := (List.all_eq_true.1 image_last) c hc
  simp only [decide_eq_true_eq] at this
  change _ ≠ sramLoc 0 16384 + (1040 + i)
  omega

/-- SavesAndRestores: a lehrld of an image that passes every check. -/
theorem test_lehrld_image : PerformsAlone imageWorld (mem0 tPriv) (.lehrld c0 9 6 0) ∧ imageWorld.uids ≠ 0 ∧
    bindingEntry imageWorld.popped (binderOf imageWorld.popped (wgWith tPriv) tPriv) 0 = .ok (boundB0, entryRead) ∧
    checkPeers entryRead boundB0 = .ok () ∧ pathWaits entryRead boundB0 = false ∧ imageWorld.context? 0 = some cx0 ∧
    imageAt entryRead (binderOf imageWorld.popped (wgWith tPriv) tPriv).agent 0 tPriv.view boundB0 (tPriv.readV 6).toInt =
      .ok (imageList, entryRead, tPriv.view) := by
  refine ⟨(performs_of (is := [.lehrld c0 9 6 0]) (by decide +kernel) _ (List.mem_cons_self ..)).2, by decide, by decide +kernel, by decide +kernel,
    by decide +kernel, by decide +kernel, ?_⟩
  rw [← image_bytes]
  exact imageAt_clean (translate_sram 0 (by decide +kernel) (by decide +kernel) (by decide +kernel)) rfl (noCounts_of (by decide +kernel)) rfl (by decide +kernel) (by decide) rfl
    (by decide +kernel) (by decide +kernel) (by decide +kernel) image_length
theorem image_sum : imageSum imageList = byteSlice imageList 8 8 := by decide +kernel
/-- The image passes the checks; the launch is its own, and nothing but a core with room is wanting. -/
theorem image_checks : imageChecks entryRead cx0 imageList = .ok savedLaunch := by
  have h : okP (imageChecks entryRead cx0 imageList) (fun l => l == savedLaunch) = true := by
    unfold imageChecks
    rw [image_sum]
    decide +kernel
  obtain ⟨l, hl, he⟩ := okP_of h
  rw [hl, beq_iff_eq.1 he]
theorem restore_ok {cores : List CoreId} (v : MemView) (h : (cores.find? (imageFits entryRead (ofBytes (imageList.take 1024)))).isSome = true) :
    ∃ k z, restoreImage entryRead cx0 imageList cores v = .ok (k, z) := by
  obtain ⟨c, hc⟩ := Option.isSome_iff_exists.1 h
  exact ⟨_, _, by rw [restoreImage, image_checks, restoreOn, hc]⟩
theorem test_restore : entryRead.setView 0 0 tPriv.view = entryRead ∧
    ∃ k z, restoreImage entryRead cx0 imageList (coresOf (imageDie entryRead cx0 imageList)) tPriv.view = .ok (k, z) :=
  ⟨by decide +kernel, restore_ok _ (by decide +kernel)⟩

/-- lehrsv: a handle that names nothing, the caller's own, another's; and another's that owes the state of a queue. -/
def tSave : Thread := thr [1, 0, 128, 0]
def otherWg (t : Thread) : Workgroup := { wgWith t with uid := 1, core := ⟨0, 0, 1⟩ }
def saveWorld (t : Thread) : State := { world tSave [wideB0] with workgroups := [wgWith tSave, otherWg t] }
theorem test_lehrsv_hyps :
    (let s := saveWorld (thr [])
     performsAll s (mem0 tSave) [.lehrsv c0 9 0 3 0, .lehrsv c0 9 1 3 0, .lehrsv c0 9 2 3 0] = true ∧
     wgOfHandle s (s.deviceOfCtx 0) (tSave.readV 0) = none ∧ wgOfHandle s (s.deviceOfCtx 0) (tSave.readV 1) = some (wgWith tSave) ∧
     wgOfHandle s (s.deviceOfCtx 0) (tSave.readV 2) = some (otherWg (thr [])) ∧ drainPending s (otherWg (thr [])) = false ∧
     (s.launch? 0).isSome = true ∧ (s.context? 0).isSome = true) ∧
    (let t := { thr [] with owed := [⟨[.v 1 0], 0, false, false, false, some 0, none⟩] }
     performsAll (saveWorld t) (mem0 tSave) [.lehrsv c0 9 2 3 0] = true ∧ drainPending (saveWorld t) (otherWg t) = true) := by decide +kernel
def saveRead : State := { (saveWorld (thr [])).popped with entryCache := entryRead.entryCache }
theorem test_lehrsv_target : ∃ ps, imageTarget (saveWorld (thr [])).popped (binderOf (saveWorld (thr [])).popped (wgWith tSave) tSave) 0
      (tSave.readV 3).toInt (lengthOf (saveWorld (thr [])) (otherWg (thr []))) = .ok (boundB0, windowBase + 16384, ps, saveRead) ∧
    pathWaits saveRead boundB0 = false ∧ blocked saveRead true ps = none := by
  have h := imageTarget_run (s := (saveWorld (thr [])).popped) (z := saveRead) (bd := binderOf (saveWorld (thr [])).popped (wgWith tSave) tSave)
    (b := 0) (n := lengthOf (saveWorld (thr [])) (otherWg (thr []))) (e := (tSave.readV 3).toInt) (d := boundB0) (by decide +kernel) rfl
    (translate_sram 0 (by decide +kernel) (by decide +kernel) (by decide +kernel)) (by decide +kernel) (by decide +kernel) (by decide +kernel)
    (by decide +kernel)
  refine ⟨_, h, by decide +kernel, blocked_near (fun l hl => ?_)⟩
  rw [locsOf_run] at hl
  obtain ⟨i, hi, rfl⟩ := List.mem_map.1 hl
  have h1 : lengthOf (saveWorld (thr [])) (otherWg (thr [])) = 15360 := by decide +kernel
  have h2 : sramLoc (vaDie ((boundB0.base : Int) + 8 * (tSave.readV 3).toInt).toNat) (vaOfs ((boundB0.base : Int) + 8 * (tSave.readV 3).toInt).toNat - windowBase) =
      4 * 2 ^ 52 + 16384 := by decide +kernel
  rw [h1] at hi
  have := List.mem_range.1 hi
  rw [h2, locSpace]
  omega

/-- lehrld: an image that is misaligned, and one whose header is no header. -/
theorem test_lehrld_refused : ∃ x, bindingEntry sPriv.popped (binderOf sPriv.popped (wgWith tPriv) tPriv) 0 = .ok x ∧
    (okP (checkPeers x.2 x.1) (fun _ => true) && !(pathWaits x.2 x.1) &&
     errP (imageAt x.2 (binderOf sPriv.popped (wgWith tPriv) tPriv).agent 0 tPriv.view x.1 (tPriv.readV 0).toInt) (fun _ => true) &&
     okP (imageAt x.2 (binderOf sPriv.popped (wgWith tPriv) tPriv).agent 0 tPriv.view x.1 (tPriv.readV 6).toInt) (fun y =>
       errP (restoreImage (y.2.1.setView 0 0 y.2.2) cx0 y.1 (coresOf (imageDie (y.2.1.setView 0 0 y.2.2) cx0 y.1)) y.2.2)
         (fun c => c == .descField))) = true :=
  okP_of (by decide +kernel)

/-! ## Witnesses: records and launches -/

/-- v0 names a queue that is held, v1 none there is, v2 one that is not held. -/
def tSpawn : Thread := thr [3, 64, 5]
/-- A record at the start of b0 with JOIN `n` and QUEUE 3, and `k` launches on the queue, whose backing has four entries. -/
def recordFill (n : Nat) : List (Nat × Nat × Nat) := [(16384, 64, n + 3 * 2 ^ 32)]
def onQueue (k : Nat) (s : State) : State := { s with launches := s.launches ++ List.replicate k { placedLaunch with queue := 3, uid := 9 } }
def spawnWorld (n k : Nat) : State := onQueue k (world tSpawn (recordFill n))
def devObj : MemOp := obj 0 .device
def recordB (s : State) (m : Member) (need : Rights) (n : Nat) : Bool :=
  objectB (recordOf m s.popped devObj need) s true (fun b => objectNow s (b.ps.take 8) % 2 ^ 32 == n && natField (objectNow s (b.ps.take 8)) 32 6 == 3)
def rwa : Rights := { r := true, w := true, a := true }
theorem test_spawn_hyps :
    (performsAll (spawnWorld 0 0) (mem0 tSpawn) [.spawn c0 0 devObj, .spawn c0 1 devObj, .spawn c0 2 devObj, .joinRec c0 0 devObj] &&
      [(0, 0), (0, 4), (1, 0), (1, 4), (2, 0)].all (fun p => let s := spawnWorld p.1 p.2
        recordB s (mem0 tSpawn) rwa p.1 && recordB s (mem0 tSpawn) { a := true } p.1 && s.tlb.isEmpty && hasRoom s 0 3 == (p.2 == 0))) = true ∧
    (tSpawn.readV 0).toNat < queuesPerDevice (spawnWorld 0 0).mode ∧ ((spawnWorld 0 0).heldQueue 0 3).isSome = true ∧
    (tSpawn.readV 1).toNat = queuesPerDevice (spawnWorld 0 0).mode ∧ (spawnWorld 0 0).heldQueue 0 (tSpawn.readV 2).toNat = none := by
  decide +kernel
def spawnWaits (i : Instr) : Thread := { tSpawn with wait := some ⟨.queueRoom, i, 2, 0, [], 0, fmts12, []⟩ }
theorem test_spawn_waits : [Instr.spawn c0 0 devObj, .joinRec c0 0 devObj].all (fun i =>
    let s : State := onQueue 4 { world (spawnWaits i) (recordFill 1) with issue := [] }
    waitingB s (mem0 (spawnWaits i)) i .queueRoom && recordB s (mem0 (spawnWaits i)) rwa 1) = true := by decide +kernel

/-- LaunchEnds: workgroups not halted, and halted at a code of each class outside debugging and under it. -/
def trapped (c : Code) : Workgroup := { wgWith { tSpawn with trap := some (c, 0) } with halted := true }
def endWorld (c : Code) (debug : Bool) (l : Launch) : State :=
  let s := world tSpawn []
  { s with workgroups := [trapped c], launches := [l], contexts := s.contexts.map (fun k => { k with debug := debug }) }
/-- A launch whose record lies in b0, ended or not. -/
def liveLaunch (code : Option Code) (ended : Nat) : Launch :=
  { placedLaunch with block := blockBits, addr := BitVec.ofNat 64 (windowBase + 16384), code := code, ended := ended }
theorem test_launch_end_hyps :
    (wgWith tSpawn).halted = false ∧ (trapped .programTrap).halted = true ∧ (trapped .programTrap).disposed = false ∧
    trapOf (trapped .programTrap) = some (.programTrap, 0) ∧ trapOf (trapped .dieReset) = some (.dieReset, 0) ∧
    codeClass .programTrap ≠ .ends ∧ codeClass .dieReset = .ends ∧
    (∀ c ∈ [Code.programTrap, .dieReset], ∀ debug ∈ [true, false], let s := endWorld c debug (liveLaunch none 0)
      s.wg? 0 = some (trapped c) ∧ s.isDebug 0 = debug ∧ (s.launch? 0).isSome = true ∧ (s.workgroups.map (·.uid)).Nodup) ∧
    ((endWorld .dieReset false (liveLaunch (some .dieReset) 0)).launch? 0 = some (liveLaunch (some .dieReset) 0)) := by decide +kernel
theorem test_complete_hyps : ∀ l ∈ [liveLaunch none 1, liveLaunch (some .launchAbort) 0], (let s : State := { world tSpawn [] with workgroups := [], launches := [l], issue := [] }
    s.launch? 0 = some l ∧ readyToComplete s l = true ∧ (l.code ≠ none ∨ blkNdep l.block = 0) ∧ l.joined = none ∧ l.under = false ∧
    recComp l.record = 0 ∧ noCountsB s = true ∧ memWf s.mem = true ∧
    okP (places s l.ctx.val (l.addr.toNat + 56) 8) (fun x => hereB x.1 && decide ((locsOf x.1).Nodup)) = true ∧
    readyToComplete (endWorld .bounds false l) l = false) := by decide +kernel

/-! ## Witnesses: cycles of a core and results -/

/-- Two workgroups of a core: words at 8192 are iadd, then twice fadd; each thread starts at one of them. -/
def codeFill : List (Nat × Nat × Nat) := [(8192, 8, 0x0247010203FF0000), (8200, 8, 0x2067030102FF5000), (8208, 8, 0x2067030102FF5000)]
def atPc (pc : Word) (stall : Nat) : Thread := { thr [] with pc := pc, stall := stall }
def coreWorld (a b : Thread) : State :=
  { world (thr []) codeFill with issue := [], workgroups := [wgWith a, { wgWith b with uid := 1, slot := 1 }] }
def pickCount (s : State) : Nat := (picksOf (tickStalls s ⟨0, 0, 0⟩) (inOrder (tickStalls s ⟨0, 0, 0⟩) ⟨0, 0, 0⟩)).length
theorem test_cycle_hyps :
    (∀ s ∈ [coreWorld (atPc 0 0) (atPc 8 0), coreWorld (atPc 8 1) (atPc 16 0), coreWorld (atPc 8 2) (atPc 16 1), coreWorld (atPc 8 2) (atPc 16 2)],
      (s.workgroups.map (·.uid)).Nodup ∧ (∀ g ∈ s.workgroups, g.formed = []) ∧ ∀ x ∈ s.down, x.die ≠ 0) ∧
    pickCount (coreWorld (atPc 0 0) (atPc 8 0)) = 2 ∧ pickCount (coreWorld (atPc 8 1) (atPc 16 0)) = 2 ∧
    pickCount (coreWorld (atPc 8 2) (atPc 16 1)) = 1 ∧ pickCount (coreWorld (atPc 8 2) (atPc 16 2)) = 0 ∧
    (let s := tickStalls (coreWorld (atPc 0 0) (atPc 8 0)) ⟨0, 0, 0⟩
     (s.workgroups.map (fun g => takesUnit s g [0])) = [false, true]) ∧
    (let s := tickStalls (coreWorld (atPc 8 1) (atPc 16 0)) ⟨0, 0, 0⟩
     (s.workgroups.map (fun g => takesUnit s g [0])) = [true, true]) ∧
    (∃ x ∈ [(⟨0, 0, [], false, none, false⟩ : DieDown)], x.die = (⟨0, 0, 0⟩ : CoreId).die) := by decide +kernel

/-- ResultsReturn: a register, a predicate, and the state of a queue with a workgroup resident and with none. -/
def owing (o : Owed) : Thread := { thr [7] with owed := [o] }
theorem test_return_hyps :
    (∀ o ∈ [(⟨[.v 0 5], 3, true, true, true, none, none⟩ : Owed), ⟨[.p 1 true], 0, false, false, false, none, none⟩, ⟨[.v 2 0], 0, false, false, false, some 3, none⟩],
      let s := world (owing o) []
      s.wg? 0 = some (wgWith (owing o)) ∧ s.thread? 0 0 = some (owing o) ∧ (owing o).owed[0]? = some o ∧ (owing o).owed[1]? = none ∧
      waitersOf s .save = [] ∧ o.held s 0 = false ∧ (owing o).preds.length = 7) ∧
    Owed.held ⟨[.v 2 0], 0, false, false, false, some 0, none⟩ (world (thr []) []) 0 = true := by decide +kernel

/-! ## Witnesses: engines -/

/-- A copy of 16 bytes inside b0 whose descriptor stands 1 KiB in, with an object 64 bytes in. -/
def b0Bound : Bound := { boundB0 with len := 4096 }
def copyOp : EngineOp :=
  { unit := .copy ⟨0, 0⟩, kind := .cpy, desc := engineDesc .cpy, descAddr := windowBase + 17408, scope := .cluster, ctx := 0, launch := 0, handle := 0
    buffers := [(0, b0Bound), (0, b0Bound)], fmts := fmts12, comp := some (windowBase + 16448), view := .empty, early := [], plan := none, started := 0, peers := [], aborted := none }
def copyWorld : State := { world (thr []) [(16384, 16, 0x0F0E0D0C0B0A09080706050403020100)] with ops := [copyOp], issue := [] }

/-- An operation on each engine, a group of one rank with its operation, and operands of a collective at the ends of the carrier. -/
def collective : EngineOp := { copyOp with unit := .collective 0, kind := .col, desc := engineDesc .col }
def engineOps : List EngineOp := [copyOp, { copyOp with unit := .gather 0, kind := .gth }, { copyOp with unit := .lane 0 0, kind := .xds },
  { copyOp with unit := .tpf 0, kind := .tpf, desc := engineDesc .tpf }, collective]
theorem test_completion_hyps : (let s : State := { world (thr []) [] with ops := engineOps, groups := [⟨9, [⟨0, 0⟩]⟩] }
    (opAt s (.copy ⟨0, 0⟩) 0).isSome = true ∧ opAt s (.copy ⟨0, 0⟩) 1 = none ∧ (opAt s (.gather 0) 0).isSome = true ∧ opAt s (.gather 0) 1 = none ∧
    (∃ o ∈ s.ops, o.unit = .lane 0 0) ∧ (∀ o ∈ s.ops, o.unit ≠ .lane 0 1) ∧
    someP (opAt s (.tpf 0) 0) (fun op => !(tpfHeld s op) && tpfHeld { s with down := [⟨0, 0, [], false, none, false⟩] } op) = true ∧ opAt s (.tpf 0) 1 = none ∧
    s.groups.filter (fun g => g.tag == 9) = [⟨9, [⟨0, 0⟩]⟩] ∧
    (gather 9 ⟨9, [⟨0, 0⟩]⟩ (List.finRange 4) s).1 = some [collective] ∧
    (gather 9 ⟨9, [⟨0, 0⟩]⟩ (List.finRange 4) { s with ops := [] }).1 = none ∧
    ([] : List RemoteRank).length = ((⟨9, [⟨0, 0⟩]⟩ : Group).members.filter (fun m => m.module != s.module)).length ∧
    ([] : List RemoteRank).length ≠ ((⟨9, [⟨1, 0⟩]⟩ : Group).members.filter (fun m => m.module != s.module)).length) ∧
    (∀ x ∈ [(true, carrierMax), (false, 0)], x.2 ≤ carrierMax) := by decide +kernel

/-! ## Witnesses: scheduling -/

/-- A launch of one workgroup to place on die 0, of one thread, or of 1,024 threads of 255 registers, which no core has room for. -/
def freshLaunch (size regs : Nat) (saved : List Saved) : Launch :=
  { savedLaunch with record := 2 ^ 128 + 2 ^ 160 + 2 ^ 192 + size * 2 ^ 224 + regs * 2 ^ 235 + 2 ^ 256, next := [0, 0, 0, 0], saved := saved, marks := [] }
def scheduleWorld (l : Launch) : State := { world (thr []) [wideB0] with launches := [l], queues := [areaQueue], pointers := [4, 0, 0, 0], issue := [] }
def core0 : CoreId := ⟨0, 0, 0⟩
theorem test_offer_hyps :
    ((chooseQueue (scheduleWorld (freshLaunch 1 1 [])) 0 = some (areaQueue, scheduleWorld (freshLaunch 1 1 []))) ∧
      currentLaunch (scheduleWorld (freshLaunch 1 1 [])) areaQueue 0 = some (freshLaunch 1 1 []) ∧ nextSaved (freshLaunch 1 1 []) 0 = none ∧
      coreRoom (scheduleWorld (freshLaunch 1 1 [])) core0 1 1 = true ∧ (scheduleWorld (freshLaunch 1 1 [])).launch? 0 = some (freshLaunch 1 1 [])) ∧
    ((chooseQueue (scheduleWorld (freshLaunch 1024 255 [])) 0 = some (areaQueue, scheduleWorld (freshLaunch 1024 255 []))) ∧
      currentLaunch (scheduleWorld (freshLaunch 1024 255 [])) areaQueue 0 = some (freshLaunch 1024 255 []) ∧
      (∀ c ∈ coresOf 0, coreRoom (scheduleWorld (freshLaunch 1024 255 [])) c 32 255 = false) ∧ 0 < (scheduleWorld (freshLaunch 1024 255 [])).held.length) ∧
    (∀ x ∈ (scheduleWorld (freshLaunch 1 1 [])).down, x.die ≠ core0.die) ∧ (∃ x ∈ [(⟨0, 0, [], false, none, false⟩ : DieDown)], x.die = core0.die) := by
  decide +kernel

/-- A saved workgroup whose image passes the checks. -/
theorem test_dispatch_restore : chooseQueue entryRead 0 = some (areaQueue, entryRead) ∧ currentLaunch entryRead areaQueue 0 = some savedLaunch ∧
    nextSaved savedLaunch 0 = some ⟨0, 0, 0, 0, 11520⟩ ∧ entryRead.context? savedLaunch.ctx.val = some cx0 ∧
    readSpan entryRead (.dispatcher 0) 0 .empty .latest (areaQueue.sabase.toNat + 0) 11520 = .ok ⟨imageList, [], entryRead, .empty⟩ ∧
    (coresOf 0).filter (imageFits entryRead (ofBytes (imageList.take 1024))) ≠ [] ∧
    ∃ k z, restoreImage entryRead cx0 imageList [core0] (.ofRels []) = .ok (k, z) := by
  refine ⟨by decide +kernel, by decide +kernel, by decide +kernel, by decide +kernel, ?_, by decide +kernel, restore_ok _ (by decide +kernel)⟩
  have ht : translate entryRead 0 (areaQueue.sabase.toNat + 0) = .ok (.here (sramLoc 0 16384) .sram, entryRead) := by
    rw [translate_sram 0 (by decide +kernel) (by decide +kernel) (by decide +kernel)]
    rfl
  have h := readSpan_clean (agent := .dispatcher 0) (v := .empty) (places_run ht (n := 11520) (by decide +kernel)) rfl (noCounts_of (by decide +kernel)) .latest (by
    rw [List.all_eq_true]
    intro p hp
    obtain ⟨i, _, rfl⟩ := List.mem_map.1 hp
    rfl)
  have e : (locsOf ((List.range 11520).map (fun i => Place.here (sramLoc 0 16384 + i) .sram))).map entryRead.peek = imageList := by
    rw [locsOf_run, List.map_map]
    exact image_bytes
  exact h.trans (congrArg (fun bs => Except.ok (SpanRead.mk bs [] entryRead .empty)) e)

/-- A saved workgroup whose image is no image. -/
def zeroSaved : Saved := ⟨0, 0, 0, 32768, 1024⟩
theorem test_dispatch_refused : (let s := scheduleWorld (freshLaunch 1 1 [zeroSaved])
    chooseQueue s 0 = some (areaQueue, s) ∧ currentLaunch s areaQueue 0 = some (freshLaunch 1 1 [zeroSaved]) ∧
    nextSaved (freshLaunch 1 1 [zeroSaved]) 0 = some zeroSaved ∧ s.context? 0 = some cx0 ∧
    okP (readSpan s (.dispatcher 0) 0 .empty .latest (areaQueue.sabase.toNat + 32768) 1024) (fun r =>
      !((coresOf 0).filter (imageFits r.s (ofBytes (r.bytes.take 1024)))).isEmpty &&
      errP (restoreImage r.s cx0 r.bytes [core0] (.ofRels r.rels)) (fun c => c == .descField)) = true) := by decide +kernel

/-- Ages before and at 2^20 ticks; a held workgroup of a queue without PRE, with it too early, and with it in time. -/
def heldWorld (pre : Bool) (now : Nat) : State :=
  { scheduleWorld (freshLaunch 1024 255 []) with queues := [{ areaQueue with pre := pre }], held := [some ⟨0, 0, 0⟩, none, none, none], now := now, ages := [⟨0, 3, 0, 0, true⟩] }
theorem test_age_hold_hyps :
    (∀ now ∈ [2 ^ 20 - 1, 2 ^ 20], (heldWorld true now).ages.find? (fun a => a.die == 0 && a.queue == 3) = some ⟨0, 3, 0, 0, true⟩ ∧
      ((heldWorld true now).tickOf 0 < 0 + 2 ^ 20 ↔ now = 2 ^ 20 - 1)) ∧
    (heldWorld true 0).ages.find? (fun a => a.die == 0 && a.queue == 4) = none ∧ heldOn (scheduleWorld (freshLaunch 1 1 [])) 0 = none ∧
    (∀ pre ∈ [true, false], ∀ now ∈ [2 ^ 16 - 1, 2 ^ 16], let s := heldWorld pre now
      (s.workgroups.map (·.uid)).Nodup ∧ (∀ g ∈ s.workgroups, g.uid < s.uids) ∧ heldOn s 0 = some ⟨0, 0, 0⟩ ∧
      s.launch? 0 = some (freshLaunch 1024 255 []) ∧ s.queueOf (freshLaunch 1024 255 []) = some { areaQueue with pre := pre } ∧
      eligible s 0 { areaQueue with pre := pre } = true) := by decide +kernel

/-! ## Witnesses: power, errors and resets -/

def tickWorld (stopped : Bool) (now : Nat) : State := { State.reset with stopAt := some 5, stopped := stopped, now := now }
theorem test_power_hyps :
    State.reset.stopAt = none ∧ (tickWorld true 5).stopped = true ∧ (tickWorld false 4).now < 5 ∧
    State.reset.power ≠ .off ∧ { State.reset with power := .off }.power = .off ∧ State.reset.stopped = false ∧
    State.reset.port? .ethernet 0 = some ⟨.ethernet, 0, 2, 0⟩ := by decide

/-- A corrected error whose count does not come to a multiple of 2^16, a register and a line, with the module running and not. -/
theorem test_error_hyps : State.reset.corrected = [] ∧ (0 + 1) % 2 ^ 16 ≠ 0 ∧ (s123.thread? 0 0).isSome = true ∧ State.reset.power ≠ .running ∧
    s123.power = .running ∧ memWf s123.mem = true := by decide +kernel

/-- A die with no reset, with one under way that waits for all its ports or for one, and one that is offline. -/
def downWorld (ports : List (Fin 13)) (offline : Bool) (now : Nat) : State :=
  { s123 with down := [⟨0, 0, ports, offline, some 7, true⟩], now := now }
theorem test_reset_hyps :
    ((∀ x ∈ s123.down, x.die = 0 → x.offline = true) ∧ (∃ g ∈ s123.workgroups, g.core.die = 0) ∧ (s123.launch? 0).isSome = true ∧
      s123.launch? 0 = some { placedLaunch with block := blockBits }) ∧
    ((downWorld [0, 3] false 0).down.find? (fun x => x.die == 0 && !x.offline)).isSome = true ∧
    (∀ x ∈ (downWorld [] true 0).down, x.die = 0 → x.offline = true) ∧
    ((downWorld [0, 3] false 0).down.find? (fun x => x.die == 0 && !x.offline && x.ports.contains 3) = some ⟨0, 0, [0, 3], false, some 7, true⟩) ∧
    (∃ q ∈ ([0, 3] : List (Fin 13)), q ≠ 3) ∧
    ((downWorld [3] false 0).down.find? (fun x => x.die == 0 && !x.offline && x.ports.contains 3) = some ⟨0, 0, [3], false, some 7, true⟩) ∧
    (∀ q ∈ ([3] : List (Fin 13)), q = 3) ∧ s123.down.find? (fun x => x.die == 0 && !x.offline && x.ports.contains 3) = none ∧
    (downWorld [3] false (2 ^ 24)).tickOf 0 ≤ 0 + 2 ^ 24 ∧ 0 + 2 ^ 24 < (downWorld [3] false (2 ^ 24 + 1)).tickOf 0 ∧ memWf s123.mem = true := by
  decide +kernel

/-! ## Witnesses: moves of pages -/

/-- A move of the page at 64 KiB of die 0 from far-tier frame 5 to frame 7 of die 0, whose leaf is still the one found, or is not. -/
def movedFrom : Nat := 2 + 1 * 2 ^ 4 + 5 * 2 ^ 16
def moveReq : MoveReq := ⟨65536, hbmLoc 0 (2 ^ 33), movedFrom, 0, 7, false, none, none⟩
def moveWorld (leaf : Nat) (down : List DieDown) : State :=
  { State.reset with mem := placeBytes [] (hbmLoc 0 (2 ^ 33)) (bytesOf leaf 8), moves := [moveReq], down := down }
theorem test_move_hyps :
    (∀ leaf ∈ [movedFrom, 0], let s := moveWorld leaf []
      noCountsB s = true ∧ memWf s.mem = true ∧ underMove s 65536 = some moveReq ∧ (s.peekNat moveReq.at' 8 = moveReq.leaf ↔ leaf = movedFrom)) ∧
    underMove (moveWorld 0 []) 131072 = none ∧ tpfFor (moveWorld 0 []) 131072 = none ∧
    (∃ x ∈ (moveWorld 0 [⟨0, 0, [], false, none, false⟩]).down, x.die.val = vaDie 65536) ∧
    leafLoc movedFrom 16 0 = lpddrLoc (5 * 65536) ∧ leafLoc (movedLeaf movedFrom 0 7) 16 0 = hbmLoc 0 (7 * 65536) ∧
    hbmLoc 0 (7 * 65536) + 65536 ≤ moveReq.at' ∧ moveReq.at' + 8 ≤ lpddrLoc (5 * 65536) := by decide +kernel
theorem test_window_hyps : 0 < State.reset.windowEnds.length ∧ State.reset.tickOf 0 < State.reset.windowEnds.getD 0 0 ∧
    State.reset.windowEnds.getD 0 0 ≤ { State.reset with now := 2 ^ 20 }.tickOf 0 ∧ noCountsB State.reset = true ∧
    demandTarget movedFrom 3 [(2, 3), (1, 2)] = some 2 ∧
    (let s : State := { State.reset with reencrypting := [(8, 1)] }
     (8, 1) ∈ s.reencrypting ∧ (8, 2) ∉ s.reencrypting ∧ waitersOf s .link = []) := by decide +kernel

/-! ## Witnesses: watching, events, the session -/

/-- A die whose trace and series blocks lie in HBM4E: SEXP and K are 10, the block is on when `on`, the ring has four frames of which
`tail` is the next to be read. -/
def watchWorld (on : Bool) (tail now : Nat) (w : Watch) : State :=
  { State.reset with mem := placeBytes [] (hbmLoc 0 4096) (bytesOf (bitOf on + 10 * 2 ^ 1 + 10 * 2 ^ 8 + 65536 * 2 ^ 64 + 4 * 2 ^ 128 + tail * 2 ^ 192) 32)
                     now := now, watches := [w] }
def idleWatch : Watch := ⟨0, some 4096, none, some 4096, none, 0, 0, 0⟩
def dueWatch (t : Nat) : Watch := { idleWatch with sample := some (10, t), latch := some (10, t) }
theorem test_watch_hyps :
    (∀ w ∈ [idleWatch, dueWatch 1024, dueWatch 1025], (watchWorld true 3 1024 w).watch? 0 = some w) ∧ idleWatch.sample = none ∧
    idleWatch.latch = none ∧ (watchWorld true 3 1024 (dueWatch 1025)).tickOf 0 < 1025 ∧ 1024 ≤ (watchWorld true 3 1024 (dueWatch 1024)).tickOf 0 ∧
    natField ((watchWorld true 3 1024 (dueWatch 1024)).peekNat (ownLoc 0 4096) 8) 8 5 = 10 ∧
    (∀ e ≠ 10, natField ((watchWorld true 3 1024 (dueWatch 1024)).peekNat (ownLoc 0 4096) 8) 8 5 ≠ e) ∧
    (∀ on ∈ [true, false], let head := (watchWorld on 3 1024 idleWatch).peekNat (ownLoc idleWatch.die 4096) 8
      head.testBit 0 = on ∧ natField head 1 5 = 10) ∧
    (∀ tail ∈ [1, 3], let s := watchWorld true tail 1024 (dueWatch 1024)
      s.peekNat (ownLoc 0 4096 + 20) 4 = 0 ∧ s.peekNat (ownLoc 0 4096 + 16) 4 = 4 ∧ (0 + 1 = s.peekNat (ownLoc 0 4096 + 24) 4 ↔ tail = 1) ∧
      memWf s.mem = true) := by
  refine ⟨by decide +kernel, rfl, rfl, by decide +kernel, by decide +kernel, by decide +kernel, ?_, by decide +kernel, by decide +kernel⟩
  intro e he h
  exact he (h.symm.trans (by decide +kernel))

def record (n : Nat) : EventRec := ⟨6 * 65536, n, 0, 0, 0, 5, 0, 0⟩
def eventWorld (now : Nat) : State :=
  { State.reset with power := .running, host := some 3, pending := [record 1], sent := [⟨9, [record 0], 0⟩], now := now }
theorem test_event_hyps :
    ((eventWorld 0).power = .running ∧ (eventWorld 0).host = some 3 ∧ (eventWorld 0).pending ≠ []) ∧ State.reset.power ≠ .running ∧
    (∀ m ∈ (eventWorld (2 ^ 24 - 1)).sent, m.tag = 9 → (eventWorld (2 ^ 24 - 1)).now < m.tick + 2 ^ 24) ∧
    (eventWorld (2 ^ 24)).destination = some 3 ∧
    (eventWorld (2 ^ 24)).sent.find? (fun m => m.tag == 9 && decide (m.tick + 2 ^ 24 ≤ (eventWorld (2 ^ 24)).now)) = some ⟨9, [record 0], 0⟩ ∧
    (eventWorld 0).host ≠ some 4 ∧ { eventWorld 0 with pending := [] }.pending = [] := by decide +kernel

/-! ## Witnesses: commands of the host -/

def idle : State := { s123 with workgroups := [], launches := [], issue := [], host := some 3 }
def ctxFields (mode : Fin 3) : CtxFields := ⟨mode, 0, 5, 0, 4⟩
def queueFields (q : Nat) (qlen : Nat) : QueueFields := ⟨q, 1, false, BitVec.ofNat 64 windowBase, qlen, 0, 0⟩
def taken : State := { idle with contexts := idle.contexts ++ [⟨1, 0, false, false, false, 0, 0⟩] }
theorem test_context_hyps :
    (idle.context? 0).isSome = true ∧ idle.context? 1 = none ∧ idle.contexts ≠ [] ∧ idle.mode ≠ (ctxFields 1).mode ∧ idle.mode = (ctxFields 0).mode ∧
    State.reset.contexts = [] ∧ contextBusy s123 0 = true ∧ contextBusy idle 0 = false ∧
    queuesPerDevice idle.mode = (queueFields 64 4).queue ∧ (queueFields 63 4).queue < queuesPerDevice idle.mode ∧
    (queueTaken taken 1 3 = true ∧ (taken.context? 1).isSome = true) ∧ queueTaken idle 0 3 = false ∧ idle.heldQueue 0 5 = none ∧
    someP (idle.heldQueue 0 3) (fun q => let f := queueFields 3 4
      q.qbase == f.qbase && q.qlen == f.qlen && q.sabase == f.sabase && q.salen == f.salen.toNat && q.qlen != (queueFields 3 5).qlen) = true ∧
    queueBusy idle 0 3 = false ∧ queueBusy (onQueue 1 idle) 0 3 = true := by decide +kernel

/-- A record at the start of b0 whose block stands 64 bytes on (Tables 17.1 and 17.2): JOIN, the grid, and bits of the block. -/
def goodRecord (join grid : Nat) : Nat :=
  join + 3 * 2 ^ 32 + 2 ^ 40 + (windowBase + 16448) * 2 ^ 64 + grid * 2 ^ 128 + 2 ^ 160 + 2 ^ 192 + 2 ^ 224 + 2 ^ 235 + 2 ^ 256
def submitWorld (join grid block k : Nat) : State :=
  onQueue k { idle with mem := (world (thr []) [(16384, 64, goodRecord join grid), (16448, 512, block)]).mem }
def recordVa : Nat := windowBase + 16384
/-- What SUBMIT's first read and the acceptance of the record answer. -/
def submitB (s : State) (join : Bool) (q : Except Code (Launch × State) → Bool) : Bool :=
  pathKnown s recordVa && someP (s.context? 0) (fun cx => okP (readSpan s .host 0 s.hostView .latest recordVa 4) (fun r =>
    (ofBytes r.bytes != 0) == join && (join || q (acceptRecord { r.s with hostView := r.v } cx recordVa [hostRel { r.s with hostView := r.v }]))))
theorem test_submit_hyps_1 : submitB (submitWorld 1 1 0 0) true (fun _ => true) = true := by decide +kernel
theorem test_submit_hyps_2 : submitB (submitWorld 0 1 (2 ^ 101) 0) false (fun a => errP a (fun _ => true)) = true := by decide +kernel
theorem test_submit_hyps_3 : submitB (submitWorld 0 1 0 0) false (fun a => okP a (fun x => recCount x.1.record == 1 && takeLeases x.2 cx0 x.1.block)) = true := by decide +kernel
theorem test_submit_hyps_4 : submitB (submitWorld 0 0 0 0) false (fun a => okP a (fun x => recCount x.1.record == 0)) = true := by decide +kernel
theorem test_submit_hyps_5 : hasRoom (submitWorld 0 1 0 0) 0 3 = true ∧ hasRoom (submitWorld 0 1 0 4) 0 3 = false ∧ (submitWorld 0 1 0 0).context? 0 = some cx0 := by decide +kernel

theorem test_abort_hyps :
    (s123.launches.find? (fun l => l.ctx == 0 && l.addr == 0 && l.joined.isNone) = s123.launch? 0) ∧ (s123.launch? 0).isSome = true ∧
    s123.launches.find? (fun l => l.ctx == 0 && l.addr == 64 && l.joined.isNone) = none := by decide +kernel

/-- RESTORE: an entry past the table's end, an entry that holds no image, and the image. -/
theorem host_entry : entryAt entryRead cx0 1 = .ok (boundB0, entryRead) := by decide +kernel
theorem host_peers : checkPeers entryRead boundB0 = .ok () := by decide +kernel
theorem host_target : ((coresOf (imageDie entryRead cx0 imageList)).find? (imageFits entryRead (ofBytes (imageList.take 1024)))).isSome = true := by decide +kernel
theorem host_image : imageAt entryRead .host cx0.id.val entryRead.hostView boundB0 ((0 / 8 : Nat) : Int) = .ok (imageList, entryRead, entryRead.hostView) := by
  rw [← image_bytes]
  exact imageAt_clean (translate_sram 0 (by decide +kernel) (by decide +kernel) (by decide +kernel)) rfl (noCounts_of (by decide +kernel)) rfl (by decide +kernel) (by decide) rfl
    (by decide +kernel) (by decide +kernel) (by decide +kernel) image_length
theorem hostRestore_of {s z : State} {cx : Context} {tidx ofs : Nat} {d : Bound} {bs : List Byte} (he : entryAt s cx tidx = .ok (d, z))
    (hh : Machine.imageHeader d ((ofs / 8 : Nat) : Int) = .ok ()) (hp : checkPeers z d = .ok ()) (hi : imageAt z .host cx.id.val z.hostView d ((ofs / 8 : Nat) : Int) = .ok (bs, z, z.hostView)) :
    hostRestore s cx tidx ofs = restoreImage z cx bs (coresOf (imageDie z cx bs)) z.hostView := by
  simp only [hostRestore, he, hh, hp, hi]
theorem host_no_image : errP (hostRestore sPriv cx0 1 0) (fun c => c == .descField) = true := by decide +kernel
theorem test_host_restore : cx0.btlen ≤ (4 : BitVec 16).toNat ∧ (1 : BitVec 16).toNat < cx0.btlen ∧
    errP (hostRestore sPriv cx0 1 0) (fun c => c == .descField) = true ∧ ∃ k z, hostRestore entryRead cx0 1 0 = .ok (k, z) := by
  obtain ⟨k, z, hr⟩ := restore_ok (cores := coresOf (imageDie entryRead cx0 imageList)) entryRead.hostView host_target
  exact ⟨by decide, by decide, host_no_image, k, z, (hostRestore_of host_entry (by decide +kernel) host_peers host_image).trans hr⟩

/-- MEM_WRITE and MEM_READ: an address of another module, one that no page maps, and bytes of die SRAM. -/
theorem test_host_memory_hyps : pathKnown idle (2 ^ 53) = false ∧ pathKnown idle 0 = true ∧ pathKnown idle recordVa = true ∧
    errP (places idle 64 0 8) (fun _ => true) = true ∧
    okP (places idle 64 recordVa 8) (fun x => hereB x.1 && decide ((locsOf x.1).Nodup)) = true ∧ noCountsB idle = true ∧ memWf idle.mem = true ∧
    idle.hostView.uo = [] ∧ idle.hist = [] ∧ idle.stopped = false ∧ { idle with stopped := true }.stopped = true := by decide +kernel

/-! ## Witnesses: links, peers and bring-up -/

theorem test_peer_hyps : (([⟨2, 0, true, 3⟩, ⟨5, 1, false, 8⟩] : List PeerEntry).map (·.module)).Nodup ∧
    groupRefused idle 9 [⟨0, 0⟩] = false ∧ groupRefused { idle with groups := [⟨9, [⟨0, 0⟩]⟩] } 9 [⟨0, 0⟩] = true ∧
    groupPending idle 9 = false ∧ groupPending { idle with ops := [collective] } 9 = true := by decide +kernel

/-- Ports that are up, down, training, and held down by a stop. -/
theorem test_port_hyps :
    idle.port? .ualink 3 = some ⟨.ualink, 3, 0, 0⟩ ∧ idle.port? .ethernet 0 = some ⟨.ethernet, 0, 2, 0⟩ ∧ portHeld idle .ualink 3 = false ∧
    portHeld { idle with stopped := true } .ualink 3 = true ∧ waitersOf idle .link = [] := by decide +kernel

/-- A peer's request of 1 and of 256 bytes at the start of b0, one of a page that no leaf maps, and an atomic on a word of b0. -/
def peerWorld : State := { idle with ports := replaceFirst (fun p => p.kind == .ualink && p.num == 3) ⟨.ualink, 3, 2, 5⟩ idle.ports }
def homeAdd : HomeRequest := ⟨5, 1, .add, BitVec.ofNat 64 recordVa, 0, fixedSlot 0, 1, 0, .system, .acqrel⟩
theorem test_request_hyps : peerWorld.port? .ualink 3 = some ⟨.ualink, 3, 2, 5⟩ ∧ vaModule recordVa = peerWorld.module.toNat ∧ peerWorld.down = [] ∧
    errP (places peerWorld 64 0 1) (fun _ => true) = true ∧
    (∀ n ∈ [1, 256], okP (places peerWorld 64 recordVa n) (fun x => hereB x.1 && decide ((locsOf x.1).Nodup) && (blocked x.2 true x.1).isNone) = true) ∧
    Quiet peerWorld ∧ NoFrameTwice peerWorld (homeTarget homeAdd).bd.ctx ∧
    (let t := homeTarget homeAdd
     vaModule homeAdd.addr.toNat = peerWorld.module.toNat ∧ oneWord t.d t.lo t.f.w = true ∧ 2 ≤ t.f.w ∧ t.f.w ≤ 64 ∧
     okP (targetPlaces peerWorld t 1) (fun x => hereB x.1 && !(anyUo x.1) && (blocked x.2 true x.1).isNone) = true) :=
  ⟨by decide +kernel, by decide +kernel, rfl, by decide +kernel, by decide +kernel, quiet_of (by decide +kernel), noFrameTwice_of (by decide +kernel) _,
    by decide +kernel⟩

/-- An image being staged, closed, and whose bytes end at its size or pass it; one that is malformed whatever its signatures, and one
whose mask rests on its signatures and SVN alone. -/
def stagingWorld (opened : Bool) : State := { State.reset with staging := [⟨0, 16, [], opened⟩] }
theorem test_bring_up_hyps : State.reset.staging = [] ∧ (stagingWorld true).staging = [⟨0, 16, [], true⟩] ∧ 16 < 9 + ([0, 1, 2, 3, 4, 5, 6, 7] : List Byte).length ∧
    8 + ([0, 1, 2, 3, 4, 5, 6, 7] : List Byte).length ≤ 16 ∧
    (stagingWorld true).staging.find? (fun x => x.kind == 0 && x.opened) = some ⟨0, 16, [], true⟩ ∧
    (stagingWorld false).staging.find? (fun x => x.kind == 0 && x.opened) = none ∧
    isVerified State.reset 0 = false ∧ isVerified { State.reset with verified := [⟨0, [], 0⟩, ⟨1, [], 0⟩] } 0 = true ∧
    isVerified { State.reset with verified := [⟨0, [], 0⟩, ⟨1, [], 0⟩] } 1 = true ∧ (List.replicate 64 (0 : Byte)).length = 64 := by decide +kernel
theorem test_firmware_malformed (v : BitVec 32) : firmMask (stagedBytes ⟨0, 16, [], true⟩) v ≠ 0 := by
  have h : (!(firmLegal (firmHeader (stagedBytes ⟨0, 16, [], true⟩))) ||
      (stagedBytes ⟨0, 16, [], true⟩).length != 64 + firmLength (firmHeader (stagedBytes ⟨0, 16, [], true⟩)) + 3373) = true := by decide +kernel
  simp only [firmMask, h, bitOf]
  simp
/-- A header of a body of one byte (Table 22.2). -/
def firmHeaderBits : Nat := 0x4D524946 + 2 ^ 32 + 2 ^ 64 + 7 * 2 ^ 128
theorem test_firmware_legal : firmLegal firmHeaderBits = true ∧ ∀ bs, firmHeader bs = firmHeaderBits → bs.length = 3438 →
    Config.verify 0 (firmDigest bs) ((bs.drop 65).take 64) = true → Config.verify 1 (firmDigest bs) ((bs.drop 129).take 3309) = true →
    firmMask bs 7 = 0 ∧ firmMask bs 8 ≠ 0 := by
  refine ⟨by decide +kernel, fun bs hh hl h0 h1 => ?_⟩
  have e1 : firmLength firmHeaderBits = 1 := by decide +kernel
  have e2 : firmSvn firmHeaderBits = 7 := by decide +kernel
  have e3 : firmLegal firmHeaderBits = true := by decide +kernel
  simp [firmMask, hh, e1, e2, e3, h0, h1, hl, bitOf]

/-! ## Witnesses: cases that are left -/

/-- StepRunsDecodedInstruction: the fetch of a gang and of a context, which waits while its die is under reset and else does not. -/
theorem test_step_fetch_hyps : ∀ down ∈ [[], [(⟨0, 0, [], false, none, false⟩ : DieDown)]],
    (let s := { State.reset.withFetchWord 64 0x0247010203FF0000 with down := down }
     fetchWaits s (binderOf s placedWg (freshThread 0 255 0)) 0 = !down.isEmpty) ∧
    (let s := { State.reset.withFetchWord 64 0xB80703FF00000000 with down := down }
     fetchWaits s (binderOfPontil s placedPontil) 0 = !down.isEmpty) := by decide +kernel

theorem now_passClock (s : State) : s.now ≤ (passClock s).now := by
  simp only [passClock, upTo]
  repeat' split
  all_goals exact Nat.le_max_left ..

/-- StepRunsDecodedInstruction: a stop whose tick has ended; a command that waits and may now be performed. -/
theorem test_step_turn_hyps :
    (let s : State := { State.reset with stopAt := some 0, now := 1, watches := [] }
     s.issue = [] ∧ dueEvent (passTime s) = some .stopAtTick) ∧
    (let bytes := bytesOf (0x49524F51 + 1 * 2 ^ 32 + 0x40 * 2 ^ 40 + 5 * 2 ^ 64) 32
     let s : State := { State.reset with arrived := [⟨3, bytes, false⟩] }
     s.issue = [] ∧ dueEvent (passTime s) = none ∧
     ∃ t, arrivedReady (passTime s) = some (t, .hello 5 3) ∧ commonOf? (.hello 5 3) = none ∧ t.awake (.hello 5 3) = true) ∧
    (let s : State := { State.reset with agenda := [.event .stopAtTick] }
     dueEvent (passTime s) = none ∧ arrivedReady (passTime s) = none) := by
  refine ⟨⟨rfl, ?_⟩, ⟨rfl, rfl, _, rfl, rfl, rfl⟩, rfl, rfl⟩
  have h : 1 ≤ (passTime { State.reset with stopAt := some 0, now := 1, watches := [] }).now :=
    now_passClock { State.reset with stopAt := some 0, now := 1, watches := [] }
  have e : dueEvent (passTime { State.reset with stopAt := some 0, now := 1, watches := [] }) =
    if decide (0 < (passTime { State.reset with stopAt := some 0, now := 1, watches := [] }).now) then some .stopAtTick else none := rfl
  rw [e, if_pos (decide_eq_true (Nat.lt_of_lt_of_le Nat.zero_lt_one h))]

/-- RegisterInstructionsFrame: no record of a code where no trace is kept. -/
theorem test_trace_off : traceOn s123 0 0 4 = none ∧ LocalOnly (.iadd c0 1 2 3 sm) := ⟨by decide +kernel, trivial⟩

/-- Transcendentals: an argument of each row of Table 7.11 that is special, in bfloat16; one with an exact result and one without; and one
whose result the bound speaks of. -/
def bf : Word := fmts12.getD 0 0
def exact2 : Nat × Flags := Elementary.element .exp2 bf .rne (.num false 3 1 0)
def inexact2 : Nat × Flags := Elementary.element .exp2 bf .rup (.num false 3 1 (-1))
theorem test_transcendental_hyps :
    fdefLegal bf = true ∧ (fdefOf bf).kind = 0 ∧ (fdefOf bf).sub ≤ 1 ∧ (fdefOf bf).mw ≤ 10 ∧
    (decodeFloat (fdefOf bf) false 0x4100 = .num false 128 1 (-4) ∧ (0x4100 : Nat) < 2 ^ (fdefOf bf).w) ∧ exact2 = (0x4100, 0) ∧
    inexact2.2 &&& (fInvalid ||| fOverflow ||| fUnderflow) = 0 ∧
    (Elementary.enclosed .exp2 (fdefOf bf) .rup false 3 (-1)).1.lo ≠ 0 := by decide +kernel
theorem test_transcendental_values :
    valueOf (.num false 3 1 0) = some 3 ∧ valueOf (.num false 128 1 (-4)) = some (2 ^ (3 : ℤ)) ∧ valueOf (.num false 3 1 (-1)) = some (3 / 2) ∧
    ¬ ∃ k : ℤ, (3 / 2 : ℚ) = k := by
  refine ⟨by norm_num [valueOf], by norm_num [valueOf], by norm_num [valueOf], ?_⟩
  rintro ⟨k, hk⟩
  have : (3 : ℚ) = 2 * k := by linarith
  norm_cast at this
  omega

/-- FormatChoicesAndConversions: operands of each kind with denominators that are not 0; a pattern of each class of bfloat16. -/
theorem test_choice_hyps : (∀ s n d e, (Val.num true 3 1 0 = .num s n d e ∨ Val.inf false = .num s n d e) → 0 < d) ∧
    (Val.nan true).isNan = true ∧ (Val.inf false).isNan = false ∧ (0 : Nat) < 3 := by
  refine ⟨fun s n d e h => ?_, rfl, rfl, by decide⟩
  rcases h with h | h
  · injection h with _ _ h; omega
  · cases h
theorem test_class_hyps : (let f := fdefOf bf
    fdefLegal bf = true ∧ f.kind = 0 ∧ f.s = 1 ∧ (∀ p ∈ [0x7F81, 0x7FC0, 0xFF80, 0x7F80, 0x8000, 0, 0x8001, 1, 0xC000, 0x3F80], p < 2 ^ f.w) ∧
    [0x7F81, 0x7FC0, 0xFF80, 0x7F80].map (decodeFloat f false) = [.nan false, .nan true, .inf true, .inf false] ∧
    [0x8000, 0, 0x8001, 0xC000, 0x3F80].all (fun p => match decodeFloat f false p with
      | .num .. => true
      | _ => false) = true ∧ [0x7FC0, 0x7F80, 0, 0x3F80].map (decodeElem f) = [.nan true, .inf false, .num false 0 1 0, .num false 128 1 (-7)]) := by
  decide +kernel

/-- Blocks: the twin-scale slot of Table 4.4, and binary64 patterns of a NaN, of an infinity and of 1. -/
theorem test_twin_hyps : fdefLegal 0x580600FE04800000 = true ∧ (fdefOf 0x580600FE04800000).kind = 5 ∧ (decodeElem f2def 0x7FF8000000000000).isNan = true ∧
    decodeElem f2def 0x7FF0000000000000 = .inf false ∧ decodeElem f2def 0x3FF0000000000000 = .num false (2 ^ 52) 1 (-52) ∧
    (natField (254 + 255 * 256) 0 8 ≠ 255 ∧ natField (254 + 255 * 256) 8 8 = 255) ∧ (natField 0x7E7F 0 8 ≠ 255 ∧ natField 0x7E7F 8 8 ≠ 255) := by decide +kernel
/-- Products: terms of which one is not zero, and none; a row of smrs with a maximum, and one with a NaN. -/
theorem test_cell_hyps : (∃ t ∈ [(1 : ℚ)] ++ [0], t ≠ 0 ∧ Int.log 2 |t| = 0) ∧ (∀ t ∈ [(1 : ℚ)] ++ [0], t ≠ 0 → Int.log 2 |t| ≤ 0) ∧
    valueOf (valInt 1 0) = some 1 ∧ (∃ s n d e, valInt 1 0 = .num s n d e ∧ 0 < d) ∧ (valZero true).sign = true ∧ (.nan true : Val).isNan = true :=
  ⟨⟨1, by simp, by simp, by simp⟩, by simp, by simp [valueOf, valInt], ⟨_, _, _, _, rfl, by decide⟩, rfl, rfl⟩
theorem test_row_hyps : fdefLegal (fixedSlot 2) = true ∧ (fdefOf (fixedSlot 2)).kind = 0 ∧ (List.replicate 64 (0 : Nat)).length = 64 ∧
    f2val 0xFFF0000000000000 = .inf true ∧ (f2val 0x7FF8000000000000).isNan = true ∧
    decodeElem f2def (encodeElem f2def (exactMul (valInt 1 0) (decodeElem f2def ((List.replicate 64 0).getD 0 0))).1 .rne 0 false).1 = .num false 0 1 0 := by decide +kernel
theorem test_place_hyps : sMem.launch? 0 = some { placedLaunch with block := blockBits } ∧ sMem.context? 0 ≠ none ∧
    (wgWith tMem).launch = 0 ∧ (wgWith tMem).core.die.val = [4, 2, 1].getD sMem.mode.val 0 * 0 + 0 := by decide +kernel

/-- Blocks: a block scaled by 255 and one that is not; a NaN into E2M1, which has none; a block of zeros; one whose largest element is 1. -/
def e2m1 : FDef := mxDef 5
theorem test_alias_hyps :
    natField 255 0 8 = 255 ∧ natField 127 0 8 ≠ 255 ∧ (mxElem e2m1 255 0).isNan = true ∧ (mxElem e2m1 127 0).isNan = false ∧
    (e2m1.nan = 0 ∧ (0 : Nat) < 32 ∧ (decodeElem bf16 0x7FC0).isNan = true) ∧ (mxDef 2).nan ≠ 0 ∧
    (∀ n, n < 32 → (if n = 3 then decodeElem bf16 0 else mxElem e2m1 127 n) = valZero false) ∧
    (∀ n, n < 32 → (if n = 3 then decodeElem bf16 0x3F80 else mxElem e2m1 127 n) = if n = 3 then .num false 128 1 (-7) else valZero false) := by
  decide +kernel
theorem test_alias_values : valueOf (valZero false) = some 0 ∧ valueOf (.num false 128 1 (-7)) = some 1 := by norm_num [valueOf, valZero]

/-- ViewMasks: the codes of the contexts of the cluster. -/
theorem test_status_hyps : (∀ q ∈ ([placedPontil] : List Pontil), q.code < 2 ^ 16) ∧ (s123.context? m123.wg.ctx).isSome = true := by decide +kernel

/-! ## Witnesses: pages, aliases and the codes of accesses -/

/-- v0 counts elements past a block, v1 is 0, v2 is 3. Binding 0 is 128 bytes of an alias of MX E4M3, binding 1 is 256 bytes, both of HBM4E
behind one leaf of kind `kind`; the first block has scale 127 and a 1 as its first element. Entry 1 has the owner `owner`. -/
def tPage : Thread := thr [32, 0, 3, 0x3F80]
def mPage : Member := mem0 tPage
def aliasEntry (owner : Nat) : Nat := entryBits 0 128 7 - windowBase + 2 ^ 144 * owner + 2 ^ 152
def pageWorld (kind owner : Nat) : State :=
  let s := world tPage [(4096 + 64, 64, aliasEntry owner), (4096 + 128, 64, entryBits 65536 256 7 - windowBase)]
  { s with roots := [2 ^ 33, 0, 0, 0, 0, 0]
           mem := placeBytes (placeBytes s.mem (hbmLoc 0 0) (bytesOf (127 + 0x38 * 2 ^ 8) 8)) (hbmLoc 0 (2 ^ 33)) (bytesOf (2 + kind * 4) 8) }
def on1 (r : VReg) : MemOp := { at0 r with bind := 1 }
def onAlias (r : VReg) : MemOp := { at0 r with slot := 4 }
def nearB (ls : List Nat) : Bool := ls.all (fun l => decide (l < 2 ^ 30 ∨ (4 * 2 ^ 52 ≤ l ∧ l < 8 * 2 ^ 52)))

/-- Loads, Stores and Atomics: an alias element, and elements on pages of each kind. -/
theorem test_page_world : (∀ kind ∈ [0, 1, 2], oneLeaf (pageWorld kind 0).popped (2 + kind * 4) = true ∧ oneLeaf (pageWorld kind 0) (2 + kind * 4) = true) ∧
    (∀ kind ctx, kind ∈ [0, 1, 2] → NoFrameTwice (pageWorld kind 0).popped ctx) ∧
    (∀ kind ls, kind ∈ [0, 1, 2] → nearB ls = true → TablesApart (pageWorld kind 0) ls) ∧
    (∀ kind ls, kind ∈ [0, 1, 2] → TlbFresh (pageWorld kind 0) ∧ NoMigrationControl (pageWorld kind 0) ∧ Untouched (pageWorld kind 0) ls) := by
  have h : ∀ kind ∈ [0, 1, 2], oneLeaf (pageWorld kind 0).popped (2 + kind * 4) = true ∧ oneLeaf (pageWorld kind 0) (2 + kind * 4) = true := by
    decide +kernel
  refine ⟨h, fun kind ctx hk => noFrameTwice_leaf (h kind hk).1 ctx, fun kind ls hk hl => tablesApart_leaf (h kind hk).2 hl, fun kind ls _ =>
    ⟨tlbFresh_of rfl, noCounts_of rfl, untouched_of rfl ls⟩⟩
theorem test_page_hyps : (∀ kind ∈ [0, 1, 2], performsAll (pageWorld kind 0) mPage [.ld c0 3 (on1 1), .st c0 3 (on1 1), .ld c0 3 (onAlias 0), .st c0 3 (onAlias 0),
      .atomAdd c0 3 (onAlias 0)] = true ∧
      reachesB (pageWorld kind 0) mPage (on1 1) (fun _ => 1) { r := true } false (fun _ _ => true) = true ∧
      reachesB (pageWorld kind 0) mPage (on1 1) (fun _ => 1) { w := true } true (fun t ps => t.d.mxk == 0 && nearB (locsOf ps)) = true ∧
      reachesB (pageWorld kind 0) mPage (onAlias 0) (fun _ => 1) { r := true } false (fun t _ => t.d.mxk == 1) = true ∧
      reachesB (pageWorld kind 0) mPage (onAlias 0) (fun _ => 1) { w := true } true (fun t ps => t.d.mxk == 1 && nearB (locsOf ps)) = true) ∧
    reachesB (pageWorld 0 0) mPage (onAlias 0) (fun _ => 1) { a := true } true (fun t ps => t.d.mxk == 1 && oneWord t.d t.lo t.f.w && !(anyUo ps)) = true := by
  decide +kernel

/-- An access of a world, and what its checks answer: of its entry, of what is granted, of the bit at which it begins, and of its places. -/
def checksB (s : State) (m : Member) (i : Instr) (o : MemOp) (q : Bound → Bound → Nat → State → Bool) : Bool :=
  performsAll s m [i] && okP (slotOf m.wg.fmts o.slot kinds04) (fun f => okP (entryOf s.popped (binderOf s.popped m.wg m.t) o.bind.val) (fun x =>
    okP (grantedBy (binderOf s.popped m.wg m.t) o.bind.val x.1) (fun g =>
      q x.1 g (elemIndex (m.t.readV o.ofsReg) o.ofs * f.w).toNat x.2)))
/-- The first two bytes of entry 2, in this module or in module 1, in the window or not. -/
def entryWorld (base len rights : Nat) : State := { pageWorld 2 0 with mem := placeBytes (pageWorld 2 0).mem (sramLoc 0 (4096 + 128)) (bytesOf (base + len * 2 ^ 64 + rights * 2 ^ 128 + 2 ^ 132) 64) }
def peered (s : State) : State := { s with peers := [⟨1, 0, false, 8⟩] }
theorem test_code_hyps_slot : slotOf mPage.wg.fmts 9 kinds04 = .error .slotKind ∧
    performsAll (pageWorld 0 0) mPage [.ld c0 3 { at0 0 with slot := 9 }, .ld c0 3 { at0 0 with bind := 5 }, .ld c0 3 (at0 0), .atomAdd c0 3 (at0 0)] = true ∧
    errP (entryOf (pageWorld 0 0).popped (binderOf (pageWorld 0 0).popped mPage.wg tPage) 5) (fun c => c == .bindEmpty) = true ∧
    okP (slotOf mPage.wg.fmts 0 kinds04) (fun f => !(isBf16 f)) = true ∧ okP (slotOf mPage.wg.fmts 4 kinds04) isBf16 = true ∧
    okP (entryOf (pageWorld 0 1).popped (binderOf (pageWorld 0 1).popped mPage.wg tPage) 0) (fun x => x.1.mxk == 1 && x.1.owner == 1) = true := by decide +kernel
theorem test_code_hyps_path :
    checksB (entryWorld (2 ^ 53) 256 7) mPage (.ld c0 3 (on1 1)) (on1 1) (fun b g lo _ => b.mxk == 0 && b.owner == 0 && g.grants { r := true } &&
      !(pathKnown (entryWorld (2 ^ 53) 256 7) g.base) && decide (lo + 64 ≤ 8 * g.len)) = true ∧
    checksB (peered (entryWorld (2 ^ 53) 256 7)) mPage (.atomAdd c0 3 { on1 1 with scope := .device }) { on1 1 with scope := .device } (fun b g lo _ =>
      g.grants { a := true } && b.mxk == 0 && decide (lo / 64 = (lo + 64 - 1) / 64) && vaModule g.base == 1 &&
      (peered (entryWorld (2 ^ 53) 256 7)).peer? 1 == some ⟨1, 0, false, 8⟩) = true := by decide +kernel
theorem test_code_hyps_granule :
    checksB (entryWorld 65536 256 7) mPage (.ldfe c0 3 (on1 1)) (on1 1) (fun _ g lo _ => g.grants { r := true } && !(inWindow (g.span lo 64).1)) = true ∧
    checksB (entryWorld (windowBase + 16384 + 12) 256 7) mPage (.stfe c0 3 (on1 1)) (on1 1) (fun _ g lo _ => g.grants { w := true } &&
      inWindow (g.span lo 64).1 && decide (16 < (g.span lo 64).1 % 16 + (g.span lo 64).2)) = true := by decide +kernel
theorem test_code_hyps_places :
    checksB (pageWorld 2 0) mPage (.atomAdd c0 3 (on1 1)) (on1 1) (fun _ g lo z => g.grants { a := true } && !(pathWaits (pageWorld 2 0) g) &&
      okP (targetPlaces z ⟨binderOf (pageWorld 2 0).popped mPage.wg tPage, g, lo, f0def⟩ 1) (fun y => anyUo y.1)) = true ∧
    checksB (pageWorld 2 0) mPage (.ld c0 3 { on1 1 with order := .acquire, scope := .device }) { on1 1 with order := .acquire, scope := .device } (fun _ g lo z =>
      okP (targetPlaces z ⟨binderOf (pageWorld 2 0).popped mPage.wg tPage, g, lo, f0def⟩ 1) (fun y => anyUo y.1)) = true ∧
    checksB (entryWorld (2 ^ 40) 256 7) mPage (.ld c0 3 (on1 1)) (on1 1) (fun _ g lo z =>
      errP (targetPlaces z ⟨binderOf (entryWorld (2 ^ 40) 256 7).popped mPage.wg tPage, g, lo, f0def⟩ 1) (fun c => c == .leaseLost)) = true ∧
    (let s := { pageWorld 0 0 with poison := [1024] }
     checksB s mPage (.ld c0 3 (on1 1)) (on1 1) (fun _ g lo z =>
      okP (targetPlaces z ⟨binderOf s.popped mPage.wg tPage, g, lo, f0def⟩ 1) (fun y => anyPoison y.2 y.1 && !(anyUo y.1)))) = true := by decide +kernel

/-- An element of ten bits that two words hold. -/
def mTen : Member := ⟨{ wgWith tPage with fmts := 652460087616471040 :: fmts12.tail }, tPage, [0]⟩
def inTwo : MemOp := { on1 2 with slot := 4, ofs := 3 }
theorem test_code_hyps_word : checksB { pageWorld 0 0 with workgroups := [mTen.wg] } mTen (.atomAdd c0 3 inTwo) inTwo (fun b g lo _ =>
    b.mxk == 0 && g.grants { a := true } && decide (lo / 64 ≠ (lo + 9) / 64)) = true := by decide +kernel

/-- AccessChecks of objects and records: through an alias, of another owner, out of bounds, without the right, of no known module,
misaligned by a word, and on a UO page. -/
def objectChecksB (s : State) (i : Instr) (o : MemOp) (q : Bound → Int → State → Bool) : Bool :=
  performsAll s mPage [i] && okP (entryOf s.popped (binderOf s.popped mPage.wg tPage) o.bind.val) (fun x =>
    q x.1 (elemIndex (tPage.readV o.ofsReg) o.ofs) x.2)
def wordAt (k : BitVec 14) : MemOp := { on1 1 with ofs := k, scope := .device }
theorem test_object_codes :
    objectChecksB (pageWorld 0 0) (.barr c0 3 (at0 1)) (at0 1) (fun b _ _ => b.mxk == 1) = true ∧
    objectChecksB { pageWorld 0 0 with mem := placeBytes (pageWorld 0 0).mem (sramLoc 0 (4096 + 128)) (bytesOf (65536 + 256 * 2 ^ 64 + 7 * 2 ^ 128 + 2 ^ 132 + 2 ^ 144) 64) }
      (.rdv c0 3 (wordAt 0)) (wordAt 0) (fun b _ _ => b.mxk == 0 && b.owner == 1) = true ∧
    objectChecksB (pageWorld 0 0) (.cpy c0 (wordAt 25)) (wordAt 25) (fun b e _ => b.owner == 0 && decide (8 * b.len < (e + 8) * 64)) = true ∧
    objectChecksB (entryWorld 65536 256 2) (.spawn c0 3 (wordAt 0)) (wordAt 0) (fun b e _ => decide (0 ≤ e ∧ e * 64 + 512 ≤ 8 * b.len) && !(b.grants rwa)) = true ∧
    objectChecksB (entryWorld (2 ^ 53) 256 7) (.joinRec c0 3 (wordAt 0)) (wordAt 0) (fun b _ _ => !(pathKnown (entryWorld (2 ^ 53) 256 7) b.base)) = true ∧
    objectChecksB (pageWorld 0 0) (.bwait c0 3 (wordAt 1)) (wordAt 1) (fun b e _ => b.grants { a := true } && decide ((b.base + 8 * e.toNat) % 16 = 8)) = true ∧
    objectChecksB (pageWorld 0 0) (.fork c0 3 (wordAt 2)) (wordAt 2) (fun b e _ => b.grants { r := true } && decide ((b.base + 8 * e.toNat) % 64 = 16)) = true ∧
    objectChecksB (pageWorld 2 0) (.binit c0 3 (wordAt 0)) (wordAt 0) (fun b e z => pathKnown (pageWorld 2 0) b.base &&
      decide ((b.base + 8 * e.toNat) % 16 = 0) && okP (places z 0 (b.base + 8 * e.toNat) 16) (fun y => anyUo y.1)) = true := by decide +kernel

/-- AccessChecks of boards: no board; on a UO page; of other slots than its header says; a slot past its end; and a board that is the
code, which b62 gives no right a. -/
def boardEntry (slots : Nat) : Nat := entryBits 65536 (16 + 16 * slots) 5 - windowBase + 2 ^ 133 + slots * 2 ^ 134
def boardWorld (kind slots : Nat) (entry : Nat) : State :=
  let s := pageWorld kind 0
  { s with mem := placeBytes (placeBytes s.mem (hbmLoc 0 65536) (bytesOf (4 * 2 ^ 32) 8)) (sramLoc 0 (4096 + 64 * entry)) (bytesOf (boardEntry slots) 64) }
def boardChecksB (s : State) (i : Instr) (bind : Nat) (q : Bound → List Place → Bool) : Bool :=
  performsAll s mPage [i] && okP (bindingEntry s.popped (binderOf s.popped mPage.wg tPage) bind) (fun x => pathKnown s x.1.base &&
    okP (places x.2 0 x.1.base (16 + 16 * x.1.slots)) (fun y => hereB y.1 && q x.1 y.1))
def fitsB (s : State) (g : Bound) (ps : List Place) : Bool := !(anyUo ps) && natField (objectNow s (ps.take 8)) 32 9 == g.slots
theorem test_board_codes :
    boardChecksB (pageWorld 0 0) (.nbget c0 3 (wordAt 0)) 1 (fun g _ => !(g.board)) = true ∧
    boardChecksB (boardWorld 2 4 2) (.nbpost c0 1 3 (wordAt 0)) 1 (fun g ps => g.board && !(inWindow g.base) && anyUo ps) = true ∧
    boardChecksB (boardWorld 0 8 2) (.nbinit c0 1 .cluster) 1 (fun g ps => g.board && !(fitsB (boardWorld 0 8 2) g ps)) = true ∧
    boardChecksB (boardWorld 0 4 2) (.nbget c0 3 (wordAt 4)) 1 (fun g ps => fitsB (boardWorld 0 4 2) g ps && g.slots == 4) = true ∧
    boardChecksB (boardWorld 0 4 0) (.nbget c0 3 { wordAt 3 with bind := 62 }) 62 (fun g ps => g.board && fitsB (boardWorld 0 4 0) g ps && !(g.a)) = true := by
  decide +kernel

/-! ## Witnesses: ocld -/

/-- The pieces of memory that a load needs, as memory holds them. -/
def foundB (s : State) (l : Load) (k : Nat) : Bool := okP (places s l.bd.ctx (pieceSize l.d * k) (pieceSize l.d)) (fun x => (blocked x.2 false x.1).isNone && hereB x.1)
def heldPieces (s : State) (l : Load) (ks : List Nat) : Pieces :=
  ks.map (fun k => (k, match places s l.bd.ctx (pieceSize l.d * k) (pieceSize l.d) with
    | .ok (qs, _) => (locsOf qs).map s.peek
    | .error _ => []))
/-- A load whose checks pass, that finds what it needs, at first and once it holds that, until nothing is missing. -/
def loadsB (s : State) (p : Pontil) (o : QMemOp) (q : Load → Bool) : Bool :=
  okP (checkLoad s.popped p 0 o) (fun x => !(pathWaits x.2 x.1.d) && decide (2 ≤ x.1.f.w) && q x.1 &&
    okP (missing x.1 []) (fun ks => ks.all (foundB s x.1) && okP (missing x.1 (heldPieces s x.1 ks)) (fun ks' => ks'.all (foundB s x.1) &&
      okP (missing x.1 (heldPieces s x.1 (ks' ++ ks))) (fun r => r.isEmpty))))
/-- One row of one element of slot `f`; a word of 32 elements. -/
def oneElemWord (f : Nat) : Word := BitVec.ofNat 64 (f * 2 ^ 58)
def blockWord (f : Nat) : Word := BitVec.ofNat 64 (f * 2 ^ 58 + 31 * 2 ^ 22)
def bitmapEntry : Nat := entryBits 16384 64 7 + 2 ^ 155
def bitmapWorld (bits : Nat) (p : Pontil) : State := pontWorld p [(4096 + 64, 64, bitmapEntry), (16384, 8, bits), (16400, 8, 0x3F80)]
def aliasPont : Pontil := { pont [oneElemWord 4] with fmts := (List.range 4).map fixedSlot ++ fmts12 }
def aliasLoads : State :=
  let s := pontWorld aliasPont [(4096 + 64, 64, entryBits 0 128 7 - windowBase + 2 ^ 152)]
  { s with roots := [2 ^ 33, 0, 0, 0, 0, 0], mem := placeBytes (placeBytes s.mem (hbmLoc 0 0) (bytesOf (127 + 0x38 * 2 ^ 8) 8)) (hbmLoc 0 (2 ^ 33)) (bytesOf 2 8) }
theorem test_load_regions :
    loadsB (pontWorld (pont [oneElemWord 4]) [(16384, 2, 0x3F80)]) (pont [oneElemWord 4]) clusterQ (fun l => l.d.comp != 1 && l.d.mxk == 0 && !(l.f.isBlock)) = true ∧
    loadsB (pontWorld (pont [blockWord 5]) [(16384, 2, 0x3F80)]) (pont [blockWord 5]) clusterQ (fun l => l.d.comp != 1 && l.d.mxk == 0 && l.f.isBlock) = true ∧
    loadsB aliasLoads aliasPont clusterQ (fun l => l.d.comp != 1 && l.d.mxk == 1) = true ∧
    (∀ bits ∈ [0, 1], loadsB (bitmapWorld bits (pont [oneElemWord 4])) (pont [oneElemWord 4]) clusterQ (fun l => l.d.comp == 1 && l.d.mxk == 0) = true) := by
  decide +kernel

/-- A context that waits: for a granule that is empty, or full and then taken; at a load whose binding is empty; and at one whose bitmap, once
taken, leads past the end of the buffer. -/
def waitsLoad (q : List Word) (i : Instr) (taken : List (Nat × List Byte)) : Pontil := { pont q with wait := some ⟨i, taken, [], false, []⟩ }
def fewWord : Word := loadWord true
def granule0 : Nat := sramLoc 0 16384 / 16
def fullWorld (p : Pontil) (full : List Nat) (fill : List (Nat × Nat × Nat)) : State := { pontWorld p fill with issue := [], full := full }
def waitingB' (s : State) (p : Pontil) (o : QMemOp) (q : Load → Bool) : Bool :=
  s.pontil? p.id == some p && p.state == .running && p.wait.isSome && okP (checkLoad s { p with wait := none } 0 o) (fun x => opFew x.1.o && !(pathWaits x.2 x.1.d) && q x.1)
theorem test_waiting_hyps : (let p := waitsLoad [fewWord] (.ocld c0 0 clusterQ) []
    (∀ full ∈ [[], [granule0]], quietB (fullWorld p full []) = true ∧ waitingB' (fullWorld p full []) p clusterQ (fun l => okP (missing l []) (fun ks => ks.length == 1 &&
      ks.all (fun k => pieceGranule (fullWorld p full []) l.d k == some granule0 && inWindow (16 * k) && 16 * k / 2 ^ 50 == l.d.base / 2 ^ 50 &&
        foundB (fullWorld p full []) l k && okP (missing l (heldPieces (fullWorld p full []) l [k])) (fun r => r.isEmpty)))) = true)) ∧
    (let p := waitsLoad [fewWord] (.ocld c0 0 { clusterQ with bind := 5 }) []
     errP (checkLoad (fullWorld p [] []) { p with wait := none } 0 { clusterQ with bind := 5 }) (fun c => c == .bindEmpty) = true) := by decide +kernel
/-- The bitmap stands in the last granule of the buffer. -/
def lastBitmap : QMemOp := { clusterQ with ofs := 48 }
theorem test_waiting_bounds : (let p := waitsLoad [fewWord] (.ocld c0 0 lastBitmap) []
    let s := fullWorld p [granule0 + 3] [(4096 + 64, 64, bitmapEntry), (16432, 8, 1)]
    waitingB' s p lastBitmap (fun l => okP (missing l []) (fun ks => ks.length == 1 && ks.all (fun k => foundB s l k &&
      pieceGranule s l.d k == some (granule0 + 3) && errP (missing l (heldPieces s l [k])) (fun c => c == .bounds))))) = true ∧
    (let p := waitsLoad [fewWord] (.ocld c0 0 lastBitmap) [(granule0 + 3, bytesOf 1 16)]
     let s := fullWorld p [] [(4096 + 64, 64, bitmapEntry)]
     waitingB' s p lastBitmap (fun l => errP (missing l [((windowBase + 16432) / 16, bytesOf 1 16)]) (fun c => c == .bounds) &&
       keyOf s l.d ((windowBase + 16432) / 16) == granule0 + 3)) = true := by decide +kernel

/-! ## Witnesses: contexts through an alias -/

theorem test_pontil_alias : pontilReachesB aliasLoads aliasPont { bareQ with slot := 4 } { w := true } true (fun t _ => t.d.mxk == 1) = true ∧
    pontilPerformsAll aliasLoads aliasPont [.qst c0 0 { bareQ with slot := 4 }, .qld c0 0 { bareQ with slot := 4 }] = true ∧ quietB aliasLoads = true ∧
    (∀ ctx, NoFrameTwice aliasLoads.popped ctx) := by
  have h : oneLeaf aliasLoads.popped 2 = true := by decide +kernel
  exact ⟨by decide +kernel, by decide +kernel, by decide +kernel, noFrameTwice_leaf h⟩

/-! ## Witnesses: waits for paths and dies -/

def die0Down : List DieDown := [⟨0, 0, [], false, none, false⟩]
/-- SpawnAndJoin: a record whose launch is accepted, or refused, or whose launch block stands in a module behind a path that is down. -/
def recordWorld (grid block join : Nat) : State := world tSpawn [(16384, 64, goodRecord join grid), (16448, 512, block)]
def blockIn1 (join : Nat) : State := { world tSpawn [(16384, 64, join + 3 * 2 ^ 32 + 2 ^ 117)] with peers := [⟨1, 0, false, 8⟩] }
def reachesB (s : State) (need : Rights) (w : Bool) : Bool := okP (recordOf (mem0 tSpawn) s.popped devObj need) (fun x =>
  acceptWaits (readObject x.2 x.1.bd.agent (x.2.viewOf 0 0) (x.1.ps.take 8)).2.2.2.1 0 3 x.1.va == w)
/-- What a spawn or a join puts forward: the state, and what comes of the record's acceptance. -/
def putForwardB (s : State) (spawn : Bool) (q : Except Code (Launch × State) → Bool) : Bool :=
  okP (recordOf (mem0 tSpawn) s.popped devObj (if spawn then rwa else { a := true })) (fun x =>
    let word := x.1.ps.take 8
    sramLocsB (locsOf x.1.ps) && recComp (objectNow s x.1.ps) == 0 && s.hist.isEmpty &&
    match (if spawn then spawnStep x.2 (mem0 tSpawn) x.1 .device 3 else joinStep x.2 x.1.bd.agent .device (x.2.viewOf 0 0) 0 x.1.va word) with
    | .done _ z v => q (acceptRecord (z.setView 0 0 v) cx0 x.1.va (latestRels (z.setView 0 0 v) word))
    | _ => false)
theorem test_spawn_paths : (∀ p ∈ [(rwa, 0), ({ a := true }, 1)], reachesB (recordWorld 1 0 p.2) p.1 false = true ∧ reachesB (blockIn1 p.2) p.1 true = true ∧
    recordB (blockIn1 p.2) (mem0 tSpawn) p.1 p.2 = true ∧ recordB (recordWorld 1 0 p.2) (mem0 tSpawn) p.1 p.2 = true) := by decide +kernel
theorem test_put_forward_launch : putForwardB (recordWorld 1 0 0) true (fun a => okP a (fun x => recCount x.1.record == 1 && takeLeases x.2 cx0 x.1.block)) = true := by
  decide +kernel
theorem test_put_forward_code : putForwardB (recordWorld 1 (2 ^ 101) 1) false (fun a => errP a (fun _ => true)) = true := by decide +kernel
theorem test_put_forward_hyps : (recordWorld 1 0 0).context? 0 = some cx0 ∧ (recordWorld 1 (2 ^ 101) 1).context? 0 = some cx0 ∧
    (∀ ls, sramLocsB ls = true → TablesApart (recordWorld 1 (2 ^ 101) 1) ls) :=
  ⟨by decide +kernel, by decide +kernel, fun ls h => tablesApart_sram (by decide +kernel) ls h⟩

/-- SavesAndRestores: a workgroup that waits for a path; a target that is misaligned; an image on a die that is up, and on one that is not. -/
def atLink : Thread := { thr [] with wait := some ⟨.link, .ld c0 3 (at0 0), 1, 0, [], 0, fmts12, []⟩ }
theorem test_save_waits : performsAll (saveWorld atLink) (mem0 tSave) [.lehrsv c0 9 2 3 0] = true ∧ savePending (saveWorld atLink) (otherWg atLink) = true ∧
    linkPending (otherWg atLink) = true ∧ savePending (saveWorld (thr [])) (otherWg (thr [])) = false ∧
    errP (imageTarget (saveWorld (thr [])).popped (binderOf (saveWorld (thr [])).popped (wgWith tSave) tSave) 0 (tSave.readV 0).toInt
      (lengthOf (saveWorld (thr [])) (otherWg (thr [])))) (fun _ => true) = true := by decide +kernel
theorem image_up {e : Int} (he : ((boundB0.base : Int) + 8 * e).toNat = windowBase + 16384) : imageWaits entryRead 0 boundB0 e = false := by
  have ht : translate entryRead 0 (windowBase + 16384) = .ok (.here (sramLoc 0 16384) .sram, entryRead) := by
    rw [translate_sram 0 (by decide +kernel) (by decide +kernel) (by decide +kernel)]
    rfl
  have hu : ∀ va, vaModule va = entryRead.module.toNat → addrWaits entryRead va = false := by
    intro va hm
    simp [addrWaits, hm, show entryRead.down = [] from rfl]
  refine imageWaits_run (n := 11520) (l := sramLoc 0 16384) (k := .sram) (by rw [he]; exact ht) (by rw [he]; decide +kernel) (by decide) image_length
    (hu _ (by rw [he]; decide +kernel)) (hu _ (by rw [he]; decide +kernel)) (fun i hi => ?_)
  have h2 : sramLoc 0 16384 = 4 * 2 ^ 52 + 16384 := by decide +kernel
  rw [h2, locSpace]
  omega
theorem test_image_waits : imageWaits entryRead 0 boundB0 (tPriv.readV 6).toInt = false ∧
    (let s := { imageWorld with down := die0Down }
     PerformsAlone s (mem0 tPriv) (.lehrld c0 9 6 0) ∧ okP (bindingEntry s.popped (binderOf s.popped (wgWith tPriv) tPriv) 0) (fun x =>
       okP (checkPeers x.2 x.1) (fun _ => true) && imageWaits x.2 0 x.1 (tPriv.readV 6).toInt) = true) :=
  ⟨image_up (by decide +kernel), (performs_of (is := [.lehrld c0 9 6 0]) (by decide +kernel) _ (List.mem_cons_self ..)).2, by decide +kernel⟩

/-- LaunchEnds: under debugging, one whose accesses are complete, one that waits for a path, one whose area is on a die under reset; a launch
with a code whose workgroup waits for a path; and a record on a die under reset. -/
def debugWorld (g : Workgroup) (down : List DieDown) (q : Nat) : State :=
  { endWorld .programTrap true { liveLaunch none 0 with queue := q } with workgroups := [g], down := down, queues := [areaQueue] }
def atLinkHalted : Workgroup := { wgWith { atLink with trap := some (.programTrap, 0) } with halted := true }
theorem test_held_hyps :
    ((debugWorld (trapped .programTrap) [] 0).isDebug 0 = true ∧ savePending (debugWorld (trapped .programTrap) [] 0) (trapped .programTrap) = false ∧
      areaWaits (debugWorld (trapped .programTrap) [] 0) (trapped .programTrap) = false) ∧
    savePending (debugWorld atLinkHalted [] 0) atLinkHalted = true ∧ areaWaits (debugWorld (trapped .programTrap) die0Down 3) (trapped .programTrap) = true ∧
    linkPending atLinkHalted = true ∧ linkPending (trapped .programTrap) = false ∧
    (∀ down ∈ [[], die0Down], let s : State := { world tSpawn [] with workgroups := [], launches := [liveLaunch none 1], issue := [], down := down }
      readyToComplete s (liveLaunch none 1) = true ∧ completionHeld s (liveLaunch none 1) = !down.isEmpty ∧ ∀ r ∈ s.hist, r.loose = none) := by
  decide +kernel

/-! ## Witnesses: what a core keeps and what two gangs of one cycle do -/

/-- A gang kept formed by a core, with its thread parked or not; two forks, the later slot first. -/
def keptWorld (parked : Bool) : State :=
  let s := coreWorld { atPc 0 0 with parked := parked } (atPc 8 0)
  { s with workgroups := s.workgroups.map (fun g => if g.slot = 0 then { g with formed := [0] } else g) }
def forkWords : State :=
  let s := world (thr []) [(8192, 8, 0xA007010210000600)]
  { s with issue := [], workgroups := [wgWith (atPc 0 0), { wgWith (atPc 0 0) with uid := 1, slot := 1 }], corePointers := [(⟨0, 0, 0⟩, 1)] }
theorem test_kept_hyps : (∀ parked ∈ [true, false], ((keptWorld parked).workgroups.map (·.uid)).Nodup ∧
      (picksOf (tickStalls (keptWorld parked) ⟨0, 0, 0⟩) (inOrder (tickStalls (keptWorld parked) ⟨0, 0, 0⟩) ⟨0, 0, 0⟩)).any (fun p =>
        p.g.formed == [0] && p.unpark == parked) = true) ∧
    (match picksOf (tickStalls forkWords ⟨0, 0, 0⟩) (inOrder (tickStalls forkWords ⟨0, 0, 0⟩) ⟨0, 0, 0⟩) with
     | p :: q :: _ => forks (tickStalls forkWords ⟨0, 0, 0⟩) p.g p.tids && forks (tickStalls forkWords ⟨0, 0, 0⟩) q.g q.tids && decide (q.g.slot < p.g.slot)
     | _ => false) = true := by decide +kernel

/-! ## Witnesses: restores of a dispatcher -/

/-- The area and the image of test_dispatch_restore do not wait; an area on a die under reset does. -/
theorem area_up {va n : Nat} (w : Bool) (h0 : windowBase + 16384 ≤ va) (h : va + n ≤ windowBase + 16384 + 49152) (hn : 1 ≤ n) (z : State)
    (hz : z.module = 0) (hd : z.down = []) : spanWaits z w 0 va n = false := by
  have hb : windowBase = 0x3FFFFF0000000 := rfl
  have hs : 65536 ≤ Config.sramBytes := by decide
  have hm : ∀ x, x < 2 ^ 53 → vaModule x = z.module.toNat := by intro x hx; rw [hz]; simp only [vaModule]; change _ = 0; omega
  have ht : translate z 0 va = .ok (.here (sramLoc (vaDie va) (vaOfs va - windowBase)) .sram, z) :=
    translate_sram 0 (hm va (by omega)) (by
      rw [inWindow, Bool.and_eq_true, decide_eq_true_eq, decide_eq_true_eq]
      simp only [vaDie, vaOfs]
      omega)
      (by simp only [vaOfs]; omega)
  have hu : ∀ x, x < 2 ^ 53 → addrWaits z x = false := by intro x hx; simp [addrWaits, hm x hx, hd]
  refine spanWaits_run w ht (by omega) (hu _ (by omega)) (hu _ (by omega)) (fun i hi => ?_)
  simp only [locSpace, sramLoc, vaDie, vaOfs]
  omega
theorem test_area_hyps : (∀ w, spanWaits entryRead w cx0.id.val areaQueue.sabase.toNat 4096 = false ∧
      spanWaits entryRead w cx0.id.val (areaQueue.sabase.toNat + 0) 11520 = false ∧
      spanWaits (scheduleWorld (freshLaunch 1 1 [zeroSaved])) w 0 areaQueue.sabase.toNat 4096 = false ∧
      spanWaits (scheduleWorld (freshLaunch 1 1 [zeroSaved])) w 0 (areaQueue.sabase.toNat + 32768) 1024 = false) ∧
    (let q : Queue := { areaQueue with sabase := BitVec.ofNat 64 (2 ^ 50 + windowBase) }
     let s : State := { scheduleWorld (freshLaunch 1 1 [zeroSaved]) with queues := [q], down := [⟨1, 0, [], false, none, false⟩] }
     (∀ x ∈ s.down, x.die ≠ core0.die) ∧ chooseQueue s 0 = some (q, s) ∧ currentLaunch s q 0 = some (freshLaunch 1 1 [zeroSaved]) ∧
     s.context? 0 = some cx0 ∧ addrWaits s q.sabase.toNat = true) := by
  have ha : areaQueue.sabase.toNat = windowBase + 16384 := by decide +kernel
  refine ⟨fun w => ⟨?_, ?_, ?_, ?_⟩, by decide +kernel⟩ <;> rw [ha] <;> exact area_up w (by omega) (by omega) (by omega) _ (by decide +kernel) (by decide +kernel)

/-! ## Witnesses: stops, and frames that wait -/

theorem test_stop_hyps : (tickWorld false 6).stopAt = some 5 ∧ (tickWorld false 6).stopped = false ∧ 5 < (tickWorld false 6).now ∧ (tickWorld false 5).now ≤ 5 := by
  decide
/-- A leaf of CXL memory whose port is down, and is up. -/
def cxlLeaf : Nat := 2 + 2 * 2 ^ 4
theorem test_frame_hyps : frameWaits State.reset cxlLeaf = true ∧ frameWaits (moveWorld 0 []) movedFrom = false ∧
    (let m : MoveReq := { moveReq with leaf := cxlLeaf }
     underMove { State.reset with moves := [m] } 65536 = some m) := by decide +kernel

/-! ## Witnesses: engines at their completion -/

/-- Operations in a world of die SRAM, that nothing keeps from completing. -/
def enginesFreeB (s : State) (ops : List EngineOp) (reads writes : List Nat) : Bool :=
  quietB s && windowsOnly s && ops.all (fun op => op.ctx == 0 && op.aborted.isNone && op.early.isEmpty) &&
  (reads ++ touchedBy ops writes).all (fun va => vaModule va == s.module.toNat && inWindow va && decide (vaOfs va < windowBase + Config.sramBytes)) &&
  decide (((touchedBy ops writes).map (· % 2 ^ 64)).Nodup) &&
  (reads.all (fun a => !((touchedBy ops writes).map (· % 2 ^ 64)).contains (a % 2 ^ 64)))
theorem enginesFree_of {s : State} {ops : List EngineOp} {reads writes : List Nat} (h : enginesFreeB s ops reads writes = true) :
    EnginesFree s 0 ops reads writes := by
  simp only [enginesFreeB, Bool.and_eq_true, List.all_eq_true, beq_iff_eq, List.isEmpty_iff, Option.isNone_iff_eq_none, decide_eq_true_eq] at h
  obtain ⟨⟨⟨⟨⟨h1, h2⟩, h3⟩, h4⟩, h5⟩, h6⟩ := h
  have hl : ∀ va ∈ reads ++ touchedBy ops writes, translate s 0 va = .ok (.here (sramLoc (vaDie va) (vaOfs va - windowBase)) .sram, s) ∧
      locSpace (sramLoc (vaDie va) (vaOfs va - windowBase)) < 8 ∧ 4 ≤ locSpace (sramLoc (vaDie va) (vaOfs va - windowBase)) := by
    intro va hv
    obtain ⟨⟨hm, hw⟩, hs⟩ := h4 va hv
    refine ⟨translate_sram 0 hm hw hs, ?_⟩
    have := vaDie_lt hw
    have hb : Config.sramBytes ≤ 2 ^ 50 := by decide
    simp only [locSpace, sramLoc]
    omega
  refine ⟨quiet_of h1, noFrameTwice_of h2 0, fun op ho => ⟨(h3 op ho).1.1, (h3 op ho).1.2, (h3 op ho).2⟩, fun va hv => ⟨_, _, _, (hl va hv).1, by decide, fun w => ?_⟩,
    ⟨h5, fun a ha b hb he => ?_⟩, tablesApart_of h2 (fun l hm => ?_)⟩
  · refine blocked_near (fun l hx => ?_)
    simp only [locsOf, Place.loc?, List.filterMap_cons, List.filterMap_nil, List.mem_singleton] at hx
    rw [hx]
    exact (hl va hv).2.1
  · have := h6 a ha
    rw [Bool.not_eq_true', List.contains_eq_mem, decide_eq_false_iff_not] at this
    exact this (he ▸ List.mem_map.2 ⟨b, hb, rfl⟩)
  · obtain ⟨va, hv, rfl⟩ := List.mem_map.1 hm
    have h := hl va (List.mem_append_right _ hv)
    simp only [locAt, h.1]
    simp only [locSpace] at h
    omega

def inSram (ofs len : Nat) : Bound := { boundB0 with base := windowBase + ofs, len := len }
theorem test_copy_hyps : opAt copyWorld (.copy ⟨0, 0⟩) 0 = some copyOp ∧ copyOp.buffers = [(0, b0Bound), (0, b0Bound)] ∧
    (∀ p ∈ copyPairs copyOp.desc, p.1.toNat < b0Bound.backing ∧ b0Bound.swz p.2.toNat < b0Bound.backing) ∧
    enginesFreeB copyWorld [copyOp] ((copyPairs copyOp.desc).map (fun p => b0Bound.base + p.1.toNat))
      ((copyPairs copyOp.desc).map (fun p => b0Bound.base + b0Bound.swz p.2.toNat)) = true := by decide +kernel

/-- A gather and a scatter of two records of sixteen bytes: of the first data record and of one past the end, or twice of the first. -/
def gatherOp (k : EngineKind) : EngineOp :=
  { copyOp with unit := .gather 0, kind := k, desc := engineDesc .gth % 2 ^ 192, buffers := [(0, inSram 32768 64), (1, inSram 33792 8), (2, inSram 34816 64)] }
def gatherWorld (k : EngineKind) (second : Nat) : State := { world (thr []) [(33796, 4, second), (34816, 4, 5)] with ops := [gatherOp k], issue := [] }
theorem test_gather_hyps : (∀ k ∈ [EngineKind.gth, .sct], ∀ second ∈ [0, 4], let s := gatherWorld k second
    let op := gatherOp k
    opAt s (.gather 0) 0 = some op ∧ gthCount op.desc = 2 ∧ gthSize op.desc = 16 ∧ descInt op.desc 1 = 0 ∧ descInt op.desc 3 = 0 ∧ descInt op.desc 4 = 0 ∧
    (List.range 2).map (fun i => bytesNow s s 0 (windowBase + 33792 + 4 * i) 4) = [0, second] ∧
    enginesFreeB s [op] ((List.range 8).map (windowBase + 33792 + ·) ++ (List.range 16).map ((if k = .gth then windowBase + 32768 else windowBase + 34816) + ·) ++
        (if k = .sct ∧ second = 0 then (List.range 16).map (windowBase + 34832 + ·) else []))
      (if k = .gth then (List.range 32).map (windowBase + 34816 + ·) else (List.range 16).map (windowBase + 32768 + ·)) = true) := by decide +kernel

/-- A lane over a table of one state, whose rows send each byte on. -/
def laneOp : EngineOp :=
  { copyOp with unit := .lane 0 0, kind := .xds, desc := engineDesc .xds
                buffers := [(0, inSram 32768 448), (1, inSram 33792 1024), (2, inSram 34816 1024), (3, inSram 36864 64)] }
def laneWorld : State := { world (thr []) [(32768, 4, 1), (34304, 4, 0x64636261)] with ops := [laneOp], issue := [] }
theorem test_lane_hyps : laneWorld.ops.filter (fun o => o.unit == .lane 0 0) = [laneOp] ∧ natField (bytesNow laneWorld laneWorld 0 (windowBase + 32768) 4) 0 13 = 1 ∧
    natField (bytesNow laneWorld laneWorld 0 (windowBase + 32768) 4) 16 12 < 1 ∧ descInt laneOp.desc 1 = 512 ∧ descInt laneOp.desc 2 = 768 ∧ descInt laneOp.desc 4 = 0 ∧
    xdsIlen laneOp.desc = 4 ∧ xdsOcap laneOp.desc = 8 ∧ xdsMcap laneOp.desc = 0 ∧ 320 + 128 * 1 ≤ (inSram 32768 448).len ∧
    enginesFreeB laneWorld [laneOp] ((List.range 448).map (windowBase + 32768 + ·) ++ (List.range 4).map (windowBase + 34304 + ·))
      ((List.range 4).map (fun k => laneOp.descAddr + 44 + k)) = true := by decide +kernel
theorem test_lane_run : (let tb (k : Nat) : Nat := (byteNow laneWorld laneWorld 0 (windowBase + 32768 + k)).toNat
    let inp (k : Nat) : Nat := (byteNow laneWorld laneWorld 0 (windowBase + 34304 + k)).toNat
    let r := xdsRun tb inp 448 1 8 0 4 0 0 [] []
    (r.reason, r.state, r.consumed, r.out, r.marks) = (0, 0, 4, [], [])) := by decide +kernel

/-- A prefetch whose page is of die SRAM, which does not move. -/
def tpfOp : EngineOp := { copyOp with unit := .tpf 0, kind := .tpf, desc := engineDesc .tpf, buffers := [(0, inSram 0 65536)] }
def tpfWorld : State := { world (thr []) [] with ops := [tpfOp], issue := [] }
theorem test_tpf_hyps : opAt tpfWorld (.tpf 0) 0 = some tpfOp ∧ tpfHeld tpfWorld tpfOp = false ∧ completionWaits tpfWorld tpfOp = false ∧ tpfWorld.moves = [] ∧
    tpfPages tpfOp ≠ [] ∧ (∀ p ∈ tpfPages tpfOp, pageMapped tpfWorld p = true ∧ (tpfRequest tpfWorld tpfOp p).isNone = true) ∧
    enginesFreeB tpfWorld [tpfOp] [] [] = true ∧ completionWaits { tpfWorld with down := [⟨0, 0, [], false, none, false⟩] } tpfOp = true := by decide +kernel

/-- A collective of one rank: with one rank in its group, and with two, on which its operations disagree. -/
def colSumOp : EngineOp :=
  { copyOp with unit := .collective 0, kind := .col, desc := engineDesc .col, buffers := [(0, inSram 32768 1024), (1, inSram 33792 1024)] }
def colWorld : State := { world (thr []) [] with ops := [colSumOp], groups := [⟨9, [⟨0, 0⟩]⟩], issue := [] }
def colRemote : List RemoteRank := [⟨1, 1, 2, 1, 0, .rne, 0, 0, [0, 0]⟩]
theorem test_collective_hyps :
    (gather 9 ⟨9, [⟨0, 0⟩]⟩ (List.finRange 4) colWorld).1 = some [colSumOp] ∧ colGroup colSumOp.desc = 9 ∧
    (let op := colSumOp
     let f := fdefOf (slotWord op.fmts (colSslot op.desc))
     (colOp op.desc, colCount op.desc, colNrank op.desc, colRank op.desc) = (0, 2, 1, 0) ∧ f.w = 16 ∧ colSslot op.desc = colDslot op.desc ∧
     effRm (colRm op.desc) f ≠ .rsr ∧ (descInt op.desc 1, descInt op.desc 2) = (0, 64) ∧
     bitAddrs (inSram 33792 1024) (64 * 16) (2 * 16) = (List.range 4).map (windowBase + 33920 + ·) ∧
     bitAddrs (inSram 32768 1024) 0 (2 * 16) = (List.range 4).map (windowBase + 32768 + ·) ∧
     enginesFreeB colWorld [op] ((List.range 4).map (windowBase + 32768 + ·)) ((List.range 4).map (windowBase + 33920 + ·)) = true) ∧
    (∀ r ∈ colRemote, r.elems.length = if r.op = 1 then r.nrank * r.count else r.count) := by decide +kernel

/-! ## Witnesses: cases that are left -/

/-! ## Witnesses: messages, commands, links -/

/-- Frames of tag 5 with LEN `len`, one field of which is as given. -/
def badFrames (len : Nat) : List (List Byte) :=
  let h : Nat := 0x49524F51 + 2 ^ 32 + 9 * 2 ^ 40 + 5 * 2 ^ 64 + len * 2 ^ 96
  [bytesOf h 31, bytesOf (h + 1) 32, bytesOf (h + 2 ^ 32) 32, bytesOf (h + 2 * 2 ^ 48) 32, bytesOf (h + (2 ^ 24 + 1 - len) * 2 ^ 96) 32,
    bytesOf (h + 64 * 2 ^ 128) 32, bytesOf (h + 4 * 2 ^ 160) 32, bytesOf (h + 2 ^ 176) 32]
/-- WatchingAndEvents: each field of a header that is wrong, a payload that is missing, and frames that are right (Tables 21.1 and 21.2). -/
theorem test_header_hyps : ((badFrames 0).map (fun bs => (byteField bs 8 4, decide (bs.length < 32), decide (byteField bs 0 4 ≠ 0x49524F51),
      decide (byteField bs 4 1 ≠ 1), decide (1 < byteField bs 6 2), decide (2 ^ 24 < byteField bs 12 4), decide (63 < byteField bs 16 4),
      decide (3 < byteField bs 20 2), decide (byteField bs 22 10 ≠ 0))) ==
    (List.range 8).map (fun k => (5, k == 0, k == 1, k == 2, k == 3, k == 4, k == 5, k == 6, k == 7))) = true ∧
    (let bs := bytesOf (0x49524F51 + 2 ^ 32 + 9 * 2 ^ 40 + 5 * 2 ^ 64 + 8 * 2 ^ 96) 32
     byteField bs 8 4 = 5 ∧ bs.length ≠ 32 + byteField bs 12 4 ∧ byteField bs 5 1 = 9) := by decide +kernel
theorem test_sent_hyps : (let m : Message := ⟨3, 0x80, true, 5, 63, 3, [1]⟩
    m.op < 2 ^ 8 ∧ m.ctx = (63 : Fin 64).val ∧ m.status ≤ 3 ∧ m.payload.length ≤ 2 ^ 24 ∧
    headerOf m.bytes = some ⟨1, 0x80, true, 5, 1, 63, 3⟩ ∧ m.bytes.drop 32 = [1]) := by decide +kernel
theorem test_frames : decodeMessage false 3 (hostFrame 0x09 5 0 []) = .cacheWb 5 ∧
    decodeMessage false 3 (hostFrame 0x09 5 0 [0]) = .unknownOp 5 (.malformed 9) ∧
    decodeMessage false 3 (hostFrame 0x03 5 7 (bytesOf (2 + 3 * 2 ^ 8 + 7 * 2 ^ 16 + 64 * 2 ^ 64 + 65536 * 2 ^ 128) 32)) = .ctxCreate 5 7 ⟨2, 3, 7, 64, 65536⟩ ∧
    decodeMessage false 3 (hostFrame 0x03 5 7 (bytesOf (2 + 4 * 2 ^ 8 + 2 ^ 128) 32)) = .unknownOp 5 (.malformed 3) ∧
    decodeMessage false 3 (hostFrame 0x05 5 7 (bytesOf (63 + 3 * 2 ^ 8 + 2 ^ 16 + 64 * 2 ^ 64 + 2 ^ 24 * 2 ^ 128 + 4096 * 2 ^ 256) 48)) =
      .queueSet 5 7 ⟨63, 3, true, 64, 2 ^ 24, 0, 4096⟩ ∧
    decodeMessage false 3 (hostFrame 0x0D 5 0 (bytesOf (5 + 9 * 2 ^ 64 + 2 ^ 24 * 2 ^ 128) 24)) = .scan 5 5 9 (2 ^ 24) ∧
    decodeMessage false 3 (hostFrame 0x0D 5 0 (bytesOf (6 + 2 ^ 128) 24)) = .unknownOp 5 (.malformed 0x0D) ∧
    decodeMessage true 3 (hostFrame 0x44 5 0 (bytesOf 2047 8)) = .start 5 2047 ∧
    decodeMessage true 3 (hostFrame 0x09 5 0 []) = .unknownOp 5 (.notInThisMode 9) ∧
    decodeMessage false 3 (hostFrame 0x44 5 0 (bytesOf 0 8)) = .unknownOp 5 (.notInThisMode 0x44) := by decide +kernel

/-- Events of two sources of which the older of one waits; RESYNC in minimal mode, in a stop, with nothing pending, and with a host. -/
theorem test_session_hyps : ([record 1, record 2].Nodup ∧ [record 1, record 2] = [record 1] ++ record 2 :: []) ∧ (record 1).src = (record 2).src ∧
    State.reset.power ≠ .running ∧ { eventWorld 0 with stopped := true }.stopped = true ∧ (eventWorld 0).stopped = false ∧ (eventWorld 0).host = some 3 :=
  by decide +kernel

/-- Spans whose every byte is mapped, one with a hole, and one behind a path; what a record's read answers where nothing is mapped. -/
theorem test_payload_hyps : pathKnown idle recordVa = true ∧ (∀ k < 64, vaModule (recordVa + k) = idle.module.toNat ∧ inWindow (recordVa + k) = true ∧
      vaOfs (recordVa + k) < windowBase + Config.sramBytes) ∧
    (vaModule 0 = idle.module.toNat ∧ inWindow 0 = false ∧ (walk idle (vaDie 0) (vaOfs 0)).isSome = false) ∧ 0 + 64 ≤ 2 ^ 64 ∧
    checkPayload idle recordVa 64 = .ok () ∧ checkPayload idle 0 64 = .error .leaseLost ∧
    errP (readSpan idle .host 0 idle.hostView .latest 0 4) (fun _ => true) = true ∧ idle.aborts = [] ∧ HostPlaced idle := by
  refine ⟨by decide +kernel, by decide +kernel, by decide +kernel, by decide, by decide +kernel, by decide +kernel, by decide +kernel, rfl, ?_⟩
  intro r hr
  exact absurd hr (List.not_mem_nil)

/-- A record refused for QLEN, and a launch that waits for an ABORT's reply. -/
def abortWorld : State :=
  { s123 with workgroups := [], issue := [], host := some 3, aborts := [⟨0, 5, 0⟩], launches := s123.launches.map (fun l => { l with code := some .launchAbort }) }
theorem test_aborted_hyps : someP (abortWorld.launch? 0) (fun l => abortWorld.launch? l.uid == some l && l.code.isSome &&
    !(hasResident abortWorld l.uid) && !(completionHeld abortWorld l) && abortWorld.aborts.any (fun a => a.launch == l.uid)) = true ∧
    abortWorld.answersTo = some 3 := by decide +kernel

/-- What may come up at a port, and what may not (R6, R307, R310). -/
def linkOffers : List (PortKind × LinkOffer) := [(.ualink, .ualinkX4), (.ethernet, .etherReliable), (.cxl, .cxlExpander)]
theorem test_link_offer_hyps : (∀ x ∈ linkOffers, (x.1 = .ualink ∧ x.2 = .ualinkX4) ∨ (x.1 = .ethernet ∧ x.2 = .etherReliable) ∨ (x.1 = .cxl ∧ x.2 = .cxlExpander)) ∧
    ¬((PortKind.cxl = .ualink ∧ LinkOffer.cxlType2 = .ualinkX4) ∨ (PortKind.cxl = .ethernet ∧ LinkOffer.cxlType2 = .etherReliable) ∨
      (PortKind.cxl = .cxl ∧ LinkOffer.cxlType2 = .cxlExpander)) ∧
    (∃ x ∈ (downWorld [3] false 0).down, x.die.val = 3 / 8 ∧ ∃ q ∈ x.ports, q.val = 3 % 8) ∧ idle.power = .running ∧ idle.down = [] := by decide +kernel

/-- Requests of a peer: of a die under reset, behind a port that is down, of poisoned lines, and an atomic that is not aligned. -/
theorem test_request_hyps_2 : (∃ x ∈ ({ peerWorld with down := [⟨0, 0, [], false, none, false⟩] } : State).down, x.die.val = vaDie recordVa) ∧
    (∀ p ∈ idle.ports, p.kind = .ualink → p.state ≠ 2) ∧ recordVa % 4 = 0 ∧ (recordVa + 2) % 4 ≠ 0 ∧
    (let s : State := { peerWorld with poison := [sramLoc 0 16384 / 64] }
     okP (places s 64 recordVa 8) (fun x => (blocked x.2 false x.1).isNone && anyPoison x.2 x.1) = true ∧
     okP (targetPlaces s (homeTarget homeAdd) 1) (fun x => !(anyUo x.1) && anyPoison x.2 x.1) = true) ∧
    (let s : State := { peerWorld with roots := [2 ^ 33, 0, 0, 0, 0, 0], mem := placeBytes [] (hbmLoc 0 (2 ^ 33)) (bytesOf cxlLeaf 8) }
     okP (places s 64 0 8) (fun x => (blocked x.2 true x.1).isSome) = true) := by decide +kernel

/-- OwnWritesAndReleases: a byte with no earlier write, whatever its page, and the writes that a reader must see. -/
theorem test_own_writes_hyps : ∀ k ∈ [PageKind.rc, .so, .uo, .sram],
    let z := commit State.reset (.plain (.thread ⟨0, 0, 0⟩ 0 0 0)) (some k) [(5, 1)] .empty
    mixedAt z.1 (some k) 5 = false ∧
    (let f := commit z.1 (.plain (.thread ⟨0, 0, 0⟩ 0 0 0)) (some .rc) [(6, 1)] z.2
     mixedAt (acquireRels f.1 (.thread ⟨0, 0, 1⟩ 1 1 1) .device ((f.1.hist.head?.map (·.rels)).getD []) .empty).1 (some k) 5 = false) := by
  decide +kernel

/-! ## The loader: the object `tw` of chapter 15 (its patched words are those of Table 15.7; words no record names are left zero) -/

def ascii (cs : List Nat) : List Byte := cs.map (BitVec.ofNat 8)
def twStrings : List Byte := ascii [116, 98, 108, 0, 108, 115, 117, 109, 0, 107, 97, 0, 107, 98, 0, 108, 116, 97, 98, 0]
def twHeader : Nat :=
  0x314F575A + 2 ^ 32 + 0x2000 * 2 ^ 64 + 3 * 2 ^ 128 + 2 * 2 ^ 144 + 5 * 2 ^ 160 + 6 * 2 ^ 192 + 64 * 2 ^ 256 + 160 * 2 ^ 288 + 672 * 2 ^ 320 +
  832 * 2 ^ 352 + 1280 * 2 ^ 384 + 20 * 2 ^ 416
def twSect (kind img size ofs : Nat) : List Byte := bytesOf (kind + img * 2 ^ 64 + size * 2 ^ 128 + ofs * 2 ^ 192) 32
def twKernel (entry regs : Nat) : List Byte := bytesOf (entry + regs * 2 ^ 32 + 2 ^ 40 + 2 * 2 ^ 128) 256
def twSym (name sect bind kind value krec : Nat) : List Byte :=
  bytesOf (name + sect * 2 ^ 32 + bind * 2 ^ 34 + kind * 2 ^ 36 + value * 2 ^ 64 + krec * 2 ^ 128) 32
def twRel (site kind sym pair : Nat) : List Byte := bytesOf (site + kind * 2 ^ 32 + sym * 2 ^ 64 + pair * 2 ^ 96) 32
def twWord (site : Nat) : Nat :=
  if site = 0 ∨ site = 0x80 then 0x154705FF00000000 else if site = 8 ∨ site = 0x88 then 0x1447050500000000
  else if site = 0x28 then 0x600706FFF8000000 else 0
def twFile : List Byte :=
  bytesOf twHeader 64 ++ (twSect 1 0 0xC0 1024 ++ twSect 2 0xC0 0x40 1216 ++ twSect 3 0x100 8 0) ++
  (twKernel 0 10 ++ twKernel 0x80 8) ++
  (twSym 0 2 0 3 0xC0 0 ++ twSym 4 0 0 0 0 0 ++ twSym 9 1 1 1 0 0 ++ twSym 12 1 1 1 0x80 1 ++ twSym 15 0 0 3 0 0) ++
  (twRel 0 2 0 0 ++ twRel 8 3 0 0 ++ twRel 0x28 4 1 0 ++ twRel 0x80 2 4 0 ++ twRel 0x88 3 4 0x80 ++ twRel 0x100 5 1 0) ++
  (List.range 24).flatMap (fun i => bytesOf (twWord (8 * i)) 8) ++ bytesOf 0x0877665544332211 64 ++ twStrings
/-- The library's image: it holds 0x1000 bytes and defines lsum and ltab. -/
def libImage : Zwion.Image := ⟨0x20000, [], [(0, 0x1000)], [((twStrings.drop 4).take 4, 0x400), ((twStrings.drop 15).take 4, 0xC00)], []⟩
theorem test_load_tw : okP (Zwion.load libImage twFile 0x4000) (fun im =>
    [0, 8, 0x28, 0x80, 0x88, 0x100].map (fun a => Zwion.imageNat im.mem (0x4000 + a)) ==
      [0x154705FF00000000, 0x14470505000000C0, 0x600706FFF8820000, 0x154705FFFFFFD000, 0x1447050500000B80, 0x400] &&
    im.loaded == [(0, 0x1000), (0x4000, 0x108)] && im.kernels.map (·.1) == [0x4000, 0x4080]) = true := by decide +kernel
theorem test_load_refused : errP (Zwion.load libImage twFile 0xFF00) (fun f => f == ⟨.relOverflow, some 2⟩) = true ∧
    (Zwion.load libImage twFile 0x2000).isOk = true ∧ errP (Zwion.load libImage twFile 0xF80) (fun f => f.code == .objPlace) = true := by decide +kernel

end Tests
end Sys2Proof
end

section
/-! PROOFS. Constants, special registers and s.fflags: results of fixed latency, and a member's part that changes its own thread. -/

namespace Sys2Proof
namespace Machine

/-- A member that ends with results of fixed latency changes nothing but its own thread. -/
theorem fixed_keeps (m : Member) (s : State) (l : Nat) (ws : List RegWrite) : (fixed s l ws).keeps m s := Or.inl rfl

/-- An instruction whose part at each member is one result of fixed latency, which may rest on the member and on what cores do not
change, gives that result at once. -/
theorem givesNow_fixed {i : Instr} (l : Nat) {w : State → Member → RegWrite} (ht : traceType i = none)
    (hw : ∀ s z m, OnlyCores s z → w z m = w s m)
    (he : ∀ s, exec i s = .next (runCore i (fun x z => fixed z l [w z x]) s)) : GivesNow i (fun s m => [w s m]) (fun _ _ => 0) := by
  intro s m hp
  rw [he]
  exact writesNow (fun _ _ => fixed_keeps ..) ht hp (fun z hz => by rw [hw s z m hz]; rfl) (List.pairwise_singleton ..)

/-! ## Constants (R117) -/

theorem add_signExtend_eq_ofInt (x : Word) (k : BitVec 12) : x + k.signExtend 64 = BitVec.ofInt 64 (x.toInt + k.toInt) := by
  rw [BitVec.ofInt_add, BitVec.ofInt_toInt]; rfl

theorem adpc_value (pc : Word) (k : BitVec 20) :
    blockStart pc + k.signExtend 64 <<< 12 = BitVec.ofInt 64 ((pc.toNat / 64 * 64 : Nat) + k.toInt * 2 ^ 12) := by
  rw [BitVec.ofInt_add, BitVec.ofInt_mul, BitVec.ofInt_natCast, BitVec.shiftLeft_eq_mul_twoPow]; rfl

theorem append_setWidth_eq_ofNat (k : BitVec 32) (x : Word) :
    k ++ x.setWidth 32 = BitVec.ofNat 64 (k.toNat * 2 ^ 32 + x.toNat % 2 ^ 32) := by
  apply BitVec.eq_of_toNat_eq
  have hk := k.isLt
  rw [BitVec.toNat_append, BitVec.toNat_setWidth, BitVec.toNat_ofNat, ← Nat.shiftLeft_add_eq_or_of_lt (Nat.mod_lt _ (by decide)),
    Nat.shiftLeft_eq]
  omega

/-! ## Special registers (R15, R118) -/

theorem OnlyCores.specialReg {s z : State} (h : OnlyCores s z) (g : Workgroup) (t : Thread) (r : SReg) :
    specialReg z g t r = specialReg s g t r := by
  rw [h]; rfl

theorem diesPerDevice_eq (m : Fin 3) : diesPerDevice m = [4, 2, 1].getD m.val 0 := by
  revert m; decide

/-- The number of a die within its device (R15). -/
theorem specialReg_die {s : State} {g : Workgroup} {cx : Context} {k : Nat} (t : Thread) (hc : s.context? g.ctx = some cx)
    (h : g.core.die.val = [4, 2, 1].getD s.mode.val 0 * cx.device + k) : specialReg s g t .die = k := by
  simp only [Machine.specialReg, hc, firstDie, h, diesPerDevice_eq, Nat.mul_comm cx.device, Nat.add_sub_cancel_left]

/-- The place of a workgroup in its grid is its number, written with the grid's sizes as bases (R15). -/
theorem grid_index {n gx gy : Nat} (hx : 0 < gx) (hy : 0 < gy) :
    n % gx < gx ∧ n / gx % gy < gy ∧ n = n % gx + gx * (n / gx % gy + gy * (n / (gx * gy))) := by
  refine ⟨Nat.mod_lt _ hx, Nat.mod_lt _ hy, ?_⟩
  rw [← Nat.div_div_eq_div_mul, Nat.mod_add_div, Nat.mod_add_div]

/-! ## A member's part that changes its own thread in place -/

/-- Each member of a gang's instruction acts on its own thread as it was at issue, in a state in which only cores differ. -/
theorem foldl_stepMember_at {i : Instr} {body : Member → State → MRes} (hk : ∀ m s, (body m s).keeps m s)
    (ms : List Member) (hd : ms.Pairwise (fun a b => a.t.tid ≠ b.t.tid)) (s : State)
    (hs : ∀ m ∈ ms, s.thread? m.wg.uid m.t.tid = some m.t) {m : Member} (hm : m ∈ ms) :
    ∃ z, OnlyCores s z ∧ z.thread? m.wg.uid m.t.tid = some m.t ∧
      (ms.foldl (stepMember i body) s).thread? m.wg.uid m.t.tid = (stepMember i body z m).thread? m.wg.uid m.t.tid := by
  induction ms generalizing s with
  | nil => cases hm
  | cons a as ih =>
    obtain ⟨ha, hd'⟩ := List.pairwise_cons.1 hd
    obtain ⟨hoc, hother, -⟩ := stepMember_local (i := i) (hk a s) (hs a List.mem_cons_self)
    have hs' : ∀ x ∈ as, (stepMember i body s a).thread? x.wg.uid x.t.tid = some x.t := fun x hx => by
      rw [hother _ _ (Or.inr (ha x hx).symm), hs x (List.mem_cons_of_mem _ hx)]
    rw [List.foldl_cons]
    rcases List.mem_cons.1 hm with rfl | hm
    · obtain ⟨-, hrest, -⟩ := foldl_stepMember_local (i := i) hk as hd' _ hs'
      exact ⟨s, OnlyCores.refl s, hs m List.mem_cons_self, hrest _ _ (fun b hb => Or.inr (ha b hb))⟩
    · obtain ⟨z, hz, ht, he⟩ := ih hd' _ hs' hm
      exact ⟨z, hoc.trans hz, ht, he⟩

/-- What a member of a gang on issue holds after its instruction is what its own part leaves. -/
theorem runCore_member {i : Instr} {body : Member → State → MRes} (hk : ∀ m s, (body m s).keeps m s)
    (ht : traceType i = none) {s : State} {m : Member} (hm : OnIssue s m) :
    ∃ z, OnlyCores s z ∧ z.thread? m.wg.uid m.t.tid = some m.t ∧
      (runCore i body s).thread? m.wg.uid m.t.tid = (stepMember i body z m).thread? m.wg.uid m.t.tid := by
  obtain ⟨⟨rest, hi⟩, hw, hmem, -⟩ := hm
  have hs : ∀ x ∈ membersOf m.wg m.gang, ({ s with issue := rest } : State).thread? x.wg.uid x.t.tid = some x.t := fun x hx => by
    obtain ⟨hg, -, -, hx⟩ := mem_membersOf hx
    unfold State.thread?
    rw [hg, show ({ s with issue := rest } : State).wg? m.wg.uid = some m.wg from hw]
    exact hx
  obtain ⟨z, hz, hth, he⟩ := foldl_stepMember_at (i := i) hk _ (membersOf_distinct m.wg m.gang) _ hs hmem
  refine ⟨z, OnlyCores.trans (b := { s with issue := rest }) rfl hz, hth, ?_⟩
  rw [← he]
  unfold runCore runShared runGang
  rw [hi]; dsimp only
  rw [show ({ s with issue := rest } : State).wg? m.wg.uid = some m.wg from hw]; dsimp only
  rw [(OnlyWrites.traceRaised ..).thread?, traceGang_none ht]

/-- wrsr replaces the flags of its thread and goes on (R118). -/
theorem wrsr_thread {c : Common} {a : VReg} {s : State} {m : Member} (hp : Performs s m (.wrsr c a)) :
    ThreadAfter (exec (.wrsr c a) s) m (fun _ t' =>
      t' = Thread.apply { m.t with fflags := (m.t.readV a).setWidth 5 } (stallOf (.wrsr c a)) {}) := by
  obtain ⟨z, hz, ht, he⟩ := runCore_member (i := .wrsr c a) (body := fun x s => .done (s.modThread x.wg.uid x.t.tid
    (fun t => { t with fflags := (x.t.readV a).setWidth 5 })) {}) (fun x _ => Or.inr
      ⟨fun t => { t with fflags := (x.t.readV a).setWidth 5 }, fun _ => rfl, rfl⟩) rfl hp.1
  refine ⟨_, _, rfl, ?_, rfl⟩
  refine he.trans ?_
  unfold stepMember
  rw [hz.gate, hp.2]
  exact State.thread?_modThread_same (f := fun t => t.apply (stallOf (.wrsr c a)) {})
    (State.thread?_modThread_same (f := fun t => { t with fflags := (m.t.readV a).setWidth 5 }) ht rfl) (Thread.apply_tid ..)

end Machine
end Sys2Proof

open Sys2Proof Sys2Proof.Machine

/-- Settles O14: each constant and special register is one result of fixed latency; wrsr acts on its thread in place. -/
theorem constantsAndSpecialRegisters : Obligations.ConstantsAndSpecialRegisters := by
  intro c d a k12 k20 k32
  refine ⟨?_, ?_, ?_, ?_, fun r => ?_, fun s m hp => ?_, fun s g t l hl => ?_⟩
  · simp only [← add_signExtend_eq_ofInt]
    exact givesNow_fixed 4 rfl (fun _ _ _ _ => rfl) (fun _ => rfl)
  · simp only [← adpc_value]
    exact givesNow_fixed 4 rfl (fun _ _ _ _ => rfl) (fun _ => rfl)
  · simp only [BitVec.ofNat_toNat]
    exact givesNow_fixed 4 rfl (fun _ _ _ _ => rfl) (fun _ => rfl)
  · simp only [← append_setWidth_eq_ofNat]
    exact givesNow_fixed 4 rfl (fun _ _ _ _ => rfl) (fun _ => rfl)
  · exact givesNow_fixed 4 rfl (fun s z m h => by rw [h.specialReg]) (fun _ => rfl)
  · obtain ⟨s', t', he, ht, rfl⟩ := wrsr_thread hp
    obtain ⟨hregs, hpreds, -, hfl, hpc, -⟩ := Thread.apply_late { m.t with fflags := (m.t.readV a).setWidth 5 }
      (stallOf (.wrsr c a)) {} rfl
    exact ⟨s', _, he, ht, hfl, hregs, hpreds, hpc⟩
  · refine ⟨rfl, rfl, rfl, rfl, rfl, rfl, rfl, rfl, rfl, rfl, ?_, ?_, ?_, ?_, rfl, ?_, ?_⟩
    iterate 3 · simp only [specialReg, hl]; rfl
    · exact diesPerDevice_eq _
    · exact fun cx hc => ⟨by simp only [specialReg, hc], fun k h => specialReg_die t hc h⟩
    · intro hx hy
      simp only [specialReg, hl]
      exact grid_index hx hy
end

section
/-! PROOFS. A cycle of a core, in three parts: counters decide nothing of a fetch; what a gang formed by the picker is; what a cycle changes. -/

namespace Sys2Proof
namespace Machine

/-! ## Counters decide nothing of a fetch

A core counts its cycle before it compares the forks of its two gangs, so that the order of those must not rest on counters. -/

/-- A state with other counters. -/
def State.recount (s : State) (k : List Counter) : State := { s with counters := k }

/-- An answer whose state has other counters. -/
def recounted {ε α : Type} (k : List Counter) (r : Except ε (α × State)) : Except ε (α × State) :=
  r.map (fun x => (x.1, x.2.recount k))

theorem State.pick_recount (s : State) (k : List Counter) (n : Nat) :
    (s.recount k).pick n = ((s.pick n).1, (s.pick n).2.recount k) := by
  unfold State.pick
  split <;> rfl

/-- A free value, or a given one. -/
theorem pick_or_recount (s : State) (k : List Counter) (b : Bool) (n x : Nat) :
    (if b = true then (s.recount k).pick n else (x, s.recount k)) =
      ((if b = true then s.pick n else (x, s)).1, (if b = true then s.pick n else (x, s)).2.recount k) := by
  cases b
  · rfl
  · exact State.pick_recount s k n

theorem translate_recount (s : State) (k : List Counter) (ctx va : Nat) :
    translate (s.recount k) ctx va = recounted k (translate s ctx va) := by
  have hpaged : ∀ die ofs, translatePaged (s.recount k) ctx die ofs = recounted k (translatePaged s ctx die ofs) := fun die ofs => by
    unfold translatePaged
    rw [show (s.recount k).tlb = s.tlb from rfl,
      show walkInEffect (s.recount k) die ofs = walkInEffect s die ofs from rfl]
    cases s.tlb.find? (fun t => t.covers die ofs) with
    | some t => rfl
    | none => cases walkInEffect s die ofs <;> rfl
  unfold translate
  dsimp only
  rw [show (s.recount k).module = s.module from rfl, hpaged]
  split_ifs <;> rfl

/-- The place of a byte: one further on than the byte before it in the same page, or translated. -/
def nextPlace (s : State) (ctx va : Nat) (prev : Option Place) : Except Code (Place × State) :=
  match prev with
  | some p => if va % 65536 = 0 then translate s ctx va else .ok (p.succ, s)
  | none => translate s ctx va

theorem nextPlace_recount (s : State) (k : List Counter) (ctx va : Nat) (prev : Option Place) :
    nextPlace (s.recount k) ctx va prev = recounted k (nextPlace s ctx va prev) := by
  unfold nextPlace
  rw [translate_recount]
  cases prev with
  | none => rfl
  | some p => dsimp only; split_ifs <;> rfl

theorem placesFrom_succ (s : State) (ctx va n : Nat) (prev : Option Place) :
    placesFrom s ctx va (n + 1) prev =
      (nextPlace s ctx va prev).bind (fun x => (placesFrom x.2 ctx (va + 1) n (some x.1)).map (fun y => (x.1 :: y.1, y.2))) := by
  conv_lhs => unfold placesFrom
  unfold nextPlace
  cases prev with
  | none =>
    dsimp only
    rcases translate s ctx va with c | ⟨p, z⟩
    · rfl
    · dsimp only [Except.bind]
      cases placesFrom z ctx (va + 1) n (some p) <;> rfl
  | some q =>
    dsimp only
    generalize (if va % 65536 = 0 then translate s ctx va else .ok (q.succ, s)) = r
    rcases r with c | ⟨p, z⟩
    · rfl
    · dsimp only [Except.bind]
      cases placesFrom z ctx (va + 1) n (some p) <;> rfl

theorem placesFrom_recount (s : State) (k : List Counter) (ctx va n : Nat) (prev : Option Place) :
    placesFrom (s.recount k) ctx va n prev = recounted k (placesFrom s ctx va n prev) := by
  induction n generalizing s va prev with
  | zero => rfl
  | succ n ih =>
    rw [placesFrom_succ, placesFrom_succ, nextPlace_recount]
    rcases nextPlace s ctx va prev with c | ⟨p, z⟩
    · rfl
    · dsimp only [recounted, Except.map, Except.bind]
      rw [ih]
      cases placesFrom z ctx (va + 1) n (some p) <;> rfl

theorem places_recount (s : State) (k : List Counter) (ctx va n : Nat) :
    places (s.recount k) ctx va n = recounted k (places s ctx va n) := placesFrom_recount s k ctx va n none

theorem isSettled_recount (s : State) (k : List Counter) (va : Nat) : isSettled (s.recount k) va = isSettled s va := by
  have hat : settledAt (s.recount k) va = settledAt s va := by
    unfold settledAt
    rw [show (s.recount k).mcbs = s.mcbs from rfl]
    cases s.mcbs.getD (vaDie va) none with
    | none => rfl
    | some cb =>
      dsimp only
      rw [translate_recount, show (s.recount k).peekNat (ownLoc (vaDie va) cb + 32) 8 = s.peekNat (ownLoc (vaDie va) cb + 32) 8 from rfl]
      generalize translate s 0 _ = r
      rcases r with c | ⟨p, z⟩
      · rfl
      · cases p <;> rfl
  unfold isSettled
  rw [hat]
  cases settledAt s va <;> rfl

theorem notePage_recount (s : State) (k : List Counter) (die : Option Nat) (va : Nat) :
    ∃ k', notePage (s.recount k) die va = (notePage s die va).recount k' := by
  unfold notePage
  rw [isSettled_recount, show countsPage (s.recount k) va = countsPage s va from rfl]
  cases die with
  | none => exact ⟨k, rfl⟩
  | some d =>
    cases countsPage s va
    · exact ⟨k, rfl⟩
    · cases isSettled s va
      · exact ⟨k, rfl⟩
      · exact ⟨_, rfl⟩

theorem readEntry_recount (s : State) (k : List Counter) (holder : Actor) (c i : Nat) :
    ∃ k', readEntry (s.recount k) holder c i = recounted k' (readEntry s holder c i) := by
  unfold readEntry
  rw [show (s.recount k).context? c = s.context? c from rfl, show (s.recount k).entryCache = s.entryCache from rfl]
  cases s.context? c with
  | none => exact ⟨k, rfl⟩
  | some cx =>
    dsimp only
    split_ifs
    · exact ⟨k, rfl⟩
    cases s.entryCache.find? (fun x => x.holder == holder && x.ctx == c && x.index == i) with
    | some o => exact ⟨k, rfl⟩
    | none =>
      dsimp only
      rw [places_recount]
      rcases places s c (cx.btbase.toNat + 64 * i) 64 with e | ⟨ps, z⟩
      · exact ⟨k, rfl⟩
      dsimp only [recounted, Except.map]
      rw [show anyPoison (z.recount k) ps = anyPoison z ps from rfl,
        show latestBytes (z.recount k) ps = latestBytes z ps from rfl, pick_or_recount]
      generalize (if anyAway ps = true then z.pick (2 ^ 512) else (ofBytes (latestBytes z ps), z)) = r
      cases anyPoison z ps
      · obtain ⟨k', h⟩ := notePage_recount { r.2 with entryCache := ⟨holder, c, i, r.1⟩ :: r.2.entryCache } k holder.die?
          (cx.btbase.toNat + 64 * i)
        exact ⟨k', congrArg (fun x => Except.ok (r.1, x)) h⟩
      · exact ⟨k, rfl⟩

theorem entryOf_recount (s : State) (k : List Counter) (bd : Binder) (b : Nat) :
    ∃ k', entryOf (s.recount k) bd b = recounted k' (entryOf s bd b) := by
  unfold entryOf
  dsimp only
  split
  · exact ⟨k, rfl⟩
  next i _ =>
    obtain ⟨k', h⟩ := readEntry_recount s k (cacheHolder bd.agent) bd.ctx i
    rw [h]
    rcases readEntry s (cacheHolder bd.agent) bd.ctx i with c | ⟨e, z⟩
    · exact ⟨k', rfl⟩
    · dsimp only [recounted, Except.map]
      exact ⟨k', by split_ifs <;> rfl⟩

theorem bindingEntry_recount (s : State) (k : List Counter) (bd : Binder) (b : Nat) :
    ∃ k', bindingEntry (s.recount k) bd b = recounted k' (bindingEntry s bd b) := by
  obtain ⟨k', h⟩ := entryOf_recount s k bd b
  unfold bindingEntry
  rw [h]
  rcases entryOf s bd b with c | ⟨d, z⟩
  · exact ⟨k', rfl⟩
  · dsimp only [recounted, Except.map]
    exact ⟨k', by cases grantedBy bd b d <;> rfl⟩

theorem freeBytes_recount (s : State) (k : List Counter) (n : Nat) : (freeBytes (s.recount k) n).1 = (freeBytes s n).1 := by
  have h := List.foldl_hom (fun x : List Byte × State => (x.1, x.2.recount k)) (l := List.range n) (init := ([], s))
    (g₁ := fun acc _ => (acc.1 ++ [BitVec.ofNat 8 (acc.2.pick 256).1], (acc.2.pick 256).2))
    (g₂ := fun acc _ => (acc.1 ++ [BitVec.ofNat 8 (acc.2.pick 256).1], (acc.2.pick 256).2))
    (fun x _ => by simp only [State.pick_recount])
  have hbytes := congrArg Prod.fst h
  exact hbytes

/-- The writes that a fetch sees, with other counters. -/
def Sight.recount (g : Sight) (k : List Counter) : Sight := { g with s := g.s.recount k }

theorem sightOf_recount (a : ReadAs) (v : MemView) (locs : List Nat) (g : Sight) (k : List Counter) (r : WriteRec) :
    sightOf a v locs (g.recount k) r = (sightOf a v locs g r).recount k := by
  unfold sightOf
  rw [show (g.recount k).s = g.s.recount k from rfl, State.pick_recount, State.pick_recount,
    show (g.s.recount k).mode = g.s.mode from rfl,
    show forced (g.s.recount k) a v locs r = forced g.s a v locs r from rfl,
    show passedOver (g.s.recount k) a locs r = passedOver g.s a locs r from rfl,
    show (g.recount k).sel = g.sel from rfl]
  dsimp only
  split
  · split_ifs <;> rfl
  · split <;> rfl

theorem sightFor_fetch_recount (s : State) (k : List Counter) (agent : Actor) (kind : Option PageKind) (v : MemView) (locs : List Nat) :
    sightFor (s.recount k) ⟨agent, .fetch, kind⟩ v locs = (sightFor s ⟨agent, .fetch, kind⟩ v locs).recount k := by
  unfold sightFor seeable
  rw [if_neg (fun h => h.1 rfl), if_neg (fun h => h.1 rfl)]
  dsimp only
  rw [State.pick_recount, show (s.recount k).hist = s.hist from rfl,
    show mustSee (s.recount k) ⟨agent, .fetch, kind⟩ v locs = mustSee s ⟨agent, .fetch, kind⟩ v locs from rfl]
  dsimp only
  exact List.foldl_hom (Sight.recount · k) (init := ⟨[], [], _⟩) (fun g r => sightOf_recount _ _ _ g k r)

theorem readPart_fetch_recount (s : State) (k : List Counter) (agent : Actor) (v : MemView) (ps : List Place) :
    (readPart (s.recount k) agent v .fetch ps).1 = (readPart s agent v .fetch ps).1 := by
  have hmode : ∀ kind, partMode .fetch kind = .fetch := fun kind => by cases kind with
    | none => rfl
    | some p => cases p <;> rfl
  unfold readPart
  cases anyAway ps
  · simp only [Bool.false_eq_true, if_false, ne_eq, not_true_eq_false, and_false, hmode]
    unfold readCut
    rw [sightFor_fetch_recount]
    rfl
  · exact freeBytes_recount s k ps.length

/-- The word fetched does not rest on counters. -/
theorem fetchWord_recount (s : State) (k : List Counter) (bd : Binder) (since : Nat) (pc : Word) :
    (fetchWord (s.recount k) bd since pc).map Prod.fst = (fetchWord s bd since pc).map Prod.fst := by
  obtain ⟨k', hb⟩ := bindingEntry_recount s k bd 62
  unfold fetchWord
  rw [hb]
  rcases bindingEntry s bd 62 with c | ⟨d, z⟩
  · rfl
  dsimp only [recounted, Except.map]
  cases checkSpan d (8 * pc.toNat) 64 {} with
  | error c => rfl
  | ok _ =>
    rw [show checkPeers (z.recount k') d = checkPeers z d from rfl, places_recount]
    cases checkPeers z d with
    | error c => rfl
    | ok _ =>
      rcases places z bd.ctx (d.base + pc.toNat) 8 with c | ⟨ps, y⟩
      · rfl
      dsimp only [recounted, Except.map]
      rw [show anyPoison (y.recount k') ps = anyPoison y ps from rfl]
      cases anyPoison y ps with
      | true => rfl
      | false =>
        obtain ⟨k₂, hn⟩ := notePage_recount y k' bd.agent.die? (d.base + pc.toNat)
        simp only [Bool.false_eq_true, if_false]
        rw [hn, readPart_fetch_recount]

/-- Whether a gang is at a fork does not rest on counters. -/
theorem forks_recount (s : State) (k : List Counter) (g : Workgroup) (tids : List Nat) :
    forks (s.recount k) g tids = forks s g tids := by
  unfold forks
  cases membersOf g tids with
  | nil => rfl
  | cons x _ =>
    have h := fetchWord_recount s k (binderOf s g x.t) (sinceOf s g) x.t.pc
    dsimp only
    unfold fetchThread
    rw [show binderOf (s.recount k) g x.t = binderOf s g x.t from rfl, show sinceOf (s.recount k) g = sinceOf s g from rfl]
    generalize fetchWord (s.recount k) (binderOf s g x.t) (sinceOf s g) x.t.pc = r at h ⊢
    generalize fetchWord s (binderOf s g x.t) (sinceOf s g) x.t.pc = r' at h ⊢
    rcases r with c | ⟨w, y⟩ <;> rcases r' with c' | ⟨w', y'⟩
    · rfl
    · cases h
    · cases h
    · cases Except.ok.inj h
      dsimp only
      cases decodeWord w with
      | error _ => rfl
      | ok i => cases i <;> rfl

/-! ## Forming a gang (R31, R33, R34) -/

theorem keyBelow_iff {a b : Thread} :
    keyBelow a b = true ↔ b.depth < a.depth ∨ (a.depth = b.depth ∧ a.pc.toNat < b.pc.toNat) := by
  simp [keyBelow]

theorem sameKey_iff {a b : Thread} : sameKey a b = true ↔ a.depth = b.depth ∧ a.pc = b.pc := by
  simp [sameKey]

/-- Of equal keys each is below what the other is below. -/
theorem keyBelow_congr {t a b : Thread} (h : sameKey a b = true) : keyBelow t a = keyBelow t b := by
  obtain ⟨hd, hp⟩ := sameKey_iff.1 h
  simp only [keyBelow, hd, hp]

/-- No thread is of a lower key than the lowest. -/
theorem lowest_spec {ts : List Thread} {k : Thread} (h : lowest ts = some k) : k ∈ ts ∧ ∀ t ∈ ts, keyBelow t k = false := by
  induction ts generalizing k with
  | nil => cases h
  | cons t ts ih =>
    have hirr : keyBelow t t = false := by simp [keyBelow]
    unfold lowest at h
    cases hu : lowest ts with
    | none =>
      rw [hu] at h
      cases h
      cases ts with
      | nil => simp [hirr]
      | cons x xs => unfold lowest at hu; cases hx : lowest xs <;> simp [hx] at hu
    | some u =>
      rw [hu] at h
      obtain ⟨hmem, hlow⟩ := ih hu
      cases hb : keyBelow u t
      · obtain rfl : t = k := by simpa [hb] using h
        refine ⟨List.mem_cons_self, fun x hx => ?_⟩
        rcases List.mem_cons.1 hx with rfl | hx
        · exact hirr
        · have hxu := hlow x hx
          rw [Bool.eq_false_iff, ne_eq, keyBelow_iff] at hb hxu ⊢
          omega
      · obtain rfl : u = k := by simpa [hb] using h
        refine ⟨List.mem_cons_of_mem _ hmem, fun x hx => ?_⟩
        rcases List.mem_cons.1 hx with rfl | hx
        · rw [keyBelow_iff] at hb
          rw [Bool.eq_false_iff, ne_eq, keyBelow_iff]
          omega
        · exact hlow x hx

theorem mem_onePerLane {ts : List Thread} {t : Thread} :
    t ∈ onePerLane ts ↔ t ∈ ts ∧ ∀ u ∈ ts, u.lane = t.lane → t.warp ≤ u.warp := by
  simp [onePerLane]

/-- A list with a thread has one of the lowest warp number on that thread's lane. -/
theorem onePerLane_ne_nil {ts : List Thread} {t : Thread} (h : t ∈ ts) : onePerLane ts ≠ [] := by
  obtain ⟨m, hm, hmin⟩ := (ts.filter (fun u => u.lane == t.lane)).toFinset.exists_min_image Thread.warp
    ⟨t, by simp [h]⟩
  simp only [List.mem_toFinset, List.mem_filter, beq_iff_eq] at hm hmin
  have : m ∈ onePerLane ts := mem_onePerLane.2 ⟨hm.1, fun u hu hl => hmin u ⟨hu, hl.trans hm.2⟩⟩
  exact List.ne_nil_of_mem this

/-- A gang of some threads: they are of the lowest key, on different lanes, with no stall left. -/
theorem gangOf_gang {ts : List Thread} {park unpark : Bool} {tids : List Nat} (h : gangOf ts park = .gang tids unpark) :
    unpark = park ∧ tids ≠ [] ∧ ∀ tid ∈ tids, ∃ t ∈ ts, t.tid = tid ∧ t.stall = 0 ∧ (∀ t' ∈ ts, keyBelow t' t = false) ∧
      ∀ t' ∈ ts, t'.tid ∈ tids → t'.lane = t.lane → t'.warp = t.warp := by
  unfold gangOf at h
  cases hk : lowest ts with
  | none => rw [hk] at h; cases h
  | some k =>
    obtain ⟨hmem, hlow⟩ := lowest_spec hk
    rw [hk] at h
    dsimp only at h
    generalize hms : onePerLane (ts.filter (sameKey k)) = ms at h
    have hin : ∀ t ∈ ms, t ∈ ts ∧ sameKey k t = true ∧ ∀ u ∈ ms, u.lane = t.lane → t.warp ≤ u.warp := fun t ht => by
      subst hms
      obtain ⟨h1, h2⟩ := mem_onePerLane.1 ht
      obtain ⟨h3, h4⟩ := List.mem_filter.1 h1
      exact ⟨h3, h4, fun u hu => h2 u (mem_onePerLane.1 hu).1⟩
    cases hs : ms.all (fun t => t.stall == 0) <;> rw [hs] at h
    · cases h
    obtain ⟨rfl, rfl⟩ : ms.map (·.tid) = tids ∧ park = unpark := by simpa using h
    refine ⟨rfl, ?_, fun tid ht => ?_⟩
    · rw [ne_eq, List.map_eq_nil_iff, ← hms]
      exact onePerLane_ne_nil (List.mem_filter.2 ⟨hmem, by simp [sameKey_iff]⟩)
    · obtain ⟨t, hm, rfl⟩ := List.mem_map.1 ht
      obtain ⟨h1, h2, h3⟩ := hin t hm
      refine ⟨t, h1, rfl, by simpa using List.all_eq_true.1 hs t hm, fun t' ht' => ?_, fun t' _ hin' hl => ?_⟩
      · rw [← keyBelow_congr h2]; exact hlow t' ht'
      · obtain ⟨u, hu, he⟩ := List.mem_map.1 hin'
        have hlane : u.lane = t'.lane := by unfold Thread.lane; rw [he]
        have hwarp : u.warp = t'.warp := by unfold Thread.warp; rw [he]
        have h4 := (hin u hu).2.2 t hm (by rw [hlane, hl])
        have h5 := h3 u hu (by rw [hlane, hl])
        omega

/-- A thread of a workgroup that may go (R32). -/
def Ready (s : State) (g : Workgroup) (t : Thread) : Prop := t ∈ g.threads ∧ readyThread s g t = true

theorem offerOf_gang {s : State} {g : Workgroup} {tids : List Nat} {unpark : Bool} (h : offerOf s g = .gang tids unpark) :
    formGang s g = .gang tids unpark ∧ gangWaits s g tids = false := by
  unfold offerOf at h
  cases hf : formGang s g <;> rw [hf] at h
  case gang ts u =>
    cases hw : gangWaits s g ts
    · obtain ⟨rfl, rfl⟩ : ts = tids ∧ u = unpark := by simpa [hw] using h
      exact ⟨rfl, hw⟩
    · simp [hw] at h
  all_goals cases h

theorem formGang_running {s : State} {g : Workgroup} {tids : List Nat} {unpark : Bool} (h : formGang s g = .gang tids unpark) :
    g.halted = false ∧ noticed s g = false := by
  unfold formGang at h
  split at h
  · cases h
  next hrun => exact Bool.or_eq_false_iff.1 (Bool.eq_false_iff.2 hrun)

/-- A gang kept formed is offered as it was (R11). -/
theorem formGang_kept {s : State} {g : Workgroup} {tids : List Nat} {unpark : Bool} (h : formGang s g = .gang tids unpark)
    (hf : g.formed ≠ []) :
    tids = g.formed ∧ (unpark = true ↔ ∃ t ∈ g.threads, t.tid ∈ tids ∧ t.parked = true) := by
  unfold formGang at h
  split at h
  · cases h
  · rw [if_pos (by simpa using hf)] at h
    obtain ⟨rfl, rfl⟩ := Offer.gang.inj h
    simp

/-- The threads a new gang is taken from: of those that are ready, the ones not parked, or all where all are parked (R33, R34). -/
theorem formGang_from {s : State} {g : Workgroup} {tids : List Nat} {unpark : Bool} (h : formGang s g = .gang tids unpark)
    (hf : g.formed = []) :
    ∃ ts, gangOf ts unpark = .gang tids unpark ∧ (∀ t, t ∈ ts ↔ Ready s g t ∧ t.parked = unpark) ∧
      (unpark = true ↔ ∀ t, Ready s g t → t.parked = true) := by
  have hempty : ((g.threads.filter (readyThread s g)).filter (fun t => !t.parked)).isEmpty = true ↔
      ∀ t, Ready s g t → t.parked = true := by
    rw [List.isEmpty_iff, List.filter_eq_nil_iff]
    simp [Ready]
  unfold formGang at h
  split at h
  · cases h
  rw [if_neg (by simp [hf])] at h
  dsimp only at h
  split at h
  next hnone =>
    have hall := hempty.1 hnone
    obtain rfl := (gangOf_gang h).1
    refine ⟨_, h, fun t => ?_, iff_of_true rfl hall⟩
    rw [List.mem_filter]
    exact ⟨fun hr => ⟨hr, hall t hr⟩, And.left⟩
  next hsome =>
    obtain rfl := (gangOf_gang h).1
    refine ⟨_, h, fun t => ?_, iff_of_false Bool.false_ne_true (fun hall => hsome (hempty.2 hall))⟩
    rw [List.mem_filter, List.mem_filter, Bool.not_eq_true']
    rfl

/-- A gang formed now: of ready threads of one key on different lanes, with no stall left, and no ready thread that could go is of a
lower key (R31 to R34). -/
theorem formGang_new {s : State} {g : Workgroup} {tids : List Nat} {unpark : Bool} (h : formGang s g = .gang tids unpark)
    (hf : g.formed = []) :
    tids ≠ [] ∧ (unpark = true ↔ ∀ t, Ready s g t → t.parked = true) ∧
    ∀ tid ∈ tids, ∃ t, Ready s g t ∧ t.tid = tid ∧ t.stall = 0 ∧
      (∀ t', Ready s g t' → t'.tid ∈ tids → t'.parked = t.parked → sameKey t' t = true → t'.lane = t.lane → t'.warp = t.warp) ∧
      ∀ t', Ready s g t' → (t.parked = true → t'.parked = true) ∧ (t'.parked = t.parked → keyBelow t' t = false) := by
  obtain ⟨ts, hgang, hts, hall⟩ := formGang_from h hf
  obtain ⟨-, hne, hmem⟩ := gangOf_gang hgang
  refine ⟨hne, hall, fun tid htid => ?_⟩
  obtain ⟨t, hin, ht, hstall, hlow, hlane⟩ := hmem tid htid
  obtain ⟨hready, hpark⟩ := (hts t).1 hin
  have hin' : ∀ t', Ready s g t' → t'.parked = t.parked → t' ∈ ts := fun t' hr hp => (hts t').2 ⟨hr, hp.trans hpark⟩
  exact ⟨t, hready, ht, hstall, fun t' hr hi hp _ hl => hlane t' (hin' t' hr hp) hi hl,
    fun t' hr => ⟨fun hp => hall.1 (hpark ▸ hp) t' hr, fun hp => hlow t' (hin' t' hr hp)⟩⟩

/-! ## The eligible workgroups of a core, in order (R35) -/

theorem mem_picksOf {s : State} {c : CoreId} {p : Pick} (h : p ∈ picksOf s (inOrder s c)) :
    p.g ∈ s.workgroups ∧ p.g.core = c ∧ offerOf s p.g = .gang p.tids p.unpark := by
  obtain ⟨g, hg, ho⟩ := List.mem_filterMap.1 h
  obtain ⟨k, -, hk⟩ := List.mem_flatMap.1 hg
  obtain ⟨hon, hcore⟩ : g ∈ s.workgroups ∧ g.core = c := by simpa [wgsOn] using (List.mem_filter.1 hk).1
  cases hoff : offerOf s g <;> rw [hoff] at ho <;> cases ho
  exact ⟨hon, hcore, hoff⟩

theorem State.wg?_of_mem {s : State} (hn : (s.workgroups.map (·.uid)).Nodup) {g : Workgroup} (h : g ∈ s.workgroups) :
    s.wg? g.uid = some g := by
  unfold State.wg?
  cases hf : s.workgroups.find? (fun x => x.uid == g.uid) with
  | none => exact absurd (beq_self_eq_true g.uid) (List.find?_eq_none.1 hf g h)
  | some g' =>
    have hu : g'.uid = g.uid := by simpa using List.find?_some hf
    rw [List.inj_on_of_nodup_map hn (List.mem_of_find?_eq_some hf) h hu]

/-- Two picks of a core are of different workgroups. -/
theorem picksOf_distinct {s : State} (hn : (s.workgroups.map (·.uid)).Nodup) (c : CoreId) :
    (picksOf s (inOrder s c)).Pairwise (fun p q => p.g.uid ≠ q.g.uid) := by
  have horder : (inOrder s c).Pairwise (fun a b => a.uid ≠ b.uid) := by
    refine List.pairwise_flatMap.2 ⟨fun k _ => ?_, ?_⟩
    · exact (List.pairwise_map.1 hn).sublist (List.filter_sublist.trans List.filter_sublist)
    · refine List.Pairwise.imp_of_mem (fun {k k'} hk hk' hlt a ha b hb => ?_) List.pairwise_lt_range
      simp only [wgsOn, List.mem_filter, beq_iff_eq] at ha hb
      intro he
      obtain rfl := List.inj_on_of_nodup_map hn ha.1.1 hb.1.1 he
      have := List.mem_range.1 hk'
      omega
  refine List.Pairwise.filterMap _ (fun a b hab p hp q hq => ?_) horder
  cases ha : offerOf s a <;> rw [ha] at hp <;> cases hp
  cases hb : offerOf s b <;> rw [hb] at hq <;> cases hq
  exact hab

/-! ## A cycle passes for every stall count -/

/-- A workgroup after one cycle of a core. -/
def tickedWg (c : CoreId) (g : Workgroup) : Workgroup :=
  if g.core = c then { g with threads := g.threads.map (fun t => { t with stall := t.stall - 1 }) } else g

@[simp] theorem tickedWg_uid (c : CoreId) (g : Workgroup) : (tickedWg c g).uid = g.uid := by
  unfold tickedWg; split <;> rfl

theorem tickStalls_workgroups (s : State) (c : CoreId) : (tickStalls s c).workgroups = s.workgroups.map (tickedWg c) := rfl

theorem tickStalls_nodup {s : State} (c : CoreId) (hn : (s.workgroups.map (·.uid)).Nodup) :
    ((tickStalls s c).workgroups.map (·.uid)).Nodup := by
  rw [tickStalls_workgroups, List.map_map, show (fun g : Workgroup => g.uid) ∘ tickedWg c = (·.uid) from funext (tickedWg_uid c)]
  exact hn

theorem thread?_tickedWg (c : CoreId) (g : Workgroup) (tid : Nat) :
    (tickedWg c g).thread? tid = (g.thread? tid).map (fun t => { t with stall := if g.core = c then t.stall - 1 else t.stall }) := by
  unfold tickedWg Workgroup.thread?
  by_cases h : g.core = c
  · simp only [h, if_true, List.find?_map]; rfl
  · simp only [h, if_false, Option.map_id']

theorem thread?_tickStalls {s : State} (c : CoreId) {u tid : Nat} {t : Thread} (h : s.thread? u tid = some t) :
    ∃ g, s.wg? u = some g ∧
      (tickStalls s c).thread? u tid = some { t with stall := if g.core = c then t.stall - 1 else t.stall } := by
  unfold State.thread? at h ⊢
  cases hg : s.wg? u with
  | none => rw [hg] at h; cases h
  | some g =>
    rw [hg] at h
    have hz : (tickStalls s c).wg? u = some (tickedWg c g) := by
      unfold State.wg? at hg ⊢
      rw [tickStalls_workgroups, List.find?_map,
        show (fun x : Workgroup => x.uid == u) ∘ tickedWg c = fun x => x.uid == u from funext (fun x => by simp), hg]
      rfl
    refine ⟨g, rfl, ?_⟩
    rw [hz]
    exact (thread?_tickedWg c g tid).trans (by rw [show g.thread? tid = some t from h]; rfl)

/-! ## Gangs that go to issue -/

/-- A workgroup whose gang has gone to issue. -/
def issuedWg (p : Pick) : Workgroup :=
  { p.g with formed := [], threads := if p.unpark then p.g.threads.map (fun t => { t with parked := false }) else p.g.threads }

/-- A state in which a gang has gone to issue. -/
def issued (s : State) (p : Pick) : State := { s.setWg (issuedWg p) with issue := s.issue ++ [.gang p.g.uid p.tids] }

theorem State.recount_counters (s : State) : s.recount s.counters = s := rfl
theorem State.recount_wg? (s : State) (k : List Counter) (u : Nat) : (s.recount k).wg? u = s.wg? u := rfl
theorem State.recount_issue (s : State) (k : List Counter) : (s.recount k).issue = s.issue := rfl
theorem State.recount_setWg (s : State) (k : List Counter) (g : Workgroup) : (s.recount k).setWg g = (s.setWg g).recount k := rfl
theorem setPointer_recount (s : State) (k : List Counter) (c : CoreId) (n : Nat) :
    setPointer (s.recount k) c n = (setPointer s c n).recount k := rfl
theorem setPointer_wg? (s : State) (c : CoreId) (n u : Nat) : (setPointer s c n).wg? u = s.wg? u := rfl
theorem setPointer_issue (s : State) (c : CoreId) (n : Nat) : (setPointer s c n).issue = s.issue := rfl
theorem pointerOf_recount (s : State) (k : List Counter) (c : CoreId) : pointerOf (s.recount k) c = pointerOf s c := rfl
theorem issued_recount (s : State) (k : List Counter) (p : Pick) : issued (s.recount k) p = (issued s p).recount k := rfl
theorem issued_issue (s : State) (p : Pick) : (issued s p).issue = s.issue ++ [.gang p.g.uid p.tids] := rfl

/-- Whatever the counters are, a count changes them alone. -/
theorem countCore_recount (s : State) (k : List Counter) (c : CoreId) (j n : Nat) : ∃ k', countCore (s.recount k) c j n = s.recount k' := by
  unfold countCore
  split
  · exact ⟨k, rfl⟩
  · exact ⟨_, rfl⟩

theorem countCycle_recount (s : State) (c : CoreId) (gs : List Workgroup) (n : Nat) : ∃ k, countCycle s c gs n = s.recount k := by
  unfold countCycle
  dsimp only
  obtain ⟨k₁, h₁⟩ := countCore_recount s s.counters c 3 (min (gs.filter (fun g => offerOf s g == .held)).length (2 - n))
  obtain ⟨k₂, h₂⟩ := countCore_recount s k₁ c 5 (bitOf (!gs.isEmpty && gs.all (fun g => offerOf s g == .none)))
  rw [State.recount_counters] at h₁
  rw [h₁, h₂]
  exact countCore_recount s k₂ c 7 gs.length

theorem issuePick_eq (s : State) (c : CoreId) (slot : Nat) (p : Pick) : issuePick s c slot p =
    countCore (countCore (countCore (issued s p) c slot 1) c 2 p.tids.length) c 6 (bitOf p.unpark) := rfl

theorem issuePick_recount (s : State) (k : List Counter) (c : CoreId) (slot : Nat) (p : Pick) :
    ∃ k', issuePick (s.recount k) c slot p = (issued s p).recount k' := by
  obtain ⟨k₁, h₁⟩ := countCore_recount (issued s p) k c slot 1
  obtain ⟨k₂, h₂⟩ := countCore_recount (issued s p) k₁ c 2 p.tids.length
  rw [issuePick_eq, issued_recount, h₁, h₂]
  exact countCore_recount ..

/-- The cycle of a core with no eligible workgroup. -/
theorem cycle_none {s : State} {c : CoreId} (h : picksOf (tickStalls s c) (inOrder (tickStalls s c) c) = []) :
    ∃ k, cycle s c = (tickStalls s c).recount k := by
  unfold cycle
  dsimp only
  rw [h]
  exact countCycle_recount ..

/-- The cycle of a core with one eligible workgroup. -/
theorem cycle_one {s : State} {c : CoreId} {p : Pick} (h : picksOf (tickStalls s c) (inOrder (tickStalls s c) c) = [p]) :
    ∃ k, cycle s c = (setPointer (issued (tickStalls s c) p) c (p.g.slot.val + 1)).recount k := by
  unfold cycle
  dsimp only
  rw [h]
  obtain ⟨k, hk⟩ := countCycle_recount (tickStalls s c) c (inOrder (tickStalls s c) c) 1
  obtain ⟨k', hi⟩ := issuePick_recount (tickStalls s c) k c 0 p
  refine ⟨k', ?_⟩
  dsimp only
  rw [hk, hi]
  exact setPointer_recount ..

/-- The cycle of a core whose first two eligible workgroups both need the unit of formats and lanes. -/
theorem cycle_kept {s : State} {c : CoreId} {p q : Pick} {ps : List Pick}
    (h : picksOf (tickStalls s c) (inOrder (tickStalls s c) c) = p :: q :: ps)
    (hu : takesUnit (tickStalls s c) p.g p.tids = true ∧ takesUnit (tickStalls s c) q.g q.tids = true) :
    ∃ k, cycle s c =
      (setPointer ((issued (tickStalls s c) p).setWg { q.g with formed := q.tids }) c q.g.slot.val).recount k := by
  unfold cycle
  dsimp only
  rw [h]
  dsimp only
  rw [if_pos (by rw [hu.1, hu.2]; rfl)]
  obtain ⟨k, hk⟩ := countCycle_recount (tickStalls s c) c (inOrder (tickStalls s c) c) 1
  obtain ⟨k', hi⟩ := issuePick_recount (tickStalls s c) k c 0 p
  obtain ⟨k₂, hc⟩ := countCore_recount (issued (tickStalls s c) p) k' c 4 1
  refine ⟨k₂, ?_⟩
  rw [hk, hi, hc, State.recount_setWg, setPointer_recount]

/-- Two gangs that go to issue in one cycle, in the order of their slots or, as forks, in that of their workgroups' slots (R168). -/
def issuedBoth (s : State) (p q : Pick) : State :=
  if forks s p.g p.tids = true ∧ forks s q.g q.tids = true ∧ q.g.slot < p.g.slot then issued (issued s q) p else issued (issued s p) q

theorem issueBoth_recount (s : State) (k : List Counter) (c : CoreId) (p q : Pick) :
    ∃ k', issueBoth (s.recount k) c p q = (issuedBoth s p q).recount k' := by
  have htwo : ∀ (a b : Pick) (i j : Nat), ∃ k', issuePick (issuePick (s.recount k) c i a) c j b = (issued (issued s a) b).recount k' :=
    fun a b i j => by
      obtain ⟨k₁, h₁⟩ := issuePick_recount s k c i a
      rw [h₁]
      exact issuePick_recount (issued s a) k₁ c j b
  unfold issueBoth issuedBoth
  rw [forks_recount, forks_recount]
  simp only [Bool.and_eq_true, decide_eq_true_eq, and_assoc]
  split
  · exact htwo q p 1 0
  · exact htwo p q 0 1

/-- The cycle of a core that sends two gangs to issue. -/
theorem cycle_both {s : State} {c : CoreId} {p q : Pick} {ps : List Pick}
    (h : picksOf (tickStalls s c) (inOrder (tickStalls s c) c) = p :: q :: ps)
    (hu : ¬(takesUnit (tickStalls s c) p.g p.tids = true ∧ takesUnit (tickStalls s c) q.g q.tids = true)) :
    ∃ k, cycle s c = (setPointer (issuedBoth (tickStalls s c) p q) c (q.g.slot.val + 1)).recount k := by
  unfold cycle
  dsimp only
  rw [h]
  dsimp only
  rw [if_neg (by rwa [Bool.and_eq_true])]
  obtain ⟨k, hk⟩ := countCycle_recount (tickStalls s c) c (inOrder (tickStalls s c) c) 2
  obtain ⟨k', hi⟩ := issueBoth_recount (tickStalls s c) k c p q
  refine ⟨k', ?_⟩
  rw [hk, hi]
  exact setPointer_recount ..

/-! ## What issue changes -/

/-- Besides the issue list, pointers and counters, only parked bits of threads and gangs kept formed differ. -/
def OnlyUnparks (z s : State) : Prop :=
  s = { z with issue := s.issue, corePointers := s.corePointers, workgroups := s.workgroups, counters := s.counters } ∧
  ∀ u tid t, z.thread? u tid = some t → ∃ b, s.thread? u tid = some { t with parked := b }

theorem OnlyUnparks.trans {a b c : State} (h : OnlyUnparks a b) (h' : OnlyUnparks b c) : OnlyUnparks a c := by
  refine ⟨?_, fun u tid t ht => ?_⟩
  · obtain ⟨h, -⟩ := h
    obtain ⟨h', -⟩ := h'
    rw [h] at h'
    exact h'
  · obtain ⟨x, hx⟩ := h.2 u tid t ht
    exact h'.2 u tid { t with parked := x } hx

/-- A change of the issue list, the pointers and the counters alone. -/
theorem OnlyUnparks.of_fields (z : State) (is : List Issuer) (ps : List (CoreId × Nat)) (k : List Counter) :
    OnlyUnparks z { z with issue := is, corePointers := ps, counters := k } :=
  ⟨rfl, fun _ _ t ht => ⟨t.parked, ht⟩⟩

theorem OnlyUnparks.setWg {z : State} {g g' : Workgroup} (hg : z.wg? g'.uid = some g)
    (ht : ∀ tid t, g.thread? tid = some t → ∃ b, g'.thread? tid = some { t with parked := b }) : OnlyUnparks z (z.setWg g') := by
  refine ⟨rfl, fun u tid t h => ?_⟩
  unfold State.thread? at h ⊢
  by_cases hu : u = g'.uid
  · subst hu
    rw [hg] at h
    rw [State.wg?_setWg_same hg]
    exact ht tid t h
  · rw [State.wg?_setWg_other hu]
    exact ⟨t.parked, h⟩

theorem thread?_issuedWg (p : Pick) (tid : Nat) (t : Thread) (h : p.g.thread? tid = some t) :
    ∃ b, (issuedWg p).thread? tid = some { t with parked := b } := by
  unfold Workgroup.thread? at h ⊢
  cases hu : p.unpark
  · refine ⟨t.parked, ?_⟩
    simp only [issuedWg, hu, Bool.false_eq_true, if_false]
    exact h
  · refine ⟨false, ?_⟩
    simp only [issuedWg, hu, if_true, List.find?_map]
    exact congrArg (Option.map (fun t : Thread => { t with parked := false })) h

theorem OnlyUnparks.issued {z : State} {p : Pick} (h : z.wg? p.g.uid = some p.g) : OnlyUnparks z (issued z p) :=
  (OnlyUnparks.setWg (g' := issuedWg p) h (thread?_issuedWg p)).trans (OnlyUnparks.of_fields ..)

theorem wg?_issued_same {z : State} {p : Pick} (h : z.wg? p.g.uid = some p.g) : (issued z p).wg? p.g.uid = some (issuedWg p) :=
  State.wg?_setWg_same (g := issuedWg p) h

theorem wg?_issued_other {z : State} {p : Pick} {u : Nat} (h : u ≠ p.g.uid) : (issued z p).wg? u = z.wg? u :=
  State.wg?_setWg_other (g := issuedWg p) h

theorem pointerOf_setPointer (s : State) (c : CoreId) (n : Nat) : pointerOf (setPointer s c n) c = n % 16 := by
  have hfind : ∀ l : List (CoreId × Nat), (upsert (fun p => p.1 == c) (c, n % 16) l).find? (fun p => p.1 == c) = some (c, n % 16) :=
    fun l => by
      induction l with
      | nil => simp [upsert]
      | cons x xs ih =>
        unfold upsert
        split
        · simp
        next hx => simp [hx, ih]
  unfold pointerOf setPointer
  rw [hfind]

section TwoPicks

variable {z : State} {p q : Pick} (hp : z.wg? p.g.uid = some p.g) (hq : z.wg? q.g.uid = some q.g) (hne : p.g.uid ≠ q.g.uid)
include hp hq hne

theorem OnlyUnparks.issuedTwo : OnlyUnparks z (Machine.issued (Machine.issued z p) q) :=
  (OnlyUnparks.issued hp).trans (OnlyUnparks.issued (by rw [wg?_issued_other hne.symm]; exact hq))

theorem wg?_issuedTwo : (issued (issued z p) q).wg? p.g.uid = some (issuedWg p) ∧
    (issued (issued z p) q).wg? q.g.uid = some (issuedWg q) := by
  rw [wg?_issued_other hne, wg?_issued_same hp]
  exact ⟨rfl, wg?_issued_same (by rw [wg?_issued_other hne.symm]; exact hq)⟩

/-- Two gangs of one cycle: both of their workgroups have issued. -/
theorem issuedBoth_spec : OnlyUnparks z (issuedBoth z p q) ∧ (issuedBoth z p q).wg? p.g.uid = some (issuedWg p) ∧
    (issuedBoth z p q).wg? q.g.uid = some (issuedWg q) := by
  unfold issuedBoth
  split
  · exact ⟨.issuedTwo hq hp hne.symm, (wg?_issuedTwo hq hp hne.symm).symm⟩
  · exact ⟨.issuedTwo hp hq hne, wg?_issuedTwo hp hq hne⟩

/-- A gang that goes to issue, and one that is kept formed. -/
theorem issuedKept_spec : OnlyUnparks z ((issued z p).setWg { q.g with formed := q.tids }) ∧
    ((issued z p).setWg { q.g with formed := q.tids }).wg? p.g.uid = some (issuedWg p) ∧
    ((issued z p).setWg { q.g with formed := q.tids }).wg? q.g.uid = some { q.g with formed := q.tids } := by
  have hq' : (issued z p).wg? q.g.uid = some q.g := by rw [wg?_issued_other hne.symm]; exact hq
  refine ⟨(OnlyUnparks.issued hp).trans (OnlyUnparks.setWg (g' := { q.g with formed := q.tids }) hq' fun _ t h => ⟨t.parked, h⟩),
    ?_, State.wg?_setWg_same (g := { q.g with formed := q.tids }) hq'⟩
  rw [State.wg?_setWg_other (g := { q.g with formed := q.tids }) hne]
  exact wg?_issued_same hp

end TwoPicks

theorem issuedBoth_issue (z : State) (p q : Pick) : (issuedBoth z p q).issue = z.issue ++
    (if forks z p.g p.tids = true ∧ forks z q.g q.tids = true ∧ q.g.slot < p.g.slot
      then [.gang q.g.uid q.tids, .gang p.g.uid p.tids] else [.gang p.g.uid p.tids, .gang q.g.uid q.tids]) := by
  unfold issuedBoth
  split <;> simp [issued]

theorem OnlyUnparks.setPointer_recount {z s : State} (h : OnlyUnparks z s) (c : CoreId) (n : Nat) (k : List Counter) :
    OnlyUnparks z ((setPointer s c n).recount k) :=
  h.trans (OnlyUnparks.of_fields s s.issue _ k)

/-- The workgroup of a pick is the one of its number. -/
theorem picks_wg? {s : State} (hn : (s.workgroups.map (·.uid)).Nodup) (c : CoreId) : ∀ p ∈ picksOf (tickStalls s c) (inOrder (tickStalls s c) c),
    (tickStalls s c).wg? p.g.uid = some p.g :=
  fun _ h => State.wg?_of_mem (tickStalls_nodup c hn) (mem_picksOf h).1

theorem picks_ne {s : State} (hn : (s.workgroups.map (·.uid)).Nodup) {c : CoreId} {p q : Pick} {ps : List Pick}
    (h : picksOf (tickStalls s c) (inOrder (tickStalls s c) c) = p :: q :: ps) : p.g.uid ≠ q.g.uid := by
  have hd := picksOf_distinct (tickStalls_nodup c hn) c
  rw [h] at hd
  exact (List.pairwise_cons.1 hd).1 q List.mem_cons_self

/-- A cycle, past the count of stalls, changes only what goes to issue and parked bits. -/
theorem cycle_onlyUnparks {s : State} (hn : (s.workgroups.map (·.uid)).Nodup) (c : CoreId) :
    OnlyUnparks (tickStalls s c) (cycle s c) := by
  have hwg := picks_wg? hn c
  rcases hp : picksOf (tickStalls s c) (inOrder (tickStalls s c) c) with _ | ⟨p, _ | ⟨q, ps⟩⟩
  · obtain ⟨k, hk⟩ := cycle_none hp
    rw [hk]
    exact OnlyUnparks.of_fields _ _ _ k
  · obtain ⟨k, hk⟩ := cycle_one hp
    rw [hk]
    exact (OnlyUnparks.issued (hwg p (by simp [hp]))).setPointer_recount ..
  · by_cases hu : takesUnit (tickStalls s c) p.g p.tids = true ∧ takesUnit (tickStalls s c) q.g q.tids = true
    · obtain ⟨k, hk⟩ := cycle_kept hp hu
      rw [hk]
      exact (issuedKept_spec (hwg p (by simp [hp])) (hwg q (by simp [hp])) (picks_ne hn hp)).1.setPointer_recount ..
    · obtain ⟨k, hk⟩ := cycle_both hp hu
      rw [hk]
      exact (issuedBoth_spec (hwg p (by simp [hp])) (hwg q (by simp [hp])) (picks_ne hn hp)).1.setPointer_recount ..

/-- A cycle of a core keeps each thread but for its parked bit and its stall count, which it counts down on this core. -/
theorem cycle_thread {s : State} (hn : (s.workgroups.map (·.uid)).Nodup) (c : CoreId) {u tid : Nat} {t : Thread}
    (h : s.thread? u tid = some t) : ∃ t', (cycle s c).thread? u tid = some t' ∧ { t' with parked := t.parked, stall := t.stall } = t ∧
      ∀ g, s.wg? u = some g → t'.stall = if g.core = c then t.stall - 1 else t.stall := by
  obtain ⟨g, hg, hz⟩ := thread?_tickStalls c h
  obtain ⟨b, hb⟩ := (cycle_onlyUnparks hn c).2 u tid _ hz
  refine ⟨_, hb, rfl, fun g' hg' => ?_⟩
  rw [hg] at hg'
  cases hg'
  rfl

/-- The workgroup of a pick has issued: none of its gangs is kept formed, and it unparked if the picker had to. -/
def HasIssued (s : State) (p : Pick) : Prop :=
  ∃ g, s.wg? p.g.uid = some g ∧ g.formed = [] ∧
    g.threads = if p.unpark then p.g.threads.map (fun t => { t with parked := false }) else p.g.threads

/-- A workgroup that has issued stands so past the core's pointer and counters too. -/
theorem HasIssued.of_wg? {s : State} {p : Pick} (h : s.wg? p.g.uid = some (issuedWg p)) (c : CoreId) (n : Nat) (k : List Counter) :
    HasIssued ((setPointer s c n).recount k) p :=
  ⟨issuedWg p, by rw [State.recount_wg?, setPointer_wg?, h], rfl, rfl⟩

/-- A cycle in which one gang goes to issue. -/
theorem cycle_one_spec {s : State} {c : CoreId} (hn : (s.workgroups.map (·.uid)).Nodup) {p : Pick}
    (h : picksOf (tickStalls s c) (inOrder (tickStalls s c) c) = [p]) :
    (cycle s c).issue = s.issue ++ [.gang p.g.uid p.tids] ∧ pointerOf (cycle s c) c = (p.g.slot.val + 1) % 16 ∧ HasIssued (cycle s c) p := by
  obtain ⟨k, hk⟩ := cycle_one h
  rw [hk, State.recount_issue, setPointer_issue, pointerOf_recount, pointerOf_setPointer]
  exact ⟨issued_issue .., rfl, .of_wg? (wg?_issued_same (picks_wg? hn c p (by simp [h]))) ..⟩

/-- A cycle in which one gang goes to issue and a second is kept formed (R11). -/
theorem cycle_kept_spec {s : State} {c : CoreId} (hn : (s.workgroups.map (·.uid)).Nodup) {p q : Pick} {ps : List Pick}
    (h : picksOf (tickStalls s c) (inOrder (tickStalls s c) c) = p :: q :: ps)
    (hu : takesUnit (tickStalls s c) p.g p.tids = true ∧ takesUnit (tickStalls s c) q.g q.tids = true) :
    HasIssued (cycle s c) p ∧ (cycle s c).issue = s.issue ++ [.gang p.g.uid p.tids] ∧ pointerOf (cycle s c) c = q.g.slot.val ∧
      (cycle s c).wg? q.g.uid = some { q.g with formed := q.tids } := by
  obtain ⟨k, hk⟩ := cycle_kept h hu
  have hwg := picks_wg? hn c
  obtain ⟨-, hp, hq⟩ := issuedKept_spec (hwg p (by simp [h])) (hwg q (by simp [h])) (picks_ne hn h)
  rw [hk, State.recount_issue, setPointer_issue, State.recount_wg?, setPointer_wg?, pointerOf_recount, pointerOf_setPointer,
    State.setWg_issue, Nat.mod_eq_of_lt q.g.slot.isLt]
  exact ⟨.of_wg? hp .., issued_issue .., rfl, hq⟩

/-- A cycle in which two gangs go to issue. -/
theorem cycle_both_spec {s : State} {c : CoreId} (hn : (s.workgroups.map (·.uid)).Nodup) {p q : Pick} {ps : List Pick}
    (h : picksOf (tickStalls s c) (inOrder (tickStalls s c) c) = p :: q :: ps)
    (hu : ¬(takesUnit (tickStalls s c) p.g p.tids = true ∧ takesUnit (tickStalls s c) q.g q.tids = true)) :
    HasIssued (cycle s c) p ∧ HasIssued (cycle s c) q ∧ pointerOf (cycle s c) c = (q.g.slot.val + 1) % 16 ∧
      (cycle s c).issue = (issuedBoth (tickStalls s c) p q).issue := by
  obtain ⟨k, hk⟩ := cycle_both h hu
  have hwg := picks_wg? hn c
  obtain ⟨-, hp, hq⟩ := issuedBoth_spec (hwg p (by simp [h])) (hwg q (by simp [h])) (picks_ne hn h)
  rw [hk, State.recount_issue, setPointer_issue, pointerOf_recount, pointerOf_setPointer]
  exact ⟨.of_wg? hp .., .of_wg? hq .., rfl, rfl⟩

/-- What a pick of a core is (R31 to R34). -/
theorem pick_spec {z : State} {c : CoreId} {p : Pick} (h : p ∈ picksOf z (inOrder z c)) :
    p.g ∈ z.workgroups ∧ p.g.core = c ∧ p.g.halted = false ∧ noticed z p.g = false ∧ gangWaits z p.g p.tids = false ∧ p.tids ≠ [] ∧
    formGang z p.g = .gang p.tids p.unpark := by
  obtain ⟨hmem, hcore, hoffer⟩ := mem_picksOf h
  obtain ⟨hform, hwaits⟩ := offerOf_gang hoffer
  obtain ⟨hhalted, hnoticed⟩ := formGang_running hform
  refine ⟨hmem, hcore, hhalted, hnoticed, hwaits, ?_, hform⟩
  by_cases hf : p.g.formed = []
  · exact (formGang_new hform hf).1
  · rw [(formGang_kept hform hf).1]; exact hf

end Machine
end Sys2Proof

open Sys2Proof Sys2Proof.Machine

/-- Settles O52: the picks are split as the cycle splits them, and each is read off the offer of its workgroup. -/
theorem coreCycle : Obligations.CoreCycle := by
  intro s c hn
  refine ⟨fun hdown => ?_, fun hup => ⟨cycle s c, ?_, ?_⟩⟩
  · exact congrArg Host.Outcome.next (if_pos (by simpa using hdown))
  · exact congrArg Host.Outcome.next (if_neg (by simpa using hup))
  obtain ⟨hsame, -⟩ := cycle_onlyUnparks hn c
  refine ⟨fun l => by rw [hsame]; rfl, by rw [hsame]; rfl, by rw [hsame]; rfl, by rw [hsame]; rfl, fun _ _ _ h => cycle_thread hn c h, ?_⟩
  dsimp only
  refine ⟨?_, fun p hp => ?_⟩
  · rcases h : picksOf (tickStalls s c) (inOrder (tickStalls s c) c) with _ | ⟨p, _ | ⟨q, ps⟩⟩
    · obtain ⟨k, hk⟩ := cycle_none h
      rw [hk]
      exact ⟨rfl, rfl⟩
    · exact cycle_one_spec hn h
    · dsimp only
      by_cases hu : takesUnit (tickStalls s c) p.g p.tids = true ∧ takesUnit (tickStalls s c) q.g q.tids = true
      · obtain ⟨hp, hkept⟩ := cycle_kept_spec hn h hu
        rw [if_pos hu]
        exact ⟨hp, hkept⟩
      · obtain ⟨hp, hq, hpointer, hissue⟩ := cycle_both_spec hn h hu
        rw [if_neg hu]
        exact ⟨hp, hq, hpointer, hissue.trans (issuedBoth_issue ..)⟩
  · obtain ⟨hmem, hcore, hhalted, hnoticed, hwaits, hne, hform⟩ := pick_spec hp
    exact ⟨hmem, hcore, hhalted, hnoticed, hwaits, hne, formGang_kept hform, fun hf => (formGang_new hform hf).2⟩
end

section
/-! PROOFS. A dispatcher's restore whose save area waits. -/

namespace Sys2Proof
namespace Machine

/-- A queue of context 0 whose save area lies on die 1. -/
def queueOnDie1 : Queue := ⟨3, 0, 1, false, 0, 4, BitVec.ofNat 64 (2 ^ 50), 65536, false, 0⟩

/-- A launch of that queue with one workgroup saved by the dispatcher of die 0. -/
def savedOnDie1 : Launch := { placedLaunch with queue := 3, saved := [⟨0, 0, 0, 0, 1024⟩] }

/-- Die 1 is under reset, so that the save area waits (R280), and the round-robin pointer of die 0 stands at queue 0. -/
def areaUnderReset : State :=
  { State.reset with
      contexts := [⟨0, 0, true, false, false, 0, 1⟩], queues := [queueOnDie1], launches := [savedOnDie1]
      down := [⟨1, 0, [], false, none, false⟩] }

/-- The choice of the queue moves the pointer past it (R240). -/
theorem chooseQueue_areaUnderReset :
    chooseQueue areaUnderReset 0 = some (queueOnDie1, { areaUnderReset with pointers := [4, 0, 0, 0] }) := rfl

/-- A restore whose area waits leaves the state as it was before the choice. -/
theorem dispatchRestore_areaUnderReset : exec (.dispatchRestore ⟨0, 0, 0⟩) areaUnderReset = .next areaUnderReset := rfl

end Machine
end Sys2Proof

open Sys2Proof Sys2Proof.Machine

/-- Refutes O55: where the area of a dispatcher's save waits, the statement has the state after the choice of the queue, with the
pointer moved, and the model's event leaves the state before the choice. -/
theorem not_scheduling : ¬ Obligations.Scheduling := by
  intro h
  obtain ⟨-, hoffer, -⟩ := h
  obtain ⟨-, -, -, -, -, -, hwait, -⟩ := hoffer areaUnderReset { areaUnderReset with pointers := [4, 0, 0, 0] } ⟨0, 0, 0⟩ queueOnDie1
    savedOnDie1 (by decide) chooseQueue_areaUnderReset rfl
  have hmoved := hwait ⟨0, 0, 0, 0, 1024⟩ ⟨0, 0, true, false, false, 0, 1⟩ (by decide) (by decide) (Or.inl (by decide))
  rw [dispatchRestore_areaUnderReset] at hmoved
  have hpointers : areaUnderReset.pointers = [4, 0, 0, 0] := congrArg State.pointers (Host.Outcome.next.inj hmoved)
  exact absurd hpointers (by decide)
end

section
/-! PROOFS. A member whose guard is false: the frame of what the other members of its gang do (R20, R36). First, the operations that
leave every workgroup and every context as it was. -/

namespace Sys2Proof
namespace Machine

/-! ## States with the same workgroups and contexts -/

/-- Every workgroup, with its threads, and every context is as before. -/
abbrev CoresKept (s s' : State) : Prop := s'.workgroups = s.workgroups ∧ s'.contexts = s.contexts

theorem CoresKept.refl (s : State) : CoresKept s s := ⟨rfl, rfl⟩

theorem CoresKept.trans {a b c : State} (h₁ : CoresKept a b) (h₂ : CoresKept b c) : CoresKept a c :=
  ⟨h₂.1.trans h₁.1, h₂.2.trans h₁.2⟩

theorem CoresKept.foldl {α : Type} {f : State → α → State} (hf : ∀ s x, CoresKept s (f s x)) (xs : List α) (s : State) :
    CoresKept s (xs.foldl f s) := by
  induction xs generalizing s with
  | nil => exact .refl s
  | cons x xs ih => exact (hf s x).trans (ih _)

/-- A fold whose accumulator carries the state in a part of it. -/
theorem CoresKept.foldl_part {α β : Type} (part : β → State) {f : β → α → β}
    (hf : ∀ b x, CoresKept (part b) (part (f b x))) (xs : List α) (b : β) : CoresKept (part b) (part (xs.foldl f b)) := by
  induction xs generalizing b with
  | nil => exact .refl _
  | cons x xs ih => exact (hf b x).trans (ih _)

/-- Writes, translations and their counters touch no core and no context. -/
theorem OnlyWrites.coresKept {a b : State} (h : OnlyWrites a b) : CoresKept a b := by
  rw [h]; exact ⟨rfl, rfl⟩

section
variable {s s' : State}

/-! ## Events, counters and launches -/

theorem pick_coresKept (n : Nat) : CoresKept s (s.pick n).2 := (OnlyWrites.pick s n).coresKept

theorem emit_coresKept (unit kind die code ctx wgh detail : Nat) : CoresKept s (s.emit unit kind die code ctx wgh detail) :=
  (OnlyWrites.emit ..).coresKept

theorem emitFree_coresKept (unit kind die code ctx wgh : Nat) : CoresKept s (s.emitFree unit kind die code ctx wgh) :=
  (pick_coresKept _).trans (emit_coresKept ..)

theorem modLaunch_coresKept (u : Nat) (f : Launch → Launch) : CoresKept s (s.modLaunch u f) := by
  simp [CoresKept]

theorem endLaunch_coresKept (l : Nat) (c : Code) : CoresKept s (endLaunch s l c) := modLaunch_coresKept ..

theorem noteExit_coresKept (l : Nat) (a : Actor) : CoresKept s (noteExit s l a) := modLaunch_coresKept ..

theorem setPontil_coresKept (p : Pontil) : CoresKept s (s.setPontil p) := ⟨rfl, rfl⟩

theorem refreshAges_coresKept : CoresKept s (refreshAges s) := ⟨rfl, rfl⟩

theorem send_coresKept (op : Nat) (tag : Tag) (status : Nat) (payload : List Byte) (ctx : Nat) :
    CoresKept s (s.send op tag status payload ctx) := by
  unfold State.send; split <;> exact ⟨rfl, rfl⟩

/-! ## Stores that wait for their release (R78) and ordered stores seen late -/

theorem dropRec_coresKept (r : WriteRec) : CoresKept s (dropRec s r) := by
  refine CoresKept.trans ?_ (CoresKept.foldl (fun s c => ?_) _ _)
  · exact ⟨rfl, rfl⟩
  · split <;> exact ⟨rfl, rfl⟩

theorem toEnd_coresKept (r : WriteRec) : CoresKept s (toEnd s r) := (dropRec_coresKept r).trans ⟨rfl, rfl⟩

theorem placeLoose_coresKept (rs moved : List WriteRec) (ids : List Nat) : CoresKept s (placeLoose rs moved s ids).1 := by
  fun_induction placeLoose rs moved s ids <;> grind [toEnd_coresKept, pick_coresKept]

theorem releaseUo_coresKept (a : Actor) (sc : Scope) (v : MemView) : CoresKept s (releaseUo s a sc v).1 := by
  unfold releaseUo
  split
  · exact .refl s
  · split <;> exact (placeLoose_coresKept ..).trans ⟨rfl, rfl⟩

theorem releaseDrained_coresKept (p : Pontil) (sc : Scope) : CoresKept s (releaseDrained s p sc).1 :=
  (releaseUo_coresKept ..).trans (releaseUo_coresKept ..)

theorem performParts_coresKept (p : WriteRec → Bool) : CoresKept s (performParts s p) := by
  unfold performParts; split <;> exact ⟨rfl, rfl⟩

theorem ownParts_coresKept (a : Actor) : CoresKept s (ownParts s a) := by
  unfold ownParts
  split
  · exact performParts_coresKept _
  · exact .refl s

theorem lateParts_coresKept (n : Nat) (lone : Bool) : CoresKept s (lateParts s n lone) := by
  unfold lateParts; dsimp only; split <;> exact ⟨rfl, rfl⟩

/-! ## Reads -/

theorem freeBytes_coresKept (n : Nat) : CoresKept s (freeBytes s n).2 :=
  CoresKept.foldl_part (fun acc : List Byte × State => acc.2) (fun _ _ => pick_coresKept _) _ ([], s)

theorem strewn_coresKept (g : Sight) (r : WriteRec) : CoresKept g.s (strewn g r).s := by
  unfold strewn; dsimp only; split <;> exact pick_coresKept _

theorem sightOf_coresKept (a : ReadAs) (v : MemView) (locs : List Nat) (g : Sight) (r : WriteRec) :
    CoresKept g.s (sightOf a v locs g r).s := by
  unfold sightOf
  grind [pick_coresKept]

theorem seeable_coresKept (a : ReadAs) (v : MemView) (locs : List Nat) (rs : List WriteRec) :
    CoresKept s (seeable s a v locs rs).2 := by
  unfold seeable
  grind [pick_coresKept]

theorem sightFor_coresKept (a : ReadAs) (v : MemView) (locs : List Nat) : CoresKept s (sightFor s a v locs).s := by
  unfold sightFor
  dsimp only
  split
  · exact CoresKept.foldl_part Sight.s strewn_coresKept _ _
  · exact (seeable_coresKept ..).trans (CoresKept.foldl_part Sight.s (sightOf_coresKept a v locs) _ _)

theorem readCut_coresKept (a : ReadAs) (v : MemView) (locs : List Nat) : CoresKept s (readCut s a v locs).2.2.1 := by
  refine (sightFor_coresKept a v locs).trans ?_
  unfold readCut
  dsimp only
  split
  · exact CoresKept.trans ⟨rfl, rfl⟩ (performParts_coresKept _)
  · exact ⟨rfl, rfl⟩

theorem readPart_coresKept (a : Actor) (v : MemView) (mode : ReadMode) (ps : List Place) :
    CoresKept s (readPart s a v mode ps).2.2.1 := by
  unfold readPart
  split
  · exact freeBytes_coresKept _
  · dsimp only
    split
    · exact (ownParts_coresKept _).trans (readCut_coresKept ..)
    · exact readCut_coresKept ..

theorem readParts_coresKept (a : Actor) (v : MemView) (mode : ReadMode) (ps : List (List Place)) :
    CoresKept s (readParts s a v mode ps).2.2.1 := by
  induction ps generalizing s v with
  | nil => exact .refl s
  | cons p ps ih => exact (readPart_coresKept ..).trans (ih _)

theorem readWords_coresKept (a : Actor) (v : MemView) (mode : ReadMode) (ps : List (List Place)) :
    CoresKept s (readWords s a v mode ps).s := by
  induction ps generalizing s v with
  | nil => exact .refl s
  | cons p ps ih => exact (readPart_coresKept ..).trans (ih _)

theorem readObject_coresKept (a : Actor) (v : MemView) (ps : List Place) : CoresKept s (readObject s a v ps).2.2.2.1 := by
  unfold readObject
  split
  · exact pick_coresKept _
  · exact readPart_coresKept ..

theorem acquireRels_coresKept (a : Actor) (sc : Scope) (rels : List Rel) (v : MemView) :
    CoresKept s (acquireRels s a sc rels v).1 := by
  refine CoresKept.foldl_part (fun p : State × MemView => p.1) (fun p r => ?_) rels (s, v)
  dsimp only
  split <;> exact ⟨rfl, rfl⟩

theorem takeRels_coresKept (a : Actor) (sc : Scope) (acq : Bool) (rels : List Rel) (v : MemView) :
    CoresKept s (takeRels s a sc acq rels v).1 := by
  unfold takeRels
  dsimp only
  split
  · exact acquireRels_coresKept ..
  · exact .refl s

theorem passOver_coresKept (p : Point) (v : MemView) (locs : List Nat) : CoresKept s (passOver s p v locs) := by
  refine CoresKept.foldl (fun s l => ?_) locs s
  split <;> exact ⟨rfl, rfl⟩

theorem endGang_coresKept : CoresKept s s.endGang := by
  unfold State.endGang; split <;> exact ⟨rfl, rfl⟩

/-! ## Places and writes -/

theorem places_coresKept {ctx va n : Nat} {ps : List Place} (h : places s ctx va n = .ok (ps, s')) : CoresKept s s' :=
  (OnlyWrites.places h).coresKept

theorem blocked_coresKept {write : Bool} {ps : List Place} (h : blocked s write ps = some s') : CoresKept s s' := by
  unfold blocked at h
  grind

theorem farCode_coresKept (va : Nat) (ps : List Place) (read ordered : Bool) : CoresKept s (farCode s va ps read ordered).2 := by
  unfold farCode
  grind [pick_coresKept]

theorem farUo_coresKept (va : Nat) (ps : List Place) : CoresKept s (farUo s va ps).2 := by
  unfold farUo
  grind [pick_coresKept]

theorem notePage_coresKept (die : Option Nat) (va : Nat) : CoresKept s (notePage s die va) := (OnlyWrites.notePage ..).coresKept

theorem noteLines_coresKept (a : Actor) (va : Nat) (ps : List Place) : CoresKept s (noteLines s a va ps) :=
  (OnlyWrites.noteLines ..).coresKept

theorem noteStores_coresKept (cache : Option Nat) (r : Reach) (va : Nat) (ps : List Place) :
    CoresKept s (noteStores s cache r va ps) :=
  (OnlyWrites.foldl (fun s _ => OnlyWrites.noteStore s _ _ _ _) _ _).coresKept

theorem writeObject_coresKept (a : Actor) (v : MemView) (ps : List Place) (mask x : Nat) (rels : List Rel) (rel : Option Rel) :
    CoresKept s (writeObject s a v ps mask x rels rel).1 := (OnlyWrites.commit ..).coresKept

theorem noteObject_coresKept (va : Nat) (ps : List Place) : CoresKept s (noteObject s va ps) := noteStores_coresKept ..

theorem storeBytes_coresKept (w : Writer) (v : MemView) (r : Reach) (whole : Bool) (va : Nat) (ps : List Place) (bs : List Byte) :
    CoresKept s (storeBytes s w v r whole va ps bs).1 :=
  (OnlyWrites.writeParts ..).coresKept.trans (noteStores_coresKept ..)

theorem writeAt_coresKept (w : Writer) (v : MemView) (r : Reach) (va : Nat) (ps : List Place) (bs : List Byte) :
    CoresKept s (writeAt s w v r va ps bs).1 := (OnlyWrites.writeAt ..).coresKept

theorem writeSpan_coresKept {w : Writer} {ctx va : Nat} {v : MemView} {reach : Reach} {bs : List Byte} {v' : MemView}
    (h : writeSpan s w ctx v reach va bs = .ok (s', v')) : CoresKept s s' := by
  unfold writeSpan at h
  split at h
  · cases h
  · rename_i hp
    cases h
    exact (places_coresKept hp).trans (writeAt_coresKept ..)

theorem writeNow_coresKept (w : Writer) (ctx va : Nat) (bs : List Byte) : CoresKept s (writeNow s w ctx va bs) := by
  unfold writeNow
  grind [writeSpan_coresKept, releaseUo_coresKept]

theorem readSpan_coresKept {a : Actor} {ctx va n : Nat} {v : MemView} {mode : ReadMode} {r : SpanRead}
    (h : readSpan s a ctx v mode va n = .ok r) : CoresKept s r.s := by
  unfold readSpan at h
  grind [places_coresKept, noteLines_coresKept, readWords_coresKept]

/-! ## One indivisible step at an object -/

theorem objectStep_coresKept {a : Actor} {sc : Scope} {v : MemView} {va : Nat} {ps : List Place} {f : Nat → Option Nat}
    {n' : Nat} {v' : MemView} (h : objectStep s a sc v va ps f = some (n', s', v')) : CoresKept s s' := by
  unfold objectStep at h
  grind [readObject_coresKept, writeObject_coresKept, noteObject_coresKept]

theorem barrierPlaces_coresKept {ctx va : Nat} {ps : List Place} (h : barrierPlaces s ctx va = some (ps, s')) : CoresKept s s' := by
  unfold barrierPlaces at h
  grind [places_coresKept]

theorem arriveAt_coresKept (a : Actor) (v : MemView) (ctx va : Nat) : CoresKept s (arriveAt s a v ctx va) := by
  unfold arriveAt
  grind [barrierPlaces_coresKept, objectStep_coresKept, notePage_coresKept]

theorem completeOn_coresKept (a : Actor) (sc : Scope) (v : MemView) (ctx va n : Nat) :
    CoresKept s (completeOn s a sc v ctx va n) := by
  unfold completeOn
  grind [barrierPlaces_coresKept, objectStep_coresKept, notePage_coresKept]

/-! ## Table entries and the objects that words name -/

theorem readEntry_coresKept {a : Actor} {c i : Nat} {e : Nat} (h : readEntry s a c i = .ok (e, s')) : CoresKept s s' := by
  unfold readEntry at h
  grind [places_coresKept, notePage_coresKept, pick_coresKept]

theorem entryOf_coresKept {bd : Binder} {b : Nat} {d' : Bound} (h : entryOf s bd b = .ok (d', s')) : CoresKept s s' := by
  unfold entryOf at h
  grind [readEntry_coresKept]

theorem bindingEntry_coresKept {bd : Binder} {b : Nat} {d' : Bound} (h : bindingEntry s bd b = .ok (d', s')) : CoresKept s s' := by
  unfold bindingEntry at h
  grind [entryOf_coresKept]

theorem plainEntry_coresKept {bd : Binder} {b : Nat} {d' : Bound} (h : plainEntry s bd b = .ok (d', s')) : CoresKept s s' := by
  unfold plainEntry at h
  grind [entryOf_coresKept]

theorem bufferFor_coresKept {bd : Binder} {b : Nat} {f : FDef} {d' : Bound} (h : bufferFor s bd b f = .ok (d', s')) :
    CoresKept s s' := by
  unfold bufferFor at h
  grind [entryOf_coresKept]

theorem targetHere_coresKept {x : Member} {m : MemOp} {n : FDef → Nat} {need : Rights} {t : Target}
    (h : targetHere x s m n need = .ok (t, s')) : CoresKept s s' := by
  unfold targetHere targetAt at h
  grind [bufferFor_coresKept]

theorem targetOf_coresKept {x : Member} {m : MemOp} {n : FDef → Nat} {need : Rights} {t : Target}
    (h : targetOf x s m n need = .ok (t, s')) : CoresKept s s' := by
  unfold targetOf at h
  grind [targetHere_coresKept]

theorem targetPlaces_coresKept {t : Target} {n : Nat} {ps : List Place} (h : targetPlaces s t n = .ok (ps, s'))
    : CoresKept s s' := by
  fun_induction targetPlaces s t n generalizing ps s' <;> grind [places_coresKept]

theorem objectIn_coresKept {bd : Binder} {d : Bound} {e : Int} {words align : Nat} {need : Rights} {bad : Code}
    {o : ObjectAt} (h : objectIn s bd d e words need align bad = .ok (o, s')) : CoresKept s s' := by
  unfold objectIn at h
  grind [places_coresKept, farUo_coresKept]

theorem objectAt_coresKept {bd : Binder} {b : Nat} {e : Int} {words align : Nat} {need : Rights} {bad : Code}
    {o : ObjectAt} (h : objectAt s bd b e words need align bad = .ok (o, s')) : CoresKept s s' := by
  unfold objectAt at h
  split at h
  · cases h
  · rename_i hp
    exact (plainEntry_coresKept hp).trans (objectIn_coresKept h)

theorem objectOf_coresKept {x : Member} {m : MemOp} {words align : Nat} {need : Rights} {bad : Code} {o : ObjectAt}
    (h : objectOf x s m words need align bad = .ok (o, s')) : CoresKept s s' := objectAt_coresKept h

theorem barrierOf_coresKept {x : Member} {m : MemOp} {o : ObjectAt} (h : barrierOf x s m = .ok (o, s')) : CoresKept s s' :=
  objectAt_coresKept h

theorem boardOf_coresKept {x : Member} {b : Fin 64} {k : Option Int} {o : ObjectAt}
    (h : boardOf x s b k = .ok (o, s')) : CoresKept s s' := by
  unfold boardOf at h
  dsimp only at h
  split at h
  · cases h
  · rename_i hb
    refine (bindingEntry_coresKept hb).trans ?_
    grind [places_coresKept, farUo_coresKept]

theorem recordOf_coresKept {x : Member} {m : MemOp} {need : Rights} {o : ObjectAt}
    (h : recordOf x s m need = .ok (o, s')) : CoresKept s s' := by
  unfold recordOf at h
  grind [objectOf_coresKept]

/-! ## Elements -/

theorem readElem_coresKept {bd : Binder} {v : MemView} {mode : ReadMode} {d : Bound} {lo w : Nat} {n' : Nat} {rels : List Rel}
    {v' : MemView} (h : readElem s bd v mode d lo w = .ok (n', rels, s', v')) : CoresKept s s' := by
  unfold readElem at h
  grind [places_coresKept, notePage_coresKept, readParts_coresKept]

theorem readElems_coresKept {t : Target} {v : MemView} {mode : ReadMode} {n : Nat} {xs : List Nat} {rels : List Rel}
    {v' : MemView} (h : readElems s t v mode n = .ok (xs, rels, s', v')) : CoresKept s s' := by
  fun_induction readElems s t v mode n generalizing xs rels s' v' <;> grind [readElem_coresKept]

theorem writeElem_coresKept {bd : Binder} {wr : Writer} {v : MemView} {reach : Reach} {d : Bound} {lo w x : Nat}
    {v' : MemView} (h : writeElem s bd wr v reach d lo w x = .ok (s', v')) : CoresKept s s' := by
  unfold writeElem at h
  grind [places_coresKept, notePage_coresKept, readParts_coresKept, storeBytes_coresKept]

theorem writeElems_coresKept {t : Target} {w : Writer} {v : MemView} {reach : Reach} {i : Nat} {xs : List Nat}
    {v' : MemView} (h : writeElems s t w v reach i xs = .ok (s', v')) : CoresKept s s' := by
  fun_induction writeElems s t w v reach i xs <;> grind [writeElem_coresKept]

theorem storeElems_coresKept {t : Target} {w : Writer} {v : MemView} {reach : Reach} {ps : List Place} {xs : List Nat}
    {v' : MemView} (h : storeElems s t w v reach ps xs = .ok (s', v')) : CoresKept s s' := by
  unfold storeElems at h
  grind [writeElems_coresKept, ownParts_coresKept, lateParts_coresKept]

theorem requestTag_coresKept (die va : Nat) : CoresKept s (requestTag s die va).2 := by
  unfold requestTag
  grind [pick_coresKept]

theorem setFull_coresKept (a : Actor) (granule : Nat) (rels : List Rel) : CoresKept s (setFull s a granule rels) := ⟨rfl, rfl⟩

theorem checkAtomic_coresKept {t : Target} {sc : Scope} {ps : List Place} (h : checkAtomic s t sc = .ok (ps, s'))
    : CoresKept s s' := by
  unfold checkAtomic at h
  grind [targetPlaces_coresKept]

theorem atomStep_coresKept (op : AtomOp) (t : Target) (sc : Scope) (ord : Order) (hint : Bool) (ps : List Place) (x y : Nat)
    (v : MemView) : CoresKept s (atomStep s op t sc ord hint ps x y v).2.2.1 := by
  unfold atomStep
  grind [notePage_coresKept, readPart_coresKept, takeRels_coresKept, passOver_coresKept, storeBytes_coresKept]

theorem resetObject_coresKept (o : ObjectAt) (sc : Scope) (v : MemView) (ps : List Place) (x : Nat) :
    CoresKept s (resetObject s o sc v ps x).1 := (writeObject_coresKept ..).trans (noteObject_coresKept ..)

theorem boardPost_coresKept {o : ObjectAt} {sc : Scope} {v : MemView} {k : Nat} {val : Word} {n' : Nat} {vm : ViewMask}
    {v' : MemView} (h : boardPost s o sc v k val = some (n', vm, s', v')) : CoresKept s s' := by
  unfold boardPost at h
  grind [readObject_coresKept, takeRels_coresKept, writeObject_coresKept, noteObject_coresKept]

end

end Machine
end Sys2Proof
end

section
/-! PROOFS. A member whose guard is false: acceptance and completion of launches, engines and saves leave the cores and contexts as
they were; what a save drops and a restore adds is said in the next part. -/

namespace Sys2Proof
namespace Machine

section
variable {s s' : State}

/-! ## Acceptance (R235) -/

theorem freshEntry_coresKept {cx : Context} {i : Nat} {d : Bound} (h : freshEntry s cx i = some (d, s')) : CoresKept s s' := by
  unfold freshEntry at h
  grind [places_coresKept, pick_coresKept]

/-- A check of acceptance that passes has only translated and drawn. -/
def Check.KeepsCores {α : Type} (k : Check α) : Prop := ∀ s a s', k s = .ok (a, s') → CoresKept s s'

theorem Check.KeepsCores.pure {α : Type} (a : α) : Check.KeepsCores (Pure.pure a : Check α) := by
  intro s b s' h
  cases h
  exact .refl s

theorem Check.KeepsCores.bind {α β : Type} {k : Check α} {f : α → Check β} (hk : k.KeepsCores)
    (hf : ∀ a, (f a).KeepsCores) : Check.KeepsCores (k >>= f) := by
  intro s b s' h
  change (k s >>= fun p => f p.1 p.2) = .ok (b, s') at h
  cases hs : k s with
  | error c => rw [hs] at h; cases h
  | ok p =>
    rw [hs] at h
    exact (hk s p.1 p.2 hs).trans (hf p.1 p.2 b s' h)

theorem check_keepsCores (b : Bool) (c : Code) : (check b c).KeepsCores := by
  intro s a s' h
  unfold check at h
  split at h <;> cases h
  exact .refl s

theorem namedEntry_keepsCores (cx : Context) (i : Nat) : (namedEntry cx i).KeepsCores := by
  intro s a s' h
  unfold namedEntry at h
  grind [freshEntry_coresKept]

theorem checkObject_keepsCores (cx : Context) (va n : Nat) : (checkObject cx va n).KeepsCores := by
  intro s a s' h
  unfold checkObject at h
  grind

theorem checkBinding_keepsCores (cx : Context) (bnd : Nat) : (checkBinding cx bnd).KeepsCores := by
  unfold checkBinding
  split
  · exact (namedEntry_keepsCores _ _).bind fun _ => check_keepsCores _ _
  · exact check_keepsCores _ _

theorem Check.KeepsCores.forM {α : Type} {f : α → Check Unit} (hf : ∀ a, (f a).KeepsCores) (xs : List α) :
    Check.KeepsCores (xs.forM f) := by
  induction xs with
  | nil => exact .pure ()
  | cons x xs ih => exact (hf x).bind fun _ => ih

/-- The checks of a record after that of its stack: bindings, completion object and dependents. -/
theorem Check.KeepsCores.bindings (cx : Context) (r b : Nat) :
    Check.KeepsCores (do
      (List.range 62).forM (fun n => checkBinding cx (blkBnd b n))
      if recComp r = 0 then Pure.pure () else checkObject cx (recComp r) 16
      (List.range (blkNdep b)).forM (fun d => checkObject cx (blkDep b d) 64)) := by
  have hdeps := Check.KeepsCores.forM (fun d => checkObject_keepsCores cx (blkDep b d) 64) (List.range (blkNdep b))
  refine .bind (.forM (fun n => checkBinding_keepsCores cx _) _) fun _ => ?_
  dsimp only
  split
  · exact hdeps
  · exact (checkObject_keepsCores cx _ _).bind fun _ => hdeps

theorem checkRecord_keepsCores (cx : Context) (r b : Nat) : (checkRecord cx r b).KeepsCores := by
  intro s
  unfold checkRecord
  refine Check.KeepsCores.bind (check_keepsCores _ _) (fun _ => .bind (check_keepsCores _ _) fun _ =>
    .bind (check_keepsCores _ _) fun _ => .bind (check_keepsCores _ _) fun _ => .bind (namedEntry_keepsCores _ _) fun _ =>
    .bind (check_keepsCores _ _) fun _ => ?_) s
  dsimp only
  split
  · exact .bindings cx r b
  · exact (namedEntry_keepsCores _ _).bind fun _ => (check_keepsCores _ _).bind fun _ => .bindings cx r b

theorem acceptRecord_coresKept {cx : Context} {va : Nat} {rels : List Rel} {l : Launch}
    (h : acceptRecord s cx va rels = .ok (l, s')) : CoresKept s s' := by
  unfold acceptRecord at h
  dsimp only at h
  split at h
  · cases h
  · rename_i ha
    refine (readSpan_coresKept ha).trans ?_
    split at h
    · cases h
    · split at h
      · split at h <;> cases h
      · rename_i hq
        refine (readSpan_coresKept hq).trans ?_
        split at h
        · cases h
        · rename_i hc
          cases h
          exact CoresKept.trans (checkRecord_keepsCores _ _ _ _ _ _ hc) ⟨rfl, rfl⟩

theorem leaseOk_coresKept (d : Bound) : CoresKept s (leaseOk s d).2 := by
  unfold leaseOk
  grind [pick_coresKept]

theorem walkLeases_coresKept (cx : Context) (b : Nat) : CoresKept s (walkLeases s cx b).2 := by
  refine CoresKept.foldl_part (fun r : Bool × State => r.2) (fun r i => ?_) _ (true, s)
  split
  · rename_i hf
    exact (freshEntry_coresKept hf).trans (leaseOk_coresKept _)
  · exact .refl _

theorem clearGranules_coresKept (cx : Context) (b : Nat) : CoresKept s (clearGranules s cx b) := by
  unfold clearGranules
  split
  · exact .refl s
  · refine CoresKept.foldl (fun s n => ?_) _ _
    split
    · exact .refl s
    · dsimp only
      split <;> exact ⟨rfl, rfl⟩

theorem putOnQueue_coresKept (l : Launch) (q : Queue) : CoresKept s (putOnQueue s l q) := by
  refine CoresKept.trans ?_ refreshAges_coresKept
  exact CoresKept.trans ⟨rfl, rfl⟩ (writeNow_coresKept ..)

theorem writeStatus_coresKept (a : Actor) (ctx va x : Nat) (v : MemView) : CoresKept s (writeStatus s a ctx va x v).1 := by
  unfold writeStatus
  split
  · rename_i hw
    exact (writeSpan_coresKept hw).trans (releaseUo_coresKept ..)
  · exact .refl s

theorem refuseRecord_coresKept (cx : Context) (va : Nat) (c : Code) (rels : List Rel) :
    CoresKept s (refuseRecord s cx va c rels) := by
  unfold refuseRecord
  grind [writeStatus_coresKept, arriveAt_coresKept, emitFree_coresKept]

section
variable {finish : Nat → State → State} (hf : ∀ u s, CoresKept s (finish u s))
include hf

theorem acceptNow_coresKept {cx : Context} {va : Nat} {rels : List Rel} (h : acceptNow finish s cx va rels = .ok s') :
    CoresKept s s' := by
  unfold acceptNow at h
  split at h
  · cases h
  · rename_i l z ha
    refine (acceptRecord_coresKept ha).trans ?_
    split at h
    · cases h
      exact CoresKept.trans ⟨rfl, rfl⟩ (hf _ _)
    · refine (walkLeases_coresKept cx l.block).trans ?_
      dsimp only at h
      split at h
      · cases h
        exact CoresKept.trans ⟨rfl, rfl⟩ (hf _ _)
      · split at h
        · cases h
          exact (clearGranules_coresKept ..).trans (putOnQueue_coresKept ..)
        · cases h

theorem enqueue_coresKept (ctx va : Nat) (ps : List Place) : CoresKept s (enqueue finish s ctx va ps) := by
  unfold enqueue
  split
  · exact .refl s
  · dsimp only
    split
    · exact acceptNow_coresKept hf ‹_›
    · exact refuseRecord_coresKept ..

end

/-! ## Completion (R243) and the steps of spawn and join (R163) -/

/-- Whichever way a step on a record's first word comes out, the state it answers with has the same cores. -/
def RecStep.KeepsCores (r : RecStep) (s : State) : Prop :=
  match r with
  | .under z => CoresKept s z
  | .waits _ z => CoresKept s z
  | .done _ z _ => CoresKept s z

theorem spawnStep_keepsCores (x : Member) (o : ObjectAt) (sc : Scope) (q : Nat) : (spawnStep s x o sc q).KeepsCores s := by
  unfold spawnStep
  dsimp only
  split
  · exact readObject_coresKept ..
  · exact (readObject_coresKept ..).trans ((writeObject_coresKept ..).trans (noteObject_coresKept ..))

theorem joinStep_keepsCores (a : Actor) (sc : Scope) (v : MemView) (ctx va : Nat) (ps : List Place) :
    (joinStep s a sc v ctx va ps).KeepsCores s := by
  unfold joinStep
  dsimp only
  split
  · exact readObject_coresKept ..
  · split
    · exact readObject_coresKept ..
    · exact (readObject_coresKept ..).trans ((writeObject_coresKept ..).trans (noteObject_coresKept ..))

theorem recordPlaces_coresKept {ctx va : Nat} {ps : List Place} (h : recordPlaces s ctx va = some (ps, s')) : CoresKept s s' := by
  unfold recordPlaces at h
  grind [places_coresKept]

theorem stampStatus_coresKept (a : Actor) (l : Launch) : CoresKept s (stampStatus s a l).1 := writeStatus_coresKept ..

theorem beginCompletion_coresKept (a : Actor) (l : Launch) : CoresKept s (beginCompletion s a l) := by
  unfold beginCompletion
  refine CoresKept.trans ?_ ((modLaunch_coresKept ..).trans refreshAges_coresKept)
  split
  · exact stampStatus_coresKept ..
  · exact (stampStatus_coresKept ..).trans (arriveAt_coresKept ..)

theorem joinDependents_coresKept {finish : Nat → State → State} (hf : ∀ u s, CoresKept s (finish u s)) (a : Actor)
    (l : Launch) (ds : List Nat) : CoresKept s (joinDependents finish a l ds s).2 := by
  induction ds generalizing s with
  | nil => exact .refl s
  | cons d ds ih =>
    unfold joinDependents
    split
    · exact ih
    · rename_i ps z hp
      have hnote := notePage_coresKept (s := z) a.die? (blkDep l.block d)
      have hstep := joinStep_keepsCores (s := notePage z a.die? (blkDep l.block d)) a .system (completionView l) l.ctx.val
        (blkDep l.block d) ps
      refine (recordPlaces_coresKept hp).trans (hnote.trans ?_)
      revert hstep
      generalize joinStep _ a .system (completionView l) l.ctx.val (blkDep l.block d) ps = r
      intro hstep
      cases r with
      | waits k y => exact CoresKept.trans hstep (modLaunch_coresKept ..)
      | under y => exact CoresKept.trans hstep ((modLaunch_coresKept ..).trans ih)
      | done c y v =>
        refine CoresKept.trans hstep (CoresKept.trans ?_ ih)
        split
        · exact enqueue_coresKept hf ..
        · exact .refl y

theorem settleAborts_coresKept (u : Nat) : CoresKept s (settleAborts s u) :=
  CoresKept.trans ⟨rfl, rfl⟩ (CoresKept.foldl (fun _ _ => send_coresKept ..) _ _)

theorem reportCompletion_coresKept (die : Nat) (l : Launch) : CoresKept s (reportCompletion s die l) := by
  unfold reportCompletion
  dsimp only
  split
  · exact emitFree_coresKept ..
  · refine CoresKept.trans ?_ (emitFree_coresKept ..)
    split <;> exact ⟨rfl, rfl⟩

theorem finishLaunch_coresKept (fuel u : Nat) (s : State) : CoresKept s (finishLaunch fuel u s) := by
  induction fuel generalizing u s with
  | zero => exact .refl s
  | succ fuel ih =>
    have hjoin := fun (s : State) a l ds => joinDependents_coresKept (s := s) ih a l ds
    unfold finishLaunch
    grind [beginCompletion_coresKept, stampStatus_coresKept, reportCompletion_coresKept, settleAborts_coresKept]

/-! ## Engines (R193 to R195) -/

theorem bufferPeek_coresKept {ctx o n e : Nat} {d : Bound} (h : bufferPeek s ctx d o n = .ok (e, s')) : CoresKept s s' := by
  unfold bufferPeek at h
  grind [places_coresKept, pick_coresKept]

theorem tableHeader_coresKept {bd : Binder} {k : EngineKind} {d e : Nat} (h : tableHeader s bd k d = .ok (e, s')) :
    CoresKept s s' := by
  unfold tableHeader at h
  split at h
  · cases h; exact .refl s
  · split at h
    · cases h; exact .refl s
    · rename_i hb
      refine (bindingEntry_coresKept hb).trans ?_
      split at h
      · cases h; exact .refl _
      · exact bufferPeek_coresKept h

theorem checkNeeds_coresKept {bd : Binder} {ns : List Need} {bs : List (Nat × Bound)} (h : checkNeeds s bd ns = .ok (bs, s')) :
    CoresKept s s' := by
  fun_induction checkNeeds s bd ns generalizing bs s' <;> grind [bindingEntry_coresKept]

theorem completionOf_coresKept {bd : Binder} {k : EngineKind} {d : Nat} {o : Option ObjectAt}
    (h : completionOf s bd k d = .ok (o, s')) : CoresKept s s' := by
  unfold completionOf namedBarrier at h
  grind [objectAt_coresKept]

theorem checkStart_coresKept {x : Member} {k : EngineKind} {desc va : Nat} {c : Checked}
    (h : checkStart s x k desc va = .ok c) : CoresKept s c.s := by
  unfold checkStart at h
  dsimp only at h
  split at h
  · cases h
  · rename_i ht
    refine (tableHeader_coresKept ht).trans ?_
    split at h
    · cases h
    · rename_i hn
      refine (checkNeeds_coresKept hn).trans ?_
      split at h
      · cases h
      · rename_i hc
        refine (completionOf_coresKept hc).trans ?_
        split at h <;> cases h
        exact .refl _

theorem engineRead_coresKept {op : EngineOp} {v v' : MemView} {d : Bound} {o : Nat} {b : Byte}
    (h : engineRead s op v d o = .ok (b, s', v')) : CoresKept s s' := by
  unfold engineRead at h
  grind [pick_coresKept, places_coresKept, farCode_coresKept, notePage_coresKept, readPart_coresKept]

theorem copyBytes_coresKept (op : EngineOp) (src dst : Bound) (pairs : List (Int × Int)) (w : Work) :
    CoresKept w.s (copyBytes op src dst pairs w).s := by
  fun_induction copyBytes op src dst pairs w <;> grind [engineRead_coresKept, pick_coresKept]

theorem copyWork_coresKept {op : EngineOp} {w : Work} (h : copyWork s op = some w) : CoresKept s w.s := by
  unfold copyWork at h
  grind [copyBytes_coresKept, pick_coresKept]

theorem bytePlaces_coresKept {ctx : Nat} {bs : List (Nat × Byte)} {ps : List Place} (h : bytePlaces s ctx bs = .ok (ps, s')) :
    CoresKept s s' := by
  fun_induction bytePlaces s ctx bs generalizing ps s' <;> grind [places_coresKept]

theorem writeWord_coresKept {op : EngineOp} {v v' : MemView} {w : Nat × List (Nat × Byte)}
    (h : writeWord s op v w = some (s', v')) : CoresKept s s' := by
  unfold writeWord at h
  grind [bytePlaces_coresKept, notePage_coresKept, storeBytes_coresKept]

theorem engineWrite_coresKept (op : EngineOp) (partly : Bool) (ws : WordWrites) (w : Writing) :
    CoresKept w.s (engineWrite op partly ws w).s := by
  refine CoresKept.foldl_part Writing.s (fun w x => ?_) ws w
  grind [pick_coresKept, writeWord_coresKept]

/-- Whichever way an operation's writes end, waiting, stopped or whole, the state they leave has the same cores. -/
def Commit.KeepsCores (c : Commit) (s : State) : Prop :=
  match c with
  | .waits z => CoresKept s z
  | .stops _ _ w => CoresKept s w.s
  | .all w => CoresKept s w.s

theorem engineCommit_keepsCores (op : EngineOp) (k : Work) (hk : CoresKept s k.s) : (engineCommit s op k).KeepsCores s := by
  unfold engineCommit
  dsimp only
  repeat' split
  · exact .refl s
  · exact .refl s
  · exact hk.trans (engineWrite_coresKept ..)
  · exact ⟨rfl, rfl⟩
  · exact hk.trans (engineWrite_coresKept ..)
  · exact hk.trans (engineWrite_coresKept ..)

theorem writeDesc_coresKept (op : EngineOp) (v : MemView) (byte : Nat) (bs : List Byte) :
    CoresKept s (writeDesc s op v byte bs).1 := by
  unfold writeDesc
  grind [writeSpan_coresKept]

theorem writeEnd_coresKept (op : EngineOp) (v : MemView) (status bytes : Nat) : CoresKept s (writeEnd s op v status bytes) := by
  unfold writeEnd
  dsimp only
  split
  · exact (writeDesc_coresKept ..).trans (releaseUo_coresKept ..)
  · exact ((writeDesc_coresKept ..).trans (releaseUo_coresKept ..)).trans (completeOn_coresKept ..)

theorem endOp_coresKept (op : EngineOp) (v : MemView) (status bytes : Nat) : CoresKept s (endOp s op v status bytes) := by
  unfold endOp
  dsimp only
  split
  · exact ⟨rfl, rfl⟩
  · exact CoresKept.trans ⟨rfl, rfl⟩ (writeEnd_coresKept ..)

theorem unitSource_coresKept (u : EngineUnit) : CoresKept s (unitSource s u).2 := by
  unfold unitSource
  grind [pick_coresKept]

theorem stoppedStatus_coresKept (op : EngineOp) (c : Code) : CoresKept s (stoppedStatus s op c).2 := by
  unfold stoppedStatus
  grind [pick_coresKept]

theorem stopOp_coresKept (op : EngineOp) (v : MemView) (c : Code) (at' bytes : Nat) : CoresKept s (stopOp s op v c at' bytes) := by
  unfold stopOp
  refine CoresKept.trans ?_ (endOp_coresKept ..)
  refine CoresKept.trans ?_ (stoppedStatus_coresKept ..)
  refine CoresKept.trans ?_ (endLaunch_coresKept ..)
  refine (unitSource_coresKept op.unit).trans ?_
  split
  · exact emit_coresKept ..
  · exact emitFree_coresKept ..

theorem clearPoison_coresKept (op : EngineOp) (ws : WordWrites) : CoresKept s (clearPoison s op ws) := by
  unfold clearPoison
  split <;> exact ⟨rfl, rfl⟩

theorem fillGranules_coresKept (a : Actor) (sc : Scope) (v : MemView) (gs : List Nat) : CoresKept s (fillGranules s a sc v gs) :=
  CoresKept.foldl (fun _ _ => setFull_coresKept ..) _ _

theorem finishOp_coresKept (op : EngineOp) (v : MemView) (status bytes : Nat) : CoresKept s (finishOp s op v status bytes) := by
  unfold finishOp
  split
  · exact stopOp_coresKept ..
  · exact endOp_coresKept ..

theorem runCopy_coresKept (op : EngineOp) : CoresKept s (runCopy s op) := by
  unfold runCopy
  split
  · exact ⟨rfl, rfl⟩
  · rename_i k hk
    have hc := engineCommit_keepsCores op k (copyWork_coresKept hk)
    split <;> rename_i hw <;> rw [hw] at hc
    · exact hc
    · exact CoresKept.trans hc ((clearPoison_coresKept ..).trans (stopOp_coresKept ..))
    · refine CoresKept.trans hc (CoresKept.trans ?_ (finishOp_coresKept ..))
      split
      · exact (clearPoison_coresKept ..).trans (fillGranules_coresKept ..)
      · exact clearPoison_coresKept ..

/-! ## Saves and restores -/

theorem imageTarget_coresKept {bd : Binder} {b len va : Nat} {e : Int} {d : Bound} {ps : List Place}
    (h : imageTarget s bd b e len = .ok (d, va, ps, s')) : CoresKept s s' := by
  unfold imageTarget at h
  split at h
  · cases h
  · rename_i hd
    refine (plainEntry_coresKept hd).trans ?_
    grind [places_coresKept]

theorem doFence_coresKept (a : Actor) (sc : Scope) (o : Order) (isSc : Bool) (v : MemView) :
    CoresKept s (doFence s a sc o isSc v).1 := by
  unfold doFence scJoin
  grind [releaseUo_coresKept, acquireRels_coresKept]

theorem endWait_coresKept (g : Workgroup) (t : Thread) : CoresKept s (endWait s g t).1 := by
  unfold endWait
  grind [doFence_coresKept]

theorem quiesceThread_coresKept (g : Workgroup) (t : Thread) : CoresKept s (quiesceThread s g t).1 :=
  (endWait_coresKept ..).trans (releaseUo_coresKept ..)

theorem quiesceThreads_coresKept (g : Workgroup) (ts : List Thread) : CoresKept s (quiesceThreads g ts s).1 := by
  induction ts generalizing s with
  | nil => exact .refl s
  | cons t ts ih =>
    refine CoresKept.trans ?_ ih
    split
    · exact quiesceThread_coresKept ..
    · exact .refl s

theorem untake_coresKept (p : Pontil) : CoresKept s (untake s p).1 := by
  unfold untake
  grind

theorem quiesceContexts_coresKept (ps : List Pontil) : CoresKept s (quiesceContexts ps s).1 := by
  induction ps generalizing s with
  | nil => exact .refl s
  | cons p ps ih => exact ((untake_coresKept p).trans (releaseDrained_coresKept ..)).trans ih

theorem preempt_coresKept (g : Workgroup) : CoresKept s (preempt s g).s :=
  (quiesceThreads_coresKept ..).trans (quiesceContexts_coresKept _)

theorem idleLoop_coresKept : CoresKept s (idleLoop s).2 := (pick_coresKept _).trans (pick_coresKept _)

theorem loopFields_coresKept (p : Pontil) (ks : List Nat) : CoresKept s (loopFields p ks s).2 := by
  induction ks generalizing s with
  | nil => exact .refl s
  | cons k ks ih =>
    refine CoresKept.trans ?_ ih
    grind [idleLoop_coresKept]

theorem pontilRecords_coresKept (ps : List Pontil) : CoresKept s (pontilRecords ps s).2 := by
  induction ps generalizing s with
  | nil => exact .refl s
  | cons p ps ih =>
    refine CoresKept.trans (CoresKept.trans ?_ (loopFields_coresKept p [0, 1, 2, 3])) ih
    split <;> exact ⟨rfl, rfl⟩

theorem imageOf_coresKept (g : Workgroup) (l : Launch) (cx : Context) (ps : List Pontil) (code : Nat) (inspect : Bool) :
    CoresKept s (imageOf s g l cx ps code inspect).2 := pontilRecords_coresKept ps

theorem noteAll_coresKept (g : Workgroup) (ps : List Pontil) : CoresKept s (noteAll s g ps) :=
  (CoresKept.foldl (fun _ _ => noteExit_coresKept ..) _ _).trans (CoresKept.foldl (fun _ _ => noteExit_coresKept ..) _ _)

theorem readImage_coresKept {a : Actor} {ctx va len : Nat} {v v' : MemView} {bs : List Byte}
    (h : readImage s a ctx v va len = .ok (bs, s', v')) : CoresKept s s' := by
  unfold readImage at h
  grind [readSpan_coresKept, takeRels_coresKept]

theorem imageAt_coresKept {a : Actor} {ctx : Nat} {v v' : MemView} {d : Bound} {e : Int} {bs : List Byte}
    (h : imageAt s a ctx v d e = .ok (bs, s', v')) : CoresKept s s' := by
  unfold imageAt at h
  dsimp only at h
  split at h
  · cases h
  · split at h
    · cases h
    · split at h
      · cases h
      · split at h
        · cases h
        · rename_i hp
          split at h
          · cases h
          · exact (places_coresKept hp).trans (readImage_coresKept h)

theorem areaWrite_coresKept (a : Actor) (ctx va : Nat) (bs : List Byte) : CoresKept s (areaWrite s a ctx va bs) :=
  writeNow_coresKept ..

theorem addUsed_coresKept (a : Actor) (ctx : Nat) (q : Queue) (up : Bool) : CoresKept s (addUsed s a ctx q up) := by
  unfold addUsed
  grind [readSpan_coresKept, areaWrite_coresKept]

theorem freeSaved_coresKept (l : Launch) (index : Nat) (a : Actor) : CoresKept s (freeSaved s l index a) := by
  unfold freeSaved
  split
  · exact .refl s
  · exact CoresKept.foldl (fun _ _ => (areaWrite_coresKept ..).trans (addUsed_coresKept ..)) _ _

theorem placeContexts_coresKept (bs : List Byte) (g : Workgroup) (l : Launch) (views : List MemView) (h : Nat)
    (ids : List (Nat × PontilId)) : CoresKept s (placeContexts bs g l views h ids s) := by
  induction ids generalizing s with
  | nil => exact .refl s
  | cons k ids ih => exact (setPontil_coresKept _).trans ih

/-! ## Privileged instructions on queues and translations -/

theorem setPaused_coresKept (q : Queue) (b : Bool) : CoresKept s (setPaused s q b) := ⟨rfl, rfl⟩

theorem stopAt_coresKept (t : Option Nat) : CoresKept s { s with stopAt := t } := ⟨rfl, rfl⟩

theorem dropTranslations_coresKept (p : TlbEntry → Bool) (dies : List Nat) (ofs : Option Nat) :
    CoresKept s (dropTranslations s p dies ofs) := ⟨rfl, rfl⟩

end

end Machine
end Sys2Proof
end

section
/-! PROOFS. A member whose guard is false: what a member's instruction does spares every other thread of its workgroup. -/

namespace Sys2Proof
namespace Machine

/-! ## States that differ for the other threads of a gang in nothing -/

/-- The other threads of the member's workgroup are as they were, and so are the flags of contexts that a gate reads. -/
structure SparesOthers (x : Member) (s s' : State) : Prop where
  threads : ∀ k t, k ≠ x.t.tid → s.thread? x.wg.uid k = some t → s'.thread? x.wg.uid k = some t
  priv : ∀ c, s'.isPriv c = s.isPriv c
  checked : ∀ c, s'.isChecked c = s.isChecked c

theorem SparesOthers.trans {x : Member} {a b c : State} (h₁ : SparesOthers x a b) (h₂ : SparesOthers x b c) :
    SparesOthers x a c :=
  ⟨fun k t hk ht => h₂.threads k t hk (h₁.threads k t hk ht), fun c => (h₂.priv c).trans (h₁.priv c),
    fun c => (h₂.checked c).trans (h₁.checked c)⟩

theorem sparesOthers_of_contexts {x : Member} {s s' : State} (hc : s'.contexts = s.contexts)
    (ht : ∀ k t, k ≠ x.t.tid → s.thread? x.wg.uid k = some t → s'.thread? x.wg.uid k = some t) : SparesOthers x s s' := by
  refine ⟨ht, fun c => ?_, fun c => ?_⟩
  · unfold State.isPriv State.context?; rw [hc]
  · unfold State.isChecked State.context?; rw [hc]

theorem CoresKept.sparesOthers {x : Member} {s s' : State} (h : CoresKept s s') : SparesOthers x s s' :=
  sparesOthers_of_contexts h.2 fun k t _ ht => by unfold State.thread? State.wg? at *; rw [h.1]; exact ht

theorem OnlyCores.sparesOthers {x : Member} {s s' : State} (h : OnlyCores s s')
    (ht : ∀ k, k ≠ x.t.tid → s'.thread? x.wg.uid k = s.thread? x.wg.uid k) : SparesOthers x s s' :=
  sparesOthers_of_contexts (by rw [h]) fun k _ hk h' => (ht k hk).trans h'

theorem modThread_sparesOthers (x : Member) (s : State) {f : Thread → Thread} (hf : ∀ t, (f t).tid = t.tid) :
    SparesOthers x s (s.modThread x.wg.uid x.t.tid f) :=
  (OnlyCores.modThread ..).sparesOthers fun _ hk => State.thread?_modThread_other (fun t ht => (hf t).trans ht) (.inr hk)

theorem setView_sparesOthers (x : Member) (s : State) (v : MemView) : SparesOthers x s (s.setView x.wg.uid x.t.tid v) :=
  modThread_sparesOthers x s fun _ => rfl

theorem takeTrap_sparesOthers (x : Member) (s : State) (c : Code) (d : Word) :
    SparesOthers x s (takeTrap s x.wg.uid x.t.tid c d) :=
  (OnlyCores.takeTrap ..).sparesOthers fun _ hk => takeTrap_other c d (.inr hk)

/-- setfmt changes a definition of the workgroup, and no thread. -/
theorem setWg_fmts_sparesOthers {x : Member} {s : State} {g : Workgroup} (hg : s.wg? x.wg.uid = some g) (fs : List Word) :
    SparesOthers x s (s.setWg { g with fmts := fs }) :=
  (OnlyCores.setWg ..).sparesOthers fun k _ =>
    State.thread?_setWg_threads (g := g) (h := { g with fmts := fs }) (by rw [← State.wg?_uid hg] at hg; exact hg) rfl x.wg.uid k

/-- wrpr changes the debug flag of its context, which no gate reads. -/
theorem setDebug_sparesOthers (x : Member) (s : State) (c : Nat) (b : Bool) : SparesOthers x s (setDebug s c b) := by
  have hfind : ∀ k, (setDebug s c b).context? k =
      (s.context? k).map (fun y => if y.id.val = c then { y with debug := b } else y) := fun k => by
    unfold State.context? setDebug
    rw [List.find?_map]
    congr 2
    funext y
    dsimp only [Function.comp]
    split <;> rfl
  refine ⟨fun _ _ _ ht => ht, fun k => ?_, fun k => ?_⟩
  · unfold State.isPriv
    rw [hfind]
    cases s.context? k with
    | none => rfl
    | some y => dsimp only [Option.map]; split <;> rfl
  · unfold State.isChecked
    rw [hfind]
    cases s.context? k with
    | none => rfl
    | some y => dsimp only [Option.map]; split <;> rfl

/-- A workgroup that leaves its core takes no thread of another with it. -/
theorem vacate_sparesOthers {x : Member} {s : State} {g : Workgroup} (hg : g.uid ≠ x.wg.uid) : SparesOthers x s (vacate s g) := by
  have hwg : (vacate s g).wg? x.wg.uid = s.wg? x.wg.uid := by
    change (s.workgroups.filter _).find? _ = s.workgroups.find? _
    rw [List.find?_filter]
    congr 1
    funext h
    by_cases hu : h.uid = x.wg.uid
    · simp [hu, hg.symm]
    · simp [hu]
  refine sparesOthers_of_contexts rfl fun k t _ ht => ?_
  unfold State.thread? at *
  rw [hwg]
  exact ht

/-- A save spares the threads of every other workgroup. -/
theorem evict_sparesOthers {x : Member} {p : Stopped} (s : State) (hp : p.g.uid ≠ x.wg.uid) : SparesOthers x s (evict p s) :=
  ((noteAll_coresKept ..).trans (modLaunch_coresKept ..)).sparesOthers.trans (vacate_sparesOthers hp)

/-- A workgroup that is placed stands after those that are resident. -/
theorem addWorkgroup_sparesOthers (x : Member) (s : State) (g : Workgroup) :
    SparesOthers x s { s with workgroups := s.workgroups ++ [g] } := by
  refine sparesOthers_of_contexts rfl fun k t _ ht => ?_
  unfold State.thread? State.wg? at *
  rw [List.find?_append]
  cases hf : s.workgroups.find? (fun g => g.uid == x.wg.uid) with
  | none => rw [hf] at ht; cases ht
  | some h => rw [hf] at ht; exact ht

theorem placeImage_sparesOthers (x : Member) (s : State) (l : Launch) (bs : List Byte) (c : CoreId) (seen : MemView) :
    SparesOthers x s (placeImage s l bs c seen).2 := by
  unfold placeImage
  dsimp only
  refine SparesOthers.trans ?_ (CoresKept.trans (placeContexts_coresKept ..) refreshAges_coresKept).sparesOthers
  refine SparesOthers.trans ?_ (CoresKept.trans (freeSaved_coresKept ..) (modLaunch_coresKept ..)).sparesOthers
  exact (pick_coresKept (s := s) _).sparesOthers.trans (addWorkgroup_sparesOthers ..)

theorem restoreImage_sparesOthers {x : Member} {s s' : State} {cx : Context} {bs : List Byte} {cores : List CoreId}
    {seen : MemView} {h : Nat} (hr : restoreImage s cx bs cores seen = .ok (h, s')) : SparesOthers x s s' := by
  unfold restoreImage restoreOn at hr
  split at hr
  · cases hr
  · split at hr
    · cases hr
    · have hplace := Except.ok.inj hr
      have hspares := placeImage_sparesOthers x s (by assumption) bs (by assumption) seen
      rw [hplace] at hspares
      exact hspares

/-! ## Answers of a member's part -/

/-- Whatever the part of a member answers with, it spares the other threads. -/
def MRes.Spares (r : MRes) (x : Member) (s : State) : Prop :=
  match r with
  | .trap _ _ => True
  | .wait s' _ => SparesOthers x s s'
  | .done s' _ => SparesOthers x s s'

section
variable {x : Member} {s z : State}

theorem MRes.Spares.afterOwn {r : MRes} (h : SparesOthers x s z) (hr : r.Spares x z) : r.Spares x s := by
  cases r with
  | trap c d => trivial
  | wait s' w => exact h.trans hr
  | done s' e => exact h.trans hr

theorem MRes.Spares.after {r : MRes} (h : CoresKept s z) (hr : r.Spares x z) : r.Spares x s := hr.afterOwn h.sparesOthers

theorem waitFor_spares (h : CoresKept s z) (k : WaitKind) (i : Instr) (n : Nat) : (waitFor z k i n).Spares x s :=
  CoresKept.sparesOthers (h.trans ⟨rfl, rfl⟩)

theorem done_spares (h : CoresKept s z) (e : Effect) : (MRes.done z e).Spares x s := h.sparesOthers

theorem done_setView_spares (h : CoresKept s z) (v : MemView) (e : Effect) :
    (MRes.done (z.setView x.wg.uid x.t.tid v) e).Spares x s := h.sparesOthers.trans (setView_sparesOthers x z v)

/-- A part that changes nothing but its own thread, in place, spares the others. -/
theorem MRes.keeps.spares {r : MRes} (h : r.keeps x s) : r.Spares x s := by
  cases r with
  | trap c d => trivial
  | wait s' w =>
    change s' = { s with uids := s'.uids } at h
    rw [h]
    exact CoresKept.sparesOthers (x := x) (s := s) (s' := { s with uids := s'.uids }) ⟨rfl, rfl⟩
  | done s' e =>
    obtain h | ⟨f, hf, h⟩ := h
    · rw [h]; exact (CoresKept.refl s).sparesOthers
    · rw [h]; exact modThread_sparesOthers x s hf

theorem onObject_spares {write : Bool} {reads : List Place} {i : Instr} {o : ObjectAt} {k : State → MRes}
    (hk : ∀ z, CoresKept s z → (k z).Spares x s) : (onObject write reads x i o s k).Spares x s := by
  unfold onObject
  split
  · exact waitFor_spares (.refl s) ..
  · split
    · trivial
    · split
      · rename_i hb
        exact waitFor_spares (blocked_coresKept hb) ..
      · have hfar := farCode_coresKept (s := s) o.va o.ps (!reads.isEmpty) false
        split
        · trivial
        · rename_i hf
          rw [hf] at hfar
          exact hk _ (CoresKept.trans hfar (notePage_coresKept ..))

theorem onFar_spares {t : Target} {ps : List Place} {read ordered : Bool} {k : State → MRes}
    (hk : ∀ z, CoresKept s z → (k z).Spares x s) : (onFar x s t ps read ordered k).Spares x s := by
  unfold onFar
  have hfar := farCode_coresKept (s := s) t.d.base ps read ordered
  split
  · trivial
  · rename_i hf
    rw [hf] at hfar
    exact hk _ hfar

/-! ## Loads, stores and atomics -/

theorem loadFrom_spares (i : Instr) (d : VReg) (m : MemOp) (t : Target) (n : Nat) : (loadFrom x s i d m t n).Spares x s := by
  unfold loadFrom
  split
  · exact waitFor_spares (.refl s) ..
  · split
    · trivial
    · rename_i hp
      refine .after (targetPlaces_coresKept hp) ?_
      split
      · trivial
      · split
        · trivial
        · split
          · rename_i hb
            exact waitFor_spares (blocked_coresKept hb) ..
          · refine onFar_spares fun y hy => .after hy ?_
            split
            · trivial
            · rename_i hr
              exact .after (readElems_coresKept hr)
                (done_setView_spares ((takeRels_coresKept ..).trans (requestTag_coresKept ..)) ..)

theorem bodyLoad_spares (i : Instr) (d : VReg) (m : MemOp) (n : FDef → Nat) : (bodyLoad i d m n x s).Spares x s := by
  unfold bodyLoad
  split
  · trivial
  · rename_i ht
    exact .after (targetOf_coresKept ht) (loadFrom_spares ..)

theorem storeTo_spares (i : Instr) (d : VReg) (m : MemOp) (t : Target) (n : Nat) : (storeTo x s i d m t n).Spares x s := by
  unfold storeTo
  split
  · exact waitFor_spares (.refl s) ..
  · split
    · trivial
    · rename_i hp
      refine .after (targetPlaces_coresKept hp) ?_
      split
      · trivial
      · dsimp only
        split
        · rename_i hb
          exact waitFor_spares (blocked_coresKept hb) ..
        · refine onFar_spares fun y hy => .after hy ?_
          split
          · trivial
          · rename_i hw
            exact done_setView_spares (storeElems_coresKept hw) ..

theorem bodyStore_spares (i : Instr) (d : VReg) (m : MemOp) (n : FDef → Nat) : (bodyStore i d m n x s).Spares x s := by
  unfold bodyStore
  split
  · trivial
  · rename_i ht
    exact .after (targetOf_coresKept ht) (storeTo_spares ..)

theorem waitGranule_spares (i : Instr) (t : Target) : (waitGranule x s i t).Spares x s := by
  refine waitFor_spares ?_ ..
  split
  · exact .refl s
  · exact ⟨by simp, by simp⟩

theorem takeGranule_spares (d : VReg) (m : MemOp) (clear : Bool) (t : Target) (granule : Option Nat) (ps : List Place) :
    (takeGranule x s d m clear t granule ps).Spares x s := by
  unfold takeGranule
  cases granule with
  | none =>
    exact done_setView_spares ((readObject_coresKept ..).trans ((takeRels_coresKept ..).trans (requestTag_coresKept ..))) ..
  | some g =>
    have hclear : ∀ z, SparesOthers x s z → SparesOthers x s (if clear then setEmpty z g else z) := fun z hz => by
      split
      · exact hz.trans (CoresKept.sparesOthers ⟨rfl, rfl⟩)
      · exact hz
    refine hclear _ (SparesOthers.trans ?_ (setView_sparesOthers x _ _))
    exact CoresKept.sparesOthers ((takeRels_coresKept ..).trans
      ((readObject_coresKept ..).trans ((takeRels_coresKept ..).trans (requestTag_coresKept ..))))

theorem bodyTake_spares (i : Instr) (d : VReg) (m : MemOp) (clear : Bool) : (bodyTake i d m clear x s).Spares x s := by
  unfold bodyTake
  split
  · trivial
  · rename_i ht
    refine .after (targetOf_coresKept ht) ?_
    split
    · trivial
    · split
      · exact waitFor_spares (.refl _) ..
      · split
        · trivial
        · rename_i hp
          refine .after (targetPlaces_coresKept hp) ?_
          split
          · refine .after (pick_coresKept 2) ?_
            dsimp only
            split
            · exact waitGranule_spares ..
            · exact onFar_spares fun y hy => .after hy (takeGranule_spares ..)
          · split
            · exact waitGranule_spares ..
            · split
              · trivial
              · exact takeGranule_spares ..

theorem fillGranule_spares (d : VReg) (m : MemOp) (t : Target) (granule : Nat) : (fillGranule x s d m t granule).Spares x s := by
  unfold fillGranule
  dsimp only
  split
  · trivial
  · rename_i hw
    refine .after (writeElem_coresKept hw) ?_
    split
    · exact (setView_sparesOthers ..).trans (setFull_coresKept ..).sparesOthers
    · exact setView_sparesOthers ..

theorem bodyFill_spares (i : Instr) (d : VReg) (m : MemOp) : (bodyFill i d m x s).Spares x s := by
  unfold bodyFill
  split
  · trivial
  · rename_i ht
    refine .after (targetOf_coresKept ht) ?_
    split
    · trivial
    · split
      · exact waitFor_spares (.refl _) ..
      · split
        · refine .after (pick_coresKept 2) ?_
          dsimp only
          split
          · exact waitGranule_spares ..
          · split
            · trivial
            · rename_i hp
              refine .after (targetPlaces_coresKept hp) ?_
              exact onFar_spares fun y hy => .after hy (fillGranule_spares ..)
        · split
          · exact waitGranule_spares ..
          · exact fillGranule_spares ..

theorem bodyAtom_spares (i : Instr) (op : AtomOp) (d : VReg) (m : MemOp) : (bodyAtom i op d m x s).Spares x s := by
  unfold bodyAtom
  split
  · trivial
  · rename_i ht
    refine .after (targetHere_coresKept ht) ?_
    split
    · trivial
    · rename_i hp
      refine .after (checkAtomic_coresKept hp) ?_
      split
      · exact waitFor_spares (.refl _) ..
      · split
        · trivial
        · split
          · rename_i hb
            exact waitFor_spares (blocked_coresKept hb) ..
          · exact onFar_spares fun y hy => done_setView_spares
              (hy.trans ((atomStep_coresKept ..).trans (requestTag_coresKept ..))) ..

/-! ## Objects: barriers, boards, records -/

theorem bodyBinit_spares (i : Instr) (d : VReg) (m : MemOp) : (bodyBinit i d m x s).Spares x s := by
  unfold bodyBinit
  split
  · trivial
  · rename_i ho
    refine .after (barrierOf_coresKept ho) ?_
    dsimp only
    split
    · trivial
    · exact onObject_spares fun y hy => done_setView_spares (hy.trans (resetObject_coresKept ..)) ..

theorem bodyBarr_spares (i : Instr) (d : VReg) (m : MemOp) : (bodyBarr i d m x s).Spares x s := by
  unfold bodyBarr
  split
  · trivial
  · rename_i ho
    refine .after (barrierOf_coresKept ho) ?_
    dsimp only
    split
    · trivial
    · refine onObject_spares fun y hy => .after hy ?_
      split
      · trivial
      · rename_i hs
        exact done_setView_spares (objectStep_coresKept hs) ..

theorem bodyRdv_spares (i : Instr) (d : VReg) (m : MemOp) : (bodyRdv i d m x s).Spares x s := by
  unfold bodyRdv
  split
  · trivial
  · rename_i ho
    refine .after (barrierOf_coresKept ho) ?_
    split
    · trivial
    · refine onObject_spares fun y hy => .after hy ?_
      split
      · trivial
      · rename_i hs
        exact done_setView_spares (objectStep_coresKept hs) ..

theorem bodyBwait_spares (i : Instr) (d : VReg) (m : MemOp) (expired : Bool) : (bodyBwait i d m expired x s).Spares x s := by
  unfold bodyBwait
  split
  · trivial
  · rename_i ho
    refine .after (barrierOf_coresKept ho) (onObject_spares fun y hy => .after hy ?_)
    dsimp only
    split
    · exact done_setView_spares ((readObject_coresKept ..).trans (takeRels_coresKept ..)) ..
    · split
      · exact done_setView_spares (readObject_coresKept ..) ..
      · exact waitFor_spares (readObject_coresKept ..) ..

theorem bodyNbpost_spares (i : Instr) (k : VmReg) (d : VReg) (m : MemOp) : (bodyNbpost i k d m x s).Spares x s := by
  unfold bodyNbpost
  dsimp only
  split
  · trivial
  · rename_i ho
    refine .after (boardOf_coresKept ho) (onObject_spares fun y hy => .after hy ?_)
    split
    · trivial
    · rename_i hs
      exact done_setView_spares (boardPost_coresKept hs) ..

theorem bodyNbget_spares (i : Instr) (d : VReg) (m : MemOp) : (bodyNbget i d m x s).Spares x s := by
  unfold bodyNbget
  dsimp only
  split
  · trivial
  · rename_i ho
    refine .after (boardOf_coresKept ho) (onObject_spares fun y hy => ?_)
    exact done_setView_spares (hy.trans ((readObject_coresKept ..).trans (takeRels_coresKept ..))) ..

theorem bodyNbinit_spares (i : Instr) (b : Fin 64) (sc : Scope) : (bodyNbinit i b sc x s).Spares x s := by
  unfold bodyNbinit
  split
  · trivial
  · rename_i ho
    refine .after (boardOf_coresKept ho) (onObject_spares fun y hy => ?_)
    exact done_setView_spares (hy.trans (resetObject_coresKept ..)) ..

/-- After its step on a record, a thread may enqueue it. -/
theorem setView_enqueue_sparesOthers (h : CoresKept s z) (v : MemView) (p : Prop) [Decidable p] (ctx va : Nat) (ps : List Place) :
    SparesOthers x s (if p then enqueue (finishLaunch chainFuel) (z.setView x.wg.uid x.t.tid v) ctx va ps
      else z.setView x.wg.uid x.t.tid v) := by
  have hview := h.sparesOthers.trans (setView_sparesOthers x z v)
  split
  · exact hview.trans (enqueue_coresKept (finishLaunch_coresKept chainFuel) ..).sparesOthers
  · exact hview

theorem bodySpawn_spares (i : Instr) (d : VReg) (m : MemOp) : (bodySpawn i d m x s).Spares x s := by
  unfold bodySpawn
  split
  · trivial
  · rename_i ho
    refine .after (recordOf_coresKept ho) ?_
    dsimp only
    split
    · trivial
    · refine onObject_spares fun y hy => .after hy ?_
      have hstep := spawnStep_keepsCores (s := y) x (by assumption) m.scope (x.t.readV d).toNat
      split <;> rename_i hs <;> rw [hs] at hstep
      · exact done_spares hstep _
      · exact waitFor_spares hstep ..
      · exact setView_enqueue_sparesOthers hstep ..

theorem bodyJoin_spares (i : Instr) (d : VReg) (m : MemOp) : (bodyJoin i d m x s).Spares x s := by
  unfold bodyJoin
  split
  · trivial
  · rename_i o z ho
    refine .after (recordOf_coresKept ho) (onObject_spares fun y hy => .after hy ?_)
    have hstep := joinStep_keepsCores (s := y) o.bd.agent m.scope (y.viewOf x.wg.uid x.t.tid) x.wg.ctx o.va (o.ps.take 8)
    split <;> rename_i hs <;> rw [hs] at hstep
    · trivial
    · exact waitFor_spares hstep ..
    · exact setView_enqueue_sparesOthers hstep ..

/-! ## exit, routines and engines -/

theorem bodyExit_spares : (bodyExit x s).Spares x s := by
  unfold bodyExit
  refine SparesOthers.trans ?_ (noteExit_coresKept ..).sparesOthers
  refine SparesOthers.trans ?_ (modThread_sparesOthers x _ fun _ => rfl)
  exact (releaseUo_coresKept ..).sparesOthers

/-- A thread releases its stores to UO pages and sees that they are performed. -/
theorem releaseOwn_sparesOthers (a : Actor) (sc : Scope) (v : MemView) :
    SparesOthers x s ((releaseUo s a sc v).1.setView x.wg.uid x.t.tid (releaseUo s a sc v).2) :=
  (releaseUo_coresKept ..).sparesOthers.trans (setView_sparesOthers x _ _)

/-- A thread reads the descriptor of a routine or of an operation. -/
theorem readDescriptor_sparesOthers (o : ObjectAt) :
    SparesOthers x s
      ((readWords s o.bd.agent (s.viewOf x.wg.uid x.t.tid) .relaxed (cutWords o.va o.ps [])).s.setView x.wg.uid x.t.tid
        (readWords s o.bd.agent (s.viewOf x.wg.uid x.t.tid) .relaxed (cutWords o.va o.ps [])).v) :=
  (readWords_coresKept ..).sparesOthers.trans (setView_sparesOthers x _ _)

theorem startContext_sparesOthers (id : PontilId) (d rdv : Nat) (sc : Scope) :
    SparesOthers x s (startContext s x id d rdv sc) := (releaseOwn_sparesOthers ..).trans (setPontil_coresKept _).sparesOthers

theorem bodyFork_spares (i : Instr) (d : VReg) (m : MemOp) : (bodyFork i d m x s).Spares x s := by
  unfold bodyFork
  split
  · trivial
  · rename_i o z ho
    refine .after (objectOf_coresKept ho) ?_
    split
    · trivial
    · refine onObject_spares fun y hy => .after hy ?_
      dsimp only
      refine .afterOwn (readDescriptor_sparesOthers o) ?_
      split
      · trivial
      · split
        · trivial
        · rename_i hf
          refine .after (objectAt_coresKept hf) ?_
          split
          · exact waitFor_spares (.refl _) ..
          · exact startContext_sparesOthers ..

theorem enqueueOp_sparesOthers (k : EngineKind) (sc : Scope) (u : EngineUnit) (c : Checked) :
    SparesOthers x c.s (enqueueOp x k sc u c) := by
  have hown := releaseOwn_sparesOthers (x := x) (s := c.s) (binderOf c.s x.wg x.t).agent sc (c.s.viewOf x.wg.uid x.t.tid)
  unfold enqueueOp
  dsimp only
  split
  · exact hown.trans (CoresKept.sparesOthers (.trans ⟨rfl, rfl⟩ (runCopy_coresKept _)))
  · exact hown.trans (CoresKept.sparesOthers ⟨rfl, rfl⟩)

theorem bodyStart_spares (i : Instr) (k : EngineKind) (m : MemOp) : (bodyStart i k m x s).Spares x s := by
  unfold bodyStart
  split
  · trivial
  · rename_i o z ho
    refine .after (objectOf_coresKept ho) ?_
    split
    · trivial
    · refine onObject_spares fun y hy => .after hy ?_
      dsimp only
      refine .afterOwn (readDescriptor_sparesOthers o) ?_
      split
      · trivial
      · split
        · trivial
        · rename_i hc
          have hchecked := checkStart_coresKept hc
          split
          · exact waitFor_spares (.refl _) ..
          · split
            · exact waitFor_spares hchecked ..
            · exact hchecked.sparesOthers.trans (enqueueOp_sparesOthers ..)

/-! ## Privileged instructions -/

theorem bodyBfinv_spares (i : Instr) (d a b : VReg) : (bodyBfinv i d a b x s).Spares x s := by
  unfold bodyBfinv
  extract_lets n len f
  split
  · trivial
  · split
    · exact done_spares (.refl s) _
    · exact .afterOwn (releaseOwn_sparesOthers ..) (waitFor_spares (.refl _) ..)

theorem bodyHqctl_spares (a : VReg) {act : Queue → State → MRes} (hact : ∀ q, (act q s).Spares x s) :
    (bodyHqctl a act x s).Spares x s := by
  unfold bodyHqctl
  split
  · trivial
  · exact hact _

theorem saveFor_spares (i : Instr) (d : VReg) {g : Workgroup} (hg : g.uid ≠ x.wg.uid) (b : Nat) (e : Int) :
    (saveFor i d x s g b e).Spares x s := by
  unfold saveFor
  split
  · exact waitFor_spares (.refl s) ..
  · split
    · trivial
    · rename_i ht
      refine .after (imageTarget_coresKept ht) ?_
      split
      · exact waitFor_spares (.refl _) ..
      · split
        · rename_i hb
          exact waitFor_spares (blocked_coresKept hb) ..
        · split
          · refine SparesOthers.trans ?_ (evict_sparesOthers _ hg)
            refine SparesOthers.trans ?_ (setView_sparesOthers x _ _)
            exact CoresKept.sparesOthers ((preempt_coresKept g).trans ((imageOf_coresKept ..).trans (writeAt_coresKept ..)))
          · exact done_spares (.refl _) _

theorem bodyLehrsv_spares (i : Instr) (d a b : VReg) (bind : Fin 64) : (bodyLehrsv i d a b bind x s).Spares x s := by
  unfold bodyLehrsv
  split
  · exact done_spares (.refl s) _
  · split
    · exact done_spares (.refl s) _
    · exact saveFor_spares _ _ (by assumption) ..

theorem refusedRestore_spares (d : VReg) (c : Code) : (refusedRestore s d x c).Spares x s :=
  done_spares (emitFree_coresKept ..) _

theorem bodyLehrld_spares (i : Instr) (d a : VReg) (bind : Fin 64) : (bodyLehrld i d a bind x s).Spares x s := by
  unfold bodyLehrld
  dsimp only
  split
  · trivial
  · rename_i hb
    refine .after (plainEntry_coresKept hb) ?_
    split
    · trivial
    · split
      · trivial
      · split
        · exact waitFor_spares (.refl _) ..
        · split
          · trivial
          · rename_i bs z v hi
            refine .after (imageAt_coresKept hi) (.afterOwn (setView_sparesOthers x z v) ?_)
            split
            · exact refusedRestore_spares ..
            · split
              · exact refusedRestore_spares ..
              · rename_i hr
                exact restoreImage_sparesOthers hr

end

end Machine
end Sys2Proof
end

section
/-! PROOFS. A member whose guard is false only advances (R20, R36): the run of its gang, then the instructions one by one. -/

namespace Sys2Proof
namespace Machine

/-! ## The run of a gang -/

theorem SparesOthers.gate {x : Member} {s s' : State} (h : SparesOthers x s s') (m : Member) (i : Instr) :
    gate s' m i = gate s m i := by
  unfold Machine.gate checkCore
  simp only [h.priv, h.checked]

/-- A member's part spares the other threads, whatever its gate says, if what the instruction does at it does. -/
theorem stepMember_sparesOthers {i : Instr} {body : Member → State → MRes} {x : Member} {s : State}
    (hb : (body x s).Spares x s) : SparesOthers x s (stepMember i body s x) := by
  unfold stepMember
  split
  · exact takeTrap_sparesOthers ..
  · exact modThread_sparesOthers x s fun t => Thread.apply_tid ..
  · split <;> rename_i hr <;> rw [hr] at hb
    · exact takeTrap_sparesOthers ..
    · exact SparesOthers.trans hb (modThread_sparesOthers x _ fun _ => rfl)
    · exact SparesOthers.trans hb (modThread_sparesOthers x _ fun t => Thread.apply_tid ..)

/-- The part of a member whose guard is false. -/
theorem stepMember_guardFalse {i : Instr} {body : Member → State → MRes} {s : State} {m : Member}
    (hg : gate s m i = .ok false) :
    stepMember i body s m = s.modThread m.wg.uid m.t.tid (fun t => t.apply (stallOf i) {}) := by
  unfold stepMember
  rw [hg]

section
variable {i : Instr} {body : Member → State → MRes} (hb : ∀ x s, (body x s).Spares x s)
include hb

/-- The parts of other members leave a thread and the answer of its gate as they were. -/
theorem foldl_stepMember_others {m : Member} {t : Thread} (as : List Member)
    (hd : ∀ a ∈ as, a.wg.uid = m.wg.uid ∧ m.t.tid ≠ a.t.tid) {s : State} (ht : s.thread? m.wg.uid m.t.tid = some t) :
    (as.foldl (stepMember i body) s).thread? m.wg.uid m.t.tid = some t ∧
    gate (as.foldl (stepMember i body) s) m i = gate s m i := by
  induction as generalizing s with
  | nil => exact ⟨ht, rfl⟩
  | cons a as ih =>
    obtain ⟨hu, htid⟩ := hd a List.mem_cons_self
    have ha := stepMember_sparesOthers (i := i) (hb a s)
    obtain ⟨h1, h2⟩ := ih (fun b hb => hd b (List.mem_cons_of_mem _ hb)) (hu ▸ ha.threads _ t htid (hu ▸ ht))
    exact ⟨h1, h2.trans (ha.gate m i)⟩

/-- A member of a gang whose guard is false advances, whatever the others do. -/
theorem foldl_stepMember_guardFalse {g : Workgroup} {tids : List Nat} {m : Member} {s : State} (hm : m ∈ membersOf g tids)
    (ht : s.thread? m.wg.uid m.t.tid = some m.t) (hg : gate s m i = .ok false) :
    ((membersOf g tids).foldl (stepMember i body) s).thread? m.wg.uid m.t.tid = some (m.t.apply (stallOf i) {}) := by
  have huid : ∀ a ∈ membersOf g tids, a.wg.uid = m.wg.uid := fun a ha => by rw [(mem_membersOf ha).1, (mem_membersOf hm).1]
  have hdistinct := membersOf_distinct g tids
  obtain ⟨as, bs, hab⟩ := List.append_of_mem hm
  rw [hab] at huid hdistinct ⊢
  obtain ⟨-, hbs, has⟩ := List.pairwise_append.1 hdistinct
  rw [List.foldl_append, List.foldl_cons]
  obtain ⟨hbefore, hgate⟩ := foldl_stepMember_others hb as
    (fun a ha => ⟨huid a (by simp [ha]), (has a ha m (by simp)).symm⟩) ht
  refine (foldl_stepMember_others (i := i) hb bs
    (fun b hb => ⟨huid b (by simp [hb]), (List.pairwise_cons.1 hbs).1 b hb⟩) ?_).1
  rw [stepMember_guardFalse (hgate.trans hg)]
  exact State.thread?_modThread_same (f := fun t => t.apply (stallOf i) {}) hbefore (Thread.apply_tid ..)

/-- So the run of its gang leaves it. -/
theorem runShared_guardFalse {pbody : Pontil → State → PRes} {s : State} {m : Member} (hm : OnIssue s m)
    (hg : gate s m i = .ok false) :
    (runShared i body pbody s).thread? m.wg.uid m.t.tid = some (m.t.apply (stallOf i) {}) := by
  obtain ⟨⟨rest, hi⟩, hw, hmem, -⟩ := hm
  have htrace := OnlyWrites.traceGang { s with issue := rest } m.wg ((membersOf m.wg m.gang).map (·.t)) i
  unfold runShared runGang
  rw [hi]
  dsimp only
  rw [show ({ s with issue := rest } : State).wg? m.wg.uid = some m.wg from hw]
  dsimp only
  rw [(OnlyWrites.traceRaised ..).thread?]
  refine foldl_stepMember_guardFalse hb hmem ?_ ?_
  · rw [htrace.thread?]
    unfold State.thread?
    rw [show ({ s with issue := rest } : State).wg? m.wg.uid = some m.wg from hw]
    exact (mem_membersOf hmem).2.2.2
  · rw [(htrace.coresKept.sparesOthers (x := m)).gate]
    exact hg

end

/-! ## What the guard's thread holds, and the ends of bsync and exit -/

/-- A thread that passes an instruction with a false guard. -/
theorem apply_nothing (t : Thread) (n : Nat) :
    t.apply n {} = { t with pc := t.pc + 8, stall := n, windows := ageWindows n t.windows [], wait := none } := by
  simp [Thread.apply]

/-- While a live thread does not wait at bsync, nobody departs from it. -/
theorem settleBsync_of_running {s : State} {u k : Nat} {t : Thread} (ht : s.thread? u k = some t) (hl : t.live = true)
    (hw : t.wait = none) : settleBsync s u = s := by
  unfold settleBsync
  unfold State.thread? at ht
  split
  · rfl
  · rename_i g hg
    rw [hg] at ht
    have hmem : t ∈ g.threads := List.mem_of_find?_eq_some ht
    have hall : (g.threads.filter (·.live)).all atBsync = false := by
      rw [List.all_eq_false]
      exact ⟨t, List.mem_filter.2 ⟨hmem, hl⟩, by simp [atBsync, hw]⟩
    simp [hall]

/-- A workgroup with a live thread stays. -/
theorem tryEnd_of_live {s : State} {u k : Nat} {t : Thread} (ht : s.thread? u k = some t) (hl : t.live = true) :
    tryEnd s u = s := by
  unfold tryEnd
  unfold State.thread? at ht
  split
  · rfl
  · rename_i g hg
    rw [hg] at ht
    have hany : g.threads.any (·.live) = true := List.any_eq_true.2 ⟨t, List.mem_of_find?_eq_some ht, hl⟩
    simp [hany]

theorem issuingWg_of_onIssue {s : State} {m : Member} (hm : OnIssue s m) : issuingWg s = some m.wg.uid := by
  obtain ⟨⟨rest, hi⟩, -⟩ := hm
  unfold issuingWg
  rw [hi]

/-! ## Instructions -/

/-- A member of a gang that issues `i` only advances where its guard is false. -/
def PassesFalseGuard (i : Instr) : Prop :=
  ∀ s m, OnIssue s m → gate s m i = .ok false → ThreadAfter (exec i s) m (fun _ t' => t' = m.t.apply (stallOf i) {})

/-- An instruction that does no more than its members' parts. -/
theorem passes_of_runShared {i : Instr} {body : Member → State → MRes} {pbody : Pontil → State → PRes}
    (he : ∀ s, exec i s = .next (runShared i body pbody s)) (hb : ∀ x s, (body x s).Spares x s) : PassesFalseGuard i :=
  fun s _ hm hg => ⟨_, _, he s, runShared_guardFalse hb hm hg, rfl⟩

/-- An instruction whose members act on their own threads alone. -/
theorem passes_of_keeps {i : Instr} {body : Member → State → MRes} {pbody : Pontil → State → PRes}
    (he : ∀ s, exec i s = .next (runShared i body pbody s)) (hb : ∀ x s, (body x s).keeps x s) : PassesFalseGuard i :=
  passes_of_runShared he fun x s => (hb x s).spares

/-- An atomic also ends the marks of what the gang's points have passed over. -/
theorem passes_of_runAtom {i : Instr} {body : Member → State → MRes} (he : ∀ s, exec i s = .next (runAtom i body s))
    (hb : ∀ x s, (body x s).Spares x s) : PassesFalseGuard i := fun s m hm hg => by
  refine ⟨_, _, he s, ?_, rfl⟩
  have hrun := runShared_guardFalse (i := i) (pbody := fun p s => .done s p false) hb hm hg
  unfold State.thread? State.wg? at *
  rw [(show (runAtom i body s).workgroups = _ from endGang_coresKept.1)]
  exact hrun

/-- A word of a pontil raises its code at every member, whatever its guard. -/
theorem passes_of_pontil {i : Instr} (h : classOf i = .pontil) : PassesFalseGuard i := fun s m _ hg => by
  have hcheck : checkCore s i m.wg.ctx m.wg.nregs = .error .illegalClass := by simp [checkCore, h]
  unfold gate at hg
  rw [hcheck] at hg
  cases hg

/-- What settles after the gang of bsync and exit has nothing to do while the member runs on. -/
theorem passes_of_settled {i : Instr} {body : Member → State → MRes} {pbody : Pontil → State → PRes}
    {settle : Option Nat → State → State}
    (he : ∀ s, exec i s = .next (settle (issuingWg s) (runShared i body pbody s))) (hb : ∀ x s, (body x s).Spares x s)
    (hs : ∀ s u k t, s.thread? u k = some t → t.live = true → t.wait = none → settle (some u) s = s) :
    PassesFalseGuard i := fun s m hm hg => by
  have hrun := runShared_guardFalse (pbody := pbody) hb hm hg
  have hlive : (m.t.apply (stallOf i) {}).live = true := by rw [apply_nothing]; exact hm.2.2.2
  refine ⟨_, _, he s, ?_, rfl⟩
  rw [issuingWg_of_onIssue hm, hs _ _ _ _ hrun hlive (by rw [apply_nothing])]
  exact hrun

theorem passes_bsync (c : Common) : PassesFalseGuard (.bsync c) :=
  passes_of_settled (settle := settleIssued) (fun _ => rfl) (fun _ _ => waitFor_spares (.refl _) ..)
    fun _ _ _ _ ht hl hw => settleBsync_of_running ht hl hw

theorem passes_exit (c : Common) : PassesFalseGuard (.exit c) :=
  passes_of_settled (settle := settleExit) (fun _ => rfl) (fun _ _ => bodyExit_spares) fun _ _ _ _ ht hl hw => by
    change tryEnd (settleBsync _ _) _ = _
    rw [settleBsync_of_running ht hl hw, tryEnd_of_live ht hl]

/-! ## Results that registers alone take -/

section
variable (x : Member) (s : State)

theorem late_keeps (ws : List RegWrite) : (late s ws).keeps x s := Or.inl rfl

theorem lateLane_keeps (ws : List RegWrite) : (lateLane s ws).keeps x s := Or.inl rfl

theorem intResult_keeps (m : Mods) (d : VReg) (w : Word) : (intResult s m d w).keeps x s := by
  unfold intResult
  split <;> exact Or.inl rfl

theorem fmtResult_keeps (b : Bool) (f : FDef) (w : RegWrite) (fl : Flags) : (fmtResult s b f w fl).keeps x s := Or.inl rfl

theorem fmtOp_keeps (d : VReg) (fs : Slot) (accepts : Nat → Bool) (rm : Round) (m : Mods) (b : Bool)
    (g : FDef → Round → Nat → Nat × Flags) : (fmtOp x s d fs accepts rm m b g).keeps x s := by
  unfold fmtOp
  split
  · trivial
  · exact fmtResult_keeps ..

theorem fmt1_keeps (d a : VReg) (fs : Slot) (accepts : Nat → Bool) (rm : Round) (m : Mods) (b : Bool)
    (op : Round → Val → Val × Flags) : (fmt1 x s d a fs accepts rm m b op).keeps x s := by
  unfold fmt1
  exact fmtOp_keeps ..

theorem fmt2_keeps (d a b : VReg) (fs : Slot) (accepts : Nat → Bool) (rm : Round) (m : Mods) (fix : Bool)
    (op : Round → Val → Val → Val × Flags) : (fmt2 x s d a b fs accepts rm m fix op).keeps x s := by
  unfold fmt2
  exact fmtOp_keeps ..

theorem fmt3_keeps (d a b k : VReg) (fs : Slot) (rm : Round) (m : Mods) (op : Round → Val → Val → Val → Val × Flags) :
    (fmt3 x s d a b k fs rm m op).keeps x s := by
  unfold fmt3
  exact fmtOp_keeps ..

theorem fmtTransc_keeps (d a : VReg) (fs : Slot) (rm : Round) (m : Mods) (fn : Transc) :
    (fmtTransc x s d a fs rm m fn).keeps x s := by
  unfold fmtTransc
  exact fmtOp_keeps ..

end

/-! ## Every instruction of a core -/

/-- Instructions whose members act on registers, predicates, view masks and flags of their own threads alone. -/
theorem passes_of_localOnly {i : Instr} (h : LocalOnly i) : PassesFalseGuard i := by
  cases i with
  | nop | imulh | ishr | icmp | ilim | isel | ibit | bfx | bfi | iun | addk | adpc | movk | movhk | rdsr | getfmt | lmov | vote
  | voteBallot | perm | plog | pmovToV | pmovFromV | vmcnt | vmtest | vmop | vmffs | vmget | vmset | engst | rdpr =>
    exact passes_of_keeps (fun _ => rfl) fun _ _ => Or.inl rfl
  | iadd | isub | imul | imad | iand | ior | ixor | iandn | ishl | irot =>
    exact passes_of_keeps (fun _ => rfl) fun _ _ => intResult_keeps ..
  | fadd | fsub | fmul | fdiv => exact passes_of_keeps (fun _ => rfl) fun _ _ => fmt2_keeps ..
  | ffma => exact passes_of_keeps (fun _ => rfl) fun _ _ => fmt3_keeps ..
  | fsqrt | frcp | fscale => exact passes_of_keeps (fun _ => rfl) fun _ _ => fmt1_keeps ..
  | flim | frnd => exact passes_of_keeps (fun _ => rfl) fun _ _ => fmtOp_keeps ..
  | fexp2 | flog2 | fexp | flog | frsqrt | fsin | fcos | ftanh | ferf =>
    exact passes_of_keeps (fun _ => rfl) fun _ _ => fmtTransc_keeps ..
  | wrsr _ a =>
    exact passes_of_keeps (fun _ => rfl) fun x _ =>
      Or.inr ⟨fun t => { t with fflags := (x.t.readV a).setWidth 5 }, fun _ => rfl, rfl⟩
  | fcmp | fclass | bpack | bunpack =>
    refine passes_of_keeps (fun _ => rfl) fun _ _ => ?_
    split
    · trivial
    · exact fmtResult_keeps ..
  | fsgn =>
    refine passes_of_keeps (fun _ => rfl) fun _ _ => ?_
    split
    · trivial
    · split
      · trivial
      · exact fmtResult_keeps ..
  | cvt =>
    refine passes_of_keeps (fun _ => rfl) fun _ _ => ?_
    split
    · exact fmtResult_keeps ..
    · trivial
  | rdind | wrind =>
    refine passes_of_keeps (fun _ => rfl) fun _ _ => ?_
    split
    · trivial
    · exact lateLane_keeps ..
  | _ => exact h.elim

theorem takeBranch_keeps (x y : Member) (s : State) (t : Word) (p : Bool) : (takeBranch x s t p).keeps y s := Or.inl rfl

theorem takeCall_keeps (x y : Member) (s : State) (t : Word) : (takeCall x s t).keeps y s := by
  unfold takeCall
  split
  · trivial
  · exact Or.inl rfl

/-- Every word: what a false guard passes over does not matter, since it is only other members of the gang that perform it. -/
theorem passesFalseGuard {i : Instr} (h : (commonOf? i).isSome = true) : PassesFalseGuard i := by
  cases i with
  | ld => exact passes_of_runShared (fun _ => rfl) fun _ _ => bodyLoad_spares ..
  | ldp => exact passes_of_runShared (fun _ => rfl) fun _ _ => bodyLoad_spares ..
  | st => exact passes_of_runShared (fun _ => rfl) fun _ _ => bodyStore_spares ..
  | stp => exact passes_of_runShared (fun _ => rfl) fun _ _ => bodyStore_spares ..
  | ldfe => exact passes_of_runShared (fun _ => rfl) fun _ _ => bodyTake_spares ..
  | ldfeClr => exact passes_of_runShared (fun _ => rfl) fun _ _ => bodyTake_spares ..
  | stfe => exact passes_of_runShared (fun _ => rfl) fun _ _ => bodyFill_spares ..
  | pf =>
    refine passes_of_runShared (fun _ => rfl) fun _ _ => ?_
    split
    · split
      · refine done_spares ?_ _
        split
        · exact notePage_coresKept ..
        · exact .refl _
      · exact done_spares (.refl _) _
    · exact done_spares (.refl _) _
  | atomAdd | atomMin | atomMax | atomAnd | atomOr | atomXor | atomXchg | atomCas =>
    exact passes_of_runAtom (fun _ => rfl) fun _ _ => bodyAtom_spares ..
  | fence | fenceSc => exact passes_of_runShared (fun _ => rfl) fun _ _ => waitFor_spares (.refl _) ..
  | bsync => exact passes_bsync _
  | binit => exact passes_of_runShared (fun _ => rfl) fun _ _ => bodyBinit_spares ..
  | barr => exact passes_of_runShared (fun _ => rfl) fun _ _ => bodyBarr_spares ..
  | bwait => exact passes_of_runShared (fun _ => rfl) fun _ _ => bodyBwait_spares ..
  | nbpost => exact passes_of_runShared (fun _ => rfl) fun _ _ => bodyNbpost_spares ..
  | nbget => exact passes_of_runShared (fun _ => rfl) fun _ _ => bodyNbget_spares ..
  | nbinit => exact passes_of_runShared (fun _ => rfl) fun _ _ => bodyNbinit_spares ..
  | br => exact passes_of_keeps (fun _ => rfl) fun _ _ => takeBranch_keeps ..
  | call => exact passes_of_keeps (fun _ => rfl) fun _ _ => takeCall_keeps ..
  | bri =>
    refine passes_of_keeps (fun _ => rfl) fun _ _ => ?_
    split
    · exact takeBranch_keeps ..
    · trivial
  | calli =>
    refine passes_of_keeps (fun _ => rfl) fun _ _ => ?_
    split
    · exact takeCall_keeps ..
    · trivial
  | ret =>
    refine passes_of_keeps (fun _ => rfl) fun _ _ => ?_
    split
    · trivial
    · split
      · trivial
      · exact Or.inl rfl
  | trap => exact passes_of_keeps (fun _ => rfl) fun _ _ => trivial
  | brk =>
    refine passes_of_keeps (fun _ => rfl) fun _ _ => ?_
    split
    · trivial
    · exact Or.inl rfl
  | exit => exact passes_exit _
  | spawn => exact passes_of_runShared (fun _ => rfl) fun _ _ => bodySpawn_spares ..
  | joinRec => exact passes_of_runShared (fun _ => rfl) fun _ _ => bodyJoin_spares ..
  | fork => exact passes_of_runShared (fun _ => rfl) fun _ _ => bodyFork_spares ..
  | rdv => exact passes_of_runShared (fun _ => rfl) fun _ _ => bodyRdv_spares ..
  | cpy | gth | sct | xds | tpf | col => exact passes_of_runShared (fun _ => rfl) fun _ _ => bodyStart_spares ..
  | setfmt =>
    refine passes_of_runShared (fun _ => rfl) fun _ _ => ?_
    dsimp only
    split
    · trivial
    · split
      · rename_i hg
        exact setWg_fmts_sparesOthers hg _
      · exact done_spares (.refl _) _
  | wrpr =>
    refine passes_of_runShared (fun _ => rfl) fun _ _ => ?_
    dsimp only
    split
    · exact setDebug_sparesOthers ..
    · trivial
  | bfinv => exact passes_of_runShared (fun _ => rfl) fun _ _ => bodyBfinv_spares ..
  | tlbinvPg =>
    refine passes_of_runShared (fun _ => rfl) fun _ _ => ?_
    dsimp only
    split
    · exact done_spares (dropTranslations_coresKept ..) _
    · trivial
  | tlbinvAll => exact passes_of_runShared (fun _ => rfl) fun _ _ => done_spares (dropTranslations_coresKept ..) _
  | hqctlRd => exact passes_of_runShared (fun _ => rfl) fun _ _ => bodyHqctl_spares _ fun _ => done_spares (.refl _) _
  | hqctlPause | hqctlResume | hqctlDrain =>
    exact passes_of_runShared (fun _ => rfl) fun _ _ => bodyHqctl_spares _ fun _ => done_spares (setPaused_coresKept ..) _
  | lehrsv => exact passes_of_runShared (fun _ => rfl) fun _ _ => bodyLehrsv_spares ..
  | lehrld => exact passes_of_runShared (fun _ => rfl) fun _ _ => bodyLehrld_spares ..
  | stoptArm =>
    refine passes_of_runShared (fun _ => rfl) fun _ _ => done_spares ?_ _
    split
    · exact .refl _
    · exact stopAt_coresKept _
  | stoptOff => exact passes_of_runShared (fun _ => rfl) fun _ _ => done_spares (stopAt_coresKept _) _
  | ocld | mma | mmas | smrs | drn | drnm | azero | qop | qopCmp | qmovk | qld | qst | pbr | loop | parr | pend =>
    exact passes_of_pontil rfl
  | nop | iadd | isub | imul | imulh | imad | iand | ior | ixor | iandn | ishl | ishr | irot | icmp | ilim | isel | ibit | bfx | bfi
  | iun | addk | adpc | movk | movhk | rdsr | wrsr | fadd | fsub | fmul | ffma | fdiv | fsqrt | frcp | flim | fcmp | fclass | fsgn
  | frnd | cvt | fscale | fexp2 | flog2 | fexp | flog | frsqrt | fsin | fcos | ftanh | ferf | bpack | bunpack | getfmt | lmov | vote
  | voteBallot | perm | rdind | wrind | plog | pmovToV | pmovFromV | vmcnt | vmtest | vmop | vmffs | vmget | vmset | engst | rdpr =>
    exact passes_of_localOnly trivial
  | _ => cases h

theorem guardOk_of_gate_false {s : State} {m : Member} {i : Instr} (hg : gate s m i = .ok false) :
    m.t.guardOk i = false := by
  unfold gate at hg
  dsimp only at hg
  split at hg
  · cases hg
  · split_ifs at hg with _ _ hguard
    · simpa using hguard
    · cases hg

/-- A word of an event has no guard that could be false. -/
theorem commonOf?_of_gate_false {s : State} {m : Member} {i : Instr} (hg : gate s m i = .ok false) :
    (commonOf? i).isSome = true := by
  have hguard := guardOk_of_gate_false hg
  cases hc : commonOf? i with
  | some c => rfl
  | none =>
    unfold Thread.guardOk at hguard
    rw [hc] at hguard
    cases hguard

end Machine
end Sys2Proof

open Sys2Proof Sys2Proof.Machine

/-- Settles O8: other members of the gang spare the thread and what its gate reads, and its own part is the advance. -/
theorem falseGuardOnlyAdvances : Obligations.FalseGuardOnlyAdvances := by
  intro s m i hm hg
  obtain ⟨s', t', he, ht, rfl⟩ := passesFalseGuard (commonOf?_of_gate_false hg) s m hm hg
  exact ⟨s', _, he, ht, apply_nothing ..⟩
end

section
/-! PROOFS. A guard that is poisoned, read by an instruction that also reads a register inside a short window. -/

namespace Sys2Proof
namespace Machine

/-- A thread whose predicate p0 holds and is poisoned, and whose v2 is inside a short window. -/
def poisonedGuardThread : Thread :=
  { freshThread 0 255 0 with preds := [true, false, false, false, false, false, false], windows := [⟨.v 2 0, 3⟩], poisoned := [.p 0] }

def poisonedGuardMember : Member := ⟨{ placedWg with threads := [poisonedGuardThread] }, poisonedGuardThread, [0]⟩

/-- That thread alone on issue, in a context with the checking flag. -/
def poisonedGuardState : State :=
  { State.reset with
      contexts := [⟨0, 0, false, true, false, 0, 0⟩], launches := [placedLaunch]
      workgroups := [poisonedGuardMember.wg], issue := [.gang 0 [0]] }

/-- ?p0 iadd v1, v2, v3. -/
def guardedAdd : Instr := .iadd ⟨0, .pred 0 false⟩ 1 2 3 (.source 0)

/-- The poison of the guard is found before the short window of the source. -/
theorem exec_poisonedGuard : nextP (exec guardedAdd poisonedGuardState) (fun s' =>
    someP (s'.thread? 0 0) (fun t => t.trap == some (.memPoison, 0))) = true := by decide +kernel

end Machine
end Sys2Proof

open Sys2Proof Sys2Proof.Machine

/-- Refutes O10: a true guard whose predicate is poisoned raises MEM_POISON, although a source is inside a short window and the
checking flag is set. The statement has STALL_SHORT there, as R328 does, which puts it before every other run-time check. -/
theorem not_shortWindows : ¬ Obligations.ShortWindows := by
  intro h
  obtain ⟨-, hshort⟩ := h
  obtain ⟨s', t', hexec, hthread, htrapped, -⟩ := hshort poisonedGuardState poisonedGuardMember guardedAdd
    (onIssue_of (by decide +kernel)) rfl (by decide +kernel) rfl (Or.inr (by decide +kernel))
  obtain ⟨z, hz, hpoison⟩ := nextP_of exec_poisonedGuard
  obtain rfl : s' = z := Host.Outcome.next.inj (hexec.symm.trans hz)
  obtain ⟨t, ht, hmem⟩ := someP_of hpoison
  obtain rfl : t' = t := Option.some.inj (hthread.symm.trans ht)
  rw [htrapped] at hmem
  exact absurd hmem (by decide)
end

section
/-! PROOFS. A step: what is on issue is fetched and performed, else time passes and one turn is taken (R39, R98, R172; log 1, log 2).
With no write on record, a fetch gives what memory holds. -/

namespace Sys2Proof
namespace Machine

/-! ## The head of the issue list -/

theorem step_of_issue {s : State} {x : Issuer} {rest : List Issuer} (hi : s.issue = x :: rest) : step s = stepIssue s := by
  unfold step
  rw [hi]

theorem stepIssue_of_fetched {s t : State} {i : Instr} (h : fetchIssue s = .ok (i, t)) : stepIssue s = exec i t := by
  unfold stepIssue
  rw [h]

theorem stepIssue_of_stopped {s t : State} (h : fetchIssue s = .error t) : stepIssue s = .next t := by
  unfold stepIssue
  rw [h]

section
variable {s t : State} {rest : List Issuer} {u : Nat} {tids : List Nat} {g : Workgroup} {m : Member} {ms : List Member}
  {l : Launch} {w : Word} {i : Instr}

theorem fetchThread_of_word (hl : s.launch? g.launch = some l)
    (hw : fetchWord s (binderOf s g m.t) l.since m.t.pc = .ok (w, t)) (hd : decodeWord w = .ok i) :
    fetchThread s g m.t = .ok (i, t) := by
  have hsince : sinceOf s g = l.since := by unfold sinceOf; rw [hl]
  unfold fetchThread
  rw [hsince, hw]
  dsimp only
  rw [hd]

section
variable (hi : s.issue = .gang u tids :: rest) (hg : s.wg? u = some g) (hm : membersOf g tids = m :: ms)
include hi hg hm

theorem fetchIssue_gang_waits (h : fetchWaits s (binderOf s g m.t) m.t.pc = true) :
    fetchIssue s = .error { s with issue := rest } := by
  unfold fetchIssue
  simp only [hi, hg, hm, h, if_true]

theorem fetchIssue_gang (h : fetchWaits s (binderOf s g m.t) m.t.pc = false) (hf : fetchThread s g m.t = .ok (i, t)) :
    fetchIssue s = .ok (i, t) := by
  unfold fetchIssue
  simp only [hi, hg, hm, h, hf, Bool.false_eq_true, if_false]

end

section
variable {p : Pontil} (hp : PontilOnIssue s p)
include hp

theorem fetchIssue_pontil_waits (h : fetchWaits s (binderOfPontil s p) p.pc = true) : fetchIssue s = .error s.popped := by
  obtain ⟨⟨rest, hi⟩, hfound, -, -⟩ := hp
  unfold fetchIssue State.popped
  simp only [hi, hfound, h, Bool.or_true, if_true, List.tail_cons]

theorem fetchIssue_pontil (h : fetchWaits s (binderOfPontil s p) p.pc = false) (hf : fetchPontil s p = .ok (i, t)) :
    fetchIssue s = .ok (i, t) := by
  obtain ⟨⟨rest, hi⟩, hfound, hstate, hwait⟩ := hp
  have hgoes : p.goesOn = true := by simp [Pontil.goesOn, hstate, hwait]
  unfold fetchIssue
  simp only [hi, hfound, h, hgoes, hf, Bool.not_true, Bool.or_false, Bool.false_eq_true, if_false]

end

theorem fetchPontil_of_word {p : Pontil} (hg : s.wg? p.wg = some g) (hl : s.launch? g.launch = some l)
    (hw : fetchWord s (binderOfPontil s p) l.since p.pc = .ok (w, t)) (hd : decodeWord w = .ok i) :
    fetchPontil s p = .ok (i, t) := by
  have hlaunch : s.launchOfWg p.wg = some l := by unfold State.launchOfWg; rw [hg]; exact hl
  unfold fetchPontil
  simp only [hlaunch, hw, hd]

end

/-! ## With nothing on issue -/

theorem step_of_idle {s : State} (h : s.issue = []) : step s = stepNext (passTime s) := by
  unfold step
  rw [h]

theorem stepEvent_of_awake {s : State} {i : Instr} (hc : commonOf? i = none) (ha : s.awake i = true) :
    stepEvent s i = exec i s := by
  unfold stepEvent
  rw [hc, ha]
  rfl

theorem stepNext_of_due {z : State} {i : Instr} (h : dueEvent z = some i) : stepNext z = exec i z := by
  unfold stepNext
  rw [h]

theorem stepNext_of_arrived {z t : State} {i : Instr} (hd : dueEvent z = none) (h : arrivedReady z = some (t, i)) :
    stepNext z = stepEvent t i := by
  unfold stepNext
  rw [hd, h]

theorem stepNext_of_turn {z : State} {x : Turn} {rest : List Turn} (hd : dueEvent z = none) (ha : arrivedReady z = none)
    (h : z.agenda = x :: rest) : stepNext z = stepTurn { z with agenda := rest } x := by
  unfold stepNext
  rw [hd, ha, h]

/-- A command that may be performed on arrival is an event whose caller is its sender. -/
theorem stepFrame_of_free {s : State} {sender : Nat} {bytes : List Byte} (hp : s.power ≠ .off)
    (hh : commandHeld s (frameStep s sender bytes) = false) :
    stepFrame s sender bytes = stepEvent { s with caller := some sender, mute := false } (frameStep s sender bytes) := by
  unfold stepFrame
  rw [if_neg hp, hh]
  rfl

/-! ## A fetch leaves memory and its record as they were -/

/-- Memory and the record of its writes are as before. -/
def MemoryKept (s s' : State) : Prop := s'.mem = s.mem ∧ s'.hist = s.hist

theorem MemoryKept.refl (s : State) : MemoryKept s s := ⟨rfl, rfl⟩

theorem MemoryKept.trans {a b c : State} (h₁ : MemoryKept a b) (h₂ : MemoryKept b c) : MemoryKept a c :=
  ⟨h₂.1.trans h₁.1, h₂.2.trans h₁.2⟩

theorem MemoryKept.peek {s s' : State} (h : MemoryKept s s') (l : Nat) : s'.peek l = s.peek l := by
  unfold State.peek
  rw [h.1]

theorem pick_memoryKept (s : State) (n : Nat) : MemoryKept s (s.pick n).2 := by
  unfold State.pick
  split <;> exact ⟨rfl, rfl⟩

theorem translate_memoryKept {s s' : State} {ctx va : Nat} {p : Place} (h : translate s ctx va = .ok (p, s')) :
    MemoryKept s s' := by
  unfold translate translatePaged at h
  dsimp only at h
  split_ifs at h
  · cases h; exact .refl s
  · cases h; exact .refl s
  · split at h
    · cases h; exact .refl s
    · split at h
      · cases h
      · cases h; exact ⟨rfl, rfl⟩

theorem nextPlace_memoryKept {s s' : State} {ctx va : Nat} {prev : Option Place} {p : Place}
    (h : nextPlace s ctx va prev = .ok (p, s')) : MemoryKept s s' := by
  unfold nextPlace at h
  split at h
  · split_ifs at h
    · exact translate_memoryKept h
    · cases h; exact .refl s
  · exact translate_memoryKept h

theorem placesFrom_memoryKept {s s' : State} {ctx n va : Nat} {prev : Option Place} {ps : List Place}
    (h : placesFrom s ctx va n prev = .ok (ps, s')) : MemoryKept s s' := by
  induction n generalizing s va prev ps with
  | zero => cases h; exact .refl _
  | succ n ih =>
    rw [placesFrom_succ] at h
    cases hp : nextPlace s ctx va prev with
    | error c => rw [hp] at h; cases h
    | ok x =>
      rw [hp] at h
      cases hq : placesFrom x.2 ctx (va + 1) n (some x.1) with
      | error c => simp only [Except.bind, hq, Except.map] at h; cases h
      | ok y =>
        simp only [Except.bind, hq, Except.map] at h
        cases h
        exact (nextPlace_memoryKept hp).trans (ih hq)

theorem places_memoryKept {s s' : State} {ctx va n : Nat} {ps : List Place} (h : places s ctx va n = .ok (ps, s')) :
    MemoryKept s s' := placesFrom_memoryKept h

theorem notePage_memoryKept (s : State) (die : Option Nat) (va : Nat) : MemoryKept s (notePage s die va) := by
  unfold notePage
  split
  · exact .refl s
  · split_ifs <;> exact ⟨rfl, rfl⟩

theorem readEntry_memoryKept {s s' : State} {holder : Actor} {c i e : Nat} (h : readEntry s holder c i = .ok (e, s')) :
    MemoryKept s s' := by
  unfold readEntry at h
  split at h
  · cases h
  · split at h
    · cases h
    · dsimp only at h
      split at h
      · cases h; exact .refl s
      · split at h
        · cases h
        · rename_i ps z hp
          split at h
          · cases h
          · have hk : MemoryKept z (if anyAway ps = true then z.pick (2 ^ 512) else (ofBytes (latestBytes z ps), z)).2 := by
              split
              · exact pick_memoryKept ..
              · exact .refl z
            generalize (if anyAway ps = true then z.pick (2 ^ 512) else (ofBytes (latestBytes z ps), z)) = k at h hk
            cases h
            exact ((places_memoryKept hp).trans hk).trans (.trans ⟨rfl, rfl⟩ (notePage_memoryKept ..))

theorem bindingEntry_memoryKept {s s' : State} {bd : Binder} {b : Nat} {d : Bound} (h : bindingEntry s bd b = .ok (d, s')) :
    MemoryKept s s' := by
  unfold bindingEntry at h
  split at h
  · cases h
  · rename_i d₀ z he
    have hz : MemoryKept s z := by
      unfold entryOf at he
      dsimp only at he
      split at he
      · cases he
      · split at he
        · cases he
        · rename_i hr
          split_ifs at he
          cases he
          exact readEntry_memoryKept hr
    split at h
    · cases h
    · cases h; exact hz

/-! ## A fetch where no write is on record -/

/-- A fetch that succeeds gives the number that its eight bytes are. -/
theorem fetchWord_word {s t t' t'' : State} {bd : Binder} {since : Nat} {pc w : Word} {d : Bound} {ps : List Place}
    (hb : bindingEntry s bd 62 = .ok (d, t)) (hp : places t bd.ctx (d.base + pc.toNat) 8 = .ok (ps, t'))
    (hw : fetchWord s bd since pc = .ok (w, t'')) :
    ∃ v, w = BitVec.ofNat 64 (ofBytes (readPart (notePage t' bd.agent.die? (d.base + pc.toNat)) bd.agent v .fetch ps).1) := by
  unfold fetchWord at hw
  rw [hb] at hw
  dsimp only at hw
  split at hw
  · cases hw
  · split at hw
    · cases hw
    · rw [hp] at hw
      dsimp only at hw
      split_ifs at hw
      cases hw
      exact ⟨_, rfl⟩

/-- With no write on record it is what memory holds, least significant byte first. -/
theorem fetchWord_of_noHist {s t t' t'' : State} {bd : Binder} {since : Nat} {pc w : Word} {d : Bound} {ps : List Place}
    (h : s.hist = []) (hb : bindingEntry s bd 62 = .ok (d, t)) (hp : places t bd.ctx (d.base + pc.toNat) 8 = .ok (ps, t'))
    (hps : ps.all (fun p => p.away?.isNone) = true) (hw : fetchWord s bd since pc = .ok (w, t'')) :
    w = BitVec.ofNat 64 (ofBytes ((ps.filterMap Place.loc?).map s.peek)) := by
  obtain ⟨v, rfl⟩ := fetchWord_word hb hp hw
  have hkept := ((bindingEntry_memoryKept hb).trans (places_memoryKept hp)).trans
    (notePage_memoryKept t' bd.agent.die? (d.base + pc.toNat))
  rw [readPart_clean (hkept.2.trans h) _ _ _ hps, funext hkept.peek]
  rfl

end Machine
end Sys2Proof

open Sys2Proof Sys2Proof.Machine

/-- Settles O4: the cases of a step one by one, and a fetch that finds no write on record. -/
theorem stepRunsDecodedInstruction : Obligations.StepRunsDecodedInstruction := by
  refine ⟨?_, ?_, ?_, ?_⟩
  · intro s t rest u tids g m ms l w i hi hg hm hl
    rw [step_of_issue hi]
    exact ⟨fun hwaits => stepIssue_of_stopped (fetchIssue_gang_waits hi hg hm hwaits), fun hwaits hw hd =>
      stepIssue_of_fetched (fetchIssue_gang hi hg hm hwaits (fetchThread_of_word hl hw hd))⟩
  · intro s t p g l w i hp hg hl
    obtain ⟨rest, hi⟩ := hp.1
    rw [step_of_issue hi]
    exact ⟨fun hwaits => stepIssue_of_stopped (fetchIssue_pontil_waits hp hwaits), fun hwaits hw hd =>
      stepIssue_of_fetched (fetchIssue_pontil hp hwaits (fetchPontil_of_word hg hl hw hd))⟩
  · intro s t rest sender bytes i hi
    rw [step_of_idle hi]
    refine ⟨stepNext_of_due, fun hd ha hc hawake => ?_, fun hd ha ht hc hawake => ?_, fun hd ha ht hp hf hc hh hawake => ?_⟩
    · rw [stepNext_of_arrived hd ha, stepEvent_of_awake hc hawake]
    · rw [stepNext_of_turn hd ha ht]
      exact stepEvent_of_awake hc hawake
    · subst hf
      rw [stepNext_of_turn hd ha ht]
      exact (stepFrame_of_free (s := { passTime s with agenda := rest }) hp hh).trans (stepEvent_of_awake hc hawake)
  · rintro s t t' bd since pc w d ps hh hb hp hps ⟨t'', hw⟩
    exact fetchWord_of_noHist hh hb hp hps hw
end

section
/-! PROOFS. The return of a result (R32, R40, R245): it closes the windows of its registers, so that they read as written. -/

namespace Sys2Proof
namespace Machine

/-! ## Windows of other registers -/

/-- Windows of other registers do not stand before a read of one. -/
theorem readVThrough_of_apart {r : VReg} {ws : List Window} (h : ∀ w ∈ ws, ∀ y, w.old ≠ .v r y) (x : Word) :
    readVThrough r ws x = x := by
  induction ws with
  | nil => rfl
  | cons w ws ih =>
    have ih := ih fun w hw => h w (List.mem_cons_of_mem _ hw)
    unfold readVThrough
    split
    · rename_i q y hq
      have hne : q ≠ r := fun he => h w List.mem_cons_self y (he ▸ hq)
      rw [if_neg hne, ih]
    · exact ih

theorem readPThrough_of_apart {p : PReg} {ws : List Window} (h : ∀ w ∈ ws, ∀ b, w.old ≠ .p p b) (x : Bool) :
    readPThrough p ws x = x := by
  induction ws with
  | nil => rfl
  | cons w ws ih =>
    have ih := ih fun w hw => h w (List.mem_cons_of_mem _ hw)
    unfold readPThrough
    split
    · rename_i q y hq
      have hne : q ≠ p := fun he => h w List.mem_cons_self y (he ▸ hq)
      rw [if_neg hne, ih]
    · exact ih

/-! ## A result written late -/

/-- What a result written late leaves of its thread. -/
theorem Thread.writeLate_rest (t : Thread) (w : RegWrite) :
    (t.writeLate w).tid = t.tid ∧ (t.writeLate w).pc = t.pc ∧ (t.writeLate w).stall = t.stall ∧
    (t.writeLate w).fflags = t.fflags ∧ (t.writeLate w).wait = t.wait := by
  unfold Thread.writeLate Thread.write
  cases w <;> simp

theorem Thread.foldl_writeLate_rest (ws : List RegWrite) (t : Thread) :
    (ws.foldl Thread.writeLate t).tid = t.tid ∧ (ws.foldl Thread.writeLate t).pc = t.pc ∧
    (ws.foldl Thread.writeLate t).stall = t.stall ∧ (ws.foldl Thread.writeLate t).fflags = t.fflags ∧
    (ws.foldl Thread.writeLate t).wait = t.wait := by
  induction ws generalizing t with
  | nil => exact ⟨rfl, rfl, rfl, rfl, rfl⟩
  | cons w ws ih => simpa only [List.foldl_cons, Thread.writeLate_rest] using ih (t.writeLate w)

/-- A register written late is read as written: its windows are closed. -/
theorem Thread.readV_writeLate (t : Thread) (r : VReg) (x : Word) (hg : granted t.regs.length r = true) (hz : r ≠ 0xFF) :
    (t.writeLate (.v r x)).readV r = x := by
  have hclosed : ∀ w ∈ (t.writeLate (.v r x)).windows, ∀ y, w.old ≠ .v r y := by
    intro w hw y he
    simp only [Thread.writeLate, Thread.write, Thread.setV_windows, List.mem_filter, he] at hw
    simp [RegWrite.same] at hw
  rw [Thread.readV, if_neg hz, readVThrough_of_apart hclosed]
  exact Thread.getV_setV_same _ _ _ (granted_row hg hz)

theorem Thread.getV_writeLate_other (t : Thread) (r r' : VReg) (x : Word) (h : r' ≠ r) :
    (t.writeLate (.v r x)).getV r' = t.getV r' := Thread.getV_setV_other _ _ _ _ h.symm

theorem Thread.readP_writeLate (t : Thread) (p : PReg) (b : Bool) (h : t.preds.length = 7) :
    (t.writeLate (.p p b)).readP p = b := by
  have hclosed : ∀ w ∈ (t.writeLate (.p p b)).windows, ∀ y, w.old ≠ .p p y := by
    intro w hw y he
    simp only [Thread.writeLate, Thread.write, Thread.setP_windows, List.mem_filter, he] at hw
    simp [RegWrite.same] at hw
  rw [Thread.readP, readPThrough_of_apart hclosed]
  exact Thread.getP_setP_same _ _ _ h

/-! ## The thread after a return -/

/-- The thread once result `k` of those it is owed has returned. -/
def Thread.returned (t : Thread) (s : State) (ctx k : Nat) (o : Owed) : Thread :=
  { t.deliver s ctx o with owed := t.owed.eraseIdx k }

section
variable (t : Thread) (s : State) (ctx k : Nat) (o : Owed)

theorem Thread.returned_rest :
    (t.returned s ctx k o).tid = t.tid ∧ (t.returned s ctx k o).pc = t.pc ∧ (t.returned s ctx k o).stall = t.stall ∧
    (t.returned s ctx k o).fflags = t.fflags ||| o.flags ∧ (t.returned s ctx k o).wait = t.wait := by
  obtain ⟨htid, hpc, hstall, hflags, hwait⟩ := Thread.foldl_writeLate_rest (o.result s ctx) t
  exact ⟨htid, hpc, hstall, congrArg (· ||| o.flags) hflags, hwait⟩

/-- A single write of a register: of a drain, the word of its queue. -/
theorem Owed.result_v {r : VReg} {x : Word} (h : o.writes = [.v r x]) :
    o.result s ctx = [.v r (match o.queue with | none => x | some q => queueWord s ctx q)] := by
  unfold Owed.result
  cases o.queue <;> simp [h]

theorem Owed.result_p {p : PReg} {x : Bool} (h : o.writes = [.p p x]) : o.result s ctx = [.p p x] := by
  unfold Owed.result
  cases o.queue <;> simp [h]

theorem Thread.returned_v {r : VReg} {x : Word} (h : o.writes = [.v r x]) (hg : granted t.regs.length r = true) (hz : r ≠ 0xFF) :
    (t.returned s ctx k o).readV r = (match o.queue with | none => x | some q => queueWord s ctx q) ∧
    ∀ r', r' ≠ r → (t.returned s ctx k o).getV r' = t.getV r' := by
  have hdeliver := o.result_v s ctx h
  unfold Thread.returned Thread.deliver
  rw [hdeliver]
  exact ⟨t.readV_writeLate r _ hg hz, fun r' hr => t.getV_writeLate_other r r' _ hr⟩

theorem Thread.returned_p {p : PReg} {x : Bool} (h : o.writes = [.p p x]) (hl : t.preds.length = 7) :
    (t.returned s ctx k o).readP p = x ∧ (t.returned s ctx k o).regs = t.regs := by
  unfold Thread.returned Thread.deliver
  rw [o.result_p s ctx h]
  exact ⟨t.readP_writeLate p x hl, rfl⟩

end

/-! ## No thread waits for a save -/

theorem mem_replaceFirst {α : Type} {p : α → Bool} {v x : α} {l : List α} (h : x ∈ replaceFirst p v l) : x = v ∨ x ∈ l := by
  induction l with
  | nil => cases h
  | cons a as ih =>
    unfold replaceFirst at h
    split at h
    · exact (List.mem_cons.1 h).imp id (List.mem_cons_of_mem _)
    · rcases List.mem_cons.1 h with rfl | h
      · exact .inr List.mem_cons_self
      · exact (ih h).imp id (List.mem_cons_of_mem _)

theorem waitersOf_eq_nil {s : State} {k : WaitKind} :
    waitersOf s k = [] ↔ ∀ g ∈ s.workgroups, ∀ t ∈ g.threads, ∀ w, t.wait = some w → w.kind ≠ k := by
  unfold waitersOf
  simp only [List.flatMap_eq_nil_iff, List.filterMap_eq_nil_iff]
  refine forall₄_congr fun g _ t _ => ?_
  cases t.wait with
  | none => simp
  | some w => simp

/-- A change of one thread that keeps its wait brings no waiter. -/
theorem waitersOf_modThread {s : State} {u tid : Nat} {f : Thread → Thread} {k : WaitKind} (hf : ∀ t, (f t).wait = t.wait)
    (h : waitersOf s k = []) : waitersOf (s.modThread u tid f) k = [] := by
  rw [waitersOf_eq_nil] at h ⊢
  unfold State.modThread
  split
  · exact h
  · rename_i g hg
    split
    · exact h
    · rename_i t ht
      have hgm : g ∈ s.workgroups := List.mem_of_find?_eq_some hg
      have htm : t ∈ g.threads := List.mem_of_find?_eq_some ht
      intro g' hg' t' ht' w hw
      obtain rfl | hg' := mem_replaceFirst hg'
      · obtain rfl | ht' := mem_replaceFirst ht'
        · exact h g hgm t htm w ((hf t).symm.trans hw)
        · exact h g hgm t' ht' w hw
      · exact h g' hg' t' ht' w hw

theorem retryAll_of_no_waiter {s : State} {k : WaitKind} (h : waitersOf s k = []) : retryAll k s = s := by
  unfold retryAll sortedWaiters
  rw [h]
  split <;> rfl

/-! ## The event -/

section
variable {s : State} {u tid k : Nat} {g : Workgroup} {t : Thread} {o : Owed} (hg : s.wg? u = some g) (ht : s.thread? u tid = some t)
include hg ht

theorem scoreboardReturn_none (ho : t.owed[k]? = none) : exec (.scoreboardReturn ⟨u, tid⟩ k) s = .next s := by
  change execScoreboardReturn _ _ _ = _
  simp only [execScoreboardReturn, hg, ht, ho]

theorem scoreboardReturn_held (ho : t.owed[k]? = some o) (hh : o.held s g.ctx = true) :
    exec (.scoreboardReturn ⟨u, tid⟩ k) s = .next s := by
  change execScoreboardReturn _ _ _ = _
  simp only [execScoreboardReturn, hg, ht, ho, hh, if_true]

/-- Where no save waits for it, the return of a result changes its thread alone. -/
theorem scoreboardReturn_delivers (ho : t.owed[k]? = some o) (hw : waitersOf s .save = []) (hh : o.held s g.ctx = false) :
    exec (.scoreboardReturn ⟨u, tid⟩ k) s = .next (s.modThread u tid (fun t => t.returned s g.ctx k o)) := by
  have hretry := retryAll_of_no_waiter (waitersOf_modThread (u := u) (tid := tid) (f := fun t => t.returned s g.ctx k o)
    (fun t => (t.returned_rest s g.ctx k o).2.2.2.2) hw)
  refine Eq.trans ?_ (congrArg Host.Outcome.next hretry)
  change execScoreboardReturn _ _ _ = _
  simp only [execScoreboardReturn, hg, ht, ho, hh, Bool.false_eq_true, if_false]
  rfl

end

end Machine
end Sys2Proof

open Sys2Proof Sys2Proof.Machine

/-- Settles O53: the event is the return of one result to one thread, read off field by field. -/
theorem resultsReturn : Obligations.ResultsReturn := by
  intro s u tid k g t o hg ht
  refine ⟨scoreboardReturn_none hg ht, fun ho hw => ⟨scoreboardReturn_held hg ht ho, fun hh => ?_⟩⟩
  have hcores : OnlyCores s (s.modThread u tid (fun t => t.returned s g.ctx k o)) := OnlyCores.modThread ..
  have hkeepsTid : ∀ t : Thread, (t.returned s g.ctx k o).tid = t.tid := fun t => (t.returned_rest s g.ctx k o).1
  obtain ⟨-, hpc, hstall, hflags, -⟩ := t.returned_rest s g.ctx k o
  have htid : t.tid = tid := by
    unfold State.thread? at ht
    rw [hg] at ht
    exact Workgroup.thread?_tid ht
  exact ⟨_, t.returned s g.ctx k o, scoreboardReturn_delivers hg ht ho hw hh,
    State.thread?_modThread_same (f := fun t => t.returned s g.ctx k o) ht ((hkeepsTid t).trans htid), hcores, hcores.peek,
    fun u' tid' hother => State.thread?_modThread_other (fun t h => (hkeepsTid t).trans h) hother,
    rfl, hflags, hpc, hstall, fun r x hr hgr hz => t.returned_v s g.ctx k o hr hgr hz, fun p x hp hl => t.returned_p s g.ctx k o hp hl⟩
end

section
/-! PROOFS. A gang on issue whose members act on their own threads alone: what its members' parts leave of workgroups, and what one
member's part leaves in the end, where records of issues and codes are kept too (R36, R272, R296). -/

namespace Sys2Proof
namespace Machine

/-! ## States whose workgroups differ in threads and marks only -/

/-- Of each workgroup only the threads, the mark of a halt and the formed gang may differ, and a halt stays. -/
structure WorkgroupsStay (s s' : State) : Prop where
  stays : ∀ u g, s.wg? u = some g → ∃ g', s'.wg? u = some g' ∧
    { g' with threads := g.threads, halted := g.halted, formed := g.formed } = g ∧ (g.halted = true → g'.halted = true)

theorem WorkgroupsStay.refl (s : State) : WorkgroupsStay s s := ⟨fun _ g hg => ⟨g, hg, rfl, id⟩⟩

theorem WorkgroupsStay.trans {a b c : State} (h₁ : WorkgroupsStay a b) (h₂ : WorkgroupsStay b c) : WorkgroupsStay a c := by
  refine ⟨fun u g hg => ?_⟩
  obtain ⟨g₁, hg₁, he₁, hh₁⟩ := h₁.stays u g hg
  obtain ⟨g₂, hg₂, he₂, hh₂⟩ := h₂.stays u g₁ hg₁
  refine ⟨g₂, hg₂, ?_, hh₂ ∘ hh₁⟩
  have := congrArg (fun x : Workgroup => { x with threads := g.threads, halted := g.halted, formed := g.formed }) he₂
  exact this.trans he₁

theorem CoresKept.workgroupsStay {s s' : State} (h : CoresKept s s') : WorkgroupsStay s s' :=
  ⟨fun u g hg => ⟨g, by unfold State.wg? at *; rw [h.1]; exact hg, rfl, id⟩⟩

/-- A workgroup replaced by one that differs from it in no more. -/
theorem setWg_workgroupsStay {s : State} {g h : Workgroup} (hg : s.wg? h.uid = some g)
    (he : { h with threads := g.threads, halted := g.halted, formed := g.formed } = g) (hh : g.halted = true → h.halted = true) :
    WorkgroupsStay s (s.setWg h) := by
  refine ⟨fun u k hk => ?_⟩
  by_cases hu : u = h.uid
  · subst hu
    obtain rfl : g = k := Option.some.inj (hg.symm.trans hk)
    exact ⟨h, State.wg?_setWg_same hg, he, hh⟩
  · exact ⟨k, (State.wg?_setWg_other hu).trans hk, rfl, id⟩

theorem modThread_workgroupsStay (s : State) (u tid : Nat) (f : Thread → Thread) : WorkgroupsStay s (s.modThread u tid f) := by
  unfold State.modThread
  split
  · exact .refl s
  · rename_i g hg
    split
    · exact .refl s
    · exact setWg_workgroupsStay (g := g) (by rw [← State.wg?_uid hg] at hg; exact hg) rfl id

/-- A workgroup that issues no further gang. -/
def Halted (s : State) (u : Nat) : Prop := ∃ g, s.wg? u = some g ∧ g.halted = true

theorem WorkgroupsStay.halted {s s' : State} {u : Nat} (h : WorkgroupsStay s s') : Halted s u → Halted s' u := by
  rintro ⟨g, hg, hh⟩
  obtain ⟨g', hg', -, hh'⟩ := h.stays u g hg
  exact ⟨g', hg', hh' hh⟩

/-- The workgroup issues no further gang. -/
def haltWg (s : State) (u : Nat) : State :=
  match s.wg? u with
  | some g => s.setWg { g with halted := true, formed := [] }
  | none => s

theorem haltWg_workgroupsStay (s : State) (u : Nat) : WorkgroupsStay s (haltWg s u) := by
  unfold haltWg
  split
  · rename_i g hg
    exact setWg_workgroupsStay (g := g) (h := { g with halted := true, formed := [] })
      (by rw [← State.wg?_uid hg] at hg; exact hg) rfl fun _ => rfl
  · exact .refl s

theorem haltWg_halted {s : State} {u : Nat} {g : Workgroup} (hg : s.wg? u = some g) : Halted (haltWg s u) u := by
  unfold haltWg
  rw [hg]
  obtain rfl := State.wg?_uid hg
  exact ⟨_, State.wg?_setWg_same (g := { g with halted := true, formed := [] }) hg, rfl⟩

/-- A code marks its thread, halts its workgroup, and records an event (R272). -/
theorem takeTrap_coresKept {s : State} {u : Nat} {g : Workgroup} (hg : s.wg? u = some g) (tid : Nat) (c : Code) (d : Word) :
    CoresKept (haltWg (s.modThread u tid (fun t => { t with trap := some (c, d), wait := none })) u) (takeTrap s u tid c d) := by
  unfold takeTrap
  rw [hg]
  exact CoresKept.trans ⟨rfl, rfl⟩ (emit_coresKept ..)

theorem takeTrap_workgroupsStay (s : State) (u tid : Nat) (c : Code) (d : Word) : WorkgroupsStay s (takeTrap s u tid c d) := by
  cases hg : s.wg? u with
  | none => unfold takeTrap; rw [hg]; exact .refl s
  | some g =>
    exact ((modThread_workgroupsStay ..).trans (haltWg_workgroupsStay ..)).trans (takeTrap_coresKept hg ..).workgroupsStay

theorem takeTrap_halted {s : State} {u tid : Nat} {t : Thread} (ht : s.thread? u tid = some t) (c : Code) (d : Word) :
    Halted (takeTrap s u tid c d) u := by
  cases hg : s.wg? u with
  | none => simp [State.thread?, hg] at ht
  | some g =>
    obtain ⟨g', hg', -⟩ := modThread_workgroupsStay s u tid (fun t => { t with trap := some (c, d), wait := none }) |>.stays u g hg
    exact (takeTrap_coresKept hg ..).workgroupsStay.halted (haltWg_halted hg')

/-! ## One member's part, and the parts of a gang -/

section
variable {i : Instr} {body : Member → State → MRes}

theorem stepMember_workgroupsStay {m : Member} {s : State} (hk : (body m s).keeps m s) :
    WorkgroupsStay s (stepMember i body s m) := by
  unfold stepMember
  split
  · exact takeTrap_workgroupsStay ..
  · exact modThread_workgroupsStay ..
  · cases hr : body m s with
    | trap c d => exact takeTrap_workgroupsStay ..
    | wait s' w =>
      rw [hr] at hk
      have hkept : CoresKept s s' := by rw [show s' = { s with uids := s'.uids } from hk]; exact ⟨rfl, rfl⟩
      exact hkept.workgroupsStay.trans (modThread_workgroupsStay ..)
    | done s' e =>
      rw [hr] at hk
      obtain rfl | ⟨f, -, rfl⟩ := hk
      · exact modThread_workgroupsStay ..
      · exact (modThread_workgroupsStay ..).trans (modThread_workgroupsStay ..)

/-- A member that raises a code halts its workgroup. -/
theorem stepMember_halted {m : Member} {s : State} {c : Code} {d : Word} (ht : s.thread? m.wg.uid m.t.tid = some m.t)
    (hg : gate s m i = .ok true) (hb : body m s = .trap c d) : Halted (stepMember i body s m) m.wg.uid := by
  unfold stepMember
  rw [hg]
  dsimp only
  rw [hb]
  exact takeTrap_halted ht c d

variable (hk : ∀ m s, (body m s).keeps m s)
include hk

theorem foldl_stepMember_workgroupsStay (ms : List Member) (s : State) : WorkgroupsStay s (ms.foldl (stepMember i body) s) := by
  induction ms generalizing s with
  | nil => exact .refl s
  | cons a as ih => exact (stepMember_workgroupsStay (hk a s)).trans (ih _)

/-- Among the parts of several members, one member's part finds its thread as at issue, and leaves it as it is in the end. -/
theorem foldl_stepMember_member {ms : List Member} (hd : ms.Pairwise (fun a b => a.t.tid ≠ b.t.tid)) {s : State}
    (hs : ∀ m ∈ ms, s.thread? m.wg.uid m.t.tid = some m.t) {m : Member} (hm : m ∈ ms) :
    ∃ z, OnlyCores s z ∧ z.thread? m.wg.uid m.t.tid = some m.t ∧
      (ms.foldl (stepMember i body) s).thread? m.wg.uid m.t.tid = (stepMember i body z m).thread? m.wg.uid m.t.tid ∧
      WorkgroupsStay (stepMember i body z m) (ms.foldl (stepMember i body) s) := by
  obtain ⟨as, bs, rfl⟩ := List.append_of_mem hm
  obtain ⟨has, hmbs, hapart⟩ := List.pairwise_append.1 hd
  obtain ⟨hmb, hbs⟩ := List.pairwise_cons.1 hmbs
  obtain ⟨hcores, hothers, -⟩ := foldl_stepMember_local (i := i) hk as has s fun a ha => hs a (by simp [ha])
  have hz : ∀ x ∈ m :: bs, (as.foldl (stepMember i body) s).thread? x.wg.uid x.t.tid = some x.t := fun x hx => by
    rw [hothers _ _ fun a ha => .inr (hapart a ha x hx).symm]
    exact hs x (List.mem_append_right _ hx)
  obtain ⟨-, hpart, -⟩ := stepMember_local (i := i) (hk m _) (hz m List.mem_cons_self)
  obtain ⟨-, hlater, -⟩ := foldl_stepMember_local (i := i) hk bs hbs (stepMember i body (as.foldl (stepMember i body) s) m)
    fun b hb => by rw [hpart _ _ (.inr (hmb b hb).symm)]; exact hz b (List.mem_cons_of_mem _ hb)
  rw [List.foldl_append, List.foldl_cons]
  exact ⟨_, hcores, hz m List.mem_cons_self, hlater _ _ fun b hb => .inr (hmb b hb), foldl_stepMember_workgroupsStay hk bs _⟩

end

/-! ## The run of a gang -/

/-- The state once the issue of a gang has been taken and recorded. -/
def gangStart (i : Instr) (s : State) (m : Member) : State := traceGang s.popped m.wg ((membersOf m.wg m.gang).map (·.t)) i

/-- The state after the parts of a gang's members. -/
def gangEnd (i : Instr) (body : Member → State → MRes) (s : State) (m : Member) : State :=
  (membersOf m.wg m.gang).foldl (stepMember i body) (gangStart i s m)

section
variable {i : Instr} {s : State} {m : Member}

theorem gangStart_onlyWrites : OnlyWrites s.popped (gangStart i s m) := OnlyWrites.traceGang ..

variable (hm : OnIssue s m)
include hm

/-- What a gang on issue leaves, but for the records of the codes its members raise. -/
theorem runShared_eq (body : Member → State → MRes) (pbody : Pontil → State → PRes) :
    runShared i body pbody s = traceRaised (gangStart i s m) (gangEnd i body s m) m.wg.uid := by
  obtain ⟨⟨rest, hi⟩, hw, -⟩ := hm
  have hpopped : s.popped = { s with issue := rest } := by unfold State.popped; rw [hi]; rfl
  have hw : s.popped.wg? m.wg.uid = some m.wg := hw
  unfold runShared runGang gangEnd gangStart
  rw [hpopped] at hw ⊢
  rw [hi]
  dsimp only
  rw [hw]

theorem gangStart_threads : ∀ x ∈ membersOf m.wg m.gang, (gangStart i s m).thread? x.wg.uid x.t.tid = some x.t := by
  obtain ⟨-, hw, -⟩ := hm
  intro x hx
  obtain ⟨hg, -, -, ht⟩ := mem_membersOf hx
  rw [gangStart_onlyWrites.thread?, hg]
  unfold State.thread?
  rw [show s.popped.wg? m.wg.uid = some m.wg from hw]
  exact ht

variable {body : Member → State → MRes} {pbody : Pontil → State → PRes} (hk : ∀ m s, (body m s).keeps m s)
include hk

/-- A member's part within its gang: it finds the member and its gate as at issue. -/
theorem gangEnd_member : ∃ z, z.thread? m.wg.uid m.t.tid = some m.t ∧ gate z m i = gate s m i ∧
    (gangEnd i body s m).thread? m.wg.uid m.t.tid = (stepMember i body z m).thread? m.wg.uid m.t.tid ∧
    WorkgroupsStay (stepMember i body z m) (gangEnd i body s m) := by
  obtain ⟨z, hz, ht, hend⟩ := foldl_stepMember_member (i := i) hk (membersOf_distinct m.wg m.gang) (gangStart_threads (i := i) hm)
    hm.2.2.1
  have hgate := (gangStart_onlyWrites (i := i) (s := s) (m := m)).coresKept.sparesOthers (x := m) |>.gate m i
  exact ⟨z, ht, (hz.gate m i).trans hgate, hend⟩

/-- A member that performs an instruction and is done. -/
theorem threadAfter_done {e : Effect} (hg : gate s m i = .ok true) (hb : ∀ z, body m z = .done z e) :
    ThreadAfter (.next (runShared i body pbody s)) m (fun _ t' => t' = m.t.apply (stallOf i) e) := by
  obtain ⟨z, ht, hgate, hend, -⟩ := gangEnd_member hm hk
  refine ⟨_, _, rfl, ?_, rfl⟩
  rw [runShared_eq hm, (OnlyWrites.traceRaised ..).thread?, hend]
  unfold stepMember
  rw [hgate, hg]
  dsimp only
  rw [hb]
  exact State.thread?_modThread_same (f := fun t => t.apply (stallOf i) e) ht (Thread.apply_tid ..)

/-- A member that performs an instruction and raises a code (R272). -/
theorem traps_of_trap {c : Code} {d : Word} (hg : gate s m i = .ok true) (hb : ∀ z, body m z = .trap c d) :
    Traps (.next (runShared i body pbody s)) m c d := by
  obtain ⟨z, ht, hgate, hend, hstay⟩ := gangEnd_member hm hk
  have hhalted := hstay.halted (stepMember_halted ht (hgate.trans hg) (hb z))
  rw [runShared_eq hm]
  refine ⟨_, _, rfl, ?_, rfl, (OnlyWrites.traceRaised ..).coresKept.workgroupsStay.halted hhalted⟩
  rw [(OnlyWrites.traceRaised ..).thread?, hend]
  unfold stepMember
  rw [hgate, hg]
  dsimp only
  rw [hb]
  exact takeTrap_thread c d ht

end

end Machine
end Sys2Proof
end

section
/-! PROOFS. Branches, calls and returns (R38, R39, R102, R162): targets and links as numbers, and what each leaves of its thread. -/

namespace Sys2Proof
namespace Machine

/-! ## Targets and links -/

theorem blockStart_toNat (pc : Word) : (blockStart pc).toNat = pc.toNat / 64 * 64 := by
  have hpc := pc.isLt
  rw [blockStart, BitVec.toNat_ofNat, Nat.mod_eq_of_lt (by omega)]

theorem branchTarget_eq_ofInt (pc : Word) (disp : BitVec 26) :
    branchTarget pc disp = BitVec.ofInt 64 ((pc.toNat / 64 * 64 : Nat) + disp.toInt * 64) := by
  rw [BitVec.ofInt_add, BitVec.ofInt_mul, BitVec.ofInt_natCast, branchTarget, BitVec.shiftLeft_eq_mul_twoPow]; rfl

theorem linkOf_eq_ofNat (pc : Word) : linkOf pc = BitVec.ofNat 64 (pc.toNat / 64 * 64 + 64) := (BitVec.ofNat_add ..).symm

theorem ule_blockStart (x pc : Word) : x.ule (blockStart pc) = decide (x.toNat ≤ pc.toNat / 64 * 64) := by
  rw [BitVec.ule_eq_decide, blockStart_toNat]

theorem aligned_iff {x : Word} : aligned x = true ↔ x.toNat % 64 = 0 := by simp [aligned]

/-! ## The thread after a branch, a call or a return -/

/-- The thread has gone to `target`, with this depth and parked bit, and holds what it held. -/
def WentTo (t t' : Thread) (n : Nat) (target : Word) (depth : Nat) (parked : Bool) : Prop :=
  t'.pc = target ∧ t'.depth = depth ∧ t'.parked = parked ∧ t'.regs = t.regs ∧ t'.preds = t.preds ∧ t'.fflags = t.fflags ∧
  t'.stall = n

/-- An instruction that goes to `x` and writes nothing at once. -/
theorem wentTo_of_apply (t : Thread) (n : Nat) (e : Effect) (hl : e.lat = none) {x : Word} (hx : e.next = some x) :
    WentTo t (t.apply n e) n x (e.depth.getD t.depth) (t.parked || e.park) := by
  obtain ⟨hregs, hpreds, -, hflags, hpc, hstall, hdepth, -, -, -, hparked, -⟩ := t.apply_late n e hl
  exact ⟨hpc.trans (by rw [hx]; rfl), hdepth, hparked, hregs, hpreds, hflags, hstall⟩

theorem owed_of_apply_nothing (t : Thread) (n : Nat) (e : Effect) (hl : e.lat = none)
    (hn : (e.writes.isEmpty && !e.flagged && !e.memory) = true) : (t.apply n e).owed = t.owed := by
  obtain ⟨-, -, -, -, -, -, -, -, -, -, -, -, howed⟩ := t.apply_late n e hl
  rw [howed, hn]
  rfl

/-- The effect of a taken branch (R38). -/
theorem wentTo_branch (t : Thread) (n : Nat) (x : Word) (y : Bool) :
    WentTo t (t.apply n { next := some x, park := y && x.ule (blockStart t.pc) }) n x t.depth
      (t.parked || (y && decide (x.toNat ≤ t.pc.toNat / 64 * 64))) := by
  rw [← ule_blockStart]
  exact wentTo_of_apply t n _ rfl rfl

/-- The effect of a call, which owes the link in v253 (R162). -/
theorem wentTo_call (t : Thread) (n : Nat) (x : Word) :
    let t' := t.apply n { writes := [.v 0xFD (linkOf t.pc)], next := some x, depth := some (t.depth + 1) }
    WentTo t t' n x (t.depth + 1) t.parked ∧ ∃ q, t'.owed = t.owed ++ [q] ∧
      q.writes = [.v 0xFD (BitVec.ofNat 64 (t.pc.toNat / 64 * 64 + 64))] ∧ q.flags = 0 := by
  have hwent := wentTo_of_apply t n { writes := [.v 0xFD (linkOf t.pc)], next := some x, depth := some (t.depth + 1) } rfl rfl
  rw [Bool.or_false] at hwent
  obtain ⟨-, -, -, -, -, -, -, -, -, -, -, -, howed⟩ := t.apply_late n
    { writes := [.v 0xFD (linkOf t.pc)], next := some x, depth := some (t.depth + 1) } rfl
  exact ⟨hwent, _, howed, by rw [linkOf_eq_ofNat], rfl⟩

/-! ## Members that perform them -/

/-- The part of a member in a branch, a call or a return to the address in v[a] (R39, R162). -/
def bodyBri (a : VReg) (y : Bool) (x : Member) (s : State) : MRes :=
  if aligned (x.t.readV a) then takeBranch x s (x.t.readV a) y else .trap .branchAlign x.t.pc
def bodyCalli (a : VReg) (x : Member) (s : State) : MRes :=
  if aligned (x.t.readV a) then takeCall x s (x.t.readV a) else .trap .branchAlign x.t.pc
def bodyRet (a : VReg) (x : Member) (s : State) : MRes :=
  if !(aligned (x.t.readV a)) then .trap .branchAlign x.t.pc
  else if x.t.depth = 0 then .trap .depthLimit x.t.pc
  else .done s { next := some (x.t.readV a), depth := some (x.t.depth - 1) }

section
variable (c : Common) (disp : BitVec 26) (a : VReg) (y : Bool) (s : State)

theorem exec_br : exec (.br c disp y) s = .next (runCore (.br c disp y) (fun x z => takeBranch x z (branchTarget x.t.pc disp) y) s) :=
  rfl
theorem exec_bri : exec (.bri c a y) s = .next (runCore (.bri c a y) (bodyBri a y) s) := rfl
theorem exec_call : exec (.call c disp) s = .next (runCore (.call c disp) (fun x z => takeCall x z (branchTarget x.t.pc disp)) s) :=
  rfl
theorem exec_calli : exec (.calli c a) s = .next (runCore (.calli c a) (bodyCalli a) s) := rfl
theorem exec_ret : exec (.ret c a) s = .next (runCore (.ret c a) (bodyRet a) s) := rfl

end

theorem bodyBri_keeps (a : VReg) (y : Bool) (x : Member) (s : State) : (bodyBri a y x s).keeps x s := by
  unfold bodyBri
  split
  · exact takeBranch_keeps ..
  · trivial

theorem bodyCalli_keeps (a : VReg) (x : Member) (s : State) : (bodyCalli a x s).keeps x s := by
  unfold bodyCalli
  split
  · exact takeCall_keeps ..
  · trivial

theorem bodyRet_keeps (a : VReg) (x : Member) (s : State) : (bodyRet a x s).keeps x s := by
  unfold bodyRet
  split
  · trivial
  · split
    · trivial
    · exact .inl rfl

section
variable {i : Instr} {body : Member → State → MRes} {s : State} {m : Member} {p : State → Thread → Prop} {x : Word}
  (he : exec i s = .next (runCore i body s)) (hk : ∀ m s, (body m s).keeps m s) (hp : Performs s m i)
include he hk hp

/-- A member whose part is done with an effect has what it leaves. -/
theorem performs_done {e : Effect} (hb : ∀ z, body m z = .done z e) (h : ∀ s', p s' (m.t.apply (stallOf i) e)) :
    ThreadAfter (exec i s) m p := by
  obtain ⟨s', t', hs, ht, rfl⟩ := threadAfter_done (pbody := fun q z => .done z q false) hp.1 hk hp.2 hb
  exact ⟨s', _, he.trans hs, ht, h s'⟩

theorem performs_trap {c : Code} {d : Word} (hb : ∀ z, body m z = .trap c d) : Traps (exec i s) m c d := by
  rw [he]
  exact traps_of_trap hp.1 hk hp.2 hb

theorem performs_branch {y : Bool} (hb : ∀ z, body m z = takeBranch m z x y) :
    ThreadAfter (exec i s) m (fun _ t' => WentTo m.t t' (stallOf i) x m.t.depth
      (m.t.parked || (y && decide (x.toNat ≤ m.t.pc.toNat / 64 * 64))) ∧ t'.owed = m.t.owed) :=
  performs_done he hk hp hb fun _ => ⟨wentTo_branch .., owed_of_apply_nothing _ _ _ rfl rfl⟩

theorem performs_call (hb : ∀ z, body m z = takeCall m z x) :
    (m.t.depth ≠ 65535 → ThreadAfter (exec i s) m (fun _ t' => WentTo m.t t' (stallOf i) x (m.t.depth + 1) m.t.parked ∧
      ∃ q, t'.owed = m.t.owed ++ [q] ∧ q.writes = [.v 0xFD (BitVec.ofNat 64 (m.t.pc.toNat / 64 * 64 + 64))] ∧ q.flags = 0)) ∧
    (m.t.depth = 65535 → Traps (exec i s) m .depthLimit m.t.pc) :=
  ⟨fun hd => performs_done he hk hp (fun z => by rw [hb, takeCall, if_neg hd]) fun _ => wentTo_call ..,
    fun hd => performs_trap he hk hp fun z => by rw [hb, takeCall, if_pos hd]⟩

end

section
variable {c : Common} {a : VReg} {s : State} {m : Member}

theorem ret_returns (hp : Performs s m (.ret c a)) (ha : (m.t.readV a).toNat % 64 = 0) (hd : m.t.depth ≠ 0) :
    ThreadAfter (exec (.ret c a) s) m (fun _ t' =>
      WentTo m.t t' (stallOf (.ret c a)) (m.t.readV a) (m.t.depth - 1) m.t.parked ∧ t'.owed = m.t.owed) := by
  refine performs_done (exec_ret c a s) (bodyRet_keeps a) hp
    (e := { next := some (m.t.readV a), depth := some (m.t.depth - 1) }) (fun z => ?_) fun _ => ⟨?_, owed_of_apply_nothing _ _ _ rfl rfl⟩
  · simp [bodyRet, aligned, ha, hd]
  · have hwent := wentTo_of_apply m.t (stallOf (.ret c a)) { next := some (m.t.readV a), depth := some (m.t.depth - 1) } rfl rfl
    rwa [Bool.or_false] at hwent

theorem ret_traps (hp : Performs s m (.ret c a)) :
    ((m.t.readV a).toNat % 64 ≠ 0 → Traps (exec (.ret c a) s) m .branchAlign m.t.pc) ∧
    ((m.t.readV a).toNat % 64 = 0 → m.t.depth = 0 → Traps (exec (.ret c a) s) m .depthLimit m.t.pc) :=
  ⟨fun ha => performs_trap (exec_ret c a s) (bodyRet_keeps a) hp fun z => by simp [bodyRet, aligned, ha],
    fun ha hd => performs_trap (exec_ret c a s) (bodyRet_keeps a) hp fun z => by simp [bodyRet, aligned, ha, hd]⟩

end

end Machine
end Sys2Proof

open Sys2Proof Sys2Proof.Machine

/-- Settles O26: the answer of each member's part, by alignment and depth, and what it leaves of the thread. -/
theorem branches : Obligations.Branches := by
  intro c disp a y s m
  dsimp only
  rw [← branchTarget_eq_ofInt]
  refine ⟨fun hp => ?_, fun hp => ⟨fun ha => ?_, fun ha => ?_⟩, fun hp => ?_,
    fun hp => ⟨fun ha => ?_, fun ha => ?_, fun ha => ?_⟩, fun hp => ⟨ret_returns hp, ret_traps hp⟩⟩
  · exact performs_branch (exec_br c disp y s) (fun _ _ => takeBranch_keeps ..) hp fun _ => rfl
  · exact performs_branch (exec_bri c a y s) (bodyBri_keeps a y) hp fun _ => if_pos (aligned_iff.2 ha)
  · exact performs_trap (exec_bri c a y s) (bodyBri_keeps a y) hp fun _ => if_neg (ha ∘ aligned_iff.1)
  · exact performs_call (exec_call c disp s) (fun _ _ => takeCall_keeps ..) hp fun _ => rfl
  · exact (performs_call (exec_calli c a s) (bodyCalli_keeps a) hp fun _ => if_pos (aligned_iff.2 ha)).1
  · exact performs_trap (exec_calli c a s) (bodyCalli_keeps a) hp fun _ => if_neg (ha ∘ aligned_iff.1)
  · exact (performs_call (exec_calli c a s) (bodyCalli_keeps a) hp fun _ => if_pos (aligned_iff.2 ha)).2
end

section
/-! PROOFS. Instructions on registers alone: what a member's effect leaves of its thread beside the destinations of its word, and the
frame of the gang (R36). -/

namespace Sys2Proof
namespace Machine

/-! ## The frame of a thread -/

/-- Beside the destinations of `i` and the bookkeeping of its results, only the flags of a thread may differ, which the format group
adds to and wrsr replaces. -/
structure RegisterFrame (i : Instr) (t t' : Thread) : Prop where
  regs : ∀ r, r ∉ (uses i).dst → t'.getV r = t.getV r
  preds : ∀ p, p ∉ (uses i).pdst → t'.getP p = t.getP p
  vms : ∀ k, k ∉ (uses i).vdst → t'.getVm k = t.getVm k
  flags : classOf i ≠ .format → (∀ c a, i ≠ .wrsr c a) → t'.fflags = t.fflags
  flagsStay : (∀ c a, i ≠ .wrsr c a) → t'.fflags &&& t.fflags = t.fflags
  depth : t'.depth = t.depth
  parked : t'.parked = t.parked
  live : t'.live = t.live
  view : t'.view = t.view
  poisoned : t'.poisoned = t.poisoned
  length : t'.regs.length = t.regs.length

/-- The target of a write is among the destinations of a word. -/
def RegWrite.within (u : Uses) (w : RegWrite) : Prop :=
  match w with
  | .v r _ => r ∈ u.dst
  | .p r _ => r ∈ u.pdst
  | .vm r _ => r ∈ u.vdst

/-- An effect on registers alone: what it writes at once are destinations of `i`, each once, and only the format group raises
flags. -/
structure Effect.Within (e : Effect) (i : Instr) : Prop where
  writes : e.lat ≠ none → ∀ w ∈ e.writes, w.within (uses i)
  apart : e.writes.Pairwise Apart
  flags : classOf i ≠ .format → e.flags = 0
  depth : e.depth = none
  park : e.park = false

theorem Thread.foldl_writeFixed_poisoned (l : Nat) (ws : List RegWrite) (t : Thread) :
    (ws.foldl (fun t w => t.writeFixed l w) t).poisoned = t.poisoned := by
  induction ws generalizing t with
  | nil => rfl
  | cons w ws ih =>
    rw [List.foldl_cons, ih]
    unfold Thread.writeFixed Thread.write
    cases w <;> simp

/-- An instruction clears no poison, and a thread keeps its number of registers. -/
theorem Thread.apply_poisoned_length (t : Thread) (n : Nat) (e : Effect) :
    (t.apply n e).poisoned = t.poisoned ∧ (t.apply n e).regs.length = t.regs.length := by
  unfold Thread.apply
  dsimp only
  split
  · obtain ⟨-, -, -, hlength, -⟩ := Thread.foldl_writeFixed (_ - n) e.writes
      { t with stall := n, windows := ageWindows n t.windows [], wait := none }
    exact ⟨Thread.foldl_writeFixed_poisoned .., hlength⟩
  · split <;> exact ⟨rfl, rfl⟩

/-- The flags of a thread after a result merged into them. -/
theorem merged_and_self (f g : Flags) : (f ||| g) &&& f = f := by
  ext k
  simpa using Or.inl

section
variable {i : Instr} (t : Thread) (n : Nat)

/-- A thread that raises a code or begins a wait keeps its registers. -/
theorem registerFrame_marked (trap : Option (Code × Word)) (wait : Option Wait) (stall : Nat) :
    RegisterFrame i t { t with trap := trap, wait := wait, stall := stall } :=
  ⟨fun _ _ => rfl, fun _ _ => rfl, fun _ _ => rfl, fun _ _ => rfl, fun _ => BitVec.and_self, rfl, rfl, rfl, rfl, rfl, rfl⟩

theorem registerFrame_apply {e : Effect} (he : e.Within i) : RegisterFrame i t (t.apply n e) := by
  obtain ⟨hpoison, hlength⟩ := t.apply_poisoned_length n e
  cases hl : e.lat with
  | some l =>
    have hin := he.writes (by simp [hl])
    obtain ⟨-, -, -, hregs, hpreds, hvms, hflags, -, -, -, hdepth, hlive, -, hview, hparked, -⟩ := t.apply_fixed n l e hl he.apart
    rw [he.depth] at hdepth
    rw [he.park, Bool.or_false] at hparked
    exact ⟨fun r hr => hregs r fun x hx => hr (hin _ hx), fun p hp => hpreds p fun x hx => hp (hin _ hx),
      fun k hk => hvms k fun x hx => hk (hin _ hx), fun hc _ => by rw [hflags, he.flags hc]; exact BitVec.or_zero,
      fun _ => by rw [hflags, merged_and_self], hdepth, hparked, hlive, hview, hpoison, hlength⟩
  | none =>
    obtain ⟨hregs, hpreds, hvms, hflags, -, -, hdepth, hlive, -, hview, hparked, -⟩ := t.apply_late n e hl
    rw [he.depth] at hdepth
    rw [he.park, Bool.or_false] at hparked
    exact ⟨fun r _ => Thread.getV_congr hregs r, fun p _ => Thread.getP_congr hpreds p, fun k _ => Thread.getVm_congr hvms k,
      fun _ _ => hflags, fun _ => by rw [hflags, BitVec.and_self], hdepth, hparked, hlive, hview, hpoison, hlength⟩

theorem within_nothing : Effect.Within {} i := ⟨by simp, .nil, fun _ => rfl, rfl, rfl⟩

end

/-! ## Answers on registers alone -/

/-- A member's part raises a code, or is done with an effect on registers alone and leaves the state to it. -/
def MRes.OnRegisters (r : MRes) (i : Instr) (s : State) : Prop :=
  match r with
  | .trap _ _ => True
  | .wait _ _ => False
  | .done s' e => s' = s ∧ e.Within i

theorem MRes.OnRegisters.keeps {r : MRes} {i : Instr} {s : State} (h : r.OnRegisters i s) (x : Member) : r.keeps x s := by
  cases r with
  | trap c d => trivial
  | wait s' w => exact h.elim
  | done s' e => exact .inl h.1

theorem mem_usesMods (d a : VReg) (b : Option VReg) (k : List VReg) (m : Mods) : d ∈ (usesMods d a b k m).dst := by
  cases m with
  | source _ => exact List.mem_cons_self
  | cross _ _ onB => cases onB <;> exact List.mem_cons_self

section
variable {i : Instr} (x : Member) (s : State)

theorem done_onRegisters : (MRes.done s {}).OnRegisters i s := ⟨rfl, within_nothing⟩

theorem fixed_onRegisters (l : Nat) {w : RegWrite} (hw : w.within (uses i)) : (fixed s l [w]).OnRegisters i s :=
  ⟨rfl, fun _ => List.forall_mem_singleton.2 hw, List.pairwise_singleton .., fun _ => rfl, rfl, rfl⟩

theorem late_onRegisters (w : RegWrite) : (late s [w]).OnRegisters i s :=
  ⟨rfl, fun h => absurd rfl h, List.pairwise_singleton .., fun _ => rfl, rfl, rfl⟩

theorem lateLane_onRegisters (w : RegWrite) : (lateLane s [w]).OnRegisters i s :=
  ⟨rfl, fun h => absurd rfl h, List.pairwise_singleton .., fun _ => rfl, rfl, rfl⟩

theorem intResult_onRegisters (m : Mods) {d : VReg} (hd : d ∈ (uses i).dst) (w : Word) : (intResult s m d w).OnRegisters i s := by
  unfold intResult
  split
  · exact late_onRegisters ..
  · exact fixed_onRegisters s 4 (w := .v d w) hd

variable (hc : classOf i = .format)
include hc

theorem fmtResult_onRegisters (b : Bool) (f : FDef) {w : RegWrite} (hw : w.within (uses i)) (fl : Flags) :
    (fmtResult s b f w fl).OnRegisters i s :=
  ⟨rfl, fun _ => List.forall_mem_singleton.2 hw, List.pairwise_singleton .., fun h => absurd hc h, rfl, rfl⟩

variable {d : VReg} (hd : d ∈ (uses i).dst)
include hd

theorem fmtOp_onRegisters (fs : Slot) (accepts : Nat → Bool) (rm : Round) (m : Mods) (b : Bool)
    (g : FDef → Round → Nat → Nat × Flags) : (fmtOp x s d fs accepts rm m b g).OnRegisters i s := by
  unfold fmtOp
  split
  · trivial
  · exact fmtResult_onRegisters s hc _ _ (w := .v d _) hd _

theorem fmt1_onRegisters (a : VReg) (fs : Slot) (accepts : Nat → Bool) (rm : Round) (m : Mods) (b : Bool)
    (op : Round → Val → Val × Flags) : (fmt1 x s d a fs accepts rm m b op).OnRegisters i s := by
  unfold fmt1
  exact fmtOp_onRegisters x s hc hd ..

theorem fmt2_onRegisters (a b : VReg) (fs : Slot) (accepts : Nat → Bool) (rm : Round) (m : Mods) (fix : Bool)
    (op : Round → Val → Val → Val × Flags) : (fmt2 x s d a b fs accepts rm m fix op).OnRegisters i s := by
  unfold fmt2
  exact fmtOp_onRegisters x s hc hd ..

theorem fmt3_onRegisters (a b k : VReg) (fs : Slot) (rm : Round) (m : Mods) (op : Round → Val → Val → Val → Val × Flags) :
    (fmt3 x s d a b k fs rm m op).OnRegisters i s := by
  unfold fmt3
  exact fmtOp_onRegisters x s hc hd ..

theorem fmtTransc_onRegisters (a : VReg) (fs : Slot) (rm : Round) (m : Mods) (fn : Transc) :
    (fmtTransc x s d a fs rm m fn).OnRegisters i s := by
  unfold fmtTransc
  exact fmtOp_onRegisters x s hc hd ..

end

/-! ## The frame of a gang -/

section
variable {i : Instr} {body : Member → State → MRes} {pbody : Pontil → State → PRes}

/-- What the members' parts leave: only cores differ, and of them only the threads of the gang and the marks of their workgroup. -/
theorem gangEnd_frame (hk : ∀ m s, (body m s).keeps m s) {s : State} {m : Member} (hm : OnIssue s m) :
    OnlyCores (gangStart i s m) (gangEnd i body s m) ∧ OthersKept (gangStart i s m) (gangEnd i body s m) m ∧
    WorkgroupsStay (gangStart i s m) (gangEnd i body s m) := by
  obtain ⟨hcores, hothers, -⟩ := foldl_stepMember_local (i := i) hk _ (membersOf_distinct m.wg m.gang) _ (gangStart_threads hm)
  refine ⟨hcores, fun u tid h => hothers u tid fun x hx => ?_, foldl_stepMember_workgroupsStay hk ..⟩
  obtain ⟨hg, -, htid, -⟩ := mem_membersOf hx
  exact h.imp (fun hu => hg ▸ hu) fun ht he => ht (he ▸ htid)

/-- The part of one member that does not wait, from what it leaves when it is done. -/
theorem stepMember_registerFrame_of_done {z : State} {m : Member} (ht : z.thread? m.wg.uid m.t.tid = some m.t)
    (hw : ∀ z' w, body m z ≠ .wait z' w)
    (hd : ∀ z' e, body m z = .done z' e → ∃ t', (z'.modThread m.wg.uid m.t.tid (fun t => t.apply (stallOf i) e)).thread?
      m.wg.uid m.t.tid = some t' ∧ RegisterFrame i m.t t') :
    ∃ t', (stepMember i body z m).thread? m.wg.uid m.t.tid = some t' ∧ RegisterFrame i m.t t' := by
  unfold stepMember
  split
  · exact ⟨_, takeTrap_thread _ _ ht, registerFrame_marked m.t _ _ _⟩
  · exact ⟨_, State.thread?_modThread_same (f := fun t => t.apply (stallOf i) {}) ht (Thread.apply_tid ..),
      registerFrame_apply _ _ within_nothing⟩
  · cases hr : body m z with
    | trap c d => exact ⟨_, takeTrap_thread c d ht, registerFrame_marked m.t _ _ _⟩
    | wait z' w => exact absurd hr (hw z' w)
    | done z' e => exact hd z' e hr

/-- The part of one member, on registers alone. -/
theorem stepMember_registerFrame {z : State} {m : Member} (hb : (body m z).OnRegisters i z)
    (ht : z.thread? m.wg.uid m.t.tid = some m.t) :
    ∃ t', (stepMember i body z m).thread? m.wg.uid m.t.tid = some t' ∧ RegisterFrame i m.t t' := by
  refine stepMember_registerFrame_of_done ht (fun z' w hr => ?_) fun z' e hr => ?_ <;> rw [hr] at hb
  · exact hb
  · obtain ⟨rfl, he⟩ := hb
    exact ⟨_, State.thread?_modThread_same (f := fun t => t.apply (stallOf i) e) ht (Thread.apply_tid ..),
      registerFrame_apply _ _ he⟩

/-- An instruction of a gang that changes nothing but its members' threads, and of those only what `RegisterFrame` leaves open. -/
def ChangesOnlyDestinations (i : Instr) : Prop :=
  ∀ s m, OnIssue s m → ∃ s', exec i s = .next (traceRaised s.popped s' m.wg.uid) ∧
    (traceOn s' m.wg.core.die.val m.wg.ctx 4 = none → exec i s = .next s') ∧
    OnlyCores s s' ∧ OthersKept s s' m ∧ WorkgroupsStay s s' ∧
    ∃ t', s'.thread? m.wg.uid m.t.tid = some t' ∧ RegisterFrame i m.t t'

theorem changesOnlyDestinations_of (he : ∀ s, exec i s = .next (runShared i body pbody s)) (ht : traceType i = none)
    (hk : ∀ m s, (body m s).keeps m s)
    (hf : ∀ z m, z.thread? m.wg.uid m.t.tid = some m.t →
      ∃ t', (stepMember i body z m).thread? m.wg.uid m.t.tid = some t' ∧ RegisterFrame i m.t t') :
    ChangesOnlyDestinations i := by
  intro s m hm
  have hstart : gangStart i s m = s.popped := traceGang_none ht
  have hrun : exec i s = .next (traceRaised s.popped (gangEnd i body s m) m.wg.uid) := by rw [he, runShared_eq hm, hstart]
  obtain ⟨hcores, hothers, hstay⟩ := gangEnd_frame (i := i) hk hm
  obtain ⟨z, hz, -, hend, -⟩ := gangEnd_member (i := i) hm hk
  rw [hstart] at hcores hothers hstay
  refine ⟨gangEnd i body s m, hrun, fun hoff => ?_, hcores, hothers, ⟨hstay.stays⟩, ?_⟩
  · rw [hrun, traceRaised_off fun g hg => ?_]
    obtain rfl : m.wg = g := Option.some.inj (hm.2.1.symm.trans hg)
    exact hoff
  · rw [hend]
    exact hf z m hz

theorem changesOnlyDestinations_of_onRegisters (he : ∀ s, exec i s = .next (runShared i body pbody s)) (ht : traceType i = none)
    (hb : ∀ x s, (body x s).OnRegisters i s) : ChangesOnlyDestinations i :=
  changesOnlyDestinations_of he ht (fun x s => (hb x s).keeps x) fun z m => stepMember_registerFrame (hb m z)

end

/-! ## Every instruction on registers -/

/-- A thread whose flags wrsr has replaced, and that then goes on. -/
theorem registerFrame_wrsr (c : Common) (a : VReg) (t : Thread) (n : Nat) (f : Flags) :
    RegisterFrame (.wrsr c a) t (Thread.apply { t with fflags := f } n {}) :=
  { registerFrame_apply { t with fflags := f } n within_nothing with
    flags := fun _ h => absurd rfl (h c a)
    flagsStay := fun h => absurd rfl (h c a) }

/-- What wrsr does to one member (log 19). -/
def wrsrBody (a : VReg) (x : Member) (s : State) : MRes :=
  .done (s.modThread x.wg.uid x.t.tid (fun t => { t with fflags := (x.t.readV a).setWidth 5 })) {}

/-- wrsr replaces the flags of its thread. -/
theorem wrsr_changesOnlyDestinations (c : Common) (a : VReg) : ChangesOnlyDestinations (.wrsr c a) := by
  refine changesOnlyDestinations_of (body := wrsrBody a) (fun _ => rfl) rfl
    (fun x s => .inr ⟨fun t => { t with fflags := (x.t.readV a).setWidth 5 }, fun _ => rfl, rfl⟩)
    fun z m ht => stepMember_registerFrame_of_done ht (by simp [wrsrBody]) fun z' e hr => ?_
  obtain ⟨rfl, rfl⟩ := MRes.done.inj hr
  exact ⟨_, State.thread?_modThread_same (f := fun t => t.apply (stallOf (.wrsr c a)) {})
    (State.thread?_modThread_same (f := fun t => { t with fflags := (m.t.readV a).setWidth 5 }) ht rfl) (Thread.apply_tid ..),
    registerFrame_wrsr ..⟩

/-- pmov writes every predicate once. -/
theorem pmovFromV_onRegisters (c : Common) (a : VReg) (s : State) (b : Fin 7 → Bool) :
    (fixed s 4 ((List.finRange 7).map fun k => .p k (b k))).OnRegisters (.pmovFromV c a) s := by
  refine ⟨rfl, fun _ w hw => ?_, ?_, fun _ => rfl, rfl, rfl⟩
  · obtain ⟨k, -, rfl⟩ := List.mem_map.1 hw
    exact List.mem_finRange k
  · exact List.pairwise_map.2 ((List.nodup_finRange 7).imp fun h => by simpa [Apart, RegWrite.same] using h)

theorem changesOnlyDestinations {i : Instr} (h : LocalOnly i) : ChangesOnlyDestinations i := by
  cases i with
  | nop => exact changesOnlyDestinations_of_onRegisters (fun _ => rfl) rfl fun _ _ => done_onRegisters _
  | imulh | ishr | icmp | ilim | isel | ibit | bfx | bfi | iun | addk | adpc | movk | movhk | rdsr | getfmt | vote | plog =>
    exact changesOnlyDestinations_of_onRegisters (fun _ => rfl) rfl fun _ _ => fixed_onRegisters _ _ List.mem_cons_self
  | vmcnt | vmtest | vmop | vmffs | vmget | vmset | engst | rdpr =>
    exact changesOnlyDestinations_of_onRegisters (fun _ => rfl) rfl fun _ _ => late_onRegisters ..
  | lmov | voteBallot | perm | pmovToV =>
    exact changesOnlyDestinations_of_onRegisters (fun _ => rfl) rfl fun _ _ => lateLane_onRegisters ..
  | pmovFromV => exact changesOnlyDestinations_of_onRegisters (fun _ => rfl) rfl fun _ _ => pmovFromV_onRegisters ..
  | iadd | isub | imul | imad | iand | ior | ixor | iandn | ishl | irot =>
    exact changesOnlyDestinations_of_onRegisters (fun _ => rfl) rfl fun _ _ => intResult_onRegisters _ _ (mem_usesMods ..) _
  | fadd | fsub | fmul | fdiv =>
    exact changesOnlyDestinations_of_onRegisters (fun _ => rfl) rfl fun _ _ => fmt2_onRegisters _ _ rfl (mem_usesMods ..) ..
  | ffma => exact changesOnlyDestinations_of_onRegisters (fun _ => rfl) rfl fun _ _ => fmt3_onRegisters _ _ rfl (mem_usesMods ..) ..
  | fsqrt | frcp | fscale =>
    exact changesOnlyDestinations_of_onRegisters (fun _ => rfl) rfl fun _ _ => fmt1_onRegisters _ _ rfl (mem_usesMods ..) ..
  | flim | frnd =>
    exact changesOnlyDestinations_of_onRegisters (fun _ => rfl) rfl fun _ _ => fmtOp_onRegisters _ _ rfl List.mem_cons_self ..
  | fexp2 | flog2 | fexp | flog | frsqrt | fsin | fcos | ftanh | ferf =>
    exact changesOnlyDestinations_of_onRegisters (fun _ => rfl) rfl fun _ _ => fmtTransc_onRegisters _ _ rfl (mem_usesMods ..) ..
  | wrsr c a => exact wrsr_changesOnlyDestinations c a
  | fcmp | fclass | bpack | bunpack =>
    refine changesOnlyDestinations_of_onRegisters (fun _ => rfl) rfl fun _ _ => ?_
    split
    · trivial
    · exact fmtResult_onRegisters _ rfl _ _ List.mem_cons_self _
  | fsgn =>
    refine changesOnlyDestinations_of_onRegisters (fun _ => rfl) rfl fun _ _ => ?_
    split
    · trivial
    · split
      · trivial
      · exact fmtResult_onRegisters _ rfl _ _ List.mem_cons_self _
  | cvt =>
    refine changesOnlyDestinations_of_onRegisters (fun _ => rfl) rfl fun _ _ => ?_
    split
    · exact fmtResult_onRegisters _ rfl _ _ List.mem_cons_self _
    · trivial
  | rdind | wrind =>
    refine changesOnlyDestinations_of_onRegisters (fun _ => rfl) rfl fun _ _ => ?_
    split
    · trivial
    · exact lateLane_onRegisters ..
  | _ => exact h.elim

end Machine
end Sys2Proof

open Sys2Proof Sys2Proof.Machine

/-- Settles O11: the frame of each instruction, from what its members' parts answer. -/
theorem registerInstructionsFrame : Obligations.RegisterInstructionsFrame := by
  intro s m i hm hl
  obtain ⟨s', hrun, hoff, hcores, hothers, hstay, t', ht, hframe⟩ := changesOnlyDestinations hl s m hm
  refine ⟨s', hrun, hoff, hcores, hcores.peek, hothers, fun u g hg => ?_, t', ht, hframe.regs, hframe.preds, hframe.vms,
    hframe.flags, hframe.flagsStay, hframe.depth, hframe.parked, hframe.live, hframe.view, hframe.poisoned, hframe.length⟩
  obtain ⟨g', hg', he, -⟩ := hstay.stays u g hg
  exact ⟨g', hg', he⟩
end

section
/-! PROOFS. Values as rationals: what sums, products, quotients and comparisons of exact values denote (R58, R59). -/

namespace Sys2Proof
namespace Machine

/-! ## Signs and powers of two -/

/-- A sign as a factor. -/
def signOne (s : Bool) : ℚ := if s then -1 else 1

@[simp] theorem signOne_false : signOne false = 1 := rfl
@[simp] theorem signOne_true : signOne true = -1 := rfl
@[simp] theorem signOne_not (s : Bool) : signOne (!s) = -signOne s := by cases s <;> simp
theorem signOne_bne (s t : Bool) : signOne (s != t) = signOne s * signOne t := by cases s <;> cases t <;> simp
theorem signOne_mul_self (s : Bool) : signOne s * signOne s = 1 := by cases s <;> simp
theorem abs_signOne (s : Bool) : |signOne s| = 1 := by cases s <;> simp

theorem cast_signed (s : Bool) (a : ℤ) : (((if s then -a else a) : ℤ) : ℚ) = signOne s * a := by cases s <;> simp

theorem valueOf_num (s : Bool) (n d : Nat) (e : Int) :
    valueOf (.num s n d e) = some (signOne s * ((n : ℚ) / d) * (2 : ℚ) ^ e) := rfl

@[simp] theorem valueOf_valZero (s : Bool) : valueOf (valZero s) = some 0 := by simp [valZero, valueOf_num]

/-- A signed integer over `d`, by its sign and its magnitude. -/
theorem valueOf_signed (t : ℤ) (d : Nat) (e : Int) :
    valueOf (.num (decide (t < 0)) t.natAbs d e) = some ((t : ℚ) / d * (2 : ℚ) ^ e) := by
  have : signOne (decide (t < 0)) * (t.natAbs : ℚ) = t := by
    by_cases h : t < 0
    · simp [h, Nat.cast_natAbs, abs_of_neg h]
    · simp [h, Nat.cast_natAbs, abs_of_nonneg (not_lt.1 h)]
  rw [valueOf_num, ← mul_div_assoc, this]

theorem valueOf_valInt (x e : Int) : valueOf (valInt x e) = some ((x : ℚ) * (2 : ℚ) ^ e) := by
  have := valueOf_signed x 1 e
  rwa [Nat.cast_one, div_one] at this

/-- A power of two by a smaller one. -/
theorem two_zpow_split {e m : Int} (h : m ≤ e) : (2 : ℚ) ^ e = ((2 ^ (e - m).toNat : Nat) : ℚ) * (2 : ℚ) ^ m := by
  have : ((e - m).toNat : ℤ) = e - m := Int.toNat_of_nonneg (by omega)
  push_cast
  rw [← zpow_natCast, this, ← zpow_add₀ two_ne_zero, Int.sub_add_cancel]

/-! ## Sums -/

theorem valueOf_addFinite (rdn s₁ s₂ : Bool) (n₁ n₂ : Nat) {d₁ d₂ : Nat} (e₁ e₂ : Int) (h₁ : 0 < d₁) (h₂ : 0 < d₂) :
    valueOf (addFinite rdn s₁ n₁ d₁ e₁ s₂ n₂ d₂ e₂) =
      some (signOne s₁ * ((n₁ : ℚ) / d₁) * (2 : ℚ) ^ e₁ + signOne s₂ * ((n₂ : ℚ) / d₂) * (2 : ℚ) ^ e₂) := by
  have hd₁ : (d₁ : ℚ) ≠ 0 := by positivity
  have hd₂ : (d₂ : ℚ) ≠ 0 := by positivity
  unfold addFinite
  split
  · next h => simp [h.1, h.2]
  · split
    · next h => simp [h, valueOf_num]
    · split
      · next h => simp [h, valueOf_num]
      · dsimp only
        obtain ⟨m, hm⟩ : ∃ m, m = min e₁ e₂ := ⟨_, rfl⟩
        rw [← hm]
        have hm₁ : m ≤ e₁ := hm ▸ min_le_left _ _
        have hm₂ : m ≤ e₂ := hm ▸ min_le_right _ _
        set t : ℤ := (if s₁ then -((n₁ * d₂ * 2 ^ (e₁ - m).toNat : Nat) : ℤ) else ((n₁ * d₂ * 2 ^ (e₁ - m).toNat : Nat) : ℤ)) +
          (if s₂ then -((n₂ * d₁ * 2 ^ (e₂ - m).toNat : Nat) : ℤ) else ((n₂ * d₁ * 2 ^ (e₂ - m).toNat : Nat) : ℤ)) with ht
        have key : signOne s₁ * ((n₁ : ℚ) / d₁) * (2 : ℚ) ^ e₁ + signOne s₂ * ((n₂ : ℚ) / d₂) * (2 : ℚ) ^ e₂ =
            (t : ℚ) / ((d₁ * d₂ : Nat) : ℚ) * (2 : ℚ) ^ m := by
          rw [two_zpow_split hm₁, two_zpow_split hm₂, ht, Int.cast_add, cast_signed, cast_signed]
          push_cast
          field_simp
        rw [key]
        split
        · next h => simp [h]
        · exact valueOf_signed t _ m

/-! ## Finite values -/

/-- A finite value over a positive denominator. -/
def FiniteVal (v : Val) : Prop := ∃ s n d e, v = .num s n d e ∧ 0 < d

/-- The rational that a value denotes; 0 where it denotes none. -/
def ratOf (v : Val) : ℚ := (valueOf v).getD 0

theorem ratOf_of_valueOf {v : Val} {q : ℚ} (h : valueOf v = some q) : ratOf v = q := by rw [ratOf, h]; rfl

theorem FiniteVal.valueOf {v : Val} (h : FiniteVal v) : valueOf v = some (ratOf v) := by
  obtain ⟨s, n, d, e, rfl, -⟩ := h; rfl

theorem FiniteVal.num (s : Bool) (n : Nat) {d : Nat} (e : Int) (h : 0 < d) : FiniteVal (.num s n d e) := ⟨s, n, d, e, rfl, h⟩

theorem ratOf_num (s : Bool) (n d : Nat) (e : Int) : ratOf (.num s n d e) = signOne s * ((n : ℚ) / d) * (2 : ℚ) ^ e := rfl

theorem FiniteVal.negate {v : Val} (h : FiniteVal v) : FiniteVal v.negate ∧ ratOf v.negate = -ratOf v := by
  obtain ⟨s, n, d, e, rfl, hd⟩ := h
  exact ⟨.num _ _ _ hd, by simp [Val.negate, ratOf_num]⟩

theorem addFinite_finite (rdn s₁ s₂ : Bool) (n₁ n₂ : Nat) {d₁ d₂ : Nat} (e₁ e₂ : Int) (h₁ : 0 < d₁) (h₂ : 0 < d₂) :
    FiniteVal (addFinite rdn s₁ n₁ d₁ e₁ s₂ n₂ d₂ e₂) := by
  unfold addFinite
  split
  · exact .num _ _ _ Nat.one_pos
  · split
    · exact .num _ _ _ h₂
    · split
      · exact .num _ _ _ h₁
      · dsimp only
        generalize (_ + _ : ℤ) = t
        split
        · exact .num _ _ _ Nat.one_pos
        · exact .num _ _ _ (Nat.mul_pos h₁ h₂)

theorem valAdd_finite (rdn : Bool) {x y : Val} (hx : FiniteVal x) (hy : FiniteVal y) :
    FiniteVal (valAdd rdn x y).1 ∧ ratOf (valAdd rdn x y).1 = ratOf x + ratOf y ∧ (valAdd rdn x y).2 = 0 := by
  obtain ⟨s, n, d, e, rfl, hd⟩ := hx
  obtain ⟨s', n', d', e', rfl, hd'⟩ := hy
  exact ⟨addFinite_finite _ _ _ _ _ _ _ hd hd', ratOf_of_valueOf (valueOf_addFinite _ _ _ _ _ _ _ hd hd'), rfl⟩

theorem valMul_finite {x y : Val} (hx : FiniteVal x) (hy : FiniteVal y) :
    FiniteVal (valMul x y).1 ∧ ratOf (valMul x y).1 = ratOf x * ratOf y ∧ (valMul x y).2 = 0 := by
  obtain ⟨s, n, d, e, rfl, hd⟩ := hx
  obtain ⟨s', n', d', e', rfl, hd'⟩ := hy
  refine ⟨.num _ _ _ (Nat.mul_pos hd hd'), ?_, rfl⟩
  rw [valMul, ratOf_num, ratOf_num, ratOf_num, signOne_bne, zpow_add₀ two_ne_zero]
  push_cast
  field_simp

/-! ## Quotients -/

theorem valDiv_finite {x y : Val} (hx : FiniteVal x) (hy : FiniteVal y) (h0 : ratOf y ≠ 0) :
    valueOf (valDiv x y).1 = some (ratOf x / ratOf y) := by
  obtain ⟨s, n, d, e, rfl, hd⟩ := hx
  obtain ⟨s', n', d', e', rfl, hd'⟩ := hy
  have hn : n' ≠ 0 := by rintro rfl; simp [ratOf_num] at h0
  have hs : signOne (s != s') = signOne s / signOne s' := by cases s <;> cases s' <;> simp
  simp only [valDiv, if_neg hn, valueOf_num, ratOf_num, hs, zpow_sub₀ (two_ne_zero (α := ℚ)), Option.some.injEq]
  push_cast
  simp only [div_eq_mul_inv, mul_inv, inv_inv]
  ring

/-! ## Order -/

/-- Two integers that are two rationals at one positive scale compare as these do. -/
theorem compare_of_scale {a b : ℤ} {x y c : ℚ} (hc : 0 < c) (ha : (a : ℚ) = x * c) (hb : (b : ℚ) = y * c) :
    compare a b = compare x y := by
  have hlt : ∀ {a b : ℤ} {x y : ℚ}, (a : ℚ) = x * c → (b : ℚ) = y * c → (a < b ↔ x < y) := fun ha hb => by
    rw [← Int.cast_lt (R := ℚ), ha, hb, mul_lt_mul_iff_left₀ hc]
  rcases lt_trichotomy x y with h | h | h
  · rw [compare_lt_iff_lt.2 h, compare_lt_iff_lt.2 ((hlt ha hb).2 h)]
  · have : a = b := by exact_mod_cast ha.trans (h ▸ hb.symm)
    rw [compare_eq_iff_eq.2 h, compare_eq_iff_eq.2 this]
  · rw [compare_gt_iff_gt.2 h, compare_gt_iff_gt.2 ((hlt hb ha).2 h)]

theorem valCompare_finite {x y : Val} (hx : FiniteVal x) (hy : FiniteVal y) :
    valCompare x y = some (compare (ratOf x) (ratOf y)) := by
  obtain ⟨s, n, d, e, rfl, hd⟩ := hx
  obtain ⟨s', n', d', e', rfl, hd'⟩ := hy
  have hq : (d : ℚ) ≠ 0 := by positivity
  have hq' : (d' : ℚ) ≠ 0 := by positivity
  obtain ⟨m, hm⟩ : ∃ m, m = min e e' := ⟨_, rfl⟩
  have key : ∀ (t : Bool) (k : Nat), (if k = 0 then 0 else if t then -1 else 1 : ℚ) * k = signOne t * k := by
    intro t k
    by_cases h : k = 0
    · simp [h]
    · cases t <;> simp [h]
  simp only [valCompare, ← hm, Option.some.injEq]
  refine compare_of_scale (c := d * d' / (2 : ℚ) ^ m) (by positivity) ?_ ?_
  · rw [ratOf_num, two_zpow_split (hm ▸ min_le_left _ _)]
    push_cast
    rw [← mul_assoc, ← mul_assoc, key]
    field_simp
  · rw [ratOf_num, two_zpow_split (hm ▸ min_le_right _ _)]
    push_cast
    rw [← mul_assoc, ← mul_assoc, key]
    field_simp

/-! ## The exact operations raise nothing on finite operands (R58) -/

theorem FiniteVal.isSignalling {v : Val} (h : FiniteVal v) : v.isSignalling = false := by
  obtain ⟨s, n, d, e, rfl, -⟩ := h; rfl

theorem exactAdd_finite (r : Round) {x y : Val} (hx : FiniteVal x) (hy : FiniteVal y) :
    FiniteVal (exactAdd r x y).1 ∧ ratOf (exactAdd r x y).1 = ratOf x + ratOf y :=
  ⟨(valAdd_finite _ hx hy).1, (valAdd_finite _ hx hy).2.1⟩

theorem exactMul_finite {x y : Val} (hx : FiniteVal x) (hy : FiniteVal y) :
    FiniteVal (exactMul x y).1 ∧ ratOf (exactMul x y).1 = ratOf x * ratOf y ∧ (exactMul x y).2 = 0 := by
  obtain ⟨hf, hv, h0⟩ := valMul_finite hx hy
  exact ⟨hf, hv, by simp [exactMul, signal, h0, hx.isSignalling, hy.isSignalling, flagIf]⟩

end Machine
end Sys2Proof

open Sys2Proof Sys2Proof.Machine

/-- Settles O18: the operations on fractions with a power of two, each against the rational it denotes. -/
theorem arithmeticIsExact : Obligations.ArithmeticIsExact := by
  intro r s s' s'' n d n' d' n'' d'' e e' e'' hd hd' hd'' x y z v
  have hx : FiniteVal x := .num _ _ _ hd
  have hy : FiniteVal y := .num _ _ _ hd'
  have hz : FiniteVal z := .num _ _ _ hd''
  obtain ⟨hm, hmv, -⟩ := valMul_finite hx hy
  refine ⟨?_, ?_, ?_, ?_, fun hn => ?_, valCompare_finite hx hy, fun hn hn0 => ?_⟩
  · exact (exactAdd_finite r hx hy).1.valueOf.trans (congrArg some (exactAdd_finite r hx hy).2)
  · have h := exactAdd_finite r hx hy.negate.1
    rw [exactSub, h.1.valueOf, h.2, hy.negate.2, ← sub_eq_add_neg]
    rfl
  · exact hm.valueOf.trans (congrArg some hmv)
  · have h := valAdd_finite (r == .rdn) hm hz
    exact h.1.valueOf.trans (congrArg some (by rw [h.2.1, hmv]; rfl))
  · refine valDiv_finite hx hy ?_
    have : signOne s' ≠ 0 := by cases s' <;> simp
    have : (n' : ℚ) ≠ 0 := by exact_mod_cast hn
    rw [ratOf_num]
    positivity
  · subst hn
    simp [x, y, exactDiv, valDiv, hn0, signal, Val.isSignalling, flagIf]
end

section
/-! PROOFS. Rounding to an integer, and the exponent of a value (R53, R54). -/

namespace Sys2Proof
namespace Machine

/-- The magnitude n/d * 2^e. -/
def magOf (n d : Nat) (e : Int) : ℚ := (n : ℚ) / d * (2 : ℚ) ^ e

theorem magOf_nonneg (n d : Nat) (e : Int) : 0 ≤ magOf n d e := by unfold magOf; positivity

theorem magOf_pos {n d : Nat} (e : Int) (hn : n ≠ 0) (hd : 0 < d) : 0 < magOf n d e := by
  have : 0 < n := Nat.pos_of_ne_zero hn
  unfold magOf; positivity

theorem ratOf_num_eq (s : Bool) (n d : Nat) (e : Int) : ratOf (.num s n d e) = signOne s * magOf n d e := by
  rw [ratOf_num, magOf, mul_assoc]

theorem valueOf_num_eq (s : Bool) (n d : Nat) (e : Int) : valueOf (.num s n d e) = some (signOne s * magOf n d e) :=
  congrArg some (ratOf_num_eq s n d e)

theorem abs_ratOf_num (s : Bool) (n d : Nat) (e : Int) : |ratOf (.num s n d e)| = magOf n d e := by
  rw [ratOf_num_eq, abs_mul, abs_signOne, one_mul, abs_of_nonneg (magOf_nonneg ..)]

/-- A magnitude shifted by a power of two. -/
theorem magOf_add (n d : Nat) (e k : Int) : magOf n d (e + k) = magOf n d e * (2 : ℚ) ^ k := by
  rw [magOf, magOf, zpow_add₀ two_ne_zero, mul_assoc]

/-! ## Integer part and fraction -/

/-- A magnitude is its integer part and a fraction below 1. -/
theorem intParts_spec (n : Nat) {d : Nat} (e : Int) (hd : 0 < d) :
    0 < (intParts n d e).2.2 ∧ (intParts n d e).2.1 < (intParts n d e).2.2 ∧
    magOf n d e = (intParts n d e).1 + ((intParts n d e).2.1 : ℚ) / (intParts n d e).2.2 := by
  have main : ∀ n' d' : Nat, 0 < d' → magOf n d e = (n' : ℚ) / d' →
      0 < d' ∧ n' % d' < d' ∧ magOf n d e = (n' / d' : Nat) + ((n' % d' : Nat) : ℚ) / d' := by
    intro n' d' h h'
    refine ⟨h, Nat.mod_lt _ h, ?_⟩
    have : (d' : ℚ) ≠ 0 := by positivity
    rw [h', eq_comm, ← mul_div_cancel_left₀ ((n' / d' : Nat) : ℚ) this, ← add_div]
    congr 1
    exact_mod_cast Nat.div_add_mod n' d'
  by_cases he : 0 ≤ e
  · have : magOf n d e = ((n * 2 ^ e.toNat : Nat) : ℚ) / d := by
      rw [magOf, ← Int.toNat_of_nonneg he, zpow_natCast]
      push_cast
      rw [Int.toNat_natCast, div_mul_eq_mul_div]
    simpa only [intParts, if_pos he] using main _ _ hd this
  · have : magOf n d e = (n : ℚ) / (d * 2 ^ (-e).toNat : Nat) := by
      have h : e = -((-e).toNat : ℤ) := by omega
      rw [magOf]
      conv_lhs => rw [h]
      rw [zpow_neg, zpow_natCast]
      push_cast
      rw [div_mul_eq_div_div, div_eq_mul_inv _ ((2 : ℚ) ^ _)]
    simpa only [intParts, if_neg he] using main _ _ (Nat.mul_pos hd (by positivity)) this

theorem isInteger_iff (n d : Nat) (e : Int) : isInteger n d e = true ↔ (intParts n d e).2.1 = 0 := by
  simp [isInteger]

/-- The integer part and a zero fraction of a magnitude that is an integer. -/
theorem intParts_of_nat {n d : Nat} {e : Int} {k : Nat} (hd : 0 < d) (h : magOf n d e = k) :
    (intParts n d e).1 = k ∧ (intParts n d e).2.1 = 0 := by
  obtain ⟨hp, hlt, hm⟩ := intParts_spec n e hd
  have h1 : (intParts n d e).1 * (intParts n d e).2.2 + (intParts n d e).2.1 = k * (intParts n d e).2.2 := by
    have : ((intParts n d e).2.2 : ℚ) ≠ 0 := by positivity
    rw [hm] at h
    field_simp at h
    rw [Nat.mul_comm k]
    exact_mod_cast h
  have h2 : (intParts n d e).1 = k := by
    have := congrArg (· / (intParts n d e).2.2) h1
    simp only [Nat.mul_div_cancel _ hp] at this
    rwa [Nat.mul_comm, Nat.mul_add_div hp, Nat.div_eq_of_lt hlt, Nat.add_zero] at this
  exact ⟨h2, by rw [h2] at h1; omega⟩

/-- No fraction: the magnitude is its integer part. -/
theorem magOf_of_isInteger {n d : Nat} {e : Int} (hd : 0 < d) (h : isInteger n d e = true) :
    magOf n d e = (intParts n d e).1 := by
  obtain ⟨-, -, hm⟩ := intParts_spec n e hd
  rw [(isInteger_iff ..).1 h] at hm
  simpa using hm

/-- The integer part is the magnitude rounded down. -/
theorem intParts_floor (n : Nat) {d : Nat} (e : Int) (hd : 0 < d) : ((intParts n d e).1 : ℤ) = ⌊magOf n d e⌋ := by
  obtain ⟨hp, hlt, hm⟩ := intParts_spec n e hd
  have h1 : ((intParts n d e).2.1 : ℚ) / (intParts n d e).2.2 < 1 := by
    rw [div_lt_one (by positivity)]
    exact_mod_cast hlt
  have h0 : (0 : ℚ) ≤ ((intParts n d e).2.1 : ℚ) / (intParts n d e).2.2 := by positivity
  rw [eq_comm, Int.floor_eq_iff, hm]
  push_cast
  constructor <;> linarith

/-! ## Rounding to an integer (R54) -/

/-- An integer rounds to itself, whatever the rounding. -/
theorem roundParts_zero (q : Nat) {d : Nat} (hd : 0 < d) (rm : Round) (neg : Bool) (pos : Nat) : roundParts q 0 d rm neg pos = q := by
  have hthr : 0 < rsrThreshold pos := by unfold rsrThreshold; dsimp only; omega
  cases rm <;> simp [roundParts, hd]
  omega

theorem roundInt_of_nat {n d : Nat} {e : Int} {k : Nat} (hd : 0 < d) (h : magOf n d e = k) (rm : Round) (neg : Bool) (pos : Nat) :
    roundInt n d e rm neg pos = k := by
  obtain ⟨h1, h2⟩ := intParts_of_nat hd h
  obtain ⟨hp, -, -⟩ := intParts_spec n e hd
  unfold roundInt
  dsimp only
  rw [h1, h2, roundParts_zero _ hp]

theorem isInteger_of_nat {n d : Nat} {e : Int} {k : Nat} (hd : 0 < d) (h : magOf n d e = k) : isInteger n d e = true :=
  (isInteger_iff ..).2 (intParts_of_nat hd h).2

/-- Rounding goes to the integer part or the integer above. -/
theorem roundInt_bounds (n d : Nat) (e : Int) (rm : Round) (neg : Bool) (pos : Nat) :
    (intParts n d e).1 ≤ roundInt n d e rm neg pos ∧ roundInt n d e rm neg pos ≤ (intParts n d e).1 + 1 := by
  unfold roundInt roundParts
  dsimp only
  cases rm <;> dsimp only <;> (repeat' split) <;> omega

/-- RNE goes to an integer that no other is nearer than (R54). -/
theorem roundInt_rne_nearest (n : Nat) {d : Nat} (e : Int) (neg : Bool) (pos : Nat) (hd : 0 < d) (k : ℤ) :
    |(roundInt n d e .rne neg pos : ℚ) - magOf n d e| ≤ |(k : ℚ) - magOf n d e| := by
  obtain ⟨hp, hlt, hm⟩ := intParts_spec n e hd
  unfold roundInt
  dsimp only
  generalize (intParts n d e).1 = q at *
  generalize (intParts n d e).2.1 = r at *
  generalize (intParts n d e).2.2 = d' at *
  have hd' : (0 : ℚ) < d' := by exact_mod_cast hp
  obtain ⟨t, ht⟩ : ∃ t, t = (r : ℚ) / d' := ⟨_, rfl⟩
  have ht0 : 0 ≤ t := by rw [ht]; positivity
  have ht1 : t < 1 := by rw [ht, div_lt_one hd']; exact_mod_cast hlt
  -- an integer at or below `q` is at least `t` away, one above at least `1 - t`
  have hk : min t (1 - t) ≤ |(k : ℚ) - magOf n d e| := by
    rw [hm, ← ht]
    rcases le_or_gt k q with h | h
    · have : (k : ℚ) ≤ q := by exact_mod_cast h
      refine (min_le_left _ _).trans ?_
      rw [abs_of_nonpos (by linarith)]
      linarith
    · have : (q : ℚ) + 1 ≤ k := by exact_mod_cast h
      refine (min_le_right _ _).trans ?_
      rw [abs_of_nonneg (by linarith)]
      linarith
  have hbelow : 2 * t < 1 ↔ 2 * r < d' := by rw [ht, ← mul_div_assoc, div_lt_one hd']; norm_cast
  have habove : 1 < 2 * t ↔ d' < 2 * r := by rw [ht, ← mul_div_assoc, one_lt_div hd']; norm_cast
  have hq : |(q : ℚ) - magOf n d e| = t := by
    rw [hm, ← ht, abs_of_nonpos (by linarith)]; ring
  have hq1 : |((q + 1 : Nat) : ℚ) - magOf n d e| = 1 - t := by
    rw [hm, ← ht]; push_cast; rw [abs_of_nonneg (by linarith)]; ring
  refine le_trans ?_ hk
  unfold roundParts
  dsimp only
  split
  · next h =>
    have := hbelow.2 h
    rw [hq]; exact le_min le_rfl (by linarith)
  · next h =>
    split
    · next h' =>
      have := habove.2 h'
      rw [hq1]; exact le_min (by linarith) le_rfl
    · next h' =>
      have h1 : ¬ 2 * t < 1 := fun x => h (hbelow.1 x)
      have h2 : ¬ 1 < 2 * t := fun x => h' (habove.1 x)
      rcases Nat.mod_two_eq_zero_or_one q with h0 | h0
      · rw [h0, Nat.add_zero, hq]; exact le_min le_rfl (by linarith)
      · rw [h0, hq1]; exact le_min (by linarith) le_rfl

/-! ## The exponent -/

theorem log_eq_of_bounds {x : ℚ} {k : ℤ} (h1 : (2 : ℚ) ^ k ≤ x) (h2 : x < (2 : ℚ) ^ (k + 1)) : Int.log 2 x = k := by
  have hx : 0 < x := lt_of_lt_of_le (by positivity) h1
  have a : k ≤ Int.log 2 x := (Int.zpow_le_iff_le_log one_lt_two hx).1 (by exact_mod_cast h1)
  have b : Int.log 2 x < k + 1 := (Int.lt_zpow_iff_log_lt one_lt_two hx).1 (by exact_mod_cast h2)
  omega

theorem zpow_log_le {x : ℚ} (hx : 0 < x) : (2 : ℚ) ^ Int.log 2 x ≤ x := by
  exact_mod_cast Int.zpow_log_le_self (b := 2) one_lt_two hx

theorem lt_zpow_log {x : ℚ} : x < (2 : ℚ) ^ (Int.log 2 x + 1) := by
  exact_mod_cast Int.lt_zpow_succ_log_self (b := 2) one_lt_two x

/-- The exponent of a positive magnitude. -/
theorem floorLog2_eq {n d : Nat} (e : Int) (hn : n ≠ 0) (hd : 0 < d) : floorLog2 n d e = Int.log 2 (magOf n d e) := by
  have hn1 : ((2 ^ log2 n : Nat) : ℚ) ≤ n := by exact_mod_cast Nat.log2_self_le hn
  have hn2 : (n : ℚ) < (2 ^ (log2 n + 1) : Nat) := by exact_mod_cast Nat.lt_log2_self
  have hd1 : ((2 ^ log2 d : Nat) : ℚ) ≤ d := by exact_mod_cast Nat.log2_self_le hd.ne'
  have hd2 : (d : ℚ) < (2 ^ (log2 d + 1) : Nat) := by exact_mod_cast Nat.lt_log2_self
  have hdp : (0 : ℚ) < d := by exact_mod_cast hd
  push_cast [← zpow_natCast] at hn1 hn2 hd1 hd2
  obtain ⟨k, hk⟩ : ∃ k : ℤ, k = (log2 n : ℤ) - (log2 d : ℤ) := ⟨_, rfl⟩
  have hup : (n : ℚ) / d < (2 : ℚ) ^ (k + 1) := by
    rw [div_lt_iff₀ hdp]
    refine lt_of_lt_of_le hn2 (le_trans (le_of_eq ?_) (mul_le_mul_of_nonneg_left hd1 (by positivity)))
    rw [← zpow_add₀ two_ne_zero, hk]; congr 1; ring
  have hlow : (2 : ℚ) ^ (k - 1) ≤ (n : ℚ) / d := by
    rw [le_div_iff₀ hdp]
    refine le_trans (le_trans (mul_le_mul_of_nonneg_left hd2.le (by positivity)) (le_of_eq ?_)) hn1
    rw [← zpow_add₀ two_ne_zero, hk]; congr 1; ring
  have hfit : (if 0 ≤ k then decide (d * 2 ^ k.toNat ≤ n) else decide (d ≤ n * 2 ^ (-k).toNat)) = true ↔ (2 : ℚ) ^ k ≤ (n : ℚ) / d := by
    rw [le_div_iff₀ hdp]
    split
    · next h =>
      rw [decide_eq_true_iff, ← Nat.cast_le (α := ℚ)]
      conv_rhs => rw [← Int.toNat_of_nonneg h, zpow_natCast]
      push_cast
      rw [mul_comm]
    · next h =>
      have h' : k = -((-k).toNat : ℤ) := by omega
      rw [decide_eq_true_iff, ← Nat.cast_le (α := ℚ)]
      conv_rhs => rw [h', zpow_neg, zpow_natCast, inv_mul_le_iff₀ (by positivity)]
      push_cast
      rw [mul_comm (n : ℚ)]
  have hfl : floorLog2 n d e = (if (2 : ℚ) ^ k ≤ (n : ℚ) / d then k else k - 1) + e := by
    unfold floorLog2
    dsimp only
    rw [← hk]
    congr 1
    exact if_congr hfit rfl rfl
  rw [hfl, magOf, eq_comm]
  have h2e : (0 : ℚ) < (2 : ℚ) ^ e := by positivity
  split
  · next h =>
    refine log_eq_of_bounds ?_ ?_
    · rw [zpow_add₀ two_ne_zero]; exact mul_le_mul_of_nonneg_right h h2e.le
    · rw [show k + e + 1 = k + 1 + e by ring, zpow_add₀ two_ne_zero]
      exact mul_lt_mul_of_pos_right hup h2e
  · next h =>
    refine log_eq_of_bounds ?_ ?_
    · rw [zpow_add₀ two_ne_zero]; exact mul_le_mul_of_nonneg_right hlow h2e.le
    · rw [show k - 1 + e + 1 = k + e by ring, zpow_add₀ two_ne_zero]
      exact mul_lt_mul_of_pos_right (not_le.1 h) h2e

end Machine
end Sys2Proof
end

section
/-! PROOFS. Float slots: what a pattern denotes, and which pattern a value is encoded as (R50, R53). -/

namespace Sys2Proof
namespace Machine

/-! ## Float slots (R46) -/

/-- The conditions of Table 4.2 on a float slot, the width of its elements apart. -/
structure FloatSlot (f : FDef) : Prop where
  sign : f.s = 0 ∨ f.s = 1
  exp : 1 ≤ f.ew
  special : (f.inf = 0 ∧ f.nan = 0) ∨ (f.inf = 1 ∧ f.nan = 1 ∧ 1 ≤ f.mw ∧ 2 ≤ f.ew) ∨ (f.inf = 0 ∧ f.nan = 2) ∨
    (f.inf = 0 ∧ f.nan = 3 ∧ f.s = 1)

theorem fdefOf_s (w : Word) : (fdefOf w).s = 0 ∨ (fdefOf w).s = 1 := by
  have : (fdefOf w).s < 2 := Nat.mod_lt _ (by decide)
  omega

theorem floatSlot_of_legal {w : Word} (h : fdefLegal w = true) (h0 : (fdefOf w).kind = 0) : FloatSlot (fdefOf w) := by
  simp only [fdefLegal, h0, Bool.and_eq_true, Bool.or_eq_true, decide_eq_true_eq, beq_iff_eq, bne_iff_ne, ne_eq,
    List.mem_cons, Prod.mk.injEq, List.not_mem_nil, or_false] at h
  obtain ⟨-, ⟨⟨⟨⟨⟨he, hsp⟩, hn⟩, hi⟩, h3⟩, -⟩, -⟩ := h
  refine ⟨fdefOf_s w, he, ?_⟩
  rcases hsp with ⟨a, b⟩ | ⟨a, b⟩ | ⟨a, b⟩ | ⟨a, b⟩
  · exact .inl ⟨a, b⟩
  · exact .inr (.inl ⟨a, b, hn.resolve_left (by simp [b]), hi.resolve_left (by simp [a])⟩)
  · exact .inr (.inr (.inl ⟨a, b⟩))
  · exact .inr (.inr (.inr ⟨a, b, h3.resolve_left (by simp [b])⟩))

theorem width_of_float {f : FDef} (h0 : f.kind = 0) : f.w = f.s + f.magBits := by
  simp [FDef.w, FDef.magBits, h0, Nat.add_assoc]

/-! ## Magnitudes as patterns -/

/-- The significand and the exponent of the magnitude bits of a finite pattern (R50). -/
def sigOf (f : FDef) (mag : Nat) : Nat := if mag < 2 ^ f.mw then mag else 2 ^ f.mw + mag % 2 ^ f.mw
def expOf (f : FDef) (mag : Nat) : Int := max 1 ((mag / 2 ^ f.mw : Nat) : Int) - f.bias - f.mw

/-- The magnitude bits of a significand at an exponent. -/
def magBitsOf (f : FDef) (ex : Int) (q : Nat) : Nat := if q < 2 ^ f.mw then q else (ex + f.bias).toNat * 2 ^ f.mw + (q - 2 ^ f.mw)

theorem signOf_add {f : FDef} {mag : Nat} (neg : Bool) (hm : mag < 2 ^ f.magBits) (hs : neg = true → f.s = 1) :
    signOf f (mag + signBits f neg) = neg := by
  cases neg with
  | false => simp [signOf, signBits, natField, Nat.div_eq_of_lt hm]
  | true => simp [signOf, signBits, natField, hs rfl, Nat.div_eq_of_lt hm]

theorem natField_add_signBits {f : FDef} {mag : Nat} (neg : Bool) (hm : mag < 2 ^ f.magBits) :
    natField (mag + signBits f neg) 0 f.magBits = mag := by
  unfold natField signBits
  split
  · simp [Nat.mod_eq_of_lt hm]
  · simp [Nat.mod_eq_of_lt hm]

theorem natField_exp (f : FDef) (x : Nat) : natField x f.mw f.ew = natField x 0 f.magBits / 2 ^ f.mw := by
  simp only [natField, FDef.magBits, pow_zero, Nat.div_one]
  rw [Nat.add_comm f.ew, pow_add, Nat.mod_mul_right_div_self]

theorem natField_man (f : FDef) (x : Nat) : natField x 0 f.mw = natField x 0 f.magBits % 2 ^ f.mw := by
  simp only [natField, FDef.magBits, pow_zero, Nat.div_one]
  rw [Nat.mod_mod_of_dvd _ (pow_dvd_pow 2 (Nat.le_add_left _ _))]

/-- What a pattern that is neither a NaN nor an infinity denotes, where SUB takes no part or keeps subnormals. -/
theorem decodeFloat_finite {f : FDef} {flush : Bool} {x : Nat} (hnan : isNanPattern f x = false)
    (hinf : ¬ (f.inf = 1 ∧ natField x f.mw f.ew = 2 ^ f.ew - 1 ∧ natField x 0 f.mw = 0)) (hsub : flush = true → f.sub = 0) :
    decodeFloat f flush x = if natField x 0 f.magBits = 0 then valZero (signOf f x)
      else .num (signOf f x) (sigOf f (natField x 0 f.magBits)) 1 (expOf f (natField x 0 f.magBits)) := by
  have hfl : ¬ (flush = true ∧ (f.sub = 1 ∨ f.sub = 3)) := fun h => by have := hsub h.1; omega
  have hp : 0 < 2 ^ f.mw := by positivity
  unfold decodeFloat
  rw [if_neg (by simp [hnan]), if_neg hinf, ← signOf, natField_exp, natField_man]
  generalize natField x 0 f.magBits = mag
  by_cases h0 : mag / 2 ^ f.mw = 0
  · have hlt : mag < 2 ^ f.mw := by rcases Nat.div_eq_zero_iff.1 h0 with h | h <;> omega
    rw [if_pos h0, Nat.mod_eq_of_lt hlt]
    by_cases hm : mag = 0
    · simp [hm]
    · simp only [hm, hfl, or_self, if_false, sigOf, if_pos hlt, expOf, h0]
      simp
  · have hle : 2 ^ f.mw ≤ mag := by
      by_contra h
      exact h0 (Nat.div_eq_of_lt (not_le.1 h))
    rw [if_neg h0, if_neg (by omega), sigOf, if_neg (by omega), expOf, max_eq_right (by exact_mod_cast Nat.pos_of_ne_zero h0)]

/-- The patterns that are numbers: magnitude bits up to the largest, and with the canonical NaN of NAN 3 apart (Table 4.5). -/
theorem finite_of_le_max {f : FDef} (hf : FloatSlot f) {x : Nat} (hm : natField x 0 f.magBits ≤ maxPattern f)
    (h3 : f.nan = 3 → signOf f x = true → natField x 0 f.magBits ≠ 0) :
    isNanPattern f x = false ∧ ¬ (f.inf = 1 ∧ natField x f.mw f.ew = 2 ^ f.ew - 1 ∧ natField x 0 f.mw = 0) := by
  have hp : 0 < 2 ^ f.mw := by positivity
  rcases hf.special with ⟨hi, hn⟩ | ⟨hi, hn, hmw, hew⟩ | ⟨hi, hn⟩ | ⟨hi, hn, hs⟩
  · simp [isNanPattern, hn, hi]
  · have h4 : 4 ≤ 2 ^ f.ew := by
      calc 4 = 2 ^ 2 := rfl
        _ ≤ 2 ^ f.ew := Nat.pow_le_pow_right (by norm_num) hew
    have hlt : natField x 0 f.magBits < (2 ^ f.ew - 1) * 2 ^ f.mw := by
      have : 0 < (2 ^ f.ew - 1) * 2 ^ f.mw := Nat.mul_pos (by omega) hp
      simp only [maxPattern, hn] at hm
      omega
    refine ⟨by simp [isNanPattern, hn, hlt.le], fun h => ?_⟩
    have h1 : natField x 0 f.magBits / 2 ^ f.mw < 2 ^ f.ew - 1 := Nat.div_lt_of_lt_mul (by rwa [Nat.mul_comm])
    rw [← natField_exp] at h1
    omega
  · have : 2 ≤ 2 ^ f.magBits := by
      calc 2 = 2 ^ 1 := rfl
        _ ≤ 2 ^ f.magBits := Nat.pow_le_pow_right (by norm_num) (by have := hf.exp; unfold FDef.magBits; omega)
    simp only [maxPattern, hn] at hm
    simp [isNanPattern, hn, hi]
    omega
  · refine ⟨?_, by simp [hi]⟩
    simp only [isNanPattern, hn]
    rw [← signOf]
    by_cases h : signOf f x = true
    · simp [h, h3 hn h]
    · simp [Bool.not_eq_true _ ▸ h]

theorem maxPattern_lt {f : FDef} (hf : FloatSlot f) : maxPattern f < 2 ^ f.magBits := by
  have h : 0 < 2 ^ f.magBits := by positivity
  rcases hf.special with ⟨hi, hn⟩ | ⟨hi, hn, hmw, hew⟩ | ⟨hi, hn⟩ | ⟨hi, hn, hs⟩
  · simp only [maxPattern, hn]; omega
  · have : (2 ^ f.ew - 1) * 2 ^ f.mw ≤ 2 ^ f.magBits := by
      rw [FDef.magBits, pow_add]; exact Nat.mul_le_mul_right _ (Nat.sub_le _ _)
    simp only [maxPattern, hn]; omega
  · simp only [maxPattern, hn]; omega
  · simp only [maxPattern, hn]; omega

theorem ratOf_valZero (s : Bool) : ratOf (valZero s) = 0 := ratOf_of_valueOf (valueOf_valZero s)

/-- The value of a pattern of a number. -/
theorem valueOf_decodeFloat {f : FDef} {flush : Bool} {x : Nat} (hnan : isNanPattern f x = false)
    (hinf : ¬ (f.inf = 1 ∧ natField x f.mw f.ew = 2 ^ f.ew - 1 ∧ natField x 0 f.mw = 0)) (hsub : flush = true → f.sub = 0) :
    valueOf (decodeFloat f flush x) =
      some (signOne (signOf f x) * (sigOf f (natField x 0 f.magBits) * (2 : ℚ) ^ expOf f (natField x 0 f.magBits))) := by
  rw [decodeFloat_finite hnan hinf hsub]
  split
  · next h => simp [h, sigOf]
  · rw [valueOf_num_eq, magOf, Nat.cast_one, div_one]

/-! ## Encoding (R53) -/

/-- The exponent of the last place of a magnitude in a slot, and the integer of that place it is rounded to. -/
def encExp (f : FDef) (n d : Nat) (e : Int) : Int := max (floorLog2 n d e) (1 - f.bias)
def encInt (f : FDef) (n d : Nat) (e : Int) (rm : Round) (neg : Bool) (pos : Nat) : Nat :=
  roundInt n d (e + (f.mw - encExp f n d e)) rm neg pos

/-- The magnitude bits that a magnitude is rounded to, whether they lie in the slot or beyond its largest. -/
def encMag (f : FDef) (n d : Nat) (e : Int) (rm : Round) (neg : Bool) (pos : Nat) : Nat :=
  let q := encInt f n d e rm neg pos
  if q = 2 ^ (f.mw + 1) then magBitsOf f (encExp f n d e + 1) (2 ^ f.mw) else magBitsOf f (encExp f n d e) q

theorem encodeFloat_num {f : FDef} {neg : Bool} {n d : Nat} {e : Int} (hn : n ≠ 0) (hs : ¬ (f.s = 0 ∧ neg = true)) (rm : Round)
    (pos : Nat) (dz : Bool) :
    encodeFloat f (.num neg n d e) rm pos dz =
      if maxPattern f < encMag f n d e rm neg pos then (overflowBits f rm neg, fOverflow ||| fInexact)
      else if floorLog2 n d e < 1 - f.bias ∧ (f.sub = 2 ∨ f.sub = 3) then (zeroBits f neg, fUnderflow ||| fInexact)
      else (if encMag f n d e rm neg pos = 0 then zeroBits f neg else encMag f n d e rm neg pos + signBits f neg,
        flagIf (decide (floorLog2 n d e < 1 - f.bias) && !(isInteger n d (e + (f.mw - encExp f n d e)))) fUnderflow |||
          flagIf (!(isInteger n d (e + (f.mw - encExp f n d e)))) fInexact) := by
  have hpat : encMag f n d e rm neg pos =
      (if (if (encInt f n d e rm neg pos == 2 ^ (f.mw + 1)) = true then 2 ^ f.mw else encInt f n d e rm neg pos) < 2 ^ f.mw then
        (if (encInt f n d e rm neg pos == 2 ^ (f.mw + 1)) = true then 2 ^ f.mw else encInt f n d e rm neg pos)
      else ((if (encInt f n d e rm neg pos == 2 ^ (f.mw + 1)) = true then encExp f n d e + 1 else encExp f n d e) + f.bias).toNat *
          2 ^ f.mw + ((if (encInt f n d e rm neg pos == 2 ^ (f.mw + 1)) = true then 2 ^ f.mw else encInt f n d e rm neg pos) - 2 ^ f.mw)) := by
    unfold encMag magBitsOf
    by_cases h : encInt f n d e rm neg pos = 2 ^ (f.mw + 1) <;> simp [h]
  rw [hpat]
  simp only [encodeFloat, if_neg hn, if_neg hs, decide_eq_true_eq]
  rfl

end Machine
end Sys2Proof
end

section
/-! PROOFS. Encoding into a float slot: the value of the pattern, the nearest one under RNE, and patterns given back (R50, R53, R54). -/

namespace Sys2Proof
namespace Machine

/-! ## The significand and exponent of magnitude bits -/

/-- A significand fits an exponent of the slot: normal, or subnormal at the least exponent. -/
def Fits (f : FDef) (ex : Int) (q : Nat) : Prop := 1 - f.bias ≤ ex ∧ q < 2 ^ (f.mw + 1) ∧ (2 ^ f.mw ≤ q ∨ ex = 1 - f.bias)

theorem sigOf_lt (f : FDef) (mag : Nat) : sigOf f mag < 2 ^ (f.mw + 1) := by
  have : mag % 2 ^ f.mw < 2 ^ f.mw := Nat.mod_lt _ (by positivity)
  unfold sigOf
  rw [pow_succ]
  split <;> omega

theorem expOf_ge (f : FDef) (mag : Nat) : 1 - f.bias ≤ expOf f mag + f.mw := by
  unfold expOf
  have := le_max_left (1 : Int) ((mag / 2 ^ f.mw : Nat) : Int)
  omega

/-- Magnitude bits hold the significand and the exponent they are made of. -/
theorem sigOf_magBitsOf {f : FDef} {ex : Int} {q : Nat} (h : Fits f ex q) :
    sigOf f (magBitsOf f ex q) = q ∧ expOf f (magBitsOf f ex q) = ex - f.mw := by
  obtain ⟨hex, hlt, hnorm⟩ := h
  have hp : 0 < 2 ^ f.mw := by positivity
  rw [pow_succ] at hlt
  by_cases hq : q < 2 ^ f.mw
  · have he : ex = 1 - f.bias := hnorm.resolve_left (by omega)
    rw [magBitsOf, if_pos hq, sigOf, if_pos hq, expOf, Nat.div_eq_of_lt hq, he]
    simp
  · have hm : (q - 2 ^ f.mw) < 2 ^ f.mw := by omega
    have h1 : 1 ≤ (ex + f.bias).toNat := by omega
    have hdiv : ((ex + f.bias).toNat * 2 ^ f.mw + (q - 2 ^ f.mw)) / 2 ^ f.mw = (ex + f.bias).toNat := by
      rw [Nat.mul_comm, Nat.mul_add_div hp, Nat.div_eq_of_lt hm, Nat.add_zero]
    have hmod : ((ex + f.bias).toNat * 2 ^ f.mw + (q - 2 ^ f.mw)) % 2 ^ f.mw = q - 2 ^ f.mw := by
      rw [Nat.mul_comm, Nat.mul_add_mod, Nat.mod_eq_of_lt hm]
    have hge : ¬ (ex + f.bias).toNat * 2 ^ f.mw + (q - 2 ^ f.mw) < 2 ^ f.mw := by
      have := Nat.mul_le_mul_right (2 ^ f.mw) h1
      omega
    rw [magBitsOf, if_neg hq, sigOf, if_neg hge, expOf, hdiv, hmod]
    refine ⟨by omega, ?_⟩
    rw [max_eq_right (by exact_mod_cast h1), Int.toNat_of_nonneg (by omega)]
    ring

/-- Magnitude bits are those of their significand and exponent. -/
theorem magBitsOf_sigOf (f : FDef) (mag : Nat) :
    Fits f (expOf f mag + f.mw) (sigOf f mag) ∧ magBitsOf f (expOf f mag + f.mw) (sigOf f mag) = mag := by
  have hp : 0 < 2 ^ f.mw := by positivity
  by_cases h : mag < 2 ^ f.mw
  · have he : expOf f mag + f.mw = 1 - f.bias := by rw [expOf, Nat.div_eq_of_lt h]; simp
    refine ⟨⟨expOf_ge f mag, sigOf_lt f mag, .inr he⟩, ?_⟩
    rw [sigOf, if_pos h, magBitsOf, if_pos h]
  · have h1 : 1 ≤ mag / 2 ^ f.mw := (Nat.one_le_div_iff hp).2 (not_lt.1 h)
    have hs : sigOf f mag = 2 ^ f.mw + mag % 2 ^ f.mw := if_neg h
    have he : expOf f mag + f.mw + f.bias = (mag / 2 ^ f.mw : Nat) := by
      rw [expOf, max_eq_right (by exact_mod_cast h1)]; ring
    refine ⟨⟨expOf_ge f mag, sigOf_lt f mag, .inl (hs ▸ Nat.le_add_right _ _)⟩, ?_⟩
    rw [magBitsOf, hs, if_neg (by omega), he, Int.toNat_natCast, Nat.add_sub_cancel_left, Nat.div_add_mod']

/-- A value of a slot is a multiple of the last place at an exponent, or is no larger than that exponent's power of two. -/
theorem multiple_or_le (f : FDef) (mag : Nat) (ex : Int) :
    (∃ k : Nat, (sigOf f mag : ℚ) * 2 ^ expOf f mag = k * 2 ^ (ex - f.mw)) ∨ (sigOf f mag : ℚ) * 2 ^ expOf f mag ≤ 2 ^ ex := by
  rcases le_or_gt (ex - f.mw) (expOf f mag) with h | h
  · refine .inl ⟨sigOf f mag * 2 ^ (expOf f mag - (ex - f.mw)).toNat, ?_⟩
    rw [two_zpow_split h]
    push_cast
    ring
  · refine .inr ?_
    have hlt : (sigOf f mag : ℚ) ≤ 2 ^ ((f.mw + 1 : Nat) : ℤ) := by
      rw [zpow_natCast]; exact_mod_cast (sigOf_lt f mag).le
    calc (sigOf f mag : ℚ) * 2 ^ expOf f mag ≤ 2 ^ ((f.mw + 1 : Nat) : ℤ) * 2 ^ expOf f mag := by gcongr
      _ = 2 ^ (((f.mw + 1 : Nat) : ℤ) + expOf f mag) := (zpow_add₀ two_ne_zero _ _).symm
      _ ≤ 2 ^ ex := by
          apply zpow_le_zpow_right₀ one_le_two
          push_cast
          omega

/-! ## The value of an encoding -/

section
variable {f : FDef} {n d : Nat} {e : Int} (rm : Round) (neg : Bool) (pos : Nat)

/-- The magnitude that rounding sees, in places of the slot. -/
theorem magOf_encExp : magOf n d (e + (f.mw - encExp f n d e)) = magOf n d e * 2 ^ (f.mw - encExp f n d e) := magOf_add ..

theorem encExp_ge : 1 - f.bias ≤ encExp f n d e := le_max_right _ _

theorem encInt_le (hn : n ≠ 0) (hd : 0 < d) : encInt f n d e rm neg pos ≤ 2 ^ (f.mw + 1) := by
  have hlt : magOf n d (e + (f.mw - encExp f n d e)) < ((2 ^ (f.mw + 1) : Nat) : ℤ) := by
    have h1 : magOf n d e < (2 : ℚ) ^ (encExp f n d e + 1) :=
      lt_of_lt_of_le lt_zpow_log (zpow_le_zpow_right₀ one_le_two (by rw [← floorLog2_eq e hn hd]; exact Int.add_le_add_right (le_max_left _ _) 1))
    rw [magOf_encExp]
    refine lt_of_lt_of_eq (mul_lt_mul_of_pos_right h1 (by positivity)) ?_
    rw [← zpow_add₀ two_ne_zero]
    push_cast
    rw [← zpow_natCast]
    congr 1
    push_cast
    ring
  have hf : ((intParts n d (e + (f.mw - encExp f n d e))).1 : ℤ) < (2 ^ (f.mw + 1) : Nat) := by
    rw [intParts_floor _ _ hd]; exact Int.floor_lt.2 hlt
  have := (roundInt_bounds n d (e + (f.mw - encExp f n d e)) rm neg pos).2
  unfold encInt
  omega

theorem le_encInt (hn : n ≠ 0) (hd : 0 < d) (h : 1 - f.bias ≤ floorLog2 n d e) : 2 ^ f.mw ≤ encInt f n d e rm neg pos := by
  have he : encExp f n d e = Int.log 2 (magOf n d e) := by rw [encExp, max_eq_left h, floorLog2_eq e hn hd]
  have hle : (((2 ^ f.mw : Nat) : ℤ) : ℚ) ≤ magOf n d (e + (f.mw - encExp f n d e)) := by
    rw [magOf_encExp]
    refine le_trans (le_of_eq ?_) (mul_le_mul_of_nonneg_right (zpow_log_le (magOf_pos e hn hd)) (by positivity))
    rw [← zpow_add₀ two_ne_zero, he]
    push_cast
    rw [← zpow_natCast]
    congr 1
    ring
  have hf : ((2 ^ f.mw : Nat) : ℤ) ≤ (intParts n d (e + (f.mw - encExp f n d e))).1 := by
    rw [intParts_floor _ _ hd]; exact Int.le_floor.2 hle
  have := (roundInt_bounds n d (e + (f.mw - encExp f n d e)) rm neg pos).1
  unfold encInt
  omega

/-- Encoded magnitude bits stand for the rounded integer, in places of the slot. -/
theorem value_encMag (hn : n ≠ 0) (hd : 0 < d) :
    (sigOf f (encMag f n d e rm neg pos) : ℚ) * 2 ^ expOf f (encMag f n d e rm neg pos) =
      encInt f n d e rm neg pos * 2 ^ (encExp f n d e - f.mw) := by
  have hle := encInt_le (f := f) (e := e) rm neg pos hn hd
  unfold encMag
  dsimp only
  split
  · next hc =>
    have hfit : Fits f (encExp f n d e + 1) (2 ^ f.mw) :=
      ⟨by have := encExp_ge (f := f) (n := n) (d := d) (e := e); omega, Nat.pow_lt_pow_right (by norm_num) (by omega), .inl le_rfl⟩
    obtain ⟨h1, h2⟩ := sigOf_magBitsOf hfit
    rw [h1, h2, hc, show encExp f n d e + 1 - f.mw = 1 + (encExp f n d e - f.mw) by ring, zpow_add₀ two_ne_zero]
    push_cast
    rw [pow_succ]
    ring
  · next hc =>
    have hfit : Fits f (encExp f n d e) (encInt f n d e rm neg pos) := by
      refine ⟨encExp_ge (f := f), by omega, ?_⟩
      rcases le_or_gt (1 - f.bias) (floorLog2 n d e) with h | h
      · exact .inl (le_encInt rm neg pos hn hd h)
      · exact .inr (max_eq_right h.le)
    obtain ⟨h1, h2⟩ := sigOf_magBitsOf hfit
    rw [h1, h2]

end

/-- The pattern of magnitude bits and a sign denotes them. -/
theorem valueOf_decode_bits {f : FDef} {flush : Bool} (hf : FloatSlot f) {mag : Nat} {neg : Bool} (hm : mag ≤ maxPattern f)
    (hs : neg = true → f.s = 1) (hsub : flush = true → f.sub = 0) (h3 : f.nan = 3 → mag = 0 → neg = false) :
    valueOf (decodeFloat f flush (mag + signBits f neg)) = some (signOne neg * (sigOf f mag * (2 : ℚ) ^ expOf f mag)) := by
  have hlt := lt_of_le_of_lt hm (maxPattern_lt hf)
  have hfin := finite_of_le_max hf (x := mag + signBits f neg) (by rwa [natField_add_signBits neg hlt])
    (by
      rw [signOf_add neg hlt hs, natField_add_signBits neg hlt]
      intro h3' hneg h0
      rw [h3 h3' h0] at hneg
      cases hneg)
  rw [valueOf_decodeFloat hfin.1 hfin.2 hsub, signOf_add neg hlt hs, natField_add_signBits neg hlt]

/-- What the encoding of a nonzero value denotes, when it neither overflows nor flushes (R53). -/
theorem valueOf_decode_encode {f : FDef} {flush : Bool} (hf : FloatSlot f) {neg : Bool} {n d : Nat} {e : Int} (rm : Round) (pos : Nat)
    (dz : Bool) (hn : n ≠ 0) (hd : 0 < d) (hs : neg = true → f.s = 1) (hsub : f.sub = 0) (hov : encMag f n d e rm neg pos ≤ maxPattern f) :
    valueOf (decodeFloat f flush (encodeFloat f (.num neg n d e) rm pos dz).1) =
      some (signOne neg * (encInt f n d e rm neg pos * (2 : ℚ) ^ (encExp f n d e - f.mw))) := by
  rw [encodeFloat_num hn (by rintro ⟨h0, h⟩; rw [hs h] at h0; cases h0), if_neg (not_lt.2 hov), if_neg (by omega)]
  rw [← value_encMag rm neg pos hn hd]
  dsimp only
  split
  · next h0 =>
    have hz : zeroBits f neg = 0 + signBits f (if f.nan = 3 then false else neg) := by
      unfold zeroBits
      by_cases h : f.nan = 3 <;> simp [h, signBits]
    rw [hz, valueOf_decode_bits hf (Nat.zero_le _) (by split <;> simp_all) (fun _ => hsub) (by intro h; simp [h]), h0]
    simp [sigOf]
  · next h0 => exact valueOf_decode_bits hf hov hs (fun _ => hsub) (fun _ h => absurd h h0)

/-- A positive magnitude rounded to a place under RNE is no farther than any value of the slot (R54). -/
theorem encInt_nearest {f : FDef} {n d : Nat} {e : Int} (neg : Bool) (pos : Nat) (hn : n ≠ 0) (hd : 0 < d) (mag : Nat) (s : Bool) :
    |(encInt f n d e .rne neg pos : ℚ) * 2 ^ (encExp f n d e - f.mw) - magOf n d e| ≤
      |signOne s * (sigOf f mag * 2 ^ expOf f mag) - magOf n d e| := by
  set u : ℚ := 2 ^ (encExp f n d e - f.mw) with hu
  have hu0 : 0 < u := by positivity
  have hM : magOf n d e = magOf n d (e + (f.mw - encExp f n d e)) * u := by
    rw [magOf_add, mul_assoc, hu, ← zpow_add₀ two_ne_zero]
    simp
  have hk (k : ℤ) : |(encInt f n d e .rne neg pos : ℚ) * u - magOf n d e| ≤ |(k : ℚ) * u - magOf n d e| := by
    rw [hM, ← sub_mul, ← sub_mul, abs_mul, abs_mul]
    exact mul_le_mul_of_nonneg_right (roundInt_rne_nearest n _ neg pos hd k) (abs_nonneg u)
  set y : ℚ := (sigOf f mag : ℚ) * 2 ^ expOf f mag with hy
  have hy0 : 0 ≤ y := by positivity
  rcases multiple_or_le f mag (encExp f n d e) with ⟨k, h⟩ | h
  · rw [← hu, ← hy] at h
    refine (hk (if s then -k else k)).trans (le_of_eq ?_)
    rw [h, cast_signed, Int.cast_natCast, mul_assoc]
  · rcases le_or_gt (1 - f.bias) (floorLog2 n d e) with hl | hl
    · -- below the power of two that the value is not below: that power is a multiple of the place
      have hpow : ((2 ^ f.mw : Nat) : ℤ) * u = (2 : ℚ) ^ encExp f n d e := by
        rw [hu]
        push_cast
        rw [← zpow_natCast, ← zpow_add₀ two_ne_zero]
        congr 1
        ring
      have hle : (2 : ℚ) ^ encExp f n d e ≤ magOf n d e := by
        rw [encExp, max_eq_left hl, floorLog2_eq e hn hd]
        exact zpow_log_le (magOf_pos e hn hd)
      have hsy : signOne s * y ≤ y := by cases s <;> simp [hy0]
      refine (hk ((2 ^ f.mw : Nat) : ℤ)).trans ?_
      rw [hpow, abs_of_nonpos (by linarith), abs_of_nonpos (by linarith)]
      linarith
    · -- at the least exponent every value of the slot is a multiple of the place
      have hx : encExp f n d e = 1 - f.bias := max_eq_right hl.le
      have h' : encExp f n d e - f.mw ≤ expOf f mag := by have := expOf_ge f mag; omega
      refine (hk (if s then -((sigOf f mag * 2 ^ (expOf f mag - (encExp f n d e - f.mw)).toNat : Nat) : ℤ)
        else ((sigOf f mag * 2 ^ (expOf f mag - (encExp f n d e - f.mw)).toNat : Nat) : ℤ))).trans (le_of_eq ?_)
      rw [hy, two_zpow_split h', cast_signed]
      push_cast
      rw [hu]
      ring_nf

/-- A number among the patterns of a float slot is a signed significand at an exponent. -/
theorem valueOf_decodeFloat_some {f : FDef} {flush : Bool} {p : Nat} {q : ℚ} (hsub : flush = true → f.sub = 0)
    (h : valueOf (decodeFloat f flush p) = some q) :
    q = signOne (signOf f p) * (sigOf f (natField p 0 f.magBits) * (2 : ℚ) ^ expOf f (natField p 0 f.magBits)) := by
  by_cases hnan : isNanPattern f p = true
  · simp [decodeFloat, hnan, valueOf] at h
  · by_cases hinf : f.inf = 1 ∧ natField p f.mw f.ew = 2 ^ f.ew - 1 ∧ natField p 0 f.mw = 0
    · simp [decodeFloat, hnan, hinf, valueOf] at h
    · rw [valueOf_decodeFloat (by simpa using hnan) hinf hsub] at h
      exact (Option.some.inj h).symm

theorem fOverflow_or_fInexact_and : (fOverflow ||| fInexact) &&& fOverflow ≠ 0 := by decide

end Machine
end Sys2Proof

open Sys2Proof Sys2Proof.Machine
/-- Settles O19: the slot's values at an exponent are multiples of its last place, or lie below its power of two. -/
theorem roundsToNearest : Obligations.RoundsToNearest := by
  intro w s n d e p f hl h0 hsub hd hs x r hov y q v hx hy hp hq
  have hf : FloatSlot f := floatSlot_of_legal hl h0
  have hsub' : true = true → f.sub = 0 := fun _ => hsub
  simp only [decodeElem, if_pos h0] at hy hq
  have hr : r = encodeFloat f x .rne 0 false := if_pos h0
  rw [hr] at hov hy
  have hv : v = signOne s * magOf n d e := (Option.some.inj (hx.symm.trans (valueOf_num_eq s n d e)))
  have hsg : s = true → f.s = 1 := fun h => hf.sign.resolve_left (fun h' => by rw [hs h'] at h; cases h)
  by_cases hn : n = 0
  · have hy0 : y = 0 := by
      have h1 : (encodeFloat f x .rne 0 false).1 = 0 + signBits f (if f.nan = 3 then false else s) := by
        simp only [x, encodeFloat, hn, if_true, zeroBits]
        by_cases h : f.nan = 3 <;> simp [h, signBits]
      rw [h1, valueOf_decode_bits hf (Nat.zero_le _) (by split <;> simp_all) hsub' (by intro h; simp [h])] at hy
      simpa [sigOf] using hy.symm
    rw [hy0, hv, hn]
    simp [magOf]
  · have hle : encMag f n d e .rne s 0 ≤ maxPattern f := by
      by_contra h
      rw [encodeFloat_num hn (by rintro ⟨h0, h⟩; rw [hsg h] at h0; cases h0), if_pos (not_le.1 h)] at hov
      exact fOverflow_or_fInexact_and hov
    rw [valueOf_decode_encode hf .rne 0 false hn hd hsg hsub hle] at hy
    have hq' := valueOf_decodeFloat_some hsub' hq
    have hnear := encInt_nearest (f := f) (e := e) s 0 hn hd (natField p 0 f.magBits) (signOf f p != s)
    have hone := signOne_mul_self s
    have hfac : ∀ a : ℚ, |signOne s * a - v| = |a - magOf n d e| := fun a => by
      rw [hv, ← mul_sub, abs_mul, abs_signOne, one_mul]
    rw [← Option.some.inj hy, hfac]
    refine hnear.trans (le_of_eq ?_)
    rw [← hfac, hq', signOne_bne]
    congr 1
    linear_combination (signOne (signOf f p) * (sigOf f (natField p 0 f.magBits) * (2 : ℚ) ^ expOf f (natField p 0 f.magBits))) * hone
end

section
/-! PROOFS. Encoding what a pattern denotes (R50, R52, R53, R57). -/

namespace Sys2Proof
namespace Machine

/-! ## Float slots -/

/-- A pattern is its magnitude bits and its sign. -/
theorem pattern_eq {f : FDef} (h0 : f.kind = 0) (hf : FloatSlot f) {p : Nat} (hp : p < 2 ^ f.w) :
    p = natField p 0 f.magBits + signBits f (signOf f p) := by
  have hdm := Nat.mod_add_div p (2 ^ f.magBits)
  rw [width_of_float h0, pow_add] at hp
  have hlt : p / 2 ^ f.magBits < 2 ^ f.s := Nat.div_lt_of_lt_mul (by rwa [Nat.mul_comm])
  simp only [natField, signBits, signOf, pow_zero, Nat.div_one, pow_one]
  rcases hf.sign with hs | hs
  · rw [hs, pow_zero] at hlt
    have h1 : p / 2 ^ f.magBits = 0 := Nat.lt_one_iff.1 hlt
    rw [h1, Nat.mul_zero] at hdm
    simp [hs, hdm]
  · rw [hs, pow_one] at hlt
    rcases Nat.le_one_iff_eq_zero_or_eq_one.1 (Nat.le_of_lt_succ hlt) with h1 | h1
    · rw [h1, Nat.mul_zero] at hdm; simp [h1, hdm]
    · rw [h1, Nat.mul_one] at hdm; simp [h1, hs, hdm]

/-- The magnitude bits of a pattern that is neither a NaN nor an infinity lie up to the largest (Table 4.5). -/
theorem le_max_of_finite {f : FDef} (hf : FloatSlot f) {x : Nat} (hnan : isNanPattern f x = false)
    (hinf : ¬ (f.inf = 1 ∧ natField x f.mw f.ew = 2 ^ f.ew - 1 ∧ natField x 0 f.mw = 0)) : natField x 0 f.magBits ≤ maxPattern f := by
  have hp : 0 < 2 ^ f.mw := by positivity
  have hlt : natField x 0 f.magBits < 2 ^ f.magBits := Nat.mod_lt _ (by positivity)
  rcases hf.special with ⟨hi, hn⟩ | ⟨hi, hn, hmw, hew⟩ | ⟨hi, hn⟩ | ⟨hi, hn, hs⟩
  · simp only [maxPattern, hn]; omega
  · have hle : natField x 0 f.magBits ≤ (2 ^ f.ew - 1) * 2 ^ f.mw := by simpa [isNanPattern, hn] using hnan
    have hne : natField x 0 f.magBits ≠ (2 ^ f.ew - 1) * 2 ^ f.mw := fun h => by
      refine hinf ⟨hi, ?_, ?_⟩
      · rw [natField_exp, h, Nat.mul_div_cancel _ hp]
      · rw [natField_man, h, Nat.mul_mod_left]
    simp only [maxPattern, hn]; omega
  · have hne : natField x 0 f.magBits ≠ 2 ^ f.magBits - 1 := by simpa [isNanPattern, hn] using hnan
    simp only [maxPattern, hn]; omega
  · simp only [maxPattern, hn]; omega

/-- A significand that fits an exponent has it when it is encoded. -/
theorem encExp_of_fits {f : FDef} {ex : Int} {q : Nat} (h : Fits f ex q) (hq : q ≠ 0) : encExp f q 1 (ex - f.mw) = ex := by
  obtain ⟨hex, hlt, hnorm⟩ := h
  have hM : magOf q 1 (ex - f.mw) = q * 2 ^ (ex - f.mw) := by rw [magOf, Nat.cast_one, div_one]
  have hup : magOf q 1 (ex - f.mw) < 2 ^ (ex + 1) := by
    rw [hM, show ex + 1 = ((f.mw + 1 : Nat) : ℤ) + (ex - f.mw) by push_cast; ring, zpow_add₀ two_ne_zero, zpow_natCast]
    exact mul_lt_mul_of_pos_right (by exact_mod_cast hlt) (by positivity)
  have hpos := magOf_pos (ex - f.mw) hq Nat.one_pos
  rw [encExp, floorLog2_eq _ hq Nat.one_pos]
  rcases hnorm with h | h
  · have hlow : (2 : ℚ) ^ ex ≤ magOf q 1 (ex - f.mw) := by
      rw [hM]
      conv_lhs => rw [show ex = (f.mw : ℤ) + (ex - f.mw) by ring, zpow_add₀ two_ne_zero, zpow_natCast]
      exact mul_le_mul_of_nonneg_right (by exact_mod_cast h) (by positivity)
    rw [log_eq_of_bounds hlow hup, max_eq_left hex]
  · have : Int.log 2 (magOf q 1 (ex - f.mw)) < ex + 1 := (Int.lt_zpow_iff_log_lt one_lt_two hpos).1 (by exact_mod_cast hup)
    rw [max_eq_right (by omega), h]

/-- A nonzero number of the slot is encoded as its own magnitude bits. -/
theorem encode_fits {f : FDef} {ex : Int} {q : Nat} (h : Fits f ex q) (hq : q ≠ 0) (rm : Round) {neg : Bool} (hs : neg = true → f.s = 1)
    (pos : Nat) (dz : Bool) (hsub : f.sub = 0) (hmax : magBitsOf f ex q ≤ maxPattern f) (h0 : magBitsOf f ex q ≠ 0) :
    encodeFloat f (.num neg q 1 (ex - f.mw)) rm pos dz = (magBitsOf f ex q + signBits f neg, 0) := by
  have hx := encExp_of_fits h hq
  have hshift : ex - f.mw + (f.mw - encExp f q 1 (ex - f.mw)) = 0 := by rw [hx]; ring
  have hM : magOf q 1 0 = q := by simp [magOf]
  have hint : encInt f q 1 (ex - f.mw) rm neg pos = q := by
    rw [encInt, hshift]; exact roundInt_of_nat Nat.one_pos hM rm neg pos
  have hmag : encMag f q 1 (ex - f.mw) rm neg pos = magBitsOf f ex q := by
    simp only [encMag, hint, hx]
    exact if_neg h.2.1.ne
  rw [encodeFloat_num hq (by rintro ⟨h0, h⟩; rw [hs h] at h0; cases h0), hmag, if_neg (not_lt.2 hmax), if_neg (by omega), if_neg h0,
    hshift, isInteger_of_nat Nat.one_pos hM]
  simp [flagIf]

/-- A float slot gives back every pattern but a NaN. -/
theorem encodeFloat_decodeFloat {f : FDef} (h0 : f.kind = 0) (hf : FloatSlot f) (hsub : f.sub = 0) {p : Nat} (hp : p < 2 ^ f.w)
    (hnan : (decodeFloat f true p).isNan = false) (rm : Round) (pos : Nat) :
    encodeFloat f (decodeFloat f true p) rm pos false = (p, 0) := by
  have hnp : isNanPattern f p = false := by
    cases h : isNanPattern f p with
    | false => rfl
    | true => simp [decodeFloat, h, Val.isNan] at hnan
  have hpat := pattern_eq h0 hf hp
  have hsign : signOf f p = true → f.s = 1 := fun h => by
    simp only [signOf, Bool.and_eq_true, beq_iff_eq] at h; exact h.1
  by_cases hinf : f.inf = 1 ∧ natField p f.mw f.ew = 2 ^ f.ew - 1 ∧ natField p 0 f.mw = 0
  · have hmag : natField p 0 f.magBits = (2 ^ f.ew - 1) * 2 ^ f.mw := by
      rw [← Nat.div_add_mod' (natField p 0 f.magBits) (2 ^ f.mw), ← natField_exp, ← natField_man, hinf.2.1, hinf.2.2, Nat.add_zero]
    have hdec : decodeFloat f true p = .inf (signOf f p) := by
      unfold decodeFloat
      rw [if_neg (by simp [hnp]), if_pos hinf, signOf]
    rw [hdec]
    simp only [encodeFloat, noPlace]
    rw [if_neg (by rintro ⟨h1, h2⟩; rw [hsign h2] at h1; cases h1), if_pos hinf.1, infBits, ← hmag, ← hpat]
  · rw [decodeFloat_finite hnp hinf (fun _ => hsub)]
    by_cases hz : natField p 0 f.magBits = 0
    · rw [if_pos hz]
      simp only [valZero, encodeFloat, if_true, zeroBits]
      by_cases h3 : f.nan = 3
      · have : signOf f p = false := by
          simp only [isNanPattern, h3, hz] at hnp
          simpa [signOf] using hnp
        rw [hz, this] at hpat
        simpa [h3, signBits] using hpat.symm
      · rw [hz] at hpat
        simpa [h3] using hpat.symm
    · obtain ⟨hfit, hbits⟩ := magBitsOf_sigOf f (natField p 0 f.magBits)
      have hq : sigOf f (natField p 0 f.magBits) ≠ 0 := by
        have : 0 < 2 ^ f.mw := by positivity
        unfold sigOf
        split <;> omega
      have henc := encode_fits hfit hq rm hsign pos false hsub (by rw [hbits]; exact le_max_of_finite hf hnp hinf) (by rwa [hbits])
      rw [Int.add_sub_cancel] at henc
      rw [if_neg hz, henc, hbits, ← hpat]

/-! ## Integer and fixed-point slots -/

theorem integer_of_legal {w : Word} (h : fdefLegal w = true) (h0 : (fdefOf w).kind ≠ 0) (h4 : (fdefOf w).kind ≤ 4) :
    (fdefOf w).s = 1 ∧ (fdefOf w).ew = 0 := by
  simp only [fdefLegal, Bool.and_eq_true] at h
  obtain ⟨-, h⟩ := h
  have hk : (fdefOf w).kind = 1 ∨ (fdefOf w).kind = 2 ∨ (fdefOf w).kind = 3 ∨ (fdefOf w).kind = 4 := by omega
  rcases hk with hk | hk | hk | hk <;> rw [hk] at h <;> simp only [Bool.and_eq_true, beq_iff_eq] at h <;> tauto

/-- An integer that the slot holds is encoded as its own pattern (R57). -/
theorem encodeInt_of_int {f : FDef} {x : Int} (hlo : (if f.isSigned then -((2 ^ f.mw : Nat) : Int) else 0) ≤ x)
    (hhi : x ≤ (if f.isSigned then ((2 ^ f.mw : Nat) : Int) - 1 else ((2 ^ (f.mw + 1) : Nat) : Int) - 1)) (rm : Round) (pos : Nat) :
    encodeInt f (valInt x (-(f.frac : Int))) rm pos = (patternOf f.w x, 0) := by
  have hM : magOf x.natAbs 1 (-(f.frac : Int) + f.frac) = x.natAbs := by simp [magOf]
  have hq := roundInt_of_nat Nat.one_pos hM rm (decide (x < 0)) pos
  have hx : (if decide (x < 0) then -(x.natAbs : Int) else (x.natAbs : Int)) = x := by
    rcases lt_or_ge x 0 with h | h
    · rw [if_pos (by simpa using h), Int.ofNat_natAbs_of_nonpos h.le, Int.neg_neg]
    · rw [if_neg (by simpa using h), Int.natAbs_of_nonneg h]
  simp only [encodeInt, valInt, hq, hx, isInteger_of_nat Nat.one_pos hM]
  rw [if_neg (by rintro (h | h); exacts [absurd hlo (not_le.2 h), absurd hhi (not_le.2 h)])]
  simp [flagIf]

/-- The two's complement value of a pattern, and the pattern of that value. -/
theorem signedOf_bounds {n p : Nat} (hp : p < 2 ^ n) (hn : 0 < n) :
    -((2 ^ (n - 1) : Nat) : Int) ≤ signedOf n p ∧ signedOf n p ≤ ((2 ^ (n - 1) : Nat) : Int) - 1 ∧ patternOf n (signedOf n p) = p := by
  obtain ⟨k, rfl⟩ : ∃ k, n = k + 1 := ⟨n - 1, by omega⟩
  have hpow : (2 : ℤ) ^ (k + 1) = 2 * 2 ^ k := by rw [pow_succ, Int.mul_comm]
  have hp' : (p : ℤ) < 2 * 2 ^ k := by rw [← hpow]; exact_mod_cast hp
  unfold signedOf patternOf
  rw [Nat.add_sub_cancel, Nat.mod_eq_of_lt hp, Int.emod_eq_of_lt (by omega) (by rwa [hpow]), hpow]
  zify
  generalize (2 : ℤ) ^ k = c at *
  split
  · refine ⟨by omega, by omega, ?_⟩
    rw [Int.emod_eq_of_lt (by omega) hp', Int.toNat_natCast]
  · refine ⟨by omega, by omega, ?_⟩
    rw [Int.sub_emod_right, Int.emod_eq_of_lt (by omega) hp', Int.toNat_natCast]

theorem patternOf_natCast {n p : Nat} (hp : p < 2 ^ n) : patternOf n (p : Int) = p := by
  unfold patternOf
  rw [Int.emod_eq_of_lt (by omega) (by exact_mod_cast hp), Int.toNat_natCast]

/-- An integer or fixed-point slot gives back every pattern. -/
theorem encodeInt_decodeInt {f : FDef} (hs : f.s = 1) (he : f.ew = 0) (h5 : f.kind ≠ 5) {p : Nat} (hp : p < 2 ^ f.w) (rm : Round) (pos : Nat) :
    encodeInt f (decodeInt f p) rm pos = (p, 0) := by
  have hw : f.w = f.mw + 1 := by simp [FDef.w, hs, he, h5, Nat.add_comm]
  have hmod : p % 2 ^ f.w = p := Nat.mod_eq_of_lt hp
  unfold decodeInt
  dsimp only
  by_cases hsg : f.isSigned = true
  · obtain ⟨hlo, hhi, hb⟩ := signedOf_bounds hp (hw ▸ Nat.succ_pos _)
    rw [hw, Nat.add_sub_cancel] at hlo hhi
    rw [if_pos hsg, encodeInt_of_int (by rw [if_pos hsg, hw]; exact hlo) (by rw [if_pos hsg, hw]; exact hhi), hb]
  · rw [if_neg hsg, hmod, encodeInt_of_int (by rw [if_neg hsg]; positivity)
      (by rw [if_neg hsg, ← hw]; exact Int.le_sub_one_of_lt (by exact_mod_cast hp)), patternOf_natCast hp]

end Machine
end Sys2Proof

open Sys2Proof Sys2Proof.Machine
/-- Settles O20: a number of the slot fits its own exponent with nothing to round. -/
theorem patternsRoundTrip : Obligations.PatternsRoundTrip := by
  intro w p pos rm f hl h4 hsub hp hnan
  by_cases h0 : f.kind = 0
  · simp only [decodeElem, encodeElem, if_pos h0] at hnan ⊢
    exact encodeFloat_decodeFloat h0 (floatSlot_of_legal hl h0) hsub hp hnan rm pos
  · simp only [decodeElem, encodeElem, if_neg h0]
    obtain ⟨hs, he⟩ := integer_of_legal hl h0 h4
    exact encodeInt_decodeInt hs he (by show f.kind ≠ 5; omega) hp rm pos
end

section
/-! PROOFS. Blocks: their images as numbers, the flags of their elements, and the largest exponent among values (R62 to R67). -/

namespace Sys2Proof
namespace Machine

/-! ## Fields of an image -/

/-- A field below a multiple of a power of two. -/
theorem natField_add_mul_low (a b : Nat) {lo n k : Nat} (h : lo + n ≤ k) : natField (a + 2 ^ k * b) lo n = natField a lo n := by
  obtain ⟨c, rfl⟩ := Nat.exists_eq_add_of_le h
  unfold natField
  rw [show 2 ^ (lo + n + c) * b = 2 ^ lo * (2 ^ n * (2 ^ c * b)) by ring, Nat.add_mul_div_left _ _ (by positivity), Nat.add_mul_mod_self_left]

/-- A field at or above it. -/
theorem natField_add_mul_high {a k : Nat} (ha : a < 2 ^ k) (b lo n : Nat) : natField (a + 2 ^ k * b) (k + lo) n = natField b lo n := by
  unfold natField
  rw [pow_add, ← Nat.div_div_eq_div_mul, Nat.add_mul_div_left _ _ (by positivity), Nat.div_eq_of_lt ha, Nat.zero_add]

theorem natField_of_lt {a n : Nat} (h : a < 2 ^ n) : natField a 0 n = a := by simp [natField, Nat.mod_eq_of_lt h]

/-- The elements of a block as one number. -/
def elemsImage (w : Nat) (xs : List Nat) : Nat := xs.foldr (fun x acc => x % 2 ^ w + 2 ^ w * acc) 0

theorem elemsImage_lt (w : Nat) (xs : List Nat) : elemsImage w xs < 2 ^ (xs.length * w) := by
  induction xs with
  | nil => simp [elemsImage]
  | cons x xs ih =>
    have h1 : x % 2 ^ w < 2 ^ w := Nat.mod_lt _ (by positivity)
    have h2 : elemsImage w xs + 1 ≤ 2 ^ (xs.length * w) := ih
    calc elemsImage w (x :: xs) = x % 2 ^ w + 2 ^ w * elemsImage w xs := rfl
      _ < 2 ^ w * (elemsImage w xs + 1) := by rw [Nat.mul_add_one]; omega
      _ ≤ 2 ^ w * 2 ^ (xs.length * w) := Nat.mul_le_mul_left _ h2
      _ = 2 ^ ((x :: xs).length * w) := by rw [← pow_add, List.length_cons, Nat.succ_mul, Nat.add_comm]

/-- Element `i` of the image. -/
theorem natField_elemsImage (w : Nat) : ∀ (xs : List Nat) (i : Nat), i < xs.length → natField (elemsImage w xs) (i * w) w = xs.getD i 0 % 2 ^ w
  | x :: xs, 0, _ => by
    have h := natField_add_mul_low (x % 2 ^ w) (elemsImage w xs) (lo := 0) (n := w) (k := w) (by omega)
    rw [Nat.zero_mul]
    exact h.trans (natField_of_lt (Nat.mod_lt _ (by positivity)))
  | x :: xs, i + 1, h => by
    have h1 : x % 2 ^ w < 2 ^ w := Nat.mod_lt _ (by positivity)
    have := natField_add_mul_high h1 (elemsImage w xs) (i * w) w
    rw [show (i + 1) * w = w + i * w by ring]
    exact this.trans (natField_elemsImage w xs i (Nat.lt_of_succ_lt_succ h))

theorem blockImage_eq (hdr hb w : Nat) (xs : List Nat) : blockImage hdr hb w xs = hdr + 2 ^ hb * elemsImage w xs := rfl

theorem blockImage_lt {hdr hb : Nat} (h : hdr < 2 ^ hb) (w : Nat) (xs : List Nat) : blockImage hdr hb w xs < 2 ^ (hb + xs.length * w) := by
  have h2 : elemsImage w xs + 1 ≤ 2 ^ (xs.length * w) := elemsImage_lt w xs
  calc blockImage hdr hb w xs = hdr + 2 ^ hb * elemsImage w xs := rfl
    _ < 2 ^ hb * (elemsImage w xs + 1) := by rw [Nat.mul_add_one]; omega
    _ ≤ 2 ^ hb * 2 ^ (xs.length * w) := Nat.mul_le_mul_left _ h2
    _ = 2 ^ (hb + xs.length * w) := (pow_add ..).symm

/-- Element `j` of a block whose 32 elements are given. -/
theorem natField_blockImage {hdr hb : Nat} (h : hdr < 2 ^ hb) (w : Nat) (g : Nat → Nat) {j : Nat} (hj : j < 32) :
    natField (blockImage hdr hb w ((List.range 32).map g)) (hb + j * w) w = g j % 2 ^ w := by
  rw [blockImage_eq, natField_add_mul_high h, natField_elemsImage _ _ _ (by simpa using hj)]
  simp [List.getD_eq_getElem?_getD, hj]

/-- A field inside a field. -/
theorem natField_natField (x lo n : Nat) {lo' n' : Nat} (h : lo' + n' ≤ n) : natField (natField x lo n) lo' n' = natField x (lo + lo') n' := by
  unfold natField
  obtain ⟨c, rfl⟩ := Nat.exists_eq_add_of_le h
  rw [pow_add _ lo, ← Nat.div_div_eq_div_mul]
  generalize x / 2 ^ lo = y
  rw [Nat.add_assoc, pow_add _ lo' (n' + c), Nat.mod_mul_right_div_self, pow_add, Nat.mod_mul_right_mod]

/-! ## Bytes -/

/-- Byte `k` of the number that bytes make. -/
theorem natField_ofBytes (bs : List Byte) (k : Nat) (h : k < bs.length) : natField (ofBytes bs) (8 * k) 8 = (bs.getD k 0).toNat := by
  induction bs generalizing k with
  | nil => simp at h
  | cons b bs ih =>
    have hb : b.toNat < 2 ^ 8 := b.isLt
    cases k with
    | zero =>
      have h1 := natField_add_mul_low b.toNat (ofBytes bs) (lo := 0) (n := 8) (k := 8) (by omega)
      exact h1.trans (natField_of_lt hb)
    | succ k =>
      have h1 := natField_add_mul_high hb (ofBytes bs) (8 * k) 8
      rw [show 8 * (k + 1) = 8 + 8 * k by ring]
      exact h1.trans (ih k (Nat.lt_of_succ_lt_succ h))

theorem ofBytes_lt (bs : List Byte) : ofBytes bs < 2 ^ (8 * bs.length) := by
  induction bs with
  | nil => simp [ofBytes]
  | cons b bs ih =>
    have hb : b.toNat < 2 ^ 8 := b.isLt
    rw [ofBytes, List.length_cons, Nat.mul_succ, pow_add]
    omega

/-- Above its bytes a number has no bits. -/
theorem natField_ofBytes_ge (bs : List Byte) {k : Nat} (h : bs.length ≤ k) : natField (ofBytes bs) (8 * k) 8 = 0 := by
  have hlt : ofBytes bs < 2 ^ (8 * k) := (ofBytes_lt bs).trans_le (Nat.pow_le_pow_right (by norm_num) (by omega))
  rw [natField, Nat.div_eq_of_lt hlt, Nat.zero_mod]

theorem extractLsb'_ofNat (x lo n w : Nat) (h : lo + n ≤ w) : (BitVec.ofNat w x).extractLsb' lo n = BitVec.ofNat n (natField x lo n) := by
  apply BitVec.eq_of_toNat_eq
  have := natField_natField x 0 w h
  simp only [natField, pow_zero, Nat.div_one, Nat.zero_add] at this
  simp [natField, Nat.shiftRight_eq_div_pow, this]

/-! ## Flags of elements -/

/-- Flags merged into flags that are already there. -/
theorem foldl_or_acc {α : Type} (g : α → Flags) (xs : List α) (a : Flags) :
    xs.foldl (fun acc x => acc ||| g x) a = a ||| xs.foldl (fun acc x => acc ||| g x) 0#5 := by
  induction xs generalizing a with
  | nil => simp
  | cons x xs ih => rw [List.foldl_cons, List.foldl_cons, ih, ih (0#5 ||| g x), BitVec.zero_or, BitVec.or_assoc]

/-- A flag is among those of some elements when one of them raises it. -/
theorem getLsbD_foldl_or {α : Type} (g : α → Flags) (xs : List α) (i : Nat) :
    (xs.foldl (fun acc x => acc ||| g x) 0#5).getLsbD i = xs.any (fun x => (g x).getLsbD i) := by
  induction xs with
  | nil => simp
  | cons x xs ih => rw [List.foldl_cons, foldl_or_acc, BitVec.zero_or, BitVec.getLsbD_or, ih, List.any_cons]

theorem getLsbD_anyFlags (n : Nat) (g : Nat → Flags) (i : Nat) :
    (anyFlags n g).getLsbD i = true ↔ ∃ k, k < n ∧ (g k).getLsbD i = true := by
  rw [show anyFlags n g = (List.range n).foldl (fun acc x => acc ||| g x) 0#5 from rfl, getLsbD_foldl_or]
  simp

/-- A flag of Table 2.6 as a bit of a set of flags. -/
theorem and_fInvalid (a : Flags) : a &&& fInvalid = fInvalid ↔ a.getLsbD 0 = true := by revert a; decide
theorem and_fOverflow (a : Flags) : a &&& fOverflow = fOverflow ↔ a.getLsbD 2 = true := by revert a; decide
theorem and_fInexact (a : Flags) : a &&& fInexact = fInexact ↔ a.getLsbD 4 = true := by revert a; decide

/-- A list numbered from 0. -/
theorem zip_range_map {α : Type} (n : Nat) (g : Nat → α) : (List.range n).zip ((List.range n).map g) = (List.range n).map (fun i => (i, g i)) := by
  have := List.zip_map' (f := fun i : Nat => i) (g := g) (l := List.range n)
  rwa [List.map_id'] at this

/-! ## The largest exponent of some values -/

/-- The exponent that a value counts with. -/
def logOf (infAs : Option Int) : Val → Option Int
  | .num _ n d e => if n = 0 then none else some (floorLog2 n d e)
  | .inf _ => infAs
  | .nan _ => none

theorem maxLog_cons (infAs : Option Int) (v : Val) (vs : List Val) :
    maxLog infAs (v :: vs) = match logOf infAs v, maxLog infAs vs with
      | some a, some b => some (max a b)
      | some a, none => some a
      | none, r => r := by
  cases v <;> rfl

theorem le_maxLog {infAs : Option Int} {vs : List Val} {v : Val} {a : Int} (hv : v ∈ vs) (ha : logOf infAs v = some a) :
    ∃ b, maxLog infAs vs = some b ∧ a ≤ b := by
  induction vs with
  | nil => cases hv
  | cons u us ih =>
    rw [maxLog_cons]
    rcases List.mem_cons.1 hv with rfl | hv
    · rw [ha]
      cases maxLog infAs us with
      | none => exact ⟨a, rfl, le_rfl⟩
      | some b => exact ⟨_, rfl, le_max_left _ _⟩
    · obtain ⟨b, hb, hab⟩ := ih hv
      rw [hb]
      cases logOf infAs u with
      | none => exact ⟨b, rfl, hab⟩
      | some c => exact ⟨_, rfl, hab.trans (le_max_right _ _)⟩

theorem mem_of_maxLog {infAs : Option Int} {vs : List Val} {b : Int} (h : maxLog infAs vs = some b) : ∃ v ∈ vs, logOf infAs v = some b := by
  induction vs generalizing b with
  | nil => cases h
  | cons u us ih =>
    rw [maxLog_cons] at h
    cases hu : logOf infAs u with
    | none =>
      rw [hu] at h
      obtain ⟨v, hv, hb⟩ := ih h
      exact ⟨v, List.mem_cons_of_mem _ hv, hb⟩
    | some c =>
      rw [hu] at h
      cases hm : maxLog infAs us with
      | none =>
        rw [hm] at h
        exact ⟨u, List.mem_cons_self, hu.trans h⟩
      | some k =>
        rw [hm] at h
        obtain ⟨v, hv, hb⟩ := ih hm
        have h : max c k = b := Option.some.inj h
        rcases max_choice c k with h' | h'
        · exact ⟨u, List.mem_cons_self, by rw [hu, ← h, h']⟩
        · exact ⟨v, List.mem_cons_of_mem _ hv, by rw [hb, ← h, h']⟩

/-- A value whose denominator, where it has one, is positive. -/
def Proper (v : Val) : Prop := ∀ s n d e, v = .num s n d e → 0 < d

/-- Where no infinity counts, the exponent of a value is that of the nonzero number it denotes. -/
theorem logOf_eq_some {infAs : Option Int} {v : Val} (hp : Proper v) (hi : infAs = none ∨ ∀ s, v ≠ .inf s) {a : Int} :
    logOf infAs v = some a ↔ ∃ q, valueOf v = some q ∧ q ≠ 0 ∧ Int.log 2 |q| = a := by
  cases v with
  | num s n d e =>
    have hd := hp s n d e rfl
    have habs : |signOne s * magOf n d e| = magOf n d e := by
      rw [abs_mul, abs_signOne, one_mul, abs_of_nonneg (magOf_nonneg ..)]
    simp only [logOf, valueOf_num_eq, Option.some.injEq, exists_eq_left', habs]
    by_cases hn : n = 0
    · simp [hn, magOf]
    · rw [if_neg hn, Option.some.injEq, floorLog2_eq e hn hd]
      refine ⟨fun h => ⟨?_, h⟩, fun h => h.2⟩
      rw [← abs_pos, habs]
      exact magOf_pos e hn hd
  | inf s => rcases hi with rfl | hi <;> simp_all [logOf, valueOf]
  | nan q => simp [logOf, valueOf]

theorem maxLog_eq_none {infAs : Option Int} {vs : List Val} (hp : ∀ v ∈ vs, Proper v) (hi : infAs = none ∨ ∀ v ∈ vs, ∀ s, v ≠ .inf s)
    (h0 : ∀ v ∈ vs, ∀ q, valueOf v = some q → q = 0) : maxLog infAs vs = none := by
  cases h : maxLog infAs vs with
  | none => rfl
  | some b =>
    obtain ⟨v, hv, hb⟩ := mem_of_maxLog h
    obtain ⟨q, hq, hq0, -⟩ := (logOf_eq_some (hp v hv) (hi.imp_right (fun h => h v hv))).1 hb
    exact absurd (h0 v hv q hq) hq0

/-- The largest exponent is that of a value of the largest magnitude. -/
theorem maxLog_of_largest {infAs : Option Int} {vs : List Val} (hp : ∀ v ∈ vs, Proper v) (hi : infAs = none ∨ ∀ v ∈ vs, ∀ s, v ≠ .inf s)
    {v : Val} (hv : v ∈ vs) {q : ℚ} (hq : valueOf v = some q) (hq0 : q ≠ 0) (hmax : ∀ u ∈ vs, ∀ q', valueOf u = some q' → |q'| ≤ |q|) :
    maxLog infAs vs = some (Int.log 2 |q|) := by
  have hlog : logOf infAs v = some (Int.log 2 |q|) := (logOf_eq_some (hp v hv) (hi.imp_right (fun h => h v hv))).2 ⟨q, hq, hq0, rfl⟩
  obtain ⟨b, hb, hle⟩ := le_maxLog hv hlog
  obtain ⟨u, hu, hub⟩ := mem_of_maxLog hb
  obtain ⟨q', hq', hq0', rfl⟩ := (logOf_eq_some (hp u hu) (hi.imp_right (fun h => h u hu))).1 hub
  rw [hb, le_antisymm (Int.log_mono_right (abs_pos.2 hq0') (hmax u hu q' hq')) hle]

theorem toNat_clampInt (x : Int) : ((clampInt 0 254 x).toNat : Int) = max 0 (min 254 x) := by
  unfold clampInt
  split
  · omega
  · split <;> omega

/-! ## Values that are proper -/

theorem proper_valInt (x e : Int) : Proper (valInt x e) := by
  intro s n d e h
  simp only [valInt, Val.num.injEq] at h
  omega

theorem proper_decodeFloat (f : FDef) (flush : Bool) (x : Nat) : Proper (decodeFloat f flush x) := by
  intro s n d e h
  unfold decodeFloat at h
  dsimp only at h
  repeat' split at h
  all_goals simp [valZero] at h
  all_goals omega

theorem Proper.scale {v : Val} (h : Proper v) (k : Int) : Proper (v.scale k) := by
  intro s n d e he
  cases v with
  | num s' n' d' e' =>
    simp only [Val.scale, Val.num.injEq] at he
    exact he.2.2.1 ▸ h s' n' d' e' rfl
  | inf | nan => cases he

theorem proper_mxElem (f : FDef) (img i : Nat) : Proper (mxElem f img i) := by
  unfold mxElem decodeMxElem
  dsimp only
  split
  · intro s n d e h; cases h
  · split
    · exact (proper_valInt _ _).scale _
    · exact (proper_decodeFloat _ _ _).scale _

theorem proper_decodeElem_float {f : FDef} (h : f.kind = 0) (x : Nat) : Proper (decodeElem f x) := by
  rw [decodeElem, if_pos h]
  exact proper_decodeFloat _ _ _

end Machine
end Sys2Proof
end

section
/-! PROOFS. MX blocks: their scale, their elements and their flags (R65 to R67, R131). -/

namespace Sys2Proof
namespace Machine

/-- The slot of KIND 0 or 3 that an MX element is one of. -/
def mxElemSlot (f : FDef) : FDef := { f with kind := if f.ew = 0 then 3 else 0 }

theorem encodeMxElem_eq (f : FDef) (v : Val) (rm : Round) (pos : Nat) (dz : Bool) :
    encodeMxElem f v rm pos dz = encodeElem (mxElemSlot f) v rm pos dz := by
  unfold encodeMxElem encodeElem mxElemSlot
  by_cases h : f.ew = 0
  · simp [h]
  · simp only [h, if_false, if_true]
    rfl

/-- Where no subnormal is flushed, SUB takes no part. -/
theorem decodeFloat_of_keep {f : FDef} (h : f.sub = 0) (x : Nat) : decodeFloat f true x = decodeFloat f false x := by
  simp [decodeFloat, h]

theorem decodeMxElem_eq {f : FDef} (h6 : f.kind = 6) (hs : f.sub = 0) (x : Nat) : decodeMxElem f x = decodeElem (mxElemSlot f) x := by
  unfold decodeMxElem decodeElem mxElemSlot
  by_cases h : f.ew = 0
  · simp [h, decodeInt, FDef.isSigned, FDef.w, h6]
  · simp only [h, if_false, if_true]
    exact (decodeFloat_of_keep (f := { f with kind := 0 }) hs x).symm

/-- RNE does not look at the position. -/
theorem encodeElem_rne_pos (f : FDef) (v : Val) (pos : Nat) (dz : Bool) : encodeElem f v .rne pos dz = encodeElem f v .rne 0 dz := by
  cases v <;> rfl

/-! ## Six kinds of MX block (Table 4.13) -/

theorem mxDef_fields {k : Nat} : (mxDef k).kind = 6 ∧ (mxDef k).sub = 0 := by
  unfold mxDef
  dsimp only
  split <;> exact ⟨rfl, rfl⟩

theorem mxEmax_mxDef {k : Nat} (h1 : 1 ≤ k) (h6 : k ≤ 6) : mxEmax (mxDef k) = [8, 15, 2, 4, 2, 0].getD (k - 1) 0 := by
  interval_cases k <;> rfl

theorem blockBits_mx {f : FDef} (h : f.kind = 6) : f.blockBits = 8 + 32 * f.w := by simp [FDef.blockBits, h]

/-! ## pack_mx -/

section
variable (f : FDef) (v : Nat → Val) (rm : Round) (phi : Nat)

/-- The values of a block, with no flags of their own. -/
def plainVals : List (Val × Flags) := (List.range 32).map (fun n => (v n, 0))

/-- The scale that the values of a block choose. -/
def scaleOf : Nat := mxScale f ((List.range 32).map v)

/-- A NaN among them has no pattern in the kind. -/
def Lost : Prop := f.nan = 0 ∧ ∃ n, n < 32 ∧ (v n).isNan = true

/-- Element `n` under that scale, with its flags. -/
def mxEncoded (n : Nat) : Nat × Flags := encodeElem (mxElemSlot f) ((v n).scale (127 - (scaleOf f v : Int))) rm (n + phi) false

theorem map_plainVals : (plainVals v).map (·.1) = (List.range 32).map v := by simp [plainVals]

theorem packMx_elems : ((List.range (plainVals v).length).zip (plainVals v)).map
    (fun p => encodeMxElem f (p.2.1.scale (127 - (scaleOf f v : Int))) rm (p.1 + phi) (p.2.2 &&& fDivZero != 0)) =
    (List.range 32).map (mxEncoded f v rm phi) := by
  have hlen : (plainVals v).length = 32 := by simp [plainVals]
  rw [hlen, plainVals, zip_range_map, List.map_map]
  refine List.map_congr_left fun n _ => ?_
  have hz : ((0 : Flags) &&& fDivZero != 0) = false := by decide
  rw [Function.comp_apply, encodeMxElem_eq]
  dsimp only
  rw [hz, mxEncoded]

theorem packMx_fst : (packMx f (plainVals v) rm phi).1 = blockImage (scaleOf f v) 8 f.w ((List.range 32).map (fun n => (mxEncoded f v rm phi n).1)) := by
  unfold packMx
  dsimp only
  rw [map_plainVals, ← scaleOf, packMx_elems, List.map_map]
  rfl

theorem packMx_snd : (packMx f (plainVals v) rm phi).2 = if scaleOf f v = 255
    then (anyFlags 32 (fun n => (mxEncoded f v rm phi n).2) &&& ~~~fInvalid) ||| flagIf ((List.range 32).any (fun n => (v n).isSignalling)) fInvalid
    else anyFlags 32 (fun n => (mxEncoded f v rm phi n).2) := by
  unfold packMx
  dsimp only
  rw [map_plainVals, ← scaleOf, packMx_elems, List.foldl_map, plainVals, List.any_map]
  rfl

theorem scaleOf_lost (h : Lost f v) : scaleOf f v = 255 := by
  obtain ⟨h0, n, hn, hnan⟩ := h
  rw [scaleOf, mxScale, if_pos (by simpa [h0] using ⟨n, hn, hnan⟩)]

theorem scaleOf_none (h : ¬ Lost f v) (hm : maxLog none ((List.range 32).map v) = none) : scaleOf f v = 0 := by
  rw [scaleOf, mxScale, if_neg (by simpa [Lost] using h), hm]

theorem scaleOf_some (h : ¬ Lost f v) {a : Int} (hm : maxLog none ((List.range 32).map v) = some a) :
    (scaleOf f v : Int) = max 0 (min 254 (a - mxEmax f + 127)) := by
  rw [scaleOf, mxScale, if_neg (by simpa [Lost] using h), hm]
  exact toNat_clampInt _

theorem scaleOf_le (h : ¬ Lost f v) : scaleOf f v ≤ 254 := by
  cases hm : maxLog none ((List.range 32).map v) with
  | none => rw [scaleOf_none f v h hm]; omega
  | some a => have := scaleOf_some f v h hm; omega

theorem scaleOf_lt : scaleOf f v < 2 ^ 8 := by
  by_cases h : Lost f v
  · rw [scaleOf_lost f v h]; decide
  · have := scaleOf_le f v h; omega

variable {v} in
theorem scaleOf_zeros (hp : ∀ n, Proper (v n)) (h : ¬ Lost f v) (h0 : ∀ n q, n < 32 → valueOf (v n) = some q → q = 0) : scaleOf f v = 0 := by
  refine scaleOf_none f v h (maxLog_eq_none ?_ (.inl rfl) ?_)
  · simpa using fun n _ => hp n
  · simpa using fun n hn q => h0 n q hn

variable {v} in
theorem scaleOf_largest (hp : ∀ n, Proper (v n)) (h : ¬ Lost f v) {a : Nat} {q : ℚ} (ha : a < 32) (hq : valueOf (v a) = some q) (hq0 : q ≠ 0)
    (hmax : ∀ n q', n < 32 → valueOf (v n) = some q' → |q'| ≤ |q|) :
    (scaleOf f v : Int) = max 0 (min 254 (Int.log 2 |q| - mxEmax f + 127)) := by
  refine scaleOf_some f v h (maxLog_of_largest (v := v a) ?_ (.inl rfl) (List.mem_map_of_mem (List.mem_range.2 ha)) hq hq0 ?_)
  · simpa using fun n _ => hp n
  · simpa using fun n hn q' => hmax n q' hn

/-- The scale stands in the first byte. -/
theorem packMx_scale : natField (packMx f (plainVals v) rm phi).1 0 8 = scaleOf f v := by
  rw [packMx_fst, blockImage_eq, natField_add_mul_low _ _ (by omega), natField_of_lt (scaleOf_lt f v)]

theorem packMx_elem {j : Nat} (hj : j < 32) :
    natField (packMx f (plainVals v) rm phi).1 (8 + j * f.w) f.w = (mxEncoded f v rm phi j).1 % 2 ^ f.w := by
  rw [packMx_fst, natField_blockImage (scaleOf_lt f v) _ _ hj]

theorem packMx_lt (h6 : f.kind = 6) : (packMx f (plainVals v) rm phi).1 < 2 ^ f.blockBits := by
  rw [packMx_fst, blockBits_mx h6]
  simpa using blockImage_lt (scaleOf_lt f v) f.w ((List.range 32).map (fun n => (mxEncoded f v rm phi n).1))

theorem packMx_flags (h : ¬ Lost f v) : (packMx f (plainVals v) rm phi).2 = anyFlags 32 (fun n => (mxEncoded f v rm phi n).2) := by
  rw [packMx_snd, if_neg (by have := scaleOf_le f v h; omega)]

theorem packMx_flags_lost (h : Lost f v) :
    (packMx f (plainVals v) rm phi).2 &&& fInvalid = fInvalid ↔ ∃ n, n < 32 ∧ (v n).isSignalling = true := by
  rw [packMx_snd, if_pos (scaleOf_lost f v h)]
  generalize anyFlags 32 (fun n => (mxEncoded f v rm phi n).2) = a
  rw [and_fInvalid]
  have : ((a &&& ~~~fInvalid) ||| flagIf ((List.range 32).any (fun n => (v n).isSignalling)) fInvalid).getLsbD 0 =
      (List.range 32).any (fun n => (v n).isSignalling) := by
    generalize (List.range 32).any (fun n => (v n).isSignalling) = b
    revert a b
    decide
  rw [this]
  simp

/-- A block of values with no flags of their own keeps the flags of the packing. -/
theorem packBlock_plain : packBlock f (plainVals v) rm phi =
    if f.kind = 5 then packTwin f ((List.range 32).map v) rm phi else packMx f (plainVals v) rm phi := by
  have hfold : ∀ a : Flags, (plainVals v).foldl (fun x v => x ||| v.2) a = a := fun a => by
    rw [plainVals, List.foldl_map]
    simp
  unfold packBlock
  dsimp only
  rw [map_plainVals, hfold]

end

/-! ## Elements of a block, read and written as bfloat16 (R65 to R67) -/

theorem mxElem_255 {f : FDef} {img : Nat} (h : natField img 0 8 = 255) (i : Nat) : (mxElem f img i).isNan = true := by
  simp [mxElem, h, Val.isNan]

theorem mxElem_scaled {f : FDef} (h6 : f.kind = 6) (hs : f.sub = 0) {img : Nat} (h : natField img 0 8 ≠ 255) (i : Nat) :
    mxElem f img i = (decodeElem (mxElemSlot f) (natField img (8 + i * f.w) f.w)).scale ((natField img 0 8 : Int) - 127) := by
  rw [mxElem, if_neg h, decodeMxElem_eq h6 hs]

theorem aliasRead_nan {f : FDef} {img i : Nat} (h : (mxElem f img i).isNan = true) : aliasRead f img i = 0x7FC0 := by
  unfold aliasRead
  cases hv : mxElem f img i with
  | nan => rfl
  | num | inf => rw [hv] at h; cases h

theorem aliasRead_value {f : FDef} {img i : Nat} (h : (mxElem f img i).isNan = false) :
    aliasRead f img i = (encodeElem bf16 (mxElem f img i) .rne 0 false).1 := by
  unfold aliasRead
  cases hv : mxElem f img i with
  | nan => rw [hv] at h; cases h
  | num | inf => rfl

/-- An element written as bfloat16 packs the block anew with it. -/
theorem aliasWrite_eq (f : FDef) (img i x : Nat) :
    aliasWrite f img i x = (packMx f (plainVals (fun n => if n = i then decodeElem bf16 x else mxElem f img n)) .rne 0).1 := by
  have h : decodeElem bf16 x = decodeFloat bf16 false x := (if_pos (by decide)).trans (decodeFloat_of_keep (by decide) x)
  rw [h]
  rfl

end Machine
end Sys2Proof
end

section
/-! PROOFS. Twin-scale blocks: their scales, their elements and their flags (R62 to R64). -/

namespace Sys2Proof
namespace Machine

/-! ## Elements of an image (R63) -/

/-- What Table 4.2 asks of a twin-scale slot. -/
theorem twin_of_legal {w : Word} (h : fdefLegal w = true) (h5 : (fdefOf w).kind = 5) :
    (fdefOf w).w = (fdefOf w).mw + 2 ∧ 1 ≤ (fdefOf w).mw := by
  simp only [fdefLegal, h5, Bool.and_eq_true, beq_iff_eq, decide_eq_true_eq] at h
  obtain ⟨-, ⟨⟨⟨⟨⟨⟨⟨hs, he⟩, hm⟩, -⟩, -⟩, -⟩, -⟩, -⟩⟩ := h
  exact ⟨by simp [FDef.w, h5, hs, he]; omega, hm.1⟩

theorem twinElem_nan {f : FDef} {img : Nat} (h : natField img 0 8 = 255 ∨ natField img 8 8 = 255) (i : Nat) : (twinElem f img i).isNan = true := by
  simp [twinElem, h, Val.isNan]

/-- A bit of a number is 0 or 1. -/
theorem natField_one (x lo : Nat) : natField x lo 1 = 0 ∨ natField x lo 1 = 1 := Nat.mod_two_eq_zero_or_one _

/-- An element: sign and q at the scale that its selector names. -/
theorem twinElem_num {f : FDef} (hw : f.w = f.mw + 2) {img : Nat} (h0 : natField img 0 8 ≠ 255) (h1 : natField img 8 8 ≠ 255) (i : Nat) :
    twinElem f img i = .num (natField img (16 + i * (f.mw + 2) + f.mw) 1 == 1) (natField img (16 + i * (f.mw + 2)) f.mw) 1
      ((natField img (8 * natField img (16 + i * (f.mw + 2) + f.mw + 1) 1) 8 : Int) - 127 - f.mw) := by
  unfold twinElem
  dsimp only
  rw [if_neg (not_or.2 ⟨h0, h1⟩), hw, natField_natField _ _ _ (by omega), natField_natField _ _ _ (by omega), natField_natField _ _ _ (by omega),
    Nat.add_zero, ← Nat.add_assoc (16 + i * (f.mw + 2)) f.mw 1]
  rcases natField_one img (16 + i * (f.mw + 2) + f.mw + 1) with h | h <;> rw [h] <;> rfl

/-! ## One element of pack_twin (R64) -/

/-- Selector, sign and q of an element as bits. -/
def twinBits (m : Nat) (one neg : Bool) (q : Nat) : Nat := bitOf one * 2 ^ (m + 1) + bitOf neg * 2 ^ m + q

theorem twinBits_eq (m : Nat) (one neg : Bool) (q : Nat) : twinBits m one neg q = q + 2 ^ m * (bitOf neg + 2 ^ 1 * (bitOf one + 2 ^ 1 * 0)) := by
  unfold twinBits
  rw [pow_succ]
  ring

theorem bitOf_lt (b : Bool) : bitOf b < 2 ^ 1 := by cases b <;> decide

theorem twinBits_lt {m : Nat} (one neg : Bool) {q : Nat} (h : q < 2 ^ m) : twinBits m one neg q < 2 ^ (m + 2) := by
  have h1 : bitOf one ≤ 1 := Nat.le_of_lt_succ (bitOf_lt one)
  have h2 : bitOf neg ≤ 1 := Nat.le_of_lt_succ (bitOf_lt neg)
  have h3 := Nat.mul_le_mul_right (2 ^ (m + 1)) h1
  have h4 := Nat.mul_le_mul_right (2 ^ m) h2
  simp only [pow_succ] at *
  unfold twinBits
  simp only [pow_succ]
  omega

/-- The fields of those bits. -/
theorem natField_twinBits {m : Nat} (one neg : Bool) {q : Nat} (h : q < 2 ^ m) :
    natField (twinBits m one neg q) 0 m = q ∧ natField (twinBits m one neg q) m 1 = bitOf neg ∧
      natField (twinBits m one neg q) (m + 1) 1 = bitOf one := by
  rw [twinBits_eq]
  refine ⟨?_, ?_, ?_⟩
  · rw [natField_add_mul_low _ _ (by omega), natField_of_lt h]
  · have := natField_add_mul_high h (bitOf neg + 2 ^ 1 * (bitOf one + 2 ^ 1 * 0)) 0 1
    rw [Nat.add_zero] at this
    rw [this, natField_add_mul_low _ _ (by omega), natField_of_lt (bitOf_lt neg)]
  · rw [natField_add_mul_high h, ← Nat.add_zero 1, natField_add_mul_high (bitOf_lt neg), natField_add_mul_low _ _ (by omega), natField_of_lt (bitOf_lt one)]

section
variable (m x0 x1 : Nat) (neg : Bool) (n d : Nat) (e : Int) (rm : Round) (pos : Nat)

/-- q under the finer scale; whether it is too large for it; and the q stored. -/
def fineInt : Nat := roundInt n d (e + 127 + m - x0) rm neg pos
def usesCoarse : Bool := decide (2 ^ m - 1 < fineInt m x0 neg n d e rm pos)
def twinInt : Nat := min (if usesCoarse m x0 neg n d e rm pos then roundInt n d (e + 127 + m - x1) rm neg pos else fineInt m x0 neg n d e rm pos) (2 ^ m - 1)
def twinScale : Nat := if usesCoarse m x0 neg n d e rm pos then x1 else x0

theorem twinInt_lt : twinInt m x0 x1 neg n d e rm pos < 2 ^ m := by
  have : 0 < 2 ^ m := by positivity
  have := min_le_right (if usesCoarse m x0 neg n d e rm pos then roundInt n d (e + 127 + m - x1) rm neg pos else fineInt m x0 neg n d e rm pos) (2 ^ m - 1)
  unfold twinInt
  omega

theorem packTwinElem_num : packTwinElem m x0 x1 (.num neg n d e) rm pos =
    (twinBits m (usesCoarse m x0 neg n d e rm pos) neg (twinInt m x0 x1 neg n d e rm pos),
      if n ≠ 0 ∧ (x1 : Int) - 127 ≤ floorLog2 n d e then fOverflow ||| fInexact
      else flagIf (!((intParts n d (e + 127 + m - twinScale m x0 x1 neg n d e rm pos)).2.1 == 0 &&
        (intParts n d (e + 127 + m - twinScale m x0 x1 neg n d e rm pos)).1 == twinInt m x0 x1 neg n d e rm pos)) fInexact) := by
  have hx : ((twinScale m x0 x1 neg n d e rm pos : Nat) : Int) = ((if usesCoarse m x0 neg n d e rm pos then x1 else x0 : Nat) : Int) := rfl
  unfold packTwinElem
  dsimp only
  split <;> rfl

end

/-- An element that is a number stores its sign and q. -/
theorem packTwinElem_bits (m x0 x1 : Nat) (neg : Bool) (n d : Nat) (e : Int) (rm : Round) (pos : Nat) :
    (packTwinElem m x0 x1 (.num neg n d e) rm pos).1 = twinBits m (usesCoarse m x0 neg n d e rm pos) neg (twinInt m x0 x1 neg n d e rm pos) := by
  rw [packTwinElem_num]

theorem packTwinElem_inf (m x0 x1 : Nat) (neg : Bool) (rm : Round) (pos : Nat) :
    packTwinElem m x0 x1 (.inf neg) rm pos = (twinBits m true neg (2 ^ m - 1), fInvalid) := by
  simp only [packTwinElem, twinBits, bitOf, if_true, Nat.one_mul]

/-- The bits of an element lie in its width. -/
theorem packTwinElem_lt (m x0 x1 : Nat) (v : Val) (rm : Round) (pos : Nat) : (packTwinElem m x0 x1 v rm pos).1 < 2 ^ (m + 2) := by
  cases v with
  | num neg n d e => rw [packTwinElem_bits]; exact twinBits_lt _ _ (twinInt_lt ..)
  | inf neg => rw [packTwinElem_inf]; exact twinBits_lt _ _ (Nat.sub_lt (by positivity) Nat.one_pos)
  | nan q => simp [packTwinElem]

/-- The value stored, in places of its scale. -/
theorem twin_place (n d : Nat) (e : Int) (m x : Nat) :
    magOf n d (e + 127 + m - x) = magOf n d e * (2 : ℚ) ^ (127 + m - x : ℤ) := by
  rw [show e + 127 + m - x = e + (127 + m - x) by ring, magOf_add]

/-- A magnitude is a natural number when that is its integer part and it has no fraction. -/
theorem magOf_eq_nat (n : Nat) {d : Nat} (e : Int) (hd : 0 < d) (q : Nat) :
    magOf n d e = q ↔ (intParts n d e).2.1 = 0 ∧ (intParts n d e).1 = q := by
  refine ⟨fun h => (intParts_of_nat hd h).symm, fun ⟨h0, hq⟩ => ?_⟩
  rw [magOf_of_isInteger hd ((isInteger_iff ..).2 h0), hq]

theorem flagIf_fInexact (b : Bool) : (flagIf b fInexact).getLsbD 4 = b := by cases b <;> decide

/-- An element is exact when the value is q places of its scale, and only then: one that overflows never is. -/
theorem twin_inexact {m x0 x1 : Nat} (hx : x0 ≤ x1) {neg : Bool} {n d : Nat} {e : Int} (hd : 0 < d) (rm : Round) (pos : Nat) :
    (packTwinElem m x0 x1 (.num neg n d e) rm pos).2.getLsbD 4 = true ↔
      (twinInt m x0 x1 neg n d e rm pos : ℚ) * 2 ^ ((twinScale m x0 x1 neg n d e rm pos : Int) - 127 - m) ≠ magOf n d e := by
  rw [packTwinElem_num]
  dsimp only
  set x := twinScale m x0 x1 neg n d e rm pos with hxs
  have hx1 : x ≤ x1 := by rw [hxs]; unfold twinScale; split <;> omega
  have hq := twinInt_lt m x0 x1 neg n d e rm pos
  generalize twinInt m x0 x1 neg n d e rm pos = q at *
  have hplace : (q : ℚ) * 2 ^ ((x : Int) - 127 - m) = magOf n d e ↔ magOf n d (e + 127 + m - x) = q := by
    rw [twin_place, show (127 + m - x : ℤ) = -((x : Int) - 127 - m) by ring, zpow_neg, ← div_eq_mul_inv, div_eq_iff (by positivity), eq_comm]
  split
  · next h =>
    have hlt : (q : ℚ) * 2 ^ ((x : Int) - 127 - m) < magOf n d e := by
      have h1 : (q : ℚ) < 2 ^ (m : ℤ) := by rw [zpow_natCast]; exact_mod_cast hq
      calc (q : ℚ) * 2 ^ ((x : Int) - 127 - m) < 2 ^ (m : ℤ) * 2 ^ ((x : Int) - 127 - m) := by gcongr
        _ = 2 ^ ((x : Int) - 127) := by rw [← zpow_add₀ two_ne_zero]; congr 1; ring
        _ ≤ 2 ^ floorLog2 n d e := zpow_le_zpow_right₀ one_le_two (by omega)
        _ ≤ magOf n d e := by rw [floorLog2_eq e h.1 hd]; exact zpow_log_le (magOf_pos e h.1 hd)
    exact iff_of_true (by decide) hlt.ne
  · rw [ne_eq, hplace, magOf_eq_nat _ _ hd, flagIf_fInexact]
    simp [imp_iff_not_or]

/-- An element overflows when its value is as large as the coarser scale reaches. -/
theorem twin_overflow {m x0 x1 : Nat} {neg : Bool} {n d : Nat} {e : Int} (hd : 0 < d) (rm : Round) (pos : Nat) :
    (packTwinElem m x0 x1 (.num neg n d e) rm pos).2.getLsbD 2 = true ↔ (2 : ℚ) ^ ((x1 : Int) - 127) ≤ magOf n d e := by
  rw [packTwinElem_num]
  dsimp only
  by_cases hn : n = 0
  · rw [if_neg (by simp [hn])]
    refine iff_of_false ?_ ?_
    · unfold flagIf
      split <;> decide
    · rw [hn, not_le, magOf, Nat.cast_zero, zero_div, zero_mul]
      positivity
  · have hlog : (2 : ℚ) ^ ((x1 : Int) - 127) ≤ magOf n d e ↔ (x1 : Int) - 127 ≤ floorLog2 n d e := by
      rw [floorLog2_eq e hn hd, ← Int.zpow_le_iff_le_log one_lt_two (magOf_pos e hn hd)]
      norm_cast
    rw [hlog]
    split
    · next h => exact iff_of_true (by decide) h.2
    · next h =>
      refine iff_of_false ?_ (fun h' => h ⟨hn, h'⟩)
      unfold flagIf
      split <;> decide

/-- A finite element raises no other flag. -/
theorem twin_flags_only (m x0 x1 : Nat) (neg : Bool) (n d : Nat) (e : Int) (rm : Round) (pos : Nat) :
    (packTwinElem m x0 x1 (.num neg n d e) rm pos).2 &&& ~~~(fOverflow ||| fInexact) = 0 := by
  rw [packTwinElem_num]
  dsimp only
  split
  · decide
  · unfold flagIf
    split <;> decide

/-! ## pack_twin -/

section
variable (f : FDef) (v : Nat → Val) (rm : Round) (phi : Nat)

/-- The two scales that the values of a block choose. -/
def coarseOf : Nat :=
  match maxLog (some 127) ((List.range 32).map v) with
  | some em => (clampInt 0 254 (em + 128)).toNat
  | none => 0
def fineOf : Nat := coarseOf v - f.mw

/-- Element `n` under them, with its flags. -/
def twinEncoded (n : Nat) : Nat × Flags := packTwinElem f.mw (fineOf f v) (coarseOf v) (v n) rm (n + phi)

/-- The elements under them. -/
def twinElems (vs : List Val) : List (Nat × Flags) :=
  ((List.range vs.length).zip vs).map (fun p => packTwinElem f.mw (fineOf f v) (coarseOf v) p.2 rm (p.1 + phi))

def isInfinite : Val → Bool
  | .inf _ => true
  | _ => false

theorem packTwin_def : packTwin f ((List.range 32).map v) rm phi =
    if ((List.range 32).map v).any Val.isNan || (((List.range 32).map v).any isInfinite && !f.sat) then
      (65535, if ((List.range 32).map v).any Val.isNan then flagIf (((List.range 32).map v).any Val.isSignalling) fInvalid else fInvalid ||| fOverflow)
    else (blockImage (fineOf f v + 256 * coarseOf v) 16 f.w ((twinElems f v rm phi ((List.range 32).map v)).map (·.1)),
      (twinElems f v rm phi ((List.range 32).map v)).foldl (fun a e => a ||| e.2) 0) := rfl

theorem twinElems_eq : twinElems f v rm phi ((List.range 32).map v) = (List.range 32).map (twinEncoded f v rm phi) := by
  rw [twinElems, List.length_map, List.length_range, zip_range_map, List.map_map]
  rfl

theorem any_inf : ((List.range 32).map v).any isInfinite = true ↔ ∃ n s, n < 32 ∧ v n = .inf s := by
  simp only [List.any_map, List.any_eq_true, List.mem_range, Function.comp_apply]
  refine exists_congr fun n => ?_
  cases v n <;> simp [isInfinite]

theorem any_nan : ((List.range 32).map v).any Val.isNan = true ↔ ∃ n, n < 32 ∧ (v n).isNan = true := by
  simp

theorem coarseOf_le : coarseOf v ≤ 254 := by
  unfold coarseOf
  split
  · next em _ => have := toNat_clampInt (em + 128); omega
  · omega

theorem fineOf_le : fineOf f v ≤ coarseOf v := Nat.sub_le _ _

/-- A block with a NaN and no infinity, or with an infinity that saturation does not take, is a NaN block. -/
theorem packTwin_nan (hn : ∃ n, n < 32 ∧ (v n).isNan = true) :
    packTwin f ((List.range 32).map v) rm phi = (65535, flagIf ((List.range 32).any (fun n => (v n).isSignalling)) fInvalid) := by
  rw [packTwin_def, (any_nan v).2 hn, if_pos (by simp), if_pos rfl, List.any_map]
  rfl

theorem packTwin_inf (hn : ¬ ∃ n, n < 32 ∧ (v n).isNan = true) (hi : ∃ n s, n < 32 ∧ v n = .inf s) (hs : f.sat = false) :
    packTwin f ((List.range 32).map v) rm phi = (65535, fInvalid ||| fOverflow) := by
  rw [packTwin_def, (any_inf v).2 hi, hs, if_pos (by simp), if_neg (by rwa [any_nan])]

/-- Any other block. -/
theorem packTwin_eq (hn : ¬ ∃ n, n < 32 ∧ (v n).isNan = true) (hi : (∃ n s, n < 32 ∧ v n = .inf s) → f.sat = true) :
    packTwin f ((List.range 32).map v) rm phi =
      (blockImage (fineOf f v + 256 * coarseOf v) 16 f.w ((List.range 32).map (fun n => (twinEncoded f v rm phi n).1)),
        anyFlags 32 (fun n => (twinEncoded f v rm phi n).2)) := by
  have hc : ¬ ((((List.range 32).map v).any Val.isNan || (((List.range 32).map v).any isInfinite && !f.sat)) = true) := by
    rw [Bool.or_eq_true, Bool.and_eq_true, any_nan, any_inf]
    rintro (h | ⟨h, hs⟩)
    · exact hn h
    · simp [hi h] at hs
  rw [packTwin_def, if_neg hc, twinElems_eq, List.map_map, List.foldl_map]
  rfl

end

end Machine
end Sys2Proof
end

section
/-! PROOFS. Blocks packed and unpacked, and what lanes hold of them (R62 to R67, R130 to R132). -/

namespace Sys2Proof
namespace Machine

/-! ## A twin-scale block that is no NaN -/

section
variable {f : FDef} {v : Nat → Val} {rm : Round} {phi : Nat}

theorem blockBits_twin (h : f.kind = 5) : f.blockBits = 16 + 32 * f.w := by simp [FDef.blockBits, h]

/-- Header and elements of the image, with the flags of the elements. -/
theorem packTwin_fields (h5 : f.kind = 5) (hw : f.w = f.mw + 2) (hn : ¬ ∃ n, n < 32 ∧ (v n).isNan = true)
    (hi : (∃ n s, n < 32 ∧ v n = .inf s) → f.sat = true) :
    natField (packTwin f ((List.range 32).map v) rm phi).1 0 8 = fineOf f v ∧ natField (packTwin f ((List.range 32).map v) rm phi).1 8 8 = coarseOf v ∧
    (∀ j, j < 32 → natField (packTwin f ((List.range 32).map v) rm phi).1 (16 + j * (f.mw + 2)) (f.mw + 2) = (twinEncoded f v rm phi j).1) ∧
    (packTwin f ((List.range 32).map v) rm phi).1 < 2 ^ f.blockBits ∧
    (packTwin f ((List.range 32).map v) rm phi).2 = anyFlags 32 (fun n => (twinEncoded f v rm phi n).2) := by
  have h1 : coarseOf v < 2 ^ 8 := by have := coarseOf_le v; omega
  have h0 : fineOf f v < 2 ^ 8 := (fineOf_le f v).trans_lt h1
  have hhdr : fineOf f v + 256 * coarseOf v < 2 ^ 16 := by omega
  rw [packTwin_eq f v rm phi hn hi]
  refine ⟨?_, ?_, fun j hj => ?_, ?_, rfl⟩
  · rw [blockImage_eq, natField_add_mul_low _ _ (by omega)]
    exact (natField_add_mul_low _ _ (k := 8) (by omega)).trans (natField_of_lt h0)
  · rw [blockImage_eq, natField_add_mul_low _ _ (by omega)]
    exact (natField_add_mul_high h0 (coarseOf v) 0 8).trans (natField_of_lt h1)
  · rw [← hw, natField_blockImage hhdr _ _ hj, hw]
    exact Nat.mod_eq_of_lt (packTwinElem_lt ..)
  · rw [blockBits_twin h5]
    simpa using blockImage_lt hhdr f.w ((List.range 32).map (fun n => (twinEncoded f v rm phi n).1))

/-- What an element that is a number is read back as. -/
theorem packTwin_value (h5 : f.kind = 5) (hw : f.w = f.mw + 2) (hn : ¬ ∃ n, n < 32 ∧ (v n).isNan = true)
    (hi : (∃ n s, n < 32 ∧ v n = .inf s) → f.sat = true) {j : Nat} (hj : j < 32) {s : Bool} {n d : Nat} {e : Int} (hv : v j = .num s n d e) :
    valueOf (blockElem f (packTwin f ((List.range 32).map v) rm phi).1 j) =
      some (signOne s * (twinInt f.mw (fineOf f v) (coarseOf v) s n d e rm (j + phi) *
        2 ^ ((twinScale f.mw (fineOf f v) (coarseOf v) s n d e rm (j + phi) : Int) - 127 - f.mw))) := by
  obtain ⟨h0, h1, hb, -, -⟩ := packTwin_fields (rm := rm) (phi := phi) h5 hw hn hi
  have hc := coarseOf_le v
  have hf := fineOf_le f v
  have hbits := hb j hj
  rw [twinEncoded, hv, packTwinElem_bits] at hbits
  obtain ⟨bq, bs, bx⟩ := natField_twinBits (usesCoarse f.mw (fineOf f v) s n d e rm (j + phi)) s
    (twinInt_lt f.mw (fineOf f v) (coarseOf v) s n d e rm (j + phi))
  rw [← hbits, natField_natField _ _ _ (by omega)] at bq bs bx
  rw [blockElem, if_pos h5, twinElem_num hw (by omega) (by omega), ← Nat.add_assoc] at *
  rw [bx, bs, Nat.add_zero] at *
  rw [bq, valueOf_num_eq, magOf, Nat.cast_one, div_one]
  congr 3
  · cases s <;> rfl
  · unfold twinScale
    cases usesCoarse f.mw (fineOf f v) s n d e rm (j + phi)
    · rw [← h0]; rfl
    · rw [← h1]; rfl

/-- The bits stored: the finer scale where it holds the value. -/
theorem twinBits_stored (m x0 x1 : Nat) (s : Bool) (n d : Nat) (e : Int) (rm : Round) (pos : Nat) :
    twinBits m (usesCoarse m x0 s n d e rm pos) s (twinInt m x0 x1 s n d e rm pos) =
      if roundInt n d (e + 127 + m - x0) rm s pos < 2 ^ m then (if s then 2 ^ m else 0) + roundInt n d (e + 127 + m - x0) rm s pos
      else 2 ^ (m + 1) + (if s then 2 ^ m else 0) + min (roundInt n d (e + 127 + m - x1) rm s pos) (2 ^ m - 1) := by
  have hpos : 0 < 2 ^ m := by positivity
  by_cases h : fineInt m x0 s n d e rm pos < 2 ^ m
  · have hc : usesCoarse m x0 s n d e rm pos = false := decide_eq_false (by omega)
    rw [← fineInt, if_pos h, twinInt, hc, if_neg (by decide), min_eq_left (by omega), twinBits]
    cases s <;> simp [bitOf]
  · have hc : usesCoarse m x0 s n d e rm pos = true := decide_eq_true (by omega)
    rw [← fineInt, if_neg h, twinInt, hc, if_pos rfl, twinBits]
    cases s <;> simp [bitOf]

/-- The coarser scale is that of the largest magnitude, and 254 with an infinity. -/
theorem coarseOf_zeros (hp : ∀ n, Proper (v n)) (hi : ¬ ∃ n s, n < 32 ∧ v n = .inf s) (h0 : ∀ n q, n < 32 → valueOf (v n) = some q → q = 0) :
    coarseOf v = 0 := by
  rw [coarseOf, maxLog_eq_none (by simpa using fun n _ => hp n) (.inr ?_) (by simpa using fun n hn q => h0 n q hn)]
  simpa using fun n hn s h => hi ⟨n, s, hn, h⟩

theorem coarseOf_largest (hp : ∀ n, Proper (v n)) (hi : ¬ ∃ n s, n < 32 ∧ v n = .inf s) {a : Nat} {q : ℚ} (ha : a < 32)
    (hq : valueOf (v a) = some q) (hq0 : q ≠ 0) (hmax : ∀ n q', n < 32 → valueOf (v n) = some q' → |q'| ≤ |q|) :
    (coarseOf v : Int) = max 0 (min 254 (Int.log 2 |q| + 128)) := by
  rw [coarseOf, maxLog_of_largest (v := v a) (by simpa using fun n _ => hp n) (.inr ?_) (List.mem_map_of_mem (List.mem_range.2 ha)) hq hq0
    (by simpa using fun n hn q' => hmax n q' hn)]
  · exact toNat_clampInt _
  · simpa using fun n hn s h => hi ⟨n, s, hn, h⟩

theorem coarseOf_infinite (hi : ∃ n s, n < 32 ∧ v n = .inf s) : coarseOf v = 254 := by
  obtain ⟨n, s, hn, h⟩ := hi
  have hmem : v n ∈ (List.range 32).map v := List.mem_map_of_mem (List.mem_range.2 hn)
  obtain ⟨b, hb, hle⟩ := le_maxLog (infAs := some 127) (a := 127) hmem (by rw [h]; rfl)
  have := toNat_clampInt (b + 128)
  rw [coarseOf, hb]
  dsimp only
  omega

end

/-- Only an infinity or a NaN is no number. -/
theorem num_of_not {x : Val} (hn : x.isNan = false) (hi : ∀ s, x ≠ .inf s) : ∃ s n d e, x = .num s n d e := by
  cases x with
  | num s n d e => exact ⟨s, n, d, e, rfl⟩
  | inf s => exact absurd rfl (hi s)
  | nan q => cases hn

theorem and_not_fOverflow_fInexact (a : Flags) :
    a &&& ~~~(fOverflow ||| fInexact) = 0 ↔ a.getLsbD 0 = false ∧ a.getLsbD 1 = false ∧ a.getLsbD 3 = false := by revert a; decide

/-- The flags of a block of finite values (R64). -/
theorem packTwin_finite_flags {f : FDef} {v : Nat → Val} {rm : Round} {phi : Nat} (h5 : f.kind = 5) (hw : f.w = f.mw + 2) (hp : ∀ n, Proper (v n))
    (hn : ¬ ∃ n, n < 32 ∧ (v n).isNan = true) (hi : ¬ ∃ n s, n < 32 ∧ v n = .inf s) :
    let r := packTwin f ((List.range 32).map v) rm phi
    r.2 &&& ~~~(fOverflow ||| fInexact) = 0 ∧
    (r.2 &&& fOverflow = fOverflow ↔ ∃ n q, n < 32 ∧ valueOf (v n) = some q ∧ (2 : ℚ) ^ ((coarseOf v : Int) - 127) ≤ |q|) ∧
    (r.2 &&& fInexact = fInexact ↔ ∃ n, n < 32 ∧ valueOf (blockElem f r.1 n) ≠ valueOf (v n)) := by
  have hnum : ∀ n, n < 32 → ∃ s k d e, v n = .num s k d e := fun n hlt =>
    num_of_not (by simpa using fun h => hn ⟨n, hlt, h⟩) (fun s h => hi ⟨n, s, hlt, h⟩)
  have hsnd := (packTwin_fields (rm := rm) (phi := phi) h5 hw hn (fun h => absurd h hi)).2.2.2.2
  dsimp only
  rw [and_fOverflow, and_fInexact, and_not_fOverflow_fInexact, hsnd]
  simp only [getLsbD_anyFlags, ← Bool.not_eq_true, not_exists, not_and]
  refine ⟨?_, ?_, ?_⟩
  · have hclean : ∀ n, n < 32 → (twinEncoded f v rm phi n).2 &&& ~~~(fOverflow ||| fInexact) = 0 := fun n hlt => by
      obtain ⟨s, k, d, e, h⟩ := hnum n hlt
      rw [twinEncoded, h]
      exact twin_flags_only ..
    simp only [and_not_fOverflow_fInexact, ← Bool.not_eq_true] at hclean
    exact ⟨fun n h => (hclean n h).1, fun n h => (hclean n h).2.1, fun n h => (hclean n h).2.2⟩
  · refine exists_congr fun n => ?_
    constructor
    · rintro ⟨hlt, h⟩
      obtain ⟨s, k, d, e, hv⟩ := hnum n hlt
      rw [twinEncoded, hv, twin_overflow (hp n s k d e hv)] at h
      exact ⟨_, hlt, by rw [hv, valueOf_num_eq], by rwa [abs_mul, abs_signOne, one_mul, abs_of_nonneg (magOf_nonneg ..)]⟩
    · rintro ⟨q, hlt, hq, h⟩
      obtain ⟨s, k, d, e, hv⟩ := hnum n hlt
      rw [hv, valueOf_num_eq, Option.some.injEq] at hq
      rw [← hq, abs_mul, abs_signOne, one_mul, abs_of_nonneg (magOf_nonneg ..)] at h
      refine ⟨hlt, ?_⟩
      rwa [twinEncoded, hv, twin_overflow (hp n s k d e hv)]
  · refine exists_congr fun n => and_congr_right fun hlt => ?_
    obtain ⟨s, k, d, e, hv⟩ := hnum n hlt
    have hs : signOne s ≠ 0 := by cases s <;> simp
    rw [packTwin_value h5 hw hn (fun h => absurd h hi) hlt hv, twinEncoded, hv, twin_inexact (fineOf_le f v) (hp n s k d e hv), valueOf_num_eq,
      ne_eq, ne_eq, Option.some.injEq, mul_right_inj' hs]

/-! ## Lanes (R130, R132) -/

theorem blockBits_bytes (f : FDef) : 8 * (f.blockBits / 8) = f.blockBits := by
  unfold FDef.blockBits
  split <;> omega

/-- The bytes of a block image that a lane holds. -/
def laneBytes (img lane n : Nat) : List Byte :=
  (((List.range 3).map (fun q => lane + 32 * q)).filter (fun k => decide (k < n))).map (fun k => BitVec.ofNat 8 (natField img (8 * k) 8))

/-- A lane holds bytes at every 32nd place while the image has them. -/
theorem laneBytes_eq (img lane n : Nat) : laneBytes img lane n =
    (List.range (min 3 ((n + 31 - lane) / 32))).map (fun q => BitVec.ofNat 8 (natField img (8 * (lane + 32 * q)) 8)) := by
  have hf : ((List.range 3).map (fun q => lane + 32 * q)).filter (fun k => decide (k < n)) =
      (List.range (min 3 ((n + 31 - lane) / 32))).map (fun q => lane + 32 * q) := by
    have hk : ((fun k => decide (k < n)) ∘ fun q => lane + 32 * q) = fun q => decide (q < (n + 31 - lane) / 32) := by
      funext q
      exact decide_eq_decide.2 (show lane + 32 * q < n ↔ q < (n + 31 - lane) / 32 by omega)
    rw [List.filter_map, hk]
    congr 1
    generalize (n + 31 - lane) / 32 = k
    rcases (by omega : k = 0 ∨ k = 1 ∨ k = 2 ∨ 3 ≤ k) with rfl | rfl | rfl | h
    · rfl
    · rfl
    · rfl
    · rw [min_eq_left h, List.filter_eq_self]
      intro q hq
      have := List.mem_range.1 hq
      exact decide_eq_true (by omega)
  rw [laneBytes, hf, List.map_map]
  rfl

/-- Byte `j` of a lane's word. -/
theorem laneBytes_byte (img lane n j : Nat) (hj : j < 8) :
    (BitVec.ofNat 64 (ofBytes (laneBytes img lane n))).extractLsb' (8 * j) 8 =
      if lane + 32 * j < n ∧ j < 3 then BitVec.ofNat 8 (natField img (8 * (lane + 32 * j)) 8) else 0 := by
  rw [extractLsb'_ofNat _ _ _ _ (by omega), laneBytes_eq]
  split
  · next h =>
    have hlt : j < min 3 ((n + 31 - lane) / 32) := by omega
    rw [natField_ofBytes _ _ (by simpa using hlt)]
    simp only [List.getD_eq_getElem?_getD, List.getElem?_map, List.getElem?_range hlt, Option.map_some, Option.getD_some]
    exact BitVec.eq_of_toNat_eq (by simp)
  · next h =>
    rw [natField_ofBytes_ge _ (by simp; omega)]
    rfl

/-- Byte `k` of an image put together from lanes. -/
theorem natField_gathered (n : Nat) (g : Nat → Nat) {k : Nat} (hk : k < n) :
    natField (ofBytes ((List.range n).map (fun k => BitVec.ofNat 8 (natField (g k) (8 * (k / 32)) 8)))) (8 * k) 8 = natField (g k) (8 * (k / 32)) 8 := by
  rw [natField_ofBytes _ _ (by simpa using hk)]
  simp only [List.getD_eq_getElem?_getD, List.getElem?_map, List.getElem?_range hk, Option.map_some, Option.getD_some, BitVec.toNat_ofNat]
  exact Nat.mod_eq_of_lt (Nat.mod_lt _ (by positivity))

section
variable {c : Common} {d a : VReg} {fs : Slot} {rm : Round} {s : State} {m : Member} {f : FDef}

theorem bpack_writes (hf : fmtSlot m fs kindsBlock (.source 0) = .ok f) (hp : Performs s m (.bpack c d a fs rm)) :
    WritesLater (exec (.bpack c d a fs rm) s) m (.bpack c d a fs rm)
      [.v d (BitVec.ofNat 64 (ofBytes (laneBytes (packBlock f (plainVals (fun j => decodeElem f2def (blockSource m a j).toNat)) (effRm rm f) 0).1
        m.t.lane (f.blockBits / 8))))]
      (packBlock f (plainVals (fun j => decodeElem f2def (blockSource m a j).toNat)) (effRm rm f) 0).2 false false := by
  refine writesLater (b := true) (fun x z => ?_) rfl hp fun z _ => ?_
  · split
    · trivial
    · exact fmtResult_keeps ..
  · simp only [hf]
    rfl

theorem bunpack_writes (hf : fmtSlot m fs kindsBlock (.source 0) = .ok f) (hp : Performs s m (.bunpack c d a fs)) :
    WritesLater (exec (.bunpack c d a fs) s) m (.bunpack c d a fs)
      [.v d (BitVec.ofNat 64 (toBinary64 (blockElem f (ofBytes ((List.range (f.blockBits / 8)).map (fun k =>
        BitVec.ofNat 8 (natField (blockSource m a (k % 32)).toNat (8 * (k / 32)) 8)))) m.t.lane)).1)] 0 false false := by
  refine writesLater (b := true) (fun x z => ?_) rfl hp fun z _ => ?_
  · split
    · trivial
    · exact fmtResult_keeps ..
  · simp only [hf]
    rfl

end

/-- The value of a place of a block, with the one written in it. -/
theorem proper_aliasVal (f : FDef) (img i x n : Nat) : Proper (if n = i then decodeElem bf16 x else mxElem f img n) := by
  split
  · exact proper_decodeElem_float (by decide) x
  · exact proper_mxElem f img n

theorem proper_binary64 (x : Nat) : Proper (decodeElem f2def x) := proper_decodeElem_float (by decide) x

end Machine
end Sys2Proof

open Sys2Proof Sys2Proof.Machine
/-- Settles O21: a block is its header and 32 fields, and its scales are those of the largest exponent. -/
theorem blocks : Obligations.Blocks := by
  refine ⟨?_, ?_, ?_, ?_, ?_⟩
  · intro k phi j x rm hk1 hk6 hj f emax kind v r scale enc lost
    obtain ⟨h6, -⟩ := mxDef_fields (k := k)
    have hp : ∀ n, Proper (v n) := fun n => proper_binary64 _
    have hr : r = packMx f (plainVals v) rm phi := (packBlock_plain f v rm phi).trans (if_neg (by rw [h6]; decide))
    have hscale : scale = scaleOf f v := by simp only [scale, hr]; exact packMx_scale ..
    have henc : enc = mxEncoded f v rm phi := by funext n; simp only [enc, hscale]; rfl
    rw [henc, hscale, hr]
    refine ⟨scaleOf_lost f v, fun hl => scaleOf_zeros f hp hl, fun hl a q ha hq hq0 hmax => ?_, packMx_elem f v rm phi hj,
      packMx_lt f v rm phi h6, packMx_flags f v rm phi, packMx_flags_lost f v rm phi⟩
    rw [scaleOf_largest f hp hl ha hq hq0 hmax, mxEmax_mxDef hk1 hk6]
  · intro w img i f q neg scale hl h5 hi
    obtain ⟨hw, -⟩ := twin_of_legal hl h5
    rw [blockElem, if_pos h5]
    refine ⟨fun h => twinElem_nan h i, fun h0 h1 => ?_⟩
    rw [twinElem_num hw h0 h1, valueOf_num, Nat.cast_one, div_one]
    exact ⟨rfl, rfl⟩
  · intro w phi j x rm f v r x0 x1 b nan infinite hl h5 hj
    obtain ⟨hw, -⟩ := twin_of_legal hl h5
    have hp : ∀ n, Proper (v n) := fun n => proper_binary64 _
    have hr : r = packTwin f ((List.range 32).map v) rm phi := (packBlock_plain f v rm phi).trans (if_pos h5)
    refine ⟨fun hn _ => hr.trans (packTwin_nan f v rm phi hn), fun hi hn hs => hr.trans (packTwin_inf f v rm phi hn hi hs), fun hn hi => ?_,
      fun hn hi => ?_⟩
    · obtain ⟨h0, h1, hb, hlt, hfl⟩ := packTwin_fields (rm := rm) (phi := phi) h5 hw hn hi
      rw [← hr] at h0 h1 hb hlt hfl
      have hx0 : x0 = fineOf f v := h0
      have hx1 : x1 = coarseOf v := h1
      have hbj : b = (twinEncoded f v rm phi j).1 := hb j hj
      refine ⟨by rw [hx0, hx1]; rfl, hlt, fun hinf => ⟨hx1.trans (coarseOf_infinite hinf), ?_⟩, fun s hv => ?_, fun s n d e hv => ?_⟩
      · obtain ⟨n, s, hn', hv⟩ := hinf
        rw [and_fInvalid, hfl, getLsbD_anyFlags]
        refine ⟨n, hn', ?_⟩
        rw [twinEncoded, hv, packTwinElem_inf]
        exact (by decide : fInvalid.getLsbD 0 = true)
      · rw [hbj, twinEncoded, hv, packTwinElem_inf, twinBits]
        cases s <;> simp [bitOf]
      · rw [hbj, twinEncoded, hv, packTwinElem_bits, hx0, hx1]
        exact twinBits_stored ..
    · obtain ⟨-, h1, -, -, -⟩ := packTwin_fields (rm := rm) (phi := phi) h5 hw hn (fun h => absurd h hi)
      have hx1 : x1 = coarseOf v := by simp only [x1, hr]; exact h1
      rw [hx1, hr]
      exact ⟨coarseOf_zeros hp hi, fun a q ha hq hq0 hmax => coarseOf_largest hp hi ha hq hq0 hmax, packTwin_finite_flags h5 hw hp hn hi⟩
  · intro k img i x j hk1 hk6 hi hj hx f emax kind scale v new scale' lost
    obtain ⟨h6, hsub⟩ := mxDef_fields (k := k)
    have hp : ∀ n, Proper (v n) := proper_aliasVal f img i x
    have hnew : new = (packMx f (plainVals v) .rne 0).1 := aliasWrite_eq f img i x
    have hscale : scale' = scaleOf f v := by simp only [scale', hnew]; exact packMx_scale ..
    rw [hscale, hnew]
    refine ⟨fun h => mxElem_255 h i, fun h => mxElem_scaled h6 hsub h i, aliasRead_nan, aliasRead_value, scaleOf_lost f v,
      fun hl => scaleOf_zeros f hp hl, fun hl a q ha hq hq0 hmax => ?_, ?_, packMx_lt f v .rne 0 h6⟩
    · rw [scaleOf_largest f hp hl ha hq hq0 hmax, mxEmax_mxDef hk1 hk6]
    · rw [packMx_elem f v .rne 0 hj, mxEncoded, encodeElem_rne_pos]
      rfl
  · intro c d a fs rm s m f hf
    refine ⟨fun hp => ⟨_, bpack_writes hf hp, fun j hj => laneBytes_byte _ _ _ j hj⟩, fun hp => ⟨_, fun k hk => ?_, ?_, bunpack_writes hf hp⟩⟩
    · exact natField_gathered _ (fun k => (blockSource m a (k % 32)).toNat) hk
    · refine (ofBytes_lt _).trans_eq ?_
      rw [List.length_map, List.length_range, blockBits_bytes]
end

section
/-! PROOFS. What a context's instruction does to the machine: the context set, the step of its class, a stop (R173, R189). -/

namespace Sys2Proof
namespace Machine

/-! ## The table of contexts -/

theorem find?_upsert_same {α : Type} {p : α → Bool} {v : α} (h : p v = true) (l : List α) : (upsert p v l).find? p = some v := by
  induction l with
  | nil => simp [upsert, h]
  | cons x xs ih =>
    unfold upsert
    split
    · simp [h]
    · next hx => rw [List.find?_cons_of_neg hx, ih]

theorem find?_upsert_other {α : Type} {p q : α → Bool} {v : α} (h : q v = false) (hpq : ∀ x, p x = true → q x = false) (l : List α) :
    (upsert p v l).find? q = l.find? q := by
  induction l with
  | nil => simp [upsert, h]
  | cons x xs ih =>
    unfold upsert
    split
    · next hx => rw [List.find?_cons_of_neg (by simp [h]), List.find?_cons_of_neg (by simp [hpq x hx])]
    · rw [List.find?_cons, List.find?_cons, ih]

theorem State.pontil?_setPontil_same (s : State) (p : Pontil) : (s.setPontil p).pontil? p.id = some p :=
  find?_upsert_same (p := fun x : Pontil => x.id == p.id) (by simp) s.pontils

theorem State.pontil?_setPontil_other (s : State) (p : Pontil) {q : PontilId} (h : q ≠ p.id) : (s.setPontil p).pontil? q = s.pontil? q :=
  find?_upsert_other (p := fun x : Pontil => x.id == p.id) (q := fun x : Pontil => x.id == q) (by simpa using fun h' => h h'.symm)
    (fun x hx => by
      have hx : x.id = p.id := by simpa using hx
      simpa [hx] using fun h' => h h'.symm) s.pontils

theorem pontil?_map_wg (s : State) (f : Pontil → Pontil) (hf : ∀ p, (f p).id = p.id) (q : PontilId) :
    (s.pontils.map f).find? (fun x => x.id == q) = (s.pontil? q).map f := by
  rw [State.pontil?, List.find?_map]
  congr 2
  funext x
  simp [hf]

@[simp] theorem Pontil.advance_id (p : Pontil) : p.advance.id = p.id := rfl
@[simp] theorem Pontil.advance_q (p : Pontil) : p.advance.q = p.q := rfl
@[simp] theorem Pontil.advance_tiles (p : Pontil) : p.advance.tiles = p.tiles := rfl
@[simp] theorem Pontil.advance_flags (p : Pontil) : p.advance.flags = p.flags := rfl
@[simp] theorem Pontil.advance_state (p : Pontil) : p.advance.state = p.state := rfl

/-! ## A step of a context -/

section
variable {i : Instr} {body : Pontil → State → PRes} {s : State} {p : Pontil}

/-- What a context that performs an instruction of class M does is what its meaning says. -/
theorem runMatrix_performs (h : PontilPerforms s p i) : runMatrix i body s = match body p s.popped with
    | .stop c d => stopPontil s.popped p c d
    | .wait z q => { z with peers := s.peers }.setPontil (q.waitsAt i s.peers)
    | .done z q true => { z with peers := s.peers }.setPontil q
    | .done z q false => { z with peers := s.peers }.setPontil q.advance := by
  obtain ⟨⟨⟨rest, hi⟩, hp, hrun, hw⟩, hc, hg⟩ := h
  have hgo : p.goesOn = true := by simp [Pontil.goesOn, hrun, hw]
  have hpw : ({ p with wait := none } : Pontil) = p := by rw [← hw]
  have hpeers : p.peersOf { s with issue := rest } = s.peers := by simp [Pontil.peersOf, hw]
  have hpop : s.popped = { s with issue := rest } := by simp [State.popped, hi]
  have hp' : ({ s with issue := rest } : State).pontil? p.id = some p := hp
  have hbody : body p { ({ s with issue := rest } : State) with peers := s.peers } = body p s.popped := by rw [hpop]
  unfold runMatrix runShared
  simp only [hi, runPontil, hp', hgo, hpeers, hpw, hc, hg, hbody]
  rw [hpop]
  cases body p { s with issue := rest } with
  | stop c d => rfl
  | wait z q => rfl
  | done z q taken => cases taken <;> rfl

/-- It goes on with the results `q`, in a state that differs in what no other context or thread sees. -/
theorem pontilAfter_done (h : PontilPerforms s p i) {z : State} {q : Pontil} (hb : body p s.popped = .done z q false) (hq : q.id = p.id)
    {P : State → Pontil → Prop} (hP : P ({ z with peers := s.peers }.setPontil q.advance) q.advance) :
    PontilAfter (.next (runMatrix i body s)) p P := by
  refine ⟨_, q.advance, rfl, ?_, ?_⟩
  · rw [runMatrix_performs h, hb, ← hq]
    exact State.pontil?_setPontil_same _ q.advance
  · rwa [runMatrix_performs h, hb]

/-- Only the context differs when the state its meaning leaves differs in nothing of the other contexts and threads. -/
theorem onlyContext_setPontil {z : State} {q : Pontil} (hq : q.id = p.id) (hpon : z.pontils = s.pontils) (hw : z.workgroups = s.workgroups)
    (hl : z.launches = s.launches) (ho : z.ops = s.ops) (peers : List PeerEntry) : OnlyContext s ({ z with peers := peers }.setPontil q) p := by
  refine ⟨fun k hk => ?_, hw, hl, ho⟩
  rw [State.pontil?_setPontil_other _ _ (hq ▸ hk)]
  exact congrArg (fun l => l.find? (fun x => x.id == k)) hpon

end

/-! ## A stop (R173) -/

theorem releaseDrained_keeps (s : State) (p : Pontil) (sc : Scope) :
    ∃ v d, (releaseDrained s p sc).2 = { p with view := v, drained := d } := ⟨_, _, rfl⟩

theorem pontilArrive_keeps (s : State) (p : Pontil) : ∃ v d, (pontilArrive s p).2.2 = { p with view := v, drained := d } := by
  unfold pontilArrive
  split
  · exact ⟨p.view, p.drained, rfl⟩
  · split
    · exact ⟨p.view, p.drained, rfl⟩
    · dsimp only
      split
      · exact ⟨_, _, rfl⟩
      · exact ⟨p.view, p.drained, rfl⟩

theorem arriveOrOwe_keeps (s : State) (p : Pontil) : ∃ v d, (arriveOrOwe s p).2 = { p with view := v, drained := d } := by
  unfold arriveOrOwe
  split
  · exact ⟨p.view, p.drained, rfl⟩
  · exact pontilArrive_keeps s p

/-- The end of a workgroup leaves a context all but its workgroup. -/
theorem pontil?_tryEnd (s : State) (u : Nat) (k : PontilId) {p : Pontil} (h : s.pontil? k = some p) :
    ∃ wg, (tryEnd s u).pontil? k = some { p with wg := wg } := by
  unfold tryEnd
  split
  · exact ⟨p.wg, h⟩
  · split
    · exact ⟨p.wg, h⟩
    · refine ⟨if p.wg = u then 2 ^ 64 else p.wg, ?_⟩
      dsimp only
      unfold State.pontil?
      dsimp only
      rw [State.modLaunch_pontils, pontil?_map_wg _ _ (fun p => by split <;> rfl), h]
      simp only [Option.map_some]
      split <;> rfl

/-- A context that stops keeps its place and its tiles, and says why. -/
theorem pontil?_stopPontil (s : State) (p : Pontil) (c : Code) (detail : Word) :
    ∃ q, (stopPontil s p c detail).pontil? p.id = some q ∧ q.state = .stopped ∧ q.code = codeNumber c ∧ q.pc = p.pc ∧ q.tiles = p.tiles := by
  obtain ⟨v, d, ha⟩ := arriveOrOwe_keeps s p
  obtain ⟨v', d', hr⟩ := releaseDrained_keeps (arriveOrOwe s p).1 (arriveOrOwe s p).2 .system
  set q : Pontil := { p with view := v', drained := d', state := .stopped, code := codeNumber c, wait := none } with hq
  -- what follows the setting of the context leaves the table of contexts as it is
  have hend : ∀ z : State, z.pontils = ((releaseDrained (arriveOrOwe s p).1 (arriveOrOwe s p).2 .system).1.setPontil q).pontils →
      ∃ q', (tryEnd z p.wg).pontil? p.id = some q' ∧ q'.state = .stopped ∧ q'.code = codeNumber c ∧ q'.pc = p.pc ∧ q'.tiles = p.tiles := fun z hz => by
    obtain ⟨wg, h⟩ := pontil?_tryEnd z p.wg p.id
      ((congrArg (fun l => l.find? (fun x => x.id == p.id)) hz).trans (State.pontil?_setPontil_same _ q))
    exact ⟨_, h, rfl, rfl, rfl, rfl⟩
  unfold stopPontil
  dsimp only
  rw [hr, ha, ← hq]
  refine hend _ ?_
  split <;> simp [endLaunch, noteExit, ha]

end Machine
end Sys2Proof
end

section
/-! PROOFS. One cell of a product: its terms, their sum under the window of R69 or exact, and integer cells (R59, R69, R70). -/

namespace Sys2Proof
namespace Machine

/-! ## Zero sums (R59) -/

theorem zeroSum_rdn (rdn u : Bool) : zeroSum rdn u rdn = rdn := by cases rdn <;> cases u <;> rfl

theorem foldl_zeroSum_rdn (rdn : Bool) (us : List Bool) : us.foldl (fun sg u => zeroSum sg u rdn) rdn = rdn := by
  induction us with
  | nil => rfl
  | cons u us ih => rw [List.foldl_cons, zeroSum_rdn, ih]

/-- Zeros of one sign sum to a zero of that sign. -/
theorem foldl_zeroSum_same {rdn z : Bool} {us : List Bool} (h : ∀ u ∈ us, u = z) : us.foldl (fun sg u => zeroSum sg u rdn) z = z := by
  induction us with
  | nil => rfl
  | cons u us ih =>
    rw [List.foldl_cons, h u List.mem_cons_self, show zeroSum z z rdn = z by simp [zeroSum]]
    exact ih fun u hu => h u (List.mem_cons_of_mem _ hu)

/-- Zeros of both signs sum to the zero of the rounding. -/
theorem foldl_zeroSum_mixed {rdn z : Bool} {us : List Bool} (h : ∃ u ∈ us, u ≠ z) : us.foldl (fun sg u => zeroSum sg u rdn) z = rdn := by
  induction us with
  | nil => simp at h
  | cons u us ih =>
    rw [List.foldl_cons]
    by_cases hu : u = z
    · rw [hu, show zeroSum z z rdn = z by simp [zeroSum]]
      obtain ⟨x, hx, hxz⟩ := h
      exact ih ⟨x, (List.mem_cons.1 hx).resolve_left (fun h => hxz (h.trans hu)), hxz⟩
    · rw [show zeroSum z u rdn = rdn by simp [zeroSum, Ne.symm hu], foldl_zeroSum_rdn]

theorem zeroOf_eq (t : Val) (ts : List Val) (rm : Round) :
    zeroOf (t :: ts) rm = valZero ((ts.map Val.sign).foldl (fun sg u => zeroSum sg u (rm == .rdn)) t.sign) := by
  rw [zeroOf, List.foldl_map]

/-- The zero of terms that are all zero. -/
theorem zeroOf_spec {ts : List Val} (h : ts ≠ []) (rm : Round) : ∃ b, zeroOf ts rm = valZero b ∧
    (∀ z, (∀ s ∈ ts.map Val.sign, s = z) → b = z) ∧ (true ∈ ts.map Val.sign → false ∈ ts.map Val.sign → b = (rm == .rdn)) := by
  cases ts with
  | nil => exact absurd rfl h
  | cons t ts =>
    refine ⟨_, zeroOf_eq t ts rm, fun z hz => ?_, fun ht hf => foldl_zeroSum_mixed ?_⟩
    · rw [hz t.sign (by simp)]
      exact foldl_zeroSum_same fun u hu => hz u (by rw [List.map_cons]; exact List.mem_cons_of_mem _ hu)
    · rw [List.map_cons, List.mem_cons] at ht hf
      cases hs : t.sign with
      | true => exact ⟨false, hf.resolve_left (by simp [hs]), by decide⟩
      | false => exact ⟨true, ht.resolve_left (by simp [hs]), by decide⟩

/-! ## The exact sum (R70) -/

theorem ratOf_num_eq_zero {s : Bool} {n d : Nat} {e : Int} (hd : 0 < d) : ratOf (.num s n d e) = 0 ↔ n = 0 := by
  rw [← abs_eq_zero, abs_ratOf_num]
  refine ⟨fun h => ?_, fun h => by simp [h, magOf]⟩
  by_contra hn
  exact (magOf_pos e hn hd).ne' h

/-- A zero has the sign that R59 gives a sum. -/
def ZeroSigned (rdn : Bool) (v : Val) : Prop := ratOf v = 0 → v.sign = rdn

theorem zeroSigned_valAdd {rdn : Bool} {x y : Val} (hx : FiniteVal x) (hy : FiniteVal y) (h : ZeroSigned rdn x ∨ ratOf y ≠ 0) :
    ZeroSigned rdn (valAdd rdn x y).1 := by
  obtain ⟨s, n, d, e, rfl, hd⟩ := hx
  obtain ⟨s', n', d', e', rfl, hd'⟩ := hy
  intro h0
  simp only [ZeroSigned, ratOf_num_eq_zero hd, ne_eq, ratOf_num_eq_zero hd', Val.sign] at h
  simp only [valAdd, addFinite] at h0 ⊢
  by_cases hn : n = 0
  · by_cases hn' : n' = 0
    · rw [if_pos ⟨hn, hn'⟩, valZero]
      rcases h with h | h
      · rw [Val.sign, h hn, zeroSum_rdn]
      · exact absurd hn' h
    · rw [if_neg (by tauto), if_pos hn, ratOf_num_eq_zero hd'] at h0
      exact absurd h0 hn'
  · rw [if_neg (by tauto), if_neg hn] at h0 ⊢
    by_cases hn' : n' = 0
    · rw [if_pos hn', ratOf_num_eq_zero hd] at h0
      exact absurd h0 hn
    · rw [if_neg hn'] at h0 ⊢
      generalize (_ + _ : ℤ) = t at h0 ⊢
      split at h0
      · next ht => rw [if_pos ht]; rfl
      · next ht =>
        rw [ratOf_num_eq_zero (Nat.mul_pos hd hd'), Int.natAbs_eq_zero] at h0
        exact absurd h0 ht

/-- Terms added one after another: the exact sum, a zero with the sign of R59 once a nonzero term has gone in. -/
theorem foldl_valAdd {rdn : Bool} {ts : List Val} (hts : ∀ t ∈ ts, FiniteVal t) {a : Val} (ha : FiniteVal a) :
    FiniteVal (ts.foldl (fun a u => (valAdd rdn a u).1) a) ∧ ratOf (ts.foldl (fun a u => (valAdd rdn a u).1) a) = ratOf a + (ts.map ratOf).sum ∧
    ((ZeroSigned rdn a ∨ ∃ t ∈ ts, ratOf t ≠ 0) → ZeroSigned rdn (ts.foldl (fun a u => (valAdd rdn a u).1) a)) := by
  induction ts generalizing a with
  | nil => exact ⟨ha, by simp, fun h => h.resolve_right (by simp)⟩
  | cons t ts ih =>
    have ht := hts t List.mem_cons_self
    obtain ⟨hf, hv, -⟩ := valAdd_finite rdn ha ht
    obtain ⟨h1, h2, h3⟩ := ih (fun t h => hts t (List.mem_cons_of_mem _ h)) hf
    refine ⟨h1, by rw [List.foldl_cons, h2, hv, List.map_cons, List.sum_cons]; ring, fun h => h3 ?_⟩
    rcases h with h | ⟨u, hu, h0⟩
    · exact .inl (zeroSigned_valAdd ha ht (.inl h))
    · rcases List.mem_cons.1 hu with rfl | hu
      · exact .inl (zeroSigned_valAdd ha ht (.inr h0))
      · exact .inr ⟨u, hu, h0⟩

theorem exactSum_spec {ts : List Val} (hts : ∀ t ∈ ts, FiniteVal t) (rm : Round) (hne : ∃ t ∈ ts, ratOf t ≠ 0) :
    valueOf (exactSum ts rm) = some (ts.map ratOf).sum ∧ ((ts.map ratOf).sum = 0 → (exactSum ts rm).sign = (rm == .rdn)) := by
  cases ts with
  | nil => simp at hne
  | cons t ts =>
    obtain ⟨h1, h2, h3⟩ := foldl_valAdd (rdn := rm == .rdn) (fun u h => hts u (List.mem_cons_of_mem _ h)) (hts t List.mem_cons_self)
    have hz : ZeroSigned (rm == .rdn) (exactSum (t :: ts) rm) := h3 (by
      obtain ⟨u, hu, h0⟩ := hne
      rcases List.mem_cons.1 hu with rfl | hu
      · exact .inl fun h => absurd h h0
      · exact .inr ⟨u, hu, h0⟩)
    rw [List.map_cons, List.sum_cons, ← h2]
    exact ⟨h1.valueOf, hz⟩

/-! ## The window of 48 places (R69) -/

/-- An integer toward zero. -/
def cutInt (q : ℚ) : ℤ := if 0 ≤ q then ⌊q⌋ else ⌈q⌉

theorem cutInt_signed (s : Bool) {x : ℚ} (hx : 0 ≤ x) : cutInt (signOne s * x) = if s then -⌊x⌋ else ⌊x⌋ := by
  cases s with
  | false => simp [cutInt, hx]
  | true =>
    rcases hx.eq_or_lt with rfl | h
    · simp [cutInt]
    · simp [cutInt, not_le.2 h, Int.ceil_neg]

theorem overLambda_spec (lo : Int) {t : Val} (ht : FiniteVal t) :
    (overLambda lo t).1 = cutInt (ratOf t / 2 ^ lo) ∧ ((overLambda lo t).2 = true ↔ (cutInt (ratOf t / 2 ^ lo) : ℚ) ≠ ratOf t / 2 ^ lo) := by
  obtain ⟨s, n, d, e, rfl, hd⟩ := ht
  have hq : ratOf (.num s n d e) / 2 ^ lo = signOne s * magOf n d (e - lo) := by
    rw [ratOf_num_eq, Int.sub_eq_add_neg, magOf_add, zpow_neg, div_eq_mul_inv, mul_assoc]
  have hfl := intParts_floor n (e - lo) hd
  have hs : signOne s ≠ 0 := by cases s <;> simp
  have hcast : (((if s then -⌊magOf n d (e - lo)⌋ else ⌊magOf n d (e - lo)⌋ : ℤ)) : ℚ) = signOne s * (⌊magOf n d (e - lo)⌋ : ℤ) := cast_signed s _
  rw [hq, cutInt_signed s (magOf_nonneg ..), hcast]
  refine ⟨by simp only [overLambda, hfl], ?_⟩
  rw [ne_eq, mul_right_inj' hs, ← hfl, Int.cast_natCast, eq_comm (a := ((intParts n d (e - lo)).1 : ℚ)), magOf_eq_nat _ _ hd]
  simp [overLambda]

theorem foldl_add_eq {α : Type} (g : α → ℤ) (xs : List α) (a : ℤ) : xs.foldl (fun a q => a + g q) a = a + (xs.map g).sum := by
  induction xs generalizing a with
  | nil => simp
  | cons x xs ih => rw [List.foldl_cons, ih, List.map_cons, List.sum_cons, Int.add_assoc]

/-- The sum in the window, and whether something was cut off. -/
theorem windowSum_spec {ts : List Val} (hts : ∀ t ∈ ts, FiniteVal t) (big : Int) (rm : Round) :
    let lambda : ℚ := 2 ^ (big - 48)
    let sigma : ℤ := ((ts.map ratOf).map (fun t => cutInt (t / lambda))).sum
    let sticky : Prop := ∃ t ∈ ts.map ratOf, (cutInt (t / lambda) : ℚ) ≠ t / lambda
    (sticky → (windowSum ts big rm).2 = true ∧
      valueOf (windowSum ts big rm).1 = some ((sigma + if 0 ≤ sigma then 1 / 2 else -1 / 2) * lambda)) ∧
    (¬ sticky → (windowSum ts big rm).2 = false ∧ valueOf (windowSum ts big rm).1 = some (sigma * lambda) ∧
      (sigma = 0 → (windowSum ts big rm).1.sign = (rm == .rdn))) := by
  intro lambda sigma sticky
  have hsig : (ts.map (overLambda (big - 48))).foldl (fun a q => a + q.1) (0 : Int) = sigma := by
    rw [foldl_add_eq, Int.zero_add, List.map_map]
    simp only [sigma, List.map_map]
    congr 1
    exact List.map_congr_left fun t ht => (overLambda_spec (big - 48) (hts t ht)).1
  have hst : (ts.map (overLambda (big - 48))).any (·.2) = true ↔ sticky := by
    simp only [sticky, List.any_map, List.any_eq_true, List.mem_map, exists_exists_and_eq_and, Function.comp_apply]
    exact exists_congr fun t => and_congr_right fun ht => (overLambda_spec (big - 48) (hts t ht)).2
  unfold windowSum
  simp only [hsig]
  refine ⟨fun h => ?_, fun h => ?_⟩
  · rw [if_pos (hst.2 h)]
    refine ⟨rfl, ?_⟩
    rw [valueOf_valInt, Option.some.injEq]
    have hl : (2 : ℚ) ^ (big - 48 - 1) = lambda / 2 := by
      rw [zpow_sub₀ two_ne_zero, zpow_one]
    rw [hl]
    split <;> push_cast <;> ring
  · rw [if_neg (fun h' => h (hst.1 h'))]
    by_cases h0 : sigma = 0
    · rw [if_pos h0, h0]
      exact ⟨rfl, by simp, fun _ => rfl⟩
    · rw [if_neg h0]
      exact ⟨rfl, valueOf_valInt .., fun h => absurd h h0⟩

/-! ## Terms of a cell -/

/-- The terms: the products, and the prior value. -/
def termsOf (ps : List (Val × Val)) (c : Val) : List Val := ps.map (fun p => (exactMul p.1 p.2).1) ++ [c]

theorem exactMul_nan {x y : Val} (h : x.isNan = true ∨ y.isNan = true) : (exactMul x y).1.isNan = true := by
  cases x <;> cases y <;> simp_all [exactMul, valMul, Val.isNan]

theorem sign_exactMul {x y : Val} (hx : FiniteVal x) (hy : FiniteVal y) : (exactMul x y).1.sign = (x.sign != y.sign) := by
  obtain ⟨s, n, d, e, rfl, -⟩ := hx
  obtain ⟨s', n', d', e', rfl, -⟩ := hy
  rfl

theorem specialSum_nan {ts : List Val} (h : ts.any Val.isNan = true) : ∃ fl, specialSum ts = some (.nan true, fl) := by
  unfold specialSum
  rw [h]
  dsimp only
  split
  · exact ⟨_, rfl⟩
  · exact ⟨_, rfl⟩

theorem specialSum_finite {ts : List Val} (h : ∀ t ∈ ts, FiniteVal t) : specialSum ts = none := by
  have hinf : ∀ b : Bool, ts.any (fun t => decide (t = .inf b)) = false := fun b => by
    rw [List.any_eq_false]
    intro t ht
    obtain ⟨s, n, d, e, rfl, -⟩ := h t ht
    simp
  have hnan : ts.any Val.isNan = false := by
    rw [List.any_eq_false]
    intro t ht
    obtain ⟨s, n, d, e, rfl, -⟩ := h t ht
    simp [Val.isNan]
  have hp : ∀ t : Val, (match t with | .inf false => true | _ => false) = decide (t = .inf false) := fun t => by
    cases t with
    | inf b => cases b <;> simp
    | num | nan => simp
  have hn : ∀ t : Val, (match t with | .inf true => true | _ => false) = decide (t = .inf true) := fun t => by
    cases t with
    | inf b => cases b <;> simp
    | num | nan => simp
  have hp' : ts.any (fun t => match t with | .inf false => true | _ => false) = false := (congrArg ts.any (funext hp)).trans (hinf false)
  have hn' : ts.any (fun t => match t with | .inf true => true | _ => false) = false := (congrArg ts.any (funext hn)).trans (hinf true)
  unfold specialSum
  dsimp only
  rw [if_neg, if_neg, if_neg]
  · exact fun h => by
      rcases Bool.or_eq_true _ _ ▸ h with h | h
      · exact absurd h (Bool.eq_false_iff.1 hp')
      · exact absurd h (Bool.eq_false_iff.1 hn')
  · exact Bool.eq_false_iff.1 hnan
  · exact fun h => absurd ((Bool.and_eq_true _ _ ▸ h).1) (Bool.eq_false_iff.1 hp')

section
variable {ps : List (Val × Val)} {c : Val}

theorem termsOf_finite (hps : ∀ p ∈ ps, FiniteVal p.1 ∧ FiniteVal p.2) (hc : FiniteVal c) : ∀ t ∈ termsOf ps c, FiniteVal t := by
  intro t ht
  rcases List.mem_append.1 ht with h | h
  · obtain ⟨p, hp, rfl⟩ := List.mem_map.1 h
    exact (exactMul_finite (hps p hp).1 (hps p hp).2).1
  · rw [List.mem_singleton.1 h]; exact hc

theorem map_ratOf_termsOf (hps : ∀ p ∈ ps, FiniteVal p.1 ∧ FiniteVal p.2) :
    (termsOf ps c).map ratOf = ps.map (fun p => ratOf p.1 * ratOf p.2) ++ [ratOf c] := by
  rw [termsOf, List.map_append, List.map_map]
  congr 1
  exact List.map_congr_left fun p hp => (exactMul_finite (hps p hp).1 (hps p hp).2).2.1

theorem map_sign_termsOf (hps : ∀ p ∈ ps, FiniteVal p.1 ∧ FiniteVal p.2) :
    (termsOf ps c).map Val.sign = ps.map (fun p => p.1.sign != p.2.sign) ++ [c.sign] := by
  rw [termsOf, List.map_append, List.map_map]
  congr 1
  exact List.map_congr_left fun p hp => sign_exactMul (hps p hp).1 (hps p hp).2

theorem productsOf_flags (hps : ∀ p ∈ ps, FiniteVal p.1 ∧ FiniteVal p.2) : (productsOf ps).2 = 0 := by
  unfold productsOf
  dsimp only
  induction ps with
  | nil => rfl
  | cons p ps ih =>
    rw [List.foldl_cons, (exactMul_finite (hps p List.mem_cons_self).1 (hps p List.mem_cons_self).2).2.2]
    exact ih fun q hq => hps q (List.mem_cons_of_mem _ hq)

/-- A finite cell is the encoding of the sum that its terms call for. -/
theorem floatCell_finite (g : FDef) (fused : Bool) (hps : ∀ p ∈ ps, FiniteVal p.1 ∧ FiniteVal p.2) (hc : FiniteVal c) (rm : Round) (pos : Nat) :
    floatCell g fused c ps rm pos = match largest (termsOf ps c) with
      | none => ((encodeElem g (zeroOf (termsOf ps c) rm) rm pos false).1, (encodeElem g (zeroOf (termsOf ps c) rm) rm pos false).2 ||| 0)
      | some big =>
        if fused then ((encodeElem g (exactSum (termsOf ps c) rm) rm pos false).1, (encodeElem g (exactSum (termsOf ps c) rm) rm pos false).2 ||| 0)
        else ((encodeElem g (windowSum (termsOf ps c) big rm).1 rm pos false).1,
          (encodeElem g (windowSum (termsOf ps c) big rm).1 rm pos false).2 ||| flagIf (windowSum (termsOf ps c) big rm).2 fInexact) := by
  have hfl : (productsOf ps).2 ||| flagIf c.isSignalling fInvalid = 0 := by
    rw [productsOf_flags hps, hc.isSignalling]
    rfl
  have hts : (productsOf ps).1 ++ [c] = termsOf ps c := rfl
  unfold floatCell
  simp only [hts, specialSum_finite (termsOf_finite hps hc), hfl]
  cases largest (termsOf ps c) with
  | none => rfl
  | some big =>
    cases fused with
    | true => rfl
    | false =>
      simp only [Bool.false_eq_true, if_false, BitVec.or_assoc]
      rw [show (0 : Flags) ||| flagIf (windowSum (termsOf ps c) big rm).2 fInexact = _ from BitVec.zero_or]

theorem floatCell_nan (g : FDef) (fused : Bool) (h : (∃ p ∈ ps, p.1.isNan = true ∨ p.2.isNan = true) ∨ c.isNan = true) (rm : Round) (pos : Nat) :
    (floatCell g fused c ps rm pos).1 = (encodeElem g (.nan true) rm pos false).1 := by
  have hany : (termsOf ps c).any Val.isNan = true := by
    rw [List.any_eq_true]
    rcases h with ⟨p, hp, h⟩ | h
    · exact ⟨_, List.mem_append_left _ (List.mem_map_of_mem hp), exactMul_nan h⟩
    · exact ⟨c, List.mem_append_right _ (List.mem_singleton_self c), h⟩
  obtain ⟨fl, hs⟩ := specialSum_nan hany
  have hts : (productsOf ps).1 ++ [c] = termsOf ps c := rfl
  unfold floatCell
  simp only [hts, hs]

end

theorem FiniteVal.proper {v : Val} (h : FiniteVal v) : Proper v := by
  obtain ⟨s, n, d, e, rfl, hd⟩ := h
  intro s' n' d' e' he
  cases he
  exact hd

theorem largest_none {ts : List Val} (hts : ∀ t ∈ ts, FiniteVal t) (h0 : ∀ t ∈ ts.map ratOf, t = 0) : largest ts = none := by
  refine maxLog_eq_none (fun v hv => (hts v hv).proper) (.inl rfl) fun v hv q hq => ?_
  rw [(hts v hv).valueOf, Option.some.injEq] at hq
  exact hq ▸ h0 _ (List.mem_map_of_mem hv)

theorem largest_some {ts : List Val} (hts : ∀ t ∈ ts, FiniteVal t) {big : Int} (hb : ∃ t ∈ ts.map ratOf, t ≠ 0 ∧ Int.log 2 |t| = big)
    (hle : ∀ t ∈ ts.map ratOf, t ≠ 0 → Int.log 2 |t| ≤ big) : largest ts = some big := by
  obtain ⟨t, ht, h0, hlog⟩ := hb
  obtain ⟨v, hv, rfl⟩ := List.mem_map.1 ht
  obtain ⟨b, hmax, hbb⟩ := le_maxLog (infAs := none) hv ((logOf_eq_some (hts v hv).proper (.inl rfl)).2 ⟨_, (hts v hv).valueOf, h0, hlog⟩)
  obtain ⟨u, hu, hub⟩ := mem_of_maxLog hmax
  obtain ⟨q, hq, hq0, hqb⟩ := (logOf_eq_some (hts u hu).proper (.inl rfl)).1 hub
  rw [(hts u hu).valueOf, Option.some.injEq] at hq
  have := hle q (hq ▸ List.mem_map_of_mem hu) hq0
  rw [largest, hmax, le_antisymm (hqb ▸ this) hbb]

theorem exists_largest {ts : List Val} (hts : ∀ t ∈ ts, FiniteVal t) (hne : ∃ t ∈ ts.map ratOf, t ≠ 0) : ∃ big, largest ts = some big := by
  obtain ⟨t, ht, h0⟩ := hne
  obtain ⟨v, hv, rfl⟩ := List.mem_map.1 ht
  obtain ⟨b, hmax, -⟩ := le_maxLog (infAs := none) hv ((logOf_eq_some (hts v hv).proper (.inl rfl)).2 ⟨_, (hts v hv).valueOf, h0, rfl⟩)
  exact ⟨b, hmax⟩

/-! ## Integer cells (R70) -/

/-- The integer an element of a slot of KIND 1 to 4 stands for. -/
def elemInt (f : FDef) (x : Nat) : ℤ := if f.isSigned then signedOf f.w x else (x % 2 ^ f.w : Nat)

theorem integerOf_decodeElem {f : FDef} (h1 : 1 ≤ f.kind) (x : Nat) : integerOf f (decodeElem f x) = some (elemInt f x) := by
  have hm : ∀ t : ℤ, magOf t.natAbs 1 (-(f.frac : Int) + f.frac) = t.natAbs := fun t => by simp [magOf]
  rw [decodeElem, if_neg (by omega)]
  change integerOf f (valInt (elemInt f x) (-(f.frac : Int))) = _
  unfold integerOf valInt
  dsimp only
  rw [(intParts_of_nat Nat.one_pos (hm _)).1]
  rcases lt_or_ge (elemInt f x) 0 with h | h
  · rw [if_pos (by simpa using h), Int.ofNat_natAbs_of_nonpos h.le, Int.neg_neg]
  · rw [if_neg (by simpa using h), Int.natAbs_of_nonneg h]

theorem integerSum_eq {fa fb : FDef} (ha : 1 ≤ fa.kind) (hb : 1 ≤ fb.kind) (l : List (Nat × Nat)) :
    integerSum fa fb (l.map (fun p => (decodeElem fa p.1, decodeElem fb p.2))) = some (l.map (fun p => elemInt fa p.1 * elemInt fb p.2)).sum := by
  induction l with
  | nil => rfl
  | cons p l ih =>
    rw [List.map_cons, integerSum, integerOf_decodeElem ha, integerOf_decodeElem hb, ih]
    rfl

/-- A number of 64 bits as a pattern and back. -/
theorem toInt_patternOf {x : ℤ} (hlo : -(2 ^ 63) ≤ x) (hhi : x ≤ 2 ^ 63 - 1) : (BitVec.ofNat 64 (patternOf 64 x)).toInt = x := by
  have h : BitVec.ofNat 64 (patternOf 64 x) = BitVec.ofInt 64 x := by
    apply BitVec.eq_of_toNat_eq
    rw [BitVec.toNat_ofNat, BitVec.toNat_ofInt, patternOf]
    exact Nat.mod_eq_of_lt (by omega)
  rw [h, BitVec.toInt_ofInt, Int.bmod_eq_of_le (by omega) (by omega)]

theorem integerCell_spec (c sum : ℤ) :
    (BitVec.ofNat 64 (integerCell c sum).1).toInt = max (-(2 ^ 63)) (min (2 ^ 63 - 1) (c + sum)) ∧
    (integerCell c sum).2 = flagIf (max (-(2 ^ 63)) (min (2 ^ 63 - 1) (c + sum)) != c + sum) fOverflow := by
  unfold integerCell
  dsimp only
  generalize c + sum = t
  split
  · have h : max (-(2 ^ 63)) (min (2 ^ 63 - 1) t) = -(2 ^ 63) := by omega
    rw [h, toInt_patternOf (by omega) (by omega)]
    exact ⟨rfl, by rw [flagIf, if_pos (by simp; omega)]⟩
  · split
    · have h : max (-(2 ^ 63)) (min (2 ^ 63 - 1) t) = 2 ^ 63 - 1 := by omega
      rw [h, toInt_patternOf (by omega) (by omega)]
      exact ⟨rfl, by rw [flagIf, if_pos (by simp; omega)]⟩
    · have h : max (-(2 ^ 63)) (min (2 ^ 63 - 1) t) = t := by omega
      rw [h, toInt_patternOf (by omega) (by omega)]
      exact ⟨rfl, by simp [flagIf]⟩

end Machine
end Sys2Proof
end

section
/-! PROOFS. One row of the online-softmax rescale (R183): powers of two, the new maximum, scores and sums. -/

namespace Sys2Proof
namespace Machine

/-! ## Powers of two -/

/-- A value that the slot holds is encoded with nothing lost. -/
theorem encodeFloat_exact {f : FDef} (hf : FloatSlot f) (hsub : f.sub = 0) {neg : Bool} {n d : Nat} {e : Int} {k : Nat} (rm : Round) (pos : Nat)
    (dz : Bool) (hn : n ≠ 0) (hd : 0 < d) (hs : neg = true → f.s = 1) (hk : magOf n d (e + (f.mw - encExp f n d e)) = k)
    (hmax : encMag f n d e rm neg pos ≤ maxPattern f) :
    (encodeFloat f (.num neg n d e) rm pos dz).2 = 0 ∧
    valueOf (decodeFloat f true (encodeFloat f (.num neg n d e) rm pos dz).1) = some (signOne neg * magOf n d e) := by
  constructor
  · rw [encodeFloat_num hn (by rintro ⟨h0, h⟩; rw [hs h] at h0; cases h0), if_neg (not_lt.2 hmax), if_neg (by omega), isInteger_of_nat hd hk]
    simp [flagIf]
  · rw [valueOf_decode_encode hf rm pos dz hn hd hs hsub hmax, encInt, roundInt_of_nat hd hk, ← hk, magOf_add, mul_assoc, ← zpow_add₀ two_ne_zero]
    simp

theorem floatSlot_f2 : FloatSlot f2def := floatSlot_of_legal (w := fixedSlot 2) (by decide) (by decide)

theorem magBitsOf_le (f : FDef) (ex : Int) {q : Nat} (h : q ≤ 2 ^ f.mw) : magBitsOf f ex q ≤ ((ex + f.bias).toNat + 1) * 2 ^ f.mw := by
  have : 0 ≤ (ex + f.bias).toNat * 2 ^ f.mw := Nat.zero_le _
  rw [magBitsOf, Nat.add_one_mul]
  split <;> omega

/-- The powers of two from the least subnormal of binary64 up to 1. -/
theorem f2_powers (k : Nat) (h : k ≤ 1074) : let r := encodeFloat f2def (.num false 1 1 (-(k : Int))) .rne 0 false
    r.2 = 0 ∧ valueOf (decodeFloat f2def true r.1) = some (2 ^ (-(k : ℤ))) := by
  have hmw : f2def.mw = 52 := by decide
  have hbias : f2def.bias = 1023 := by decide
  have hM : magOf 1 1 (-(k : Int)) = 2 ^ (-(k : ℤ)) := by simp [magOf]
  have hlog : floorLog2 1 1 (-(k : Int)) = -(k : Int) := by
    rw [floorLog2_eq _ one_ne_zero one_pos, hM]
    exact Int.log_zpow one_lt_two _
  have hex : encExp f2def 1 1 (-(k : Int)) = max (-(k : Int)) (-1022) := by rw [encExp, hlog, hbias]; norm_num
  -- the power is an integer of places, 2^52 of them where it is normal
  obtain ⟨j, hj, hj52⟩ : ∃ j : Nat, -(k : Int) + (52 - max (-(k : Int)) (-1022)) = j ∧ j ≤ 52 := ⟨(-(k : Int) + (52 - max (-(k : Int)) (-1022))).toNat, by omega, by omega⟩
  have hint : magOf 1 1 (-(k : Int) + (f2def.mw - encExp f2def 1 1 (-(k : Int)))) = (2 ^ j : Nat) := by
    rw [hex, hmw, show -(k : Int) + (((52 : Nat) : Int) - max (-(k : Int)) (-1022)) = j from hj, magOf, zpow_natCast]
    push_cast
    ring
  have hq : encInt f2def 1 1 (-(k : Int)) .rne false 0 = 2 ^ j := roundInt_of_nat one_pos hint _ _ _
  have hmax : encMag f2def 1 1 (-(k : Int)) .rne false 0 ≤ maxPattern f2def := by
    have hp : 2 ^ j ≤ 2 ^ f2def.mw := Nat.pow_le_pow_right (by norm_num) (by omega)
    have hne : (2 : Nat) ^ j ≠ 2 ^ (f2def.mw + 1) := fun h => by
      have := Nat.pow_right_injective le_rfl h
      omega
    rw [encMag, hq]
    rw [if_neg hne]
    calc magBitsOf f2def (encExp f2def 1 1 (-(k : Int))) (2 ^ j) ≤ ((encExp f2def 1 1 (-(k : Int)) + f2def.bias).toNat + 1) * 2 ^ f2def.mw := magBitsOf_le _ _ hp
      _ ≤ 1024 * 2 ^ f2def.mw := Nat.mul_le_mul_right _ (by rw [hex, hbias]; omega)
      _ ≤ maxPattern f2def := by decide
  have := encodeFloat_exact floatSlot_f2 (by decide) .rne 0 false one_ne_zero one_pos (by simp) hint hmax
  rwa [signOne_false, one_mul, hM] at this

/-- A power of two whose exponent is an integer is exact. -/
theorem exactly_power (k : Nat) (h : k ≤ 1074) :
    (Elementary.exactly f2def .rne (.num false 1 1 (-(k : Int)))).2 = 0 ∧
    (Elementary.exactly f2def .rne (.num false 1 1 (-(k : Int)))).1 = (encodeFloat f2def (.num false 1 1 (-(k : Int))) .rne 0 false).1 := by
  have hsub : ({ f2def with sub := 0 } : FDef) = f2def := by decide
  have h0 := (f2_powers k h).1
  unfold Elementary.exactly
  dsimp only
  rw [hsub, h0, if_pos (by decide)]
  exact ⟨(by decide : (0 : Flags) &&& fUnderflow = 0), rfl⟩

theorem powerOfTwo_zero (s : Bool) (d : Nat) (e : Int) : (powerOfTwo (.num s 0 d e)).1 = 0x3FF0000000000000 := rfl

theorem powerOfTwo_int {n : Nat} {e : Int} {k : Nat} (hn : n ≠ 0) (hk : magOf n 1 e = k) (hle : k ≤ 1074) (d : Nat) :
    (powerOfTwo (.num true n d e)).1 = (encodeFloat f2def (.num false 1 1 (-(k : Int))) .rne 0 false).1 := by
  have hlog : ¬ (22 : Int) ≤ floorLog2 n 1 e := by
    rw [floorLog2_eq e hn one_pos, hk, ← Int.zpow_le_iff_le_log one_lt_two (by rw [← hk]; exact magOf_pos e hn one_pos), not_le]
    have : (k : ℚ) ≤ 1074 := by exact_mod_cast hle
    norm_num
    linarith
  have hfix : Elementary.fixed n e 0 = k := by
    rw [Elementary.fixed, Nat.cast_zero, Int.add_zero]
    exact (intParts_of_nat one_pos hk).1
  have hex : Elementary.exactOf .exp2 true n e = some (false, 1, -(k : Int)) := by
    simp only [Elementary.exactOf, isInteger_of_nat one_pos hk, if_true, if_neg hlog, hfix]
  have hf2 : fdefOf (fixedSlot 2) = f2def := rfl
  obtain ⟨h2, h1⟩ := exactly_power k hle
  unfold powerOfTwo
  dsimp only
  rw [if_neg hn, Elementary.atFinite]
  simp only [hf2, Elementary.modeOf, Elementary.enclosed, hex, h2]
  split
  · exact h1
  · exact h1

/-- 2^k for an integer k that binary64 reaches from 1 down. -/
theorem valueOf_powerOfTwo {k : ℤ} {s : Bool} {n : Nat} {e : Int} (hlo : -1074 ≤ k) (hhi : k ≤ 0) (hv : valueOf (.num s n 1 e) = some (k : ℚ)) :
    valueOf (decodeElem f2def (powerOfTwo (.num s n 1 e)).1) = some (2 ^ k) := by
  have hdec : ∀ x, decodeElem f2def x = decodeFloat f2def true x := fun x => if_pos (by decide)
  rw [valueOf_num_eq, Option.some.injEq] at hv
  by_cases hn : n = 0
  · subst hn
    have hk : k = 0 := by
      have : (k : ℚ) = 0 := by rw [← hv]; simp [magOf]
      exact_mod_cast this
    rw [powerOfTwo_zero, hk, show decodeElem f2def 0x3FF0000000000000 = .num false (2 ^ 52) 1 (-52) by decide +kernel, valueOf_num]
    norm_num
  · have hpos := magOf_pos e hn one_pos
    cases s with
    | false =>
      rw [signOne_false, one_mul] at hv
      have : (0 : ℚ) < k := by rw [← hv]; exact hpos
      have : 0 < k := by exact_mod_cast this
      omega
    | true =>
      obtain ⟨j, rfl⟩ : ∃ j : Nat, k = -(j : Int) := ⟨(-k).toNat, by omega⟩
      rw [signOne_true, Int.cast_neg, Int.cast_natCast, neg_one_mul, neg_inj] at hv
      rw [powerOfTwo_int hn hv (by omega), hdec]
      exact (f2_powers j (by omega)).2

theorem valueOf_powerOfTwo_inf : valueOf (decodeElem f2def (powerOfTwo (.inf true)).1) = some 0 := by
  have h : (powerOfTwo (.inf true)).1 = 0 := rfl
  rw [h, show decodeElem f2def 0 = valZero false by decide +kernel, valueOf_valZero]

/-! ## The order of values, −0 below +0 (R122) -/

/-- A value that has a place in the order. -/
def Ordered (v : Val) : Prop := Proper v ∧ v.isNan = false

/-- That place: infinities outside, numbers by value, and −0 below +0. -/
def valRank : Val → ℤ ×ₗ (ℚ ×ₗ ℕ)
  | .inf true => toLex (-1, toLex (0, 0))
  | .inf false => toLex (1, toLex (0, 0))
  | v => toLex (0, toLex (ratOf v, if v.isZero && v.sign then 0 else 1))

theorem isZero_iff {v : Val} (h : FiniteVal v) : v.isZero = true ↔ ratOf v = 0 := by
  obtain ⟨s, n, d, e, rfl, hd⟩ := h
  rw [ratOf_num_eq_zero hd]
  cases n <;> simp [Val.isZero]

theorem valRank_finite {v : Val} (h : FiniteVal v) : valRank v = toLex (0, toLex (ratOf v, if v.isZero && v.sign then 0 else 1)) := by
  obtain ⟨s, n, d, e, rfl, hd⟩ := h
  rfl

theorem ordered_cases {v : Val} (h : Ordered v) : FiniteVal v ∨ ∃ s, v = .inf s := by
  cases v with
  | num s n d e => exact .inl ⟨s, n, d, e, rfl, h.1 s n d e rfl⟩
  | inf s => exact .inr ⟨s, rfl⟩
  | nan q => cases h.2

theorem valBelow_finite {x y : Val} (hx : FiniteVal x) (hy : FiniteVal y) : valBelow x y = true ↔ valRank x < valRank y := by
  rw [valRank_finite hx, valRank_finite hy, Prod.Lex.toLex_lt_toLex, Prod.Lex.toLex_lt_toLex]
  rw [valBelow, valCompare_finite hx hy]
  rcases lt_trichotomy (ratOf x) (ratOf y) with h | h | h
  · simp [compare_lt_iff_lt.2 h, h]
  · have hz : x.isZero = y.isZero := by rw [Bool.eq_iff_iff, isZero_iff hx, isZero_iff hy, h]
    rw [h, compare_eq_iff_eq.2 rfl, hz]
    cases y.isZero <;> cases x.sign <;> cases y.sign <;> simp
  · simp [compare_gt_iff_gt.2 h, h.not_gt, h.ne']

theorem valBelow_iff {x y : Val} (hx : Ordered x) (hy : Ordered y) : valBelow x y = true ↔ valRank x < valRank y := by
  rcases ordered_cases hx with fx | ⟨s, rfl⟩
  · rcases ordered_cases hy with fy | ⟨t, rfl⟩
    · exact valBelow_finite fx fy
    · rw [valRank_finite fx]
      obtain ⟨s, n, d, e, rfl, hd⟩ := fx
      cases t <;> simp [valBelow, valCompare, valRank, Prod.Lex.toLex_lt_toLex]
  · rcases ordered_cases hy with fy | ⟨t, rfl⟩
    · rw [valRank_finite fy]
      obtain ⟨t, n, d, e, rfl, hd⟩ := fy
      cases s <;> simp [valBelow, valCompare, valRank, Prod.Lex.toLex_lt_toLex]
    · cases s <;> cases t <;> simp [valBelow, valCompare, valRank, Prod.Lex.toLex_lt_toLex, Val.isZero]

/-- The maximum is one of the values, and none of them is above it. -/
theorem maxVal_spec {x : Val} {ys : List Val} (hx : Ordered x) (hy : ∀ y ∈ ys, Ordered y) :
    maxVal x ys ∈ x :: ys ∧ ∀ y ∈ x :: ys, valRank y ≤ valRank (maxVal x ys) := by
  induction ys generalizing x with
  | nil => simp [maxVal]
  | cons y ys ih =>
    have hy0 := hy y List.mem_cons_self
    have hm : Ordered (if valBelow x y then y else x) := by split; exacts [hy0, hx]
    obtain ⟨h1, h2⟩ := ih hm fun z hz => hy z (List.mem_cons_of_mem _ hz)
    have hmax : maxVal x (y :: ys) = maxVal (if valBelow x y then y else x) ys := rfl
    have hle : valRank x ≤ valRank (if valBelow x y then y else x) ∧ valRank y ≤ valRank (if valBelow x y then y else x) := by
      split
      · next h => exact ⟨((valBelow_iff hx hy0).1 h).le, le_rfl⟩
      · next h => exact ⟨le_rfl, not_lt.1 fun h' => h ((valBelow_iff hx hy0).2 h')⟩
    rw [hmax]
    refine ⟨?_, fun z hz => ?_⟩
    · rcases List.mem_cons.1 h1 with h | h
      · rw [h]; split <;> simp
      · simp [h]
    · have htop := h2 _ List.mem_cons_self
      rcases List.mem_cons.1 hz with rfl | hz
      · exact hle.1.trans htop
      · rcases List.mem_cons.1 hz with rfl | hz
        · exact hle.2.trans htop
        · exact h2 z (List.mem_cons_of_mem _ hz)

theorem valBelow_of_rank_le {x y : Val} (hx : Ordered x) (hy : Ordered y) (h : valRank y ≤ valRank x) : valBelow x y = false := by
  rw [← Bool.not_eq_true, valBelow_iff hx hy]
  exact not_lt.2 h

/-- Nothing is above +∞ but itself. -/
theorem eq_inf_of_rank {v : Val} (hv : Ordered v) (h : valRank (.inf false) ≤ valRank v) : v = .inf false := by
  rcases ordered_cases hv with hf | ⟨s, rfl⟩
  · rw [valRank_finite hf, valRank, Prod.Lex.toLex_le_toLex] at h
    simp at h
  · cases s with
    | false => rfl
    | true => simp [valRank, Prod.Lex.toLex_le_toLex] at h

end Machine
end Sys2Proof
end

section
/-! PROOFS. The row of smrs assembled (R183). -/

namespace Sys2Proof
namespace Machine

theorem proper_decodeElem (f : FDef) (x : Nat) : Proper (decodeElem f x) := by
  unfold decodeElem
  split
  · exact proper_decodeFloat _ _ _
  · exact proper_valInt _ _

theorem finite_of_valueOf {v : Val} (hp : Proper v) {q : ℚ} (h : valueOf v = some q) : FiniteVal v ∧ ratOf v = q := by
  cases v with
  | num s n d e => exact ⟨⟨s, n, d, e, rfl, hp s n d e rfl⟩, ratOf_of_valueOf h⟩
  | inf | nan => cases h

/-- No product is a division by zero. -/
theorem exactMul_no_divZero (x y : Val) : ((exactMul x y).2 &&& fDivZero != 0) = false := by
  have hs : ∀ b : Bool, ((0 : Flags) ||| flagIf b fInvalid) &&& fDivZero = 0 ∧ (fInvalid ||| flagIf b fInvalid) &&& fDivZero = 0 := by decide
  unfold exactMul signal
  dsimp only
  generalize [x, y].any Val.isSignalling = b
  have h : (valMul x y).2 = 0 ∨ (valMul x y).2 = fInvalid := by
    unfold valMul
    repeat' split
    all_goals simp
  rcases h with h | h
  · rw [h, (hs b).1]; rfl
  · rw [h, (hs b).2]; rfl

theorem encodeWith_exactMul (f : FDef) (rm : Round) (pos : Nat) (x y : Val) :
    (encodeWith f rm pos (exactMul x y)).1 = (encodeElem f (exactMul x y).1 rm pos false).1 := by
  rw [encodeWith, exactMul_no_divZero]

theorem encodeWith_plain (f : FDef) (rm : Round) (pos : Nat) (v : Val) : (encodeWith f rm pos (v, 0)).1 = (encodeElem f v rm pos false).1 := by
  have hz : ((0 : Flags) &&& fDivZero != 0) = false := by decide
  rw [encodeWith, hz]

/-- A list by its places. -/
theorem map_range_getD {α : Type} (xs : List α) (d : α) : xs = (List.range xs.length).map (fun n => xs.getD n d) := by
  refine List.ext_getElem (by simp) fun n h1 h2 => ?_
  simp [List.getD_eq_getElem?_getD, h1]

theorem take_eq_map_range {α : Type} (xs : List α) (d : α) {n : Nat} (h : n ≤ xs.length) : xs.take n = (List.range n).map (fun k => xs.getD k d) := by
  refine List.ext_getElem (by simp [h]) fun k h1 h2 => ?_
  have hk : k < n := by simpa using h2
  simp [List.getD_eq_getElem?_getD, (hk.trans_le h)]

theorem encodeRow_map (g : FDef) (rm : Round) (pos : Nat → Nat) (n : Nat) (v : Nat → Val × Flags) :
    encodeRow g rm pos ((List.range n).map v) = (List.range n).map (fun k => encodeWith g rm (pos k) (v k)) := by
  rw [encodeRow, List.length_map, List.length_range, zip_range_map, List.map_map]
  rfl

theorem getD_map_range {α : Type} (n : Nat) (v : Nat → α) (d : α) {k : Nat} (h : k < n) : ((List.range n).map v).getD k d = v k := by
  simp [List.getD_eq_getElem?_getD, h]

/-! ## A row of any kind -/

section
variable (g : FDef) (rm : Round) (posA posD : Nat → Nat) (m : Val) (alpha : Val) (ns : Nat) (p : Nat → Val) (rsum : Val) (ds : List Nat) (fl : Flags)

/-- Column `n` of the rescaled scores. -/
def scoreBits (n : Nat) : Nat := (encodeElem g (p n) rm (posA n) false).1

/-- The new sum of a row. -/
def rowSum : Val :=
  ((List.range ns).map (fun n => decodeElem g (scoreBits g rm posA p n))).foldl (fun acc x => (valAdd false acc x).1) (exactMul rsum alpha).1

theorem softRow_a : (softRow g rm posA posD m alpha ((List.range ns).map p) rsum ds fl).a =
    (List.range ns).map (scoreBits g rm posA p) ++ List.replicate (64 - ns) 0 := by
  unfold softRow
  simp only [List.map_map, encodeRow_map, List.length_map, List.length_range]
  congr 1
  exact List.map_congr_left fun n _ => encodeWith_plain g rm (posA n) (p n)

theorem softRow_a_getD (n : Nat) :
    (softRow g rm posA posD m alpha ((List.range ns).map p) rsum ds fl).a.getD n 0 = if n < ns then scoreBits g rm posA p n else 0 := by
  rw [softRow_a]
  split
  · next hlt => rw [List.getD_append _ _ _ _ (by simpa using hlt), getD_map_range _ _ _ hlt]
  · next hge => rw [List.getD_append_right _ _ _ _ (by simpa using hge)]; simp [List.getD_eq_getElem?_getD]

variable {ds} in
theorem softRow_d_getD (h : ds.length = 64) {n : Nat} (hn : n < 64) :
    (softRow g rm posA posD m alpha ((List.range ns).map p) rsum ds fl).d.getD n 0 =
      (encodeElem g (exactMul (decodeElem g (ds.getD n 0)) alpha).1 rm (posD n) false).1 := by
  have hd : ds.map (fun x => exactMul (decodeElem g x) alpha) = (List.range 64).map (fun k => exactMul (decodeElem g (ds.getD k 0)) alpha) := by
    conv_lhs => rw [map_range_getD ds 0, h]
    rw [List.map_map]
    rfl
  unfold softRow
  simp only [hd, encodeRow_map, List.map_map]
  rw [getD_map_range _ _ _ hn]
  exact encodeWith_exactMul ..

theorem softRow_rmax : (softRow g rm posA posD m alpha ((List.range ns).map p) rsum ds fl).rmax = (encodeElem f2def m .rne 0 false).1 := rfl

theorem softRow_rsum : (softRow g rm posA posD m alpha ((List.range ns).map p) rsum ds fl).rsum =
    (encodeElem f2def (rowSum g rm posA alpha ns p rsum) .rne 0 false).1 := by
  have hp : ∀ n, (encodeWith g rm (posA n) (p n, 0)).1 = scoreBits g rm posA p n := fun n => encodeWith_plain g rm (posA n) (p n)
  unfold softRow rowSum
  simp only [List.map_map, encodeRow_map, List.foldl_map]
  congr 2
  simp only [Function.comp_apply, hp]

/-- The sum of finite scores and of the old sum, scaled. -/
theorem valueOf_rowSum (hr : Proper rsum) (ha : Proper alpha) {r a : ℚ} {x : Nat → ℚ} (hv : valueOf rsum = some r) (hva : valueOf alpha = some a)
    (hx : ∀ n, n < ns → valueOf (decodeElem g (scoreBits g rm posA p n)) = some (x n)) :
    valueOf (rowSum g rm posA alpha ns p rsum) = some (r * a + ((List.range ns).map x).sum) := by
  obtain ⟨fr, rfl⟩ := finite_of_valueOf hr hv
  obtain ⟨fa, rfl⟩ := finite_of_valueOf ha hva
  have hx' : ∀ n, n < ns → FiniteVal (decodeElem g (scoreBits g rm posA p n)) ∧ ratOf (decodeElem g (scoreBits g rm posA p n)) = x n := fun n hn =>
    finite_of_valueOf (proper_decodeElem _ _) (hx n hn)
  obtain ⟨fm, hm, -⟩ := exactMul_finite fr fa
  obtain ⟨h1, h2, -⟩ := foldl_valAdd (rdn := false) (ts := (List.range ns).map (fun n => decodeElem g (scoreBits g rm posA p n)))
    (by simpa using fun n hn => (hx' n hn).1) fm
  rw [rowSum, h1.valueOf, h2, hm, List.map_map]
  congr 3
  exact List.map_congr_left fun n hn => (hx' n (List.mem_range.1 hn)).2

end

/-! ## smrs_row -/

section
variable (w : Word) (rm : Round) (posA posD : Nat → Nat) (ns : Nat) (c : Val) (as ds : List Nat) (rmax rsum : Word)

/-- The score t[n]. -/
def scoreVal (g : FDef) (c : Val) (as : List Nat) (n : Nat) : Val :=
  decodeElem f2def (encodeElem f2def (exactMul c (decodeElem g (as.getD n 0))).1 .rne 0 false).1

theorem scoresOf_vals (g : FDef) {ns : Nat} {as : List Nat} (h : ns ≤ as.length) :
    (scoresOf g c (as.take ns)).map (fun x => decodeElem f2def x.1) = (List.range ns).map (scoreVal g c as) := by
  rw [scoresOf, take_eq_map_range as 0 h, List.map_map, List.map_map]
  refine List.map_congr_left fun n _ => ?_
  rw [Function.comp_apply, Function.comp_apply, encodeWith_exactMul]
  rfl

/-- The power of two of a value, as binary64. -/
def powerVal (x : Val) : Val := decodeElem f2def (powerOfTwo x).1

/-- A row that has a NaN, or a maximum of +∞. -/
def BadRow (g : FDef) (old : Val) : Prop :=
  old.isNan = true ∨ old = .inf false ∨ ∃ n, n < ns ∧ ((scoreVal g c as n).isNan = true ∨ scoreVal g c as n = .inf false)

variable {ns as}

/-- The new maximum of a row. -/
def newMax (g : FDef) (c : Val) (as : List Nat) (ns : Nat) (old : Val) : Val := maxVal old ((List.range ns).map (scoreVal g c as))

theorem smrsRow_eq (g : FDef) (h : ns ≤ as.length) (hn : ∀ n, n < ns → (scoreVal g c as n).isNan = false) (ho : (f2val rmax).isNan = false) :
    smrsRow g rm posA posD ns c as ds rmax rsum =
      if newMax g c as ns (f2val rmax) == .inf false then nanRow g (flagsOf (scoresOf g c (as.take ns)))
      else if newMax g c as ns (f2val rmax) == .inf true then
        softRow g rm posA posD (newMax g c as ns (f2val rmax)) (valInt 1 0) ((List.range ns).map (fun _ => valZero false)) (f2val rsum) ds
          (flagsOf (scoresOf g c (as.take ns)))
      else softRow g rm posA posD (newMax g c as ns (f2val rmax)) (powerVal (difference (f2val rmax) (newMax g c as ns (f2val rmax))))
        ((List.range ns).map (fun n => powerVal (difference (scoreVal g c as n) (newMax g c as ns (f2val rmax))))) (f2val rsum) ds
        (flagsOf (scoresOf g c (as.take ns)) ||| (powerOfTwo (difference (f2val rmax) (newMax g c as ns (f2val rmax)))).2 |||
          flagsOf ((List.range ns).map (fun n => powerOfTwo (difference (scoreVal g c as n) (newMax g c as ns (f2val rmax)))))) := by
  have hfilter : ((List.range ns).map (scoreVal g c as)).filter (fun v => !v.isNan) = (List.range ns).map (scoreVal g c as) :=
    List.filter_eq_self.2 (by simpa using hn)
  have hany : ((List.range ns).map (scoreVal g c as)).any Val.isNan = false := List.any_eq_false.2 (by simpa using hn)
  have hrep : List.replicate ns (valZero false) = (List.range ns).map (fun _ => valZero false) := by simp
  unfold smrsRow
  simp only [scoresOf_vals c g h, hfilter, hany, ho, Bool.false_or, hrep, List.map_map]
  rfl

theorem smrsRow_nan (g : FDef) (h : ns ≤ as.length) (hn : (f2val rmax).isNan = true ∨ ∃ n, n < ns ∧ (scoreVal g c as n).isNan = true) :
    smrsRow g rm posA posD ns c as ds rmax rsum = nanRow g (flagsOf (scoresOf g c (as.take ns))) := by
  have hany : (((List.range ns).map (scoreVal g c as)).any Val.isNan || (f2val rmax).isNan) = true := by
    rw [Bool.or_eq_true, List.any_eq_true]
    rcases hn with h | ⟨n, hn, h⟩
    · exact .inr h
    · exact .inl ⟨_, List.mem_map_of_mem (List.mem_range.2 hn), h⟩
  unfold smrsRow
  simp only [scoresOf_vals c g h, hany, Bool.true_or, if_true]

theorem ordered_f2 {x : Nat} (h : (decodeElem f2def x).isNan = false) : Ordered (decodeElem f2def x) := ⟨proper_decodeElem _ _, h⟩

/-- The new maximum, of scores that are no NaN. -/
theorem newMax_spec (g : FDef) (hn : ∀ n, n < ns → (scoreVal g c as n).isNan = false) (ho : (f2val rmax).isNan = false) :
    Ordered (newMax g c as ns (f2val rmax)) ∧
    (newMax g c as ns (f2val rmax) = f2val rmax ∨ ∃ n, n < ns ∧ newMax g c as ns (f2val rmax) = scoreVal g c as n) ∧
    valRank (f2val rmax) ≤ valRank (newMax g c as ns (f2val rmax)) ∧
    ∀ n, n < ns → valRank (scoreVal g c as n) ≤ valRank (newMax g c as ns (f2val rmax)) := by
  have hord : ∀ y ∈ f2val rmax :: (List.range ns).map (scoreVal g c as), Ordered y := by
    simp only [List.mem_cons, List.mem_map, List.mem_range, forall_eq_or_imp, forall_exists_index, and_imp]
    exact ⟨ordered_f2 ho, fun y n hlt h => h ▸ ordered_f2 (hn n hlt)⟩
  obtain ⟨h1, h2⟩ := maxVal_spec (hord _ List.mem_cons_self) (fun y hy => hord y (List.mem_cons_of_mem _ hy))
  refine ⟨hord _ h1, ?_, h2 _ List.mem_cons_self, fun n hlt => h2 _ (List.mem_cons_of_mem _ (List.mem_map_of_mem (List.mem_range.2 hlt)))⟩
  rcases List.mem_cons.1 h1 with h | h
  · exact .inl h
  · obtain ⟨n, hlt, h⟩ := List.mem_map.1 h
    exact .inr ⟨n, List.mem_range.1 hlt, h.symm⟩

/-- A bad row. -/
theorem smrsRow_bad (g : FDef) (h : ns ≤ as.length) (hb : BadRow ns c as g (f2val rmax)) :
    smrsRow g rm posA posD ns c as ds rmax rsum = nanRow g (flagsOf (scoresOf g c (as.take ns))) := by
  by_cases hnan : (f2val rmax).isNan = true ∨ ∃ n, n < ns ∧ (scoreVal g c as n).isNan = true
  · exact smrsRow_nan rm posA posD c ds rmax rsum g h hnan
  · simp only [not_or, not_exists, not_and, Bool.not_eq_true] at hnan
    obtain ⟨ho, hn⟩ := hnan
    obtain ⟨hord, -, hle, hles⟩ := newMax_spec c rmax g hn ho
    have hinf : newMax g c as ns (f2val rmax) = .inf false := by
      rcases hb with h | h | ⟨n, hlt, h | h⟩
      · rw [ho] at h; cases h
      · exact eq_inf_of_rank hord (h ▸ hle)
      · rw [hn n hlt] at h; cases h
      · exact eq_inf_of_rank hord (h ▸ hles n hlt)
    rw [smrsRow_eq rm posA posD c ds rmax rsum g h hn ho, hinf, if_pos (by simp)]

/-- Any other row. -/
theorem smrsRow_good (g : FDef) (h : ns ≤ as.length) (hb : ¬ BadRow ns c as g (f2val rmax)) :
    ∃ (m : Val) (fl : Flags), (m = f2val rmax ∨ ∃ n, n < ns ∧ m = scoreVal g c as n) ∧ valBelow m (f2val rmax) = false ∧
      (∀ n, n < ns → valBelow m (scoreVal g c as n) = false) ∧
      smrsRow g rm posA posD ns c as ds rmax rsum =
        softRow g rm posA posD m (if m = .inf true then valInt 1 0 else powerVal (difference (f2val rmax) m))
          ((List.range ns).map (fun n => if m = .inf true then valZero false else powerVal (difference (scoreVal g c as n) m))) (f2val rsum) ds fl := by
  simp only [BadRow, not_or, not_exists, not_and, Bool.not_eq_true] at hb
  obtain ⟨ho, hoi, hs⟩ := hb
  have hn : ∀ n, n < ns → (scoreVal g c as n).isNan = false := fun n hlt => (hs n hlt).1
  obtain ⟨hord, hmem, hle, hles⟩ := newMax_spec c rmax g hn ho
  have hrow := smrsRow_eq rm posA posD c ds rmax rsum g h hn ho
  have hne : newMax g c as ns (f2val rmax) ≠ .inf false := by
    rcases hmem with h | ⟨n, hlt, h⟩ <;> rw [h]
    · exact hoi
    · exact (hs n hlt).2
  generalize newMax g c as ns (f2val rmax) = m at hord hmem hle hles hrow hne
  rw [if_neg (by simpa using hne)] at hrow
  obtain ⟨fl, hfl⟩ : ∃ fl, smrsRow g rm posA posD ns c as ds rmax rsum =
      softRow g rm posA posD m (if m = .inf true then valInt 1 0 else powerVal (difference (f2val rmax) m))
        ((List.range ns).map (fun n => if m = .inf true then valZero false else powerVal (difference (scoreVal g c as n) m))) (f2val rsum) ds fl := by
    by_cases hm : m = .inf true
    · rw [if_pos (by simpa using hm)] at hrow
      rw [hm] at hrow
      refine ⟨flagsOf (scoresOf g c (as.take ns)), ?_⟩
      simp only [hm, if_true]
      exact hrow
    · rw [if_neg (by simpa using hm)] at hrow
      refine ⟨flagsOf (scoresOf g c (as.take ns)) ||| (powerOfTwo (difference (f2val rmax) m)).2 |||
        flagsOf ((List.range ns).map (fun n => powerOfTwo (difference (scoreVal g c as n) m))), ?_⟩
      simp only [hm, if_false]
      exact hrow
  exact ⟨m, fl, hmem, valBelow_of_rank_le hord (ordered_f2 ho) hle,
    fun n hlt => valBelow_of_rank_le hord (ordered_f2 (hn n hlt)) (hles n hlt), hfl⟩

end

/-- The fields of a NaN row. -/
theorem nanRow_spec (g : FDef) (fl : Flags) :
    (∀ n, n < 64 → (nanRow g fl).a.getD n 0 = canonicalNan g ∧ (nanRow g fl).d.getD n 0 = canonicalNan g) ∧
    (decodeElem f2def (nanRow g fl).rmax).isNan = true ∧ (decodeElem f2def (nanRow g fl).rsum).isNan = true ∧
    (nanRow g fl).flags &&& fInvalid = fInvalid := by
  have hnan : (decodeElem f2def (canonicalNan f2def)).isNan = true := by decide +kernel
  have hfl : ∀ fl : Flags, (fl ||| fInvalid) &&& fInvalid = fInvalid := by decide
  refine ⟨fun n hn => ?_, hnan, hnan, hfl fl⟩
  have hlen : n < (List.replicate 64 (canonicalNan g)).length := by rwa [List.length_replicate]
  have hget : (List.replicate 64 (canonicalNan g)).getD n 0 = canonicalNan g := by rw [List.getD_eq_getElem _ _ hlen, List.getElem_replicate]
  exact ⟨hget, hget⟩

/-- Rows are as long as a tile is wide. -/
theorem smrsRow_length (g : FDef) (rm : Round) (posA posD : Nat → Nat) {ns : Nat} (c : Val) {as ds : List Nat} (rmax rsum : Word) (hns : ns ≤ 64)
    (ha : as.length = 64) (hd : ds.length = 64) :
    (smrsRow g rm posA posD ns c as ds rmax rsum).a.length = 64 ∧ (smrsRow g rm posA posD ns c as ds rmax rsum).d.length = 64 := by
  by_cases hb : BadRow ns c as g (f2val rmax)
  · rw [smrsRow_bad rm posA posD c ds rmax rsum g (by omega) hb]
    simp [nanRow]
  · obtain ⟨m, fl, -, -, -, h⟩ := smrsRow_good rm posA posD c ds rmax rsum g (by omega) hb
    rw [h, softRow_a]
    constructor
    · simp; omega
    · simp [softRow, encodeRow, hd]

end Machine
end Sys2Proof
end

section
/-! PROOFS. Products and the rescale at a context: tiles, cells and rows (R179 to R183). -/

namespace Sys2Proof
namespace Machine

/-! ## Tiles -/

theorem Tile.cell_full (t : Tile) {k : Nat} (h : k < 4096) : t.full.cell k = t.cell k := by
  have hc : t.full.cells = (List.range 4096).map t.cell := by rw [Tile.full]
  rw [Tile.cell, hc, getD_map_range _ _ _ h]

theorem Pontil.tile_setTile_same (p : Pontil) (a : AReg) (t : Tile) : (p.setTile a t).tile a.val = t :=
  getD_setAt_same _ _ _ _ (by rw [List.length_map, List.length_range]; exact a.isLt)

theorem Pontil.tile_setTile_other (p : Pontil) {a r : AReg} (t : Tile) (h : r ≠ a) : (p.setTile a t).tile r.val = p.tile r.val := by
  have hne : a.val ≠ r.val := fun h' => h (Fin.ext h'.symm)
  exact (getD_setAt_other _ _ _ _ _ hne).trans (getD_map_range 16 p.tile _ r.isLt)

/-- Cells that are not written stay. -/
theorem getD_foldl_setAt_other {α : Type} (cs : List (Nat × α)) (l : List α) (d : α) {k : Nat} (h : ∀ c ∈ cs, c.1 ≠ k) :
    (cs.foldl (fun l c => setAt l c.1 c.2) l).getD k d = l.getD k d := by
  induction cs generalizing l with
  | nil => rfl
  | cons c cs ih =>
    rw [List.foldl_cons, ih _ (fun c' hc => h c' (List.mem_cons_of_mem _ hc)), getD_setAt_other _ _ _ _ _ (h c List.mem_cons_self)]

/-- A cell that is written once holds what is written. -/
theorem getD_foldl_setAt_mem {α : Type} {cs : List (Nat × α)} (hn : (cs.map (·.1)).Nodup) {l : List α} (d : α) {k : Nat} {v : α} (hk : k < l.length)
    (h : (k, v) ∈ cs) : (cs.foldl (fun l c => setAt l c.1 c.2) l).getD k d = v := by
  induction cs generalizing l with
  | nil => cases h
  | cons c cs ih =>
    rw [List.map_cons, List.nodup_cons] at hn
    rw [List.foldl_cons]
    rcases List.mem_cons.1 h with rfl | h
    · have hother : ∀ c ∈ cs, c.1 ≠ k := fun c hc hck => by
        have hmem := List.mem_map_of_mem (f := Prod.fst) hc
        rw [hck] at hmem
        exact hn.1 hmem
      rw [getD_foldl_setAt_other _ _ _ hother, getD_setAt_same _ _ _ _ hk]
    · exact ih hn.2 (by rwa [length_setAt]) h

theorem withCells_cells (t : Tile) (cs : List (Nat × Word)) : (withCells t cs).cells = cs.foldl (fun l c => setAt l c.1 c.2) t.full.cells := by
  rw [withCells]

theorem length_full (t : Tile) : t.full.cells.length = 4096 := by rw [Tile.full, List.length_map, List.length_range]

theorem withCells_other (t : Tile) {cs : List (Nat × Word)} {k : Nat} (hk : k < 4096) (h : ∀ c ∈ cs, c.1 ≠ k) : (withCells t cs).cell k = t.cell k := by
  rw [Tile.cell, withCells_cells, getD_foldl_setAt_other cs _ _ h, ← Tile.cell, t.cell_full hk]

theorem withCells_mem (t : Tile) {cs : List (Nat × Word)} (hn : (cs.map (·.1)).Nodup) {k : Nat} {v : Word} (hk : k < 4096) (h : (k, v) ∈ cs) :
    (withCells t cs).cell k = v := by
  rw [Tile.cell, withCells_cells, getD_foldl_setAt_mem hn _ (by rwa [length_full]) h]

/-! ## The cells of a product -/

/-- The place of the `i`-th cell of a product of `n` columns. -/
def cellPlace (n i : Nat) : Nat := 64 * (i / n) + i % n

section
variable (x : Product) (g : FDef) (acc sparse : Bool) (t : Tile) (as bs : List (List EspElem)) (rm : Round) (phi : Nat)

theorem productCells_places (is : List Nat) (s : State) :
    (productCells x g acc sparse t as bs rm phi is s).1.map (·.1) = is.map (cellPlace x.n) := by
  induction is generalizing s with
  | nil => rfl
  | cons i is ih =>
    unfold productCells
    dsimp only
    rw [List.map_cons, List.map_cons, ih]
    rfl

/-- The bits of one cell, where its operands are values of its kind. -/
def cellBits (m n : Nat) : Nat :=
  if g.isInt then (integerCell (if acc then (t.cell (64 * m + n)).toInt else 0)
    ((integerSum x.fa x.fb (pairsOf sparse (as.getD m []) (bs.getD n []))).getD 0)).1
  else (floatCell g x.fused (priorOf g acc (t.cell (64 * m + n))) (pairsOf sparse (as.getD m []) (bs.getD n [])) rm (n % 32 + phi)).1

theorem productCell_bits (s : State) (m n : Nat)
    (h : g.isInt = true → (integerSum x.fa x.fb (pairsOf sparse (as.getD m []) (bs.getD n []))).isSome = true) :
    (productCell s x g acc (t.cell (64 * m + n)) (pairsOf sparse (as.getD m []) (bs.getD n [])) rm (n % 32 + phi)).1.1 =
      cellBits x g acc sparse t as bs rm phi m n := by
  unfold productCell cellBits
  split
  · next hi =>
    obtain ⟨v, hv⟩ := Option.isSome_iff_exists.1 (h hi)
    rw [hv]
    rfl
  · rfl

theorem productCells_mem (h : g.isInt = true → ∀ m n, (integerSum x.fa x.fb (pairsOf sparse (as.getD m []) (bs.getD n []))).isSome = true)
    {is : List Nat} {i : Nat} (hi : i ∈ is) (s : State) :
    (cellPlace x.n i, BitVec.ofNat 64 (cellBits x g acc sparse t as bs rm phi (i / x.n) (i % x.n))) ∈
      (productCells x g acc sparse t as bs rm phi is s).1 := by
  induction is generalizing s with
  | nil => cases hi
  | cons j is ih =>
    unfold productCells
    dsimp only
    rcases List.mem_cons.1 hi with rfl | hi
    · rw [productCell_bits x g acc sparse t as bs rm phi s _ _ (fun h' => h h' _ _)]
      exact List.mem_cons_self
    · exact List.mem_cons_of_mem _ (ih hi _)

end

/-- The shapes have 1 to 64 rows and columns (Table 9.4). -/
theorem shapeOf_le {code m n k wd : Nat} (h : shapeOf code = some (m, n, k, wd)) : m ≤ 64 ∧ 0 < n ∧ n ≤ 64 := by
  unfold shapeOf at h
  split at h
  all_goals cases h
  all_goals omega

theorem checkProduct_shape {p : Pontil} {a b : QReg} {f : Slot} {shape : Fin 32} {x : Product} (h : checkProduct p a b f shape = .ok x) :
    x.m ≤ 64 ∧ 0 < x.n ∧ x.n ≤ 64 := by
  unfold checkProduct at h
  dsimp only at h
  split at h
  · cases h
  · split at h
    · split at h
      · cases h
      · next hs =>
        split at h
        · cases h
        · split at h
          · cases h
          · cases h
            exact shapeOf_le hs
    · cases h

/-- Two cells of a product of at most 64 columns have two places. -/
theorem cellPlace_eq {n i m k : Nat} (hn : 0 < n) (h64 : n ≤ 64) (hk : k < 64) (h : cellPlace n i = 64 * m + k) : i / n = m ∧ i % n = k := by
  have := Nat.mod_lt i hn
  unfold cellPlace at h
  omega

theorem nodup_cellPlaces {n : Nat} (hn : 0 < n) (h64 : n ≤ 64) (j : Nat) : ((List.range j).map (cellPlace n)).Nodup := by
  refine List.Nodup.map (fun a b h => ?_) List.nodup_range
  have hb := Nat.mod_lt b hn
  obtain ⟨h1, h2⟩ := cellPlace_eq (m := b / n) (k := b % n) hn h64 (by omega) h
  rw [← Nat.div_add_mod a n, ← Nat.div_add_mod b n, h1, h2]

/-! ## mma and mmas -/

theorem flags_or_and (a b : Flags) : (a ||| b) &&& a = a := by revert a b; decide

section
variable {s : State} {p : Pontil} {i : Instr}

theorem PontilPerforms.running (h : PontilPerforms s p i) : p.state = .running := h.1.2.2.1

/-- The results of a context that keeps its program counter, counters and loops move it on. -/
theorem goesOn_advance {q : Pontil} (h : PontilPerforms s p i) (hpc : q.pc = p.pc) (hlc : q.lc = p.lc) (hl : q.loops = p.loops)
    (hs : q.state = p.state) : GoesOn p q.advance := by
  refine ⟨?_, ?_, ?_, hs.trans h.running⟩ <;> simp only [Pontil.advance, hpc, hlc, hl]

variable {sparse : Bool} {d : AReg} {a b : QReg} {f : Slot} {rm : Round} {shape : Fin 32} {acc : Bool}

theorem product_stops (h : PontilPerforms s p i) {e : Code} (he : checkProduct p a b f shape = .error e) :
    PontilAfter (.next (runMatrix i (fun p s => runProduct s p sparse d a b f rm shape acc) s)) p (fun _ p' =>
      p'.state = .stopped ∧ p'.code = codeNumber e ∧ p'.pc = p.pc ∧ p'.tiles = p.tiles) := by
  obtain ⟨q, hq, h1, h2, h3, h4⟩ := pontil?_stopPontil s.popped p e p.pc
  refine ⟨_, q, rfl, ?_, h1, h2, h3, h4⟩
  have hb : runProduct s.popped p sparse d a b f rm shape acc = .stop e p.pc := by simp only [runProduct, he]
  simp only [runMatrix_performs h, hb]
  exact hq

end

/-! ## What a product draws -/

/-- Nothing but the count of the choices made differs. -/
def ChoosesOnly (s s' : State) : Prop := s' = { s with choice := s'.choice }

theorem ChoosesOnly.refl (s : State) : ChoosesOnly s s := rfl

theorem ChoosesOnly.trans {a b c : State} (h₁ : ChoosesOnly a b) (h₂ : ChoosesOnly b c) : ChoosesOnly a c := by
  unfold ChoosesOnly at *
  rw [h₁] at h₂
  exact h₂

theorem ChoosesOnly.pick (s : State) (n : Nat) : ChoosesOnly s (s.pick n).2 := by
  unfold State.pick
  split <;> rfl

theorem ChoosesOnly.fields {a b : State} (h : ChoosesOnly a b) :
    b.pontils = a.pontils ∧ b.workgroups = a.workgroups ∧ b.launches = a.launches ∧ b.ops = a.ops ∧ b.mem = a.mem := by
  rw [h]
  exact ⟨rfl, rfl, rfl, rfl, rfl⟩

theorem choosesOnly_freeElem (p : Nat) (s : State) : ChoosesOnly s (freeElem p s).2 :=
  ((((ChoosesOnly.pick _ _).trans (ChoosesOnly.pick _ _)).trans (ChoosesOnly.pick _ _)).trans (ChoosesOnly.pick _ _)).trans (ChoosesOnly.pick _ _)

theorem choosesOnly_freeRow (p n : Nat) (s : State) : ChoosesOnly s (freeRow p n s).2 := by
  induction n generalizing s with
  | zero => rfl
  | succ n ih => exact (ih s).trans (choosesOnly_freeElem _ _)

theorem choosesOnly_freeRows (p cols n : Nat) (s : State) : ChoosesOnly s (freeRows p cols n s).2 := by
  induction n generalizing s with
  | zero => rfl
  | succ n ih => exact (ih s).trans (choosesOnly_freeRow _ _ _)

theorem choosesOnly_holedRow (xs : List EspElem) (s : State) : ChoosesOnly s (holedRow xs s).2 := by
  induction xs generalizing s with
  | nil => rfl
  | cons x xs ih => exact (ChoosesOnly.pick s 2).trans (ih _)

theorem choosesOnly_holedRows (xs : List (List EspElem)) (s : State) : ChoosesOnly s (holedRows xs s).2 := by
  induction xs generalizing s with
  | nil => rfl
  | cons x xs ih => exact (choosesOnly_holedRow x s).trans (ih _)

theorem choosesOnly_tileOperand (s : State) (esp : List EspRegion) (o : Word) (pl units rows cols : Nat) :
    ChoosesOnly s (tileOperand s esp o pl units rows cols).2 := by
  unfold tileOperand
  dsimp only
  split
  · split
    · rfl
    · split
      · rfl
      · exact choosesOnly_holedRows _ _
  · split
    · rfl
    · exact choosesOnly_freeRows _ _ _ _

theorem choosesOnly_productCell (s : State) (x : Product) (g : FDef) (acc : Bool) (cell : Word) (ps : List (Val × Val)) (rm : Round) (pos : Nat) :
    ChoosesOnly s (productCell s x g acc cell ps rm pos).2 := by
  unfold productCell
  split
  · split
    · rfl
    · exact ChoosesOnly.pick _ _
  · rfl

theorem choosesOnly_productCells (x : Product) (g : FDef) (acc sparse : Bool) (t : Tile) (as bs : List (List EspElem)) (rm : Round) (phi : Nat)
    (is : List Nat) (s : State) : ChoosesOnly s (productCells x g acc sparse t as bs rm phi is s).2.2 := by
  induction is generalizing s with
  | nil => rfl
  | cons i is ih => exact (choosesOnly_productCell _ _ _ _ _ _ _ _).trans (ih _)

/-- The context differs, and its step counted events and made choices: no other context, no thread and no byte differs. -/
theorem onlyContext_of_choosesOnly {s z : State} {p q : Pontil} (hz : ChoosesOnly s.popped z) (hq : q.id = p.id) (peers : List PeerEntry) (die num n : Nat) :
    SameMemory s ({ z.count die num n with peers := peers }.setPontil q) ∧ OnlyContext s ({ z.count die num n with peers := peers }.setPontil q) p := by
  obtain ⟨hpon, hwg, hl, ho, hmem⟩ := hz.fields
  exact ⟨fun l => congrArg (fun m => memGet m l) hmem, onlyContext_setPontil hq hpon hwg hl ho peers⟩

/-! ## The tile after a product -/

/-- The cells that a product writes. -/
def productTile (s : State) (p : Pontil) (x : Product) (sparse : Bool) (d : AReg) (f : Slot) (rm : Round) (acc : Bool) :
    List (Nat × Word) × Flags × State :=
  let g := fdefOf (p.fdef f.val)
  let ra := tileOperand s p.esp x.oa (planesOf x.fa) (footprint x.oa x.fa) x.m x.k
  let rb := tileOperand ra.2 p.esp x.ob (planesOf x.fb) (footprint x.ob x.fb) x.n x.k
  productCells x g acc sparse (p.tile d.val) ra.1 rb.1 (effRm rm g) p.phi (List.range (x.m * x.n)) rb.2

theorem choosesOnly_productTile (s : State) (p : Pontil) (x : Product) (sparse : Bool) (d : AReg) (f : Slot) (rm : Round) (acc : Bool) :
    ChoosesOnly s (productTile s p x sparse d f rm acc).2.2 :=
  ((choosesOnly_tileOperand _ _ _ _ _ _ _).trans (choosesOnly_tileOperand _ _ _ _ _ _ _)).trans (choosesOnly_productCells _ _ _ _ _ _ _ _ _ _ _)

section
variable {s : State} {p : Pontil} {x : Product} (sparse : Bool) (d : AReg) (f : Slot) (rm : Round) (acc : Bool)

theorem productTile_places (s : State) (p : Pontil) (x : Product) :
    (productTile s p x sparse d f rm acc).1.map (·.1) = (List.range (x.m * x.n)).map (cellPlace x.n) := productCells_places ..

/-- Outside its rows and columns a product leaves the tile as it is. -/
theorem productTile_other (hn : 0 < x.n) (hn64 : x.n ≤ 64) {m n : Nat} (hm : m < 64) (hk : n < 64) (h : x.m ≤ m ∨ x.n ≤ n) :
    (withCells (p.tile d.val) (productTile s p x sparse d f rm acc).1).cell (64 * m + n) = (p.tile d.val).cell (64 * m + n) := by
  refine withCells_other _ (by omega) fun c hc hck => ?_
  have hmem : c.1 ∈ (List.range (x.m * x.n)).map (cellPlace x.n) := by
    rw [← productTile_places sparse d f rm acc s p x]
    exact List.mem_map_of_mem hc
  obtain ⟨i, hi, hic⟩ := List.mem_map.1 hmem
  obtain ⟨h1, h2⟩ := cellPlace_eq hn hn64 hk (hic.trans hck)
  have hlt : i / x.n < x.m := Nat.div_lt_of_lt_mul (by rw [Nat.mul_comm]; exact List.mem_range.1 hi)
  have hmod := Nat.mod_lt i hn
  omega

/-- Inside them each cell is that of its row and column. -/
theorem productTile_cell (hm64 : x.m ≤ 64) (hn64 : x.n ≤ 64) {as bs : List (List EspElem)}
    (ha : tileOperand s p.esp x.oa (planesOf x.fa) (footprint x.oa x.fa) x.m x.k = (as, s))
    (hb : tileOperand s p.esp x.ob (planesOf x.fb) (footprint x.ob x.fb) x.n x.k = (bs, s))
    (hint : (fdefOf (p.fdef f.val)).isInt = true → ∀ m n, (integerSum x.fa x.fb (pairsOf sparse (as.getD m []) (bs.getD n []))).isSome = true)
    {m n : Nat} (hm : m < x.m) (hn : n < x.n) :
    (withCells (p.tile d.val) (productTile s p x sparse d f rm acc).1).cell (64 * m + n) =
      BitVec.ofNat 64 (cellBits x (fdefOf (p.fdef f.val)) acc sparse (p.tile d.val) as bs (effRm rm (fdefOf (p.fdef f.val))) p.phi m n) := by
  have h0 : 0 < x.n := by omega
  have hi : m * x.n + n ∈ List.range (x.m * x.n) := List.mem_range.2 (by
    calc m * x.n + n < (m + 1) * x.n := by rw [Nat.add_one_mul]; omega
      _ ≤ x.m * x.n := Nat.mul_le_mul_right _ hm)
  have hdiv : (m * x.n + n) / x.n = m := by rw [Nat.mul_comm, Nat.mul_add_div h0, Nat.div_eq_of_lt hn, Nat.add_zero]
  have hmod : (m * x.n + n) % x.n = n := by rw [Nat.mul_comm, Nat.mul_add_mod, Nat.mod_eq_of_lt hn]
  refine withCells_mem _ ?_ (by omega) ?_
  · rw [productTile_places]; exact nodup_cellPlaces h0 hn64 _
  · have hmem := productCells_mem x (fdefOf (p.fdef f.val)) acc sparse (p.tile d.val) as bs (effRm rm (fdefOf (p.fdef f.val))) p.phi hint hi s
    rw [cellPlace, hdiv, hmod] at hmem
    unfold productTile
    dsimp only
    rw [ha]
    dsimp only
    rw [hb]
    exact hmem

end

section
variable {s : State} {p : Pontil} {i : Instr} {sparse : Bool} {d : AReg} {a b : QReg} {f : Slot} {rm : Round} {shape : Fin 32} {acc : Bool}

theorem runProduct_ok {x : Product} (hx : checkProduct p a b f shape = .ok x) : runProduct s p sparse d a b f rm shape acc =
    .done ((productTile s p x sparse d f rm acc).2.2.count p.id.die.val (1028 + 8 * p.id.cluster.val) (planesOf x.fb))
      ((p.setTile d (withCells (p.tile d.val) (productTile s p x sparse d f rm acc).1)).mergeFlags (productTile s p x sparse d f rm acc).2.1) false := by
  unfold runProduct
  rw [hx]
  rfl

/-- A product that passes its checks. -/
theorem product_goesOn (h : PontilPerforms s p i) {x : Product} (hx : checkProduct p a b f shape = .ok x) :
    PontilAfter (.next (runMatrix i (fun p s => runProduct s p sparse d a b f rm shape acc) s)) p (fun s' p' =>
      GoesOn p p' ∧ p'.q = p.q ∧ p'.flags &&& p.flags = p.flags ∧ SameMemory s s' ∧ OnlyContext s s' p ∧
      (∀ r : AReg, r ≠ d → p'.tile r.val = p.tile r.val) ∧
      p'.tile d.val = withCells (p.tile d.val) (productTile s.popped p x sparse d f rm acc).1) := by
  refine pontilAfter_done h (runProduct_ok hx) ?_ ?_
  · rfl
  obtain ⟨h1, h2⟩ := onlyContext_of_choosesOnly (choosesOnly_productTile s.popped p x sparse d f rm acc)
    (q := ((p.setTile d (withCells (p.tile d.val) (productTile s.popped p x sparse d f rm acc).1)).mergeFlags
      (productTile s.popped p x sparse d f rm acc).2.1).advance) (p := p) rfl s.peers p.id.die.val (1028 + 8 * p.id.cluster.val) (planesOf x.fb)
  exact ⟨goesOn_advance h rfl rfl rfl rfl, rfl, flags_or_and _ _, h1, h2, fun r hr => Pontil.tile_setTile_other p _ hr, Pontil.tile_setTile_same p d _⟩

end

/-! ## smrs -/

/-- Rows of one length, one after another. -/
theorem getD_flatMap_range {α : Type} (f : Nat → List α) (len : Nat) (hf : ∀ k, (f k).length = len) (d : α) (k : Nat) {m n : Nat} (hm : m < k) (hn : n < len) :
    ((List.range k).flatMap f).getD (len * m + n) d = (f m).getD n d := by
  induction k with
  | zero => omega
  | succ k ih =>
    have hlen : ((List.range k).flatMap f).length = len * k := by
      rw [List.length_flatMap]
      simp [hf, Nat.mul_comm]
    rw [List.range_succ, List.flatMap_append, List.flatMap_singleton]
    rcases Nat.lt_succ_iff_lt_or_eq.1 hm with h | rfl
    · have : len * m + n < len * k := by
        calc len * m + n < len * (m + 1) := by rw [Nat.mul_add_one]; omega
          _ ≤ len * k := Nat.mul_le_mul_left _ h
      rw [List.getD_append _ _ _ _ (by rwa [hlen]), ih h]
    · rw [List.getD_append_right _ _ _ _ (by rw [hlen]; omega), hlen, Nat.add_sub_cancel_left]

theorem getD_wordsOf (xs : List Nat) (k : Nat) : (wordsOf xs).getD k 0 = BitVec.ofNat 64 (xs.getD k 0) := by
  rw [wordsOf, List.getD_eq_getElem?_getD, List.getD_eq_getElem?_getD, List.getElem?_map]
  cases xs[k]? <;> rfl

/-- Row `m` of smrs, where no rounding is stochastic. -/
def smrsRowAt (p : Pontil) (d a : AReg) (b : QReg) (g : FDef) (rm : Round) (ns : Fin 64) (posA posD : Nat → Nat → Nat) (m : Nat) : SoftRow :=
  smrsRow g rm (posA m) (posD m) (ns.val + 1) (f2val (p.getQ b)) (tileRow (p.tile a.val) g m) (tileRow (p.tile d.val) g m)
    ((p.tile d.val).maxAt m) ((p.tile d.val).sumAt m)

theorem smrsRowAt_length (p : Pontil) (d a : AReg) (b : QReg) (g : FDef) (rm : Round) (ns : Fin 64) (posA posD : Nat → Nat → Nat) (m : Nat) :
    (smrsRowAt p d a b g rm ns posA posD m).a.length = 64 ∧ (smrsRowAt p d a b g rm ns posA posD m).d.length = 64 :=
  smrsRow_length _ _ _ _ _ _ _ (by omega) (by simp [tileRow]) (by simp [tileRow])

section
variable {s : State} {p : Pontil} {i : Instr} {d a : AReg} {b : QReg} {f : Slot} {rm : Round} {ns : Fin 64}

/-- A tile made of rows. -/
def rowsTile (row : Nat → SoftRow) : Tile :=
  ⟨((List.range 64).map row).flatMap (fun r => wordsOf r.d), wordsOf (((List.range 64).map row).map (·.rmax)), wordsOf (((List.range 64).map row).map (·.rsum))⟩

theorem flatMap_rows (row : Nat → SoftRow) (g : SoftRow → List Nat) (hg : ∀ k, (g (row k)).length = 64) {m n : Nat} (hm : m < 64) (hn : n < 64) :
    (((List.range 64).map row).flatMap (fun r => wordsOf (g r))).getD (64 * m + n) 0 = BitVec.ofNat 64 ((g (row m)).getD n 0) := by
  rw [List.flatMap_map, getD_flatMap_range _ 64 (fun k => by rw [wordsOf, List.length_map, hg]) _ _ hm hn, getD_wordsOf]

theorem rowsTile_side (row : Nat → SoftRow) {m : Nat} (hm : m < 64) :
    (rowsTile row).maxAt m = BitVec.ofNat 64 (row m).rmax ∧ (rowsTile row).sumAt m = BitVec.ofNat 64 (row m).rsum := by
  have hget : ∀ (h : SoftRow → Nat) (x : Word), (wordsOf (((List.range 64).map row).map h)).getD m x = BitVec.ofNat 64 (h (row m)) := fun h x => by
    rw [wordsOf, List.map_map, List.map_map, getD_map_range _ _ _ hm]
    rfl
  exact ⟨hget SoftRow.rmax _, hget SoftRow.rsum _⟩

/-- The position of a column, where the rounding is not stochastic. -/
def smrsPos (s : State) (g : FDef) (rm : Round) (k : Nat) : Nat := if effRm rm g = .rsr then Config.free (s.choice + k) else 0

/-- The rows that smrs makes. -/
def smrsRows (s : State) (p : Pontil) (d a : AReg) (b : QReg) (f : Slot) (rm : Round) (ns : Fin 64) (m : Nat) : SoftRow :=
  let g := fdefOf (p.fdef f.val)
  smrsRowAt p d a b g (effRm rm g) ns (fun m n => smrsPos s g rm (128 * m + n)) (fun m n => smrsPos s g rm (128 * m + 64 + n)) m

theorem smrsRows_length (s : State) (p : Pontil) (d a : AReg) (b : QReg) (f : Slot) (rm : Round) (ns : Fin 64) (m : Nat) :
    (smrsRows s p d a b f rm ns m).a.length = 64 ∧ (smrsRows s p d a b f rm ns m).d.length = 64 := by
  unfold smrsRows
  exact smrsRowAt_length ..

theorem runSmrs_eq (s : State) (p : Pontil) (d a : AReg) (b : QReg) (f : Slot) (rm : Round) (ns : Fin 64) :
    ∃ z, ChoosesOnly s z ∧ runSmrs s p d a b f rm ns = .done z
      (((p.setTile a { (p.tile a.val).full with cells := ((List.range 64).map (smrsRows s p d a b f rm ns)).flatMap (fun r => wordsOf r.a) }).setTile d
        (rowsTile (smrsRows s p d a b f rm ns))).mergeFlags (((List.range 64).map (smrsRows s p d a b f rm ns)).foldl (fun x r => x ||| r.flags) 0)) false := by
  refine ⟨if effRm rm (fdefOf (p.fdef f.val)) = .rsr then { s with choice := s.choice + 8192 } else s, ?_, ?_⟩
  · split <;> rfl
  · rfl

theorem smrs_goesOn (h : PontilPerforms s p i) (hda : a ≠ d) :
    PontilAfter (.next (runMatrix i (fun p s => runSmrs s p d a b f rm ns) s)) p (fun s' p' =>
      GoesOn p p' ∧ p'.q = p.q ∧ p'.flags &&& p.flags = p.flags ∧ SameMemory s s' ∧ OnlyContext s s' p ∧
      (∀ r : AReg, r ≠ d → r ≠ a → p'.tile r.val = p.tile r.val) ∧
      (p'.tile a.val).cells = ((List.range 64).map (smrsRows s.popped p d a b f rm ns)).flatMap (fun r => wordsOf r.a) ∧
      p'.tile d.val = rowsTile (smrsRows s.popped p d a b f rm ns)) := by
  obtain ⟨z, hz, hrun⟩ := runSmrs_eq s.popped p d a b f rm ns
  refine pontilAfter_done h hrun ?_ ?_
  · rfl
  obtain ⟨hpon, hwg, hl, ho, hmem⟩ := hz.fields
  refine ⟨goesOn_advance h rfl rfl rfl rfl, rfl, flags_or_and _ _, fun l => congrArg (fun m => memGet m l) hmem,
    onlyContext_setPontil ?_ hpon hwg hl ho s.peers, fun r hr hra => ?_, ?_, ?_⟩
  · rfl
  · exact (Pontil.tile_setTile_other _ _ hr).trans (Pontil.tile_setTile_other p _ hra)
  · exact congrArg Tile.cells ((Pontil.tile_setTile_other _ _ hda).trans (Pontil.tile_setTile_same p a _))
  · exact Pontil.tile_setTile_same _ d _

/-- The cells and side registers after smrs. -/
theorem smrs_cells {p' : Pontil} (hr : effRm rm (fdefOf (p.fdef f.val)) ≠ .rsr)
    (ha : (p'.tile a.val).cells = ((List.range 64).map (smrsRows s p d a b f rm ns)).flatMap (fun r => wordsOf r.a))
    (hd : p'.tile d.val = rowsTile (smrsRows s p d a b f rm ns)) {m n : Nat} (hm : m < 64) (hn : n < 64) :
    let g := fdefOf (p.fdef f.val)
    let row := smrsRowAt p d a b g (effRm rm g) ns (fun _ _ => 0) (fun _ _ => 0) m
    (p'.tile a.val).cell (64 * m + n) = BitVec.ofNat 64 (row.a.getD n 0) ∧ (p'.tile d.val).cell (64 * m + n) = BitVec.ofNat 64 (row.d.getD n 0) ∧
    (p'.tile d.val).maxAt m = BitVec.ofNat 64 row.rmax ∧ (p'.tile d.val).sumAt m = BitVec.ofNat 64 row.rsum := by
  intro g row
  have hrow : smrsRows s p d a b f rm ns m = row := by
    simp only [smrsRows, smrsPos, if_neg hr]
    rfl
  obtain ⟨h1, h2⟩ := rowsTile_side (smrsRows s p d a b f rm ns) hm
  rw [hrow] at h1 h2
  rw [hd]
  refine ⟨?_, ?_, h1, h2⟩
  · rw [Tile.cell, ha, flatMap_rows _ SoftRow.a (fun k => (smrsRows_length s p d a b f rm ns k).1) hm hn, hrow]
  · rw [Tile.cell, rowsTile, flatMap_rows _ SoftRow.d (fun k => (smrsRows_length s p d a b f rm ns k).2) hm hn, hrow]

end

end Machine
end Sys2Proof

open Sys2Proof Sys2Proof.Machine
/-- Settles O46: a cell is the encoding of its terms' sum, and a product writes the cells of its shape, each once. -/
theorem products : Obligations.Products := by
  refine ⟨?_, ?_, ?_, ?_⟩
  · intro g fused c ps rm pos r val finite terms signs cut gives
    refine ⟨fun h => floatCell_nan g fused h rm pos, fun hps hc => ?_⟩
    have hts : ∀ t ∈ termsOf ps c, FiniteVal t := termsOf_finite hps hc
    have hterms : terms = (termsOf ps c).map ratOf := (map_ratOf_termsOf hps).symm
    have hsigns : signs = (termsOf ps c).map Val.sign := (map_sign_termsOf hps).symm
    have hr := floatCell_finite g fused hps hc rm pos
    rw [hterms, hsigns]
    refine ⟨fun h0 => ?_, fun hne hf => ?_, fun big hb hle hf => ?_⟩
    · rw [largest_none hts h0] at hr
      obtain ⟨b, hz, h1, h2⟩ := zeroOf_spec (ts := termsOf ps c) (by simp [termsOf]) rm
      exact ⟨b, by rw [← hz]; exact hr, h1, h2⟩
    · obtain ⟨big, hbig⟩ := exists_largest hts hne
      rw [hbig] at hr
      dsimp only at hr
      rw [if_pos hf] at hr
      have hne' : ∃ t ∈ termsOf ps c, ratOf t ≠ 0 := by simpa using hne
      obtain ⟨h1, h2⟩ := exactSum_spec hts rm hne'
      exact ⟨_, h1, hr, h2⟩
    · rw [largest_some hts hb hle] at hr
      dsimp only at hr
      rw [if_neg (by simp [hf])] at hr
      obtain ⟨h1, h2⟩ := windowSum_spec hts big rm
      refine ⟨fun hs => ?_, fun hs => ?_⟩
      · obtain ⟨hst, hv⟩ := h1 hs
        rw [hst] at hr
        exact ⟨_, hv, hr⟩
      · obtain ⟨hst, hv, hz⟩ := h2 hs
        rw [hst] at hr
        exact ⟨_, hv, hr, hz⟩
  · intro fa fb l c sum int r clamped
    exact ⟨fun ha _ hb _ => integerSum_eq ha hb l, integerCell_spec c sum⟩
  · intro w rm posA posD ns c as ds rmax rsum g row old t bad two hl h0 hns has hds
    refine ⟨fun k s n e hlo hhi hv => valueOf_powerOfTwo hlo hhi hv, valueOf_powerOfTwo_inf, fun hb => ?_, fun hb => ?_⟩
    · have hrow : row = nanRow g _ := smrsRow_bad rm posA posD c ds rmax rsum g (by omega) hb
      rw [hrow]
      exact nanRow_spec g _
    · obtain ⟨m, fl, hm, hold, hbelow, hrow⟩ := smrsRow_good rm posA posD c ds rmax rsum g (by omega : ns ≤ as.length) hb
      have hrow : row = _ := hrow
      refine ⟨m, _, hm, hold, hbelow, by rw [hrow]; rfl, by rw [hrow]; exact softRow_rsum .., fun n hn => ?_, fun n hn => ?_, fun r a x hr ha hx => ?_⟩
      · rw [hrow]; exact softRow_a_getD ..
      · rw [hrow]; exact softRow_d_getD _ _ _ _ _ _ _ _ _ _ hds hn
      · refine valueOf_rowSum g rm posA _ ns _ _ (proper_decodeElem _ _) ?_ hr ha fun n hn => ?_
        · split
          · exact proper_valInt _ _
          · exact proper_decodeElem _ _
        · have := hx n hn
          rw [hrow, softRow_a_getD, if_pos hn] at this
          exact this
  · intro c d a' a b f rm shape acc sparse ns s p i g
    refine ⟨fun hi hp => ?_, fun hi hp => ?_⟩
    · have hexec : exec i s = .next (runMatrix i (fun p s => runProduct s p sparse d a b f rm shape acc) s) := by
        cases sparse <;> (rw [hi]; rfl)
      rw [hexec]
      refine ⟨fun e he => product_stops hp he, fun x hx => ?_⟩
      obtain ⟨hm64, hn0, hn64⟩ := checkProduct_shape hx
      obtain ⟨s', p', hs', hp', hgo, hq, hfl, hmem, hctx, hoth, htile⟩ := product_goesOn (sparse := sparse) (d := d) (rm := rm) (acc := acc) hp hx
      refine ⟨s', p', hs', hp', hgo, hq, hfl, hmem, hctx, hoth, fun m n hm hn h => ?_, fun as bs has hbs hint m n hm hn => ?_⟩
      · rw [htile]; exact productTile_other sparse d f rm acc hn0 hn64 hm hn h
      · rw [htile]; exact productTile_cell sparse d f rm acc hm64 hn64 has hbs hint hm hn
    · have hexec : exec i s = .next (runMatrix i (fun p s => runSmrs s p d a' b f rm ns) s) := by rw [hi]; rfl
      have hda : a' ≠ d := by
        have hc := hp.2.1
        rw [hi] at hc
        rintro rfl
        simp [checkPontil, classOf, Instr.wf] at hc
      rw [hexec]
      obtain ⟨s', p', hs', hp', hgo, hq, hfl, hmem, hctx, hoth, hta, htd⟩ := smrs_goesOn (b := b) (f := f) (rm := rm) (ns := ns) hp hda
      exact ⟨s', p', hs', hp', hgo, hq, hfl, hmem, hctx, hoth, fun hr m n hm hn => smrs_cells hr hta htd hm hn⟩
end

section
/-! PROOFS. Where addresses are when no write is on record: translations that reads keep are those of the tables (R252 to R256), so that a
span is always found at the same places, one byte after another. -/

namespace Sys2Proof
namespace Machine

/-! ## Walks -/

theorem tableEntry_lt (s : State) (die a : Nat) : tableEntry s die a < 2 ^ 64 := by
  unfold tableEntry
  split
  · exact (ofBytes_lt ((List.range 8).map (fun i => s.peek (ownLoc die a + i)))).trans_eq (by simp)
  · decide

/-- A walk finds a leaf of one of three sizes, and the same one for every offset of its page. -/
theorem walk_spec {s : State} {die ofs leaf bits at' : Nat} (h : walk s die ofs = some (leaf, bits, at')) :
    (bits = 30 ∨ bits = 21 ∨ bits = 16) ∧ leaf < 2 ^ 64 ∧
      ∀ o, o / 2 ^ bits = ofs / 2 ^ bits → walk s die o = some (leaf, bits, at') := by
  have h30 : ∀ {o}, o / 2 ^ 21 = ofs / 2 ^ 21 → o / 2 ^ 30 = ofs / 2 ^ 30 := fun h => by omega
  have h21 : ∀ {o}, o / 2 ^ 16 = ofs / 2 ^ 16 → o / 2 ^ 21 = ofs / 2 ^ 21 := fun h => by omega
  unfold walk walkBy at h ⊢
  dsimp only at h ⊢
  split at h
  · next h1 =>
    cases h
    exact ⟨.inl rfl, tableEntry_lt .., fun o ho => by simp only [ho, h1, if_true]⟩
  · next h1 =>
    split at h
    · cases h
    · next h2 =>
      split at h
      · next h3 =>
        cases h
        exact ⟨.inr (.inl rfl), tableEntry_lt .., fun o ho => by simp only [ho, h30 ho, h1, h2, h3, if_true, if_false, Bool.false_eq_true]⟩
      · next h3 =>
        split at h
        · cases h
        · next h4 =>
          split at h
          · next h5 =>
            cases h
            exact ⟨.inr (.inr rfl), tableEntry_lt .., fun o ho => by
              simp only [ho, h21 ho, h30 (h21 ho), h1, h2, h3, h4, h5, if_true, if_false, Bool.false_eq_true]⟩
          · cases h

/-! ## The home of an address -/

/-- Where the tables as they stand put a paged address. -/
def homePaged (s : State) (die ofs : Nat) : Except Code Place :=
  match walk s die ofs with
  | none => .error .leaseLost
  | some (leaf, bits, _) => .ok (.here (leafLoc leaf bits ofs) (leafKind leaf))

/-- Where a domain address is, by the tables as they stand. -/
def homeOf (s : State) (va : Nat) : Except Code Place :=
  if vaModule va ≠ s.module.toNat then .ok (.away (vaModule va) va)
  else if 6 ≤ vaDie va then .error .leaseLost
  else if inWindow va then
    if vaOfs va < windowBase + Config.sramBytes then .ok (.here (sramLoc (vaDie va) (vaOfs va - windowBase)) .sram) else .error .leaseLost
  else homePaged s (vaDie va) (vaOfs va)

theorem leafLoc_succ {leaf bits ofs : Nat} (h : (ofs + 1) % 2 ^ bits = ofs % 2 ^ bits + 1) :
    leafLoc leaf bits (ofs + 1) = leafLoc leaf bits ofs + 1 := by
  unfold leafLoc
  rw [h]
  dsimp only
  split <;> simp only [hbmLoc, lpddrLoc, cxlLoc, Nat.add_assoc]

/-- The next byte of a 64 KiB page is one further on. -/
theorem homeOf_succ {s : State} {va : Nat} {p : Place} (h : homeOf s va = .ok p) (hp : (va + 1) % 65536 ≠ 0) :
    homeOf s (va + 1) = .ok p.succ := by
  have hm : vaModule (va + 1) = vaModule va := by unfold vaModule; omega
  have hd : vaDie (va + 1) = vaDie va := by unfold vaDie; omega
  have ho : vaOfs (va + 1) = vaOfs va + 1 := by unfold vaOfs; omega
  have ho' : vaOfs va % 65536 = va % 65536 := by unfold vaOfs; omega
  have hw : inWindow (va + 1) = inWindow va := by
    have : windowBase ≤ vaOfs va + 1 ↔ windowBase ≤ vaOfs va := by unfold windowBase; omega
    simp only [inWindow, hd, ho, this]
  unfold homeOf at h ⊢
  rw [hm, hd, ho, hw]
  by_cases h1 : vaModule va ≠ s.module.toNat
  · rw [if_pos h1] at h ⊢
    cases h; rfl
  · rw [if_neg h1] at h ⊢
    by_cases h2 : 6 ≤ vaDie va
    · rw [if_pos h2] at h; cases h
    · rw [if_neg h2] at h ⊢
      by_cases h3 : inWindow va = true
      · rw [if_pos h3] at h ⊢
        have hb : windowBase ≤ vaOfs va := by
          simp only [inWindow, Bool.and_eq_true, decide_eq_true_eq] at h3
          exact h3.2
        split at h
        · next h4 =>
          cases h
          rw [if_pos (by unfold windowBase Config.sramBytes at *; omega)]
          rw [show vaOfs va + 1 - windowBase = vaOfs va - windowBase + 1 by omega]
          simp only [Place.succ, sramLoc, Nat.add_assoc]
        · cases h
      · rw [if_neg h3] at h ⊢
        unfold homePaged at h ⊢
        split at h
        · cases h
        · next leaf bits at' hk =>
          cases h
          obtain ⟨hb, -, hs⟩ := walk_spec hk
          have hq : (vaOfs va + 1) / 2 ^ bits = vaOfs va / 2 ^ bits ∧ (vaOfs va + 1) % 2 ^ bits = vaOfs va % 2 ^ bits + 1 := by
            rcases hb with rfl | rfl | rfl <;> omega
          rw [hs _ hq.1]
          dsimp only
          rw [leafLoc_succ hq.2]
          rfl

/-! ## States that reads leave -/

/-- `z` is `s` but for what reads leave in it: translations as the tables give them, copies of buffer table entries, and free choices
drawn. -/
structure ReadFrom (s z : State) : Prop where
  only : z = { s with tlb := z.tlb, entryCache := z.entryCache, choice := z.choice }
  fresh : TlbFresh z

section
variable {s z : State}

theorem ReadFrom.refl (h : TlbFresh s) : ReadFrom s s := ⟨rfl, h⟩

theorem ReadFrom.walk (h : ReadFrom s z) (die ofs : Nat) : Machine.walk z die ofs = Machine.walk s die ofs := by
  rw [h.only]; rfl

theorem ReadFrom.hist (h : ReadFrom s z) : z.hist = s.hist := by rw [h.only]
theorem ReadFrom.mem (h : ReadFrom s z) : z.mem = s.mem := by rw [h.only]
theorem ReadFrom.peek (h : ReadFrom s z) (l : Nat) : z.peek l = s.peek l := by rw [h.only]; rfl
theorem ReadFrom.mcbs (h : ReadFrom s z) : z.mcbs = s.mcbs := by rw [h.only]
theorem ReadFrom.module (h : ReadFrom s z) : z.module = s.module := by rw [h.only]

theorem ReadFrom.noControl (h : ReadFrom s z) (hc : NoMigrationControl s) : NoMigrationControl z := by
  intro d; rw [h.mcbs]; exact hc d

/-- Nothing of the walks is changed by what is drawn or copied. -/
theorem tlbFresh_congr {a b : State} (ht : b.tlb = a.tlb) (hw : ∀ die ofs, Machine.walk b die ofs = Machine.walk a die ofs) (h : TlbFresh a) : TlbFresh b := by
  intro t hm ofs hc
  rw [hw]
  exact h t (ht ▸ hm) ofs hc

/-- What changes no translation may be drawn or copied. -/
theorem ReadFrom.with (h : ReadFrom s z) (es : List CachedEntry) (n : Nat) : ReadFrom s { z with entryCache := es, choice := n } :=
  ⟨by rw [h.only], tlbFresh_congr (a := z) rfl (fun _ _ => rfl) h.fresh⟩

theorem ReadFrom.pick (h : ReadFrom s z) (n : Nat) : ReadFrom s (z.pick n).2 := by
  unfold State.pick
  split
  · exact h
  · exact h.with z.entryCache (z.choice + 1)

/-- A translation finds the home of its address, and keeps what it found. -/
theorem ReadFrom.translate (h : ReadFrom s z) (hs : s.hist = []) (ctx va : Nat) : (Machine.translate z ctx va).map (·.1) = homeOf s va ∧
    ∀ p z', Machine.translate z ctx va = .ok (p, z') → ReadFrom s z' := by
  have hfin : ∀ die ofs, (translatePaged z ctx die ofs).map (·.1) = homePaged s die ofs ∧
      ∀ p z', translatePaged z ctx die ofs = .ok (p, z') → ReadFrom s z' := by
    intro die ofs
    unfold translatePaged homePaged
    rw [walkInEffect_clean (h.hist.trans hs), h.walk]
    cases ht : z.tlb.find? (fun t => t.covers die ofs) with
    | some t =>
      have hc : t.covers die ofs = true := by simpa using List.find?_some ht
      have hd : t.die = die := by
        simp only [TlbEntry.covers, Bool.and_eq_true, beq_iff_eq] at hc
        exact hc.1
      obtain ⟨at', hw⟩ := h.fresh t (List.mem_of_find?_eq_some ht) ofs (by rw [hd]; exact hc)
      rw [hd, h.walk] at hw
      rw [hw]
      exact ⟨rfl, fun p z' he => by cases he; exact h⟩
    | none =>
      cases hw : Machine.walk s die ofs with
      | none => exact ⟨rfl, fun p z' he => by cases he⟩
      | some x =>
        obtain ⟨leaf, bits, at'⟩ := x
        obtain ⟨-, hl, hsame⟩ := walk_spec hw
        refine ⟨rfl, fun p z' he => ?_⟩
        cases he
        refine ⟨by rw [h.only], fun t hm o hc => ?_⟩
        change ∃ a, Machine.walk z t.die o = _
        rcases List.mem_cons.1 hm with rfl | hm
        · simp only [TlbEntry.covers, beq_self_eq_true, Bool.true_and, beq_iff_eq] at hc
          refine ⟨at', ?_⟩
          rw [h.walk, hsame o hc.symm, BitVec.toNat_ofNat, Nat.mod_eq_of_lt hl]
        · exact h.fresh t hm o hc
  unfold Machine.translate homeOf
  rw [h.module]
  dsimp only
  split
  · exact ⟨rfl, fun p z' he => by cases he; exact h⟩
  · split
    · exact ⟨rfl, fun p z' he => by cases he⟩
    · split
      · split
        · exact ⟨rfl, fun p z' he => by cases he; exact h⟩
        · exact ⟨rfl, fun p z' he => by cases he⟩
      · exact hfin _ _

/-- The homes of `n` bytes from an address. -/
def homesFrom (s : State) : Nat → Nat → Except Code (List Place)
  | _, 0 => .ok []
  | va, n + 1 => (homeOf s va).bind (fun p => (homesFrom s (va + 1) n).map (p :: ·))

theorem ReadFrom.nextPlace (h : ReadFrom s z) (hs : s.hist = []) (ctx va : Nat) {prev : Option Place}
    (hprev : ∀ p, prev = some p → va % 65536 ≠ 0 → homeOf s va = .ok p.succ) : (Machine.nextPlace z ctx va prev).map (·.1) = homeOf s va ∧
    ∀ p z', Machine.nextPlace z ctx va prev = .ok (p, z') → ReadFrom s z' := by
  unfold Machine.nextPlace
  cases prev with
  | none => exact h.translate hs ctx va
  | some q =>
    dsimp only
    split
    · exact h.translate hs ctx va
    · next h0 => exact ⟨(hprev q rfl h0).symm, fun p z' he => by cases he; exact h⟩

theorem ReadFrom.placesFrom (hs : s.hist = []) (ctx : Nat) : ∀ (n : Nat) {z : State} (va : Nat) (prev : Option Place), ReadFrom s z →
    (∀ p, prev = some p → va % 65536 ≠ 0 → homeOf s va = .ok p.succ) → (Machine.placesFrom z ctx va n prev).map (·.1) = homesFrom s va n ∧
    ∀ ps z', Machine.placesFrom z ctx va n prev = .ok (ps, z') → ReadFrom s z'
  | 0, z, va, prev, h, _ => ⟨rfl, fun ps z' he => by cases he; exact h⟩
  | n + 1, z, va, prev, h, hprev => by
    obtain ⟨h1, h2⟩ := h.nextPlace hs ctx va hprev
    rw [placesFrom_succ, homesFrom, ← h1]
    cases hx : Machine.nextPlace z ctx va prev with
    | error c => exact ⟨rfl, fun ps z' he => by cases he⟩
    | ok x =>
      obtain ⟨p, y⟩ := x
      rw [hx] at h1
      obtain ⟨h3, h4⟩ := ReadFrom.placesFrom hs ctx n (va + 1) (some p) (h2 p y hx) (fun q hq h0 => by
        cases hq; exact homeOf_succ h1.symm h0)
      simp only [Except.bind, Except.map] at h3 ⊢
      rw [← h3]
      cases hy : Machine.placesFrom y ctx (va + 1) n (some p) with
      | error c => exact ⟨rfl, fun ps z' he => by cases he⟩
      | ok w => exact ⟨rfl, fun ps z' he => by cases he; exact h4 _ _ hy⟩

/-- A span is found at the homes of its bytes. -/
theorem ReadFrom.places_iff (h : ReadFrom s z) (hs : s.hist = []) (ctx va n : Nat) (ps : List Place) :
    (∃ z', places z ctx va n = .ok (ps, z')) ↔ homesFrom s va n = .ok ps := by
  rw [← (ReadFrom.placesFrom hs ctx n va none h (fun p hp => by cases hp)).1]
  unfold places
  cases Machine.placesFrom z ctx va n none with
  | error c => simp [Except.map]
  | ok x => exact ⟨fun ⟨z', he⟩ => by cases he; rfl, fun he => ⟨x.2, by cases he; rfl⟩⟩

theorem ReadFrom.places {z' : State} {ctx va n : Nat} {ps : List Place} (h : ReadFrom s z) (hs : s.hist = [])
    (hp : Machine.places z ctx va n = .ok (ps, z')) : homesFrom s va n = .ok ps ∧ ReadFrom s z' :=
  ⟨(h.places_iff hs ctx va n ps).1 ⟨z', hp⟩, (ReadFrom.placesFrom hs ctx n va none h (fun p hp => by cases hp)).2 _ _ hp⟩

end

/-! ## Homes of a span -/

theorem homesFrom_succ {s : State} {va n : Nat} {ps : List Place} (h : homesFrom s va (n + 1) = .ok ps) :
    ∃ p qs, ps = p :: qs ∧ homeOf s va = .ok p ∧ homesFrom s (va + 1) n = .ok qs := by
  rw [homesFrom] at h
  cases hp : homeOf s va with
  | error c => rw [hp] at h; cases h
  | ok p =>
    rw [hp] at h
    cases hq : homesFrom s (va + 1) n with
    | error c => rw [hq] at h; cases h
    | ok qs => rw [hq] at h; cases h; exact ⟨p, qs, rfl, rfl, rfl⟩

theorem homesFrom_length {s : State} : ∀ {n va : Nat} {ps : List Place}, homesFrom s va n = .ok ps → ps.length = n
  | 0, _, _, h => by cases h; rfl
  | n + 1, _, _, h => by
    obtain ⟨p, qs, rfl, -, hq⟩ := homesFrom_succ h
    rw [List.length_cons, homesFrom_length hq]

theorem mem_homesFrom {s : State} : ∀ {n va : Nat} {ps : List Place}, homesFrom s va n = .ok ps → ∀ p ∈ ps,
    ∃ k, k < n ∧ homeOf s (va + k) = .ok p
  | 0, _, _, h, p, hp => by cases h; cases hp
  | n + 1, va, _, h, p, hp => by
    obtain ⟨p', qs, rfl, hh, hq⟩ := homesFrom_succ h
    rcases List.mem_cons.1 hp with rfl | hp
    · exact ⟨0, by omega, hh⟩
    · obtain ⟨k, hk, he⟩ := mem_homesFrom hq p hp
      exact ⟨k + 1, by omega, by rw [← he]; congr 1; omega⟩

/-- Two addresses have one home only where no frame is mapped twice. -/
theorem homeOf_inj {s : State} (hs : s.hist = []) (hf : TlbFresh s) {ctx : Nat} (h : NoFrameTwice s ctx) {va va' l : Nat} {k k' : PageKind}
    (h1 : homeOf s va = .ok (.here l k)) (h2 : homeOf s va' = .ok (.here l k')) : va % 2 ^ 64 = va' % 2 ^ 64 := by
  have hget : ∀ {v p}, homeOf s v = .ok p → ∃ z, translate s ctx v = .ok (p, z) := by
    intro v p hv
    rw [← ((ReadFrom.refl hf).translate hs ctx v).1] at hv
    cases ht : translate s ctx v with
    | error c => rw [ht] at hv; cases hv
    | ok x => rw [ht] at hv; cases hv; exact ⟨x.2, rfl⟩
  obtain ⟨z, hz⟩ := hget h1
  obtain ⟨z', hz'⟩ := hget h2
  exact h va va' l k k' z z' hz hz'

theorem homesFrom_nodup {s : State} (hs : s.hist = []) (hf : TlbFresh s) {ctx : Nat} (h : NoFrameTwice s ctx) : ∀ {n va : Nat} {ps : List Place},
    n < 2 ^ 64 → homesFrom s va n = .ok ps → (locsOf ps).Nodup
  | 0, _, _, _, h => by cases h; exact List.nodup_nil
  | n + 1, va, _, hn, h' => by
    obtain ⟨p, qs, rfl, hp, hq⟩ := homesFrom_succ h'
    have ih := homesFrom_nodup hs hf h (by omega) hq
    cases p with
    | away m v => exact ih
    | here l k =>
      have : locsOf (.here l k :: qs) = l :: locsOf qs := by simp [locsOf, Place.loc?]
      rw [this, List.nodup_cons]
      refine ⟨fun hm => ?_, ih⟩
      obtain ⟨q, hqm, hl⟩ := List.mem_filterMap.1 hm
      obtain ⟨j, hj, hh⟩ := mem_homesFrom hq q hqm
      cases q with
      | away m v => cases hl
      | here l' k' =>
        cases hl
        have := homeOf_inj hs hf h hp hh
        omega

end Machine
end Sys2Proof
end

section
/-! PROOFS. What an access reads when no write is on record and no die counts pages: the bytes that memory holds at its places (R72, R75). -/

namespace Sys2Proof
namespace Machine

section
variable {s z : State} (hs : s.hist = []) (hc : NoMigrationControl s)
include hs hc

/-! ## Entries and targets -/

theorem ReadFrom.readEntry (h : ReadFrom s z) {holder : Actor} {c i e : Nat} {z' : State} (he : readEntry z holder c i = .ok (e, z')) :
    ReadFrom s z' := by
  unfold Machine.readEntry at he
  split at he
  · cases he
  · split at he
    · cases he
    · dsimp only at he
      split at he
      · cases he; exact h
      · split at he
        · cases he
        · next ps y hp =>
          have hy := (h.places hs hp).2
          split at he
          · cases he
          · have hk : ReadFrom s (if anyAway ps = true then y.pick (2 ^ 512) else (ofBytes (latestBytes y ps), y)).2 := by
              split
              · exact hy.pick _
              · exact hy
            generalize (if anyAway ps = true then y.pick (2 ^ 512) else (ofBytes (latestBytes y ps), y)) = k at he hk
            have hn := hk.with (⟨holder, c, i, k.1⟩ :: k.2.entryCache) k.2.choice
            rw [notePage_off (hn.noControl hc)] at he
            cases he
            exact hn

theorem ReadFrom.entryOf (h : ReadFrom s z) {bd : Binder} {b : Nat} {d : Bound} {z' : State} (he : entryOf z bd b = .ok (d, z')) :
    ReadFrom s z' := by
  unfold Machine.entryOf at he
  dsimp only at he
  split at he
  · cases he
  · split at he
    · cases he
    · next hr =>
      split at he
      · cases he; exact h.readEntry hs hc hr
      · cases he

theorem ReadFrom.bufferFor (h : ReadFrom s z) {bd : Binder} {b : Nat} {f : FDef} {d : Bound} {z' : State}
    (he : bufferFor z bd b f = .ok (d, z')) : ReadFrom s z' := by
  unfold Machine.bufferFor at he
  split at he
  · cases he
  · next hr =>
    split at he
    · cases he
    · split at he
      · cases he
      · cases he; exact h.entryOf hs hc hr

theorem ReadFrom.targetAt (h : ReadFrom s z) {bd : Binder} {fmts : List Word} {fs : Slot} {bind : Fin 64} {e : Int} {n : FDef → Nat}
    {need : Rights} {t : Target} {z' : State} (he : targetAt z bd fmts fs bind e n need = .ok (t, z')) : ReadFrom s z' := by
  unfold Machine.targetAt at he
  split at he
  · cases he
  · split at he
    · cases he
    · next hr =>
      split at he
      · cases he
      · cases he; exact h.bufferFor hs hc hr

theorem ReadFrom.pontilTarget (h : ReadFrom s z) {p : Pontil} {m : QMemOp} {need : Rights} {t : Target} {z' : State}
    (he : pontilTarget z p m need = .ok (t, z')) : ReadFrom s z' := by
  unfold Machine.pontilTarget at he
  split at he
  · cases he
  · next hr =>
    split at he
    · cases he
    · cases he; exact h.targetAt hs hc hr

omit hc in
theorem ReadFrom.targetPlaces_one (h : ReadFrom s z) {t : Target} {ps : List Place} {z' : State} (he : targetPlaces z t 1 = .ok (ps, z')) :
    homesFrom s (t.d.span t.lo t.f.w).1 (t.d.span t.lo t.f.w).2 = .ok ps ∧ ReadFrom s z' := by
  have h0 : t.bit 0 = t.lo := by simp [Target.bit]
  simp only [targetPlaces, h0, List.nil_append] at he
  split at he
  · cases he
  · next hp => cases he; exact h.places hs hp

/-! ## Elements -/

omit hc in
/-- Whatever state reads have left, a claim about an element speaks of the places that its access has found. -/
theorem elementIs_iff (hf : TlbFresh s) (s' : State) {t : Target} {ps : List Place} (x : Nat)
    (hp : homesFrom s (t.d.span t.lo t.f.w).1 (t.d.span t.lo t.f.w).2 = .ok ps) :
    ElementIs s s' t 0 x ↔ elemBits t.d t.lo t.f.w ((locsOf ps).map s'.peek) = x := by
  have h0 : t.bit 0 = t.lo := by simp [Target.bit]
  unfold ElementIs
  rw [h0]
  constructor
  · intro h
    obtain ⟨z', hz⟩ := ((ReadFrom.refl hf).places_iff hs t.bd.ctx _ _ ps).2 hp
    exact h ps z' hz
  · intro h qs z' hq
    have := ((ReadFrom.refl hf).places hs hq).1
    rw [hp] at this
    cases this
    exact h

omit hc in
theorem blockIs_iff (hf : TlbFresh s) (s' : State) {t : Target} {ps : List Place} (x : Nat)
    (hp : homesFrom s (t.d.span t.lo t.f.w).1 (t.d.span t.lo t.f.w).2 = .ok ps) :
    BlockIs s s' t x ↔ ofBytes ((locsOf ps).map s'.peek) =
      aliasWrite (mxDef t.d.mxk) (ofBytes ((locsOf ps).map s.peek)) (t.d.lane t.lo) x := by
  unfold BlockIs
  constructor
  · intro h
    obtain ⟨z', hz⟩ := ((ReadFrom.refl hf).places_iff hs t.bd.ctx _ _ ps).2 hp
    exact h ps z' hz
  · intro h qs z' hq
    have := ((ReadFrom.refl hf).places hs hq).1
    rw [hp] at this
    cases this
    exact h

omit hs hc in
theorem all_of_mem_parts {s : State} {va : Nat} {whole : Bool} {ps : List Place} (ha : ps.all (fun p => p.away?.isNone) = true) :
    ∀ q ∈ partsOf s va whole ps, q.all (fun p => p.away?.isNone) = true := by
  intro q hq
  rw [List.all_eq_true] at ha ⊢
  intro p hp
  apply ha
  have : p ∈ (partsOf s va whole ps).flatten := List.mem_flatten.2 ⟨q, hq, hp⟩
  simpa [partsOf, cutAt_flatten] using this

/-- An element read is what memory holds at its places. -/
theorem ReadFrom.readElem (h : ReadFrom s z) (bd : Binder) (v : MemView) (mode : ReadMode) {d : Bound} {lo w : Nat} {ps : List Place}
    (hp : homesFrom s (d.span lo w).1 (d.span lo w).2 = .ok ps) (ha : ps.all (fun p => p.away?.isNone) = true) :
    ∃ z', readElem z bd v mode d lo w = .ok (elemBits d lo w ((locsOf ps).map s.peek), [], z', v) ∧ ReadFrom s z' := by
  obtain ⟨z', hz⟩ := (h.places_iff hs bd.ctx _ _ ps).2 hp
  have hz' := (h.places hs hz).2
  refine ⟨z', ?_, hz'⟩
  unfold Machine.readElem
  simp only [hz, notePage_off (hz'.noControl hc), readParts_clean (hz'.hist.trans hs) bd.agent v _ _ (all_of_mem_parts ha)]
  simp only [partsOf, cutAt_flatten, List.reverse_nil, List.nil_append, funext hz'.peek]

end

end Machine
end Sys2Proof
end

section
/-! PROOFS. qld: a context reads one element (R188). -/

namespace Sys2Proof
namespace Machine

theorem encodeFloat_bf16_lt (v : Val) (rm : Round) (pos : Nat) (dz : Bool) : (encodeFloat bf16 v rm pos dz).1 < 2 ^ 16 := by
  have hz : ∀ neg, zeroBits bf16 neg < 2 ^ 16 := by decide
  have hg : ∀ neg, maxPattern bf16 + signBits bf16 neg < 2 ^ 16 := by decide
  have ho : ∀ neg, overflowBits bf16 rm neg < 2 ^ 16 := by cases rm <;> decide
  have hinf : ∀ neg, (noPlace bf16 (.inf neg) dz).1 < 2 ^ 16 := by cases dz <;> decide
  cases v with
  | nan => exact (by decide : canonicalNan bf16 < 2 ^ 16)
  | inf neg => exact hinf neg
  | num neg n d e =>
    by_cases hn : n = 0
    · subst hn; exact hz neg
    · rw [encodeFloat_num hn (fun h => absurd h.1 (by decide))]
      have := hg neg
      split_ifs with h1 h2 h3
      · exact ho neg
      · exact hz neg
      · exact hz neg
      · exact lt_of_le_of_lt (Nat.add_le_add_right (not_lt.1 h1) _) this

theorem aliasRead_lt (f : FDef) (img i : Nat) : aliasRead f img i < 2 ^ 16 := by
  unfold aliasRead
  split
  · decide
  · exact encodeFloat_bf16_lt ..

theorem elemBits_lt (d : Bound) (lo : Nat) {w : Nat} (hw : w ≤ 64) (bs : List Byte) : elemBits d lo w bs < 2 ^ 64 := by
  unfold elemBits
  split
  · exact lt_of_lt_of_le (Nat.mod_lt _ (by positivity)) (Nat.pow_le_pow_right (by decide) hw)
  · exact (aliasRead_lt ..).trans (by decide)

/-! ## qld -/

section
variable {s : State} {p : Pontil} {o : QMemOp} {need : Rights} {write : Bool} {t : Target} {ps : List Place}

theorem Quiet.popped (h : Quiet s) : s.popped.hist = [] ∧ NoMigrationControl s.popped ∧ TlbFresh s.popped := ⟨h.hist, h.counts, h.tlb⟩

/-- What the checks of an access that reaches its places have found. -/
theorem PontilReaches.found (hq : Quiet s) (h : PontilReaches s p o need write t ps) : ∃ s₁ s₂, pontilTarget s.popped p o need = .ok (t, s₁) ∧
    pathWaits s₁ t.d = false ∧ targetPlaces s₁ t 1 = .ok (ps, s₂) ∧ blocked s₂ write ps = none ∧ ReadFrom s.popped s₂ ∧
    homesFrom s.popped (t.d.span t.lo t.f.w).1 (t.d.span t.lo t.f.w).2 = .ok ps := by
  obtain ⟨hh, hc, hf⟩ := hq.popped
  obtain ⟨s₁, ht, hw, s₂, hp, hb⟩ := h.target
  obtain ⟨hm, hr⟩ := ((ReadFrom.refl hf).pontilTarget hh hc ht).targetPlaces_one hh hp
  exact ⟨s₁, s₂, ht, hw, hp, hb, hr, hm⟩

theorem PontilReaches.ordered (h : PontilReaches s p o need write t ps) : (o.order != .plain && anyUo ps) = false := by
  by_cases ho : o.order = .plain
  · simp [ho]
  · simp [h.plain ho]

/-- No home die of another module answers an access to this one. -/
theorem onFarPontil_here (z : State) (p : Pontil) (t : Target) (ha : ps.all (fun p => p.away?.isNone) = true) (read ordered : Bool)
    (k : State → PRes) : onFarPontil z p t ps read ordered k = k z := by
  simp [onFarPontil, farCode, anyAway_false ha]

theorem runQld_reads (hq : Quiet s) (h : PontilReaches s p o { r := true } false t ps) (d : QReg) : ∃ z, ReadFrom s.popped z ∧
    runQld s.popped p d o = .done z (p.setQ d (BitVec.ofNat 64 (elemBits t.d t.lo t.f.w ((locsOf ps).map s.peek)))) false := by
  obtain ⟨hh, hc, -⟩ := hq.popped
  obtain ⟨s₁, s₂, ht, hw, hp, hb, hr, hm⟩ := h.found hq
  obtain ⟨z, hz, hzr⟩ := hr.readElem hh hc t.bd p.view .relaxed hm h.here.1
  refine ⟨z, hzr, ?_⟩
  have hpoison : anyPoison s₂ ps = false := by
    have : s₂.poison = [] := by rw [hr.only]; exact hq.clean
    simp [anyPoison, this]
  unfold runQld
  simp only [ht, hw, hp, h.ordered, hpoison, hb, onFarPontil_here _ _ _ h.here.1, hz, takeRels_nil, Bool.false_eq_true, if_false]
  rfl

theorem qld_reads {c : Common} {d : QReg} (hq : Quiet s) (hl : p.q.length = 32) (hi : PontilPerforms s p (.qld c d o))
    (h : PontilReaches s p o { r := true } false t ps) : PontilAfter (exec (.qld c d o) s) p (fun s' p' =>
      ElementIs s.popped s t 0 (p'.getQ d).toNat ∧ (∀ r, r ≠ d → p'.getQ r = p.getQ r) ∧ GoesOn p p' ∧ SameMemory s s' ∧
      s'.full = s.full ∧ OnlyContext s s' p) := by
  obtain ⟨hh, -, hf⟩ := hq.popped
  obtain ⟨z, hz, hrun⟩ := runQld_reads hq h d
  obtain ⟨-, -, -, -, -, -, -, hm⟩ := h.found hq
  refine pontilAfter_done hi hrun ?_ ⟨?_, ?_, goesOn_advance hi ?_ ?_ ?_ ?_, hz.peek, ?_, ?_⟩
  · rfl
  · rw [elementIs_iff hh hf _ _ hm]
    have hd : d.val < p.q.length := by rw [hl]; exact d.isLt
    simp only [Pontil.getQ, Pontil.advance_q, Pontil.setQ, getD_setAt_same _ _ _ _ hd]
    rw [BitVec.toNat_ofNat, Nat.mod_eq_of_lt (elemBits_lt _ _ h.legal.2 _)]
  · intro r hr
    exact getD_setAt_other _ _ _ _ _ (fun e => hr (Fin.ext e.symm))
  · rfl
  · rfl
  · rfl
  · rfl
  · exact (congrArg State.full hz.only :)
  · refine onlyContext_setPontil ?_ ?_ ?_ ?_ ?_ _
    · rfl
    · exact (congrArg State.pontils hz.only :)
    · exact (congrArg State.workgroups hz.only :)
    · exact (congrArg State.launches hz.only :)
    · exact (congrArg State.ops hz.only :)

end

end Machine
end Sys2Proof
end

section
/-! PROOFS. What bytes written at places leave in memory, where no die counts pages, and the bits of an element that they hold (R49, R67,
R75). -/

namespace Sys2Proof
namespace Machine

/-! ## Bytes of an element -/

@[simp] theorem length_bytesOf (x : Nat) : ∀ n, (bytesOf x n).length = n
  | 0 => rfl
  | n + 1 => by rw [bytesOf, List.length_cons, length_bytesOf]

theorem ofBytes_bytesOf (n : Nat) : ∀ x, ofBytes (bytesOf x n) = natField x 0 (8 * n) := by
  induction n with
  | zero => intro x; simp [bytesOf, ofBytes, natField, Nat.mod_one]
  | succ n ih =>
    intro x
    have hk : 2 ^ (8 * (n + 1)) = 256 * 2 ^ (8 * n) := by rw [Nat.mul_add, Nat.pow_add]; omega
    simp only [bytesOf, ofBytes, ih, natField, Nat.pow_zero, Nat.div_one, BitVec.toNat_ofNat, hk]
    rw [Nat.mod_mul]

/-- A field replaced reads as what it was replaced by. -/
theorem natField_replace (o s w y : Nat) (hy : y < 2 ^ w) : natField (o - natField o s w * 2 ^ s + y * 2 ^ s) s w = y := by
  have h1 : o = o % 2 ^ s + 2 ^ s * (o / 2 ^ s % 2 ^ w + 2 ^ w * (o / 2 ^ s / 2 ^ w)) := by
    rw [Nat.mod_add_div (o / 2 ^ s), Nat.mod_add_div]
  have h2 : o - o / 2 ^ s % 2 ^ w * 2 ^ s + y * 2 ^ s = o % 2 ^ s + 2 ^ s * (y + 2 ^ w * (o / 2 ^ s / 2 ^ w)) := by
    conv_lhs => rw [h1]
    generalize o / 2 ^ s / 2 ^ w = q
    generalize hr : o / 2 ^ s % 2 ^ w = r
    have hr' : (o % 2 ^ s + 2 ^ s * (r + 2 ^ w * q)) / 2 ^ s % 2 ^ w = r := by
      rw [Nat.add_mul_div_left _ _ (by positivity), Nat.div_eq_of_lt (Nat.mod_lt _ (by positivity)), Nat.zero_add, Nat.add_mul_mod_self_left,
        ← hr, Nat.mod_mod]
    rw [hr']
    generalize 2 ^ s = a
    generalize 2 ^ w = b
    rw [Nat.mul_add, Nat.mul_add, Nat.mul_comm r a, Nat.mul_comm y a]
    omega
  unfold natField
  rw [h2, Nat.add_mul_div_left _ _ (by positivity), Nat.div_eq_of_lt (Nat.mod_lt _ (by positivity)), Nat.zero_add, Nat.add_mul_mod_self_left,
    Nat.mod_eq_of_lt hy]

/-- The bytes of a span hold its element. -/
theorem elemBits_elemBytes {d : Bound} {lo w : Nat} (hk : d.mxk = 0) (hw : 1 ≤ w) (x : Nat) {old : List Byte} (hl : old.length = (d.span lo w).2) :
    elemBits d lo w (elemBytes d lo w x old) = x % 2 ^ w := by
  simp only [Bound.span, hk, if_true] at hl
  simp only [elemBits, elemBytes, hk, if_true, ofBytes_bytesOf]
  rw [natField_natField _ _ _ (by omega), Nat.zero_add, natField_replace _ _ _ _ (Nat.mod_lt _ (by positivity))]

theorem aliasWrite_lt (k img i x : Nat) : aliasWrite (mxDef k) img i x < 2 ^ (8 * mxBlockBytes k) := by
  have h6 := (mxDef_fields (k := k)).1
  have hb : (mxDef k).blockBits = 8 * mxBlockBytes k := by rw [blockBits_mx h6, mxBlockBytes]; omega
  rw [aliasWrite_eq, ← hb]
  exact packMx_lt _ _ _ _ h6

/-- The bytes of a block hold it whole. -/
theorem ofBytes_elemBytes_alias {d : Bound} {lo w : Nat} (hk : d.mxk ≠ 0) (x : Nat) {old : List Byte} (hl : old.length = (d.span lo w).2) :
    ofBytes (elemBytes d lo w x old) = aliasWrite (mxDef d.mxk) (ofBytes old) (d.lane lo) x := by
  simp only [Bound.span, hk, if_false] at hl
  simp only [elemBytes, hk, if_false, ofBytes_bytesOf, hl]
  exact natField_of_lt (aliasWrite_lt ..)

theorem length_elemBytes (d : Bound) (lo w x : Nat) (old : List Byte) : (elemBytes d lo w x old).length = old.length := by
  unfold elemBytes
  dsimp only
  split <;> exact length_bytesOf _ _

/-! ## Writes to memory -/

/-- Bytes put at locations, in order. -/
def putAll (m : List Host.Cell) (xs : List (Nat × Byte)) : List Host.Cell := xs.foldl (fun m p => memPut m p.1 p.2) m

theorem memWf_putAll {m : List Host.Cell} (h : memWf m = true) (xs : List (Nat × Byte)) : memWf (putAll m xs) = true :=
  memWf_puts h xs (fun p => (p.1, p.2))

/-- No other location changes. -/
theorem memGet_putAll_other {m : List Host.Cell} (h : memWf m = true) {l : Nat} : ∀ {xs : List (Nat × Byte)}, l ∉ xs.map (·.1) →
    memGet (putAll m xs) l = memGet m l := by
  intro xs
  induction xs generalizing m with
  | nil => intro _; rfl
  | cons x xs ih =>
    intro hl
    simp only [List.map_cons, List.mem_cons, not_or] at hl
    rw [putAll, List.foldl_cons]
    exact (ih (memWf_memPut h _ _) hl.2).trans (by rw [memGet_memPut h, if_neg hl.1])

/-- Bytes put at distinct locations stand there. -/
theorem map_memGet_putAll {m : List Host.Cell} (h : memWf m = true) {ls : List Nat} {bs : List Byte} (hd : ls.Nodup)
    (hl : bs.length = ls.length) : ls.map (memGet (putAll m (ls.zip bs))) = bs := by
  induction ls generalizing m bs with
  | nil => exact (List.length_eq_zero_iff.1 hl).symm
  | cons l ls ih =>
    obtain ⟨b, bs, rfl⟩ : ∃ b bs', bs = b :: bs' := List.exists_cons_of_length_eq_add_one hl
    rw [List.nodup_cons] at hd
    simp only [List.length_cons, Nat.add_right_cancel_iff] at hl
    have hrest : memGet (putAll m ((l, b) :: ls.zip bs)) l = b := by
      refine (memGet_putAll_other (memWf_memPut h l b) (fun hm => hd.1 ?_)).trans (by rw [memGet_memPut h, if_pos rfl])
      rw [List.map_fst_zip (by omega)] at hm
      exact hm
    rw [List.zip_cons_cons, List.map_cons, hrest]
    exact congrArg (b :: ·) (ih (memWf_memPut h l b) hd.2 hl)

/-- The bytes of a part, at the locations that this module has. -/
def cellsAt (ps : List (Place × Byte)) : List (Nat × Byte) := ps.filterMap (fun p => p.1.loc?.map (fun l => (l, p.2)))

theorem all_here_tail {p : Place} {ps : List Place} (h : (p :: ps).all (fun p => p.away?.isNone) = true) :
    ps.all (fun p => p.away?.isNone) = true := by
  rw [List.all_cons, Bool.and_eq_true] at h
  exact h.2

theorem cellsAt_append (ps qs : List (Place × Byte)) : cellsAt (ps ++ qs) = cellsAt ps ++ cellsAt qs := List.filterMap_append

theorem cellsAt_zip : ∀ {ps : List Place} (bs : List Byte), ps.all (fun p => p.away?.isNone) = true → cellsAt (ps.zip bs) = (locsOf ps).zip bs
  | [], bs, _ => by simp [cellsAt, locsOf]
  | p :: ps, [], _ => by simp [cellsAt]
  | .here l k :: ps, b :: bs, h => by
    have hl : locsOf (.here l k :: ps) = l :: locsOf ps := rfl
    rw [hl, List.zip_cons_cons, List.zip_cons_cons, ← cellsAt_zip bs (all_here_tail h)]
    rfl
  | .away m v :: ps, b :: bs, h => by simp [Place.away?] at h

theorem length_locsOf {ps : List Place} (h : ps.all (fun p => p.away?.isNone) = true) : (locsOf ps).length = ps.length := by
  induction ps with
  | nil => rfl
  | cons p ps ih =>
    cases p with
    | away m v => simp [Place.away?] at h
    | here l k => simpa [locsOf, Place.loc?] using ih (all_here_tail h)

theorem commit_mem (s : State) (w : Writer) (kind : Option PageKind) (bytes : List (Nat × Byte)) (v : MemView) :
    (commit s w kind bytes v).1.mem = putAll s.mem bytes := by
  unfold commit
  split
  · next h => rw [List.isEmpty_iff.1 h]; rfl
  · rfl

theorem writeParts_mem (w : Writer) : ∀ (ps : List (List (Place × Byte))) (s : State) (v : MemView),
    (writeParts s w v ps).1.mem = putAll s.mem (cellsAt ps.flatten)
  | [], _, _ => rfl
  | p :: ps, s, v => by
    rw [List.flatten_cons, cellsAt_append]
    unfold writeParts
    rw [writeParts_mem w ps]
    unfold writePart
    dsimp only
    rw [commit_mem, putAll, putAll, putAll, List.foldl_append]
    rfl

/-! ## What follows a store -/

theorem OnlyWrites.noControl {a b : State} (h : OnlyWrites a b) (hc : NoMigrationControl a) : NoMigrationControl b := by
  intro d; rw [h]; exact hc d

theorem noteStore_mem {s : State} (hc : NoMigrationControl s) (cache : Option Nat) (through : Bool) (va : Nat) (loc : Option Nat) :
    (noteStore s cache through va loc).mem = s.mem := by
  have hreach : ∀ z : State, NoMigrationControl z → (reachFrame z va loc).mem = z.mem := by
    intro z hz
    have hd : ∀ y, NoMigrationControl y → setDirty y va = y := fun y hy => by unfold setDirty; dsimp only; rw [hy]
    unfold reachFrame
    cases loc with
    | none => dsimp only; rw [hd z hz]
    | some l => dsimp only; rw [hd _ ((OnlyWrites.bumpLine z l).noControl hz), bumpLine_mem]
  unfold noteStore
  split
  · rfl
  · have hk : NoMigrationControl (if through = true then ((0 : Nat), s) else s.pick 2).2 ∧
        (if through = true then ((0 : Nat), s) else s.pick 2).2.mem = s.mem := by
      split
      · exact ⟨hc, rfl⟩
      · exact ⟨(OnlyWrites.pick s 2).noControl hc, State.pick_mem ..⟩
    generalize (if through = true then ((0 : Nat), s) else s.pick 2) = k at hk ⊢
    obtain ⟨k, z⟩ := k
    dsimp only at hk ⊢
    split
    · rw [hreach z hk.1, hk.2]
    · exact hk.2

theorem OnlyWrites.noteStores (s : State) (cache : Option Nat) (r : Reach) (va : Nat) (ps : List Place) :
    OnlyWrites s (noteStores s cache r va ps) := OnlyWrites.foldl (fun s _ => OnlyWrites.noteStore s _ _ _ _) _ _

/-- Where no die counts pages, what follows a store leaves memory as the store has made it. -/
theorem noteStores_mem {s : State} (hc : NoMigrationControl s) (cache : Option Nat) (r : Reach) (va : Nat) (ps : List Place) :
    (noteStores s cache r va ps).mem = s.mem := by
  unfold noteStores
  generalize linesAt va ps = ls
  induction ls generalizing s with
  | nil => rfl
  | cons x xs ih => rw [List.foldl_cons, ih ((OnlyWrites.noteStore ..).noControl hc), noteStore_mem hc]

theorem OnlyWrites.storeBytes (s : State) (w : Writer) (v : MemView) (r : Reach) (whole : Bool) (va : Nat) (ps : List Place) (bs : List Byte) :
    OnlyWrites s (storeBytes s w v r whole va ps bs).1 := (OnlyWrites.writeParts ..).trans (OnlyWrites.noteStores ..)

section
variable {s : State} {ps : List Place} (hc : NoMigrationControl s) (hwf : memWf s.mem = true) (ha : ps.all (fun p => p.away?.isNone) = true)
include hc hwf ha

omit hwf in
theorem storeBytes_mem (w : Writer) (v : MemView) (r : Reach) (whole : Bool) (va : Nat) (bs : List Byte) :
    (storeBytes s w v r whole va ps bs).1.mem = putAll s.mem ((locsOf ps).zip bs) := by
  unfold storeBytes
  dsimp only
  rw [noteStores_mem ((OnlyWrites.writeParts ..).noControl hc), writeParts_mem, partsOf, cutAt_flatten, List.reverse_nil, List.nil_append,
    cellsAt_zip bs ha]

/-- A store changes no byte outside its places. -/
theorem storeBytes_other (w : Writer) (v : MemView) (r : Reach) (whole : Bool) (va : Nat) (bs : List Byte) {l : Nat} (hl : l ∉ locsOf ps) :
    (storeBytes s w v r whole va ps bs).1.peek l = s.peek l := by
  unfold State.peek
  rw [storeBytes_mem hc ha]
  exact memGet_putAll_other hwf (fun hm => by
    obtain ⟨q, hq, rfl⟩ := List.mem_map.1 hm
    exact hl (List.of_mem_zip hq).1)

/-- Its bytes stand at distinct places. -/
theorem storeBytes_same (w : Writer) (v : MemView) (r : Reach) (whole : Bool) (va : Nat) {bs : List Byte} (hd : (locsOf ps).Nodup)
    (hl : bs.length = ps.length) : (locsOf ps).map (storeBytes s w v r whole va ps bs).1.peek = bs := by
  have := map_memGet_putAll hwf hd (hl.trans (length_locsOf ha).symm)
  rw [← storeBytes_mem hc ha w v r whole va bs] at this
  exact this

end

end Machine
end Sys2Proof
end

section
/-! PROOFS. qst: a context writes one element, or with it the MX block that it lies in (R188, R67), and with it the settling of O44. -/

namespace Sys2Proof
namespace Machine

theorem latestBytes_here (s : State) {ps : List Place} (h : ps.all (fun p => p.away?.isNone) = true) :
    latestBytes s ps = (locsOf ps).map s.peek := by
  induction ps with
  | nil => rfl
  | cons p ps ih =>
    cases p with
    | away m v => simp [Place.away?] at h
    | here l k =>
      rw [latestBytes, List.map_cons]
      exact congrArg (s.peek l :: ·) (ih (all_here_tail h))

section
variable {s z : State}

/-- An element written: nothing outside its places changes, and its bytes stand at them if they are distinct. -/
theorem ReadFrom.writeElem (hs : s.hist = []) (hc : NoMigrationControl s) (hwf : memWf s.mem = true) (h : ReadFrom s z) (bd : Binder) (wr : Writer)
    (v : MemView) (reach : Reach) {d : Bound} {lo w : Nat} (x : Nat) {ps : List Place} (hp : homesFrom s (d.span lo w).1 (d.span lo w).2 = .ok ps)
    (ha : ps.all (fun p => p.away?.isNone) = true) : ∃ y z' v', Machine.writeElem z bd wr v reach d lo w x = .ok (z', v') ∧
      ReadFrom s y ∧ OnlyWrites y z' ∧ (∀ l, l ∉ locsOf ps → z'.peek l = s.peek l) ∧
      ((locsOf ps).Nodup → (locsOf ps).map z'.peek = elemBytes d lo w x ((locsOf ps).map s.peek)) := by
  obtain ⟨y, hy⟩ := (h.places_iff hs bd.ctx _ _ ps).2 hp
  have hr := (h.places hs hy).2
  have hcy := hr.noControl hc
  have hwy : memWf y.mem = true := by rw [hr.mem]; exact hwf
  have hb : (locsOf ps).map y.peek = (locsOf ps).map s.peek := List.map_congr_left (fun l _ => hr.peek l)
  -- what any store of the element's bytes at its places leaves
  have hstore : ∀ (wr : Writer) (v : MemView) (reach : Reach) (whole : Bool), let r := (storeBytes y wr v reach whole (d.span lo w).1 ps
      (elemBytes d lo w x ((locsOf ps).map s.peek))).1
      OnlyWrites y r ∧ (∀ l, l ∉ locsOf ps → r.peek l = s.peek l) ∧
      ((locsOf ps).Nodup → (locsOf ps).map r.peek = elemBytes d lo w x ((locsOf ps).map s.peek)) := fun wr v reach whole =>
    ⟨OnlyWrites.storeBytes .., fun l hl => (storeBytes_other hcy hwy ha _ _ _ _ _ _ hl).trans (hr.peek l),
      fun hd => storeBytes_same hcy hwy ha _ _ _ _ _ hd (by rw [length_elemBytes, List.length_map, length_locsOf ha])⟩
  unfold Machine.writeElem
  simp only [hy, notePage_off hcy]
  by_cases hk : d.mxk = 0
  · rw [if_pos hk, latestBytes_here y ha, hb]
    exact ⟨y, _, _, rfl, hr, hstore ..⟩
  · rw [if_neg hk, readParts_clean (hr.hist.trans hs) bd.agent v _ _ (all_of_mem_parts ha)]
    simp only [partsOf, cutAt_flatten, List.reverse_nil, List.nil_append, hb]
    exact ⟨y, _, _, rfl, hr, hstore ..⟩

end

section
variable {s : State} {p : Pontil} {o : QMemOp} {t : Target} {ps : List Place}

theorem runQst_writes (hq : Quiet s) (h : PontilReaches s p o { w := true } true t ps) (d : QReg) : ∃ y z v, ReadFrom s.popped y ∧ OnlyWrites y z ∧
    runQst s.popped p d o = .done z { p with view := v } false ∧ (∀ l, l ∉ locsOf ps → z.peek l = s.peek l) ∧
    ((locsOf ps).Nodup → (locsOf ps).map z.peek = elemBytes t.d t.lo t.f.w ((p.getQ d).toNat % 2 ^ t.f.w) ((locsOf ps).map s.peek)) := by
  obtain ⟨hh, hc, -⟩ := hq.popped
  obtain ⟨s₁, s₂, ht, hw, hp, hb, hr, hm⟩ := h.found hq
  obtain ⟨y, z, v, hz, hy, hyz, hother, hsame⟩ := hr.writeElem hh hc hq.sorted t.bd
    ⟨t.bd.agent, none, false, [], if o.order.isRelease then some (relOf s₂ t.bd.agent o.scope p.allView) else none⟩ p.view
    (reachOf (o.evict == 3)) ((p.getQ d).toNat % 2 ^ t.f.w) hm h.here.1
  refine ⟨y, z, v, hy, hyz, ?_, hother, hsame⟩
  unfold runQst
  simp only [ht, hw, hp, h.ordered, hb, onFarPontil_here _ _ _ h.here.1, Bool.false_eq_true, if_false]
  rw [hz]

/-- A span has as many bytes as places. -/
theorem length_map_locsOf {va n : Nat} {s : State} (h : homesFrom s va n = .ok ps) (ha : ps.all (fun p => p.away?.isNone) = true)
    (g : Nat → Byte) : ((locsOf ps).map g).length = n := by
  rw [List.length_map, length_locsOf ha, homesFrom_length h]

theorem span_small (d : Bound) (lo : Nat) {w : Nat} (hw : w ≤ 64) : (d.span lo w).2 < 2 ^ 64 := by
  have hk : ∀ k, mxBlockBytes k ≤ 33 := by
    intro k
    unfold mxBlockBytes mxDef
    dsimp only
    split <;> decide
  unfold Bound.span
  split
  · dsimp only; omega
  · exact lt_of_le_of_lt (hk _) (by decide)

theorem qst_writes {c : Common} {d : QReg} (hq : Quiet s) (hi : PontilPerforms s p (.qst c d o))
    (h : PontilReaches s p o { w := true } true t ps) : PontilAfter (exec (.qst c d o) s) p (fun s' p' => SameBut (locsOf ps) s s' ∧
      (t.d.mxk = 0 → NoFrameTwice s.popped t.bd.ctx → ElementIs s.popped s' t 0 ((p.getQ d).toNat % 2 ^ t.f.w)) ∧
      (t.d.mxk ≠ 0 → NoFrameTwice s.popped t.bd.ctx → BlockIs s.popped s' t ((p.getQ d).toNat % 2 ^ t.f.w)) ∧
      p'.q = p.q ∧ GoesOn p p' ∧ s'.full = s.full ∧ OnlyContext s s' p) := by
  obtain ⟨hh, -, hf⟩ := hq.popped
  obtain ⟨y, z, v, hy, hyz, hrun, hother, hsame⟩ := runQst_writes hq h d
  obtain ⟨-, -, -, -, -, -, -, hm⟩ := h.found hq
  have hdist : NoFrameTwice s.popped t.bd.ctx → (locsOf ps).Nodup := fun hn =>
    homesFrom_nodup hh hf hn (span_small _ _ h.legal.2) hm
  have hlen := length_map_locsOf hm h.here.1
  refine pontilAfter_done hi hrun ?_ ⟨hother, ?_, ?_, ?_, goesOn_advance hi ?_ ?_ ?_ ?_, ?_, ?_⟩
  · rfl
  · intro hk hn
    rw [elementIs_iff hh hf _ _ hm]
    exact (congrArg _ (hsame (hdist hn))).trans
      ((elemBits_elemBytes hk (by have := h.legal.1; omega) _ (hlen _)).trans (Nat.mod_mod _ _))
  · intro hk hn
    rw [blockIs_iff hh hf _ _ hm]
    exact (congrArg _ (hsame (hdist hn))).trans (ofBytes_elemBytes_alias hk _ (hlen _))
  · rfl
  · rfl
  · rfl
  · rfl
  · rfl
  · exact (congrArg State.full hyz :).trans (congrArg State.full hy.only :)
  · refine onlyContext_setPontil ?_ ?_ ?_ ?_ ?_ _
    · rfl
    · exact (congrArg State.pontils hyz :).trans (congrArg State.pontils hy.only :)
    · exact (congrArg State.workgroups hyz :).trans (congrArg State.workgroups hy.only :)
    · exact (congrArg State.launches hyz :).trans (congrArg State.launches hy.only :)
    · exact (congrArg State.ops hyz :).trans (congrArg State.ops hy.only :)

end

end Machine
end Sys2Proof

open Sys2Proof Sys2Proof.Machine

/-- Settles O44: with no write on record the places of an access are the homes of its bytes, whatever translation gives them. -/
theorem pontilMemory : Obligations.PontilMemory := by
  intro c d o s p t ps hq hl
  exact ⟨fun hi h => qld_reads hq hl hi h, fun hi h => qst_writes hq hi h⟩
end

section
/-! PROOFS. A page that a thread's write to the tables maps anew: a state whose one cached translation is that of the new tables, while those
before the write stay in effect for every other address, for want of a tlbinv (R255, R256). -/

namespace Sys2Proof
namespace Machine

/-! ## The state -/

/-- The leaf of 1 GiB of HBM4E from frame 0 that the table of die 0 held. -/
def oldLeaf : Nat := 2
/-- A table entry for the table at 4 GiB. -/
def newTable : Nat := 1 + 2 ^ 32
/-- A leaf of 2 MiB of HBM4E from byte 2^30. -/
def newLeaf : Nat := 2 + 2 ^ 30

/-- Memory before the write: byte 0 holds 1, byte 2^21 on a buffer table of one entry, 64 bytes from address 0 with r, w and a. -/
def memBefore : List Host.Cell :=
  placeBytes (placeBytes (placeBytes (placeBytes [] 0 [1]) (2 ^ 21) (bytesOf (64 * 2 ^ 64 + 7 * 2 ^ 128 + 2 ^ 132) 64)) (2 ^ 32) (bytesOf newLeaf 8))
    (2 ^ 33) (bytesOf oldLeaf 8)

/-- The write: a thread puts the table entry in place of the leaf. -/
def remapCells : List WrCell := (List.range 8).map (fun k => ⟨2 ^ 33 + k, (bytesOf newTable 8).getD k 0, (bytesOf oldLeaf 8).getD k 0⟩)
def remapWrite : WriteRec := ⟨0, [], .thread ⟨0, 0, 0⟩ 7 0 0, none, false, none, false, remapCells, [], none⟩

/-- The translation that is cached: of the first 2 MiB, by the new tables. -/
def newEntry : TlbEntry := ⟨0, 0, 21, BitVec.ofNat 64 newLeaf, 0⟩

/-- A thread with 5 in v2, and a launch whose binding 0 names entry 0. -/
def remapThread : Thread := { freshThread 0 255 0 with regs := [0, 0, 5] ++ List.replicate 252 0 }
def remapMember : Member := ⟨{ placedWg with threads := [remapThread] }, remapThread, [0]⟩
def remapped : State :=
  { State.reset with
      mem := placeBytes memBefore (2 ^ 33) (bytesOf newTable 8), hist := [remapWrite], nextWrite := 1
      roots := [2 ^ 33, 0, 0, 0, 0, 0], tlb := [newEntry]
      contexts := [⟨0, 0, true, false, false, BitVec.ofNat 64 (2 ^ 21), 1⟩], launches := [{ placedLaunch with block := 2 ^ 16 * 2 ^ 512 }]
      workgroups := [remapMember.wg], issue := [.gang 0 [0]] }

/-- The state before the write, with nothing cached. -/
def beforeRemap : State := { remapped with mem := memBefore, hist := [], tlb := [] }

/-! ## Walks of the new tables, and of those in effect -/

/-- Nothing stands above the tables. -/
theorem remapped_high {l : Nat} (h : 2 ^ 32 + 8 ≤ l) (h' : l < 2 ^ 33 ∨ 2 ^ 33 + 8 ≤ l) : remapped.peek l = 0 := by
  have hm : remapped.mem.all (fun c => decide (c.1 < 2 ^ 32 + 8 ∨ (2 ^ 33 ≤ c.1 ∧ c.1 < 2 ^ 33 + 8))) = true := by decide +kernel
  apply memGet_of_not_listed
  intro c hc
  have := (List.all_eq_true.1 hm) c hc
  simp only [decide_eq_true_eq] at this
  omega

theorem tableEntry_zero {y : State} {die a : Nat} (h : ∀ k, k < 8 → y.peek (ownLoc die a + k) = 0) : tableEntry y die a = 0 := by
  unfold tableEntry
  split
  · exact peekNat_zero h
  · rfl

theorem tableEntry_congr {y z : State} {die a : Nat} (h : ∀ k, k < 8 → y.peek (ownLoc die a + k) = z.peek (ownLoc die a + k)) :
    tableEntry y die a = tableEntry z die a := by
  unfold tableEntry State.peekNat
  rw [List.map_congr_left (fun k hk => h k (List.mem_range.1 hk))]

/-- The new tables map the first 2 MiB of die 0, and nothing else. -/
theorem walk_remapped {y : State} (hr : y.roots = remapped.roots) (hm : y.mode = remapped.mode)
    (hy : ∀ l, 2 ^ 32 ≤ l → y.peek l = remapped.peek l) {die ofs : Nat} (hd : die < 6) (ho : ofs < 2 ^ 50) :
    walk y die ofs = if die = 0 ∧ ofs < 2 ^ 21 then some (newLeaf, 21, 2 ^ 32) else none := by
  have hz : ∀ {die a}, 2 ^ 32 + 8 ≤ ownLoc die a → (ownLoc die a + 8 ≤ 2 ^ 33 ∨ 2 ^ 33 + 8 ≤ ownLoc die a) → tableEntry y die a = 0 :=
    fun h1 h2 => tableEntry_zero (fun k hk => by rw [hy _ (by omega), remapped_high (by omega) (by omega)])
  have hl0 : ∀ bits, leafValid y.mode die bits 0 = false := leafValid_zero _ _
  have ht0 : tableValid 0 = false := by decide
  have hroot : y.roots.getD die 0 = if die = 0 then 2 ^ 33 else 0 := by
    rw [hr]
    interval_cases die <;> rfl
  by_cases hc : die = 0 ∧ ofs < 2 ^ 30
  · obtain ⟨rfl, hs⟩ := hc
    have e0 : ofs / 2 ^ 30 = 0 := by omega
    have he1 : tableEntry y 0 (2 ^ 33) = newTable := by
      rw [tableEntry_congr (z := remapped) (fun k _ => hy _ (by simp only [ownLoc, hbmLoc, show (0 : Nat) < 4 by decide, if_true]; omega))]
      decide +kernel
    have hl1 : leafValid y.mode 0 30 newTable = false := by rw [hm]; decide +kernel
    have ht1 : tableValid newTable = true := by decide +kernel
    have hn : natField newTable 8 44 * 256 = 2 ^ 32 := by decide +kernel
    simp only [walk, walkBy, hroot, if_true, e0, Nat.mul_zero, Nat.add_zero, he1, hl1, ht1, hn, Bool.false_eq_true, if_false, Bool.not_true]
    by_cases hp : ofs < 2 ^ 21
    · have e1 : ofs / 2 ^ 21 = 0 := by omega
      have he2 : tableEntry y 0 (2 ^ 32) = newLeaf := by
        rw [tableEntry_congr (z := remapped) (fun k _ => hy _ (by simp only [ownLoc, hbmLoc, show (0 : Nat) < 4 by decide, if_true]; omega))]
        decide +kernel
      have hl2 : leafValid y.mode 0 21 newLeaf = true := by rw [hm]; decide +kernel
      simp only [e1, Nat.zero_mod, Nat.mul_zero, Nat.add_zero, he2, hl2, if_true, hp, and_self]
      rfl
    · have he2 : tableEntry y 0 (2 ^ 32 + 8 * (ofs / 2 ^ 21 % 512)) = 0 := by
        apply hz <;> simp only [ownLoc, hbmLoc, show (0 : Nat) < 4 by decide, if_true] <;> omega
      simp only [he2, hl0, ht0, hp, and_false, Bool.false_eq_true, if_false, Bool.not_false, if_true]
  · have he1 : tableEntry y die (y.roots.getD die 0 + 8 * (ofs / 2 ^ 30)) = 0 := by
      rw [hroot]
      rcases die with _ | n
      · apply hz <;> simp only [ownLoc, hbmLoc, show (0 : Nat) < 4 by decide, if_true] <;> omega
      · apply hz <;> simp only [ownLoc, hbmLoc, lpddrLoc, Nat.add_one_ne_zero, if_false] <;> split <;> omega
    have hn : ¬ (die = 0 ∧ ofs < 2 ^ 21) := by omega
    simp only [walk, walkBy, he1, hl0, ht0, hn, Bool.false_eq_true, if_false, Bool.not_false, if_true]

theorem remapped_hist : remapped.hist = [remapWrite] := rfl

/-- A byte of a table in effect is that before the write, at whatever number it must come. -/
theorem byteInEffect_remapped (n l : Nat) (hn : n = 0) : byteInEffect remapped n l = beforeRemap.peek l := by
  subst hn
  have h1 : byteInEffect remapped 0 l = initialByte remapped l := by
    simp [byteInEffect, remapped_hist, remapWrite]
  rw [h1]
  by_cases hl : 2 ^ 33 ≤ l ∧ l < 2 ^ 33 + 8
  · obtain ⟨k, hk, rfl⟩ : ∃ k, k < 8 ∧ l = 2 ^ 33 + k := ⟨l - 2 ^ 33, by omega, by omega⟩
    have : ∀ k, k < 8 → initialByte remapped (2 ^ 33 + k) = beforeRemap.peek (2 ^ 33 + k) := by decide +kernel
    exact this k hk
  · have ht : remapWrite.touches [l] = false := by
      simp only [WriteRec.touches, remapWrite, remapCells, List.any_map, List.any_eq_false, List.mem_range]
      intro k hk
      simp only [Function.comp, List.contains_cons, List.contains_nil, Bool.or_false, beq_iff_eq]
      omega
    have h2 : initialByte remapped l = remapped.peek l := by
      simp [initialByte, remapped_hist, ht]
    rw [h2]
    have hw : memWf memBefore = true := by decide +kernel
    refine (memGet_putAll_other (xs := ((List.range 8).zip (bytesOf newTable 8)).map (fun p => (2 ^ 33 + p.1, p.2))) hw (fun hm => hl ?_) :)
    simp only [List.map_map, List.mem_map, Function.comp] at hm
    obtain ⟨q, hq, rfl⟩ := hm
    have := List.mem_range.1 (List.of_mem_zip hq).1
    omega

theorem walkBy_congr {y z : State} (hr : y.roots = z.roots) (hm : y.mode = z.mode) (e : Nat → Nat → Nat) (die ofs : Nat) :
    walkBy y e die ofs = walkBy z e die ofs := by
  unfold walkBy
  rw [hr, hm]

theorem oneLeaf_beforeRemap : oneLeaf beforeRemap oldLeaf = true := by decide +kernel


theorem beforeRemap_roots : beforeRemap.roots = remapped.roots := rfl
theorem beforeRemap_mode : beforeRemap.mode = remapped.mode := rfl
theorem walk_beforeRemap {die ofs : Nat} (hd : die < 6) (ho : ofs < 2 ^ 50) :
    walk beforeRemap die ofs = if die = 0 ∧ ofs < 2 ^ 30 then some (oldLeaf, 30, hbmLoc 0 (2 ^ 33)) else none :=
  walk_leaf oneLeaf_beforeRemap rfl rfl (fun _ _ _ => rfl) hd ho

theorem entryInEffect_remapped (die ofs : Nat) : (fun a bits => if a + 8 ≤ ownBytes die then
      ofBytes ((List.range 8).map (fun i => byteInEffect remapped (coveredFrom remapped die ofs bits) (ownLoc die a + i))) else 0) =
    fun a (_ : Nat) => tableEntry beforeRemap die a := by
  funext a bits
  unfold tableEntry State.peekNat
  congr 2
  exact List.map_congr_left (fun i _ => byteInEffect_remapped _ _ rfl)

/-- The tables in effect map the first 1 GiB of die 0 where they mapped it before the write. -/
theorem walkInEffect_remapped {die ofs : Nat} (hd : die < 6) (ho : ofs < 2 ^ 50) :
    walkInEffect remapped die ofs = if die = 0 ∧ ofs < 2 ^ 30 then some (oldLeaf, 30, hbmLoc 0 (2 ^ 33)) else none := by
  rw [← walk_beforeRemap hd ho]
  unfold walkInEffect walk
  rw [if_neg (by rw [remapped_hist]; decide), entryInEffect_remapped, walkBy_congr beforeRemap_roots beforeRemap_mode]

theorem walkInEffect_popped (s : State) (die ofs : Nat) : walkInEffect s.popped die ofs = walkInEffect s die ofs := rfl

/-! ## Hypotheses of claims -/

theorem newEntry_covers (die ofs : Nat) : newEntry.covers die ofs = decide (die = 0 ∧ ofs < 2 ^ 21) := by
  simp only [TlbEntry.covers, newEntry, Bool.and_eq_decide, beq_iff_eq, decide_eq_decide]
  omega

theorem newEntry_leaf : newEntry.leaf.toNat = newLeaf := by decide

theorem leafLoc_newLeaf {ofs : Nat} (h : ofs < 2 ^ 21) : leafLoc newLeaf 21 ofs = 2 ^ 30 + ofs := by
  have h1 : natField newLeaf 16 36 = 2 ^ 14 := by decide
  have h2 : natField newLeaf 4 2 = 0 := by decide
  have h3 : natField newLeaf 6 2 = 0 := by decide
  simp only [leafLoc, h1, h2, h3, hbmLoc]
  omega

theorem leafLoc_oldLeaf {ofs : Nat} (h : ofs < 2 ^ 30) : leafLoc oldLeaf 30 ofs = ofs := by
  have h1 : natField oldLeaf 16 36 = 0 := by decide
  have h2 : natField oldLeaf 4 2 = 0 := by decide
  have h3 : natField oldLeaf 6 2 = 0 := by decide
  simp only [leafLoc, h1, h2, h3, hbmLoc]
  omega

theorem tlbFresh_remapped : TlbFresh remapped := by
  intro t ht ofs hc
  have ht : t = newEntry := List.mem_singleton.1 ht
  subst ht
  rw [newEntry_covers, decide_eq_true_eq] at hc
  rw [walk_remapped rfl rfl (fun _ _ => rfl) (by decide : newEntry.die < 6) (by omega), if_pos hc, newEntry_leaf]
  exact ⟨_, rfl⟩

theorem noCounts_remapped : NoMigrationControl remapped := noCounts_of (by decide)

/-- A paged address of the first 2 MiB is where the new tables put it, another of the first 1 GiB where it was before. -/
theorem translate_remapped {ctx va l : Nat} {k : PageKind} {z : State} (h : translate remapped.popped ctx va = .ok (.here l k, z)) :
    vaModule va = 0 ∧ ((inWindow va = true ∧ l = sramLoc (vaDie va) (vaOfs va - windowBase)) ∨
      (vaDie va = 0 ∧ ((vaOfs va < 2 ^ 21 ∧ l = 2 ^ 30 + vaOfs va) ∨ (2 ^ 21 ≤ vaOfs va ∧ vaOfs va < 2 ^ 30 ∧ l = vaOfs va)))) := by
  have hmod : remapped.popped.module.toNat = 0 := rfl
  have htlb : remapped.popped.tlb = [newEntry] := rfl
  have ho : vaOfs va < 2 ^ 50 := Nat.mod_lt _ (by decide)
  unfold translate at h
  rw [hmod] at h
  dsimp only at h
  split at h
  · cases h
  · next hm =>
    refine ⟨not_not.1 hm, ?_⟩
    split at h
    · cases h
    · next h6 =>
      split at h
      · next hw =>
        split at h
        · simp only [Except.ok.injEq, Prod.mk.injEq, Place.here.injEq] at h
          exact .inl ⟨hw, h.1.1.symm⟩
        · cases h
      · refine .inr ?_
        unfold translatePaged at h
        rw [htlb, walkInEffect_popped, walkInEffect_remapped (by omega) ho, List.find?_singleton, newEntry_covers] at h
        by_cases hc : vaDie va = 0 ∧ vaOfs va < 2 ^ 21
        · rw [if_pos (decide_eq_true hc)] at h
          simp only [Except.ok.injEq, Prod.mk.injEq, Place.here.injEq] at h
          rw [← h.1.1]
          exact ⟨hc.1, .inl ⟨hc.2, (congrArg (leafLoc · 21 (vaOfs va)) newEntry_leaf).trans (leafLoc_newLeaf hc.2)⟩⟩
        · rw [if_neg (by simpa using hc)] at h
          by_cases hs : vaDie va = 0 ∧ vaOfs va < 2 ^ 30
          · rw [if_pos hs] at h
            simp only [Except.ok.injEq, Prod.mk.injEq, Place.here.injEq] at h
            rw [← h.1.1]
            exact ⟨hs.1, .inr ⟨by omega, hs.2, leafLoc_oldLeaf hs.2⟩⟩
          · rw [if_neg hs] at h
            cases h

theorem noFrameTwice_remapped (ctx : Nat) : NoFrameTwice remapped.popped ctx := by
  intro va va' l k k' z z' h h'
  obtain ⟨hm, hl⟩ := translate_remapped h
  obtain ⟨hm', hl'⟩ := translate_remapped h'
  have hb : windowBase = 0x3FFFFF0000000 := rfl
  have hwin : ∀ {v}, inWindow v = true → vaDie v < 4 ∧ windowBase ≤ vaOfs v := fun hw => by
    simpa only [inWindow, Bool.and_eq_true, decide_eq_true_eq] using hw
  have hmod : va % 2 ^ 64 = vaModule va * 2 ^ 53 + vaDie va * 2 ^ 50 + vaOfs va := by unfold vaModule vaDie vaOfs; omega
  have hmod' : va' % 2 ^ 64 = vaModule va' * 2 ^ 53 + vaDie va' * 2 ^ 50 + vaOfs va' := by unfold vaModule vaDie vaOfs; omega
  have ho : vaOfs va < 2 ^ 50 := Nat.mod_lt _ (by decide)
  have ho' : vaOfs va' < 2 ^ 50 := Nat.mod_lt _ (by decide)
  rw [hmod, hmod', hm, hm']
  rcases hl with ⟨hw, hl⟩ | hl <;> rcases hl' with ⟨hw', hl'⟩ | hl'
  · have := hwin hw
    have := hwin hw'
    simp only [sramLoc] at hl hl'
    omega
  · simp only [sramLoc] at hl
    omega
  · simp only [sramLoc] at hl'
    omega
  · omega

/-- No table stands below 4 GiB. -/
theorem tablesApart_remapped {ls : List Nat} (h : ∀ l ∈ ls, l < 2 ^ 32) : TablesApart remapped ls := by
  intro z hr hm hz die ofs hd ho
  rw [walk_remapped rfl rfl (fun _ _ => rfl) hd ho]
  exact walk_remapped hr hm (fun l hl => hz l (fun hi => by have := h l hi; omega)) hd ho

end Machine
end Sys2Proof
end

section
/-! PROOFS. Loads, stores and atomics of an element whose page a cached translation maps by the new tables, and whose buffer table entry is read
through the old ones: the access goes where the old tables point. -/

namespace Sys2Proof
namespace Machine

/-- Element 0 of f0 on binding 0. -/
def firstElement : MemOp := ⟨0xFF, 0, 0, .thread, .plain, 0, false, 0⟩
def remapBound : Bound := boundOf (64 * 2 ^ 64 + 7 * 2 ^ 128 + 2 ^ 132)
def remapTarget : Target := ⟨binderOf remapped.popped remapMember.wg remapMember.t, remapBound, 0, f0def⟩

/-- Eight places from a location of HBM4E, on an RC page. -/
def eightFrom (l : Nat) : List Place := (List.range 8).map (fun i => .here (l + i) .rc)

theorem remapped_performs (i : Instr)
    (hi : i ∈ [.ld ⟨0, .always⟩ 3 firstElement, .st ⟨0, .always⟩ 2 firstElement, .atomXchg ⟨0, .always⟩ 2 firstElement]) :
    PerformsAlone remapped remapMember i := (performs_of (by decide +kernel) i hi).2

/-- The access reaches the places of the old tables, once it has read its entry. -/
theorem remapped_reaches : ∀ n ∈ [({ r := true }, false), ({ w := true }, true), (({ a := true } : Rights), true)],
    Reaches remapped remapMember firstElement (fun _ => 1) n.1 n.2 remapTarget (eightFrom 0) := by
  intro n hn
  have h : ∀ n ∈ [({ r := true }, false), ({ w := true }, true), (({ a := true } : Rights), true)],
      reachesB remapped remapMember firstElement (fun _ => 1) n.1 n.2 (fun t ps => t == remapTarget && ps == eightFrom 0) = true := by
    decide +kernel
  obtain ⟨t, ps, hr, hq⟩ := reaches_of (h n hn)
  simp only [Bool.and_eq_true, beq_iff_eq] at hq
  rwa [hq.1, hq.2] at hr

theorem untouched_remapped : Untouched remapped (locsOf (eightFrom 0)) := by
  have h : remapped.hist.all (fun r => r.cells.all (fun c => !((locsOf (eightFrom 0)).contains c.loc))) = true := by decide +kernel
  intro r hr c hc
  have := (List.all_eq_true.1 ((List.all_eq_true.1 h) r hr)) c hc
  simpa using this

/-- A claim about the element speaks of the places of the new tables, in the state as it stands when the access begins. -/
theorem elementIs_remapped {s : State} (hs : s ∈ [remapped, remapped.popped]) {s' : State} {x : Nat} (h : ElementIs s s' remapTarget 0 x) :
    ofBytes ((locsOf (eightFrom (2 ^ 30))).map s'.peek) % 2 ^ 64 = x := by
  have hp : ∀ s ∈ [remapped, remapped.popped], okP (places s 0 0 8) (fun y => y.1 == eightFrom (2 ^ 30)) = true := by decide +kernel
  have hbits : remapTarget.bd.ctx = 0 ∧ remapTarget.d.span (remapTarget.bit 0) remapTarget.f.w = (0, 8) ∧ remapTarget.d.mxk = 0 ∧
      remapTarget.bit 0 = 0 ∧ remapTarget.f.w = 64 := by decide +kernel
  obtain ⟨hc, hsp, hk, hb, hw⟩ := hbits
  obtain ⟨⟨ps, z⟩, hz, hq⟩ := okP_of (hp s hs)
  obtain rfl : ps = eightFrom (2 ^ 30) := beq_iff_eq.1 hq
  have := h (eightFrom (2 ^ 30)) z (by rw [hc, hsp]; exact hz)
  simpa only [elemBits, hk, hb, hw, if_true, natField, Nat.zero_mod, Nat.pow_zero, Nat.div_one] using this

/-- There memory holds zeros. -/
theorem remapped_new_bytes : ofBytes ((locsOf (eightFrom (2 ^ 30))).map remapped.peek) % 2 ^ 64 = 0 := by decide +kernel

/-- What the load owes is the byte under the old tables. -/
theorem exec_ld_remapped : nextP (exec (.ld ⟨0, .always⟩ 3 firstElement) remapped) (fun s' => someP (s'.thread? 0 0) (fun t' =>
    t'.owed.map (·.writes) == [[.v 3 1]])) = true := by decide +kernel

/-- The store leaves the places of the new tables as they were. -/
theorem exec_st_remapped : nextP (exec (.st ⟨0, .always⟩ 2 firstElement) remapped) (fun s' =>
    ofBytes ((locsOf (eightFrom (2 ^ 30))).map s'.peek) % 2 ^ 64 == 0) = true := by decide +kernel

/-- What the atomic owes is the byte under the old tables. -/
theorem exec_xchg_remapped : nextP (exec (.atomXchg ⟨0, .always⟩ 2 firstElement) remapped) (fun s' => someP (s'.thread? 0 0) (fun t' =>
    t'.owed.map (·.writes) == [[.v 2 1]])) = true := by decide +kernel

/-- The one result that a thread owes after an instruction that nothing was owed before. -/
theorem writes_of_writesLater {o : Out} {m : Member} {i : Instr} {ws ws' : List RegWrite} {fl : Flags} {mem load : Bool}
    (h : WritesLater o m i ws fl mem load) (h0 : m.t.owed = [])
    (ho : nextP o (fun s' => someP (s'.thread? m.wg.uid m.t.tid) (fun t' => t'.owed.map (·.writes) == [ws'])) = true) : ws = ws' := by
  obtain ⟨s', t', rfl, ht, ⟨q, hq, hw, -⟩, -⟩ := h
  obtain ⟨s'', hs, hp⟩ := nextP_of ho
  cases hs
  obtain ⟨t'', ht', hp⟩ := someP_of hp
  rw [ht] at ht'
  cases ht'
  rw [hq, h0, beq_iff_eq] at hp
  simpa [hw] using hp

end Machine
end Sys2Proof

open Sys2Proof Sys2Proof.Machine

/-- Refutes O28: cached translations are fresh, and yet the load reads its buffer table entry by the tables that a thread's write without a
tlbinv leaves in effect; that caches a translation of the whole GiB before the fresh one of the element's page, and the load follows it. -/
theorem not_loads : ¬ Obligations.Loads := by
  intro h
  obtain ⟨x, hw, he, -⟩ := h ⟨0, .always⟩ 3 firstElement remapped remapMember _ _ remapTarget (eightFrom 0) (.inl ⟨rfl, rfl⟩)
    (remapped_performs _ (by simp)) tlbFresh_remapped (remapped_reaches _ (List.mem_cons_self ..))
  have hx := writes_of_writesLater (ws' := [.v 3 1]) hw rfl exec_ld_remapped
  have hx : x = 1 := by simpa using hx
  subst hx
  have := elementIs_remapped (by simp) (he untouched_remapped 0 (by decide))
  rw [remapped_new_bytes] at this
  revert this
  decide +kernel

/-- Refutes O29: the store goes where the old tables put the element's page, so that its element does not stand where the fresh translation
of the page, as of before the access, says. -/
theorem not_stores : ¬ Obligations.Stores := by
  intro h
  obtain ⟨-, s', hs, -, -, -, he, -⟩ := h ⟨0, .always⟩ 2 firstElement remapped remapMember _ _ remapTarget (eightFrom 0) (.inl ⟨rfl, rfl⟩)
    (remapped_performs _ (by simp)) tlbFresh_remapped noCounts_remapped (remapped_reaches ({ w := true }, true) (by simp))
    (tablesApart_remapped (by decide +kernel))
  have h0 : remapTarget.d.mxk = 0 := by decide +kernel
  have := elementIs_remapped (by simp) (he h0 (noFrameTwice_remapped _) 0 (by decide))
  obtain ⟨s'', hs', hp⟩ := nextP_of exec_st_remapped
  rw [hs] at hs'
  cases hs'
  rw [beq_iff_eq.1 hp] at this
  revert this
  decide +kernel

/-- Refutes O32: the atomic's step is on the byte under the old tables, and owes that. -/
theorem not_atomics : ¬ Obligations.Atomics := by
  intro h
  obtain ⟨old, s', ho, -, -, -, -, hw, -⟩ := h ⟨0, .always⟩ 2 firstElement remapped remapMember remapTarget (eightFrom 0) .xchg _ (by simp)
    (remapped_performs (.atomXchg ⟨0, .always⟩ 2 firstElement) (by simp)) tlbFresh_remapped noCounts_remapped (by decide +kernel)
    (remapped_reaches ({ a := true }, true) (by simp)) (by decide +kernel) untouched_remapped (noFrameTwice_remapped _)
  have hx := writes_of_writesLater (ws' := [.v 2 1]) hw rfl exec_xchg_remapped
  have := elementIs_remapped (by simp) ho
  rw [remapped_new_bytes] at this
  subst this
  revert hx
  decide
end

section
/-! PROOFS. An engine start whose record of a trace (R296) overwrites the buffer table entry that it then reads. -/

namespace Sys2Proof
namespace Machine

/-- cpy with its descriptor at element 0 of binding 0. -/
def tracedStart : Instr := .cpy ⟨0, .always⟩ firstElement

/-- A buffer table of one entry at byte 4,096 of the SRAM of die 0: 64 bytes from address 0, with r and w, owned by context 1. -/
def foreignEntry : Nat := 64 * 2 ^ 64 + 3 * 2 ^ 128 + 2 ^ 132 + 2 ^ 144

/-- The trace's control block at byte 0 of die 0: records of TYPE 6, a ring of four at the address of the table. -/
def traceBlock : List Byte := bytesOf (2 ^ 6 + (windowBase + 4096) * 2 ^ 64 + 4 * 2 ^ 128) 32

/-- A thread alone on issue in context 0, whose die keeps that trace. -/
def tracedMember : Member := ⟨{ placedWg with threads := [freshThread 0 255 0] }, freshThread 0 255 0, [0]⟩
def tracedState : State :=
  { State.reset with
      mem := placeBytes (placeBytes [] 0 traceBlock) (sramLoc 0 4096) (bytesOf foreignEntry 64)
      watches := [⟨0, some 0, none, none, none, 0, 0, 0⟩]
      contexts := [⟨0, 0, true, false, false, BitVec.ofNat 64 (windowBase + 4096), 1⟩], launches := [{ placedLaunch with block := 2 ^ 16 * 2 ^ 512 }]
      workgroups := [tracedMember.wg], issue := [.gang 0 [0]] }

/-- As the start is issued, its entry belongs to another context. -/
theorem entryOf_traced : okP (entryOf tracedState.popped (binderOf tracedState.popped tracedMember.wg tracedMember.t) 0)
    (fun x => x.1.mxk == 0 && x.1.owner == 1) = true := by decide +kernel

/-- Once the record stands in its place, it is no entry. -/
theorem exec_tracedStart : nextP (exec tracedStart tracedState) (fun s' =>
    someP (s'.thread? 0 0) (fun t => t.trap == some (.bindEmpty, 0))) = true := by decide +kernel

end Machine
end Sys2Proof

open Sys2Proof Sys2Proof.Machine

/-- Refutes O30: a gang's record of a trace is written before its members act. Where the ring covers the buffer table, the entry that an
engine start finds is not the one that stood there at its issue: it raises BIND_EMPTY where the statement has OWNER. -/
theorem not_accessChecks : ¬ Obligations.AccessChecks := by
  intro h
  have hp : PerformsAlone tracedState tracedMember tracedStart := (performs_of (is := [tracedStart]) (by decide +kernel) _ (by simp)).2
  obtain ⟨⟨b, z⟩, hb, hk⟩ := okP_of entryOf_traced
  simp only [Bool.and_eq_true, beq_iff_eq] at hk
  obtain ⟨-, hentry⟩ := h.2.1 ⟨0, .always⟩ 0 firstElement tracedState tracedMember tracedStart 8 64 { r := true, w := true } .recordAlign hp
    (.inr ⟨.inr (.inr (.inr ⟨by simp [tracedStart], rfl⟩)), rfl, rfl, rfl⟩)
  have howner : b.owner ≠ tracedMember.wg.ctx := by rw [hk.2]; decide
  obtain ⟨s', t', hs, ht, rfl, -⟩ := ((hentry b z hb).2 hk.1).1 howner
  obtain ⟨s'', hs', ho⟩ := nextP_of exec_tracedStart
  rw [hs] at hs'
  cases hs'
  obtain ⟨t'', ht', ho⟩ := someP_of ho
  have ht : s'.thread? 0 0 = _ := ht
  rw [ht] at ht'
  cases ht'
  revert ho
  decide +kernel
end

section
/-! PROOFS. A tier prefetch whose descriptor crosses the border of two modules: of its 64 bytes those that the completion writes lie in this
module, and those before them in another one, whose path is down. -/

namespace Sys2Proof
namespace Machine

/-- The prefetch, of no bytes: its status word is the first of this module. -/
def borderPrefetch : EngineOp :=
  { unit := .tpf 0, kind := .tpf, desc := 0, descAddr := 2 ^ 53 - 56, scope := .system, ctx := 0, launch := 0, handle := 0, buffers := [], fmts := []
    comp := none, view := .empty, early := [], plan := none, started := 0, peers := [], aborted := none }

/-- Module 1, whose die 0 maps its first GiB, with module 0 for a peer to which no port leads. -/
def borderState : State :=
  { State.reset with
      module := 1, mem := placeBytes [] (2 ^ 33) (bytesOf oldLeaf 8), roots := [2 ^ 33, 0, 0, 0, 0, 0], peers := [⟨0, 1, false, 0⟩]
      ops := [borderPrefetch] }

theorem oneLeaf_border : oneLeaf borderState oldLeaf = true := by decide +kernel

/-- A byte is here, on no UO page, and nothing of it waits. -/
def byteFreeB (s : State) (ctx va : Nat) : Bool :=
  okP (translate s ctx va) (fun x => match x.1 with
    | .here l kind => kind != .uo && [true, false].all (fun write => (blocked s write [.here l kind]).isNone)
    | .away _ _ => false)

theorem byteFree_of {s : State} {ctx va : Nat} (h : byteFreeB s ctx va = true) :
    ∃ l kind z, translate s ctx va = .ok (.here l kind, z) ∧ kind ≠ .uo ∧ ∀ write, blocked s write [.here l kind] = none := by
  obtain ⟨⟨p, z⟩, ht, hp⟩ := okP_of h
  cases p with
  | here l kind =>
    simp only [Bool.and_eq_true, bne_iff_ne, List.all_eq_true, Option.isNone_iff_eq_none] at hp
    exact ⟨l, kind, z, ht, hp.1, fun write => hp.2 write (by cases write <;> simp)⟩
  | away _ _ => cases hp

/-- Every byte that the prefetch writes is free, so that nothing that `EnginesFree` speaks of keeps it from completing. -/
theorem enginesFree_border : EnginesFree borderState 0 [borderPrefetch] [] [] where
  quiet := quiet_of (by decide +kernel)
  once := noFrameTwice_leaf oneLeaf_border 0
  whole := by
    intro op hop
    rw [List.mem_singleton.1 hop]
    exact ⟨rfl, rfl, rfl⟩
  reached := by
    have h : ([] ++ touchedBy [borderPrefetch] []).all (byteFreeB borderState 0) = true := by decide +kernel
    exact fun va hva => byteFree_of (List.all_eq_true.1 h va hva)
  apart := ⟨by decide +kernel, fun a ha => by cases ha⟩
  tables := tablesApart_leaf oneLeaf_border (by decide +kernel)

/-- The words before its status are behind a path that is down: the prefetch waits for them. -/
theorem completionWaits_border : completionWaits borderState borderPrefetch = true := by decide +kernel

end Machine
end Sys2Proof

open Sys2Proof Sys2Proof.Machine

/-- Refutes O54: a completion waits for the last 24 bytes of the descriptor, and `EnginesFree` speaks of the last 8 alone. Where a descriptor is
not aligned, the others may lie behind a path that is down: one clause has the prefetch wait, and another has it leave its engine. -/
theorem not_engineCompletions : ¬ Obligations.EngineCompletions := by
  intro h
  obtain ⟨-, -, -, -, hprefetch, -⟩ := h
  obtain ⟨hwaits, -, hends⟩ := (hprefetch borderState 0 0).2 borderPrefetch rfl
  have hstays := hwaits rfl (.inr completionWaits_border)
  obtain ⟨s', hs', -, -, hend⟩ := hends rfl enginesFree_border rfl (fun p hp => by cases hp)
  rw [hstays] at hs'
  cases hs'
  have hgone := hend.gone
  revert hgone
  decide +kernel
end

section
/-! PROOFS. What a view forces: floors (R83, R85), and a read that must see the latest write of a byte (R75, R76). -/

namespace Sys2Proof
namespace Machine

/-! ## Floors -/

theorem floorGet_floorSet (f : List (Nat × Nat)) (l k l' : Nat) :
    floorGet (floorSet f l k) l' = if l = l' then max (floorGet f l) k else floorGet f l' := by
  induction f with
  | nil => by_cases h : l = l' <;> simp [floorSet, floorGet, h]
  | cons p f ih =>
    obtain ⟨m, j⟩ := p
    by_cases hm : m = l
    · subst hm
      by_cases h : m = l' <;> simp [floorSet, floorGet, h]
    · by_cases h : m = l'
      · subst h
        simp [floorSet, floorGet, hm, Ne.symm hm]
      · simp [floorSet, floorGet, hm, h, ih]

/-- A floor that a list of writes has raised is nowhere lower, and not below any of them at its byte. -/
theorem le_floorGet_foldl {α : Type} (loc id : α → Nat) (xs : List α) (f : List (Nat × Nat)) :
    (∀ l, floorGet f l ≤ floorGet (xs.foldl (fun f x => floorSet f (loc x) (id x)) f) l) ∧
    ∀ x ∈ xs, id x ≤ floorGet (xs.foldl (fun f x => floorSet f (loc x) (id x)) f) (loc x) := by
  induction xs generalizing f with
  | nil => exact ⟨fun l => le_refl _, fun x hx => by cases hx⟩
  | cons y ys ih =>
    obtain ⟨hkept, hraised⟩ := ih (floorSet f (loc y) (id y))
    refine ⟨fun l => le_trans ?_ (hkept l), fun x hx => ?_⟩
    · rw [floorGet_floorSet]
      split
      · next h => rw [h]; exact le_max_left _ _
      · exact le_refl _
    · rcases List.mem_cons.1 hx with rfl | hx
      · refine le_trans ?_ (hkept _)
        rw [floorGet_floorSet, if_pos rfl]
        exact le_max_right _ _
      · exact hraised x hx

theorem floorGet_le_floorRaise (f : List (Nat × Nat)) (bytes : List (Nat × Byte)) (id l : Nat) :
    floorGet f l ≤ floorGet (floorRaise f bytes id) l := (le_floorGet_foldl _ _ bytes f).1 l

theorem le_floorGet_floorRaise (f : List (Nat × Nat)) {bytes : List (Nat × Byte)} (id : Nat) {l : Nat} (h : l ∈ bytes.map (·.1)) :
    id ≤ floorGet (floorRaise f bytes id) l := by
  obtain ⟨p, hp, rfl⟩ := List.mem_map.1 h
  exact (le_floorGet_foldl (fun p : Nat × Byte => p.1) (fun _ => id) bytes f).2 p hp

theorem floorGet_mem (f : List (Nat × Nat)) (l : Nat) : floorGet f l = 0 ∨ (l, floorGet f l) ∈ f := by
  induction f with
  | nil => exact .inl rfl
  | cons p f ih =>
    obtain ⟨m, k⟩ := p
    by_cases h : m = l
    · exact .inr (by simp [floorGet, h])
    · simpa [floorGet, h, Ne.symm h] using ih

theorem floorGet_le_floorJoin_left (a b : List (Nat × Nat)) (l : Nat) : floorGet a l ≤ floorGet (floorJoin a b) l :=
  (le_floorGet_foldl _ _ b a).1 l

theorem floorGet_le_floorJoin_right (a b : List (Nat × Nat)) (l : Nat) : floorGet b l ≤ floorGet (floorJoin a b) l := by
  rcases floorGet_mem b l with h | h
  · rw [h]; exact Nat.zero_le _
  · exact (le_floorGet_foldl (fun p : Nat × Nat => p.1) (fun p => p.2) b a).2 _ h

/-! ## Writes -/

theorem Actor.same_refl (a : Actor) : a.same a = true := by cases a <;> simp [Actor.same]

theorem mem_unionOf {α : Type} [BEq α] [LawfulBEq α] {a b : List α} {x : α} : x ∈ unionOf a b ↔ x ∈ a ∨ x ∈ b := by
  simp only [unionOf, List.mem_append, List.mem_filter, Bool.not_eq_true', List.contains_eq_mem, decide_eq_false_iff_not]
  tauto

theorem WriteRec.named_id (r : WriteRec) : r.named r.id = true := by simp [WriteRec.named]

theorem WriteRec.touches_singleton {r : WriteRec} {l : Nat} : r.touches [l] = true ↔ ∃ c ∈ r.cells, c.loc = l := by
  simp [WriteRec.touches]

/-- Of bytes at different locations, the one at a location. -/
theorem find?_of_nodup {bytes : List (Nat × Byte)} {l : Nat} {b : Byte} (hd : (bytes.map (·.1)).Nodup) (hb : (l, b) ∈ bytes) :
    bytes.find? (fun p => p.1 == l) = some (l, b) := by
  cases h : bytes.find? (fun p => p.1 == l) with
  | none => simpa using List.find?_eq_none.1 h _ hb
  | some p =>
    have hp : p.1 = l := by simpa using List.find?_some h
    rw [List.inj_on_of_nodup_map hd (List.mem_of_find?_eq_some h) hb hp]

/-- The write of bytes has the byte that it writes at a location. -/
theorem byte?_writeRecOf (s : State) (w : Writer) (kind : Option PageKind) {bytes : List (Nat × Byte)} {l : Nat} {b : Byte}
    (hd : (bytes.map (·.1)).Nodup) (hb : (l, b) ∈ bytes) : (writeRecOf s w kind bytes).byte? l = some b := by
  simp only [WriteRec.byte?, writeRecOf, cellsOf, List.find?_map, Function.comp_def, find?_of_nodup hd hb, Option.map_some]

theorem touches_writeRecOf (s : State) (w : Writer) (kind : Option PageKind) (bytes : List (Nat × Byte)) (l : Nat) :
    (writeRecOf s w kind bytes).touches [l] = true ↔ l ∈ bytes.map (·.1) := by
  rw [WriteRec.touches_singleton]
  simp [writeRecOf, cellsOf]

theorem WriteRec.touches_of_byte? {r : WriteRec} {l : Nat} {x : Byte} (h : r.byte? l = some x) : r.touches [l] = true := by
  obtain ⟨c, hc, -⟩ := Option.map_eq_some_iff.1 h
  exact WriteRec.touches_singleton.2 ⟨c, List.mem_of_find?_eq_some hc, by simpa using List.find?_some hc⟩

section
variable (s : State) (w : Writer) (kind : Option PageKind) {bytes : List (Nat × Byte)} (v : MemView)

theorem commit_hist (h : bytes ≠ []) : (commit s w kind bytes v).1.hist = writeRecOf s w kind bytes :: s.hist := by
  rw [commit, if_neg (by simpa using h)]

/-- The agent of a write sees it: one to a UO page by its number, another by its floor. -/
theorem commit_view (h : bytes ≠ []) : (commit s w kind bytes v).2 = if kind = some .uo then { v with uo := v.uo ++ [s.nextWrite] }
    else { v with floor := floorRaise v.floor bytes s.nextWrite } := by
  rw [commit, if_neg (by simpa using h)]

theorem commit_mode : (commit s w kind bytes v).1.mode = s.mode := by
  unfold commit; split <;> rfl

/-- The writes of a byte after one more: that write before the others. -/
theorem filter_touches_commit {l : Nat} (h : l ∈ bytes.map (·.1)) : (commit s w kind bytes v).1.hist.filter (fun r => r.touches [l]) =
    writeRecOf s w kind bytes :: s.hist.filter (fun r => r.touches [l]) := by
  have hne : bytes ≠ [] := by rintro rfl; cases h
  rw [commit_hist _ _ _ _ hne]
  exact List.filter_cons_of_pos (p := fun r : WriteRec => r.touches [l]) ((touches_writeRecOf ..).2 h)

/-- A write of other bytes is none of a byte's. -/
theorem filter_touches_commit_other {l : Nat} (h : l ∉ bytes.map (·.1)) :
    (commit s w kind bytes v).1.hist.filter (fun r => r.touches [l]) = s.hist.filter (fun r => r.touches [l]) := by
  by_cases hne : bytes = []
  · subst hne; rfl
  · rw [commit_hist _ _ _ _ hne]
    exact List.filter_cons_of_neg (p := fun r : WriteRec => r.touches [l]) (fun ht => h ((touches_writeRecOf ..).1 ht))

end

/-! ## Reads of one byte -/

/-- A write that binds the reader stands in coherence order among those seen. -/
theorem sightOf_strict {a : ReadAs} {v : MemView} {locs : List Nat} {g : Sight} {r : WriteRec} (h : strictFor g.s.mode a.agent r = true) :
    (sightOf a v locs g r).top = g.top ∧ g.sel <+: (sightOf a v locs g r).sel ∧ (sightOf a v locs g r).s.mode = g.s.mode := by
  unfold sightOf
  rw [if_pos (by simp [h])]
  split
  · exact ⟨rfl, List.prefix_append _ _, rfl⟩
  · split
    · exact ⟨rfl, List.prefix_rfl, rfl⟩
    · dsimp only
      split
      · exact ⟨rfl, List.prefix_rfl, State.pick_mode ..⟩
      · exact ⟨rfl, List.prefix_append _ _, State.pick_mode ..⟩

theorem foldl_sightOf_strict {a : ReadAs} {v : MemView} {locs : List Nat} (rs : List WriteRec) (g : Sight)
    (h : ∀ r ∈ rs, strictFor g.s.mode a.agent r = true) :
    (rs.foldl (sightOf a v locs) g).top = g.top ∧ g.sel <+: (rs.foldl (sightOf a v locs) g).sel := by
  induction rs generalizing g with
  | nil => exact ⟨rfl, List.prefix_rfl⟩
  | cons r rs ih =>
    obtain ⟨htop, hsel, hmode⟩ := sightOf_strict (v := v) (locs := locs) (h r (List.mem_cons_self ..))
    obtain ⟨htop', hsel'⟩ := ih (sightOf a v locs g r) (fun x hx => by rw [hmode]; exact h x (List.mem_cons_of_mem _ hx))
    exact ⟨htop'.trans htop, hsel.trans hsel'⟩

/-- Where the latest write must be seen, the moment of the access leaves none out. -/
theorem seeable_of_mustSee {s : State} {a : ReadAs} {v : MemView} {locs : List Nat} {r : WriteRec} {rs : List WriteRec}
    (h : mustSee s a v locs r = true) : seeable s a v locs (r :: rs) = (r :: rs, s) := by
  unfold seeable
  split <;> simp [List.findIdx_cons, h, State.pick]

/-- A read of a byte, of a write that it must see and that no other has followed, gives what that wrote (R75, R76). -/
theorem readCut_of_mustSee {s : State} {a : ReadAs} {v : MemView} {l : Nat} {x : Byte} {r : WriteRec} {rs : List WriteRec}
    (hrs : s.hist.filter (fun r => r.touches [l]) = r :: rs) (hmix : mixedAt s a.kind l = false)
    (hstrict : ∀ y ∈ r :: rs, strictFor s.mode a.agent y = true) (hsee : mustSee s a v [l] r = true) (hx : r.byte? l = some x) :
    (readCut s a v [l]).1 = [x] := by
  have hfirst : sightOf a v [l] ⟨[], [], s⟩ r = ⟨[], [r], s⟩ := by
    have hr := hstrict r (List.mem_cons_self ..)
    simp [sightOf, hr, forced, hsee]
  obtain ⟨htop, hsel⟩ := foldl_sightOf_strict (v := v) (locs := [l]) rs ⟨[], [r], s⟩ (fun y hy => hstrict y (List.mem_cons_of_mem _ hy))
  have hsight : sightFor s a v [l] = rs.foldl (sightOf a v [l]) ⟨[], [r], s⟩ := by
    simp only [sightFor, hrs, List.any_cons, hmix, List.any_nil, Bool.or_false, Bool.false_eq_true, and_false, if_false,
      seeable_of_mustSee hsee, List.foldl_cons, hfirst]
  have hsource : (sightFor s a v [l]).source? l = some r := by
    obtain ⟨more, hmore⟩ := hsel
    rw [hsight, Sight.source?, htop, ← hmore, List.nil_append, List.singleton_append]
    exact List.find?_cons_of_pos (p := fun r : WriteRec => r.touches [l]) (WriteRec.touches_of_byte? hx)
  simp only [readCut, List.map_cons, List.map_nil, Sight.byte, hsource, hx, Option.getD_some]

/-- A view whose floor at a byte a write does not exceed must see the write. -/
theorem mustSee_of_floor {s : State} {a : ReadAs} {v : MemView} {l : Nat} {r : WriteRec} (ht : r.touches [l] = true)
    (h : r.id ≤ floorGet v.floor l) : mustSee s a v [l] r = true := by
  obtain ⟨c, hc, rfl⟩ := WriteRec.touches_singleton.1 ht
  simp only [mustSee, Bool.or_eq_true, List.any_eq_true]
  exact .inr ⟨c, hc, by simp [h]⟩

theorem mustSee_of_uo {s : State} {a : ReadAs} {v : MemView} {locs : List Nat} {r : WriteRec} (h : v.uo.any r.named = true) :
    mustSee s a v locs r = true := by
  simp [mustSee, h]

/-- What an agent has just written, its view forces. -/
theorem mustSee_commit {s z : State} {w : Writer} {kind : Option PageKind} {bytes : List (Nat × Byte)} (v : MemView) {a : ReadAs} {l : Nat}
    (h : l ∈ bytes.map (·.1)) : mustSee z a (commit s w kind bytes v).2 [l] (writeRecOf s w kind bytes) = true := by
  have hne : bytes ≠ [] := by rintro rfl; cases h
  rw [commit_view _ _ _ _ hne]
  split
  · apply mustSee_of_uo
    rw [List.any_append, List.any_cons, show (writeRecOf s w kind bytes).named s.nextWrite = true from WriteRec.named_id _, Bool.true_or,
      Bool.or_true]
  · exact mustSee_of_floor ((touches_writeRecOf ..).2 h) (le_floorGet_floorRaise v.floor s.nextWrite h)

/-- A read that must see the write just made of a byte, whose earlier writes bind the reader, gives what it wrote. -/
theorem readCut_commit {s : State} {w : Writer} {kind : Option PageKind} {bytes : List (Nat × Byte)} {va v : MemView} {a : ReadAs} {l : Nat}
    {b : Byte} (hd : (bytes.map (·.1)).Nodup) (hb : (l, b) ∈ bytes) (hmix : mixedAt (commit s w kind bytes va).1 a.kind l = false)
    (hold : ∀ r ∈ s.hist, r.touches [l] = true → strictFor s.mode a.agent r = true)
    (hnew : strictFor s.mode a.agent (writeRecOf s w kind bytes) = true)
    (hsee : mustSee (commit s w kind bytes va).1 a v [l] (writeRecOf s w kind bytes) = true) :
    (readCut (commit s w kind bytes va).1 a v [l]).1 = [b] := by
  have hl : l ∈ bytes.map (·.1) := List.mem_map.2 ⟨_, hb, rfl⟩
  refine readCut_of_mustSee (filter_touches_commit s w kind va hl) hmix (fun y hy => ?_) hsee (byte?_writeRecOf s w kind hd hb)
  rw [commit_mode]
  rcases List.mem_cons.1 hy with rfl | hy
  · exact hnew
  · exact hold y (List.mem_filter.1 hy).1 (by simpa using (List.mem_filter.1 hy).2)

end Machine
end Sys2Proof
end

section
/-! PROOFS. A release of stores to UO pages (R78): the write of a byte that no other write on record touches, followed through the moves to
the end of coherence order, stands on record with the release's scope, and the release carries it (R83, R85). -/

namespace Sys2Proof
namespace Machine

/-! ## What a write writes -/

/-- The bytes a write has written, where. -/
def WriteRec.puts (r : WriteRec) : List (Nat × Byte) := r.cells.map (fun c => (c.loc, c.new))

theorem WriteRec.touches_eq_puts (r : WriteRec) (l : Nat) : r.touches [l] = r.puts.any (fun p => p.1 == l) := by
  simp [WriteRec.touches, WriteRec.puts, List.any_map, Function.comp_def, Bool.beq_eq_decide_eq]

theorem WriteRec.byte?_eq_puts (r : WriteRec) (l : Nat) : r.byte? l = (r.puts.find? (fun p => p.1 == l)).map (·.2) := by
  simp [WriteRec.byte?, WriteRec.puts, List.find?_map, Function.comp_def]

theorem puts_cellsOf (s : State) (bytes : List (Nat × Byte)) : (cellsOf s bytes).map (fun c => (c.loc, c.new)) = bytes := by
  simp [cellsOf, Function.comp_def]

/-- The same write, but for the bytes that it has replaced. -/
structure WriteRec.Alike (r r' : WriteRec) : Prop where
  id : r'.id = r.id
  was : r'.was = r.was
  agent : r'.agent = r.agent
  loose : r'.loose = r.loose
  puts : r'.puts = r.puts

theorem WriteRec.Alike.refl (r : WriteRec) : r.Alike r := ⟨rfl, rfl, rfl, rfl, rfl⟩

theorem WriteRec.Alike.trans {a b c : WriteRec} (h : a.Alike b) (h' : b.Alike c) : a.Alike c :=
  ⟨h'.id.trans h.id, h'.was.trans h.was, h'.agent.trans h.agent, h'.loose.trans h.loose, h'.puts.trans h.puts⟩

/-- The same writes stand on record in the same order. -/
def Relisted (s s' : State) : Prop := s'.nextWrite = s.nextWrite ∧ ∃ g : WriteRec → WriteRec, (∀ r : WriteRec, r.Alike (g r)) ∧ s'.hist = s.hist.map g

theorem Relisted.refl (s : State) : Relisted s s := ⟨rfl, id, WriteRec.Alike.refl, by simp⟩

theorem Relisted.trans {a b c : State} (h : Relisted a b) (h' : Relisted b c) : Relisted a c := by
  obtain ⟨hn, g, hg, hh⟩ := h
  obtain ⟨hn', g', hg', hh'⟩ := h'
  exact ⟨hn'.trans hn, g' ∘ g, fun r => (hg r).trans (hg' (g r)), by rw [hh', hh, List.map_map]⟩

theorem Relisted.foldl {α : Type} {f : State → α → State} (hf : ∀ s x, Relisted s (f s x)) (xs : List α) (s : State) :
    Relisted s (xs.foldl f s) := by
  induction xs generalizing s with
  | nil => exact .refl s
  | cons x xs ih => exact (hf s x).trans (ih _)

/-- Take a write out of coherence order: every other one stays. -/
theorem dropRec_relisted (s : State) (r : WriteRec) : Relisted { s with hist := s.hist.filter (fun x => x.id != r.id) } (dropRec s r) := by
  refine Relisted.foldl (fun s c => ?_) _ _
  split
  · refine ⟨rfl, _, fun x => ?_, rfl⟩
    split
    · refine ⟨rfl, rfl, rfl, rfl, ?_⟩
      simp only [WriteRec.puts, List.map_map]
      refine List.map_congr_left (fun d _ => ?_)
      simp only [Function.comp]
      split <;> rfl
    · exact .refl x
  · exact ⟨rfl, id, WriteRec.Alike.refl, by simp⟩

/-! ## A write to a UO page that its agent has yet to release -/

/-- One of an agent's own writes to UO pages. -/
def WriteRec.ownLoose (r : WriteRec) (a : Actor) : Prop := r.loose.isSome = true ∧ r.agent.same a = true

/-- `r` is the one write on record of the byte at `l`, by `a` to a UO page; those that have come after it are `a`'s own to UO pages. -/
structure LooseWrite (s : State) (a : Actor) (l : Nat) (x : Byte) (r : WriteRec) : Prop where
  placed : ∃ later earlier, s.hist = later ++ r :: earlier ∧ (∀ y ∈ later, y.ownLoose a) ∧ ∀ y ∈ later ++ earlier, y.touches [l] = false
  loose : r.loose.isSome = true
  agent : r.agent = a
  byte : r.byte? l = some x

section
variable {s : State} {a : Actor} {l : Nat} {x : Byte} {r q : WriteRec}

theorem LooseWrite.of_hist {z : State} (h : LooseWrite s a l x r) (hz : z.hist = s.hist) : LooseWrite z a l x r :=
  { h with placed := hz ▸ h.placed }

theorem LooseWrite.filter (h : LooseWrite s a l x r) : s.hist.filter (fun r => r.touches [l]) = [r] := by
  obtain ⟨later, earlier, hh, -, hn⟩ := h.placed
  have hlater : later.filter (fun r => r.touches [l]) = [] :=
    List.filter_eq_nil_iff.2 (fun y hy => by simp [hn y (List.mem_append_left _ hy)])
  have hearlier : earlier.filter (fun r => r.touches [l]) = [] :=
    List.filter_eq_nil_iff.2 (fun y hy => by simp [hn y (List.mem_append_right _ hy)])
  rw [hh, List.filter_append, hlater, List.nil_append,
    List.filter_cons_of_pos (p := fun r : WriteRec => r.touches [l]) (WriteRec.touches_of_byte? h.byte), hearlier]

/-- Those of a list that are not `q`, as `g` has them after `q` left. -/
def keptBut (q : WriteRec) (g : WriteRec → WriteRec) (ys : List WriteRec) : List WriteRec := (ys.filter (fun y => y.id != q.id)).map g

theorem mem_keptBut {g : WriteRec → WriteRec} {ys : List WriteRec} {y : WriteRec} (h : y ∈ keptBut q g ys) :
    ∃ y' ∈ ys, y'.id ≠ q.id ∧ y = g y' := by
  obtain ⟨y', hy', rfl⟩ := List.mem_map.1 h
  obtain ⟨hmem, hne⟩ := List.mem_filter.1 hy'
  exact ⟨y', hmem, by simpa using hne, rfl⟩

/-- A move of another of the agent's writes to the end leaves this one. -/
theorem LooseWrite.toEnd_other (h : LooseWrite s a l x r) (hq : q.ownLoose a) (ht : q.touches [l] = false) (hid : r.id ≠ q.id) :
    ∃ r', LooseWrite (toEnd s q) a l x r' ∧ r'.id = r.id := by
  obtain ⟨later, earlier, hh, hown, hn⟩ := h.placed
  obtain ⟨-, g, hg, hd⟩ := dropRec_relisted s q
  have htouch : ∀ y : WriteRec, (g y).touches [l] = y.touches [l] := fun y => by
    rw [WriteRec.touches_eq_puts, WriteRec.touches_eq_puts, (hg y).puts]
  have hsplit : (dropRec s q).hist = keptBut q g later ++ g r :: keptBut q g earlier := by
    rw [hd]
    simp only [hh, keptBut, List.filter_append, List.filter_cons, bne_iff_ne, ne_eq, hid, not_false_eq_true, if_true, List.map_append, List.map_cons]
  refine ⟨g r, ⟨⟨_ :: keptBut q g later, keptBut q g earlier, by rw [toEnd, hsplit]; rfl, fun y hy => ?_, fun y hy => ?_⟩, ?_, ?_, ?_⟩, (hg r).id⟩
  · rcases List.mem_cons.1 hy with rfl | hy
    · exact hq
    · obtain ⟨y', hy', -, rfl⟩ := mem_keptBut hy
      have := hown y' hy'
      exact ⟨by rw [(hg y').loose]; exact this.1, by rw [(hg y').agent]; exact this.2⟩
  · rcases List.mem_cons.1 hy with rfl | hy
    · rw [← ht, WriteRec.touches_eq_puts, WriteRec.touches_eq_puts]
      exact congrArg (List.any · _) (puts_cellsOf ..)
    · rcases List.mem_append.1 hy with hy | hy
      all_goals
        obtain ⟨y', hy', -, rfl⟩ := mem_keptBut hy
        rw [htouch]
        exact hn y' (by simp [hy'])
  · rw [(hg r).loose]; exact h.loose
  · rw [(hg r).agent]; exact h.agent
  · rw [WriteRec.byte?_eq_puts, (hg r).puts, ← WriteRec.byte?_eq_puts]; exact h.byte

/-- Its own move to the end gives it the next number. -/
theorem LooseWrite.toEnd_self (h : LooseWrite s a l x r) (hl : q.loose.isSome = true) (ha : q.agent = a) (hx : q.byte? l = some x)
    (hid : r.id = q.id) : ∃ r', LooseWrite (toEnd s q) a l x r' ∧ r'.id = s.nextWrite := by
  obtain ⟨later, earlier, hh, hown, hn⟩ := h.placed
  obtain ⟨hnext, g, hg, hd⟩ := dropRec_relisted s q
  refine ⟨_, ⟨⟨[], (dropRec s q).hist, rfl, List.forall_mem_nil _, fun y hy => ?_⟩, hl, ha, ?_⟩, hnext⟩
  · obtain ⟨y', hmem, hne, rfl⟩ := mem_keptBut (hd ▸ hy)
    rw [WriteRec.touches_eq_puts, (hg y').puts, ← WriteRec.touches_eq_puts]
    have hmem : y' ∈ later ++ r :: earlier := hh ▸ hmem
    refine hn y' ?_
    rcases List.mem_append.1 hmem with hm | hm
    · exact List.mem_append_left _ hm
    · rcases List.mem_cons.1 hm with rfl | hm
      · exact absurd hid hne
      · exact List.mem_append_right _ hm
  · rw [← hx, WriteRec.byte?_eq_puts, WriteRec.byte?_eq_puts]
    exact congrArg (fun ps : List (Nat × Byte) => (ps.find? _).map (·.2)) (puts_cellsOf ..)

/-- Of the writes that a release places, the next one stays where it is, or comes to the end. -/
theorem placeLoose_cons_cases (r : WriteRec) (rs moved : List WriteRec) (s : State) (ids : List Nat) : ∃ k : State, k.hist = s.hist ∧
    (placeLoose (r :: rs) moved s ids = placeLoose rs moved k ids ∨ placeLoose (r :: rs) moved s ids =
      placeLoose rs (r :: moved) (toEnd k r) (ids.map (fun i => if i = r.id then k.nextWrite else i))) := by
  rw [Machine.placeLoose]
  split
  · exact ⟨s, rfl, .inl rfl⟩
  · have hk : (if moved.any (fun m => m.meets r (r.cells.map (·.loc))) then ((1 : Nat), s) else s.pick 2).2.hist = s.hist := by
      split
      · rfl
      · exact State.pick_hist ..
    dsimp only
    revert hk
    generalize (if moved.any (fun m => m.meets r (r.cells.map (·.loc))) then ((1 : Nat), s) else s.pick 2) = k
    intro hk
    refine ⟨k.2, hk, ?_⟩
    split
    · exact .inl rfl
    · exact .inr rfl

/-- Placing an agent's writes in coherence order, this one after the others, keeps it on record under a number that is among those
given. -/
theorem LooseWrite.placeLoose {os moved : List WriteRec} {ids : List Nat} (h : LooseWrite s a l x r)
    (hos : ∀ o ∈ os, o.ownLoose a ∧ o.touches [l] = false ∧ q.id ≠ o.id) (hq : q.loose.isSome = true) (ha : q.agent = a)
    (hx : q.byte? l = some x) (hid : r.id = q.id) (hmem : q.id ∈ ids) :
    ∃ r', LooseWrite (placeLoose (os ++ [q]) moved s ids).1 a l x r' ∧ r'.id ∈ (placeLoose (os ++ [q]) moved s ids).2 := by
  induction os generalizing s r moved ids with
  | nil =>
    obtain ⟨k, hk, he | he⟩ := placeLoose_cons_cases q [] moved s ids
    all_goals rw [List.nil_append, he]
    · exact ⟨r, h.of_hist hk, hid ▸ hmem⟩
    · obtain ⟨r', hr', hn⟩ := (h.of_hist hk).toEnd_self hq ha hx hid
      exact ⟨r', hr', List.mem_map.2 ⟨q.id, hmem, by rw [if_pos rfl, hn]⟩⟩
  | cons o os ih =>
    obtain ⟨hown, ht, hne⟩ := hos o (List.mem_cons_self ..)
    have hrest : ∀ o ∈ os, o.ownLoose a ∧ o.touches [l] = false ∧ q.id ≠ o.id := fun y hy => hos y (List.mem_cons_of_mem _ hy)
    obtain ⟨k, hk, he | he⟩ := placeLoose_cons_cases o (os ++ [q]) moved s ids
    all_goals rw [List.cons_append, he]
    · exact ih (h.of_hist hk) hrest hid hmem
    · obtain ⟨r', hr', hn⟩ := (h.of_hist hk).toEnd_other hown ht (hid ▸ hne)
      exact ih hr' hrest (hn.trans hid) (List.mem_map.2 ⟨q.id, hmem, if_neg hne⟩)

end

end Machine
end Sys2Proof
end

section
/-! PROOFS. Own writes and releases (R78, R82 to R85, R88): what a release carries, its acquirer's view forces, and the reads of it. -/

namespace Sys2Proof
namespace Machine

/-! ## The state's mode under a release of stores to UO pages -/

theorem dropRec_mode (s : State) (r : WriteRec) : (dropRec s r).mode = s.mode := by
  refine List.foldlRecOn (motive := fun z : State => z.mode = s.mode) r.cells _ rfl (fun z hz c _ => ?_)
  split <;> exact hz

theorem toEnd_mode (s : State) (r : WriteRec) : (toEnd s r).mode = s.mode := dropRec_mode s r

theorem placeLoose_mode (rs moved : List WriteRec) (s : State) (ids : List Nat) : (placeLoose rs moved s ids).1.mode = s.mode := by
  have hk : ∀ {m : Prop} [Decidable m] (z : State), (if m then ((1 : Nat), z) else z.pick 2).2.mode = z.mode := fun z => by
    split
    · rfl
    · exact State.pick_mode ..
  fun_induction Machine.placeLoose rs moved s ids with
  | case1 => rfl
  | case2 _ _ _ _ _ _ ih => exact ih
  | case3 _ _ _ _ _ _ _ _ _ ih => exact ih.trans (hk _)
  | case4 _ _ _ _ _ _ _ _ _ ih => exact ih.trans ((toEnd_mode ..).trans (hk _))

/-! ## What a view carries to others -/

/-- A view forces the write `r` of the byte at `l` on whoever acquires a release of it: by its floor, or as a released write to a UO
page. -/
def Carries (s : State) (v : MemView) (l : Nat) (r : WriteRec) : Prop :=
  r.id ≤ floorGet v.floor l ∨ ∃ i ∈ v.uo, r.named i = true ∧ s.released i = true

/-- Taking releases changes no write, no mode, and lowers no floor. -/
theorem acquireRels_keeps (s : State) (b : Actor) (sb : Scope) (rels : List Rel) (v : MemView) :
    (acquireRels s b sb rels v).1.hist = s.hist ∧ (acquireRels s b sb rels v).1.mode = s.mode ∧
    (∀ l, floorGet v.floor l ≤ floorGet (acquireRels s b sb rels v).2.floor l) ∧
    ∀ i ∈ v.uo, i ∈ (acquireRels s b sb rels v).2.uo := by
  induction rels generalizing s v with
  | nil => exact ⟨rfl, rfl, fun l => le_refl _, fun i hi => hi⟩
  | cons d ds ih =>
    simp only [acquireRels, List.foldl_cons]
    split
    · obtain ⟨hh, hm, hf, hu⟩ := ih { s with now := if b.apart d.agent then max s.now (d.tick + 40) else s.now }
        { v with floor := floorJoin v.floor d.floor, uo := unionOf v.uo d.uo }
      exact ⟨hh, hm, fun l => (floorGet_le_floorJoin_left ..).trans (hf l), fun i hi => hu i (mem_unionOf.2 (.inl hi))⟩
    · exact ih s v

/-- A release that scope inclusion lets an agent take: the view after has its floor and its writes to UO pages. -/
theorem acquireRels_takes {s : State} {b : Actor} {sb : Scope} {rels : List Rel} (v : MemView) {d : Rel} (hd : d ∈ rels)
    (hi : included s.mode sb b d.scope d.agent = true) :
    (∀ l, floorGet d.floor l ≤ floorGet (acquireRels s b sb rels v).2.floor l) ∧ ∀ i ∈ d.uo, i ∈ (acquireRels s b sb rels v).2.uo := by
  induction rels generalizing s v with
  | nil => cases hd
  | cons e es ih =>
    simp only [acquireRels, List.foldl_cons]
    rcases List.mem_cons.1 hd with rfl | hd
    · rw [if_pos hi]
      obtain ⟨-, -, hf, hu⟩ := acquireRels_keeps { s with now := if b.apart d.agent then max s.now (d.tick + 40) else s.now } b sb es
        { v with floor := floorJoin v.floor d.floor, uo := unionOf v.uo d.uo }
      exact ⟨fun l => (floorGet_le_floorJoin_right ..).trans (hf l), fun i hi => hu i (mem_unionOf.2 (.inr hi))⟩
    · split
      · exact ih _ hd hi
      · exact ih v hd hi

/-- A release store of another byte: whoever takes the releases that it carries reads the one write on record of the byte at `l`, which
the releaser's view carries. -/
theorem readCut_acquired {s : State} {a b : Actor} {sa sb : Scope} {kind flagKind : Option PageKind} {flag : List (Nat × Byte)}
    {v vb : MemView} {pt : Option Point} {step : Bool} {rels : List Rel} {l : Nat} {x : Byte} {r : WriteRec}
    (hr : s.hist.filter (fun r => r.touches [l]) = [r]) (hx : r.byte? l = some x) (hstrict : strictFor s.mode b r = true)
    (hc : Carries s v l r) (hl : l ∉ flag.map (·.1)) (hi : included s.mode sb b sa a = true)
    (hmix : mixedAt (acquireRels (commit s ⟨a, pt, step, rels, some (relOf s a sa v)⟩ flagKind flag v).1 b sb
      (writeRecOf s ⟨a, pt, step, rels, some (relOf s a sa v)⟩ flagKind flag).rels vb).1 kind l = false) :
    (readCut (acquireRels (commit s ⟨a, pt, step, rels, some (relOf s a sa v)⟩ flagKind flag v).1 b sb
      (writeRecOf s ⟨a, pt, step, rels, some (relOf s a sa v)⟩ flagKind flag).rels vb).1 ⟨b, .relaxed, kind⟩
      (acquireRels (commit s ⟨a, pt, step, rels, some (relOf s a sa v)⟩ flagKind flag v).1 b sb
      (writeRecOf s ⟨a, pt, step, rels, some (relOf s a sa v)⟩ flagKind flag).rels vb).2 [l]).1 = [x] := by
  generalize hw : (⟨a, pt, step, rels, some (relOf s a sa v)⟩ : Writer) = w at hmix ⊢
  have hd : { relOf s a sa v with floor := floorRaise v.floor flag s.nextWrite } ∈ (writeRecOf s w flagKind flag).rels := by
    subst hw
    simp [writeRecOf, relOf]
  generalize (writeRecOf s w flagKind flag).rels = taken at hd hmix ⊢
  obtain ⟨hhist, hmode, -⟩ := acquireRels_keeps (commit s w flagKind flag v).1 b sb taken vb
  obtain ⟨hfloor, huo⟩ := acquireRels_takes (s := (commit s w flagKind flag v).1) vb hd (by rw [commit_mode]; exact hi)
  refine readCut_of_mustSee (rs := []) (by rw [hhist, filter_touches_commit_other _ _ _ _ hl, hr]) hmix (fun y hy => ?_) ?_ hx
  · rw [List.mem_singleton.1 hy, hmode, commit_mode]
    exact hstrict
  · rcases hc with hc | ⟨i, hi, hn, hrel⟩
    · exact mustSee_of_floor (WriteRec.touches_of_byte? hx) ((hc.trans (floorGet_le_floorRaise ..)).trans (hfloor l))
    · exact mustSee_of_uo (List.any_eq_true.2 ⟨i, huo i (List.mem_filter.2 ⟨hi, hrel⟩), hn⟩)

/-! ## Marks of a release of stores to UO pages -/

/-- A write with the mark of its agent's release at `sc`, when it is among those released. -/
def markOf (a : Actor) (sc : Scope) (ids : List Nat) (r : WriteRec) : WriteRec :=
  match r.loose with
  | some l => if ids.any r.named && r.agent.same a then { r with loose := some ⟨unionOf l.scopes [sc], true⟩ } else r
  | none => r

theorem markReleased_hist (s : State) (a : Actor) (sc : Scope) (ids : List Nat) :
    (markReleased s a sc ids).hist = s.hist.map (markOf a sc ids) := rfl

section
variable (a : Actor) (sc : Scope) (ids : List Nat) (r : WriteRec)

theorem markOf_id : (markOf a sc ids r).id = r.id ∧ (markOf a sc ids r).was = r.was ∧ (markOf a sc ids r).agent = r.agent ∧
    (markOf a sc ids r).cells = r.cells := by
  unfold markOf
  split
  · split <;> exact ⟨rfl, rfl, rfl, rfl⟩
  · exact ⟨rfl, rfl, rfl, rfl⟩

theorem markOf_named (i : Nat) : (markOf a sc ids r).named i = r.named i := by
  obtain ⟨hid, hwas, -⟩ := markOf_id a sc ids r
  rw [WriteRec.named, hid, hwas, WriteRec.named]

variable {a sc ids r}

/-- The mark of one of the agent's own writes among those released. -/
theorem markOf_loose (h : r.ownLoose a) {i : Nat} (hi : i ∈ ids) (hn : r.named i = true) :
    ∃ scopes, (markOf a sc ids r).loose = some ⟨scopes, true⟩ ∧ sc ∈ scopes := by
  obtain ⟨hl, ha⟩ := h
  obtain ⟨l, hl⟩ := Option.isSome_iff_exists.1 hl
  have hany : (ids.any r.named && r.agent.same a) = true := by rw [ha, Bool.and_true]; exact List.any_eq_true.2 ⟨i, hi, hn⟩
  exact ⟨unionOf l.scopes [sc], by simp only [markOf, hl, hany, if_true], mem_unionOf.2 (.inr (List.mem_singleton.2 rfl))⟩

end

theorem filter_touches_markOf (a : Actor) (sc : Scope) (ids : List Nat) (l : Nat) (rs : List WriteRec) :
    (rs.map (markOf a sc ids)).filter (fun r => r.touches [l]) = (rs.filter (fun r => r.touches [l])).map (markOf a sc ids) := by
  rw [List.filter_map]
  refine congrArg (List.map _) (List.filter_congr (fun r _ => ?_))
  simp only [Function.comp, WriteRec.touches, (markOf_id a sc ids r).2.2.2]

/-- Each write on record before a loose one is its agent's own, so the release marks whichever is known by that one's number. -/
theorem LooseWrite.released {s : State} {a : Actor} {l : Nat} {x : Byte} {r : WriteRec} (h : LooseWrite s a l x r) {sc : Scope}
    {ids : List Nat} (hi : r.id ∈ ids) : (markReleased s a sc ids).released r.id = true := by
  obtain ⟨later, earlier, hh, hown, -⟩ := h.placed
  have hr : r.ownLoose a := ⟨h.loose, by rw [h.agent]; exact Actor.same_refl a⟩
  have hsome : ∃ y, y.ownLoose a ∧ y.named r.id = true ∧ (markReleased s a sc ids).record? r.id = some (markOf a sc ids y) := by
    have hcomp : (fun y : WriteRec => y.named r.id) ∘ markOf a sc ids = fun y => y.named r.id :=
      funext (fun y => markOf_named a sc ids y r.id)
    rw [State.record?, markReleased_hist, List.find?_map, hcomp, hh, List.find?_append,
      List.find?_cons_of_pos (p := fun y : WriteRec => y.named r.id) r.named_id]
    cases hf : later.find? (fun y => y.named r.id) with
    | none => exact ⟨r, hr, r.named_id, rfl⟩
    | some y => exact ⟨y, hown y (List.mem_of_find?_eq_some hf), List.find?_some (p := fun y : WriteRec => y.named r.id) hf, rfl⟩
  obtain ⟨y, hy, hn, hrec⟩ := hsome
  obtain ⟨scopes, hl, hmem⟩ := markOf_loose (sc := sc) hy hi hn
  simp only [State.released, hrec, hl, Bool.not_eq_true', List.isEmpty_eq_false_iff]
  exact List.ne_nil_of_mem hmem

/-! ## A release carries the write -/

/-- The floor that a release at system scope gives its agent is not below any of its writes. -/
theorem le_floorGet_mine {rs : List WriteRec} {r : WriteRec} (f : List (Nat × Nat)) {l : Nat} (hr : r ∈ rs) (ht : r.touches [l] = true) :
    r.id ≤ floorGet (rs.foldl (fun f r => r.cells.foldl (fun f c => floorSet f c.loc r.id) f) f) l := by
  obtain ⟨c, hc, rfl⟩ := WriteRec.touches_singleton.1 ht
  have h := (le_floorGet_foldl (fun p : Nat × Nat => p.1) (fun p => p.2) (rs.flatMap (fun r => r.cells.map (fun c => (c.loc, r.id)))) f).2
    (c.loc, r.id) (List.mem_flatMap.2 ⟨r, hr, List.mem_map.2 ⟨c, hc, rfl⟩⟩)
  simpa only [List.foldl_flatMap, List.foldl_map] using h

/-- After a release of stores to UO pages by the agent of the latest write, the one on record of its byte, that write binds whoever is
within the release's scope, and the agent's view carries it (R78). -/
theorem releaseUo_carries {s : State} {a : Actor} {sc : Scope} {v : MemView} {l : Nat} {x : Byte} {r : WriteRec} {rs : List WriteRec}
    (hh : s.hist = r :: rs) (hl : r.loose.isSome = true) (ha : r.agent = a) (hx : r.byte? l = some x) (hv : r.id ∈ v.uo)
    (hrs : ∀ y ∈ rs, y.touches [l] = false ∧ y.id < r.id) :
    (releaseUo s a sc v).1.mode = s.mode ∧ ∃ r' : WriteRec, (releaseUo s a sc v).1.hist.filter (fun r => r.touches [l]) = [r'] ∧
      r'.byte? l = some x ∧ (∀ b, within s.mode sc a b = true → strictFor s.mode b r' = true) ∧
      Carries (releaseUo s a sc v).1 (releaseUo s a sc v).2 l r' := by
  have hown : r.ownLoose a := ⟨hl, by rw [ha]; exact Actor.same_refl a⟩
  have hloose : LooseWrite s a l x r := ⟨⟨[], rs, hh, List.forall_mem_nil _, fun y hy => (hrs y hy).1⟩, hl, ha, hx⟩
  have hlast : ownLoose s a v.uo = rs.reverse.filter (fun r => v.uo.any r.named && r.loose.isSome && r.agent.same a) ++ [r] := by
    have hany : v.uo.any r.named = true := List.any_eq_true.2 ⟨_, hv, r.named_id⟩
    rw [ownLoose, hh, List.reverse_cons, List.filter_append, List.filter_singleton, hany, hown.1, hown.2]
    rfl
  obtain ⟨p, hp, hpm⟩ := hloose.placeLoose (moved := []) (ids := v.uo) (q := r)
    (os := rs.reverse.filter (fun r => v.uo.any r.named && r.loose.isSome && r.agent.same a)) (fun o ho => by
      obtain ⟨hmem, hprop⟩ := List.mem_filter.1 ho
      obtain ⟨ht, hlt⟩ := hrs o (List.mem_reverse.1 hmem)
      simp only [Bool.and_eq_true] at hprop
      exact ⟨⟨hprop.1.2, hprop.2⟩, ht, hlt.ne'⟩) hl ha hx rfl hv
  have hmode := placeLoose_mode (ownLoose s a v.uo) [] s v.uo
  rw [← hlast] at hp hpm
  generalize hz : Machine.placeLoose (ownLoose s a v.uo) [] s v.uo = z at hp hpm hmode
  have hpown : p.ownLoose a := ⟨hp.loose, by rw [hp.agent]; exact Actor.same_refl a⟩
  obtain ⟨scopes, hscopes, hsc⟩ := markOf_loose (sc := sc) hpown hpm p.named_id
  obtain ⟨hid, -, hagent, hcells⟩ := markOf_id a sc z.2 p
  have hfilter : (markReleased z.1 a sc z.2).hist.filter (fun r => r.touches [l]) = [markOf a sc z.2 p] := by
    rw [markReleased_hist, filter_touches_markOf, hp.filter, List.map_singleton]
  have hbyte : (markOf a sc z.2 p).byte? l = some x := by rw [WriteRec.byte?, hcells]; exact hp.byte
  have hbinds : ∀ b, within s.mode sc a b = true → strictFor s.mode b (markOf a sc z.2 p) = true := fun b hb => by
    rw [strictFor, hscopes, hagent, hp.agent]
    exact Bool.or_eq_true_iff.2 (.inr (List.any_eq_true.2 ⟨sc, hsc, hb⟩))
  unfold releaseUo
  rw [if_neg (by simpa using List.ne_nil_of_mem hv), hz]
  by_cases hsys : sc = .system
  · rw [if_pos hsys]
    refine ⟨hmode, _, hfilter, hbyte, hbinds, .inl (le_floorGet_mine _ ?_ (WriteRec.touches_of_byte? hbyte))⟩
    have hmem : markOf a sc z.2 p ∈ (markReleased z.1 a sc z.2).hist :=
      (List.mem_filter.1 (hfilter ▸ List.mem_singleton.2 rfl)).1
    refine List.mem_filter.2 ⟨List.mem_reverse.2 hmem, ?_⟩
    rw [hscopes, hagent, hp.agent, Actor.same_refl, List.any_eq_true.2 ⟨_, hpm, by rw [← hid]; exact WriteRec.named_id _⟩]
    rfl
  · rw [if_neg hsys]
    exact ⟨hmode, _, hfilter, hbyte, hbinds, .inr ⟨p.id, hpm, by rw [← hid]; exact WriteRec.named_id _, hp.released hpm⟩⟩

/-- A write binds its own agent. -/
theorem strictFor_self (s : State) (w : Writer) (kind : Option PageKind) (bytes : List (Nat × Byte)) :
    strictFor s.mode w.agent (writeRecOf s w kind bytes) = true := by
  unfold strictFor
  split
  · rfl
  · exact Bool.or_eq_true_iff.2 (.inl (Actor.same_refl _))

/-- A write to a page of another kind than UO binds everyone. -/
theorem strictFor_of_not_uo {s : State} (b : Actor) (w : Writer) {kind : Option PageKind} (bytes : List (Nat × Byte))
    (h : kind ≠ some .uo) : strictFor s.mode b (writeRecOf s w kind bytes) = true := by
  simp only [strictFor, writeRecOf, if_neg h]

/-- An agent's write, after its release where it is to a UO page. -/
def orderedWrite (s : State) (a : Actor) (sc : Scope) (kind : Option PageKind) (data : List (Nat × Byte)) (v : MemView) : State × MemView :=
  let w := commit s (.plain a) kind data v
  if kind = some .uo then releaseUo w.1 a sc w.2 else w

/-- That write, the first on record of a byte, binds whoever is within the scope, and its agent's view carries it. -/
theorem orderedWrite_carries {s : State} {a b : Actor} {sa sb : Scope} (kind : Option PageKind) {data : List (Nat × Byte)} (va : MemView)
    {l : Nat} {x : Byte} (hd : (data.map (·.1)).Nodup) (hx : (l, x) ∈ data) (hun : Untouched s [l]) (hids : ∀ r ∈ s.hist, r.id < s.nextWrite)
    (hinc : included s.mode sb b sa a = true) : (orderedWrite s a sa kind data va).1.mode = s.mode ∧ ∃ r' : WriteRec,
      (orderedWrite s a sa kind data va).1.hist.filter (fun r => r.touches [l]) = [r'] ∧ r'.byte? l = some x ∧
      strictFor s.mode b r' = true ∧ Carries (orderedWrite s a sa kind data va).1 (orderedWrite s a sa kind data va).2 l r' := by
  have hdata : data ≠ [] := List.ne_nil_of_mem hx
  have hnone : ∀ y ∈ s.hist, y.touches [l] = false := fun y hy => Bool.eq_false_iff.2 (fun hy' => by
    obtain ⟨c, hc, rfl⟩ := WriteRec.touches_singleton.1 hy'
    exact hun y hy c hc (List.mem_singleton.2 rfl))
  have hbyte : (writeRecOf s (.plain a) kind data).byte? l = some x := byte?_writeRecOf s _ kind hd hx
  by_cases hk : kind = some .uo
  · have hv : s.nextWrite ∈ (commit s (.plain a) kind data va).2.uo := by
      rw [commit_view s (.plain a) kind va hdata, if_pos hk]
      exact List.mem_append_right _ (List.mem_singleton.2 rfl)
    obtain ⟨hm, r', hf, hr', hbinds, hc⟩ := releaseUo_carries (s := (commit s (.plain a) kind data va).1) (sc := sa)
      (v := (commit s (.plain a) kind data va).2) (commit_hist s (.plain a) kind va hdata) (by simp [writeRecOf, hk]) rfl hbyte hv (fun y hy => ⟨hnone y hy, hids y hy⟩)
    rw [commit_mode] at hm hbinds
    simp only [orderedWrite, if_pos hk]
    exact ⟨hm, r', hf, hr', hbinds b (Bool.and_eq_true_iff.1 hinc).2, hc⟩
  · simp only [orderedWrite, if_neg hk]
    refine ⟨commit_mode .., _, ?_, hbyte, strictFor_of_not_uo b _ data hk, .inl ?_⟩
    · rw [filter_touches_commit s _ kind va (List.mem_map_of_mem hx),
        List.filter_eq_nil_iff.2 (fun y hy => by simp [hnone y hy])]
    · rw [commit_view s (.plain a) kind va hdata, if_neg hk]
      exact le_floorGet_floorRaise _ _ (List.mem_map_of_mem hx)

end Machine
end Sys2Proof

open Sys2Proof Sys2Proof.Machine

/-- Settles O38: a view forces its agent's own write, a step at a point forces the steps there before it, and a release carries to its
acquirer the floor that forces a write, or the number of one to a UO page that it has released. -/
theorem ownWritesAndReleases : Obligations.OwnWritesAndReleases := by
  unfold Obligations.OwnWritesAndReleases
  refine ⟨fun s w kind bytes v mode l b hd hwf hb hmix hold => ⟨?_, ?_⟩, ?_, ?_⟩
  · exact readCut_commit hd hb hmix hold (strictFor_self ..) (mustSee_commit v (List.mem_map_of_mem hb))
  · rw [commit_peek hwf w kind bytes v hd l, find?_of_nodup hd hb]
  · intro s a b sa sb kind flagKind data flag va vb pt step rels l x r rest hd hx hl hun hids hinc w o f hh ht q hmix
    obtain ⟨hm, r', hf, hr', hstrict, hc⟩ := orderedWrite_carries kind va hd hx hun hids hinc
    have hm : o.1.mode = s.mode := hm
    have hflag : flag ≠ [] := by
      rintro rfl
      simp [WriteRec.touches] at ht
    have hr : r = writeRecOf o.1 ⟨a, pt, step, rels, some (relOf o.1 a sa o.2)⟩ flagKind flag :=
      (List.cons.inj (hh.symm.trans (commit_hist _ _ flagKind _ hflag))).1
    subst hr
    exact readCut_acquired hf hr' (by rw [hm]; exact hstrict) hc hl (by rw [hm]; exact hinc) hmix
  · intro s a b p kind bytes va vb l x z hd hx hkind hmix hold
    refine readCut_commit hd hx hmix hold (strictFor_of_not_uo b _ bytes hkind) ?_
    simp [mustSee, writeRecOf, pointFor]

end

section
/-! PROOFS. Page moves (R95, R266), the windows of demand moves (R267) and the end of a re-encryption (R322). -/

namespace Sys2Proof
namespace Machine

/-! ## The copy of a frame -/

/-- In canonical form a byte is that of its entry. -/
theorem memGet_eq_find? {m : List Host.Cell} {lo : Nat} (h : memWfFrom lo m = true) (l : Nat) :
    memGet m l = ((m.find? (fun c => c.1 == l)).map (·.2)).getD unlisted := by
  induction m generalizing lo with
  | nil => rfl
  | cons c m ih =>
    obtain ⟨a, b⟩ := c
    simp only [memWfFrom, Bool.and_eq_true, decide_eq_true_eq] at h
    rw [memGet]
    by_cases hal : a = l
    · simp [hal]
    · rw [if_neg hal, List.find?_cons_of_neg (p := fun c : Host.Cell => c.1 == l) (by simpa using hal), ← ih h.2]
      split
      · next hlt => exact (memGet_below h.2 (by omega)).symm
      · rfl

theorem lt_of_mem_memWfFrom {m : List Host.Cell} {lo : Nat} (h : memWfFrom lo m = true) : ∀ c ∈ m, lo ≤ c.1 := by
  induction m generalizing lo with
  | nil => exact List.forall_mem_nil _
  | cons c m ih =>
    obtain ⟨a, b⟩ := c
    simp only [memWfFrom, Bool.and_eq_true, decide_eq_true_eq] at h
    exact List.forall_mem_cons.2 ⟨h.1.1, fun x hx => (Nat.le_succ_of_le h.1.1).trans (ih h.2 x hx)⟩

/-- No two entries are of one location. -/
theorem nodup_locs {m : List Host.Cell} {lo : Nat} (h : memWfFrom lo m = true) : (m.map (·.1)).Nodup := by
  induction m generalizing lo with
  | nil => exact List.nodup_nil
  | cons c m ih =>
    obtain ⟨a, b⟩ := c
    simp only [memWfFrom, Bool.and_eq_true, decide_eq_true_eq] at h
    refine List.nodup_cons.2 ⟨fun hm => ?_, ih h.2⟩
    obtain ⟨x, hx, rfl⟩ := List.mem_map.1 hm
    exact absurd (lt_of_mem_memWfFrom h.2 x hx) (by simp)

/-- The bytes of a choice of entries. -/
theorem memGet_filter {m : List Host.Cell} (h : memWf m = true) (p : Nat → Bool) (l : Nat) :
    memGet (m.filter (fun c => p c.1)) l = if p l then memGet m l else unlisted := by
  rw [memGet_eq_find? (memWfFrom_filter h _), memGet_eq_find? h, List.find?_filter]
  cases hp : p l with
  | true =>
    rw [if_pos rfl]
    refine congrArg (fun o : Option Host.Cell => (o.map (·.2)).getD unlisted) (congrArg (List.find? · m) (funext fun c => ?_))
    by_cases hc : c.1 = l <;> simp [hc, hp]
  | false =>
    rw [List.find?_eq_none.2 (fun c _ => ?_)]
    · rfl
    · by_cases hc : c.1 = l <;> simp [hc, hp]

/-- After the copy of a frame, its new place holds its bytes, and every location outside reads as before. -/
theorem memGet_copyFrame {m : List Host.Cell} (h : memWf m = true) (old new l : Nat) :
    memGet (copyFrame m old new) l = if new ≤ l ∧ l < new + 65536 then memGet m (old + (l - new)) else memGet m l := by
  have hd : (((m.filter (fun c => decide (old ≤ c.1 ∧ c.1 < old + 65536))).map (fun c => (new + (c.1 - old), c.2))).map (·.1)).Nodup := by
    rw [List.map_map]
    refine List.Nodup.map_on (fun x hx y hy he => ?_) (List.Nodup.filter _ (List.Nodup.of_map _ (nodup_locs h)))
    obtain ⟨hxm, hx⟩ := List.mem_filter.1 hx
    obtain ⟨hym, hy⟩ := List.mem_filter.1 hy
    simp only [decide_eq_true_eq] at hx hy
    exact List.inj_on_of_nodup_map (nodup_locs h) hxm hym (by simp only [Function.comp] at he; omega)
  have hput := memGet_puts (memWfFrom_filter h (fun c => !decide (new ≤ c.1 ∧ c.1 < new + 65536))) _ hd l
  rw [List.foldl_map] at hput
  rw [copyFrame, hput, memGet_filter h (fun a => !decide (new ≤ a ∧ a < new + 65536)), List.find?_map]
  by_cases hin : new ≤ l ∧ l < new + 65536
  · have hfind : (m.filter (fun c => decide (old ≤ c.1 ∧ c.1 < old + 65536))).find? ((fun p : Nat × Byte => p.1 == l) ∘
        fun c => (new + (c.1 - old), c.2)) = m.find? (fun c => c.1 == old + (l - new)) := by
      rw [List.find?_filter]
      refine congrArg (List.find? · m) (funext fun c => ?_)
      rw [Bool.eq_iff_iff]
      simp only [Function.comp, decide_eq_true_eq, beq_iff_eq]
      omega
    rw [hfind, if_pos hin, memGet_eq_find? h (old + (l - new))]
    cases m.find? (fun c => c.1 == old + (l - new)) with
    | none => simp [hin]
    | some c => rfl
  · rw [List.find?_eq_none.2 (fun c hc => ?_)]
    · simp [hin]
    · have := (List.mem_filter.1 hc).2
      simp only [Function.comp, decide_eq_true_eq, beq_iff_eq] at this ⊢
      omega

/-! ## Writes of die control -/

/-- Bytes that die control writes read back; no other location changes. -/
theorem writeBytes_peek {s : State} (h : memWf s.mem = true) (w : Writer) (loc : Nat) (bs : List Byte) :
    (List.range bs.length).map (fun i => (writeBytes s w loc bs).peek (loc + i)) = bs ∧
    ∀ l, ¬ (loc ≤ l ∧ l < loc + bs.length) → (writeBytes s w loc bs).peek l = s.peek l := by
  have hmem : (writeBytes s w loc bs).mem = putAll s.mem (((List.range bs.length).map (loc + ·)).zip bs) := by
    rw [writeBytes_mem, commit_mem, List.zip_map_left]
    rfl
  have hlen : bs.length = ((List.range bs.length).map (loc + ·)).length := by simp
  refine ⟨?_, fun l hl => ?_⟩
  · have hd : ((List.range bs.length).map (loc + ·)).Nodup := List.nodup_range.map (fun x y hxy => Nat.add_left_cancel hxy)
    have hread := map_memGet_putAll h hd hlen
    rw [List.map_map] at hread
    simpa only [State.peek, hmem, Function.comp_def] using hread
  · rw [State.peek, hmem]
    refine memGet_putAll_other h (fun hm => hl ?_)
    rw [List.map_fst_zip hlen.ge] at hm
    obtain ⟨i, hi, rfl⟩ := List.mem_map.1 hm
    have := List.mem_range.1 hi
    omega

/-- The compare-and-swap of a leaf leaves the new one, and no other byte changes. -/
theorem swapLeaf_peek {s : State} (h : memWf s.mem = true) (at' new : Nat) (hn : new < 2 ^ 64) :
    (swapLeaf s at' new).peekNat at' 8 = new ∧ ∀ l, ¬ (at' ≤ l ∧ l < at' + 8) → (swapLeaf s at' new).peek l = s.peek l := by
  obtain ⟨hread, hkept⟩ := writeBytes_peek h (homeWriter s at') at' (bytesOf new 8)
  rw [length_bytesOf] at hread hkept
  refine ⟨?_, hkept⟩
  rw [State.peekNat, swapLeaf, hread, ofBytes_bytesOf, natField, pow_zero, Nat.div_one, Nat.mod_eq_of_lt hn]

/-- A leaf has 64 bits wherever its page goes (R265). -/
theorem movedLeaf_lt {leaf : Nat} (h : leaf < 2 ^ 64) (target frame : Nat) : movedLeaf leaf target frame < 2 ^ 64 := by
  simp only [movedLeaf, leafTier, leafHold, leafPort, leafPfn, natField]
  split <;> omega

theorem peekNat_lt (s : State) (loc : Nat) : s.peekNat loc 8 < 2 ^ 64 := by
  simpa [State.peekNat] using ofBytes_lt ((List.range 8).map (fun i => s.peek (loc + i)))

/-! ## What a move leaves unchanged -/

/-- Memory, translations and the homes of migration control blocks are as before. -/
structure BytesKept (s s' : State) : Prop where
  mem : s'.mem = s.mem
  tlb : s'.tlb = s.tlb
  mcbs : s'.mcbs = s.mcbs

theorem BytesKept.refl (s : State) : BytesKept s s := ⟨rfl, rfl, rfl⟩

theorem BytesKept.trans {a b c : State} (h : BytesKept a b) (h' : BytesKept b c) : BytesKept a c :=
  ⟨h'.mem.trans h.mem, h'.tlb.trans h.tlb, h'.mcbs.trans h.mcbs⟩

theorem BytesKept.noControl {a b : State} (h : BytesKept a b) (hc : NoMigrationControl a) : NoMigrationControl b := by
  intro d; rw [h.mcbs]; exact hc d

theorem emit_bytesKept (s : State) (unit kind die code ctx wgh detail : Nat) : BytesKept s (s.emit unit kind die code ctx wgh detail) := by
  unfold State.emit
  dsimp only
  split <;> exact ⟨rfl, rfl, rfl⟩

theorem count_bytesKept (s : State) (die num n : Nat) : BytesKept s (s.count die num n) := ⟨rfl, rfl, rfl⟩

theorem withMoveLogs_bytesKept (s : State) (x : List MoveLog) : BytesKept s { s with moveLogs := x } := ⟨rfl, rfl, rfl⟩

theorem endMove_bytesKept (s : State) (m : MoveReq) (moved : Bool) : BytesKept s (endMove s m moved) := ⟨rfl, rfl, rfl⟩

theorem countMove_bytesKept (s : State) (die leaf target : Nat) : BytesKept s (countMove s die leaf target) := by
  have hin : ∀ z, BytesKept s z → BytesKept s (if target < 4 then z.count target 1318 1 else z) := fun z hz => by
    split
    · exact hz.trans (count_bytesKept ..)
    · exact hz
  unfold countMove
  dsimp only
  split
  · exact (hin _ (count_bytesKept ..)).trans (count_bytesKept ..)
  · exact hin _ (count_bytesKept ..)

section
variable {s : State} (hc : NoMigrationControl s)
include hc

theorem controlBlock_none (d : Nat) : controlBlock s d = none := by rw [controlBlock, hc d]; rfl

theorem countUp_none (die ofs : Nat) : countUp s die ofs = s := by rw [countUp, controlBlock_none hc]

theorem giveFrame_none (memory frame : Nat) : giveFrame s memory frame = s := by rw [giveFrame, controlBlock_none hc]

theorem settledAt_none (va : Nat) : settledAt s va = none := by rw [settledAt, hc]

theorem settle_bytesKept (page : Nat) : BytesKept s (settle s page) := by
  simp only [settle, settledAt_none hc, countSettle, countUp_none hc]
  exact ((count_bytesKept ..).trans (emit_bytesKept ..)).trans (withMoveLogs_bytesKept ..)

theorem releaseFrame_bytesKept (die leaf : Nat) : BytesKept s (releaseFrame s die leaf) := by
  unfold releaseFrame
  split
  · rw [giveFrame_none hc]; exact .refl s
  · exact emit_bytesKept ..

theorem abandonMove_bytesKept (m : MoveReq) : BytesKept s (abandonMove s m) := by
  simp only [abandonMove, giveFrame_none hc, countAbandoned, countUp_none hc]
  have he : BytesKept s (endMove s m false) := endMove_bytesKept ..
  split
  · exact he.trans (settle_bytesKept (he.noControl hc) _)
  · exact he

end

/-- What follows the swap of a leaf: the old frame is free, and the move ends (R266, R268). -/
def moveEnds (s : State) (m : MoveReq) : State :=
  let z := endMove (countMove (releaseFrame s (vaDie m.page) m.leaf) (vaDie m.page) m.leaf m.target) m true
  if m.settle then settle z m.page else logMove z m.page (z.tickOf (vaDie m.page))

theorem moveEnds_bytesKept {s : State} (hc : NoMigrationControl s) (m : MoveReq) : BytesKept s (moveEnds s m) := by
  have he : BytesKept s (endMove (countMove (releaseFrame s (vaDie m.page) m.leaf) (vaDie m.page) m.leaf m.target) m true) :=
    ((releaseFrame_bytesKept hc ..).trans (countMove_bytesKept ..)).trans (endMove_bytesKept ..)
  unfold moveEnds
  dsimp only
  split
  · exact he.trans (settle_bytesKept (he.noControl hc) _)
  · exact he.trans (withMoveLogs_bytesKept ..)

/-! ## A move that is performed (R266) -/

theorem bumpFrame_keeps (s : State) (new : Nat) : (bumpFrame s new).mem = s.mem ∧ OnlyWrites s (bumpFrame s new) := by
  unfold bumpFrame
  split
  · exact ⟨foldl_mem (fun s k => bumpLine_mem s _) _ _, OnlyWrites.foldl (fun s k => OnlyWrites.bumpLine s _) _ _⟩
  · exact ⟨rfl, .refl s⟩

theorem movePage_mem (s : State) (old new : Nat) : (movePage s old new).mem = copyFrame s.mem old new := (bumpFrame_keeps ..).1

theorem movePage_noControl {s : State} (h : NoMigrationControl s) (old new : Nat) : NoMigrationControl (movePage s old new) :=
  (bumpFrame_keeps ..).2.noControl h

theorem reachFrame_mem {s : State} (hc : NoMigrationControl s) (va : Nat) (loc : Option Nat) : (reachFrame s va loc).mem = s.mem := by
  have hd : ∀ z, NoMigrationControl z → setDirty z va = z := fun z hz => by simp only [setDirty, hz (vaDie va)]
  unfold reachFrame
  split
  · rw [hd _ ((OnlyWrites.bumpLine ..).noControl hc), bumpLine_mem]
  · rw [hd s hc]

theorem countPage_keeps (s : State) (va die : Nat) : (countPage s va die).mem = s.mem ∧ OnlyWrites s (countPage s va die) := by
  unfold countPage
  dsimp only
  split <;> exact ⟨rfl, rfl⟩

/-- Counts of write-backs change no memory. -/
theorem foldl_countWriteBack_keeps (xs : List DirtyLine) (s : State) :
    (xs.foldl countWriteBack s).mem = s.mem ∧ OnlyWrites s (xs.foldl countWriteBack s) := by
  have hone : ∀ (z : State) (x : DirtyLine), (countWriteBack z x).mem = z.mem ∧ OnlyWrites z (countWriteBack z x) := fun z x => by
    unfold countWriteBack
    split
    · exact ⟨foldl_mem (fun s k => (countPage_keeps s _ k).1) _ _, OnlyWrites.foldl (fun s k => (countPage_keeps s _ k).2) _ _⟩
    · exact ⟨rfl, .refl z⟩
  exact ⟨foldl_mem (fun s x => (hone s x).1) _ _, OnlyWrites.foldl (fun s x => (hone s x).2) _ _⟩

/-- The write-back of a line leaves memory as it is: it already holds the line's bytes. -/
theorem writeBackLine_keeps {s : State} (hc : NoMigrationControl s) (l : Nat) (loc : Option Nat) :
    (writeBackLine s l loc).mem = s.mem ∧ OnlyWrites s (writeBackLine s l loc) := by
  have hcounted := foldl_countWriteBack_keeps (s.dirtyLines.filter (fun x => x.line == l)) s
  unfold writeBackLine
  dsimp only
  generalize (s.dirtyLines.filter (fun x => x.line == l)).foldl countWriteBack s = z at hcounted ⊢
  obtain ⟨hm, ho⟩ := hcounted
  have hclean : OnlyWrites z { z with dirtyLines := z.dirtyLines.filter (fun x => x.line != l) } := rfl
  exact ⟨(reachFrame_mem ((ho.trans hclean).noControl hc) _ _).trans hm, (ho.trans hclean).trans (OnlyWrites.reachFrame ..)⟩

theorem writeBackPage_keeps {s : State} (hc : NoMigrationControl s) (page leaf : Nat) :
    (writeBackPage s page leaf).mem = s.mem ∧ NoMigrationControl (writeBackPage s page leaf) := by
  refine List.foldlRecOn (motive := fun z : State => z.mem = s.mem ∧ NoMigrationControl z) s.dirtyLines _ ⟨rfl, hc⟩
    (fun z ⟨hm, hz⟩ x _ => ?_)
  split
  · have hk : (if x.cache.isSome then ((0 : Nat), z) else z.pick 2).2.mem = z.mem ∧
        OnlyWrites z (if x.cache.isSome then ((0 : Nat), z) else z.pick 2).2 := by
      split
      · exact ⟨rfl, .refl z⟩
      · exact ⟨State.pick_mem .., OnlyWrites.pick ..⟩
    dsimp only
    generalize (if x.cache.isSome then ((0 : Nat), z) else z.pick 2) = k at hk ⊢
    obtain ⟨hkm, hko⟩ := hk
    split
    · obtain ⟨hbm, hbo⟩ := writeBackLine_keeps (hko.noControl hz) x.line (some (leafLoc leaf 16 (vaOfs (64 * x.line))))
      exact ⟨hbm.trans (hkm.trans hm), hbo.noControl (hko.noControl hz)⟩
    · exact ⟨hkm.trans hm, hko.noControl hz⟩
  · exact ⟨hm, hz⟩

/-- A move that finds its leaf unchanged, in three parts. -/
theorem finishMove_moved {s : State} {m : MoveReq} (hw : frameWaits s m.leaf = false) (hl : s.peekNat m.at' 8 = m.leaf) :
    let leaf := movedLeaf m.leaf m.target m.frame
    let z := swapLeaf (movePage (writeBackPage s m.page m.leaf) (leafLoc m.leaf 16 0) (leafLoc leaf 16 0)) m.at' leaf
    finishMove s m = moveEnds { z with tlb := z.tlb.filter (fun t => !(t.covers (vaDie m.page) (vaOfs m.page))) } m := by
  intro leaf z
  rw [finishMove, if_neg (by simp [hw]), if_neg (by simp [hl])]
  rfl

/-- A move performed: the new frame holds the old one's bytes, the leaf is the new one, nothing else in memory changes, and no
translation of the page is left. -/
theorem finishMove_effect {s : State} {m : MoveReq} (hc : NoMigrationControl s) (hwf : memWf s.mem = true)
    (hw : frameWaits s m.leaf = false) (hl : s.peekNat m.at' 8 = m.leaf)
    (hapart : ∀ l, m.at' ≤ l → l < m.at' + 8 → ¬ (leafLoc (movedLeaf m.leaf m.target m.frame) 16 0 ≤ l ∧
      l < leafLoc (movedLeaf m.leaf m.target m.frame) 16 0 + 65536)) :
    (∀ k, k < 65536 → (finishMove s m).peek (leafLoc (movedLeaf m.leaf m.target m.frame) 16 0 + k) = s.peek (leafLoc m.leaf 16 0 + k)) ∧
    (finishMove s m).peekNat m.at' 8 = movedLeaf m.leaf m.target m.frame ∧
    (∀ l, ¬ (leafLoc (movedLeaf m.leaf m.target m.frame) 16 0 ≤ l ∧ l < leafLoc (movedLeaf m.leaf m.target m.frame) 16 0 + 65536) →
      ¬ (m.at' ≤ l ∧ l < m.at' + 8) → (finishMove s m).peek l = s.peek l) ∧
    ∀ e ∈ (finishMove s m).tlb, e.covers (vaDie m.page) (vaOfs m.page) = false := by
  rw [finishMove_moved hw hl]
  have hlt : movedLeaf m.leaf m.target m.frame < 2 ^ 64 := movedLeaf_lt (hl ▸ peekNat_lt ..) _ _
  generalize hleaf : movedLeaf m.leaf m.target m.frame = leaf at hapart hlt ⊢
  generalize hnew : leafLoc leaf 16 0 = new at hapart ⊢
  obtain ⟨hback, hcback⟩ := writeBackPage_keeps hc m.page m.leaf
  have hcopied : ∀ l, (movePage (writeBackPage s m.page m.leaf) (leafLoc m.leaf 16 0) new).peek l =
      if new ≤ l ∧ l < new + 65536 then s.peek (leafLoc m.leaf 16 0 + (l - new)) else s.peek l := fun l => by
    rw [State.peek, movePage_mem, hback, memGet_copyFrame hwf]
    rfl
  have hwf' : memWf (movePage (writeBackPage s m.page m.leaf) (leafLoc m.leaf 16 0) new).mem = true := by
    rw [movePage_mem, hback]
    exact copyFrame_memWf hwf _ _
  have hcmove := movePage_noControl hcback (leafLoc m.leaf 16 0) new
  generalize movePage (writeBackPage s m.page m.leaf) (leafLoc m.leaf 16 0) new = z at hcopied hwf' hcmove ⊢
  obtain ⟨hread, hkept⟩ := swapLeaf_peek hwf' m.at' leaf hlt
  have hcswap : NoMigrationControl (swapLeaf z m.at' leaf) := (OnlyWrites.writeBytes ..).noControl hcmove
  generalize swapLeaf z m.at' leaf = y at hread hkept hcswap ⊢
  obtain ⟨hmem, htlb, -⟩ := moveEnds_bytesKept (s := { y with tlb := y.tlb.filter (fun t => !(t.covers (vaDie m.page) (vaOfs m.page))) })
    hcswap m
  generalize moveEnds { y with tlb := y.tlb.filter (fun t => !(t.covers (vaDie m.page) (vaOfs m.page))) } m = x at hmem htlb ⊢
  have hpeek : ∀ l, x.peek l = y.peek l := fun l => by rw [State.peek, hmem]; rfl
  refine ⟨fun k hk => ?_, ?_, fun l hn ha => ?_, fun e he => ?_⟩
  · rw [hpeek, hkept _ (fun h => hapart _ h.1 h.2 (by omega)), hcopied, if_pos (by omega), Nat.add_sub_cancel_left]
  · rw [← hread]
    simp only [State.peekNat, hpeek]
  · rw [hpeek, hkept l ha, hcopied, if_neg hn]
  · rw [htlb] at he
    simpa using (List.mem_filter.1 he).2

theorem page_of_underMove {s : State} {p : Nat} {m : MoveReq} (h : underMove s p = some m) : m.page = p := by
  have := List.find?_some h
  simp only [Bool.and_eq_true, beq_iff_eq] at this
  exact this.1

/-! ## The end of a window (R267) -/

/-- A request, or its start, changes no workgroup and no window's end. -/
structure RequestKeeps (s s' : State) : Prop where
  workgroups : s'.workgroups = s.workgroups
  windowEnds : s'.windowEnds = s.windowEnds

theorem RequestKeeps.refl (s : State) : RequestKeeps s s := ⟨rfl, rfl⟩

theorem RequestKeeps.trans {a b c : State} (h : RequestKeeps a b) (h' : RequestKeeps b c) : RequestKeeps a c :=
  ⟨h'.workgroups.trans h.workgroups, h'.windowEnds.trans h.windowEnds⟩

theorem OnlyWrites.requestKeeps {a b : State} (h : OnlyWrites a b) : RequestKeeps a b := by
  rw [h]; exact ⟨rfl, rfl⟩

theorem withMoveLogs_requestKeeps (s : State) (x : List MoveLog) : RequestKeeps s { s with moveLogs := x } := ⟨rfl, rfl⟩

theorem withMoves_requestKeeps (s : State) (x : List MoveReq) : RequestKeeps s { s with moves := x } := ⟨rfl, rfl⟩

theorem countUp_onlyWrites (s : State) (die ofs : Nat) : OnlyWrites s (countUp s die ofs) := by
  unfold countUp
  split
  · exact .refl s
  · exact OnlyWrites.pokeNat ..

theorem settle_requestKeeps (s : State) (page : Nat) : RequestKeeps s (settle s page) := by
  have hsettled : ∀ z : State, OnlyWrites s z → OnlyWrites s
      (((countSettle z (vaDie page)).count (farOf (vaDie page)) 12 1).emit 0 7 (farOf (vaDie page)) 0 0 0 page) := fun z hz =>
    ((hz.trans (countUp_onlyWrites ..)).trans (OnlyWrites.count ..)).trans (OnlyWrites.emit ..)
  unfold settle
  dsimp only
  split
  · exact (hsettled _ (OnlyWrites.writeBytes ..)).requestKeeps.trans (withMoveLogs_requestKeeps ..)
  · exact (hsettled _ (.refl s)).requestKeeps.trans (withMoveLogs_requestKeeps ..)

theorem takeFrame_onlyWrites {s z : State} {memory frame : Nat} (h : takeFrame s memory = some (frame, z)) : OnlyWrites s z := by
  unfold takeFrame at h
  split at h
  · cases h
  · obtain ⟨-, htaken⟩ := Option.ite_none_left_eq_some.1 h
    rw [← (Prod.mk.inj (Option.some.inj htaken)).2]
    exact OnlyWrites.pokeNat ..

theorem startMove_requestKeeps (s : State) (page at' leaf target : Nat) (settling : Bool) (tpf : Option Nat) :
    RequestKeeps s (startMove s page at' leaf target settling tpf) := by
  unfold startMove
  split
  · next h => exact (takeFrame_onlyWrites h).requestKeeps.trans (withMoves_requestKeeps ..)
  · have hskip : OnlyWrites s ((countSkipped s (vaDie page)).count (farOf (vaDie page)) 11 1) :=
      (countUp_onlyWrites ..).trans (OnlyWrites.count ..)
    dsimp only
    generalize (countSkipped s (vaDie page)).count (farOf (vaDie page)) 11 1 = z at hskip
    have hnote : RequestKeeps z (if tpf.isSome then
        { z with moves := z.moves ++ [⟨page, at', leaf, target, 0, settling, tpf, some false⟩] } else z) := by
      split
      · exact withMoves_requestKeeps ..
      · exact .refl z
    split
    · exact (hskip.requestKeeps.trans hnote).trans (settle_requestKeeps ..)
    · exact hskip.requestKeeps.trans hnote

theorem requestMove_requestKeeps (s : State) (page at' leaf target q : Nat) (tpf : Option Nat) :
    RequestKeeps s (requestMove s page at' leaf target q tpf) := by
  unfold requestMove
  dsimp only
  split
  · split
    · refine RequestKeeps.trans ?_ (settle_requestKeeps ..)
      split
      · exact withMoves_requestKeeps ..
      · exact .refl s
    · exact startMove_requestKeeps ..
  · exact startMove_requestKeeps ..

theorem windowCounts_onlyWrites (page : Nat) (ds : List Nat) (s : State) : OnlyWrites s (windowCounts page ds s).2 := by
  induction ds generalizing s with
  | nil => exact .refl s
  | cons d ds ih =>
    have hone : OnlyWrites s (windowCount s page d).2 := by
      unfold windowCount
      split <;> exact OnlyWrites.pick ..
    exact hone.trans (ih _)

theorem demandPage_requestKeeps (q migt : Nat) (s : State) (page : Nat) : RequestKeeps s (demandPage q migt s page) := by
  unfold demandPage
  split
  · exact .refl s
  · next leaf at' _ =>
    have hcounts := (windowCounts_onlyWrites page (deviceDies s.mode (vaDie page)) s).requestKeeps
    dsimp only
    split
    · exact hcounts
    · split
      · exact hcounts
      · exact hcounts.trans (requestMove_requestKeeps ..)

/-- The requests that a window's end makes. -/
def windowRequests (s : State) (die : Nat) : State :=
  match controlBlock s die with
  | none => s
  | some cb =>
    let migt := mcbField s cb 0 4
    if migt = 0 then s else (countedPages s die).foldl (demandPage (s.windowEnds.getD die 0) migt) s

theorem windowRequests_keeps (s : State) (die : Nat) : RequestKeeps s (windowRequests s die) := by
  unfold windowRequests
  split
  · exact .refl s
  · dsimp only
    split
    · exact .refl s
    · exact List.foldlRecOn (motive := RequestKeeps s) _ _ (.refl s) (fun z hz page _ => hz.trans (demandPage_requestKeeps ..))

theorem execMigrationWindowEnd_eq (die : Fin 4) (s : State) : exec (.migrationWindowEnd die) s =
    .next (if s.tickOf die.val < s.windowEnds.getD die.val 0 || s.down.any (fun x => x.die == die) then s
      else startWindow (windowRequests s die.val) die.val) := rfl

/-- The leader has a largest count. -/
theorem leader_max {cs : List (Nat × Nat)} {x : Nat × Nat} (h : leader cs = some x) : x ∈ cs ∧ ∀ c ∈ cs, c.2 ≤ x.2 := by
  induction cs generalizing x with
  | nil => cases h
  | cons c cs ih =>
    rw [leader] at h
    split at h
    · next hn =>
      cases h
      cases cs with
      | nil => exact ⟨List.mem_cons_self .., fun d hd => by rw [List.mem_singleton.1 hd]⟩
      | cons e es =>
        rw [leader] at hn
        split at hn <;> cases hn
    · next d hd =>
      obtain ⟨hmem, hmax⟩ := ih hd
      cases h
      split
      · next hlt =>
        exact ⟨List.mem_cons_of_mem _ hmem, List.forall_mem_cons.2 ⟨hlt.le, hmax⟩⟩
      · next hle =>
        exact ⟨List.mem_cons_self .., List.forall_mem_cons.2 ⟨le_refl _, fun e he => (hmax e he).trans (not_lt.1 hle)⟩⟩

/-- A window's end asks for a page only for a die whose count is largest and at least the least count, and not for its holder (R267). -/
theorem demandTarget_some {leaf migt d : Nat} {cs : List (Nat × Nat)} (h : demandTarget leaf migt cs = some d) :
    0 < migt ∧ ∃ n, (d, n) ∈ cs ∧ migt ≤ n ∧ (∀ c ∈ cs, c.2 ≤ n) ∧ (leafTier leaf = 0 → d ≠ leafHold leaf) := by
  unfold demandTarget at h
  split at h
  · cases h
  · next d' n hlead =>
    obtain ⟨hmem, hmax⟩ := leader_max hlead
    split at h
    · cases h
    · next hleast =>
      obtain ⟨hpos, hmin⟩ := not_or.1 hleast
      have hd : d' = d ∧ (leafTier leaf = 0 → d' ≠ leafHold leaf) := by
        split at h
        · next hfar => exact ⟨Option.some.inj h, fun h0 => absurd h0 hfar⟩
        · obtain ⟨⟨hheld, -⟩, hval⟩ := Option.ite_none_right_eq_some.1 h
          exact ⟨Option.some.inj hval, fun _ => hheld⟩
      obtain ⟨rfl, hhold⟩ := hd
      exact ⟨Nat.pos_of_ne_zero hpos, n, hmem, not_lt.1 hmin, hmax, hhold⟩

/-! ## Waiting again -/

/-- With no thread that waits with a kind, none is tried again. -/
theorem retryAll_none {s : State} {k : WaitKind} (h : waitersOf s k = []) : retryAll k s = s := by
  rw [retryAll]
  split
  · rfl
  · simp [sortedWaiters, h]

end Machine
end Sys2Proof

open Sys2Proof Sys2Proof.Machine

/-- Settles O57: the copy reads the old frame into the new one whole, and with no control block on any die what precedes and follows it
writes no memory but the leaf. -/
theorem pageMoves : Obligations.PageMoves := by
  unfold Obligations.PageMoves
  refine ⟨fun s page m hc hwf => ?_, fun s die hdie => ?_, fun leaf migt d cs h => ?_, fun s memory region => ?_⟩
  · have he : exec (.pageMove page) s = execPageMove page s := rfl
    have hup : (∀ x ∈ s.down, x.die.val ≠ vaDie (page.toNat / 65536 * 65536)) →
        ¬ (s.down.any (fun x => x.die.val == vaDie (page.toNat / 65536 * 65536))) = true := fun h => by simpa using h
    simp only [he, execPageMove]
    refine ⟨fun hdown => ?_, fun hdown hm ht => ?_, fun hm hw => ?_, fun hdown hm hw => ?_⟩
    · rw [if_pos (by simpa using hdown)]
    · rw [if_neg (hup hdown), hm, ht]
    · rw [hm]
      simp only [finishMove, hw, if_true, ite_self]
    · rw [if_neg (hup hdown), hm]
      dsimp only
      refine ⟨fun hl => ⟨_, rfl, ?_⟩, fun hl hapart => ⟨_, rfl, ?_⟩⟩
      · obtain ⟨hmem, htlb, -⟩ := abandonMove_bytesKept hc m
        rw [finishMove, if_neg (by simp [hw]), if_pos hl]
        exact ⟨fun l => by rw [State.peek, hmem]; rfl, htlb⟩
      · have heffect := finishMove_effect hc hwf hw hl (fun l h₁ h₂ => (hapart l ⟨h₁, h₂⟩).2)
        rw [page_of_underMove hm] at heffect
        exact heffect
  · rw [execMigrationWindowEnd_eq]
    refine ⟨fun hlt => ?_, fun hdown => ?_, fun hge hdown => ?_⟩
    · rw [if_pos (Bool.or_eq_true_iff.2 (.inl (decide_eq_true hlt)))]
    · rw [if_pos (by simpa using .inr hdown)]
    · rw [if_neg (by simpa using ⟨hge, hdown⟩)]
      obtain ⟨hwork, hends⟩ := windowRequests_keeps s die.val
      refine ⟨_, rfl, ?_, hwork, fun hc l => ?_, fun c hmem hd => ?_⟩
      · simp only [startWindow, hends]
        exact getD_setAt_same _ _ _ _ hdie
      · rw [windowRequests, controlBlock_none hc]
        rfl
      · obtain ⟨c', -, rfl⟩ := List.mem_map.1 hmem
        split at hd
        · next h => rw [if_pos h]
        · next h => exact absurd hd h
  · exact demandTarget_some h
  · have he : exec (.reencryptRegion memory region) s =
      .next (if s.reencrypting.contains (memory, region) then retryAll .link (reencrypt s (memory, region)) else s) := rfl
    refine ⟨fun hn => ?_, fun hin hw => ?_⟩
    · rw [he, if_neg (by simpa using hn)]
    · rw [he, if_pos (by simpa using hin), retryAll_none (s := reencrypt s (memory, region)) hw]
      refine ⟨_, rfl, by simp [reencrypt], ?_, fun c hmem hr => ?_, fun l => rfl, rfl⟩
      · simp only [reencrypt]
        rw [find?_upsert_same (by simp)]
      · obtain ⟨c', -, rfl⟩ := List.mem_map.1 hmem
        split at hr
        · next h => rw [if_pos h]
        · next h => exact absurd hr h

end

section
/-! PROOFS. What comes of one thread's instruction, at its issue or at the event that serves its wait: of the part of its body the next
state, its thread and its memory (R32, R36, Table 3.1). -/

namespace Sys2Proof
namespace Machine

/-! ## States that agree in what an access may not change beside its own thread -/

/-- Memory, full/empty bits and the peer table are as before. -/
structure Kept (s z : State) : Prop where
  mem : z.mem = s.mem
  full : z.full = s.full
  peers : z.peers = s.peers

theorem Kept.refl (s : State) : Kept s s := ⟨rfl, rfl, rfl⟩

theorem Kept.trans {a b c : State} (h : Kept a b) (h' : Kept b c) : Kept a c :=
  ⟨h'.mem.trans h.mem, h'.full.trans h.full, h'.peers.trans h.peers⟩

theorem Kept.sameMemory {s z : State} (h : Kept s z) : SameMemory s z := fun l => by rw [State.peek, h.mem]; rfl

theorem OnlyCores.kept {s z : State} (h : OnlyCores s z) : Kept s z := by rw [h]; exact ⟨rfl, rfl, rfl⟩

theorem thread?_congr {a b : State} (h : b.workgroups = a.workgroups) (u tid : Nat) : b.thread? u tid = a.thread? u tid := by
  unfold State.thread? State.wg?
  rw [h]

theorem modThread_workgroups_congr {a b : State} (h : a.workgroups = b.workgroups) (u tid : Nat) (f : Thread → Thread) :
    (a.modThread u tid f).workgroups = (b.modThread u tid f).workgroups := by
  have hw : a.wg? u = b.wg? u := by unfold State.wg?; rw [h]
  unfold State.modThread
  rw [hw]
  split
  · exact h
  · split
    · exact h
    · simp only [State.setWg, h]

/-! ## Records of codes raised -/

/-- Every thread of the workgroup that is stopped at a code was so before. -/
def NoNewTraps (s z : State) (u : Nat) : Prop :=
  ∀ h, z.wg? u = some h → ∃ g, s.wg? u = some g ∧
    ∀ x ∈ h.threads, x.trap.isSome = true → ∃ y ∈ g.threads, y.tid = x.tid ∧ y.trap.isSome = true

theorem NoNewTraps.of_workgroups {s z : State} (h : z.workgroups = s.workgroups) (u : Nat) : NoNewTraps s z u := by
  intro g hg
  exact ⟨g, by unfold State.wg? at *; rw [← h]; exact hg, fun x hx ht => ⟨x, hx, rfl, ht⟩⟩

theorem NoNewTraps.trans {a b c : State} {u : Nat} (h : NoNewTraps a b u) (h' : NoNewTraps b c u) : NoNewTraps a c u := by
  intro k hk
  obtain ⟨g', hg', htraps'⟩ := h' k hk
  obtain ⟨g, hg, htraps⟩ := h g' hg'
  refine ⟨g, hg, fun x hx ht => ?_⟩
  obtain ⟨y, hy, hyx, hyt⟩ := htraps' x hx ht
  obtain ⟨w, hw, hwy, hwt⟩ := htraps y hy hyt
  exact ⟨w, hw, hwy.trans hyx, hwt⟩

theorem Workgroup.mem_of_thread? {g : Workgroup} {tid : Nat} {t : Thread} (h : g.thread? tid = some t) : t ∈ g.threads :=
  List.mem_of_find?_eq_some h

/-- A thread changed, but for its number and its code. -/
theorem NoNewTraps.modThread (s : State) (u tid : Nat) {f : Thread → Thread} (hf : ∀ t, (f t).tid = t.tid ∧ (f t).trap = t.trap) :
    NoNewTraps s (s.modThread u tid f) u := by
  unfold State.modThread
  split
  · exact .of_workgroups rfl u
  · next g hg =>
    split
    · exact .of_workgroups rfl u
    · next t ht =>
      intro h hh
      have hu : (g.setThread (f t)).uid = u := (State.wg?_uid hg :)
      have hh' : (s.setWg (g.setThread (f t))).wg? (g.setThread (f t)).uid = some h := by rw [hu]; exact hh
      rw [State.wg?_setWg_same (g := g.setThread (f t)) (h := g) (by rw [hu]; exact hg)] at hh'
      cases hh'
      refine ⟨g, hg, fun x hx hxt => ?_⟩
      rcases mem_replaceFirst hx with rfl | hx
      · obtain ⟨htid, htrap⟩ := hf t
        exact ⟨t, Workgroup.mem_of_thread? ht, htid.symm, by rw [← htrap]; exact hxt⟩
      · exact ⟨x, hx, rfl, hxt⟩

/-- With no code raised, none is recorded (R296). -/
theorem traceRaised_none {s z : State} {u : Nat} (h : NoNewTraps s z u) : traceRaised s z u = z := by
  unfold traceRaised
  split
  · next g k hg hk =>
    split
    · rfl
    · obtain ⟨g', hg', htraps⟩ := h k hk
      obtain rfl : g = g' := Option.some.inj (hg.symm.trans hg')
      have hnone : k.threads.filter (fun t => t.trap.isSome && !(g.threads.any (fun x => x.tid == t.tid && x.trap.isSome))) = [] := by
        refine List.filter_eq_nil_iff.2 (fun x hx hraised => ?_)
        obtain ⟨htrap, hnew⟩ := Bool.and_eq_true_iff.1 hraised
        obtain ⟨y, hy, htid, hyt⟩ := htraps x hx htrap
        have hany : g.threads.any (fun y => y.tid == x.tid && y.trap.isSome) = true :=
          List.any_eq_true.2 ⟨y, hy, by rw [htid, hyt, beq_self_eq_true]; rfl⟩
        rw [hany] at hnew
        cases hnew
      rw [hnone]
      exact List.foldlRecOn (motive := fun y : State => y = z) _ _ rfl (fun y hy k _ => hy)
  · rfl

/-! ## The part of a thread alone -/

/-- What the part of a thread alone on issue leaves, when it raises no code. -/
theorem exec_alone {s : State} {m : Member} {i : Instr} {body : Member → State → MRes} (he : exec i s = .next (runCore i body s))
    (ht : traceType i = none) (hp : PerformsAlone s m i) (hn : NoNewTraps s.popped (stepMember i body s.popped m) m.wg.uid) :
    exec i s = .next (stepMember i body s.popped m) := by
  obtain ⟨⟨hgang, ⟨rest, hi⟩, hw, hth, -⟩, -⟩ := hp
  have hpop : s.popped = { s with issue := rest } := by rw [State.popped, hi]; rfl
  have hw' : s.popped.wg? m.wg.uid = some m.wg := hw
  have hm : membersOf m.wg [m.t.tid] = [m] := by rw [membersOf_one hth, ← hgang]
  rw [he, runCore, runShared, hi]
  unfold runGang
  rw [hi]
  dsimp only
  rw [← hpop, hw']
  dsimp only
  rw [traceGang_none ht, hm, List.foldl_cons, List.foldl_nil, traceRaised_none hn]

theorem gate_popped {s : State} {m : Member} {i : Instr} (hp : PerformsAlone s m i) : gate s.popped m i = .ok true :=
  (OnlyCores.gate (show OnlyCores s s.popped from rfl) m i).trans hp.2

theorem popped_of_idle {s : State} (h : s.issue = []) : s.popped = s := by
  cases s
  cases h
  rfl

theorem endGang_kept (s : State) : Kept s s.endGang ∧ s.endGang.workgroups = s.workgroups := by
  unfold State.endGang
  split <;> exact ⟨⟨rfl, rfl, rfl⟩, rfl⟩

section
variable {s z : State} {m : Member} {i : Instr} {o' : Out} {k : Nat} {x : WaitKind} {e : Instr} {v : MemView}

/-- Whatever comes of the instruction, the thread of its member stands in its workgroup. -/
theorem IssuedOrResumed.thread? (h : IssuedOrResumed s m i x e o' k) : s.thread? m.wg.uid m.t.tid = some m.t ∧ m.gang = [m.t.tid] := by
  rcases h with ⟨⟨⟨hgang, -, hw, hth, -⟩, -⟩, -, -⟩ | ⟨⟨-, hgang, g, w, hw, hth, -⟩, -, -⟩
  all_goals exact ⟨by simp only [State.thread?, hw, hth], hgang⟩

/-- The event that serves a thread tries its instruction again. -/
theorem exec_feWaitServed (hr : WaitingAt s m i .granule) : ∃ w : Wait, w.kind = .granule ∧ w.instr = i ∧
    exec (.feWaitServed ⟨m.wg.uid, m.t.tid⟩) s = .next (match waitBody i m s.popped with
      | .trap c d => traceRaised s (takeTrap s m.wg.uid m.t.tid c d) m.wg.uid
      | .wait s' w' => { s' with peers := s.peers }.modThread m.wg.uid m.t.tid (fun x => { x with wait := some (w.again w') })
      | .done s' f => { s' with peers := s.peers }.endGang.modThread m.wg.uid m.t.tid (fun t => t.resume (stallOf i) f)) := by
  obtain ⟨hidle, hgang, g, w, hw, hth, hwg, hwait, hkind, hinstr, hp⟩ := hr
  refine ⟨w, hkind, hinstr, ?_⟩
  have hm : (⟨{ g with fmts := w.fmts }, m.t, [m.t.tid]⟩ : Member) = m := by rw [← hwg, ← hgang]
  have hs : ({ s with peers := w.peers } : State) = s := by rw [hp]
  change Host.Outcome.next (retryWait (· == .granule) waitBody ⟨m.wg.uid, m.t.tid⟩ s) = _
  unfold retryWait
  dsimp only
  rw [hw]
  dsimp only
  rw [hth]
  dsimp only
  rw [hwait]
  dsimp only
  rw [hkind, hm, hs, hinstr, popped_of_idle hidle]
  rfl

theorem State.modThread_congr {f g : Thread → Thread} {u tid : Nat} {t : Thread} (ht : s.thread? u tid = some t) (h : f t = g t) :
    s.modThread u tid f = s.modThread u tid g := by
  unfold State.thread? at ht
  unfold State.modThread
  split at ht
  · next w hw => simp only [hw, ht, h]
  · cases ht

/-- The member's thread after its part, with its view then and the stall count `k`. -/
def endedThread (m : Member) (v : MemView) (i : Instr) (f : Effect) (k : Nat) : Thread :=
  { (({ m.t with view := v } : Thread).apply (stallOf i) f) with stall := k }

/-- A thread's own part, when it has come to its end: its thread with its results, and beside it what the part has made of the state. -/
theorem done_outcome {f : Effect} (he : exec i s = .next (runCore i (waitBody i) s)) (ht : traceType i = none)
    (hr : IssuedOrResumed s m i .granule (.feWaitServed ⟨m.wg.uid, m.t.tid⟩) o' k) (hb : waitBody i m s.popped = .done z f)
    (hf : f.lat = none) (hwg : z.workgroups = (s.setView m.wg.uid m.t.tid v).workgroups) (hpeers : z.peers = s.peers) :
    ∃ s', o' = .next s' ∧ Kept z s' ∧ OthersKept s s' m ∧
      s'.thread? m.wg.uid m.t.tid = some (endedThread m v i f k) := by
  obtain ⟨hth, hgang⟩ := hr.thread?
  have hsame : s.thread? m.wg.uid m.t.tid = some m.t → z.thread? m.wg.uid m.t.tid = some { m.t with view := v } := fun h =>
    (thread?_congr hwg _ _).trans (State.thread?_modThread_same h rfl)
  -- the end of the thread's part, at whatever agrees with `z`
  have hend : ∀ (y : State) (F : Thread → Thread), Kept z y → y.workgroups = z.workgroups → (∀ t, (F t).tid = t.tid) →
      F { m.t with view := v } = endedThread m v i f k →
      o' = .next (y.modThread m.wg.uid m.t.tid F) → ∃ s', o' = .next s' ∧ Kept z s' ∧ OthersKept s s' m ∧
        s'.thread? m.wg.uid m.t.tid = some (endedThread m v i f k) := by
    intro y F hy hyw htid hF ho
    refine ⟨_, ho, hy.trans (OnlyCores.modThread ..).kept, fun u tid hother => ?_, ?_⟩
    · rw [hgang] at hother
      have hother : u ≠ m.wg.uid ∨ tid ≠ m.t.tid := hother.imp_right (fun h => by simpa using h)
      rw [State.thread?_modThread_other (fun t h => (htid t).trans h) hother, thread?_congr hyw, thread?_congr hwg]
      exact State.thread?_modThread_other (fun _ h => h) hother
    · rw [← hF]
      exact State.thread?_modThread_same ((thread?_congr hyw _ _).trans (hsame hth)) (htid _)
  rcases hr with ⟨hp, ho, hk⟩ | ⟨hp, ho, hk⟩
  · have hstep : stepMember i (waitBody i) s.popped m = z.modThread m.wg.uid m.t.tid (fun t => t.apply (stallOf i) f) := by
      rw [stepMember, gate_popped hp, hb]
    have htrap : ∀ t : Thread, (t.apply (stallOf i) f).trap = t.trap := fun t => by
      obtain ⟨-, -, -, -, -, -, -, -, h, -⟩ := Thread.apply_late t (stallOf i) f hf
      exact h
    have hnew : NoNewTraps s.popped z m.wg.uid :=
      (NoNewTraps.modThread s.popped m.wg.uid m.t.tid (f := fun t => { t with view := v }) (fun _ => ⟨rfl, rfl⟩)).trans
        (.of_workgroups (hwg.trans (modThread_workgroups_congr (a := s) (b := s.popped) rfl ..)) _)
    rw [exec_alone he ht hp (by rw [hstep]; exact hnew.trans (.modThread _ _ _ (fun t => ⟨t.apply_tid .., htrap t⟩))), hstep] at ho
    refine hend z _ (.refl z) rfl (fun t => t.apply_tid ..) ?_ ho
    obtain ⟨-, -, -, -, -, hs, -⟩ := Thread.apply_late { m.t with view := v } (stallOf i) f hf
    rw [hk, endedThread]
    generalize Thread.apply { m.t with view := v } (stallOf i) f = t at hs ⊢
    rw [← hs]
  · obtain ⟨w, -, -, hx⟩ := exec_feWaitServed hp
    rw [hx, hb] at ho
    have hz : ({ z with peers := s.peers } : State) = z := by rw [← hpeers]
    dsimp only at ho
    rw [hz] at ho
    obtain ⟨hkept, hw⟩ := endGang_kept z
    exact hend z.endGang (fun t => t.resume (stallOf i) f) hkept hw (fun t => Thread.apply_tid t ..) (by rw [hk]; rfl) ho

/-- An instruction with no result leaves its thread advanced. -/
theorem writesNowAt_ended {s' : State} (ho : o' = .next s') (hth : s'.thread? m.wg.uid m.t.tid = some (endedThread m v i {} k)) :
    WritesNowAt k o' m [] 0 := by
  refine ⟨s', _, ho, hth, ?_⟩
  rw [endedThread, apply_nothing]
  exact ⟨fun _ _ h => absurd h List.not_mem_nil, fun _ _ h => absurd h List.not_mem_nil, fun _ _ h => absurd h List.not_mem_nil,
    (BitVec.or_zero ..).symm, rfl, rfl, rfl⟩

/-- A scoreboarded result is owed. -/
theorem writesLaterAt_ended {s' : State} {ws : List RegWrite} {tag : Option (Fin 13 × Nat)} (ho : o' = .next s')
    (hth : s'.thread? m.wg.uid m.t.tid = some (endedThread m v i { writes := ws, memory := true, load := true, tag := tag } k)) :
    WritesLaterAt k o' m ws 0 true true := by
  obtain ⟨hregs, hpreds, hvms, hflags, hpc, -, -, -, -, -, -, -, howed⟩ := Thread.apply_late { m.t with view := v } (stallOf i)
    { writes := ws, memory := true, load := true, tag := tag } rfl
  refine ⟨s', _, ho, hth, ⟨_, howed.trans (if_neg (by simp)), rfl, rfl, rfl, rfl⟩, hregs, hpreds, hvms, hflags, hpc, rfl⟩

/-- A thread's own part, when it waits. -/
theorem wait_outcome {w : Wait} (he : exec i s = .next (runCore i (waitBody i) s)) (ht : traceType i = none)
    (hr : IssuedOrResumed s m i .granule (.feWaitServed ⟨m.wg.uid, m.t.tid⟩) o' k) (hb : waitBody i m s.popped = .wait z w)
    (hwg : z.workgroups = s.workgroups) (hpeers : z.peers = s.peers) (hw : w.kind = .granule ∧ w.instr = i) :
    WaitsOn k o' m i .granule (fun s' => Kept z s') := by
  obtain ⟨hth, -⟩ := hr.thread?
  have hz : z.thread? m.wg.uid m.t.tid = some m.t := (thread?_congr hwg _ _).trans hth
  have hend : ∀ (F : Thread → Thread) (w' : Wait), w'.kind = .granule → w'.instr = i → F m.t = { m.t with wait := some w', stall := k } →
      o' = .next (z.modThread m.wg.uid m.t.tid F) → WaitsOn k o' m i .granule (fun s' => Kept z s') := by
    intro F w' hkind hinstr hF ho
    exact ⟨_, _, ho, State.thread?_modThread_same hz (by rw [hF]), (OnlyCores.modThread ..).kept, w', hF, hkind, hinstr⟩
  rcases hr with ⟨hp, ho, hk⟩ | ⟨hp, ho, hk⟩
  · have hstep : stepMember i (waitBody i) s.popped m =
        z.modThread m.wg.uid m.t.tid (fun t => { t with wait := some (m.waits z w), stall := stallOf i }) := by
      rw [stepMember, gate_popped hp, hb]
    rw [exec_alone he ht hp (by rw [hstep]; exact (NoNewTraps.of_workgroups (hwg.trans rfl) _).trans (.modThread _ _ _ (fun _ => ⟨rfl, rfl⟩))),
      hstep] at ho
    exact hend _ (m.waits z w) hw.1 hw.2 (by rw [hk]) ho
  · obtain ⟨w₀, hkind, hinstr, hx⟩ := exec_feWaitServed hp
    have hz : ({ z with peers := s.peers } : State) = z := by rw [← hpeers]
    rw [hx, hb] at ho
    dsimp only at ho
    rw [hz] at ho
    have hagain : w₀.again w = w₀ := by rw [Wait.again, if_pos (hw.1.trans hkind.symm)]
    exact hend _ w₀ hkind hinstr (by rw [hagain, hk]) ho

end

end Machine
end Sys2Proof
end

section
/-! PROOFS. What an access with a full/empty bit finds (R72, R90): its entry and target, its granule's bytes in a window of die SRAM, and
what it reads and takes there (R83, R91). -/

namespace Sys2Proof
namespace Machine

/-! ## States that lookups, reads and acquires leave -/

/-- `z` is `s` but for copies of translations and of buffer table entries, free choices drawn, time that an acquire awaits, and what
steps at a point have found. -/
def Looked (s z : State) : Prop :=
  z = { s with tlb := z.tlb, entryCache := z.entryCache, choice := z.choice, now := z.now, pointSeen := z.pointSeen }

theorem Looked.refl (s : State) : Looked s s := rfl

theorem Looked.trans {a b c : State} (h₁ : Looked a b) (h₂ : Looked b c) : Looked a c := by
  unfold Looked at *
  rw [h₁] at h₂
  exact h₂

theorem Looked.noControl {s z : State} (h : Looked s z) (hc : NoMigrationControl s) : NoMigrationControl z := by
  intro d; rw [h]; exact hc d

theorem Looked.kept {s z : State} (h : Looked s z) : Kept s z := by rw [h]; exact ⟨rfl, rfl, rfl⟩

theorem Looked.workgroups {s z : State} (h : Looked s z) : z.workgroups = s.workgroups := by rw [h]
theorem Looked.module {s z : State} (h : Looked s z) : z.module = s.module := by rw [h]
theorem Looked.poison {s z : State} (h : Looked s z) : z.poison = s.poison := by rw [h]
theorem Looked.uids {s z : State} (h : Looked s z) : z.uids = s.uids := by rw [h]
theorem Looked.hist {s z : State} (h : Looked s z) : z.hist = s.hist := by rw [h]

theorem pick_looked (s : State) (n : Nat) : Looked s (s.pick n).2 := by
  unfold State.pick
  split <;> rfl

theorem Looked.foldl_part {α β : Type} (state : β → State) {f : β → α → β} (hf : ∀ b x, Looked (state b) (state (f b x))) (xs : List α)
    (b : β) : Looked (state b) (state (xs.foldl f b)) := by
  induction xs generalizing b with
  | nil => exact .refl _
  | cons x xs ih => exact (hf b x).trans (ih _)

/-! ## Lookups -/

theorem translate_looked {s z : State} {ctx va : Nat} {p : Place} (h : translate s ctx va = .ok (p, z)) : Looked s z := by
  unfold translate at h
  split at h
  · cases h; exact .refl s
  · dsimp only at h
    split at h
    · cases h
    · split at h
      · split at h
        · cases h; exact .refl s
        · cases h
      · unfold translatePaged at h
        split at h
        · cases h; exact .refl s
        · split at h
          · cases h
          · cases h; rfl

theorem placesFrom_looked {s z : State} {ctx n va : Nat} {prev : Option Place} {ps : List Place}
    (h : placesFrom s ctx va n prev = .ok (ps, z)) : Looked s z := by
  induction n generalizing s va prev ps with
  | zero => cases h; exact .refl _
  | succ n ih =>
    rw [placesFrom_succ] at h
    cases hp : nextPlace s ctx va prev with
    | error c => rw [hp] at h; cases h
    | ok x =>
      obtain ⟨p, y⟩ := x
      have hy : Looked s y := by
        unfold nextPlace at hp
        split at hp
        · split at hp
          · exact translate_looked hp
          · cases hp; exact .refl s
        · exact translate_looked hp
      rw [hp] at h
      simp only [Except.bind] at h
      cases hq : placesFrom y ctx (va + 1) n (some p) with
      | error c => rw [hq] at h; cases h
      | ok w => rw [hq] at h; cases h; exact hy.trans (ih hq)

theorem readEntry_looked {s z : State} (hc : NoMigrationControl s) {holder : Actor} {c i e : Nat}
    (h : readEntry s holder c i = .ok (e, z)) : Looked s z := by
  unfold readEntry at h
  split at h
  · cases h
  · split at h
    · cases h
    · dsimp only at h
      split at h
      · cases h; exact .refl s
      · split at h
        · cases h
        · next ps y hp =>
          have hy : Looked s y := placesFrom_looked hp
          split at h
          · cases h
          · have hk : Looked s (if anyAway ps = true then y.pick (2 ^ 512) else (ofBytes (latestBytes y ps), y)).2 := by
              split
              · exact hy.trans (pick_looked ..)
              · exact hy
            generalize (if anyAway ps = true then y.pick (2 ^ 512) else (ofBytes (latestBytes y ps), y)) = k at h hk
            have hn : Looked s { k.2 with entryCache := ⟨holder, c, i, k.1⟩ :: k.2.entryCache } := hk.trans rfl
            rw [notePage_off (hn.noControl hc)] at h
            cases h
            exact hn

theorem entryOf_looked {s z : State} (hc : NoMigrationControl s) {bd : Binder} {b : Nat} {d : Bound}
    (h : entryOf s bd b = .ok (d, z)) : Looked s z := by
  unfold entryOf at h
  dsimp only at h
  split at h
  · cases h
  · split at h
    · cases h
    · next hr =>
      split at h
      · cases h; exact readEntry_looked hc hr
      · cases h

theorem bufferFor_looked {s z : State} (hc : NoMigrationControl s) {bd : Binder} {b : Nat} {f : FDef} {d : Bound}
    (h : bufferFor s bd b f = .ok (d, z)) : Looked s z := by
  unfold bufferFor at h
  split at h
  · cases h
  · next he =>
    split at h
    · cases h
    · split at h
      · cases h
      · cases h; exact entryOf_looked hc he

theorem targetHere_looked {s z : State} (hc : NoMigrationControl s) {m : Member} {o : MemOp} {n : FDef → Nat} {need : Rights} {t : Target}
    (h : targetHere m s o n need = .ok (t, z)) : Looked s z := by
  unfold targetHere targetAt at h
  split at h
  · cases h
  · split at h
    · cases h
    · next hb =>
      split at h
      · cases h
      · cases h; exact bufferFor_looked hc hb

/-! ## The bytes of a granule -/

/-- A target in one granule lies at a run of bytes of die SRAM, whatever state finds it. -/
theorem targetPlaces_granule {s z : State} {t : Target} {ps : List Place} {g : Nat} (hg : checkGranule t = .ok g)
    (hp : targetPlaces s t 1 = .ok (ps, z)) (ha : ps.all (fun p => p.away?.isNone) = true) (hn : 1 ≤ (t.d.span t.lo t.f.w).2) :
    z = s ∧ (∃ l, ps = (List.range (t.d.span t.lo t.f.w).2).map (fun i => .here (l + i) .sram)) ∧
    ∀ y : State, y.module = s.module → places y t.bd.ctx (t.d.span t.lo t.f.w).1 (t.d.span t.lo t.f.w).2 = .ok (ps, y) := by
  have h0 : t.bit 0 = t.lo := by simp [Target.bit]
  simp only [targetPlaces, h0, List.nil_append] at hp
  generalize hspan : t.d.span t.lo t.f.w = sp at hp hn ⊢
  obtain ⟨va, n⟩ := sp
  dsimp only at hp hn ⊢
  have hwin : inWindow va = true ∧ va % 16 + n ≤ 16 := by
    unfold checkGranule targetGranule at hg
    rw [hspan] at hg
    dsimp only at hg
    split at hg
    · cases hg
    · next hwin =>
      split at hg
      · next hfit =>
        refine ⟨?_, hfit⟩
        by_contra hw
        rw [if_neg hw] at hwin
        cases hwin
      · cases hg
  obtain ⟨hw, hfit⟩ := hwin
  have hrun : va % 65536 + n ≤ 65536 := by omega
  -- the first byte is in this module's die SRAM, or the span has no places here
  have hfirst : vaModule va = s.module.toNat ∧ vaOfs va < windowBase + Config.sramBytes := by
    obtain ⟨k, rfl⟩ := Nat.exists_eq_add_of_le' hn
    rw [places, placesFrom_succ, show nextPlace s t.bd.ctx va none = translate s t.bd.ctx va from rfl] at hp
    by_cases hm : vaModule va = s.module.toNat
    · refine ⟨hm, ?_⟩
      by_contra hs
      have hdie := vaDie_lt hw
      simp only [translate, hm, ne_eq, not_true, if_false, hw, if_true, hs, show ¬ 6 ≤ vaDie va by omega] at hp
      cases hp
    · have htr : translate s t.bd.ctx va = .ok (.away (vaModule va) va, s) := by simp only [translate, ne_eq, hm, not_false_eq_true, if_true]
      rw [htr] at hp
      simp only [Except.bind] at hp
      cases hq : placesFrom s t.bd.ctx (va + 1) k (some (.away (vaModule va) va)) with
      | error c => rw [hq] at hp; cases hp
      | ok w =>
        rw [hq] at hp
        cases hp
        simp [Place.away?] at ha
  have hall : ∀ y : State, y.module = s.module → places y t.bd.ctx va n =
      .ok ((List.range n).map (fun i => .here (sramLoc (vaDie va) (vaOfs va - windowBase) + i) .sram), y) := fun y hy =>
    places_run (translate_sram t.bd.ctx (by rw [hy]; exact hfirst.1) hw hfirst.2) hrun
  rw [hall s rfl] at hp
  cases hp
  exact ⟨rfl, ⟨_, rfl⟩, hall⟩

theorem one_le_span {d : Bound} (hk : d.mxk = 0) (lo w : Nat) : 1 ≤ (d.span lo w).2 := by
  simp only [Bound.span, hk, if_true]
  omega

/-- The places of a run of bytes of die SRAM. -/
def SramRun (ps : List Place) : Prop := ∃ l n, ps = (List.range n).map (fun i => Place.here (l + i) .sram)

theorem SramRun.here {ps : List Place} (h : SramRun ps) : ps.all (fun p => p.away?.isNone) = true := by
  obtain ⟨l, n, rfl⟩ := h
  exact List.all_eq_true.2 (fun p hp => by obtain ⟨i, -, rfl⟩ := List.mem_map.1 hp; rfl)

theorem SramRun.nodup {ps : List Place} (h : SramRun ps) : (locsOf ps).Nodup := by
  obtain ⟨l, n, rfl⟩ := h
  rw [locsOf_run]
  exact List.nodup_range.map (fun _ _ h => Nat.add_left_cancel h)

theorem SramRun.kindOf {ps : List Place} (h : SramRun ps) : kindOf ps = none ∨ kindOf ps = some .sram := by
  obtain ⟨l, n, rfl⟩ := h
  rw [or_iff_not_imp_left]
  intro hne
  obtain ⟨k, hk⟩ := Option.ne_none_iff_exists'.1 hne
  rw [hk]
  obtain ⟨p, hp, hkp⟩ := List.exists_of_findSome?_eq_some hk
  obtain ⟨i, -, rfl⟩ := List.mem_map.1 hp
  exact hkp ▸ rfl

/-! ## Reads and acquires -/

theorem acquireRels_looked (s : State) (agent : Actor) (sc : Scope) (rels : List Rel) (v : MemView) :
    Looked s (acquireRels s agent sc rels v).1 :=
  Looked.foldl_part (fun p : State × MemView => p.1) (fun p r => by
    dsimp only
    split
    · rfl
    · exact .refl _) rels (s, v)

theorem takeRels_looked (s : State) (agent : Actor) (sc : Scope) (acq : Bool) (rels : List Rel) (v : MemView) :
    Looked s (takeRels s agent sc acq rels v).1 := by
  unfold takeRels
  dsimp only
  split
  · exact acquireRels_looked ..
  · exact .refl s

theorem sightOf_looked (a : ReadAs) (v : MemView) (locs : List Nat) (g : Sight) (r : WriteRec) : Looked g.s (sightOf a v locs g r).s := by
  unfold sightOf
  split
  · split
    · exact .refl _
    · split
      · exact .refl _
      · dsimp only
        split <;> exact pick_looked ..
  · dsimp only
    split <;> exact pick_looked ..

theorem seeable_looked (s : State) (a : ReadAs) (v : MemView) (locs : List Nat) (rs : List WriteRec) : Looked s (seeable s a v locs rs).2 := by
  unfold seeable
  split
  · exact pick_looked ..
  · exact pick_looked ..
  · exact .refl s

theorem sightFor_looked (s : State) (a : ReadAs) (v : MemView) (locs : List Nat) : Looked s (sightFor s a v locs).s := by
  unfold sightFor
  dsimp only
  split
  · exact Looked.foldl_part Sight.s (fun g r => by
      unfold strewn
      dsimp only
      split <;> exact pick_looked ..) _ _
  · exact (seeable_looked s a v locs _).trans (Looked.foldl_part Sight.s (sightOf_looked a v locs) _ _)

theorem readCut_looked (s : State) (a : ReadAs) (v : MemView) (locs : List Nat) (hk : a.kind ≠ some .so) :
    Looked s (readCut s a v locs).2.2.1 := by
  have h := sightFor_looked s a v locs
  unfold readCut
  dsimp only
  rw [if_neg (fun hso => hk hso.1)]
  exact h.trans rfl

/-- Bytes that no write on record touches are read at a point as memory holds them. -/
theorem readCut_untouched {s : State} {agent : Actor} {p : Point} {kind : Option PageKind} (v : MemView) {locs : List Nat}
    (hmix : ∀ l, mixedAt s kind l = false) (hu : Untouched s locs) :
    (readCut s ⟨agent, .atPoint p, kind⟩ v locs).1 = locs.map s.peek := by
  have hnone : ∀ r ∈ s.hist, ∀ ls : List Nat, (∀ l ∈ ls, l ∈ locs) → r.touches ls = false := fun r hr ls hls =>
    List.any_eq_false.2 (fun c hc ht => hu r hr c hc (hls _ (by simpa using ht)))
  have hrs : s.hist.filter (fun r => r.touches locs) = [] :=
    List.filter_eq_nil_iff.2 (fun r hr => by rw [hnone r hr locs (fun _ h => h)]; exact Bool.false_ne_true)
  have hsight : sightFor s ⟨agent, .atPoint p, kind⟩ v locs = ⟨[], [], s⟩ := by
    simp [sightFor, hrs, seeable, hmix]
  have hbyte : ∀ l ∈ locs, (⟨[], [], s⟩ : Sight).byte l = s.peek l := fun l hl => by
    have hfind : s.hist.reverse.find? (fun r => r.touches [l]) = none := List.find?_eq_none.2 (fun r hr => by
      rw [hnone r (List.mem_reverse.1 hr) [l] (fun k hk => by rw [List.mem_singleton.1 hk]; exact hl)]
      exact Bool.false_ne_true)
    simp only [Sight.byte, Sight.source?, List.append_nil, List.find?_nil, initialByte, hfind]
  unfold readCut
  rw [hsight]
  exact List.map_congr_left hbyte

/-- The read of an object in die SRAM leaves what it has found at the point, and gives the bytes that memory holds there unless a write
on record touches them. -/
theorem readObject_sram {s : State} {ps : List Place} (h : SramRun ps) (agent : Actor) (v : MemView) :
    Looked s (readObject s agent v ps).2.2.2.1 ∧
    (Untouched s (locsOf ps) → (readObject s agent v ps).1 = ofBytes ((locsOf ps).map s.peek)) := by
  have hread : kindOf ps ≠ some .so ∧ (∀ l, mixedAt s (kindOf ps) l = false) ∧
      readPart s agent v (.atPoint .home) ps = readCut s ⟨agent, .atPoint .home, kindOf ps⟩ v (locsOf ps) := by
    unfold readPart
    rw [anyAway_false h.here]
    rcases h.kindOf with hk | hk <;> rw [hk] <;> exact ⟨by decide, fun _ => rfl, rfl⟩
  obtain ⟨hso, hmix, hread⟩ := hread
  unfold readObject
  rw [anyAway_false h.here, hread]
  exact ⟨readCut_looked _ _ _ _ hso, fun hu => congrArg ofBytes (readCut_untouched v hmix hu)⟩

/-! ## The checks of an access that reaches its granule -/

/-- An access of a granule, through the checks of R72: what it has found, and that nothing but its granule's bit can make it wait. -/
structure Granule (s z : State) (t : Target) (ps : List Place) : Prop where
  looked : Looked s.popped z
  run : SramRun ps
  length : ps.length = (t.d.span t.lo t.f.w).2
  places : ∀ y : State, y.module = s.module → Machine.places y t.bd.ctx (t.d.span t.lo t.f.w).1 (t.d.span t.lo t.f.w).2 = .ok (ps, y)

section
variable {s : State} {m : Member} {o : MemOp} {need : Rights} {write : Bool} {t : Target} {ps : List Place} {g : Nat}

/-- The target, and its places, of an access of a granule. -/
theorem Reaches.granule (hc : NoMigrationControl s) (hk : t.d.mxk = 0) (hg : checkGranule t = .ok g)
    (h : Reaches s m o (fun _ => 1) need write t ps) : ∃ z, targetOf m s.popped o oneElem need = .ok (t, z) ∧ pathWaits z t.d = false ∧
      targetPlaces z t 1 = .ok (ps, z) ∧ Granule s z t ps := by
  obtain ⟨z, ht, hpeers, hpath, z₂, hp, -⟩ := h.target
  have hz : Looked s.popped z := targetHere_looked hc ht
  obtain ⟨rfl, ⟨l, hl⟩, hall⟩ := targetPlaces_granule hg hp h.here.1 (one_le_span hk ..)
  refine ⟨z₂, ?_, hpath, hp, hz, ⟨l, _, hl⟩, by rw [hl, List.length_map, List.length_range], fun y hy => hall y (hy.trans (hz.module.trans rfl).symm)⟩
  have ht' : targetHere m s.popped o oneElem need = .ok (t, z₂) := ht
  rw [targetOf, ht']
  dsimp only
  rw [hpeers]

/-- A wait for a granule, with its number. -/
theorem waitsOn_since {z : State} {w : Workgroup} {u : Thread} {k since : Nat} {fill : Bool} (h : waitsOn z w u = some (k, fill, since)) :
    ∃ x, u.wait = some x ∧ x.kind = .granule ∧ x.since = since := by
  unfold waitsOn at h
  split at h
  · cases h
  · next x hx =>
    split at h
    · cases h
    · next hkind =>
      refine ⟨x, hx, by simpa using hkind, ?_⟩
      have hgo : ∀ (o : MemOp) (need : Rights) (f : Bool), (match targetOf ⟨{ w with fmts := x.fmts }, u, [u.tid]⟩ z o oneElem need with
          | .ok (y, _) => match targetGranule y with
            | some k => some (k, f, x.since)
            | none => none
          | .error _ => none) = some (k, fill, since) → x.since = since := by
        intro o need f he
        split at he
        · split at he
          · cases he; rfl
          · cases he
        · cases he
      dsimp only at h
      split at h
      · exact hgo _ _ _ h
      · exact hgo _ _ _ h
      · cases h

/-- No thread stands ahead of one that no wait precedes. -/
theorem olderWaiter_none {z : State} {n : Nat} (h : NoOlderWait z n) (g : Nat) (fill : Bool) : olderWaiter z g fill n = false := by
  refine List.any_eq_false.2 (fun w hw hany => ?_)
  obtain ⟨u, hu, hx⟩ := List.any_eq_true.1 hany
  split at hx
  · next k f since hwait =>
    obtain ⟨x, hxw, hkind, rfl⟩ := waitsOn_since hwait
    have hlt : x.since < n := of_decide_eq_true (Bool.and_eq_true_iff.1 hx).2
    exact absurd (h w hw u hu x hxw hkind) (not_le.2 hlt)
  · cases hx

end

end Machine
end Sys2Proof
end

section
/-! PROOFS. ldfe, ldfe.clr and stfe at the bank of their granule (R90, R142, R143). -/

namespace Sys2Proof
namespace Machine

section
variable {s z : State} {m : Member} {o : MemOp} {t : Target} {ps : List Place} {g : Nat} {i : Instr}

theorem Looked.kept_popped (h : Looked s.popped z) : Kept s z := Kept.trans (b := s.popped) ⟨rfl, rfl, rfl⟩ h.kept

/-! ## A wait -/

theorem waitGranule_waits (h : Looked s.popped z) : ∃ y w, waitGranule m z i t = .wait y w ∧ Kept s y ∧ y.workgroups = s.workgroups ∧
    w.kind = .granule ∧ w.instr = i := by
  have hcount : ∀ y : State, y = z ∨ y = z.count (vaDie t.d.base) 1310 1 → Kept s y ∧ y.workgroups = s.workgroups := by
    rintro y (rfl | rfl)
    · exact ⟨h.kept_popped.trans ⟨rfl, rfl, rfl⟩, h.workgroups⟩
    · exact ⟨h.kept_popped.trans ⟨rfl, rfl, rfl⟩, h.workgroups⟩
  unfold waitGranule waitFor
  split
  · obtain ⟨hk, hw⟩ := hcount z (.inl rfl)
    exact ⟨_, _, rfl, hk.trans ⟨rfl, rfl, rfl⟩, hw, rfl, rfl⟩
  · obtain ⟨hk, hw⟩ := hcount _ (.inr rfl)
    exact ⟨_, _, rfl, hk.trans ⟨rfl, rfl, rfl⟩, hw, rfl, rfl⟩

/-- Lookups bring no older wait. -/
theorem NoOlderWait.looked (h : NoOlderWait s (ownNumber m s)) (hz : Looked s.popped z) : NoOlderWait z (ownNumber m z) := by
  have hw : z.workgroups = s.workgroups := hz.workgroups
  have hn : ownNumber m z = ownNumber m s := by
    unfold ownNumber
    rw [hz.uids]
    rfl
  unfold NoOlderWait
  rw [hw, hn]
  exact h

/-! ## A load -/

theorem elemBits_bytesOf_ofBytes {d : Bound} (hk : d.mxk = 0) (lo w : Nat) (bs : List Byte) :
    elemBits d lo w (bytesOf (ofBytes bs) bs.length) = elemBits d lo w bs := by
  simp only [elemBits, hk, if_true, ofBytes_bytesOf]
  rw [natField_of_lt (ofBytes_lt bs)]

theorem requestTag_kept (s : State) (die va : Nat) : Kept s (requestTag s die va).2 := by
  unfold requestTag
  dsimp only
  split
  · exact (pick_looked s 13).kept.trans ⟨rfl, rfl, rfl⟩
  · split
    · exact .refl s
    · exact ⟨rfl, rfl, rfl⟩

/-- The result of a load, owed. -/
def loadEffect (d : VReg) (x : Nat) (tag : Option (Fin 13 × Nat)) : Effect :=
  { writes := [.v d (BitVec.ofNat 64 x)], memory := true, load := true, tag := tag }

/-- The step at the bank of a full granule: the element that memory holds is owed, unless a write on record touches it, and only the
granule's bit may differ. -/
theorem takeGranule_takes (h : Granule s z t ps) (d : VReg) (clear : Bool) : ∃ y v bits tag,
    takeGranule m z d o clear t (some g) ps = .done y (loadEffect d (elemBits t.d t.lo t.f.w (bytesOf bits ps.length)) tag) ∧
    y.mem = s.mem ∧ y.peers = s.peers ∧ y.workgroups = (s.setView m.wg.uid m.t.tid v).workgroups ∧
    y.full = (if clear then s.full.filter (fun k => k != g) else s.full) ∧
    (Untouched s (locsOf ps) → bits = ofBytes ((locsOf ps).map s.peek)) := by
  unfold takeGranule
  dsimp only
  have ha : Looked s.popped (takeFill z t.bd.agent o.scope g (z.viewOf m.wg.uid m.t.tid)).1 := h.looked.trans (takeRels_looked ..)
  generalize takeFill z t.bd.agent o.scope g (z.viewOf m.wg.uid m.t.tid) = a at ha ⊢
  obtain ⟨hread, hbits⟩ := readObject_sram h.run (s := a.1) t.bd.agent a.2
  generalize readObject a.1 t.bd.agent a.2 ps = r at hread hbits ⊢
  have hb : Looked s.popped (takeRels r.2.2.2.1 t.bd.agent o.scope true r.2.1 r.2.2.2.2).1 := (ha.trans hread).trans (takeRels_looked ..)
  generalize takeRels r.2.2.2.1 t.bd.agent o.scope true r.2.1 r.2.2.2.2 = b at hb ⊢
  have hk : Kept s (requestTag b.1 m.wg.core.die.val t.d.base).2 ∧
      (requestTag b.1 m.wg.core.die.val t.d.base).2.workgroups = s.workgroups :=
    ⟨hb.kept_popped.trans (requestTag_kept ..), (requestTag_coresKept ..).1.trans hb.workgroups⟩
  generalize requestTag b.1 m.wg.core.die.val t.d.base = k at hk ⊢
  obtain ⟨hkept, hwg⟩ := hk
  have hview := hkept.trans (OnlyCores.modThread k.2 m.wg.uid m.t.tid (fun t => { t with view := b.2 })).kept
  have hviews := modThread_workgroups_congr hwg m.wg.uid m.t.tid (fun t => { t with view := b.2 })
  have huntouched : Untouched s (locsOf ps) → r.1 = ofBytes ((locsOf ps).map s.peek) := fun hu => by
    have hpeek : a.1.peek = s.peek := funext (fun l => by rw [State.peek, ha.kept.mem]; rfl)
    rw [hbits (fun r hr => hu r (by rw [ha.hist] at hr; exact hr)), hpeek]
  cases clear with
  | true => exact ⟨_, b.2, r.1, k.1, rfl, hview.mem, hview.peers, hviews, congrArg (List.filter (fun k => k != g)) hview.full, huntouched⟩
  | false => exact ⟨_, b.2, r.1, k.1, rfl, hview.mem, hview.peers, hviews, hview.full, huntouched⟩

section
variable (hc : NoMigrationControl s) (hk : t.d.mxk = 0) (hg : checkGranule t = .ok g) (h : Reaches s m o (fun _ => 1) { r := true } false t ps)
include hc hk hg h

/-- A load waits at an empty granule. -/
theorem bodyTake_empty (d : VReg) (clear : Bool) (he : g ∉ s.full) : ∃ y w, bodyTake i d o clear m s.popped = .wait y w ∧ Kept s y ∧
    y.workgroups = s.workgroups ∧ w.kind = .granule ∧ w.instr = i := by
  obtain ⟨z, ht, hpath, hp, hz⟩ := h.granule hc hk hg
  have hempty : z.full.contains g = false := by rw [hz.looked.kept_popped.full]; simpa using he
  unfold bodyTake
  rw [ht]
  dsimp only
  rw [hg]
  dsimp only
  rw [if_neg (by rw [hpath]; exact Bool.false_ne_true), hp]
  dsimp only
  rw [anyAway_false h.here.1, if_neg Bool.false_ne_true, if_pos (by rw [hempty]; rfl)]
  exact waitGranule_waits hz.looked

/-- A load takes its element from a full granule. -/
theorem bodyTake_full (d : VReg) (clear : Bool) (hn : NoOlderWait s (ownNumber m s)) (hf : g ∈ s.full) : ∃ y v bits tag,
    bodyTake i d o clear m s.popped = .done y (loadEffect d (elemBits t.d t.lo t.f.w (bytesOf bits ps.length)) tag) ∧
    y.mem = s.mem ∧ y.peers = s.peers ∧ y.workgroups = (s.setView m.wg.uid m.t.tid v).workgroups ∧
    y.full = (if clear then s.full.filter (fun k => k != g) else s.full) ∧
    (Untouched s (locsOf ps) → bits = ofBytes ((locsOf ps).map s.peek)) := by
  obtain ⟨z, ht, hpath, hp, hz⟩ := h.granule hc hk hg
  have hfull : z.full.contains g = true := by rw [hz.looked.kept_popped.full]; simpa using hf
  have hpoison : anyPoison z ps = false := by
    have : z.poison = [] := hz.looked.poison.trans h.clean
    simp [anyPoison, this]
  unfold bodyTake
  rw [ht]
  dsimp only
  rw [hg]
  dsimp only
  rw [if_neg (by rw [hpath]; exact Bool.false_ne_true), hp]
  dsimp only
  rw [anyAway_false h.here.1, if_neg Bool.false_ne_true,
    if_neg (by rw [hfull, olderWaiter_none (hn.looked hz.looked), Bool.and_false]; exact Bool.false_ne_true), hpoison,
    if_neg Bool.false_ne_true]
  exact takeGranule_takes hz d clear

end

/-! ## A store -/

/-- The step at the bank of an empty granule: the element stands in memory, no other byte changes, and the granule is full. -/
theorem fillGranule_fills (hc : NoMigrationControl s) (hwf : memWf s.mem = true) (hk : t.d.mxk = 0)
    (hm : vaModule t.d.base = s.module.toNat) (h : Granule s z t ps) (d : VReg) : ∃ y v,
    fillGranule m z d o t g = .done y {} ∧ y.peers = s.peers ∧ y.workgroups = (s.setView m.wg.uid m.t.tid v).workgroups ∧
    (∀ j, j ∈ y.full ↔ j ∈ s.full ∨ j = g) ∧ SameBut (locsOf ps) s y ∧
    (locsOf ps).map y.peek = elemBytes t.d t.lo t.f.w (elemOf t.f (m.t.readV d).toNat 0) ((locsOf ps).map s.peek) := by
  have hcz : NoMigrationControl z := h.looked.noControl hc
  have hwz : memWf z.mem = true := by rw [h.looked.kept.mem]; exact hwf
  have hpeek : ∀ l, z.peek l = s.peek l := fun l => by rw [State.peek, h.looked.kept.mem]; rfl
  have hold : latestBytes z ps = (locsOf ps).map s.peek :=
    (latestBytes_here z h.run.here).trans (List.map_congr_left (fun l _ => hpeek l))
  have hwrite : ∀ (w : Writer) (v : MemView), ∃ y, writeElem z t.bd w v .back t.d t.lo t.f.w (elemOf t.f (m.t.readV d).toNat 0) = .ok y ∧
      OnlyWrites z y.1 ∧ SameBut (locsOf ps) s y.1 ∧
      (locsOf ps).map y.1.peek = elemBytes t.d t.lo t.f.w (elemOf t.f (m.t.readV d).toNat 0) ((locsOf ps).map s.peek) := by
    intro w v
    unfold writeElem
    dsimp only
    rw [h.places z (h.looked.module.trans rfl)]
    dsimp only
    rw [notePage_off hcz, if_pos hk, hold]
    refine ⟨_, rfl, OnlyWrites.storeBytes .., fun l hl => (storeBytes_other hcz hwz h.run.here _ _ _ _ _ _ hl).trans (hpeek l), ?_⟩
    exact storeBytes_same hcz hwz h.run.here _ _ _ _ _ h.run.nodup
      (by rw [length_elemBytes, List.length_map, length_locsOf h.run.here])
  unfold fillGranule
  dsimp only
  obtain ⟨y, hy, hyw, hother, hsame⟩ := hwrite ⟨t.bd.agent, some .home, true, (z.viewOf m.wg.uid m.t.tid).fences,
    some (relOf z t.bd.agent o.scope (z.viewOf m.wg.uid m.t.tid))⟩ (z.viewOf m.wg.uid m.t.tid)
  rw [hy]
  obtain ⟨y, v⟩ := y
  dsimp only at hyw hother hsame ⊢
  have hviewed := (OnlyCores.modThread y m.wg.uid m.t.tid (fun t => { t with view := v })).kept
  have hymod : y.module = z.module := by rw [hyw]
  have hyfull : y.full = s.full := (show y.full = z.full by rw [hyw]).trans h.looked.kept_popped.full
  have hypeers : y.peers = s.peers := (show y.peers = z.peers by rw [hyw]).trans h.looked.kept_popped.peers
  have hywg : y.workgroups = s.workgroups := (show y.workgroups = z.workgroups by rw [hyw]).trans h.looked.workgroups
  have hmod : vaModule t.d.base = (y.setView m.wg.uid m.t.tid v).module.toNat := by
    have : (y.setView m.wg.uid m.t.tid v).module = y.module := by
      have := OnlyCores.modThread y m.wg.uid m.t.tid (fun t => { t with view := v })
      rw [State.setView, this]
    rw [this, hymod, h.looked.module]
    exact hm
  rw [if_pos hmod]
  have hfull : (y.setView m.wg.uid m.t.tid v).full = s.full := hviewed.full.trans hyfull
  refine ⟨_, v, rfl, hviewed.peers.trans hypeers, modThread_workgroups_congr hywg .., fun j => ?_, fun l hl => ?_, ?_⟩
  · simp only [setFull, hfull]
    split
    · next hin =>
      refine ⟨.inl, fun hj => hj.elim id (fun e => ?_)⟩
      rw [e]
      simpa using hin
    · rw [List.mem_cons]
      tauto
  · exact (hviewed.sameMemory l).trans (hother l hl)
  · exact (List.map_congr_left (fun l _ => hviewed.sameMemory l)).trans hsame

section
variable (hc : NoMigrationControl s) (hk : t.d.mxk = 0) (hg : checkGranule t = .ok g) (h : Reaches s m o (fun _ => 1) { w := true } true t ps)
include hc hk hg h

/-- A store waits at a full granule. -/
theorem bodyFill_full (d : VReg) (hf : g ∈ s.full) : ∃ y w, bodyFill i d o m s.popped = .wait y w ∧ Kept s y ∧
    y.workgroups = s.workgroups ∧ w.kind = .granule ∧ w.instr = i := by
  obtain ⟨z, ht, hpath, -, hz⟩ := h.granule hc hk hg
  have hfull : z.full.contains g = true := by rw [hz.looked.kept_popped.full]; simpa using hf
  have hmod : vaModule t.d.base = z.module.toNat := by rw [hz.looked.module]; exact h.here.2
  unfold bodyFill
  rw [ht]
  dsimp only
  rw [hg]
  dsimp only
  rw [if_neg (by rw [hpath]; exact Bool.false_ne_true), if_neg (not_not.2 hmod), if_pos (by rw [hfull]; rfl)]
  exact waitGranule_waits hz.looked

/-- A store fills an empty granule. -/
theorem bodyFill_empty (d : VReg) (hn : NoOlderWait s (ownNumber m s)) (he : g ∉ s.full) : ∃ y v,
    bodyFill i d o m s.popped = .done y {} ∧ y.peers = s.peers ∧ y.workgroups = (s.setView m.wg.uid m.t.tid v).workgroups ∧
    (∀ j, j ∈ y.full ↔ j ∈ s.full ∨ j = g) ∧ SameBut (locsOf ps) s y ∧
    (locsOf ps).map y.peek = elemBytes t.d t.lo t.f.w (elemOf t.f (m.t.readV d).toNat 0) ((locsOf ps).map s.peek) := by
  obtain ⟨z, ht, hpath, -, hz⟩ := h.granule hc hk hg
  have hempty : z.full.contains g = false := by rw [hz.looked.kept_popped.full]; simpa using he
  have hmod : vaModule t.d.base = z.module.toNat := by rw [hz.looked.module]; exact h.here.2
  unfold bodyFill
  rw [ht]
  dsimp only
  rw [hg]
  dsimp only
  rw [if_neg (by rw [hpath]; exact Bool.false_ne_true), if_neg (not_not.2 hmod),
    if_neg (by rw [hempty, olderWaiter_none (hn.looked hz.looked)]; exact Bool.false_ne_true)]
  exact fillGranule_fills hc h.sorted hk h.here.2 hz d

end

/-- What a claim says of the element of a granule's target: its bits at the target's places. -/
theorem elementIs_granule (h : Granule s z t ps) (s' : State) {x : Nat} (hx : elemBits t.d t.lo t.f.w ((locsOf ps).map s'.peek) = x) :
    ElementIs s.popped s' t 0 x := by
  have h0 : t.bit 0 = t.lo := by simp [Target.bit]
  unfold ElementIs
  rw [h0, h.places s.popped rfl]
  intro qs y he
  cases he
  exact hx

end

section
variable {s : State} {m : Member} {o : MemOp} {t : Target} {ps : List Place} {g k : Nat} {i : Instr} {o' : Out}
  (he : exec i s = .next (runCore i (waitBody i) s)) (hty : traceType i = none) (hg : checkGranule t = .ok g) (hk : t.d.mxk = 0)
  (hc : NoMigrationControl s) (hn : NoOlderWait s (ownNumber m s))
  (hr : IssuedOrResumed s m i .granule (.feWaitServed ⟨m.wg.uid, m.t.tid⟩) o' k)
include he hty hg hk hc hn hr

/-- ldfe and, with `clear`, ldfe.clr. -/
theorem take_outcome {d : VReg} {clear : Bool} (hb : waitBody i = bodyTake i d o clear)
    (h : Reaches s m o (fun _ => 1) { r := true } false t ps) :
    (g ∉ s.full → WaitsOn k o' m i .granule (fun s' => SameMemory s s' ∧ s'.full = s.full)) ∧
    (g ∈ s.full → ∃ x s', WritesLaterAt k o' m [.v d x] 0 true true ∧ (Untouched s (locsOf ps) → ElementIs s.popped s t 0 x.toNat) ∧
      o' = .next s' ∧ SameMemory s s' ∧ OthersKept s s' m ∧ ∀ j, j ∈ s'.full ↔ j ∈ s.full ∧ (clear = true → j ≠ g)) := by
  refine ⟨fun hempty => ?_, fun hfull => ?_⟩
  · obtain ⟨z, w, hw, hkept, hwg, hwait⟩ := bodyTake_empty (i := i) hc hk hg h d clear hempty
    obtain ⟨s', t', ho, hth, hz, hw'⟩ := wait_outcome he hty hr (by rw [hb]; exact hw) hwg hkept.peers hwait
    exact ⟨s', t', ho, hth, ⟨(hkept.trans hz).sameMemory, (hkept.trans hz).full⟩, hw'⟩
  · obtain ⟨z, v, bits, tag, hd, hmem, hpeers, hwg, hzfull, hbits⟩ := bodyTake_full (i := i) hc hk hg h d clear hn hfull
    obtain ⟨s', ho, hz, hothers, hth⟩ := done_outcome he hty hr (by rw [hb]; exact hd) rfl hwg hpeers
    obtain ⟨y, -, -, -, hy⟩ := h.granule hc hk hg
    refine ⟨_, s', writesLaterAt_ended ho hth, fun hu => ?_, ho, fun l => ?_, hothers, fun j => ?_⟩
    · refine elementIs_granule hy s ?_
      rw [hbits hu, BitVec.toNat_ofNat, Nat.mod_eq_of_lt (elemBits_lt _ _ h.legal.2 _)]
      have hlen : ((locsOf ps).map s.peek).length = ps.length := by rw [List.length_map, length_locsOf h.here.1]
      rw [← hlen, elemBits_bytesOf_ofBytes hk]
    · rw [State.peek, hz.mem, hmem]
      rfl
    · rw [hz.full, hzfull]
      cases clear <;> simp

/-- stfe. -/
theorem fill_outcome {d : VReg} (hb : waitBody i = bodyFill i d o) (h : Reaches s m o (fun _ => 1) { w := true } true t ps) :
    (g ∈ s.full → WaitsOn k o' m i .granule (fun s' => SameMemory s s' ∧ s'.full = s.full)) ∧
    (g ∉ s.full → ∃ s', WritesNowAt k o' m [] 0 ∧ o' = .next s' ∧ SameBut (locsOf ps) s s' ∧ OthersKept s s' m ∧
      ElementIs s.popped s' t 0 (elemOf t.f (m.t.readV d).toNat 0) ∧ ∀ j, j ∈ s'.full ↔ j ∈ s.full ∨ j = g) := by
  refine ⟨fun hfull => ?_, fun hempty => ?_⟩
  · obtain ⟨z, w, hw, hkept, hwg, hwait⟩ := bodyFill_full (i := i) hc hk hg h d hfull
    obtain ⟨s', t', ho, hth, hz, hw'⟩ := wait_outcome he hty hr (by rw [hb]; exact hw) hwg hkept.peers hwait
    exact ⟨s', t', ho, hth, ⟨(hkept.trans hz).sameMemory, (hkept.trans hz).full⟩, hw'⟩
  · obtain ⟨z, v, hd, hpeers, hwg, hzfull, hother, hsame⟩ := bodyFill_empty (i := i) hc hk hg h d hn hempty
    obtain ⟨s', ho, hz, hothers, hth⟩ := done_outcome he hty hr (by rw [hb]; exact hd) rfl hwg hpeers
    obtain ⟨y, -, -, -, hy⟩ := h.granule hc hk hg
    have hpeek : s'.peek = z.peek := funext hz.sameMemory
    refine ⟨s', writesNowAt_ended ho hth, ho, fun l hl => ?_, hothers, elementIs_granule hy s' ?_, fun j => ?_⟩
    · rw [hpeek]
      exact hother l hl
    · have hlen : ((locsOf ps).map s.peek).length = (t.d.span t.lo t.f.w).2 := by
        rw [List.length_map, length_locsOf h.here.1, hy.length]
      rw [hpeek, hsame, elemBits_elemBytes hk (by have := h.legal.1; omega) _ hlen, elemOf, natField, Nat.mod_mod]
    · rw [hz.full]
      exact hzfull j

end

end Machine
end Sys2Proof

open Sys2Proof Sys2Proof.Machine

/-- Settles O31: a granule's bytes lie in a window of die SRAM, which no translation moves, so a resumed access is as its issue; with no
older wait its bit alone decides whether it waits. -/
theorem fullEmptyAccesses : Obligations.FullEmptyAccesses := by
  unfold Obligations.FullEmptyAccesses
  intro c d o s m t ps g k i o' hg hk _ hc hn hr
  refine ⟨fun hi h => ?_, fun hi h => ?_⟩
  · rcases hi with rfl | rfl
    · have hout := take_outcome (d := d) (clear := false) rfl rfl hg hk hc hn hr rfl h
      simpa using hout
    · have hout := take_outcome (d := d) (clear := true) rfl rfl hg hk hc hn hr rfl h
      simpa using hout
  · subst hi
    obtain ⟨hwaits, hfills⟩ := fill_outcome (d := d) rfl rfl hg hk hc hn hr rfl h
    refine ⟨hwaits, fun he => ?_⟩
    obtain ⟨s', hnow, ho, hother, hothers, helem, hfull⟩ := hfills he
    exact ⟨s', hnow, ho, hother, hothers, fun _ => helem, hfull⟩

end
